-- ==== Sys2Proof/Word.lean ====
section
/-! DEFINITION. The word types of the MXJ-64 and the one sparse table that every array of the machine is held in. -/

namespace Sys2Proof

/-- A byte of any memory (R8). -/
abbrev Byte := BitVec 8

/-- A 64-bit word: a scalar register, a control-space register. -/
abbrev Word := BitVec 64

/-- The width of a handle entry (R64), a command descriptor (R184), a packet header (R256). -/
abbrev Wide := BitVec 256

/-- A sparse array: keys strictly rising, and no entry equal to what an unlisted key holds. -/
abbrev Tbl (α : Type) := List (Nat × α)

/-- What key `k` holds; `d` is what an unlisted key holds. -/
def Tbl.get {α : Type} (d : α) : Tbl α → Nat → α
  | [], _ => d
  | (k', v) :: t, k => if k' = k then v else Tbl.get d t k

/-- An entry put before the first greater key. -/
def Tbl.insert {α : Type} : Tbl α → Nat → α → Tbl α
  | [], k, v => [(k, v)]
  | (k', v') :: t, k, v => if k < k' then (k, v) :: (k', v') :: t else (k', v') :: Tbl.insert t k v

/-- Key `k` without an entry. -/
def Tbl.erase {α : Type} (t : Tbl α) (k : Nat) : Tbl α := t.filter fun e => e.1 != k

/-- Key `k` set to `v`, in the one canonical form. -/
def Tbl.set {α : Type} [DecidableEq α] (d : α) (t : Tbl α) (k : Nat) (v : α) : Tbl α :=
  if v = d then Tbl.erase t k else Tbl.insert (Tbl.erase t k) k v

/-- Every entry at or above `lo`, keys strictly rising, none equal to `d`. -/
def Tbl.wfFrom {α : Type} [DecidableEq α] (d : α) : Nat → Tbl α → Bool
  | _, [] => true
  | lo, (k, v) :: t => decide (lo ≤ k) && decide (v ≠ d) && Tbl.wfFrom d (k + 1) t

/-- The canonical form. -/
def Tbl.wf {α : Type} [DecidableEq α] (d : α) (t : Tbl α) : Bool := Tbl.wfFrom d 0 t

/-- The keys that `p` accepts return to what an unlisted key holds. -/
def Tbl.clear {α : Type} (p : Nat → Bool) (t : Tbl α) : Tbl α := t.filter fun e => !(p e.1)

end Sys2Proof
end

