-- ==== Sys2Proof/Syntax.lean ====
section
/-! DEFINITION. The commands of the block: one constructor of `Instr` per row of spec/opcode_table.json, with its operands.

A command is one whole step of the package (95_what_each_step_holds.md). A compositor instruction names its core and
the fields of its 32-bit word, reserved bits included (`rz`). An engine step names its core, its queue and the bank
units whose words failed parity when the step read them (`bad`, R432). What the world outside brings (host data,
packets of other packages, measurements, test results) is an operand. -/

namespace Sys2Proof

/-- A core: folio die and flat index (R191, R244). -/
structure CoreId where
  die : Fin 64
  flat : Fin 72
deriving DecidableEq, Repr

/-- The four command engines of a core (R181). -/
inductive Engine where
  | platen | brayer | move | sync
deriving DecidableEq, Repr

/-- How a PCIe read that ends badly ended (R405). -/
inductive PcieOutcome where
  | timeout | unsupported | poisoned
deriving DecidableEq, Repr

/-- What a read of host memory brought: its bytes, or how it failed (R405). -/
inductive HostRead where
  | data (bytes : List Byte)
  | failed (o : PcieOutcome)
deriving DecidableEq, Repr

/-- Who makes an access of the control space (R387, R427, R476): a function of a port, a colophon, a fabric packet. -/
inductive Accessor where
  | func (port : Fin 2) (f : Fin 64)
  | colophon
  | fabric
deriving DecidableEq, Repr

/-- A packet (R256): its 32-byte header, its payload, and the mark of R292 that a flit of it came from a replay. -/
structure Packet where
  hdr : Wide
  payload : List Byte
  replayed : Bool
deriving DecidableEq, Repr

/-- One hop output (R262, R275): die 0 to 67, router 0 to 71, 126 the hub crossbar, 127 the quoin switch; the output. -/
structure Hop where
  die : Nat
  router : Nat
  out : Nat
deriving DecidableEq, Repr

/-- The unit of a reset (R422). -/
inductive ResetUnit where
  | core (c : CoreId)
  | galley (die : Fin 64) (g : Fin 4)
  | partition (p : Fin 64)
  | package
deriving DecidableEq, Repr

/-- The failures that a proof pass found on one galley (R421, R484): cores of the galley that failed a test, and weight
rows (core of the galley, array, row) that failed. -/
structure ProofResult where
  cores : List (Fin 18)
  rows : List (Fin 18 × Fin 32 × Fin 1024)
deriving DecidableEq, Repr

/-- A block of the broadcast (R419): whether of the proof-pass program, or of the microcode, and its number. -/
structure FwBlock where
  proof : Bool
  n : Nat
deriving DecidableEq, Repr

/-- What steps 4 and 5 of R412 meet: blocks altered on their way into a die (R419), sends of a block to a die alone that did not
match either, the proof-pass failures of each galley (key 4 × die + galley), and the hubs that failed and whether the crossbar
failed too (R421). -/
structure BringUp where
  altered : List (Fin 64 × FwBlock)
  again : List (Fin 64 × FwBlock × Nat)
  proof : List (Fin 256 × ProofResult)
  hubs : List (Fin 64 × Bool)
deriving DecidableEq, Repr

/-- What the carrier and NOR bring to a power-on (R412): milliseconds taken, whether the ROM reads the image as NOR holds it, the
strap lands, what steps 4 and 5 meet, and whether the identity chain matched (R469). -/
structure BootInput where
  ms : Nat
  firmwareOk : Bool
  straps : BitVec 4
  found : BringUp
  chainOk : Bool
deriving DecidableEq, Repr

/-- What an NOR write was for (R473, R369, R430, R416, R446). -/
inductive NorWrite where
  | lifetime | stagedImage | firmware | repairLog | record | powerdown
deriving DecidableEq, Repr

/-- One answer to an imprint census (R375): position, imprint sequence, imprint digest. -/
structure CensusAnswer where
  pos : Fin 64
  seq : BitVec 32
  digest : List Byte
deriving DecidableEq, Repr

/-- The sources of a circuit break (R267). -/
inductive BreakCause where
  | fenced | portDown
deriving DecidableEq, Repr

/-- Where a management request came from (R465, R467): the I3C bus, or PCIe (VDM or DOE) of a port. -/
inductive MgmtVia where
  | i3c
  | pcie (port : Fin 2)
deriving DecidableEq, Repr

/-- Registers of a function's configuration space that the spec gives a value (R379, R405): Vendor and Device ID, Revision ID and
class code, AER's uncorrectable errors; and any other. -/
inductive ConfigReg where
  | ids | classCode | aer | other
deriving DecidableEq, Repr

/-- A configuration request (R378, R383, R401, R405, R413): a read; writes of VF Enable and NumVFs, of the power state, of Max Read
Request Size (128 × 2^n bytes), of the completion timeout of Device Control 2 (in ticks; none: disabled), of MSI-X Enable and
Function Mask; or ones written to AER's uncorrectable errors. -/
inductive ConfigOp where
  | read (reg : ConfigReg)
  | sriov (enable : Bool) (numVfs : Fin 64)
  | power (d3hot : Bool)
  | maxRead (n : Fin 6)
  | timeout (ticks : Option Nat)
  | msix (enable mask : Bool)
  | aerClear (bits : BitVec 32)
deriving DecidableEq, Repr

/-- The commands. Each docstring gives the row's rule. -/
inductive Instr where
  -- compositor instructions (06)
  /-- R154 -/ | nop (c : CoreId) (rz : BitVec 26)
  /-- R154 -/ | alu (c : CoreId) (rd ra rb : BitVec 5) (rz : BitVec 7) (fn : BitVec 4)
  /-- R154 -/ | addi (c : CoreId) (rd ra : BitVec 5) (imm : BitVec 16)
  /-- R154 -/ | andi (c : CoreId) (rd ra : BitVec 5) (imm : BitVec 16)
  /-- R154 -/ | ori (c : CoreId) (rd ra : BitVec 5) (imm : BitVec 16)
  /-- R154 -/ | xori (c : CoreId) (rd ra : BitVec 5) (imm : BitVec 16)
  /-- R154 -/ | shi (c : CoreId) (rd ra : BitVec 5) (imm : BitVec 16)
  /-- R154 -/ | li (c : CoreId) (rd : BitVec 5) (imm : BitVec 21)
  /-- R154 -/ | lis (c : CoreId) (rd : BitVec 5) (rz : BitVec 5) (imm : BitVec 16)
  /-- R154 -/ | cmp (c : CoreId) (pd cond : BitVec 3) (ra rb : BitVec 5) (rz : BitVec 10)
  /-- R154 -/ | cmpi (c : CoreId) (pd cond : BitVec 3) (ra : BitVec 5) (imm : BitVec 15)
  /-- R154 -/ | plog (c : CoreId) (pd pa pb fn : BitVec 3) (rz : BitVec 14)
  /-- R154 -/ | pbit (c : CoreId) (pd : BitVec 3) (ra rb : BitVec 5) (rz : BitVec 13)
  /-- R154 -/ | prd (c : CoreId) (rd : BitVec 5) (rz : BitVec 21)
  /-- R154 -/ | br (c : CoreId) (p : BitVec 3) (neg : Bool) (off : BitVec 22)
  /-- R154 -/ | jr (c : CoreId) (p : BitVec 3) (neg : Bool) (rz1 : BitVec 1) (ra : BitVec 5) (rz : BitVec 16)
  /-- R154 -/ | jal (c : CoreId) (rd : BitVec 5) (imm : BitVec 21)
  /-- R159 -/ | loop (c : CoreId) (n : BitVec 2) (rz : BitVec 8) (body : BitVec 16)
  /-- R161 -/ | setlc (c : CoreId) (n : BitVec 2) (rz1 : BitVec 3) (ra : BitVec 5) (rz : BitVec 16)
  /-- R154 -/ | getlc (c : CoreId) (rd : BitVec 5) (rz : BitVec 19) (n : BitVec 2)
  /-- R161 -/ | liter (c : CoreId) (rd : BitVec 5) (rz : BitVec 19) (level : BitVec 2)
  /-- R171 -/ | sld (c : CoreId) (rd ra : BitVec 5) (handle imm : BitVec 8)
  /-- R171 -/ | sst (c : CoreId) (rs ra : BitVec 5) (handle imm : BitVec 8)
  /-- R157 -/ | slotw (c : CoreId) (rd ra : BitVec 5) (rz : BitVec 16)
  /-- R157 -/ | pass (c : CoreId) (rz : BitVec 26)
  /-- R172 -/ | cwait (c : CoreId) (pd : BitVec 3) (ra rb : BitVec 5) (flag : BitVec 8) (rz : BitVec 5)
  /-- R219 -/ | cwaitArrival (c : CoreId)
  /-- R220 -/ | cwaitTimeout (c : CoreId)
  /-- R173 -/ | tick (c : CoreId) (rd : BitVec 5) (rz : BitVec 21)
  /-- R165 -/ | push (c : CoreId) (p : BitVec 3) (neg : Bool) (queue : BitVec 4) (template : BitVec 10) (sb : BitVec 5)
      (rz : BitVec 3)
  /-- R170 -/ | pushStallEnd (c : CoreId)
  /-- R177 -/ | prime (c : CoreId) (ra : BitVec 5) (rz : BitVec 16) (count : BitVec 5)
  /-- R154 -/ | halt (c : CoreId) (rz : BitVec 26)
  /-- R176: the 128-byte line `line` arrives; `bad`: it failed parity in the store or the cache (R435, R441) -/
  | icacheLineFill (c : CoreId) (line : Nat) (bad : Bool)
  /-- R174 -/ | compositorBegin (c : CoreId)
  -- writes of core registers with behaviour of their own; `v` is the value written
  /-- R174 -/ | cmpCtrlStart (c : CoreId) (v : Word)
  /-- R516 -/ | cmpCtrlStop (c : CoreId) (v : Word)
  /-- R163 -/ | cmpPcWrite (c : CoreId) (v : Word)
  /-- R180 -/ | cmpCodeWrite (c : CoreId) (v : Word)
  /-- R88 -/  | handleSelLoad (c : CoreId) (v : Word)
  /-- R68 -/  | handleSelInstall (c : CoreId) (v : Word)
  /-- R222 -/ | creditPoolWrite (c : CoreId) (pool : Fin 32) (v : Word)
  /-- R11: a write of 4 or 8 bytes at control-space offset `off` -/
  | registerWrite (who : Accessor) (off : BitVec 32) (size8 : Bool) (v : Word)
  -- engine commands (04, 05, 07)
  /-- R183; `par`: a parity error is found in the core's control state (R441) -/
  | commandIssue (c : CoreId) (e : Engine) (par : Bool)
  /-- R185 -/ | commandComplete (c : CoreId) (q : Fin 16)
  /-- R168 -/ | skipSignal (c : CoreId) (q : Fin 16)
  /-- R104 -/ | matvec (c : CoreId) (q : Fin 16) (bad : List Nat)
  /-- R110 -/ | kvAppend (c : CoreId) (q : Fin 16) (bad : List Nat)
  /-- R112 -/ | attScore (c : CoreId) (q : Fin 16) (bad : List Nat)
  /-- R113 -/ | attApply (c : CoreId) (q : Fin 16) (bad : List Nat)
  /-- R122 -/ | brSetlen (c : CoreId) (q : Fin 16)
  /-- R131 -/ | brAdd (c : CoreId) (q : Fin 16) (bad : List Nat)
  /-- R131 -/ | brSub (c : CoreId) (q : Fin 16) (bad : List Nat)
  /-- R131 -/ | brMul (c : CoreId) (q : Fin 16) (bad : List Nat)
  /-- R131 -/ | brFma (c : CoreId) (q : Fin 16) (bad : List Nat)
  /-- R131 -/ | brMax (c : CoreId) (q : Fin 16) (bad : List Nat)
  /-- R131 -/ | brMin (c : CoreId) (q : Fin 16) (bad : List Nat)
  /-- R131 -/ | brAbs (c : CoreId) (q : Fin 16) (bad : List Nat)
  /-- R131 -/ | brNeg (c : CoreId) (q : Fin 16) (bad : List Nat)
  /-- R131 -/ | brCopy (c : CoreId) (q : Fin 16) (bad : List Nat)
  /-- R132 -/ | brRope (c : CoreId) (q : Fin 16) (bad : List Nat)
  /-- R144 -/ | brExp2 (c : CoreId) (q : Fin 16) (bad : List Nat)
  /-- R145 -/ | brRcp (c : CoreId) (q : Fin 16) (bad : List Nat)
  /-- R145 -/ | brRsqrt (c : CoreId) (q : Fin 16) (bad : List Nat)
  /-- R146 -/ | brLogistic (c : CoreId) (q : Fin 16) (bad : List Nat)
  /-- R146 -/ | brSilu (c : CoreId) (q : Fin 16) (bad : List Nat)
  /-- R146 -/ | brGelu (c : CoreId) (q : Fin 16) (bad : List Nat)
  /-- R131 -/ | brWiden (c : CoreId) (q : Fin 16) (bad : List Nat)
  /-- R131 -/ | brNarrow (c : CoreId) (q : Fin 16) (bad : List Nat)
  /-- R133 -/ | brLd (c : CoreId) (q : Fin 16) (bad : List Nat)
  /-- R133 -/ | brSt (c : CoreId) (q : Fin 16) (bad : List Nat)
  /-- R134 -/ | brCvt (c : CoreId) (q : Fin 16) (bad : List Nat)
  /-- R135 -/ | brQuant (c : CoreId) (q : Fin 16) (bad : List Nat)
  /-- R139 -/ | brRsum (c : CoreId) (q : Fin 16) (bad : List Nat)
  /-- R139 -/ | brRsumsq (c : CoreId) (q : Fin 16) (bad : List Nat)
  /-- R139 -/ | brRdot (c : CoreId) (q : Fin 16) (bad : List Nat)
  /-- R141 -/ | brRmax (c : CoreId) (q : Fin 16) (bad : List Nat)
  /-- R141 -/ | brArgmax (c : CoreId) (q : Fin 16) (bad : List Nat)
  /-- R142 -/ | brSample (c : CoreId) (q : Fin 16) (bad : List Nat)
  /-- R201 -/ | copy (c : CoreId) (q : Fin 16) (bad : List Nat)
  /-- R201; `peerCredits`: when DEST is in another package, whether its handle charges a pool -/
  | write (c : CoreId) (q : Fin 16) (bad : List Nat) (peerCredits : Bool)
  /-- R229 -/ | writeAck (c : CoreId) (q : Fin 16) (bad : List Nat) (peerCredits : Bool)
  /-- R201 -/ | accWrite (c : CoreId) (q : Fin 16) (bad : List Nat) (peerCredits : Bool)
  /-- R201 -/ | read (c : CoreId) (q : Fin 16)
  /-- R235 -/ | hostWrite (c : CoreId) (q : Fin 16) (bad : List Nat)
  /-- R238 -/ | hostRead (c : CoreId) (q : Fin 16)
  /-- R237 -/ | hostFlush (c : CoreId) (q : Fin 16)
  /-- R205 -/ | hostPost (c : CoreId) (q : Fin 16) (bad : List Nat)
  /-- R263 -/ | circuitOpen (c : CoreId) (q : Fin 16)
  /-- R264 -/ | circuitClose (c : CoreId) (q : Fin 16)
  /-- R208 -/ | signal (c : CoreId) (q : Fin 16)
  /-- R208 -/ | wait (c : CoreId) (q : Fin 16)
  /-- R219 -/ | waitArrival (c : CoreId) (q : Fin 16)
  /-- R220 -/ | waitTimeout (c : CoreId) (q : Fin 16)
  /-- R208 -/ | handleWrite (c : CoreId) (q : Fin 16) (bad : List Nat)
  /-- R209 -/ | editionFence (c : CoreId) (q : Fin 16) (bad : List Nat)
  -- credits and packets (08, 09)
  /-- R223: core `src` (layout of R191) asks for one credit for transfer `txid` into handle `dh` of core `c` -/
  | creditRequest (c : CoreId) (dh : BitVec 8) (src : BitVec 20) (txid : BitVec 12)
  /-- R223, R397: the answer to the request that core or host bridge `src` made for transfer `txid`: a grant with the pool's
  epoch, or a failing code (R226) -/
  | creditGrant (src : BitVec 20) (txid : BitVec 12) (epoch : Nat) (code : BitVec 8)
  /-- R224 -/ | creditReturn (c : CoreId) (pool : Fin 32) (epoch : Nat)
  /-- R74 -/  | writeSegment (p : Packet)
  /-- R272 -/ | accPacket (p : Packet)
  /-- R74; `bad`: units read that failed parity -/ | rdreq (p : Packet) (bad : List Nat)
  /-- R201 -/ | rdrsp (p : Packet)
  /-- R258 -/ | ack (p : Packet)
  /-- R270 -/ | flagPacket (p : Packet)
  /-- R268 -/ | flaggedPacketRelease (c : CoreId)
  /-- R263 -/ | copen (src : BitVec 20) (circ : BitVec 12)
  /-- R264 -/ | cclose (src : BitVec 20) (circ : BitVec 12)
  /-- R515 -/ | ctrlRawAccess (p : Packet)
  /-- R274 -/ | hellboxAbsorb (p : Packet)
  /-- R440: resend `n` of a flit at hop `h` has failed parity (n = 0: the first sending); `held` are the packets there -/
  | hopRetry (h : Hop) (n : Nat) (held : List Packet)
  /-- R267 -/ | circuitBreak (c : CoreId) (circ : BitVec 12) (why : BreakCause)
  /-- R240 -/ | censusFreeze (c : CoreId)
  -- Ronnen (10)
  /-- R289: the 272 received symbols of a codeword, in transmission order -/
  | ronnenFlitRx (port : Fin 12) (cw : List Nat) (again : Bool)
  /-- R290 -/ | ronnenNak (port : Fin 12) (ackseq : BitVec 16)
  /-- R291 -/ | replayTimeout (port : Fin 12)
  /-- R293: the current training state ends; `ok`: it succeeded; `lane`, `peerLane`: a receive
  lane that training found failing here, and a transmit lane that the peer's training did -/
  | ronnenTrainingStep (port : Fin 12) (ok : Bool) (lane peerLane : Option (Fin 9))
  /-- R294 -/ | ident (port : Fin 12) (pos : BitVec 6) (peerPort : BitVec 4) (role : BitVec 3)
  /-- R294 -/ | identRetry (port : Fin 12)
  /-- R293 -/ | rnnCtrlRetrain (port : Fin 12)
  /-- R296: the last SEQ that the peer's receiver had accepted -/ | portDown (port : Fin 12) (peerSeq : BitVec 16)
  /-- R293 -/ | portDownRestart (port : Fin 12)
  /-- R451 -/ | portHandoverTimeout (port : Fin 12) (peerSeq : BitVec 16)
  /-- R295 -/ | laneSwap (port : Fin 12) (lane : Fin 9)
  /-- R295 -/ | laneSwitch (port : Fin 12)
  /-- R299; `t1`: when the request's first symbol crosses, in 1/64 tick -/ | syncMeasurement (t1 : Nat)
  /-- R299 -/ | syncReq (port : Fin 12) (t1 t2 t3 : Nat)
  /-- R300; `child`: the neighbour's own parent is this package (log 109) -/
  | syncRsp (port : Fin 12) (t1 t2 t3 t4 : Nat) (depth : Nat) (parentSynced child : Bool)
  /-- R301 -/ | loopEnWrite (who : Accessor) (port : Fin 12) (v : Word)
  /-- R301 -/ | loopbackRequest (port : Fin 12) (depth : BitVec 3) (enable : Bool)
  -- beats, rate and power (01, 11)
  /-- R312 -/ | pkgRateNextWrite (who : Accessor) (v : Word)
  /-- R313 -/ | rateChange
  /-- R27: the 1 µs averages of the input power of the 68 dies' regulators in mW -/ | powerCapMeasure (mw : List Nat)
  /-- R28 -/  | capNotHeld
  -- contexts (12); `v` is the value written to PKG_CTX_CTRL
  /-- R337 -/ | ctxLoad (who : Accessor) (p : Fin 64) (v : Word) (plate manifest : HostRead)
  /-- R353 -/ | ctxArm (who : Accessor) (p : Fin 64) (v : Word)
  /-- R355 -/ | ctxStop (who : Accessor) (p : Fin 64) (v : Word)
  /-- R355 -/ | ctxUnload (who : Accessor) (p : Fin 64) (v : Word)
  /-- R350 -/ | ctxCommit (who : Accessor) (p : Fin 64) (v : Word)
  /-- R352 -/ | ctxAbandon (who : Accessor) (p : Fin 64) (v : Word)
  /-- R331 -/ | pkgCtxSlotmapWrite (who : Accessor) (p : Fin 64) (w : Fin 64) (v : Word)
  /-- R342: the next bytes of the shard of die `die` of partition `p` -/
  | shardData (p : Fin 64) (die : Fin 64) (bytes : List Byte)
  /-- R344: no byte for 100 ms, or the source refused or failed -/ | shardAttemptTimeout (p : Fin 64) (die : Fin 64) (refused : Bool)
  /-- R344 -/ | shardPeerRequest (pos : Fin 64) (p : Fin 64) (c : CoreId) (handle : BitVec 8) (offset length : BitVec 32)
  /-- R345 -/ | loadTimeout (p : Fin 64)
  /-- R355 -/ | stopDrained (p : Fin 64)
  /-- R355 -/ | stopTimeout (p : Fin 64)
  -- Efxis (14)
  /-- R369 -/ | efxStage (who : Accessor) (v : Word) (img : HostRead)
  /-- R370 -/ | efxActivate (who : Accessor) (v : Word)
  /-- R369 -/ | efxDiscard (who : Accessor) (v : Word)
  /-- R372 -/ | flagHoldWindowStart
  /-- R371 -/ | efxisActivation
  /-- R372 -/ | flagHoldWindowEnd
  /-- R375 -/ | censusRound
  /-- R375 -/ | censusRequest (via : Fin 12)
  /-- R376 -/ | censusRoundTimeout (answers : List CensusAnswer)
  /-- R376 -/ | censusResult (agree disagree missing : BitVec 8) (dis mis : Word)
  -- host interface (15)
  /-- R392 -/ | sqTailDoorbell (port : Fin 2) (f : Fin 64) (ring : Fin 256) (v : Word)
  /-- R392 -/ | cqHeadDoorbell (port : Fin 2) (f : Fin 64) (ring : Fin 256) (v : Word)
  /-- R395: the 64 bytes read from the ring -/ | sqNop (ring : Fin 16384) (entry : BitVec 512)
  /-- R397 -/ | deliver (ring : Fin 16384) (entry : BitVec 512)
  /-- R396 -/ | slots (ring : Fin 16384) (entry : BitVec 512)
  /-- R394 -/ | sqFetchFail (ring : Fin 16384) (o : PcieOutcome)
  /-- R391 -/ | ringCfgEnWrite (who : Accessor) (ring : Fin 16384) (v : Word)
  /-- R400 -/ | interruptTimer (ring : Fin 16384)
  /-- R235: entry `n` of the port's delivery buffer leaves -/ | deliveryWriteOut (port : Fin 2) (n : Nat)
  /-- R402 -/ | deliveryProbeRead (port : Fin 2)
  /-- R405 -/ | pcieCompletion (port : Fin 2) (tag : Nat) (r : HostRead)
  /-- R405 -/ | pcieCompletionTimeout (port : Fin 2) (tag : Nat)
  /-- R403 -/ | hostFlushCtl (port : Fin 2) (f : Fin 64) (v : Word)
  /-- R404 -/ | hostFabDataWrite (port : Fin 2) (f : Fin 64) (size8 : Bool) (v : Word)
  /-- R404 -/ | hostFabDataRead (port : Fin 2) (f : Fin 64) (size8 : Bool)
  /-- R382 -/ | hostFnMirrorWrite (port : Fin 2) (f : Fin 64) (v : Word)
  /-- R406 -/ | functionLevelReset (port : Fin 2) (f : Fin 64)
  /-- R407 -/ | hotReset (port : Fin 2)
  /-- R408; `surprise`: a Surprise Down error -/ | pcieLinkDown (port : Fin 2) (surprise : Bool)
  /-- R408 -/ | portFailover (port : Fin 2)
  /-- R410 -/ | failback (port : Fin 2)
  /-- R502; `low`: asserted -/ | perst (port : Fin 2) (low : Bool)
  -- power, reset, firmware (16)
  /-- R412 -/ | powerGood (b : BootInput)
  /-- R496; `low`: VIN lies below 10.8 V -/ | powerLoss (low : Bool)
  /-- R500 -/ | refclkLoss
  /-- R422 -/ | glyResetCores (who : Accessor) (die : Fin 64) (g : Fin 4) (v : Word)
  /-- R422 -/ | glyResetGalley (who : Accessor) (die : Fin 64) (g : Fin 4) (v : Word)
  /-- R422 -/ | pkgPartReset (who : Accessor) (p : Fin 64) (v : Word)
  /-- R422 -/ | pkgReset (who : Accessor) (v : Word)
  /-- R423 -/ | resetDrainComplete (u : ResetUnit)
  /-- R423; `found`: for a package reset, what steps 4 and 5 of R412 meet -/
  | resetReturn (u : ResetUnit) (found : BringUp)
  /-- R430 -/ | fwStage (who : Accessor) (v : Word) (img : HostRead)
  /-- R430 -/ | fwCommit (who : Accessor) (v : Word)
  /-- R430 -/ | fwActivate (who : Accessor) (v : Word)
  /-- R430 -/ | fwDiscard (who : Accessor) (v : Word)
  /-- R430 -/ | colophonStartTimeout (q : Fin 4)
  -- errors (17)
  /-- R436 -/ | weightRowRestore (c : CoreId) (row : Nat) (bytes : List Byte)
  /-- R438 -/ | restoreBudgetExpiry (c : CoreId) (row : Nat)
  /-- R441 -/ | programStoreRestore (die : Fin 64) (line : Nat) (r : HostRead)
  /-- R446 -/ | errorRecordEmit
  /-- R447 -/ | faultWindowLeak
  /-- R456 -/ | colophonHandover
  -- management (18)
  /-- R459: (Tmax in 0.25 °C, sensor) of the 68 dies -/ | thermalSample (temps : List (Int × BitVec 4))
  /-- R459 -/ | throttleStep
  /-- R460 -/ | hardwareTrip (die : Fin 68)
  /-- R461: the 1 ms average of the 12 V input in mV -/ | undervoltSample (mv : Nat)
  /-- R462 -/ | mgtCapWrite (who : Accessor) (v : Word)
  /-- R464 -/ | mgtRateReqWrite (who : Accessor) (v : Word)
  /-- R473 -/ | persist (who : Accessor) (v : Word)
  /-- R473 -/ | lifetimePersistTimer
  /-- R475 -/ | powerdown (who : Accessor) (v : Word)
  /-- R474 -/ | mgtCalWrite (who : Accessor) (v : Word)
  /-- R474 -/ | calendarSecond
  -- test and debug (19)
  /-- R480 -/ | hostLoopWrite (who : Accessor) (port : Fin 2) (v : Word)
  /-- R482 -/ | fdBridgeLoopWrite (who : Accessor) (die : Fin 64) (e : Fin 4) (v : Word)
  /-- R484 -/ | glyProofStart (who : Accessor) (die : Fin 64) (g : Fin 4) (v : Word)
  /-- R484 -/ | glyProofDone (die : Fin 64) (g : Fin 4) (r : ProofResult)
  /-- R487 -/ | fdTraceCtlWrite (who : Accessor) (die : Fin 64) (v : Word)
  /-- R487 -/ | traceStart (die : Fin 64)
  /-- R489 -/ | bypass
  /-- R489 -/ | idcode
  /-- R489: the land levels sampled -/ | samplePreload (lands : List Bool)
  /-- R489 -/ | extest
  /-- R489 -/ | clamp
  /-- R489 -/ | highz
  -- I3C common command codes (R465)
  /-- R465 -/ | enec (events : BitVec 8)
  /-- R465 -/ | disec (events : BitVec 8)
  /-- R465 -/ | rstdaa
  /-- R465 -/ | entdaa (addr : BitVec 7)
  /-- R465 -/ | setdasa (static addr : BitVec 7)
  /-- R465 -/ | setnewda (old addr : BitVec 7)
  /-- R465 -/ | getpid (addr : BitVec 7)
  /-- R465 -/ | getbcr (addr : BitVec 7)
  /-- R465 -/ | getdcr (addr : BitVec 7)
  /-- R465 -/ | getstatus (addr : BitVec 7)
  /-- R465 -/ | getmwl (addr : BitVec 7)
  /-- R465 -/ | getmrl (addr : BitVec 7)
  /-- R465 -/ | setmwl (len : BitVec 16)
  /-- R465 -/ | setmrl (len : BitVec 16) (ibi : BitVec 8)
  /-- R465 -/ | rstact (action : BitVec 8)
  -- MCTP control (R465)
  /-- R465 -/ | setEndpointId (via : MgmtVia) (eid : BitVec 8)
  /-- R465 -/ | getEndpointId (via : MgmtVia)
  /-- R465 -/ | getEndpointUuid (via : MgmtVia)
  /-- R465 -/ | getMctpVersionSupport (via : MgmtVia) (typ : BitVec 8)
  /-- R465 -/ | getMessageTypeSupport (via : MgmtVia)
  -- PLDM (R465, R466)
  /-- R465 -/ | getTid (via : MgmtVia)
  /-- R465 -/ | setTid (via : MgmtVia) (tid : BitVec 8)
  /-- R465 -/ | getPldmVersion (via : MgmtVia) (typ : BitVec 8)
  /-- R465 -/ | getPldmTypes (via : MgmtVia)
  /-- R465 -/ | getPldmCommands (via : MgmtVia) (typ : BitVec 8)
  /-- R465 -/ | getPdrRepositoryInfo (via : MgmtVia)
  /-- R465 -/ | getPdr (via : MgmtVia) (record : BitVec 32)
  /-- R466 -/ | getSensorReading (via : MgmtVia) (sensor : BitVec 16)
  /-- R466 -/ | getNumericEffecterValue (via : MgmtVia) (effecter : BitVec 16)
  /-- R466 -/ | setNumericEffecterValue (via : MgmtVia) (effecter : BitVec 16) (value : BitVec 32)
  /-- R466 -/ | setEventReceiver (via : MgmtVia) (enable : Bool) (eid : BitVec 8)
  /-- R465 -/ | getDateTime (via : MgmtVia)
  /-- R474 -/ | setDateTime (via : MgmtVia) (seconds : Word)
  /-- R465 -/ | queryDeviceIdentifiers (via : MgmtVia)
  /-- R465 -/ | getFirmwareParameters (via : MgmtVia)
  /-- R466 -/ | requestUpdate (via : MgmtVia)
  /-- R465 -/ | passComponentTable (via : MgmtVia) (component : BitVec 16)
  /-- R466 -/ | updateComponent (via : MgmtVia) (component : BitVec 16) (size : BitVec 32)
  /-- R466 -/ | transferComplete (via : MgmtVia)
  /-- R466 -/ | verifyComplete (via : MgmtVia)
  /-- R466 -/ | applyComplete (via : MgmtVia)
  /-- R466 -/ | activateFirmware (via : MgmtVia)
  /-- R465 -/ | getStatus (via : MgmtVia)
  /-- R465 -/ | cancelUpdateComponent (via : MgmtVia)
  /-- R465 -/ | cancelUpdate (via : MgmtVia)
  /-- R465 -/ | requestFirmwareData (via : MgmtVia) (bytes : List Byte)
  -- SPDM (R467 to R471); `session`: the secured session that carries the request, if any
  /-- R467 -/ | getVersion (via : MgmtVia)
  /-- R467 -/ | getCapabilities (via : MgmtVia)
  /-- R468: what the requester accepts -/ | negotiateAlgorithms (via : MgmtVia) (sig kem hash aead : Bool)
  /-- R467 -/ | getDigests (via : MgmtVia)
  /-- R469 -/ | getCertificate (via : MgmtVia) (slot : BitVec 4) (offset length : BitVec 16)
  /-- R467 -/ | challenge (via : MgmtVia) (slot : BitVec 4) (nonce : List Byte)
  /-- R471 -/ | getMeasurements (via : MgmtVia) (index : BitVec 8) (raw sign : Bool) (nonce : List Byte)
  /-- R468 -/ | keyExchange (via : MgmtVia) (slot : BitVec 4) (encapKey : List Byte)
  /-- R467 -/ | finish (via : MgmtVia) (session : BitVec 32) (mac : List Byte)
  /-- R467 -/ | heartbeat (via : MgmtVia) (session : BitVec 32)
  /-- R467 -/ | keyUpdate (via : MgmtVia) (session : BitVec 32) (op : BitVec 8)
  /-- R467 -/ | endSession (via : MgmtVia) (session : BitVec 32)
  /-- R467 -/ | chunkSend (via : MgmtVia) (handle : BitVec 8) (seq : BitVec 16) (last : Bool) (bytes : List Byte)
  /-- R467 -/ | chunkGet (via : MgmtVia) (handle : BitVec 8) (seq : BitVec 16)
  /-- R467: IDE_KM object bytes -/ | vendorDefinedRequest (via : MgmtVia) (session : BitVec 32) (bytes : List Byte)
  -- events of the environment added to the table (R306, R309, R295, R408, R413, R448, R458, R473, R430)
  /-- R306: replica demand, in 1/64 of a setpoint period, at least 64 -/ | droopBegins (die : Fin 64) (demand : Nat)
  /-- R309 -/
  | droopPasses (die : Fin 64)
  /-- R295 -/ | symbolLockLoss (port : Fin 12) (lane : Fin 9)
  /-- R408 -/ | pcieLinkUp (port : Fin 2) (rate : BitVec 3) (width : BitVec 5) (flit : Bool)
  /-- R413 -/ | configurationRequest (port : Fin 2) (f : Fin 64) (op : ConfigOp)
  /-- R448 -/ | pcieLaneReceiverError (port : Fin 2) (lane : Fin 16)
  /-- R458: wear index in ppm -/ | ageingMonitorSample (die : Fin 64) (g : Fin 4) (ppm : BitVec 32)
  /-- R473, R453 -/ | norWriteComplete (what : NorWrite) (ok : Bool)
  /-- R430 -/ | colophonStarted (q : Fin 4)
deriving DecidableEq, Repr

end Sys2Proof
end

