-- ==== Sys2Proof/Machine/Hash.lean ====
section
/-! DEFINITION. SHAKE256 and SHA3-384, the digests the spec names (R322, R335, R339, R373, R471, R473). The functions are
those of FIPS 202, which the spec does not restate (log 15). -/

namespace Sys2Proof.Machine

/-- Rotation offsets by lane x + 5y. -/
def keccakRot : List Nat :=
  [0, 1, 62, 28, 27, 36, 44, 6, 55, 20, 3, 10, 43, 25, 39, 41, 45, 15, 21, 8, 18, 2, 61, 56, 14]

/-- Round constants. -/
def keccakRC : List Word :=
  [0x0000000000000001, 0x0000000000008082, 0x800000000000808A, 0x8000000080008000, 0x000000000000808B,
   0x0000000080000001, 0x8000000080008081, 0x8000000000008009, 0x000000000000008A, 0x0000000000000088,
   0x0000000080008009, 0x000000008000000A] ++
  [0x000000008000808B, 0x800000000000008B, 0x8000000000008089, 0x8000000000008003, 0x8000000000008002,
   0x8000000000000080, 0x000000000000800A, 0x800000008000000A, 0x8000000080008081, 0x8000000000008080,
   0x0000000080000001, 0x8000000080008008]

/-- One round on the 25 lanes. -/
def keccakRound (a : List Word) (rc : Word) : List Word :=
  let at' := fun (l : List Word) (x y : Nat) => l.getD (x % 5 + 5 * (y % 5)) 0
  let c := (List.range 5).map fun x => at' a x 0 ^^^ at' a x 1 ^^^ at' a x 2 ^^^ at' a x 3 ^^^ at' a x 4
  let d := (List.range 5).map fun x => c.getD ((x + 4) % 5) 0 ^^^ (c.getD ((x + 1) % 5) 0).rotateLeft 1
  let t := (a.zipIdx).map fun (v, i) => v ^^^ d.getD (i % 5) 0
  -- b[y, 2x + 3y] = rot (t[x, y]); lane (X, Y) of b comes from x = X + 3Y, y = X
  let b := (List.range 25).map fun i =>
    let X := i % 5
    let Y := i / 5
    (at' t (X + 3 * Y) X).rotateLeft (keccakRot.getD ((X + 3 * Y) % 5 + 5 * X) 0)
  let e := (List.range 25).map fun i =>
    let x := i % 5
    let y := i / 5
    at' b x y ^^^ ((~~~ at' b (x + 1) y) &&& at' b (x + 2) y)
  match e with
  | [] => []
  | h :: r => (h ^^^ rc) :: r

def keccakF (a : List Word) : List Word := keccakRC.foldl keccakRound a

/-- Little-endian value of bytes. -/
def leNat (bs : List Byte) : Nat := bs.foldr (fun b n => b.toNat + 256 * n) 0

/-- `k` bytes of `n`, little-endian (R8). -/
def leBytes : Nat → Nat → List Byte
  | 0, _ => []
  | k + 1, n => BitVec.ofNat 8 n :: leBytes k (n / 256)

/-- Absorb whole blocks of `rate` bytes (a multiple of 8); `fuel` bounds the block count. -/
def keccakAbsorb (rate : Nat) : Nat → List Word → List Byte → List Word
  | 0, a, _ => a
  | fuel + 1, a, m =>
    if m.isEmpty then a
    else
      let blk := m.take rate
      let a := a.zipIdx.map fun (v, i) => v ^^^ BitVec.ofNat 64 (leNat ((blk.drop (8 * i)).take 8))
      keccakAbsorb rate fuel (keccakF a) (m.drop rate)

/-- Squeeze `n` bytes. -/
def keccakSqueeze (rate : Nat) : Nat → Nat → List Word → List Byte
  | 0, _, _ => []
  | fuel + 1, n, a =>
    let out := (a.flatMap fun v => leBytes 8 v.toNat).take (min rate n)
    if n ≤ rate then out else out ++ keccakSqueeze rate fuel (n - rate) (keccakF a)

/-- Message with its suffix and padding, a whole number of blocks. -/
def keccakPad (rate : Nat) (suffix : Nat) (m : List Byte) : List Byte :=
  let fill := rate - m.length % rate
  if fill = 1 then m ++ [BitVec.ofNat 8 (suffix + 0x80)]
  else m ++ BitVec.ofNat 8 suffix :: (List.replicate (fill - 2) 0 ++ [0x80#8])

/-- The sponge with `rate` and domain suffix. -/
def sponge (rate suffix outLen : Nat) (m : List Byte) : List Byte :=
  let p := keccakPad rate suffix m
  keccakSqueeze rate (outLen / rate + 1) outLen (keccakAbsorb rate (p.length / rate) (List.replicate 25 0) p)

/-- SHAKE256 with `n` bytes of output. -/
def shake256 (m : List Byte) (n : Nat) : List Byte := sponge 136 0x1F n m

/-- SHA3-384 (R468, R471). -/
def sha3_384 (m : List Byte) : List Byte := sponge 104 0x06 48 m

/-- The 32-byte digest the spec uses for plates, shards and images (R335, R339, R373). -/
def digest32 (m : List Byte) : List Byte := shake256 m 32

end Sys2Proof.Machine
end

