-- ==== Sys2Proof/Config.lean ====
section
/-! DEFINITION. What an implementation fixes, and the free values: constants without a body, which nothing can evaluate.
Each is named in the assumption log. -/

namespace Sys2Proof.Config

/-- Which neighbour of the exact reciprocal `BR_RCP` gives where the pseudocode of R145 ends with y ≤ 0, for which `pack`
states nothing and R147 bounds the error: the one below it or the one above it in magnitude. Free (log 10). -/
opaque rcpOpen : BitVec 32 → Bool

/-- A value the spec leaves open and the machine goes on after; applied to the counter `State.free`. Free (log 11). -/
opaque freeValue : Nat → BitVec 64

/-- Bytes of a message whose contents are another standard's and that the spec does not restate; applied to the counter
`State.free`. Free (log 12). -/
opaque freeBytes : Nat → List Byte

/-- What a `COPY` over its own source writes at place `i` where the order of its reads and writes decides; applied to the source
bytes as they were and to the places written. Free (log 27). -/
opaque copyOpen : List Byte → List Nat → Nat → Byte

/-- SLH-DSA verification (R341, R428, R470): public key, message, signature. A named standard. Free (log 13). -/
opaque slhDsaVerify : List Byte → List Byte → List Byte → Bool

/-- A firmware image (R428, R470), whose layout the spec does not give: the Ulindi key under which its signature holds, its
version, the keys it revokes. Free (log 38). -/
opaque firmwareKey : List Byte → Option Nat
opaque firmwareVersion : List Byte → BitVec 32
opaque firmwareRevokes : List Byte → List Nat

/-- The trigger thresholds of the power-cap loop, in mW below the two limits (R26): of the 1 µs average and of the 5 ms
average. Free (log 14). -/
opaque capMarginFast : Nat
opaque capMarginSlow : Nat

/-- Lanes in each direction of a die bridge (R415), which the spec does not state. Free (log 30). -/
opaque bridgeLanes : Nat

/-- The bytes of an entry of the repair log, of its kind, resource and calendar stamp (R416), whose layout the spec does not give.
Free (log 114). -/
opaque repairBytes : Nat → Nat → Nat → List Byte

/-- Ulindi's JEDEC manufacturer identity (R489), which the spec does not state. Free (log 46). -/
opaque jedecId : BitVec 11

end Sys2Proof.Config
end

