-- ==== Sys2Proof/Machine/Numeric.lean ====
section
/-! DEFINITION. Numeric formats and exact accumulation (02), brayer arithmetic and special functions (05).

Everything is exact integer arithmetic narrowed at the end. A decoded element is `some (m', e)`, value m' × 2^e (R34), or
`none` for a NaN, an infinity or an element of a NaN block (R36, R42). -/

namespace Sys2Proof.Machine

/-- Bits `lo` up, `w` of them, of `n`. -/
def bits (n lo w : Nat) : Nat := (n >>> lo) % 2 ^ w

/-- The `w`-bit pattern `n` read as two's complement. -/
def sext (w n : Nat) : Int := if n % 2 ^ w < 2 ^ (w - 1) then (n % 2 ^ w : Nat) else (n % 2 ^ w : Nat) - (2 ^ w : Nat)

/-- `i` as a `w`-bit two's complement pattern. -/
def toBits (w : Nat) (i : Int) : Nat := (i % (2 ^ w : Nat)).toNat

/-- x × 2^k, floored toward minus infinity (R143). -/
def shiftFloor (x : Int) (k : Int) : Int :=
  if 0 ≤ k then x * (2 ^ k.toNat : Nat) else x.fdiv (2 ^ (-k).toNat : Nat)

/-! ## Formats (R32, R34, R51) -/

/-- The parameters of a floating-point format: precision, least exponent, bias, largest finite `mf × 2^me`, exponent field
width, the NaN written (R51). -/
structure Fmt where
  P : Nat
  emin : Int
  bias : Int
  mf : Nat
  me : Int
  ebits : Nat
  nan : Nat
deriving DecidableEq, Repr

def fp32 : Fmt := ⟨24, -126, 127, 2 ^ 24 - 1, 104, 8, 0x7FC00000⟩
def bf16 : Fmt := ⟨8, -126, 127, 255, 120, 8, 0x7FC0⟩
def e4m3 : Fmt := ⟨4, -6, 7, 14, 5, 4, 0x7F⟩
def e5m2 : Fmt := ⟨3, -14, 15, 7, 13, 5, 0x7F⟩
def e2m1 : Fmt := ⟨2, 0, 1, 3, 1, 2, 0⟩
def e2m3 : Fmt := ⟨4, 0, 1, 15, -1, 2, 0⟩
def e3m2 : Fmt := ⟨3, -2, 3, 7, 2, 3, 0⟩

/-- Width of a pattern of `f`. -/
def Fmt.width (f : Fmt) : Nat := f.ebits + f.P

/-- The sign bit of a pattern of `f`. -/
def Fmt.sign (f : Fmt) (n : Nat) : Bool := bits n (f.width - 1) 1 = 1

/-- The exponent field. -/
def Fmt.expo (f : Fmt) (n : Nat) : Nat := bits n (f.P - 1) f.ebits

/-- The mantissa field. -/
def Fmt.mant (f : Fmt) (n : Nat) : Nat := bits n 0 (f.P - 1)

/-- |m'| and e of a pattern, special codes not considered (R34). -/
def Fmt.magnitude (f : Fmt) (n : Nat) : Nat × Int :=
  if f.expo n = 0 then (f.mant n, 1 - f.bias - (f.P - 1 : Nat))
  else (2 ^ (f.P - 1) + f.mant n, f.expo n - f.bias - (f.P - 1 : Nat))

/-- m' and e with the sign applied. -/
def Fmt.value (f : Fmt) (n : Nat) : Int × Int :=
  let (m, e) := f.magnitude n
  (if f.sign n then -(m : Int) else m, e)

/-- A format with the special codes of IEEE 754: exponent all ones (FP32, BF16, E5M2). -/
def Fmt.special (f : Fmt) (n : Nat) : Bool := f.expo n = 2 ^ f.ebits - 1

/-- FP32 decoded as R34 and R43 give. -/
def decFp32 (n : Nat) : Option (Int × Int) := if fp32.special n then none else some (fp32.value n)

/-- The element formats of R32 as numbers. -/
def fINT4 : Nat := 0x01
def fINT8 : Nat := 0x02
def fE4M3 : Nat := 0x03
def fE5M2 : Nat := 0x04
def fMXFP4 : Nat := 0x05
def fMXE2M3 : Nat := 0x06
def fMXE3M2 : Nat := 0x07
def fMXINT8 : Nat := 0x08
def fMXE4M3 : Nat := 0x09
def fMXE5M2 : Nat := 0x0A
def fSPLIT : Nat := 0x0B
def fBF16 : Nat := 0x0C
def fFP32 : Nat := 0x0D
def fPS64 : Nat := 0x0E

/-- The code is listed in R32. -/
def fmtListed (f : Nat) : Bool := 1 ≤ f && f ≤ 0x0E
/-- MX formats carry an E8M0 scale per block of 32 (R36). -/
def fmtMX (f : Nat) : Bool := 5 ≤ f && f ≤ 0x0A
/-- Platen weight role (R33). -/
def fmtWeight (f : Nat) : Bool := f ∈ [fINT4, fINT8, fE4M3, fMXFP4, fMXE2M3, fMXE3M2, fMXINT8, fSPLIT]
/-- Platen activation role (R33). -/
def fmtActivation (f : Nat) : Bool := f ∈ [fINT8, fE4M3, fE5M2, fMXE4M3, fMXE5M2, fBF16]
/-- Quantiser output role (R33, R135). -/
def fmtQuant (f : Nat) : Bool := f ∈ [fE4M3, fE5M2, fMXFP4, fMXE2M3, fMXE3M2, fMXINT8, fMXE4M3, fMXE5M2]
/-- Bits of one element as stored (R34). -/
def fmtBits (f : Nat) : Nat :=
  if f = fINT4 ∨ f = fMXFP4 ∨ f = fSPLIT then 4
  else if f = fMXE2M3 ∨ f = fMXE3M2 then 6
  else if f = fBF16 then 16 else if f = fFP32 then 32 else if f = fPS64 then 64 else 8

/-- An element pattern of format `f`, without its block scale (R34). BF16 here is the exact value (brayer); a platen BF16
activation goes through `bf16Block`. -/
def decElem (f n : Nat) : Option (Int × Int) :=
  if f = fINT4 ∨ f = fSPLIT then some (sext 4 n, 0)
  else if f = fINT8 then some (sext 8 n, 0)
  else if f = fMXINT8 then some (sext 8 n, -6)
  else if f = fE4M3 ∨ f = fMXE4M3 then (if bits n 0 7 = 0x7F then none else some (e4m3.value n))
  else if f = fE5M2 ∨ f = fMXE5M2 then (if e5m2.special n then none else some (e5m2.value n))
  else if f = fMXFP4 then some (e2m1.value n)
  else if f = fMXE2M3 then some (e2m3.value n)
  else if f = fMXE3M2 then some (e3m2.value n)
  else if f = fBF16 then (if bf16.special n then none else some (bf16.value n))
  else decFp32 n

/-- A decoded element under its block's E8M0 scale; a scale of 0xFF makes it a NaN input (R36). -/
def withScale (scale : Nat) (d : Option (Int × Int)) : Option (Int × Int) :=
  if scale = 0xFF then none else d.map fun (m, e) => (m, e + scale - 127)

/-- Alignment of a block of BF16 patterns (R38): the block exponent `eb` and the significand of each element. The exponent is exact:
where it does not fit the signed byte in which R94 says the input buffer keeps it, the spec says nothing (DESIGN CHOICE,
log 101). -/
def bf16Block (xs : List Nat) : Int × List (Option Int) :=
  let e' := fun x => if bf16.expo x = 0 then 1 else bf16.expo x
  let emax := xs.foldl (fun a x => if bf16.special x then a else max a (e' x)) 1
  let sig := fun x =>
    let s8 := if bf16.expo x = 0 then bf16.mant x else 128 + bf16.mant x
    let mag : Nat := (s8 * 2 ^ 7) / 2 ^ (emax - e' x)
    if bf16.special x then none else some (if bf16.sign x then -(mag : Int) else (mag : Int))
  ((emax : Int) - 141, xs.map sig)

/-! ## PS64 (R39 to R46) -/

/-- The NaN-propagation marker (R39). -/
def psNaR : Word := 0x8000000000000000#64

/-- 2^63 − 1 (R39). -/
def psMax : Int := 2 ^ 63 - 1

/-- The sum in an 80-bit accumulator (R44), its NaR tag, and whether a clamp has happened. Bounds of R44 keep |v| below
2^79, so the accumulator never saturates. -/
structure Acc where
  v : Int
  nar : Bool
  sat : Bool
deriving DecidableEq, Repr

def Acc.zero : Acc := ⟨0, false, false⟩

/-- One term on the grid 2^L, and whether it was clamped (R41). -/
def formTerm (wm we am ae L : Int) : Int × Bool :=
  let p := wm * am
  let sh := we + ae - L
  if p = 0 then (0, false)
  else if 0 ≤ sh then
    if 62 < sh then (p.sign * psMax, true)
    else
      let t := p * (2 ^ sh.toNat : Nat)
      if psMax < |t| then (p.sign * psMax, true) else (t, false)
  else (p.sign * Int.ofNat (p.natAbs / 2 ^ (-sh).toNat), false)

/-- The term of two decoded operands added in; a NaN input makes it NaR (R42, R44). -/
def Acc.add (a : Acc) (w x : Option (Int × Int)) (L : Int) : Acc :=
  match w, x with
  | some (wm, we), some (am, ae) =>
    let (t, c) := formTerm wm we am ae L
    ⟨a.v + t, a.nar, a.sat || c⟩
  | _, _ => ⟨a.v, true, a.sat⟩

/-- A PS64 value read into an accumulator (R39, R46). -/
def Acc.ofPs (w : Word) : Acc := if w = psNaR then ⟨0, true, false⟩ else ⟨w.toInt, false, false⟩

/-- Two accumulators added exactly. -/
def Acc.plus (a b : Acc) : Acc := ⟨a.v + b.v, a.nar || b.nar, a.sat || b.sat⟩

/-- The accumulator stored as PS64, and whether the store clamped (R45). -/
def Acc.store (a : Acc) : Word × Bool :=
  if a.nar then (psNaR, false)
  else if psMax < a.v then (BitVec.ofInt 64 psMax, true)
  else if a.v < -psMax then (BitVec.ofInt 64 (-psMax), true)
  else (BitVec.ofInt 64 a.v, false)

/-- Read-add-write of one entry (R46): the new entry, and whether it clamped. -/
def psAdd (old inc : Word) : Word × Bool := ((Acc.ofPs old).plus (Acc.ofPs inc)).store

/-! ## Rounding and encoding (R50, R53) -/

/-- The rounding modes of R50; stochastic rounding carries its 16 random bits (R53). -/
inductive RMode where
  | nearestEven
  | stochastic (rbits : Nat)
deriving DecidableEq, Repr

/-- m div 2^k rounded (R50). -/
def rnd (m k : Nat) (mode : RMode) : Nat :=
  let hi := m / 2 ^ k
  let lo := m % 2 ^ k
  match mode with
  | .nearestEven => if 2 ^ (k - 1) < lo ∨ (lo = 2 ^ (k - 1) ∧ hi % 2 = 1) then hi + 1 else hi
  | .stochastic rb =>
    let add := if k ≤ 16 then rb / 2 ^ (16 - k) else rb * 2 ^ (k - 16)
    if 2 ^ k ≤ lo + add then hi + 1 else hi

/-- Sign, exponent and mantissa fields packed. -/
def Fmt.pack (f : Fmt) (neg : Bool) (E M : Nat) : Nat :=
  (if neg then 2 ^ (f.width - 1) else 0) + E * 2 ^ (f.P - 1) + M

/-- The pattern of largest finite magnitude. -/
def Fmt.largest (f : Fmt) (neg : Bool) : Nat :=
  f.pack neg (f.me + (f.P - 1 : Nat) + f.bias).toNat (f.mf - 2 ^ (f.P - 1))

/-- What rounding m × 2^L to `f` gives: zero, an overflow of the finite range, or significand r and exponent q of the LSB. -/
inductive Rounded where
  | zero
  | over
  | fin (r : Nat) (q : Int)
deriving DecidableEq, Repr

/-- The rounding of R50, before packing. -/
def Fmt.round (f : Fmt) (m : Nat) (L : Int) (mode : RMode) : Rounded :=
  if m = 0 then .zero
  else
    let n : Int := m.log2
    let q := max (n + L - (f.P - 1 : Nat)) (f.emin - (f.P - 1 : Nat))
    let k := q - L
    let r := if k ≤ 0 then m * 2 ^ (-k).toNat else rnd m k.toNat mode
    let (r, q) := if r = 2 ^ f.P then (2 ^ (f.P - 1), q + 1) else (r, q)
    if r = 0 then .zero
    else if f.mf * 2 ^ (f.me - q).toNat < r * 2 ^ (q - f.me).toNat then .over
    else .fin r q

/-- Fields of a rounded value. -/
def Fmt.packRounded (f : Fmt) (neg : Bool) (r : Nat) (q : Int) : Nat :=
  if 2 ^ (f.P - 1) ≤ r then f.pack neg (q + (f.P - 1 : Nat) + f.bias).toNat (r - 2 ^ (f.P - 1))
  else f.pack neg 0 r

/-- (−1)^neg × m × 2^L encoded into `f`, and whether it saturated (R50). -/
def encode (f : Fmt) (neg : Bool) (m : Nat) (L : Int) (mode : RMode) : Nat × Bool :=
  match f.round m L mode with
  | .zero => (0, false)
  | .over => (f.largest neg, true)
  | .fin r q => (f.packRounded neg r q, false)

/-- A PS64 entry leaving through the converter (R52, R134). -/
def cvtPs (f : Fmt) (w : Word) (L : Int) (mode : RMode) : Nat × Bool :=
  if w = psNaR then (f.nan, false) else encode f (w.toInt < 0) w.toInt.natAbs L mode

/-- An FP32 pattern quantised to plain FP8 (R135). -/
def quantPlain (f : Fmt) (x : Nat) (mode : RMode) : Nat × Bool :=
  if fp32.special x then (f.nan, false)
  else encode f (fp32.sign x) (fp32.magnitude x).1 (fp32.magnitude x).2 mode

/-! ## MX quantisation (R54) -/

/-- emax_el of R54. -/
def mxEmax (f : Nat) : Int :=
  if f = fMXFP4 then 2 else if f = fMXE2M3 then 2 else if f = fMXE3M2 then 4
  else if f = fMXE4M3 then 8 else if f = fMXE5M2 then 15 else 0

/-- The element format of a floating-point MX format. -/
def mxElem (f : Nat) : Fmt :=
  if f = fMXFP4 then e2m1 else if f = fMXE2M3 then e2m3 else if f = fMXE3M2 then e3m2
  else if f = fMXE4M3 then e4m3 else e5m2

/-- One MX element under scale exponent X. -/
def quantMxElem (f : Nat) (X : Int) (x : Nat) (mode : RMode) : Nat :=
  let (m, e) := fp32.magnitude x
  if f = fMXINT8 then
    let k := -(e - X + 6)
    let r : Int := if k ≤ 0 then (m * 2 ^ (-k).toNat : Nat) else (rnd m k.toNat mode : Nat)
    toBits 8 (max (-128) (min 127 (if fp32.sign x then -r else r)))
  else (encode (mxElem f) (fp32.sign x) m (e - X) mode).1

/-- A block of 32 FP32 patterns as an MX block: scale and elements (R54). `mode i` is the mode of element i. -/
def quantBlock (f : Nat) (v : List Nat) (mode : Nat → RMode) : Nat × List Nat :=
  if v.any fp32.special then (0xFF, v.map fun _ => 0)
  else
    let amax := v.foldl (fun a x => max a (bits x 0 31)) 0
    let (m, e) := fp32.magnitude amax
    let X0 : Int := if amax = 0 then 0 else (m.log2 : Int) + e - mxEmax f
    let scale := min (max (X0 + 127) 0) 254
    (scale.toNat, v.zipIdx.map fun (x, i) => quantMxElem f (scale - 127) x (mode i))

/-! ## The counter-based generator (R137) -/

def rand64 (seed stream ctr i : Word) : Word :=
  let z := seed + stream * 0x9E3779B97F4A7C15#64 + ctr * 0xD1B54A32D192ED03#64 + i
  let z := (z ^^^ (z >>> 30)) * 0xBF58476D1CE4E5B9#64
  let z := (z ^^^ (z >>> 27)) * 0x94D049BB133111EB#64
  z ^^^ (z >>> 31)

/-! ## FP32 arithmetic (R128); patterns are `Nat` below 2^32 -/

def fNaN : Nat := 0x7FC00000
def fInf (neg : Bool) : Nat := if neg then 0xFF800000 else 0x7F800000
def fZero (neg : Bool) : Nat := if neg then 0x80000000 else 0
def isNaN (x : Nat) : Bool := fp32.special x && fp32.mant x ≠ 0
def isInf (x : Nat) : Bool := fp32.special x && fp32.mant x = 0
def isZero (x : Nat) : Bool := bits x 0 31 = 0
/-- The sign bit inverted. -/
def fNegRaw (x : Nat) : Nat := if fp32.sign x then x - 2 ^ 31 else x + 2 ^ 31

/-- m × 2^L rounded to nearest even, overflow to infinity, an underflow to the zero of its sign (R128). -/
def roundIeee (f : Fmt) (neg : Bool) (m : Nat) (L : Int) : Nat :=
  match f.round m L .nearestEven with
  | .zero => if neg then 2 ^ (f.width - 1) else 0
  | .over => f.pack neg (2 ^ f.ebits - 1) 0
  | .fin r q => f.packRounded neg r q

/-- An exact signed value x × 2^L rounded; an exact zero sum is +0 under round-to-nearest-even. -/
def roundSigned (x : Int) (L : Int) : Nat := if x = 0 then 0 else roundIeee fp32 (x < 0) x.natAbs L

/-- Sum of two exact values m1 × 2^e1 + m2 × 2^e2, as one integer and its exponent. -/
def exactSum (m1 e1 m2 e2 : Int) : Int × Int :=
  let e := min e1 e2
  (m1 * (2 ^ (e1 - e).toNat : Nat) + m2 * (2 ^ (e2 - e).toNat : Nat), e)

def fadd (a b : Nat) : Nat :=
  if isNaN a ∨ isNaN b then fNaN
  else if isInf a then (if isInf b ∧ fp32.sign a ≠ fp32.sign b then fNaN else a)
  else if isInf b then b
  else if isZero a ∧ isZero b then fZero (fp32.sign a && fp32.sign b)
  else
    let (m, e) := exactSum (fp32.value a).1 (fp32.value a).2 (fp32.value b).1 (fp32.value b).2
    roundSigned m e

/-- A NaN stays a NaN under negation, so subtraction is addition of the negation. -/
def fsub (a b : Nat) : Nat := if isNaN a ∨ isNaN b then fNaN else fadd a (fNegRaw b)

def fmul (a b : Nat) : Nat :=
  let s := fp32.sign a != fp32.sign b
  if isNaN a ∨ isNaN b then fNaN
  else if isInf a ∨ isInf b then (if isZero a ∨ isZero b then fNaN else fInf s)
  else if isZero a ∨ isZero b then fZero s
  else roundIeee fp32 s ((fp32.magnitude a).1 * (fp32.magnitude b).1) ((fp32.magnitude a).2 + (fp32.magnitude b).2)

/-- a × b + c, rounded once. -/
def ffma (a b c : Nat) : Nat :=
  let s := fp32.sign a != fp32.sign b
  if isNaN a ∨ isNaN b ∨ isNaN c then fNaN
  else if isInf a ∨ isInf b then
    if isZero a ∨ isZero b then fNaN
    else if isInf c ∧ fp32.sign c ≠ s then fNaN else fInf s
  else if isInf c then c
  else if (isZero a ∨ isZero b) ∧ isZero c then fZero (s && fp32.sign c)
  else
    let (m, e) := exactSum ((fp32.value a).1 * (fp32.value b).1) ((fp32.value a).2 + (fp32.value b).2)
      (fp32.value c).1 (fp32.value c).2
    roundSigned m e

/-- A number's place in the order of R131: −0 below +0, infinities at the ends. -/
def orderKey (x : Nat) : Int := if fp32.sign x then -(bits x 0 31 : Int) - 1 else bits x 0 31

def fmax (a b : Nat) : Nat := if isNaN a ∨ isNaN b then fNaN else if orderKey a < orderKey b then b else a
def fmin (a b : Nat) : Nat := if isNaN a ∨ isNaN b then fNaN else if orderKey b < orderKey a then b else a
def fabs (a : Nat) : Nat := if isNaN a then fNaN else bits a 0 31
def fneg (a : Nat) : Nat := if isNaN a then fNaN else fNegRaw a

/-- BF16 to FP32, exactly; a NaN keeps its pattern. -/
def widen (b : Nat) : Nat := b * 2 ^ 16

/-- FP32 to BF16 (R129): infinities kept, NaN written 0x7FC0, overflow to infinity. -/
def narrow (x : Nat) : Nat :=
  if isNaN x then bf16.nan
  else if isInf x then bf16.pack (fp32.sign x) 255 0
  else roundIeee bf16 (fp32.sign x) (fp32.magnitude x).1 (fp32.magnitude x).2

/-! ## Special functions (R143 to R146) -/

/-- sign, m in [2^23, 2^24) and k with |x| = m × 2^k, for finite non-zero x (R143). -/
def decNorm (x : Nat) : Bool × Nat × Int :=
  let (m, k) := fp32.magnitude x
  let up := 23 - m.log2
  (fp32.sign x, m * 2 ^ up, k - up)

/-- `pack` of R143: rounding with overflow to infinity; defined for m > 0. -/
def packFp (s : Bool) (m : Nat) (L : Int) : Nat :=
  match fp32.round m L .nearestEven with
  | .zero => 0
  | .over => fInf s
  | .fin r q => fp32.packRounded s r q

/-- C[5] down to C[0] of R144. -/
def exp2Coeffs : List Int := [1431680, 10327387, 59597083, 257941248, 744261118, 1073741824]

def exp2 (x : Nat) : Nat :=
  if isNaN x then fNaN
  else if orderKey 0x43000000 ≤ orderKey x then fInf false
  else if orderKey x ≤ orderKey 0xC3200000 then 0
  else if isZero x then 0x3F800000
  else
    let (s, m, k) := decNorm x
    let X := shiftFloor (if s then -(m : Int) else m) (k + 30)
    let n := (X + 2 ^ 29).fdiv (2 ^ 30)
    let f := X - n * 2 ^ 30
    let p := exp2Coeffs.foldl (fun p c => (p * f).fdiv (2 ^ 30) + c) 165394
    packFp false p.toNat (n - 30)

/-- One Newton step of rcp. -/
def rcpStep (m : Nat) (y : Int) : Int :=
  let e := (2 : Int) ^ 30 - ((m : Int) * y).fdiv (2 ^ 23)
  y + (y * e).fdiv (2 ^ 30)

/-- The pseudocode of R145 as written. Its first line is (48 − 32a) / 17 for a in [1/2, 1), while a = m / 2^23 lies in
[1, 2): for most m its result misses R147's bound of 1 unit in the last place. DESIGN CHOICE (log 10): where the two rules
conflict and y > 0, the definition R145 stands; where y ends at or below zero `pack` (m > 0) states no result, and it is
one of the two neighbours of the exact reciprocal, as R147 bounds it (`Config.rcpOpen`). -/
def rcp (x : Nat) : Nat :=
  if isNaN x then fNaN
  else if isZero x then fInf (fp32.sign x)
  else if isInf x then fZero (fp32.sign x)
  else
    let (s, m, k) := decNorm x
    let y := rcpStep m (rcpStep m (rcpStep m (3031741621 - ((2021161080 : Int) * m).fdiv (2 ^ 23))))
    if y ≤ 0 then packFp s (2 ^ 47 / m + (if Config.rcpOpen (BitVec.ofNat 32 x) then 1 else 0)) (-k - 47)
    else packFp s y.toNat (-k - 53)

/-- One Newton step of rsqrt. -/
def rsqrtStep (A : Int) (y : Int) : Int :=
  let t := (y * y).fdiv (2 ^ 30)
  let u := (A * t).fdiv (2 ^ 30)
  (y * (3 * 2 ^ 30 - u)).fdiv (2 ^ 31)

def rsqrt (x : Nat) : Nat :=
  if isNaN x ∨ (fp32.sign x ∧ !isZero x) then fNaN
  else if isZero x then fInf (fp32.sign x)
  else if isInf x then 0
  else
    let (_, m, k) := decNorm x
    let (m, k) := if k % 2 = 0 then (2 * m, k - 1) else (m, k)
    let h := (k + 23) / 2
    let A : Int := m * 2 ^ 7
    let y := rsqrtStep A (rsqrtStep A (rsqrtStep A (rsqrtStep A (1252698795 - ((178956971 : Int) * A).fdiv (2 ^ 30)))))
    packFp false y.toNat (-30 - h)

def logistic (x : Nat) : Nat := rcp (fadd 0x3F800000 (exp2 (fmul x 0xBFB8AA3B)))

def silu (x : Nat) : Nat := if x = 0xFF800000 then 0x80000000 else fmul x (logistic x)

def gelu (x : Nat) : Nat :=
  if x = 0xFF800000 then 0x80000000
  else
    let g := ffma 0x3D372713 (fmul x x) 0x3F800000
    let z := fmul x (fmul 0x3FCC422A g)
    fmul x (logistic z)

/-! ## Maximum and its index (R141) -/

/-- The greatest of a list of FP32 patterns: NaN if any is NaN. -/
def maxOf : List Nat → Nat
  | [] => 0
  | x :: xs => xs.foldl fmax (if isNaN x then fNaN else x)

/-- The order of R141 for the index: NaN above every number, the two zeros equal. -/
def argKey (x : Nat) : Int := if isNaN x then 2 ^ 32 else if isZero x then 0 else
  if fp32.sign x then -(bits x 0 31 : Int) else bits x 0 31

/-- The lowest index of the greatest element, and that element. -/
def argMax (xs : List Nat) : Nat × Nat :=
  let go := fun (best : Nat × Nat) (e : Nat × Nat) => if argKey best.2 < argKey e.1 then (e.2, e.1) else best
  match xs with
  | [] => (0, 0)
  | x :: _ => (xs.zipIdx).foldl go (0, x)

end Sys2Proof.Machine
end

