-- ==== Sys2Proof/Machine/State.lean ====
section
/-! DEFINITION. The state of the package: everything the spec gives it, as plain data, and the state after reset.

Memory-mapped registers that only hold a value lie in `ctl`, keyed by their control-space offset (00_scope.md,
Registers); named offsets and fields are in Machine/Regs.lean. Registers that show live state (the compositor's, queue
depths, counts) are views of the fields here. A register of BAR2 (R386) is keyed above the control space. -/

namespace Sys2Proof.Machine

/-- Reasons to stop with a fault. No meaning raises one: the spec gives the package no condition on which it stops
without an effect of its own; a failure is a status code, a record, a halt, a freeze or a reset. -/
inductive Fault where
  /-- Raised by no meaning; kept so that the type is inhabited. Safe. -/
  | unraised
deriving DecidableEq, Repr

/-- Reasons to refuse a command. -/
inductive Refusal where
  /-- Raised by exec's arms for commands without a meaning yet; safe. -/
  | notModelled (mnemonic : String)
deriving DecidableEq, Repr

/-! ## A core (06, 07, 08) -/

/-- One level of the loop stack (R150): first and last address of the body, entry count C, remaining count Q. -/
structure LoopLevel where
  first : Nat
  last : Nat
  C : Nat
  Q : Nat
deriving DecidableEq, Repr

/-- What a running compositor is stalled in (R170, R171, R172, R176, R177). -/
inductive Stall where
  | none
  /-- a `CWAIT`: destination predicate, threshold, flag, tick in which it executed, timeout in ticks (0: none) -/
  | cwait (pd : Nat) (threshold : BitVec 32) (flag : Nat) (t0 timeout : Nat)
  /-- a `PUSH` on a full queue or skip ledger: queue, descriptor, whether it delivers -/
  | push (queue : Nat) (desc : Wide) (deliver : Bool)
  /-- an `SLD` or `SST` waiting under R77 -/
  | scoreboard
  /-- a fetch that missed: the line (R176) -/
  | fetch (line : Nat)
  /-- a fifth outstanding `PRIME` (R177) -/
  | prime
deriving DecidableEq, Repr

/-- A credit pool (R221) with the requests that wait at it (R223) and its epoch (R424). A request is its source core, its
transfer number. -/
structure Pool where
  limit : Nat
  avail : Nat
  held : Bool
  ovr : Bool
  relflag : Nat
  waiting : List (BitVec 20 × BitVec 12)
  epoch : Nat
deriving DecidableEq, Repr

/-- A credit that a pool has granted and that has not come back: the pool, the transfer it was granted to, the epoch that its
grant carries (R223, R424). -/
structure Lent where
  pool : Nat
  src : BitVec 20
  txid : BitVec 12
  epoch : Nat
deriving DecidableEq, Repr

/-- One active item of a KV command, as resolved at issue (R86, R108): item, slot, length or position, the row offset of
each token in turn. -/
structure KvItem where
  item : Nat
  slot : Nat
  n : Nat
  rows : List Nat
deriving DecidableEq, Repr

/-- What a command holds while it executes (R182): the handle entries it resolved at issue (R66), the outlier map (R101)
or list items (R108) it read at issue, its issue tick, the tick in which the flag of a `WAIT` first satisfied it (R219), whether
its work is done, whether it is of zero length (R200), the codes and flags its work has gathered (R188), whether its error
record is raised already (R439), its transfer, and how many pieces of a host command have been placed (R205, R402). -/
structure Exec where
  handles : List (Nat × Wide)
  outliers : List Nat
  items : List KvItem
  issued : Nat
  met : Option Nat
  worked : Bool
  zero : Bool
  codes : List Nat
  flags : Nat
  recorded : Bool
  txid : Option (BitVec 12)
  progress : Nat
deriving DecidableEq, Repr

/-- Where a command stands between its push and its signal (R168, R182, R212). -/
inductive Phase where
  | waiting
  | executing (x : Exec)
  | done (status : BitVec 16)
  | skipped
deriving DecidableEq, Repr

/-- A command delivered to a queue, or skipped from it with a signal: sequence number in its queue (R190), place in
program order (R75), descriptor, length bound at push (R122), whether it has waited under R77. -/
structure Item where
  seq : Nat
  ord : Nat
  desc : Wide
  blen : Nat
  stalled : Bool
  phase : Phase
deriving DecidableEq, Repr

/-- How far the flagged packet of a transfer has come (R269). -/
inductive FlagStage where
  | none | unsent | held | left
deriving DecidableEq, Repr

/-- A transfer of a core to or from another core (R204, R518): its number, the queue, sequence number and opcode of its
command, the destination core, segments not yet left, whether they need credits, requests outstanding, epochs of grants
in hand, packets that left and are unanswered, whether the verdict of the first segment has returned (R201), failing
codes returned, whether it has ended under R518, its flagged packet, whether an answer came from a replay (R292), where a
read response is written (fabric address of its first byte for each segment), and the pool and handle it names. -/
structure Xfer where
  txid : BitVec 12
  queue : Nat
  seq : Nat
  opcode : Nat
  sig : Bool
  dest : BitVec 20
  dh : Nat
  unsent : List Packet
  needCredit : Bool
  requested : Nat
  grants : List Nat
  unanswered : Nat
  verdict : Bool
  codes : List Nat
  ended : Bool
  flag : FlagStage
  flagPkt : Option Packet
  replayed : Bool
  landing : List (Nat × List (Nat × Nat))
  late : Bool
  circ : Option (BitVec 12)
deriving DecidableEq, Repr

/-- A transfer being received (R74): source, number, its verdict once the first segment was checked, and whether a reset
has made its further segments stale (R424). -/
structure RxXfer where
  src : BitVec 20
  txid : BitVec 12
  code : Nat
  stale : Bool
deriving DecidableEq, Repr

/-- A weight-row restore in progress (R436 to R438): the rows awaited, those asked of the alternate source, those that another write
has reached since, the queues of the squashed commands, the detection tick, whether the budget has expired. -/
structure Restore where
  rows : List Nat
  alt : List Nat
  overwritten : List Nat
  queues : List Nat
  since : Nat
  background : Bool
deriving DecidableEq, Repr

/-- One core. `loops` has the innermost level first; `icache` the least recently used line first, each with its bytes;
`fills` the lines requested, oldest first, and `primes` those that each outstanding `PRIME` still waits for; `met` whether the
`CWAIT` it is stalled in has been satisfied by its deadline (R219, R220); `lent` the credits its pools have out, oldest first;
`lastSent` the transfer that the fabric injection served last (R206). -/
structure Core where
  sreg : Tbl Word
  pred : BitVec 8
  lc : Tbl (BitVec 32)
  loops : List LoopLevel
  pc : BitVec 22
  snap : Tbl Word
  run : Bool
  armed : Bool
  late : Bool
  haltCode : Nat
  haltAddr : BitVec 22
  haltDepth : Nat
  codeBase : BitVec 23
  codeLimit : BitVec 23
  startTick : Word
  passCount : Nat
  retired : Nat
  stall : Stall
  met : Bool
  icache : List (Nat × List Byte)
  fills : List Nat
  primes : List (List Nat)
  handles : Tbl Wide
  flags : Tbl (BitVec 32)
  pools : Tbl Pool
  lent : List Lent
  fifo : Tbl (List Item)
  seqs : Tbl Nat
  ord : Nat
  granted : Tbl Nat
  awaiting : Tbl Nat
  held : List (Packet × Option (BitVec 12) × Nat × Nat)
  xfers : List Xfer
  nextTx : BitVec 12
  lastSent : BitVec 12
  rx : List RxXfer
  restore : Option Restore
  census : Nat
  frozen : Bool
deriving DecidableEq, Repr

/-- A pool with nothing in it (R222). -/
def Pool.reset : Pool := ⟨0, 0, false, false, 0, [], 0⟩

/-- A core after a core reset: every item at the value R150, R69, R121 and R222 give, the compositor halted. -/
def Core.reset : Core where
  sreg := []
  pred := 1#8
  lc := []
  loops := []
  pc := 0
  snap := []
  run := false
  armed := false
  late := false
  haltCode := 0
  haltAddr := 0
  haltDepth := 0
  codeBase := 0
  codeLimit := 0
  startTick := 0
  passCount := 0
  retired := 0
  stall := .none
  met := false
  icache := []
  fills := []
  primes := []
  handles := []
  flags := []
  pools := []
  lent := []
  fifo := []
  seqs := []
  ord := 0
  granted := []
  awaiting := []
  held := []
  xfers := []
  nextTx := 0
  lastSent := 0
  rx := []
  restore := none
  census := 0
  frozen := false

/-! ## The fabric and the Ronnen ports (09, 10) -/

/-- A circuit whose setup probe has reserved slots in this package and whose answer has not passed yet (R263): source
core, circuit, transfer number of the probe. -/
structure Probe where
  src : BitVec 20
  circ : BitVec 12
  txid : BitVec 12
deriving DecidableEq, Repr

/-- A flit's content below the link layer (R283, R284): buffer class 2 × VC + SET, FIRST, LAST, the sideband header, 256
payload bytes; `marked`: its packet had a flit accepted from a replay on the way here (R292; log 105). -/
structure FlitBody where
  cls : Nat
  first : Bool
  last : Bool
  hdr : Wide
  payload : List Byte
  marked : Bool
deriving DecidableEq, Repr

/-- A flit to be sent: the DATA flit of a sequence number, or the flag of a NAK (R289, R290). -/
structure TxFlit where
  seq : Nat
  body : FlitBody
deriving DecidableEq, Repr

/-- A flit as it goes over the lanes (R284): FTYPE 0 idle, 1 DATA; SEQ and the body of a DATA flit; ACKSEQ with ACKV; NAK; the
credit returns by buffer class. `again`: it is resent from the replay buffer, or its packet is marked (R292; log 105). -/
structure WireFlit where
  ftype : Nat
  seq : Nat
  body : FlitBody
  ackseq : Nat
  ackv : Bool
  nak : Bool
  cret : List Nat
  again : Bool
deriving DecidableEq, Repr

/-- Messages of the LINKCTL protocols that the port has to send (R294, R295, R299, R301). -/
inductive LinkMsg where
  | ident (pos port role : Nat)
  | laneSwap (lane : Nat)
  | syncReq (t1 : Nat)
  | syncRsp (t1 t2 t3 depth : Nat) (synced child : Bool)
  | loopReq (depth : Nat) (enable : Bool)
  | handover (seq : Nat)
deriving DecidableEq, Repr

/-- Credit traffic in flight (R223, R224): a request to the pool of handle `dh` at core `dest`, a grant or refusal to
core `src`, a return by the sender, and the return of a segment's credit by the hellbox or hop that took the segment on its
way, which the pool settles by the transfer's oldest grant. -/
inductive CreditMsg where
  | request (dest : BitVec 20) (dh : Nat) (src : BitVec 20) (txid : BitVec 12)
  | grant (src : BitVec 20) (txid : BitVec 12) (epoch code : Nat)
  | giveBack (dest : BitVec 20) (dh : Nat) (src : BitVec 20) (txid : BitVec 12) (epoch : Nat)
  | lost (dest : BitVec 20) (dh : Nat) (src : BitVec 20) (txid : BitVec 12)
deriving DecidableEq, Repr

/-- A Ronnen port (R286 to R301). `replay` is the replay buffer, oldest first, and `ackedPart` flits already acknowledged of
packets whose LAST flit is not; `wire` what the port has put on its lanes, and `raw` the codewords that a serial loop-back has
returned; `txWait` flits that wait for credits or buffer, and `loopWait` those that a loop-back sends on; `slot` the place in the
circuit frame of the next DATA flit, `turn` the channel granted last in turn, `sending` the header of the packet in progress on
each channel (R259, R262); `used` credits in use per buffer class; `cret` credits to return; `asm` the packet being assembled per
virtual channel and whether a flit of it was replayed; `swaps` the lane swaps that wait for their codeword boundary, oldest
first: whether of a receive lane, the physical lane; `spareBadTx` and `spareBadRx` whether lane 8 has failed while it carried
no logical lane; `reflect` the loop-back depth that the peer asked for; `syncT1` the time of the SYNC_REQ that waits for its
answer; `peerDepth` the peer's depth where it last reported itself aligned and no child of this package (R300). -/
structure RPort where
  txSeq : Nat
  replay : List TxFlit
  ackedPart : List FlitBody
  wire : List WireFlit
  raw : List (List Nat)
  msgs : List LinkMsg
  txWait : List FlitBody
  loopWait : List FlitBody
  slot : Nat
  turn : Nat
  sending : Tbl (Option Wide)
  used : Tbl Nat
  cret : Tbl Nat
  rxNext : Nat
  rxAny : Bool
  nakOut : Bool
  asm : Tbl (List FlitBody × Bool)
  sameStart : Nat
  lastStart : Nat
  lastAckTick : Nat
  retrainFails : Nat
  fromRetrain : Bool
  downTick : Nat
  outTick : Nat
  identTick : Nat
  swaps : List (Bool × Nat)
  spareBadTx : Bool
  spareBadRx : Bool
  heldDown : Bool
  symCount : Tbl Nat
  reflect : Nat
  syncT1 : Option Nat
  peerDepth : Option Nat
deriving DecidableEq, Repr

def RPort.reset : RPort where
  txSeq := 0
  replay := []
  ackedPart := []
  wire := []
  raw := []
  msgs := []
  txWait := []
  loopWait := []
  slot := 0
  turn := 0
  sending := []
  used := []
  cret := []
  rxNext := 0
  rxAny := false
  nakOut := false
  asm := []
  sameStart := 0
  lastStart := 0
  lastAckTick := 0
  retrainFails := 0
  fromRetrain := false
  downTick := 0
  outTick := 0
  identTick := 0
  swaps := []
  spareBadTx := false
  spareBadRx := false
  heldDown := false
  symCount := []
  reflect := 0
  syncT1 := none
  peerDepth := none

/-- Where a package stands with its parent (R298, R300): neither port of the parent pair has been ACTIVE yet, one has been, or
both have left ACTIVE and a new parent is sought. -/
inductive ParentStage where
  | fresh | up | sought
deriving DecidableEq, Repr

/-- Generator and checker of a loop-back (R477): whether they run; by lane, a payload sequence being lane 0, the checker's shift
register and the bits seen before it locks; and the bits checked that MBITS does not count yet. -/
structure Pattern where
  run : Bool
  reg : Tbl Nat
  seen : Tbl Nat
  rest : Nat
deriving DecidableEq, Repr

def Pattern.reset : Pattern := ⟨false, [], [], 0⟩

/-! ## Contexts (12) -/

/-- One target of a shard (R340). -/
structure Target where
  core : Nat
  handle : Nat
  pending : Bool
  keepBase : Bool
  base : Nat
  offset : Nat
  length : Nat
deriving DecidableEq, Repr

/-- One shard of a manifest (R339). -/
structure Shard where
  die : Nat
  srcKind : Nat
  srcWindow : Nat
  srcPkg : Nat
  altKind : Nat
  altWindow : Nat
  altPkg : Nat
  length : Nat
  srcOff : Nat
  altOff : Nat
  digest : List Byte
  targets : List Target
deriving DecidableEq, Repr

/-- A parsed manifest (R338). -/
structure Manifest where
  edition : Bool
  part : Nat
  number : BitVec 32
  keyId : Nat
  plateDigest : List Byte
  shards : List Shard
  digest : List Byte
deriving DecidableEq, Repr

/-- A shard being fetched (R342 to R344): the shard, bytes of this attempt in order, attempts begun, whether an attempt
failed its digest, verified, all attempts failed, tick of the last byte. -/
structure Fetch where
  shard : Shard
  got : List Byte
  attempt : Nat
  badDigest : Bool
  verified : Bool
  lastTick : Nat
deriving DecidableEq, Repr

/-- A load in progress (R337 to R346). -/
structure Load where
  manifest : Manifest
  fetches : List Fetch
  since : Nat
deriving DecidableEq, Repr

/-- A section of a plate kept for restoring program-store lines (R441): die, offset in the store, bytes, file offset. -/
structure ProgSec where
  die : Nat
  soff : Nat
  count : Nat
  file : Nat
deriving DecidableEq, Repr

/-- What a loaded plate leaves behind (R335, R336). -/
structure Plate where
  slots : Nat
  commitH : Nat
  commitOff : Nat
  profile : Nat
  started : List Nat
  named : List Nat
  programs : List ProgSec
  digest : List Byte
  window : Nat
  offset : Nat
deriving DecidableEq, Repr

/-- An input that waits for its pass on some started cores (R331): a slot map word, or a commit of an edition. -/
inductive PassInput where
  | slotWord (w : Nat) (v : Word)
  | commit (edition : BitVec 32)
deriving DecidableEq, Repr

/-- An accepted input with its applying pass and the started cores (key die × 72 + flat) that have not received it. -/
structure PendingInput where
  pass : BitVec 32
  input : PassInput
  cores : List Nat
deriving DecidableEq, Repr

/-- A journal entry (R322). -/
structure JnlEntry where
  tick : Nat
  pass : BitVec 32
  kind : Nat
  dig : Bool
  source : Nat
  data : Nat
deriving DecidableEq, Repr

/-- What replay mode holds back (R324): an input of a register with the pass it names; the matching of an input accepted before the
recorded journal has been read; a host's write of a register, or by the aperture (port, function, partition, address, bytes), into
a running context; the data of a `HOST_READ` (port, core key, queue, sequence number). -/
inductive HeldInput where
  | input (x : PassInput) (named : BitVec 32)
  | note (e : JnlEntry)
  | reg (who : Accessor) (off : Nat) (size8 : Bool) (v : Word)
  | fab (b f p addr : Nat) (bytes : List Byte)
  | read (b k q seq : Nat)
deriving DecidableEq, Repr

/-- One partition's part (R329 to R356). `fencesLeft`: started cores whose fence of the commit in progress has not
completed (R350). `recorded`: entries of the recorded journal read so far, by number, and `held` what replay mode holds back, oldest first
(R324). `stopLate`: the reset in progress was made by a STOP that timed out
(R355). -/
structure Part where
  plate : Option Plate
  current : Option Manifest
  pending : Option Manifest
  load : Option Load
  interlocked : Bool
  inputs : List PendingInput
  fencesLeft : List Nat
  stopTick : Nat
  recorded : List (Nat × JnlEntry)
  held : List HeldInput
  stopLate : Bool
deriving DecidableEq, Repr

def Part.reset : Part := ⟨none, none, none, none, false, [], [], 0, [], [], false⟩

/-! ## Host interface (15) -/

/-- A write in a port's delivery buffer (R235, R402): partition, window and byte offset, bytes, EP, the command that made it
(core key, queue, sequence number, opcode), the ring whose entry it completes when it is the second write of a completion
entry, whether it belongs to an entry (R236). -/
structure DlvWrite where
  part : Nat
  win : Nat
  off : Nat
  bytes : List Byte
  ep : Bool
  cmd : Option (Nat × Nat × Nat × Nat)
  ring : Option Nat
  ordered : Bool
deriving DecidableEq, Repr

/-- Why a port reads host memory (R237, R238, R402, R403). -/
inductive ReadFor where
  /-- bytes of a `HOST_READ`: core key, queue, sequence number, where they land (SPACE × 2^26 + offset, bytes) -/
  | command (k queue seq : Nat) (landing : List (Nat × Nat))
  /-- the zero-length read of a `HOST_FLUSH` -/
  | flush (k queue seq : Nat)
  /-- the zero-length read of the flush doorbell of function f -/
  | doorbell (f : Nat)
  /-- entries `first` and on of partition p's recorded journal (R324) -/
  | journal (p first : Nat)
  /-- the zero-length read that proves delivery -/
  | probe
deriving DecidableEq, Repr

/-- A non-posted request: outstanding once it is sent, before that held until the writes numbered below `after` that it must
follow have left (R237, R238); once sent, `after` is the count of writes that had left before it (R402). `len` is the range
it waits for; `zero` reads no byte; `got` is what a piece of a `HOST_READ` has brought, kept until all its pieces have; `sentAt` the
tick in which it was sent (R405). -/
structure HRead where
  tag : Nat
  part : Nat
  win : Nat
  off : Nat
  len : Nat
  zero : Bool
  why : ReadFor
  after : Nat
  sent : Bool
  got : Option (List Byte)
  sentAt : Nat
deriving DecidableEq, Repr

/-- A flush of the doorbell that waits or runs (R403), over writes numbered below `after`. -/
structure Flush where
  f : Nat
  part : Nat
  win : Nat
  lo : Nat
  size : Nat
  code : Nat
  after : Nat
deriving DecidableEq, Repr

/-- What a host sets in a function's configuration space, as far as the spec names an effect of it (R378, R401, R405): D3hot, the
Max Read Request Size in bytes, the completion timeout in ticks (none: disabled), MSI-X enabled and masked as a whole, the
uncorrectable errors that AER holds (PRESUMED, log 112). -/
structure FnCfg where
  d3 : Bool
  maxRead : Nat
  timeout : Option Nat
  msixOn : Bool
  msixMask : Bool
  aer : BitVec 32
deriving DecidableEq, Repr

/-- PCI Express's reset values, with the timeout of R405: 512 bytes, 50 ms, MSI-X disabled (PRESUMED, log 112). -/
def FnCfg.reset : FnCfg := ⟨false, 512, some 12500000, false, false, 0⟩

/-- One PCIe port's bridge (R235 to R238, R402 to R408). `entered` counts writes that have entered the buffer, so that a
flush knows which were there before it, and each held write carries its number; `queued` holds writes of the device's own that
wait for room in the buffer (log 113); `left` counts writes that have left, and each retained write carries its place in that
order; `lanes` is the rate code and the width last negotiated (R479; log 110); `sqRing` the ring served last and `sqRun` the
entries it has given in this turn (R393); `cfg` the configuration of each function. -/
structure PPort where
  buf : List (Nat × DlvWrite)
  queued : List (Nat × DlvWrite)
  retained : List (Nat × DlvWrite)
  entered : Nat
  left : Nat
  reads : List HRead
  nextTag : Nat
  flushes : List Flush
  downTick : Option Nat
  perstLow : Bool
  vfs : Nat
  probeTick : Nat
  lanes : Nat × Nat
  sqRing : Nat
  sqRun : Nat
  cfg : Tbl FnCfg
deriving DecidableEq, Repr

def PPort.reset : PPort := ⟨[], [], [], 0, 0, [], 0, [], none, false, 0, 0, (6, 16), 0, 0, []⟩

/-- A DELIVER entry on its way (R397): bridge, ring, the 64 bytes, the SQ entry's tag and CQE bit, SQ head after it, transfer
number, destination, handle, offset in it and flag, stage (0 waits for the credit, 1 granted, 2 write in flight, 3 flag to
be sent, 4 flag in flight), and whether its completion is no longer written (R391). -/
structure Deliver where
  port : Nat
  ring : Nat
  bytes : List Byte
  tag : Nat
  cqe : Bool
  head : Nat
  txid : BitVec 12
  dest : BitVec 20
  dh : Nat
  off : Nat
  flag : Nat
  stage : Nat
  mute : Bool
deriving DecidableEq, Repr

/-- A completion ring's count of entries put since its last message, and the tick of the oldest of them (R400), its entries
reserved for accepted SQ entries (R394), and whether its SQ waits for a doorbell after a failed read (R394). -/
structure RingIrq where
  n : Nat
  oldest : Nat
  reserved : Nat
  stopped : Bool
deriving DecidableEq, Repr

/-- An aperture access in flight (R404): function key, whether a read, the packet. -/
structure FabAccess where
  fn : Nat
  isRead : Bool
  size : Nat
  pkt : Packet
  sent : Bool
deriving DecidableEq, Repr

/-! ## Efxis (14), reset (16), errors (17), management (18), test (19) -/

/-- A record of an Efxis image (R358). -/
structure EfxRec where
  typ : Nat
  pkg : Nat
  index : Nat
  body : List Byte
deriving DecidableEq, Repr

/-- An armed activation (R370): its tick T, the slots that the staged image pins on each hop, the owners that the image in force
pins, the partitions that T resets (position × 64 + partition). -/
structure ArmedEfx where
  tick : Nat
  need : Tbl Nat
  pinned : List Nat
  resets : List Nat
deriving DecidableEq, Repr

/-- A reset in progress (R423): its unit, Tb, whether drained, whether it is a proof pass (R484), and of a partition the galleys
that it has taken, bit 4 × die + galley (R371). -/
structure ResetRun where
  unit : ResetUnit
  tb : Nat
  drained : Bool
  proof : Bool
  galleys : Nat
deriving DecidableEq, Repr

/-- An error record (R444) before it leaves; fields as the rule names them. `retire`: this event brought its window to
COUNT (R447); `res`: the resource within its kind. -/
structure ErrRec where
  tick : Nat
  cls : Nat
  source : Nat
  status : BitVec 16
  die : Nat
  core : Nat
  queue : Nat
  part : Nat
  rkind : Nat
  wcount : Nat
  caltime : Nat
  location : Nat
  item : Nat
  slot : Nat
  cmdseq : Nat
  repeats : Nat
  detail : Nat
  retire : Bool
  res : Nat
deriving DecidableEq, Repr

/-- An entry of the repair log (R416): kind of R448, resource key, calendar stamp. -/
structure Repair where
  kind : Nat
  resource : Nat
  stamp : Nat
deriving DecidableEq, Repr

/-- A copy of the lifetime records (R472, R473): its sequence number, powered ticks, power-ons, unclean power-offs, thermal
cycles and energy of each die, energy of the 12 V input, fault-window counters, wear indices, erases of each sector of the
lifetime region, and whether an orderly power-down or a trip wrote it. -/
structure LifeCopy where
  seq : Nat
  ticks : Nat
  powerOns : Nat
  unclean : Nat
  cycles : Tbl Nat
  energy : Nat
  dieEnergy : Tbl Nat
  windows : Tbl Nat
  wear : Tbl Nat
  erases : Tbl Nat
  orderly : Bool
deriving DecidableEq, Repr

/-- What survives power removal (R475): NOR. -/
structure Nor where
  firmware : List Byte
  fwVersion : BitVec 32
  firmwareGood : Bool
  image : Option (List Byte)
  staged : Option (List Byte)
  repairs : List Repair
  records : List (List Byte)
  life : List LifeCopy
  chainOk : Bool
deriving DecidableEq, Repr

/-- What the fuses hold (R2 to R5, R412 step 2, R470). `fusedCores` are keys die × 72 + flat; `revoked` the firmware keys whose
revocation fuse is blown. -/
structure Fuses where
  part : BitVec 8
  stepping : BitVec 8
  fusedDies : List Nat
  fusedCores : List Nat
  rowsFuse : Tbl Nat
  lanesFuse : Tbl Nat
  baseline : Tbl Nat
  seed : List Byte
  revoked : List Nat
deriving DecidableEq, Repr

/-- Power and temperature (R25 to R28, R459 to R464, R472). `window` holds the last 5,000 averages of 1 µs, newest first;
`floorSince` the tick from which code 10 with factor 32 has run; `armRefused` and `belowSince` the last resort of R28;
`lastLower` the tick at which the last lowering of the setpoint took effect, `lastThermal` that of the last change of the
thermal ceiling; `warned` the dies above TWARN; `hot` whether some die is above THOT, `hotSince` the tick of the last fall of
the ceiling; `tripNext` whether the last sample passed TTRIP; `tripped` whether the trip output is asserted, `trip10` whether
the colophon has tripped and holds code 10; `underSince` the tick of the last sample below VIN_LOW, or of the return within the window; `vinSide` where the input lies: 0 within its window, 1
below, 2 above; `vin` and `power` the last averages
in mV and mW; `rest` and `dieRest` energy in nJ not yet counted; `cycleLow` and `cyclePeak` the extremes since the last thermal
cycle of a die; `wanted` the tick that the last rate request named, 0 the earliest; `nextCap` the tick from which the next
measurement of input power may come (R26, R458). -/
structure Thermal where
  window : List Nat
  floorSince : Option Nat
  armRefused : Bool
  belowSince : Option Nat
  lastLower : Option Nat
  lastThermal : Option Nat
  warned : List Nat
  hot : Bool
  hotSince : Nat
  tripNext : Bool
  tripped : Bool
  trip10 : Bool
  underSince : Option Nat
  vinSide : Nat
  vin : Nat
  power : Nat
  rest : Nat
  dieRest : Tbl Nat
  cycleLow : Tbl Int
  cyclePeak : Tbl Int
  wanted : Nat
  nextCap : Nat
deriving DecidableEq, Repr

/-- The JTAG port (R489): the instruction in force, the cells sampled. -/
structure Jtag where
  ir : Nat
  cells : List Bool
  lands : List Bool
deriving DecidableEq, Repr

/-- The I3C target, MCTP and PLDM endpoints (R465, R466). `update` is the stage of an update over PLDM: 0 none, 1 requested, 2
component table passed, 3 transfer, 4 transferred, 5 being committed, 6 committed; `updSize` the size announced, `updBytes`
the image as it arrives. -/
structure Mgmt where
  dynAddr : Option (BitVec 7)
  staticAddr : BitVec 7
  events : BitVec 8
  mwl : BitVec 16
  mrl : BitVec 16
  ibi : BitVec 8
  rstAction : BitVec 8
  eid : BitVec 8
  tid : BitVec 8
  receiver : Option (BitVec 8)
  update : Nat
  updSize : Nat
  updBytes : List Byte
deriving DecidableEq, Repr

/-- An SPDM session (R467). -/
structure Session where
  id : BitVec 32
  established : Bool
deriving DecidableEq, Repr

/-- One SPDM responder (R467): connection stage (0 none, 1 version, 2 capabilities, 3 algorithms agreed, 4 neither signature nor
key exchange accepted, 5 no key exchange accepted), sessions, next session number, the chunked message being received with its
handle and next chunk, the large response being read with its handle and next chunk. -/
structure Spdm where
  stage : Nat
  sessions : List Session
  nextSession : Nat
  chunkIn : List Byte
  inHandle : Nat
  inSeq : Nat
  chunkOut : List Byte
  outHandle : Nat
  outSeq : Nat
deriving DecidableEq, Repr

def Spdm.reset : Spdm := ⟨0, [], 1, [], 0, 0, [], 0, 0⟩

/-- What the package has driven to the world, in order. -/
inductive Out where
  /-- a posted PCIe write left the delivery buffer (R235) -/
  | hostWrite (port : Nat) (addr : Nat) (bytes : List Byte) (ep : Bool)
  /-- an MSI-X message: vector, and the address and data of its table entry (R400, R401, R455) -/
  | msix (port fn vector : Nat) (addr data : Nat)
  /-- a PCIe completion of an aperture or configuration read (R404, R413) -/
  | completion (port fn : Nat) (value : Word)
  | retryStatus (port fn : Nat)
  /-- a non-posted read sent to the host (R237, R238, R402) -/
  | hostRead (port tag addr len : Nat)
  /-- a management answer: 0 I3C, 1 MCTP, 2 PLDM, 3 SPDM; the request's name, completion code, the fields the spec gives -/
  | mgmt (proto : Nat) (via : MgmtVia) (name : String) (code : Nat) (fields : List Nat) (bytes : List Byte)
  /-- THERMTRIP# asserted (R460, R502) -/
  | thermtrip
  /-- a PLDM event message (R466) -/
  | event (source : Nat) (die : Nat)
  /-- an I3C hot-join request (R475) -/
  | hotJoin
  /-- JTAG shift-out (R489) -/
  | jtag (value : Nat)
  /-- a request for shard bytes, an image or a row of a host window or peer (R342, R436) -/
  | fetch (part die kind window offset length : Nat)
  /-- the answer to a peer package's request for shard bytes (R342, R344): position, partition, code, bytes -/
  | shardAnswer (pos part code : Nat) (bytes : List Byte)
  /-- a packet that left over a Ronnen port's partner protocol, or census traffic between quoins (R375) -/
  | censusAnswer (pos : Nat) (seq : BitVec 32) (digest : List Byte)
  | censusResult (agree disagree missing : BitVec 8) (dis mis : Word)
  /-- a census request to the child that a port leads to: a CTRL packet on virtual channel 3 between quoin endpoints (R375) -/
  | censusAsk (port : Nat)
deriving DecidableEq, Repr

/-- One trace record (R486). -/
structure TraceRec where
  beat : Nat
  core : Nat
  queue : Nat
  event : Nat
  status : BitVec 16
  arg : Nat
deriving DecidableEq, Repr

/-- A die's beat (R306 to R309): replica demand of a droop in progress, in 1/64 setpoint period (0: none), the time since the
beat began, in the units of Machine/Rate.lean, whether the last beat ended by replica demand, whether it demanded more than 5/3
periods, the trace buffer, and the beat of the last record taken with the records of that beat (R486). -/
structure DieBeat where
  demand : Nat
  phase : Nat
  droop : Bool
  deep : Bool
  traceOn : Bool
  trace : List TraceRec
  traceBeat : Nat
  traceTaken : Nat
deriving DecidableEq, Repr

def DieBeat.reset : DieBeat := ⟨0, 0, false, false, false, [], 0, 0⟩

/-- The package and the commands that wait at it. -/
structure State where
  /-- commands waiting, first in first out -/
  pending : List Instr
  /-- PWRGD asserted and VIN good (R495, R496) -/
  powered : Bool
  /-- the model's own counter of free values drawn; DESIGN CHOICE, log 11 -/
  free : Nat
  /-- the impression counter (R303) and its phase in 1/64 tick (R299) -/
  tick : Nat
  frac : Nat
  /-- memory-mapped registers by control-space offset -/
  ctl : Tbl Word
  /-- every addressable byte by fabric address (R247) -/
  mem : List Host.Cell
  /-- brayer tiles: core key × 65536 + tile × 16384 + byte (R118) -/
  tiles : List Host.Cell
  /-- poisoned bank units by unit key (R433) -/
  poison : Tbl Bool
  /-- cores by die × 72 + flat -/
  cores : Tbl Core
  /-- lines asked of the program stores, oldest first: core key, line (R176) -/
  lineQ : List (Nat × Nat)
  fuses : Fuses
  position : Nat
  /-- cores that are not usable: fenced or failed (R417), keys die × 72 + flat -/
  fenced : List Nat
  /-- packets in flight towards endpoints of this package -/
  net : List Packet
  /-- credit requests, grants and returns in flight -/
  creditNet : List CreditMsg
  /-- circuit slots: hop key × 32 + slot holds owner + 1 (R262) -/
  slots : Tbl Nat
  probes : List Probe
  /-- hop outputs fenced (R254), as hop keys -/
  badHops : List Nat
  /-- hop outputs out of use by a bridge loop-back, once for each (R482) -/
  loopHops : List Nat
  /-- flagged packets are held (R372) -/
  flagHold : Bool
  rports : Tbl RPort
  /-- the port of each pair that is next in turn (R253): 0 the first -/
  rnnTurn : Tbl Nat
  /-- alignment tree: depth of this package, the first port of the pair it aligns to, where it stands with that parent, whether
  it has been aligned, and the tick of its last measurement (R298 to R300) -/
  syncDepth : Nat
  parentPort : Nat
  parentStage : ParentStage
  alignedOnce : Bool
  syncTick : Option Nat
  /-- checkers of loop-backs by the offset of the loop-back register (R477) -/
  patterns : Tbl Pattern
  parts : Tbl Part
  pports : Tbl PPort
  irqs : Tbl RingIrq
  delivers : List Deliver
  aperture : List FabAccess
  bridgeTx : BitVec 12
  /-- counts of the bridges' packets awaiting answers, by destination (R397, R268) -/
  bridgeAwait : Tbl Nat
  /-- armed setpoint change: code and tick (R312) -/
  rateArm : Option (Nat × Nat)
  /-- the tick of the next calendar second (R474) -/
  calDue : Nat
  thermal : Thermal
  dies : Tbl DieBeat
  /-- Efxis records in force, the staged image's records, the armed activation (R367 to R371) -/
  efx : List EfxRec
  efxStaged : Option (List EfxRec × Nat)
  efxArmed : Option ArmedEfx
  /-- T of the last activation (R372, R375) -/
  efxLast : Option Nat
  censusDue : Nat
  censusOpen : Option Nat
  resets : List ResetRun
  /-- the boot ROM waits for an image: on power-on (R429), with what the power-on brought; in service (R430) -/
  recovering : Option BootInput
  romUp : Bool
  fwStaged : Option (List Byte)
  fwRestarting : Option (Nat × Nat)
  /-- writes of the firmware image that this COMMIT has made (R430) -/
  fwTries : Nat
  nor : Nor
  /-- what NOR held when it failed: from then on `nor` is what the colophon keeps in RAM (R453) -/
  norKept : Option Nor
  norBusy : List NorWrite
  errPend : List ErrRec
  errLog : List (Nat × List Byte)
  /-- fault-window counters by resource key (R447) -/
  windows : Tbl Nat
  /-- the powered ticks up to which those counters have leaked (R447) -/
  leaked : Nat
  colophonStopped : List Nat
  /-- tick at which the last hand-over of the primary colophon began (R456) -/
  handover : Option Nat
  /-- erases of each sector of NOR's lifetime region (R472) -/
  erases : Tbl Nat
  jtag : Jtag
  mgmt : Mgmt
  spdm : Tbl Spdm
  out : List Out
deriving DecidableEq, Repr

/-- The fuses of an MXJ-64A at stepping A1 with nothing fused off (R1, R7; log 3). -/
def Fuses.mxj64a : Fuses := ⟨0x01, 0xA1, [], [], [], [], [], [], []⟩

/-- An Efxis image of no record, SEQ 0 (R357): every value is the factory's. -/
def bareImage : List Byte := [0x46, 0x45, 0x58, 0x4A, 1, 0, 0, 0, 64] ++ List.replicate 55 0

/-- A NOR that holds good firmware and an Efxis image of no record, and nothing else (log 3). -/
def Nor.fresh : Nor := ⟨[], 0, true, some bareImage, none, [], [], [], true⟩

def Thermal.reset : Thermal :=
  ⟨[], none, false, none, none, none, [], false, 0, false, false, false, none, 0, 0, 0, 0, [], [], [], 0, 0⟩

/-- Static address 0x30 + STRAP (R502); MWL and MRL have no reset value in the spec (log 2). -/
def Mgmt.reset (straps : BitVec 4) : Mgmt :=
  ⟨none, 0x30#7 + straps.setWidth 7, 0, 0, 0, 0, 0, 0, 0, none, 0, 0, []⟩

/-- A Ronnen port's registers with the factory image on one package: enabled, no lane retired, role unused, lanes in order
(R302, R362); position 0 is the timing root and aligned from power-on (R299). -/
def rnnReset (base : Nat) : Tbl Word :=
  [(base, 1), (base + 8, 6 * 2 ^ 22 + 15 * 2 ^ 8 + 16), (base + 0x10, 0x7654321076543210)]

/-- Control-space registers whose value after power-on is not zero, with the factory Efxis image (R361) on an MXJ-64A:
setpoint 30 (R315), the factory imprint digest (R373), boot step 7 (R427), NOR usable (R476), cap limit 120 and factor 64
(R462, R476), host ceiling 30 (R464), ceilings 36 (R464), one power-on (R472), function 0 of port 0 bound and active (R362,
R411), Ronnen ports (R302). -/
def ctlReset : Tbl Word :=
  [(0x110, 30), (0x228, 0xFF7E0C1A613AF3C3), (0x230, 0x620C4833106AF1DD), (0x238, 0x59B4A2769F425127),
   (0x240, 0xB509F65D96862091), (0x308, 7)] ++
  rnnReset 0x410000 ++ rnnReset 0x411000 ++
  [(0x420018, 0xFFFFFFFFFFFFFFFF), (0x430000, 8), (0x430010, 120 + 120 * 2 ^ 8 + 64 * 2 ^ 16), (0x430020, 30), (0x430028, 36 + 36 * 2 ^ 8), (0x430048, 1),
   (0x441000, 0x101)] ++
  rnnReset 0x510000 ++ rnnReset 0x511000 ++ rnnReset 0x512000 ++ rnnReset 0x513000 ++
  rnnReset 0x610000 ++ rnnReset 0x611000 ++ rnnReset 0x710000 ++ rnnReset 0x711000 ++ rnnReset 0x712000 ++ rnnReset 0x713000

/-- The machine right after the power-on sequence, every field at the value the spec states or log entries 2 to 4 name. -/
def State.reset : State where
  pending := []
  powered := true
  free := 0
  tick := 0
  frac := 0
  ctl := ctlReset
  mem := []
  tiles := []
  poison := []
  cores := []
  lineQ := []
  fuses := .mxj64a
  position := 0
  fenced := []
  net := []
  creditNet := []
  slots := []
  probes := []
  badHops := []
  loopHops := []
  flagHold := false
  rports := []
  rnnTurn := []
  syncDepth := 0
  parentPort := 0
  parentStage := .fresh
  alignedOnce := true
  syncTick := none
  patterns := []
  parts := []
  pports := []
  irqs := []
  delivers := []
  aperture := []
  bridgeTx := 0
  bridgeAwait := []
  rateArm := none
  calDue := 0
  thermal := .reset
  dies := []
  efx := []
  efxStaged := none
  efxArmed := none
  efxLast := none
  censusDue := 2500000000
  censusOpen := none
  resets := []
  recovering := none
  romUp := false
  fwStaged := none
  fwRestarting := none
  fwTries := 0
  nor := .fresh
  norKept := none
  norBusy := []
  errPend := []
  errLog := []
  windows := []
  leaked := 0
  colophonStopped := []
  handover := none
  erases := []
  jtag := ⟨0, [], []⟩
  mgmt := .reset 0
  spdm := []
  out := []

end Sys2Proof.Machine
end

