-- ==== Sys2Proof/Machine/Regs.lean ====
section
/-! DEFINITION. The control space: where every register lies, the access code and reset level of each field (R11, R12),
and the one way registers are read, written and cleared. -/

namespace Sys2Proof.Machine

/-! ## Fields of a word -/

/-- `w` bits of `v` from bit `lo`. -/
def getF (v : Word) (lo w : Nat) : Nat := bits v.toNat lo w

/-- A word of `w` ones from bit `lo`. -/
def maskF (lo w : Nat) : Word := BitVec.ofNat 64 ((2 ^ w - 1) * 2 ^ lo)

/-- `v` with the field replaced by `x` modulo 2^w. -/
def putF (v : Word) (lo w x : Nat) : Word := (v &&& ~~~(maskF lo w)) ||| BitVec.ofNat 64 (x % 2 ^ w * 2 ^ lo)

/-- A field of a wide word (a handle entry, a descriptor, a packet header). -/
def getW (v : Wide) (lo w : Nat) : Nat := bits v.toNat lo w

/-- A wide word with a field replaced. -/
def putW (v : Wide) (lo w x : Nat) : Wide :=
  (v &&& ~~~(BitVec.ofNat 256 ((2 ^ w - 1) * 2 ^ lo))) ||| BitVec.ofNat 256 (x % 2 ^ w * 2 ^ lo)

/-- A wide word from (lowest bit, width, value) fields. -/
def mkW (fs : List (Nat × Nat × Nat)) : Wide := fs.foldl (fun v f => putW v f.1 f.2.1 f.2.2) 0

/-! ## Access codes and reset levels -/

/-- Access codes (R11). No field of the control space is RWL. -/
inductive Access where
  | ro | rw | w1c | w1s | wo
deriving DecidableEq, Repr

/-- Reset levels, narrowest first (R12). -/
inductive Level where
  | core | galley | partition | package | powerOn | never
deriving DecidableEq, Repr

def Level.rank : Level → Nat
  | .core => 0 | .galley => 1 | .partition => 2 | .package => 3 | .powerOn => 4 | .never => 5

/-- A field: lowest bit, width, access code, the narrowest reset that clears it. -/
structure Fld where
  lo : Nat
  w : Nat
  acc : Access
  lvl : Level
deriving DecidableEq, Repr

/-- `n` registers at `off`, `off + stride`, … -/
structure RegRow where
  off : Nat
  n : Nat
  stride : Nat
  flds : List Fld
deriving DecidableEq, Repr

/-! ## Addresses -/

def aPartId : Nat := 0x000
def aTick : Nat := 0x100
def aRate : Nat := 0x110
def aRateNext : Nat := 0x118
def aEfxCtrl : Nat := 0x200
def aEfxSrc : Nat := 0x208
def aEfxTick : Nat := 0x210
def aEfxErr : Nat := 0x218
def aImpSeq : Nat := 0x220
def aImpDigest (n : Nat) : Nat := 0x228 + 8 * n
def aImpCensus : Nat := 0x248
def aImpDisagree : Nat := 0x250
def aImpMissing : Nat := 0x258
def aPkgReset : Nat := 0x300
def aBoot : Nat := 0x308
def aErrSeq : Nat := 0x400
/-- The journal registers of partition p (R325): CTRL 0x00, BASE, HEAD, TAIL, RBASE, RCOUNT, RPOS from 0x08. -/
def aJnl (p k : Nat) : Nat := 0x2000 + 0x40 * p + k
/-- The context registers of partition p (R356). -/
def aCtx (p k : Nat) : Nat := 0x3000 + 0x40 * p + k
def aCtxSlotmap (p w : Nat) : Nat := 0x4000 + 0x200 * p + 8 * w
def aPartReset (p : Nat) : Nat := 0xC000 + 8 * p
/-- The host error ring p, 64 the package ring (R455): CTL 0x00, BASE, HEAD, TAIL, LOST from 0x08. -/
def aErrRing (p k : Nat) : Nat := 0xD000 + 0x40 * p + k
def aCtxMode (p : Nat) : Nat := 0xE800 + 8 * p
def aErrLog : Nat := 0x10000
/-- The registers of global ring r (R411): SQ, CQ, CFG, DLV, IDX, STAT from 0x00 in steps of 8. -/
def aRing (r k : Nat) : Nat := 0x100000 + 64 * r + k

def quoinBase (q : Nat) : Nat := 0x400000 + q * 0x100000
/-- Quoin and local index of Ronnen port p (R276). -/
def rnnQuoin (p : Nat) : Nat × Nat :=
  if p < 2 then (0, p) else if p < 6 then (1, p - 2) else if p < 8 then (2, p - 6) else (3, p - 8)
/-- A register of Ronnen port p (R302). -/
def aRnn (p k : Nat) : Nat := quoinBase (rnnQuoin p).1 + 0x10000 + (rnnQuoin p).2 * 0x1000 + k
def aFw (k : Nat) : Nat := quoinBase 0 + 0x20000 + k
/-- The colophon registers, kept under Q0's window whichever quoin shows them (R476). -/
def aMgt (k : Nat) : Nat := quoinBase 0 + 0x30000 + k
/-- The quoin of PCIe port b: Q0 and Q2 (R411). -/
def portQuoin (b : Nat) : Nat := if b = 0 then 0 else 2
def aPort (b k : Nat) : Nat := quoinBase (portQuoin b) + 0x40000 + k
/-- Registers of function f of port b (R411): `HOST_FN` 0x000, windows from 0x100. -/
def aFn (b f k : Nat) : Nat := quoinBase (portQuoin b) + 0x41000 + f * 0x200 + k
def folioBase (d : Nat) : Nat := 0x1000000 + d * 0x100000
def aHub (d k : Nat) : Nat := folioBase d + k
def aGly (d g k : Nat) : Nat := folioBase d + 0x10000 + g * 0x1000 + k
def aCoreAt (die flat k : Nat) : Nat := folioBase die + 0x20000 + flat * 0x2000 + k
/-- BAR2 of function f of port b, kept above the control space (R386; DESIGN CHOICE, log 16). -/
def aBar2 (b f k : Nat) : Nat := 0x80000000 + b * 0x400000 + f * 0x10000 + k

/-! ## The register tables -/

def whole (a : Access) (l : Level) : List Fld := [⟨0, 64, a, l⟩]
def fs (a : Access) (l : Level) (xs : List (Nat × Nat)) : List Fld := xs.map fun x => ⟨x.1, x.2, a, l⟩

/-- Package block (R7, R315, R325, R356, R377, R411, R427, R455, R514). -/
def pkgRows : List RegRow :=
  [ ⟨0x000, 1, 8, fs .ro .never [(0, 32)]⟩, ⟨0x100, 1, 8, whole .ro .powerOn⟩, ⟨0x110, 1, 8, fs .ro .powerOn [(0, 6)]⟩,
    ⟨0x118, 1, 8, fs .rw .powerOn [(0, 6), (6, 1), (24, 40)] ++ fs .ro .powerOn [(16, 8)]⟩,
    ⟨0x200, 1, 8, fs .wo .powerOn [(0, 3)] ++ fs .rw .powerOn [(8, 8)] ++ fs .ro .powerOn [(16, 8), (24, 4)]⟩,
    ⟨0x208, 2, 8, whole .rw .powerOn⟩, ⟨0x218, 1, 8, fs .ro .powerOn [(0, 56)]⟩, ⟨0x220, 5, 8, whole .ro .powerOn⟩,
    ⟨0x248, 1, 8, fs .ro .powerOn [(0, 56)]⟩, ⟨0x250, 2, 8, whole .ro .powerOn⟩, ⟨0x300, 1, 8, whole .wo .never⟩,
    ⟨0x308, 1, 8, fs .ro .powerOn [(0, 4), (16, 48)]⟩, ⟨0x400, 1, 8, fs .ro .powerOn [(0, 32)]⟩ ]
  ++
  [ ⟨0x2000, 64, 0x40, fs .rw .partition [(0, 2), (8, 8), (16, 5)] ++ fs .w1c .partition [(2, 2)] ++ fs .ro .partition [(4, 1)]⟩,
    ⟨0x2008, 64, 0x40, whole .rw .partition⟩, ⟨0x2010, 64, 0x40, whole .ro .partition⟩,
    ⟨0x2018, 64, 0x40, whole .rw .partition⟩, ⟨0x2020, 64, 0x40, whole .rw .partition⟩,
    ⟨0x2028, 64, 0x40, whole .rw .partition⟩, ⟨0x2030, 64, 0x40, whole .ro .partition⟩,
    ⟨0x3000, 64, 0x40, fs .wo .partition [(0, 3)] ++ fs .rw .partition [(3, 1), (8, 8)] ++ fs .ro .partition [(16, 8)]⟩,
    ⟨0x3008, 64, 0x40, fs .ro .partition [(0, 5), (8, 16), (32, 32)]⟩, ⟨0x3010, 64, 0x40, whole .rw .partition⟩,
    ⟨0x3018, 64, 0x40, whole .rw .partition⟩, ⟨0x3020, 64, 0x40, whole .rw .partition⟩,
    ⟨0x3028, 64, 0x40, whole .rw .partition⟩,
    ⟨0x3030, 64, 0x40, fs .rw .partition [(0, 32)] ++ fs .ro .partition [(32, 32)]⟩,
    ⟨0x3038, 64, 0x40, fs .rw .partition [(0, 32)]⟩, ⟨0x4000, 4096, 8, whole .rw .partition⟩,
    ⟨0xC000, 64, 8, fs .w1s .partition [(0, 1)]⟩,
    ⟨0xD000, 65, 0x40, fs .rw .partition [(0, 7), (8, 13)]⟩, ⟨0xD008, 65, 0x40, whole .rw .partition⟩,
    ⟨0xD010, 65, 0x40, whole .ro .partition⟩, ⟨0xD018, 65, 0x40, whole .rw .partition⟩,
    ⟨0xD020, 65, 0x40, whole .ro .partition⟩,
    ⟨0xE800, 64, 8, fs .rw .partition [(0, 1)] ++ fs .ro .partition [(1, 1)]⟩,
    ⟨0x10000, 32768, 8, whole .ro .powerOn⟩ ]
  ++
  [ ⟨0x100000, 16384, 64, fs .rw .partition [(0, 4), (6, 58)]⟩, ⟨0x100008, 16384, 64, fs .rw .partition [(0, 4), (6, 58)]⟩,
    ⟨0x100010, 16384, 64, fs .rw .partition [(0, 12), (16, 48)]⟩,
    ⟨0x100018, 16384, 64, fs .rw .partition [(0, 29), (32, 4), (40, 8)]⟩, ⟨0x100020, 16384, 64, whole .ro .partition⟩,
    ⟨0x100028, 16384, 64, fs .ro .partition [(0, 1), (8, 8), (32, 32)] ++ fs .w1c .partition [(1, 1)]⟩ ]

/-- A quoin's window (R302, R431, R476, R411, R478). -/
def quoinRows : List RegRow :=
  [ ⟨0x10000, 4, 0x1000, fs .rw .powerOn [(0, 1), (2, 4)] ++ fs .w1s .powerOn [(1, 1)]⟩,
    ⟨0x10008, 4, 0x1000, fs .ro .powerOn [(0, 7), (8, 17)] ++ fs .ro .never [(7, 1)]⟩,
    ⟨0x10010, 4, 0x1000, whole .ro .powerOn⟩, ⟨0x10018, 4, 0x1000, whole .ro .powerOn⟩,
    ⟨0x10020, 4, 0x1000, whole .ro .powerOn⟩, ⟨0x10028, 4, 0x1000, fs .ro .powerOn [(0, 32)]⟩,
    ⟨0x10030, 4, 0x1000, fs .rw .powerOn [(4, 1)] ++ fs .ro .powerOn [(8, 56)]⟩,
    ⟨0x10040, 9, 8, whole .ro .powerOn⟩, ⟨0x11040, 9, 8, whole .ro .powerOn⟩, ⟨0x12040, 9, 8, whole .ro .powerOn⟩,
    ⟨0x13040, 9, 8, whole .ro .powerOn⟩,
    ⟨0x20000, 1, 8, fs .wo .powerOn [(0, 3)] ++ fs .rw .powerOn [(8, 16)] ++ fs .ro .powerOn [(24, 11)]⟩,
    ⟨0x20008, 1, 8, whole .rw .powerOn⟩, ⟨0x20010, 2, 8, whole .ro .powerOn⟩ ]
  ++
  [ ⟨0x30000, 1, 8, fs .ro .powerOn [(0, 4), (5, 3)] ++ fs .ro .package [(4, 1)]⟩,
    ⟨0x30008, 1, 8, fs .w1s .powerOn [(0, 1)] ++ fs .w1s .package [(1, 1)]⟩,
    ⟨0x30010, 1, 8, fs .rw .powerOn [(0, 7)] ++ fs .ro .powerOn [(8, 7), (16, 7), (24, 8)]⟩,
    ⟨0x30018, 1, 8, whole .ro .powerOn⟩,
    ⟨0x30020, 1, 8, fs .rw .powerOn [(0, 6), (24, 40)] ++ fs .ro .powerOn [(6, 1), (8, 8)]⟩,
    ⟨0x30028, 1, 8, fs .ro .powerOn [(0, 6), (8, 6)]⟩, ⟨0x30030, 1, 8, whole .rw .powerOn⟩,
    ⟨0x30040, 4, 8, whole .ro .never⟩, ⟨0x30100, 68, 8, fs .ro .powerOn [(0, 28)]⟩, ⟨0x30400, 68, 8, whole .ro .never⟩,
    ⟨0x30800, 68, 8, whole .ro .never⟩, ⟨0x31000, 256, 8, whole .ro .never⟩,
    ⟨0x40000, 1, 8, fs .ro .powerOn [(0, 11)]⟩, ⟨0x40008, 1, 8, fs .rw .powerOn [(0, 1)] ++ fs .w1s .powerOn [(1, 1)]⟩,
    ⟨0x40010, 1, 8, fs .ro .package [(0, 19), (32, 32)]⟩,
    ⟨0x40018, 1, 8, fs .rw .powerOn [(0, 5)] ++ fs .ro .powerOn [(8, 56)]⟩,
    ⟨0x41000, 64, 0x200, fs .ro .package [(0, 7), (8, 1)] ++ fs .rw .partition [(7, 1)]⟩ ]

/-- A window entry of a function's block: offset 0x100 + 16w and 0x108 + 16w of a block of 0x200 (R411). -/
def winFlds (o : Nat) : List Fld :=
  if o % 16 = 0 then fs .rw .partition [(12, 52)] else fs .rw .partition [(0, 2), (12, 52)]

/-- The die hub window (R315, R418, R478, R483, R487). -/
def hubRows : List RegRow :=
  [ ⟨0x400, 1, 8, fs .ro .powerOn [(0, 15)]⟩, ⟨0x408, 1, 8, fs .ro .powerOn [(0, 48)]⟩, ⟨0x410, 2, 8, whole .ro .powerOn⟩,
    ⟨0x500, 1, 8, whole .ro .powerOn⟩, ⟨0x508, 1, 8, fs .ro .powerOn [(0, 28), (29, 1)] ++ fs .ro .never [(28, 1)]⟩,
    ⟨0x510, 2, 8, whole .ro .never⟩,
    ⟨0x520, 1, 8, fs .ro .never [(0, 16), (32, 8)] ++ fs .ro .powerOn [(16, 16), (40, 13)]⟩,
    ⟨0x600, 4, 8, fs .rw .powerOn [(0, 5)] ++ fs .ro .powerOn [(8, 56)]⟩,
    ⟨0x800, 1, 8, fs .rw .package [(0, 7), (32, 32)] ++ fs .ro .package [(8, 24)]⟩, ⟨0x808, 1, 8, whole .rw .package⟩,
    ⟨0x810, 1, 8, fs .rw .package [(0, 8)]⟩ ]

/-- A galley's window (R427, R485). -/
def glyRows : List RegRow :=
  [ ⟨0x000, 1, 8, fs .w1s .galley [(0, 19)]⟩,
    ⟨0x008, 1, 8, fs .w1s .partition [(0, 1)] ++ fs .ro .partition [(1, 1), (8, 34)]⟩ ]

/-- A core's window (R48, R88, R117, R149, R180, R190, R191, R243, R275). -/
def coreRows : List RegRow :=
  [ ⟨0x180, 1, 8, fs .w1c .core [(0, 18)]⟩,
    ⟨0x200, 1, 8, fs .rw .core [(0, 8)] ++ fs .wo .core [(8, 2)] ++ fs .ro .core [(10, 1), (16, 8)]⟩,
    ⟨0x208, 4, 8, whole .rw .core⟩, ⟨0x240, 2, 8, whole .ro .core⟩, ⟨0x280, 4, 8, whole .ro .core⟩,
    ⟨0x2C0, 1, 8, whole .rw .core⟩, ⟨0x2C8, 1, 8, fs .ro .core [(0, 14), (16, 14), (32, 14), (48, 14)]⟩,
    ⟨0x2D0, 2, 8, whole .ro .core⟩,
    ⟨0x400, 1, 8, fs .w1s .core [(0, 2)]⟩,
    ⟨0x408, 1, 8, fs .ro .core [(0, 1), (8, 35)] ++ fs .w1c .core [(1, 1)]⟩, ⟨0x410, 1, 8, fs .rw .core [(0, 22)]⟩,
    ⟨0x418, 1, 8, fs .rw .core [(0, 23), (32, 23)]⟩, ⟨0x420, 1, 8, whole .rw .core⟩, ⟨0x428, 5, 8, whole .ro .core⟩,
    ⟨0x600, 32, 8, whole .rw .core⟩, ⟨0x800, 64, 8, whole .rw .partition⟩, ⟨0xA00, 64, 8, fs .rw .core [(0, 20)]⟩,
    ⟨0xC00, 16, 8, fs .ro .core [(0, 48), (49, 1), (56, 8)] ++ fs .w1c .core [(48, 1)]⟩,
    ⟨0xD00, 1, 8, fs .ro .core [(0, 26)]⟩, ⟨0xD08, 1, 8, whole .ro .core⟩, ⟨0xD40, 16, 8, fs .ro .core [(0, 18), (32, 32)]⟩,
    ⟨0xE00, 8, 8, fs .ro .core [(0, 15), (16, 28)]⟩, ⟨0xE40, 1, 8, fs .ro .core [(0, 13)]⟩, ⟨0xE48, 1, 8, whole .ro .core⟩,
    ⟨0xE50, 1, 8, fs .ro .core [(0, 12), (16, 23)]⟩, ⟨0xE58, 1, 8, fs .ro .core [(0, 48)]⟩ ]

/-- BAR2 (R386, R411); the MSI-X table and its pending bits are PCI Express's (log 112). -/
def bar2Rows : List RegRow :=
  [ ⟨0x1000, 1, 8, whole .rw .partition⟩, ⟨0x1008, 1, 8, whole .wo .partition⟩,
    ⟨0x1010, 1, 8, fs .w1c .partition [(0, 1)] ++ fs .ro .partition [(8, 8), (32, 32)]⟩,
    ⟨0x2000, 1, 8, fs .rw .partition [(0, 49)]⟩, ⟨0x2008, 1, 8, whole .rw .partition⟩,
    ⟨0x2010, 1, 8, fs .w1c .partition [(0, 1)] ++ fs .ro .partition [(8, 24)]⟩,
    ⟨0x4000, 32, 16, fs .rw .package [(2, 62)]⟩, ⟨0x4008, 32, 16, fs .rw .package [(0, 33)]⟩,
    ⟨0x5000, 1, 8, fs .ro .package [(0, 32)]⟩ ]

/-- The fields of the register at offset `o` of a block; none where the block has no register there. -/
def rowFlds (rows : List RegRow) (o : Nat) : List Fld :=
  match rows with
  | [] => []
  | r :: rs =>
    if r.off ≤ o ∧ (o - r.off) % r.stride = 0 ∧ (o - r.off) / r.stride < r.n then r.flds else rowFlds rs o

/-- The fields of the 8-byte register at control-space offset `a`; none where nothing lies. -/
def regFlds (a : Nat) : List Fld :=
  if a < 0x400000 then rowFlds pkgRows a
  else if a < 0x800000 then
    let o := a % 0x100000
    let q := a / 0x100000 - 4
    if (0x12000 ≤ o ∧ o < 0x14000 ∧ q % 2 = 0) ∨ (0x20000 ≤ o ∧ o < 0x40000 ∧ q ≠ 0) ∨ (0x40000 ≤ o ∧ q % 2 = 1) then []
    else if 0x41000 ≤ o ∧ o < 0x49000 ∧ 0x100 ≤ o % 0x200 then winFlds o else rowFlds quoinRows o
  else if a < 0x1000000 then []
  else if a < 0x5000000 then
    let o := a % 0x100000
    if o < 0x10000 then rowFlds hubRows o
    else if o < 0x14000 then rowFlds glyRows (o % 0x1000)
    else if o < 0x20000 then []
    else if o < 0xB0000 then rowFlds coreRows (o % 0x2000)
    else []
  else if 0x80000000 ≤ a ∧ a < 0x80800000 then rowFlds bar2Rows (a % 0x10000)
  else []

/-- The bits of the fields with access code `a`. -/
def accMask (a : Access) (l : List Fld) : Word :=
  l.foldl (fun m f => if f.acc = a then m ||| maskF f.lo f.w else m) 0

/-- The bits that a reset of level `l` clears (R12). -/
def levelMask (l : Level) (fl : List Fld) : Word :=
  fl.foldl (fun m f => if f.lvl.rank ≤ l.rank then m ||| maskF f.lo f.w else m) 0

/-- What a write of `v` under byte lanes `m` leaves in a register that held `old` (R11). -/
def writeFlds (fl : List Fld) (old v m : Word) : Word :=
  let rw := accMask .rw fl &&& m
  let c := accMask .w1c fl &&& m &&& v
  let st := accMask .w1s fl &&& m &&& v
  (((old &&& ~~~rw) ||| (v &&& rw)) &&& ~~~c) ||| st

/-! ## Reading and writing -/

/-- The stored word at `a`. -/
def State.rd (s : State) (a : Nat) : Word := Tbl.get 0 s.ctl a

/-- The stored word at `a` replaced. -/
def State.wr (s : State) (a : Nat) (v : Word) : State := { s with ctl := Tbl.set 0 s.ctl a v }

/-- A field of the stored word at `a`. -/
def State.fld (s : State) (a lo w : Nat) : Nat := getF (s.rd a) lo w

/-- A field of the stored word at `a` replaced. -/
def State.setFld (s : State) (a lo w x : Nat) : State := s.wr a (putF (s.rd a) lo w x)

/-- A counter field raised by n; it wraps at its width. -/
def State.addFld (s : State) (a lo w n : Nat) : State := s.setFld a lo w (s.fld a lo w + n)

/-- A counter field raised by n that stops at all ones. -/
def State.satFld (s : State) (a lo w n : Nat) : State := s.setFld a lo w (min (2 ^ w - 1) (s.fld a lo w + n))

/-- The registers at the offsets that `p` accepts, cleared by a reset of level `l` (R12). -/
def clearRegs (l : Level) (p : Nat → Bool) (t : Tbl Word) : Tbl Word :=
  (t.map fun e => if p e.1 then (e.1, e.2 &&& ~~~(levelMask l (regFlds e.1))) else e).filter fun e => e.2 ≠ 0

end Sys2Proof.Machine
end

