-- ==== Sys2Proof/Machine/Image.lean ====
section
/-! DEFINITION. The Efxis image as data (14): records, the effective value of each record, what the effective values name.
The checks and the application are in Machine/Efxis.lean. -/

namespace Sys2Proof.Machine

/-- `n` bytes of `bs` from `o`, as a number (R8). -/
def leAt (bs : List Byte) (o n : Nat) : Nat := leNat ((bs.drop o).take n)

/-! ## Record types (R359) -/

def tGROUP : Nat := 0x0001
def tPORTS : Nat := 0x0002
def tPARTITION : Nat := 0x0010
def tHANDLES : Nat := 0x0011
def tPOOLS : Nat := 0x0012
def tCIRCUITS : Nat := 0x0013
def tKEY : Nat := 0x0020
def tSENSORS : Nat := 0x0030
def tFAULTWIN : Nat := 0x0031

/-- The full body of a fixed type (R359). -/
def efxFull (t : Nat) : Option Nat :=
  if t = tGROUP then some 16 else if t = tPORTS then some 8 else if t = tPARTITION then some 64
  else if t = tKEY then some 72 else if t = tSENSORS then some 16 else if t = tFAULTWIN then some 64 else none

/-- The bytes of one entry of a list type (R363). -/
def efxEntry (t : Nat) : Option Nat :=
  if t = tHANDLES then some 40 else if t = tPOOLS then some 8 else if t = tCIRCUITS then some 16 else none

/-- The factory body of a fixed record (R362); `fusedDies` shapes the factory GALLEYS. -/
def factoryBody (fusedDies : List Nat) (t idx : Nat) : List Byte :=
  if t = tGROUP then [1, 1, 1, 0, 0, 0, 0, 0] ++ leBytes 8 2500000000
  else if t = tPORTS then leBytes 8 (2 + 0 * 8 + 4 * 64 + 3 * 512 + 1 * 4096 + 5 * 32768 + 0xFFF * 2 ^ 18)
  else if t = tPARTITION then
    (List.range 32).map (fun j => BitVec.ofNat 8 (if idx ≠ 0 then 0 else
      (if 2 * j ∈ fusedDies then 0 else 0x0F) + (if 2 * j + 1 ∈ fusedDies then 0 else 0xF0))) ++
    [if idx = 0 then 0x80 else 0, 0, 3, 0, 0, 0, 0, 0] ++ leBytes 8 1000000000 ++ List.replicate 16 0
  else if t = tSENSORS then [95, 100, 110, 0] ++ leBytes 2 11400 ++ leBytes 2 12600 ++ [120, 0, 0, 0, 0, 0, 0, 0]
  else if t = tFAULTWIN then (List.replicate 8 (leBytes 2 8 ++ leBytes 4 86400 ++ [0, 0])).flatten
  else if t = tKEY then List.replicate 72 0
  else []

/-- The fields that lie wholly within a record: GALLEYS and PUBKEY are absent where it ends inside them (R360; DEDUCED,
log 28). -/
def wholeFields (t : Nat) (body : List Byte) : List Byte :=
  if t = tPARTITION ∧ body.length < 32 then [] else if t = tKEY ∧ body.length < 72 then body.take 8 else body

/-- Fields present come first; the rest is taken from the record below (R360). -/
def overlay (t : Nat) (body below : List Byte) : List Byte :=
  wholeFields t body ++ below.drop (wholeFields t body).length

def efxFind (recs : List EfxRec) (t pkg idx : Nat) : Option EfxRec :=
  recs.find? fun r => r.typ = t ∧ r.pkg = pkg ∧ r.index = idx

/-- The body of a fixed record in effect at position `pos` (R360). -/
def efxFixed (recs : List EfxRec) (fusedDies : List Nat) (pos t idx : Nat) : List Byte :=
  let base := match efxFind recs t 0xFF idx with
    | some r => overlay t r.body (factoryBody fusedDies t idx)
    | none => factoryBody fusedDies t idx
  match efxFind recs t pos idx with
  | some r => overlay t r.body base
  | none => base

/-- The body of a list record in effect at `pos` (R360). -/
def efxList (recs : List EfxRec) (pos t idx : Nat) : List Byte :=
  match efxFind recs t pos idx with
  | some r => r.body
  | none => match efxFind recs t 0xFF idx with
    | some r => r.body
    | none => []

/-- The key of a slot, where a record gives one: ALG and the 64 bytes of the public key (R362). -/
def efxKey (recs : List EfxRec) (pos slot : Nat) : Option (List Byte) :=
  if (efxFind recs tKEY pos slot).isSome ∨ (efxFind recs tKEY 0xFF slot).isSome then
    let b := efxFixed recs [] pos tKEY slot
    if leAt b 0 1 = 1 then some (b.drop 8) else none
  else none

/-- `bs` cut into entries of `n` bytes. -/
def chunks (n : Nat) (bs : List Byte) : List (List Byte) :=
  (List.range (bs.length / n)).map fun i => (bs.drop (i * n)).take n

/-! ## What the records in force say -/

def State.efxBody (s : State) (t idx : Nat) : List Byte := efxFixed s.efx s.fuses.fusedDies s.position t idx

/-- The effective PARTITION record of p. -/
def State.partRec (s : State) (p : Nat) : List Byte := s.efxBody tPARTITION p

/-- GALLEYS bit 4d + g of a PARTITION body (R362). -/
def recGalley (body : List Byte) (d g : Nat) : Bool := bits (leAt body 0 32) (4 * d + g) 1 = 1

/-- Galley g of folio d belongs to partition p. -/
def State.hasGalley (s : State) (p d g : Nat) : Bool := recGalley (s.partRec p) d g

/-- The partition that owns galley g of folio d, 0xFF none (R362, R444). -/
def State.partOf (s : State) (d g : Nat) : Nat := ((List.range 64).find? fun p => s.hasGalley p d g).getD 0xFF

/-- FUNC of partition p when VALID: port and function (R362, R381). -/
def State.partFunc (s : State) (p : Nat) : Option (Nat × Nat) :=
  let f := leAt (s.partRec p) 32 1
  if bits f 7 1 = 1 then some (bits f 6 1, bits f 0 6) else none

def State.partKeymask (s : State) (p : Nat) : Nat := leAt (s.partRec p) 33 1
def State.partRetry (s : State) (p : Nat) : Nat := leAt (s.partRec p) 34 1
def State.partLoadTimeout (s : State) (p : Nat) : Nat := leAt (s.partRec p) 40 8
def State.partReplica (s : State) (p : Nat) : Nat := leAt (s.partRec p) 48 8

/-- The torus shape in force (R249, R362). -/
def State.shape (s : State) : Nat × Nat × Nat :=
  let g := s.efxBody tGROUP 0
  (leAt g 0 1, leAt g 1 1, leAt g 2 1)

def State.timingRoot (s : State) : Nat := leAt (s.efxBody tGROUP 0) 3 1
def State.censusPeriod (s : State) : Nat := leAt (s.efxBody tGROUP 0) 8 8

/-- Role code of pair k in a PORTS body. -/
def recRole (body : List Byte) (k : Nat) : Nat := bits (leAt body 0 8) (3 * k) 3

/-- The size of the dimension that a role code lies in. -/
def roleSize (shape : Nat × Nat × Nat) (role : Nat) : Nat :=
  if role < 2 then shape.1 else if role < 4 then shape.2.1 else if role < 6 then shape.2.2 else 1

/-- The role of pair k: unused where its direction lies in a dimension of size 1 (R366). -/
def State.pairRole (s : State) (k : Nat) : Nat :=
  let r := recRole (s.efxBody tPORTS 0) k
  if roleSize s.shape r ≤ 1 then 6 else r

/-- Ports fused off on the MXJ-64L (R5, R277). -/
def State.portFused (s : State) (p : Nat) : Bool := s.fuses.part = 0x03 && p ∈ [1, 5, 7, 11]

/-- COUNT and WINDOW of a fault-window kind (R362). -/
def State.faultWin (s : State) (kind : Nat) : Nat × Nat :=
  let b := s.efxBody tFAULTWIN 0
  (leAt b (8 * kind) 2, leAt b (8 * kind + 2) 4)

/-- TWARN, THOT, TTRIP in °C, VIN_LOW and VIN_HIGH in mV, CAP_INIT (R362). -/
def State.sensors (s : State) : Nat × Nat × Nat × Nat × Nat × Nat :=
  let b := s.efxBody tSENSORS 0
  (leAt b 0 1, leAt b 1 1, leAt b 2 1, leAt b 4 2, leAt b 6 2, leAt b 8 1)

/-! ## The canonical image (R373) -/

/-- The order of canonical records. -/
def efxBefore (a b : EfxRec) : Bool :=
  a.typ < b.typ || (a.typ = b.typ && (a.index < b.index || (a.index = b.index && a.pkg < b.pkg)))

def efxInsert (r : EfxRec) : List EfxRec → List EfxRec
  | [] => [r]
  | x :: xs => if efxBefore r x then r :: x :: xs else x :: efxInsert r xs

/-- Every record at full length, sorted. The factory values are those of every part number (R361; DEDUCED, log 28). -/
def canonical (recs : List EfxRec) : List EfxRec :=
  let fill := fun (r : EfxRec) =>
    let below := if r.pkg = 0xFF then factoryBody [] r.typ r.index else efxFixed recs [] 0xFF r.typ r.index
    if (efxFull r.typ).isSome then { r with body := overlay r.typ r.body below } else r
  (recs.map fill).foldr efxInsert []

/-- A record as bytes (R358). -/
def efxBytes (r : EfxRec) : List Byte :=
  leBytes 8 (r.typ + r.body.length * 2 ^ 16 + r.pkg * 2 ^ 40 + r.index * 2 ^ 48) ++ r.body

/-- An image as bytes (R357). -/
def imageBytes (seq : Nat) (recs : List EfxRec) : List Byte :=
  let body := (recs.map efxBytes).flatten
  leBytes 4 0x4A584546 ++ leBytes 2 1 ++ [0, 0] ++ leBytes 4 (64 + body.length) ++ leBytes 4 seq ++
    leBytes 4 recs.length ++ List.replicate 44 0 ++ body

/-- The imprint digest (R373). -/
def imprintDigest (recs : List EfxRec) : List Byte := digest32 (imageBytes 0 (canonical recs))

end Sys2Proof.Machine
end

