-- ==== Sys2Proof/Machine/Ops.lean ====
section
/-! DEFINITION. The operations every meaning is written with: cores, memories and poison, flags and credit pools, error
records, halting a compositor, stopping a part, the trace. -/

namespace Sys2Proof.Machine

/-- What every meaning answers. -/
abbrev Answer := Host.Outcome State Fault Refusal

/-! ## Cores -/

/-- The key of a core: die × 72 + flat. -/
def kOf (c : CoreId) : Nat := c.die.val * 72 + c.flat.val

/-- The 20-bit name of a core (R191). -/
def addr20 (pkg die flat : Nat) : BitVec 20 := BitVec.ofNat 20 (flat + die * 2 ^ 7 + pkg * 2 ^ 14)

/-- CORE, DIE and PACKAGE of a 20-bit name. -/
def a20Core (a : BitVec 20) : Nat := bits a.toNat 0 7
def a20Die (a : BitVec 20) : Nat := bits a.toNat 7 7
def a20Pkg (a : BitVec 20) : Nat := bits a.toNat 14 6

def State.core (s : State) (k : Nat) : Core := Tbl.get Core.reset s.cores k
def State.setCore (s : State) (k : Nat) (c : Core) : State := { s with cores := Tbl.set Core.reset s.cores k c }
def State.modCore (s : State) (k : Nat) (f : Core → Core) : State := s.setCore k (f (s.core k))

/-- Die and flat index of a key. -/
def keyDie (k : Nat) : Nat := k / 72
def keyFlat (k : Nat) : Nat := k % 72

/-- The name of a core of this package. -/
def State.nameOf (s : State) (k : Nat) : BitVec 20 := addr20 s.position (keyDie k) (keyFlat k)

/-- A register of the core with key `k`. -/
def aCoreK (k o : Nat) : Nat := aCoreAt (keyDie k) (keyFlat k) o

/-- The partition that owns the core with key `k`. -/
def State.partOfKey (s : State) (k : Nat) : Nat := s.partOf (keyDie k) (keyFlat k / 18)

/-- The die's galleys are fused off (R3). -/
def State.dieFused (s : State) (d : Nat) : Bool := d ∈ s.fuses.fusedDies

/-- The die is fenced (R448; `FD_FLOOR_USE1.DIE_FENCED`). -/
def State.dieFenced (s : State) (d : Nat) : Bool := s.fld (aHub d 0x508) 29 1 = 1

/-- A core is usable (R417). -/
def State.usable (s : State) (k : Nat) : Bool :=
  k < 4608 && !s.dieFused (keyDie k) && k ∉ s.fuses.fusedCores && k ∉ s.fenced && !s.dieFenced (keyDie k)

/-! ## Memories (R56, R57, R81, R87, R247) -/

/-- A fabric address without its PACKAGE field. -/
def fabAddr (die gal core space off : Nat) : Nat := die * 2 ^ 35 + gal * 2 ^ 33 + core * 2 ^ 28 + space * 2 ^ 26 + off

/-- The address of byte `off` of a space of the core with key `k`. -/
def coreAddr (k space off : Nat) : Nat := fabAddr (keyDie k) (keyFlat k / 18) (keyFlat k % 18) space off

/-- The address of byte `off` of a die's program store (R248). -/
def storeAddr (die off : Nat) : Nat := fabAddr die 0 31 0 off

def State.byte (s : State) (a : Nat) : Byte := Tbl.get 0 s.mem a
def State.setByte (s : State) (a : Nat) (b : Byte) : State := { s with mem := Tbl.set 0 s.mem a b }

def readMem (m : List Host.Cell) (a n : Nat) : List Byte := (List.range n).map fun i => Tbl.get 0 m (a + i)

/-- `bs` written from address `a` on. -/
def writeMem (m : List Host.Cell) : Nat → List Byte → List Host.Cell
  | _, [] => m
  | a, b :: bs => writeMem (Tbl.set 0 m a b) (a + 1) bs

/-- The bank unit of a space: weight row, activation row, partial-sum entry; 3 stands for a tile line (R56, R433). -/
def unitOf (space : Nat) : Nat := if space = 0 then 128 else if space = 2 then 8 else 64

/-- The size of a space (R56); weight memory ends at array 24 on the MXJ-64L (R67). -/
def State.spaceSize (s : State) (space : Nat) : Nat :=
  if space = 0 then (if s.fuses.part = 0x03 then 0x300000 else 0x400000)
  else if space = 1 then 0x100000 else if space = 2 then 0x40000 else 0

/-- A unit named as LOCATION names it (R444): the space in [1:0], the unit's offset above. -/
def locOf (space off : Nat) : Nat := space + off / unitOf space * unitOf space * 4

/-- The key of a unit's poison bit (DESIGN CHOICE, log 115: one bit): the core's key above LOCATION. -/
def poisonKey (k space off : Nat) : Nat := k * 2 ^ 30 + locOf space off

def State.poisoned (s : State) (k space off : Nat) : Bool := Tbl.get false s.poison (poisonKey k space off)
def State.setPoison (s : State) (k space off : Nat) (b : Bool) : State :=
  { s with poison := Tbl.set false s.poison (poisonKey k space off) b }

/-- The offsets of the units that bytes `off` to `off + n − 1` touch. -/
def unitsOf (space off n : Nat) : List Nat :=
  if n = 0 then []
  else (List.range ((off + n - 1) / unitOf space - off / unitOf space + 1)).map fun i =>
    (off / unitOf space + i) * unitOf space

/-- What a write of bytes `off` to `off + n − 1` does to the poison bit of unit `u` (R433). -/
def poisonWrite (k space off n : Nat) (psn : Bool) (s : State) (u : Nat) : State :=
  if psn then s.setPoison k space u true
  else if off ≤ u ∧ u + unitOf space ≤ off + n then s.setPoison k space u false else s

/-- A write into a core's weight, activation or partial-sum memory, with the writer's poison state. Weight rows written count
in `CORE_PLATEN_WRITE_BEATS` (R117); a write that reaches a weight row under restore stands against the restore (R437). -/
def State.coreWrite (s : State) (k space off : Nat) (bs : List Byte) (psn : Bool) : State :=
  let s := { s with mem := writeMem s.mem (coreAddr k space off) bs }
  let s := (unitsOf space off bs.length).foldl (poisonWrite k space off bs.length psn) s
  let s := if space = 0 then s.addFld (aCoreK k 0x290) 0 64 (unitsOf 0 off bs.length).length else s
  match (s.core k).restore with
  | some r =>
    let hit := r.rows.filter fun row => row ∈ (unitsOf 0 off bs.length).map (· / 128)
    if space = 0 ∧ hit ≠ [] then
      s.modCore k fun c => { c with restore := some { r with overwritten := r.overwritten ++ hit } }
    else s
  | none => s

/-- Bytes of a core's memory. -/
def State.coreRead (s : State) (k space off n : Nat) : List Byte := readMem s.mem (coreAddr k space off) n

/-- A little-endian number of a core's memory. -/
def State.coreNat (s : State) (k space off n : Nat) : Nat := leNat (s.coreRead k space off n)

/-- A unit in the range is poisoned, or is among the units named in `bad` (failing parity, R432). -/
def State.damaged (s : State) (k space off n : Nat) (bad : List Nat) : Bool :=
  (unitsOf space off n).any fun u => s.poisoned k space u || locOf space u ∈ bad

/-! ## Tiles (R118, R124) -/

def tileKey (k t i : Nat) : Nat := k * 65536 + t * 16384 + i
def State.tileNat (s : State) (k t off n : Nat) : Nat := leNat (readMem s.tiles (tileKey k t off) n)

/-- Bytes written into tile `t`, with the poison state of their lines. -/
def State.tileWrite (s : State) (k t off : Nat) (bs : List Byte) (psn : Bool) : State :=
  let s := { s with tiles := writeMem s.tiles (tileKey k t off) bs }
  (unitsOf 3 (t * 16384 + off) bs.length).foldl (poisonWrite k 3 (t * 16384 + off) bs.length psn) s

/-! ## Output, free values -/

def State.emit (s : State) (o : Out) : State := { s with out := s.out ++ [o] }

/-- A free value (log 11), and the counter advanced. -/
def State.draw (s : State) : Word × State := (Config.freeValue s.free, { s with free := s.free + 1 })

/-- Bytes of another standard's message (log 12). -/
def State.drawBytes (s : State) : List Byte × State := (Config.freeBytes s.free, { s with free := s.free + 1 })

/-! ## The trace (R486, R487) -/

def State.die (s : State) (d : Nat) : DieBeat := Tbl.get DieBeat.reset s.dies d
def State.modDie (s : State) (d : Nat) (f : DieBeat → DieBeat) : State :=
  { s with dies := Tbl.set DieBeat.reset s.dies d (f (s.die d)) }

/-- A record of event `ev` on the core with key `k`, where the die's trace is on and selects the event and the core: at
most 4 in a beat of the die (DESIGN CHOICE, log 116). -/
def State.traceEv (s : State) (k queue ev : Nat) (status : BitVec 16) (arg : Nat) : State :=
  let d := keyDie k
  let ctl := s.rd (aHub d 0x800)
  let flat := keyFlat k
  let sel := if flat < 64 then s.fld (aHub d 0x808) flat 1 else s.fld (aHub d 0x810) (flat - 64) 1
  if (s.die d).traceOn ∧ getF ctl (2 + ev) 1 = 1 ∧ sel = 1 then
    let head := getF ctl 8 12
    let full := (s.die d).trace.length ≥ 4096
    let beat := (s.rd (aHub d 0x418)).toNat
    let taken := if (s.die d).traceBeat = beat then (s.die d).traceTaken else 0
    if (full ∧ getF ctl 1 1 = 1) ∨ 4 ≤ taken then s.satFld (aHub d 0x800) 20 12 1
    else
      let r : TraceRec := ⟨beat % 2 ^ 32, flat, queue, ev, status, arg⟩
      let s := s.modDie d fun b => { b with
        trace := if full then b.trace.set head r else b.trace ++ [r]
        traceBeat := beat
        traceTaken := taken + 1 }
      s.setFld (aHub d 0x800) 8 12 ((head + 1) % 4096)
  else s

/-! ## Halting a compositor (R155, R163, R516) -/

/-- The compositor halts with `code` at its program counter; `keep`: the loop stack is kept. -/
def Core.halt (c : Core) (code : Nat) (keep : Bool) : Core :=
  { c with
    run := false
    armed := false
    haltCode := code
    haltAddr := c.pc
    haltDepth := c.loops.length
    loops := if keep then c.loops else []
    stall := .none }

/-- `CMP_CTRL.STOP` (R516): a running compositor halts with DONE and keeps its loop stack; one that is armed is disarmed
(DEDUCED, log 17). -/
def State.cmpStop (s : State) (k : Nat) : State :=
  s.modCore k fun c => if c.run then c.halt 0 true else { c with armed := false }

/-! ## Parts: STOP (R355) -/

def State.part (s : State) (p : Nat) : Part := Tbl.get Part.reset s.parts p
def State.modPart (s : State) (p : Nat) (f : Part → Part) : State :=
  { s with parts := Tbl.set Part.reset s.parts p (f (s.part p)) }

/-- `PKG_CTX_STATUS.STATE` and `EDLOAD` of partition p (R334). -/
def State.ctxState (s : State) (p : Nat) : Nat := s.fld (aCtx p 0x08) 0 3
def State.setCtxState (s : State) (p x : Nat) : State := s.setFld (aCtx p 0x08) 0 3 x
def State.edload (s : State) (p : Nat) : Nat := s.fld (aCtx p 0x08) 3 2
def State.setEdload (s : State) (p x : Nat) : State := s.setFld (aCtx p 0x08) 3 2 x

/-- The started cores of the part (R331). -/
def State.started (s : State) (p : Nat) : List Nat := match (s.part p).plate with | some pl => pl.started | none => []

/-- STOP (R355): every started core's compositor stops, accepted inputs not yet applied are discarded, the part drains. -/
def State.stopPart (s : State) (p : Nat) : State :=
  if s.ctxState p ∈ [2, 3, 4] then
    let s := (s.started p).foldl State.cmpStop s
    let s := s.modPart p fun x => { x with inputs := [], held := [], fencesLeft := [], stopTick := s.tick }
    let s := if s.edload p = 3 then s.setEdload p 2 else s
    s.setCtxState p 5
  else s

/-! ## Error records (R442 to R447) -/

/-- A record that names nothing yet. -/
def ErrRec.base : ErrRec :=
  ⟨0, 0, 0, 0, 127, 127, 31, 0xFF, 0xFF, 0, 0, 0, 0xFFFF, 0xFFFF, 0, 0, 0, false, 0⟩

/-- The counter of a resource of a fault-window kind. -/
def windowKey (kind res : Nat) : Nat := kind * 2 ^ 40 + res

/-- One event counted (R447): a full table of 65,536 counters drops the lowest. -/
def countEvent (t : Tbl Nat) (key : Nat) : Tbl Nat :=
  let t := if t.length ≥ 65536 ∧ Tbl.get 0 t key = 0 then
      let low := t.foldl (fun m e => min m e.2) (t.headD (0, 0)).2
      match t.find? fun e => e.2 = low with
      | some e => Tbl.set 0 t e.1 0
      | none => t
    else t
  Tbl.set 0 t key (Tbl.get 0 t key + 1)

/-- A record joins the first pending one of the same SOURCE, DIE, CORE and LOCATION within 250,000 ticks (R446), with the
count of its window. -/
def mergeRec (r : ErrRec) : List ErrRec → List ErrRec
  | [] => [r]
  | x :: xs =>
    if x.source = r.source ∧ x.die = r.die ∧ x.core = r.core ∧ x.location = r.location ∧ r.tick - x.tick ≤ 250000 then
      let y := if r.rkind = 0xFF then x else r
      { x with
        repeats := min 0xFFFF (x.repeats + 1), rkind := y.rkind, res := y.res, wcount := y.wcount, retire := x.retire || r.retire } :: xs
    else x :: mergeRec r xs

/-- `TIMING_EXACT` of partition p is cleared (R320). -/
def State.timingLost (s : State) (p : Nat) : State := if p < 64 then s.setFld (aJnl p 0) 4 1 0 else s

/-- An error, a resend or a replay has met the traffic between two endpoints: the partitions of those that are cores of this package
lose TIMING_EXACT (R320). -/
def State.pathInexact (s : State) (a b : BitVec 20) : State :=
  [a, b].foldl (fun s x =>
    if a20Pkg x = s.position ∧ a20Die x < 64 ∧ a20Core x < 72 then s.timingLost (s.partOfKey (a20Die x * 72 + a20Core x)) else s) s

/-- A record is raised: counted in its window, merged or pended, TIMING_EXACT of the partition it names cleared (R443; R320 for
a corrected error, which is a detected one), and the part stopped where the class is partition-fatal (R442). -/
def State.raise (s : State) (r : ErrRec) : State :=
  let s := if r.rkind = 0xFF then s else { s with windows := countEvent s.windows (windowKey r.rkind r.res) }
  let c := if r.rkind = 0xFF then 0 else Tbl.get 0 s.windows (windowKey r.rkind r.res)
  let r := { r with
    tick := s.tick
    caltime := (s.rd (aMgt 0x30)).toNat
    wcount := min 0xFFFF c
    retire := r.rkind ≠ 0xFF && (s.faultWin r.rkind).1 ≠ 0 && c = (s.faultWin r.rkind).1 }
  let s := { s with errPend := mergeRec r s.errPend }
  let s := s.timingLost r.part
  if r.cls = 3 ∧ r.part < 64 then s.stopPart r.part else s

/-- A status word (R13): one code and flags of bits [12:8]. -/
def statusWord (code flags : Nat) : BitVec 16 := BitVec.ofNat 16 (code % 256 + flags / 256 % 32 * 256)

/-- An open status word (log 11): some code of R14 and some flags of R16, never a reserved one (R13, R15). -/
def openStatus (v : Word) : BitVec 16 := statusWord (v.toNat % 17) (v.toNat / 2 ^ 8)

/-- A record of an event that the spec gives no code: its STATUS is open (log 11). -/
def State.raiseOpen (s : State) (r : ErrRec) : State :=
  let (v, s) := s.draw
  s.raise { r with status := openStatus v }

/-- A record that names the core with key `k`. -/
def State.coreRec (s : State) (k cls source : Nat) (status : BitVec 16) : ErrRec :=
  { ErrRec.base with
    cls := cls
    source := source
    status := status
    die := keyDie k
    core := keyFlat k
    part := s.partOfKey k }

/-- The compositor of core `k` faults (R155): it halts with the code, its loop stack is emptied, and a partition-fatal
record is raised (R443). -/
def State.cmpFault (s : State) (k code : Nat) : State :=
  (s.modCore k fun c => c.halt code false).raise (s.coreRec k 3 0x02 (BitVec.ofNat 16 code))

/-! ## Flags and credit pools (R216 to R226) -/

def Core.flag (c : Core) (f : Nat) : BitVec 32 := Tbl.get 0 c.flags f
def Core.pool (c : Core) (n : Nat) : Pool := Tbl.get Pool.reset c.pools n
def Core.setPool (c : Core) (n : Nat) (p : Pool) : Core := { c with pools := Tbl.set Pool.reset c.pools n p }

/-- An event of R239's last point reached the core: its census count starts again. -/
def State.touch (s : State) (k : Nat) : State := s.modCore k fun c => { c with census := 0 }

/-- The pool grants its waiting requests, in the order they arrived, while AVAIL is at least 1 (R223). -/
def State.poolPump (s : State) (k n : Nat) : State :=
  let p := (s.core k).pool n
  let now := p.waiting.take p.avail
  let s := s.modCore k fun c =>
    { c.setPool n { p with avail := p.avail - now.length, waiting := p.waiting.drop p.avail } with
      lent := c.lent ++ now.map fun w => ⟨n, w.1, w.2, p.epoch⟩ }
  { s with creditNet := s.creditNet ++ now.map fun w => .grant w.1 w.2 p.epoch 0 }

/-- `v` credits come back to pool `n`: AVAIL stops at LIMIT and OVER is set where it would pass it (R225). DETAIL of the record
names the pool in [7:0] and the source of the addition above, a queue of this core or the SRC of a packet (DESIGN CHOICE,
log 99). -/
def State.release (s : State) (k n v : Nat) (who : Nat) : State × Bool :=
  let p := (s.core k).pool n
  let ovr : Bool := p.limit < p.avail + v
  let s := s.modCore k fun c => c.setPool n { p with avail := min p.limit (p.avail + v), ovr := p.ovr || ovr }
  let s := if ovr then s.raise { s.coreRec k 1 0x25 0x0F with detail := n + who * 2 ^ 8 } else s
  (s.poolPump k n, ovr)

/-- The held pools that flag `f` releases (R224). -/
def Core.poolsOf (c : Core) (f : Nat) : List Nat :=
  (List.range 32).filter fun n => (c.pool n).held ∧ (c.pool n).relflag = f

/-- A flag value satisfies a threshold (R218). -/
def satisfies (f v : BitVec 32) : Bool := (f - v).toNat < 2 ^ 31

/-- The deadline of a wait has passed: the tick after t0 + n has begun (R220). -/
def expired (now t0 n : Nat) : Bool := n ≠ 0 && t0 + n < now

/-- A `WAIT` that its flag satisfies now keeps the tick, where that is its first and its deadline has not passed (R219, R220). -/
def Item.latch (c : Core) (now : Nat) (it : Item) : Item :=
  match it.phase with
  | .executing x =>
    if getW it.desc 0 8 = 0x61 ∧ x.met = none ∧ !expired now x.issued (getW it.desc 128 32) ∧
        satisfies (c.flag (getW it.desc 24 8)) (BitVec.ofNat 32 (getW it.desc 96 32)) then
      { it with phase := .executing { x with met := some now } }
    else it
  | _ => it

/-- Every wait of the core is tested against the flags as they now stand (R219). -/
def Core.latch (c : Core) (now : Nat) : Core :=
  let met := match c.stall with
    | .cwait _ v f t0 n => c.met || (!expired now t0 n && satisfies (c.flag f) v)
    | _ => c.met
  { c with met := met, fifo := c.fifo.map fun e => (e.1, e.2.map (Item.latch c now)) }

/-- `v` added to flag `f` of core `k` (R217), with the releases it makes (R224); whether one of them was an over-return.
`who` names the source in the record. -/
def State.flagAdd (s : State) (k f : Nat) (v : BitVec 32) (who : Nat) : State × Bool :=
  let x := (s.core k).flag f + v
  let s := s.modCore k fun c => ({ c with flags := Tbl.set 0 c.flags f x, census := 0 } : Core).latch s.tick
  let s := s.traceEv k 0 3 0 (f + x.toNat * 2 ^ 8)
  if v = 0 then (s, false)
  else (s.core k).poolsOf f |>.foldl (fun (a : State × Bool) n =>
    let r := a.1.release k n v.toNat who
    (r.1, a.2 || r.2)) (s, false)

/-- A credit of core `k` comes home, apart from a release: the pool it was lent by takes it where its grant carries the pool's
epoch, else it is discarded (R224, R424). -/
def State.creditHome (s : State) (k : Nat) (l : Lent) : State :=
  let p := (s.core k).pool l.pool
  let s := s.modCore k fun c => { c with lent := c.lent.erase l }
  if l.epoch ≠ p.epoch then s
  else (s.modCore k fun c => c.setPool l.pool { p with avail := min p.limit (p.avail + 1) }).poolPump k l.pool

/-- The credit that a segment of transfer `txid` of `src` took: segments use their grants in order (R223). -/
def Core.lentTo (c : Core) (src : BitVec 20) (txid : BitVec 12) : Option Lent :=
  c.lent.find? fun l => l.src = src && l.txid = txid

end Sys2Proof.Machine
end

