-- ==== Sys2Proof/Machine/Flags.lean ====
section
/-! DEFINITION. Status words (R13 to R16), the choice of one code (R188), and the comparison of a flag with a threshold
(R218). -/

namespace Sys2Proof.Machine

/-! ## Status codes (R14) -/

def cDONE : Nat := 0x00
def cSKIPPED : Nat := 0x01
def cTIMEDOUT : Nat := 0x02
def cEXTENT : Nat := 0x03
def cFORMAT : Nat := 0x04
def cHANDLE : Nat := 0x05
def cSATURATED : Nat := 0x06
def cPARITY : Nat := 0x07
def cABSORBED : Nat := 0x08
def cIMPRINT : Nat := 0x09
def cEDITION : Nat := 0x0A
def cDIGEST : Nat := 0x0B
def cMISSING : Nat := 0x0C
def cPROFILE : Nat := 0x0D
def cCENSUS : Nat := 0x0E
def cCREDIT : Nat := 0x0F
def cLOOP : Nat := 0x10

/-! ## Status flags (R16) -/

def fNEAREXPIRY : Nat := 8
def fREPLAYED : Nat := 9
def fSTALLED : Nat := 10
def fZEROLEN : Nat := 11
def fSTICKY : Nat := 12

/-- A set of status flags with one more. -/
def withFlag (flags bit : Nat) : Nat := flags ||| 2 ^ bit

/-- The code of a status word. -/
def codeOf (st : BitVec 16) : Nat := bits st.toNat 0 8

/-- The codes of R188 in its order: 1 to 3, then the returned codes lowest value first, then 5 to 7. A TIMED_OUT that a
host outcome returns is a returned code (R405); a `WAIT` has no other code beside its own. -/
def codeOrder : List Nat :=
  [cPARITY, cABSORBED, cIMPRINT, cTIMEDOUT, cEXTENT, cFORMAT, cHANDLE, cCREDIT, cEDITION, cSATURATED]

/-- The one code a command that passed issue completes with (R188). -/
def pickCode (codes : List Nat) : Nat := (codeOrder.find? fun c => c ∈ codes).getD cDONE

/-- Serial comparison of pass numbers: P is above count c (R332). -/
def passAbove (p c : BitVec 32) : Bool := 1 ≤ (p - c).toNat && (p - c).toNat ≤ 2 ^ 31 - 1

/-- The wait is satisfied within its deadline tick (R220). -/
def nearExpiry (now t0 n : Nat) : Bool := n ≠ 0 && now = t0 + n

end Sys2Proof.Machine
end

