-- ==== Sys2Proof/Machine/Operands.lean ====
section
/-! DEFINITION. Operand forms: handle entries and their check (R64 to R67), descriptors (R184 to R211), the operands of every
engine command and the bytes they can touch (R71, R97, R107, R124, R127). -/

namespace Sys2Proof.Machine

/-! ## Handle entries (R64) -/

def hVALID (h : Wide) : Bool := getW h 0 1 = 1
def hRD (h : Wide) : Bool := getW h 1 1 = 1
def hWR (h : Wide) : Bool := getW h 2 1 = 1
def hRMT (h : Wide) : Bool := getW h 3 1 = 1
def hSPACE (h : Wide) : Nat := getW h 4 2
def hKV (h : Wide) : Bool := getW h 6 1 = 1
def hPEND (h : Wide) : Bool := getW h 7 1 = 1
def hFORMAT (h : Wide) : Nat := getW h 8 8
def hPSCALE (h : Wide) : Int := sext 8 (getW h 16 8)
def hPOOL (h : Wide) : Nat := getW h 24 5
def hPOOLEN (h : Wide) : Bool := getW h 29 1 = 1
def hEDCUR (h : Wide) : Nat := getW h 32 32
def hEDPEND (h : Wide) : Nat := getW h 64 32
def hBASEPEND (h : Wide) : Nat := getW h 96 22
def hBASE (h : Wide) : Nat := getW h 128 22
def hEXTENT (h : Wide) : Nat := getW h 150 23
def hAUXBASE (h : Wide) : Nat := getW h 192 22
def hAUXCOUNT (h : Wide) : Nat := getW h 214 16
def hTLOG2 (h : Wide) : Nat := getW h 230 2
def hPTE (h : Wide) : Nat := getW h 232 16
/-- Rows per token. -/
def hT (h : Wide) : Nat := 2 ^ hTLOG2 h

/-- A split-precision weight handle. -/
def hSPLIT (h : Wide) : Bool := hSPACE h = 0 && !hKV h && hFORMAT h = fSPLIT
/-- A weight handle in an MX format. -/
def hMX (h : Wide) : Bool := hSPACE h = 0 && !hKV h && fmtMX (hFORMAT h)

/-- The first violated check of an ordered list gives the code; DONE where none is violated. -/
def firstFail : List (Bool × Nat) → Nat
  | [] => cDONE
  | (bad, code) :: rest => if bad then code else firstFail rest

/-- A side obeys the base and extent checks of R67. -/
def sideOk (size : Nat) (h : Wide) (base : Nat) : Bool :=
  let u := unitOf (hSPACE h)
  base % u = 0 && hEXTENT h % u = 0 && hEXTENT h ≠ 0 && base + hEXTENT h ≤ size

/-- FORMAT suits SPACE (R67). -/
def formatOk (h : Wide) : Bool :=
  if hSPACE h = 0 then (if hKV h then hFORMAT h = fINT8 ∨ hFORMAT h = fE4M3 else fmtWeight (hFORMAT h))
  else if hSPACE h = 1 then fmtListed (hFORMAT h) && hFORMAT h ≠ fSPLIT && hFORMAT h ≠ fPS64
  else hFORMAT h = fPS64

/-- Reserved fields, and fields that are zero for this kind of handle (R64, R67). -/
def handleReservedOk (h : Wide) : Bool :=
  getW h 30 2 = 0 && getW h 118 10 = 0 && getW h 173 19 = 0 && getW h 248 8 = 0 &&
  (hFORMAT h = fPS64 || getW h 16 8 = 0) &&
  (hKV h || hSPLIT h || hMX h || hAUXBASE h = 0) &&
  (hKV h || hSPLIT h || hAUXCOUNT h = 0) &&
  (if hKV h then hTLOG2 h ≠ 3 else hTLOG2 h = 0 && hPTE h = 0)

/-- The AUX area of R67. An area of no byte is held to the same sums (DESIGN CHOICE, log 96). -/
def auxOk (h : Wide) : Bool :=
  if hKV h then hAUXBASE h % 4 = 0 && hAUXBASE h + hAUXCOUNT h * hPTE h * 4 ≤ 0x100000
  else if hSPLIT h then hAUXBASE h + 2 * hAUXCOUNT h ≤ hEXTENT h
  else if hMX h then hAUXBASE h < hEXTENT h
  else true

/-- Two ranges of `n` bytes from `a` and `b` share a byte. -/
def overlaps (a b n m : Nat) : Bool := 0 < n && 0 < m && a < b + m && b < a + n

/-- The check of an entry before it is installed (R67): DONE or the code of the first failing line. -/
def State.handleCheck (s : State) (h : Wide) : Nat :=
  let size := s.spaceSize (hSPACE h)
  if !handleReservedOk h then cFORMAT
  else if !hVALID h then cDONE
  else firstFail [
    (hSPACE h = 3 || (hKV h && hSPACE h ≠ 0) || (hPOOLEN h && !hRMT h), cHANDLE),
    (!formatOk h, cHANDLE),
    (!sideOk size h (hBASE h), cHANDLE),
    (!auxOk h, cHANDLE),
    (hPEND h && (hSPACE h ≠ 0 || hKV h || !sideOk size h (hBASEPEND h)), cHANDLE),
    (hPEND h && overlaps (hBASE h) (hBASEPEND h) (hEXTENT h) (hEXTENT h), cEDITION)]

/-- The step that an edition fence makes on an entry (R66). -/
def fenceEntry (h : Wide) : Wide :=
  putW (putW (putW (putW h 32 32 (hEDPEND h)) 128 22 (hBASEPEND h)) 96 22 (hBASE h)) 7 1 0

def Core.handle (c : Core) (n : Nat) : Wide := Tbl.get 0 c.handles n
def Core.setHandle (c : Core) (n : Nat) (h : Wide) : Core := { c with handles := Tbl.set 0 c.handles n h }

/-! ## Descriptors -/

def dOP (d : Wide) : Nat := getW d 0 8
def dSIGFLAG (d : Wide) : Nat := getW d 8 8
def dSIG (d : Wide) : Bool := getW d 16 1 = 1

/-- The engine that an opcode names: 0 platen, 1 brayer, 2 move engine, 3 sync unit (R211); none for any other value,
reserved values within a range included. -/
def engineOf (op : Nat) : Option Nat :=
  if 0x10 ≤ op ∧ op ≤ 0x13 then some 0 else if 0x20 ≤ op ∧ op ≤ 0x3C then some 1
  else if 0x40 ≤ op ∧ op ≤ 0x49 then some 2 else if 0x60 ≤ op ∧ op ≤ 0x63 then some 3 else none

/-- The engine that owns a queue (R181). -/
def queueEngine (q : Nat) : Nat := if q < 4 then 0 else if q < 8 then 1 else if q < 14 then 2 else 3

/-- Queue depths (R181). -/
def queueDepth (q : Nat) : Nat := if q < 8 then 32 else if q < 14 then 64 else 16

def engineCode : Engine → Nat
  | .platen => 0 | .brayer => 1 | .move => 2 | .sync => 3

/-- The queues of an engine, in number order. -/
def engineQueues (e : Nat) : List Nat := (List.range 16).filter fun q => queueEngine q = e

-- platen fields (R192)
def pYMODE (d : Wide) : Nat := getW d 17 2
def pDIDX (d : Wide) : Nat := getW d 19 6
def pASCALE (d : Wide) : Int := sext 8 (getW d 32 8)
def pWH (d : Wide) : Nat := getW d 40 8
def pXH (d : Wide) : Nat := getW d 48 8
def pYH (d : Wide) : Nat := getW d 56 8
def pVMASK (d : Wide) : Nat := getW d 64 64
def pXOFF (d : Wide) : Nat := getW d 128 20
def pXSTRIDE (d : Wide) : Nat := getW d 148 14
def pYOFF (d : Wide) : Nat := getW d 162 18
def pYSTRIDE (d : Wide) : Nat := getW d 180 15
def pWOFF (d : Wide) : Nat := getW d 195 22
def pA (d : Wide) : Nat := getW d 217 6
def pN (d : Wide) : Nat := getW d 223 15
def pK (d : Wide) : Nat := getW d 238 15
def pSLOT0 (d : Wide) : Nat := getW d 195 12
def pLOFF (d : Wide) : Nat := getW d 207 20
def pD (d : Wide) : Nat := getW d 227 10

-- brayer fields (R196)
def bET (d : Wide) : Nat := getW d 17 1
def bYMODE (d : Wide) : Nat := getW d 18 2
def bRMODE (d : Wide) : Nat := getW d 20 1
def bBSRC (d : Wide) : Nat := getW d 21 1
def bCDST (d : Wide) : Nat := getW d 22 1
def bASCALE (d : Wide) : Int := sext 8 (getW d 32 8)
def bMH (d : Wide) : Nat := getW d 40 8
def bIMM (d : Wide) : Nat := getW d 112 32
def bMOFF (d : Wide) : Nat := getW d 144 20
def bMSTRIDE (d : Wide) : Nat := getW d 164 14
def bDIDX (d : Wide) : Nat := getW d 178 6
def bRSTREAM (d : Wide) : Nat := getW d 184 16
def bRCTR (d : Wide) : Nat := getW d 200 32
def bLEN (d : Wide) : Nat := getW d 232 14
def bOH (d : Wide) : Nat := getW d 246 8

-- move-engine fields (R199, R203)
def mRSIG (d : Wide) : Bool := getW d 17 1 = 1
def mPATH (d : Wide) : Bool := getW d 18 1 = 1
def mRFLAG (d : Wide) : Nat := getW d 24 8
def mSH (d : Wide) : Nat := getW d 32 8
def mDH (d : Wide) : Nat := getW d 40 8
def mCIRC (d : Wide) : Nat := getW d 48 12
def mSIZE (d : Wide) : Nat := getW d 64 32
def mCOUNT (d : Wide) : Nat := getW d 96 32
def mSOFF (d : Wide) : Nat := getW d 128 22
def mSSTRIDE (d : Wide) : Nat := getW d 150 24
def mDSTRIDE (d : Wide) : Nat := getW d 174 24
def mDOFF (d : Wide) : Nat := getW d 198 22
def mDEST (d : Wide) : BitVec 20 := BitVec.ofNat 20 (getW d 220 20)
def mHOFF (d : Wide) : Nat := getW d 198 48
def mRING (d : Wide) : Nat := getW d 198 14
def mCOP (d : Wide) : Nat := getW d 64 2
def mSLOTS (d : Wide) : Nat := getW d 72 8

-- sync fields (R207)
def yRMT (d : Wide) : Bool := getW d 17 1 = 1
def yFLAG (d : Wide) : Nat := getW d 24 8
def yTH (d : Wide) : Nat := getW d 32 8
def ySH (d : Wide) : Nat := getW d 40 8
def ySOFF (d : Wide) : Nat := getW d 48 20
def yVALUE (d : Wide) : BitVec 32 := BitVec.ofNat 32 (getW d 96 32)
def yTIMEOUT (d : Wide) : Nat := getW d 128 32
def yDEST (d : Wide) : BitVec 20 := BitVec.ofNat 20 (getW d 160 20)

/-! ## Used and reserved fields (R186, R193, R197, R199 to R203, R207) -/

/-- The fields (lowest bit, width) that a descriptor's command uses. -/
def usedFields (d : Wide) : List (Nat × Nat) :=
  let op := dOP d
  let common := [(0, 8), (16, 1)] ++ (if dSIG d then [(8, 8)] else [])
  let ymode := [(17, 2)] ++ (if pYMODE d = 2 then [(19, 6)] else [])
  let plate := [(40, 8), (48, 8), (64, 64), (128, 20), (148, 14)]
  let y := [(32, 8), (56, 8), (162, 18), (180, 15)] ++ ymode
  let bsrc := [(21, 1)] ++ (if bBSRC d = 1 then [(112, 32)] else [(80, 16)])
  let rand := [(20, 1)] ++ (if bRMODE d = 1 then [(184, 16), (200, 32)] else [])
  let mem := [(40, 8), (144, 20)]
  let red := [(17, 1), (18, 2), (32, 8), (64, 16)] ++
    (if bYMODE d = 3 then [(48, 16)] else mem ++ (if bYMODE d = 2 then [(178, 6)] else []))
  let src := [(32, 8), (64, 32), (96, 32), (128, 22), (150, 24)]
  let path := [(18, 1)] ++ (if mPATH d then [(48, 12)] else [])
  let rsig := [(17, 1)] ++ (if mRSIG d then [(24, 8)] else [])
  let dst := [(40, 8), (174, 24)]
  common ++
  (if op = 0x10 then plate ++ y ++ [(195, 22), (217, 6), (223, 15), (238, 15)]
   else if op = 0x11 then plate ++ [(195, 12), (207, 20)]
   else if op = 0x12 ∨ op = 0x13 then plate ++ y ++ [(195, 12), (207, 20), (227, 10)]
   else if op = 0x20 then [(17, 1), (232, 14)]
   else if op ∈ [0x21, 0x22, 0x23, 0x25, 0x26] then [(17, 1), (48, 16), (64, 16)] ++ bsrc
   else if op = 0x24 then [(17, 1), (48, 16), (64, 16), (96, 16)] ++ bsrc
   else if op = 0x2A then [(17, 1), (48, 16), (64, 16), (80, 16), (96, 16)]
   else if op ∈ [0x27, 0x28, 0x29, 0x2B, 0x2C, 0x2D, 0x2E, 0x2F, 0x30] then [(17, 1), (48, 16), (64, 16)]
   else if op = 0x31 ∨ op = 0x32 then [(48, 16), (64, 16)]
   else if op = 0x33 then [(17, 1), (48, 16), (164, 14)] ++ mem
   else if op = 0x34 then [(17, 1), (64, 16), (164, 14)] ++ mem
   else if op = 0x35 then [(22, 1), (164, 14)] ++ mem ++ rand ++
     (if bCDST d = 1 then [(246, 8), (112, 20)] else [(17, 1), (48, 16)])
   else if op = 0x36 then [(64, 16), (164, 14)] ++ mem ++ rand
   else if op = 0x37 ∨ op = 0x38 then red
   else if op = 0x39 then red ++ [(80, 16)]
   else if op = 0x3A then [(17, 1), (48, 16), (64, 16)]
   else if op = 0x3B then [(17, 1), (64, 16)] ++ mem
   else if op = 0x3C then [(32, 8), (64, 16), (184, 16), (200, 32)] ++ mem
   else if op = 0x40 then src ++ dst ++ [(198, 22)]
   else if op ∈ [0x41, 0x42, 0x43] then src ++ dst ++ [(198, 22), (220, 20)] ++ path ++ rsig
   else if op = 0x44 then src ++ dst ++ [(198, 22), (220, 20)] ++ path
   else if op = 0x45 ∨ op = 0x46 then src ++ dst ++ [(198, 48)]
   else if op = 0x47 then [(40, 8), (64, 32), (198, 48)]
   else if op = 0x48 then src ++ [(198, 14)]
   else if op = 0x49 then [(48, 12), (64, 2), (72, 8), (220, 20)]
   else if op = 0x60 then [(17, 1), (24, 8), (96, 32)] ++ (if yRMT d then [(160, 20)] else [])
   else if op = 0x61 then [(24, 8), (96, 32), (128, 32)]
   else if op = 0x62 then [(32, 8), (40, 8), (48, 20)]
   else if op = 0x63 then [(40, 8), (48, 20), (96, 32)]
   else [])

/-- Every bit outside the used fields is zero, and no used field holds a reserved value (R10, R186, R194, R203). -/
def reservedOk (d : Wide) : Bool :=
  let keep := (usedFields d).foldl (fun (m : Wide) f => m ||| BitVec.ofNat 256 ((2 ^ f.2 - 1) * 2 ^ f.1)) 0
  d &&& ~~~keep = 0 && !(dOP d ∈ [0x10, 0x12, 0x13] && pYMODE d = 3) && !(dOP d = 0x49 && 2 ≤ mCOP d)

/-! ## Tile operands (R118, R124, R126) -/

/-- A tile operand: tile, element offset, stride, element size in bytes, element count, whether it is written. -/
structure TOp where
  tile : Nat
  off : Nat
  stride : Nat
  es : Nat
  n : Nat
  wr : Bool
deriving DecidableEq, Repr

/-- The 16-bit tile operand at bit `lo` of a descriptor (R196). -/
def tileOp (d : Wide) (lo es n : Nat) (wr : Bool) : TOp := ⟨getW d lo 2, getW d (lo + 2) 13, getW d (lo + 15) 1, es, n, wr⟩

/-- First and last byte of the operand within the tile space (R120). -/
def TOp.lo (t : TOp) : Nat := t.tile * 16384 + t.off * t.es
def TOp.hi (t : TOp) : Nat := t.tile * 16384 + (t.off + (t.n - 1) * t.stride) * t.es + t.es - 1

/-- Within the tile's capacity (R124); an operand of no elements touches nothing. -/
def TOp.fits (t : TOp) : Bool := t.n = 0 || t.off + (t.n - 1) * t.stride < 16384 / t.es

/-- The size of an element of type ET. -/
def etSize (et : Nat) : Nat := if et = 0 then 4 else 2

/-- The tile operands of a brayer command of length `n`: D first where there is one. One-element destinations carry count
one (R124). -/
def tileOps (d : Wide) (n : Nat) : List TOp :=
  let op := dOP d
  let e := etSize (bET d)
  let D := fun es m => tileOp d 48 es m true
  let A := fun es => tileOp d 64 es n false
  let B := fun m => tileOp d 80 e m false
  let C := fun m => tileOp d 96 e m false
  let one := if n = 0 then 0 else 1
  if op ∈ [0x21, 0x22, 0x23, 0x25, 0x26] then [D e n, A e] ++ (if bBSRC d = 1 then [] else [B n])
  else if op = 0x24 then [D e n, A e] ++ (if bBSRC d = 1 then [] else [B n]) ++ [C n]
  else if op = 0x2A then [D e n, A e, B (n / 2), C (n / 2)]
  else if op ∈ [0x27, 0x28, 0x29, 0x2B, 0x2C, 0x2D, 0x2E, 0x2F, 0x30] then [D e n, A e]
  else if op = 0x31 then [D 4 n, A 2]
  else if op = 0x32 then [D 2 n, A 4]
  else if op = 0x33 then [D e n]
  else if op = 0x34 then [A e]
  else if op = 0x35 then (if bCDST d = 1 then [] else [D e n])
  else if op = 0x36 then [A 4]
  else if op = 0x37 ∨ op = 0x38 then (if bYMODE d = 3 then [D 4 one] else []) ++ [A e]
  else if op = 0x39 then (if bYMODE d = 3 then [D 4 one] else []) ++ [A e, B n]
  else if op = 0x3A then [D e one, A e]
  else if op = 0x3B then [A e]
  else if op = 0x3C then [A 4]
  else []

/-- Destination strides are 1; a stride-1 source that shares a byte with the destination covers exactly it (R124, R126). -/
def tilesOk (ts : List TOp) : Bool :=
  ts.all (fun t => !t.wr || t.stride = 1) &&
  ts.all fun x => !x.wr || ts.all fun y =>
    y.wr || y.stride = 0 || x.n = 0 || y.n = 0 || y.tile ≠ x.tile || y.hi < x.lo || x.hi < y.lo ||
      (y.off = x.off && y.es = x.es)

/-! ## Geometry of platen commands (R94 to R102) -/

def ceilDiv (a b : Nat) : Nat := (a + b - 1) / b

/-- Elements per row (R96). -/
def rowElems (f : Nat) : Nat := if f = fINT4 ∨ f = fMXFP4 ∨ f = fSPLIT then 256 else 128

/-- Rows of one output: bulk rows and side rows (R97, R102). -/
def rowsPerOut (h : Wide) (k : Nat) : Nat :=
  ceilDiv k (rowElems (hFORMAT h)) + (if hSPLIT h then ceilDiv (hAUXCOUNT h) 128 else 0)

/-- Scale rows of one output (R99). -/
def scaleRows (k : Nat) : Nat := ceilDiv (ceilDiv k 32) 128

/-- The bytes that an activation vector of L elements spans (R95, R100). -/
def vecBytes (f L : Nat) : Nat :=
  let b := ceilDiv L 32
  if fmtMX f then b * 32 + b else if f = fBF16 then b * 32 * 2 else L

/-- A vector of L elements fits one half of the input buffer (R94). -/
def vecFits (f L : Nat) : Bool :=
  (if f = fBF16 then 2 * L else L) ≤ 16384 && (!(fmtMX f || f = fBF16) || ceilDiv L 32 ≤ 512)

/-- The active items of a list (R107). -/
def activeItems (d : Wide) : List Nat := (List.range 64).filter fun i => bits (pVMASK d) i 1 = 1

def itemX (d : Wide) (i : Nat) : Nat := pXOFF d + 64 * pXSTRIDE d * i
def itemY (d : Wide) (i : Nat) : Nat := pYOFF d + 8 * pYSTRIDE d * i

/-- The span of the items' runs of `len` bytes from `off i`: none when there is none. -/
def spanOf (items : List Nat) (off : Nat → Nat) (len : Nat) : Option (Nat × Nat) :=
  if len = 0 then none
  else match items with
  | [] => none
  | i :: is => some (is.foldl (fun m j => min m (off j)) (off i), is.foldl (fun m j => max m (off j)) (off i) + len - 1)

/-- The span of a strided pattern (R71, R72). -/
def strided (off count size stride : Nat) : Option (Nat × Nat) :=
  if count = 0 ∨ size = 0 then none else some (off, off + (count - 1) * stride + size - 1)

/-! ## Local operands -/

/-- A local memory operand: its handle, whether it is read or written, whether it needs RD or WR, its span relative to the
side in use (none: touches no byte). -/
structure Opnd where
  h : Nat
  rd : Bool
  wr : Bool
  span : Option (Nat × Nat)
deriving DecidableEq, Repr

/-- Bytes that a `BR_QUANT` writes from its offset (R100, R127, R136). -/
def quantBytes (f n stride : Nat) : Nat :=
  if n = 0 then 0
  else if fmtMX f then ceilDiv n 32 * 32 * fmtBits f / 8 + ceilDiv n 32
  else (n - 1) * stride + 1

/-- The local memory operands of a command with their extents by R71, in descriptor order; `hs` resolves handles, `n` is
BLEN. The lengths of attention items are bounded by their page tables (R76; DEDUCED, log 18). -/
def opnds (hs : Nat → Wide) (d : Wide) (n : Nat) : List Opnd :=
  let op := dOP d
  let act := activeItems d
  let W := hs (pWH d)
  let X := hs (pXH d)
  let maxN := 16 * hPTE W
  let span := fun (len : Nat) => if len = 0 then none else some (bMOFF d, bMOFF d + len - 1)
  let run := fun (size : Nat) => span (if n = 0 then 0 else (n - 1) * bMSTRIDE d * size + size)
  if op = 0x10 then
    let none? := pK d = 0 ∨ pN d = 0 ∨ act = []
    let w := pWOFF d + (min (pA d) (pN d) - 1) * 0x20000 + ceilDiv (pN d) (pA d) * rowsPerOut W (pK d) * 128 - 1
    [⟨pWH d, true, false, if none? then none else some (pWOFF d, w)⟩,
     ⟨pXH d, true, false, if none? then none else spanOf act (itemX d) (vecBytes (hFORMAT X) (pK d))⟩] ++
    (if pYMODE d = 2 then [] else
      [⟨pYH d, false, true, if none? then none else spanOf act (itemY d) (8 * pN d)⟩])
  else if op = 0x11 then [⟨pWH d, false, true, none⟩, ⟨pXH d, true, false, spanOf act (itemX d) (128 * hT W)⟩]
  else if op = 0x12 then
    [⟨pWH d, true, false, none⟩, ⟨pXH d, true, false, spanOf act (itemX d) (vecBytes (hFORMAT X) (pD d))⟩] ++
    (if pYMODE d = 2 then [] else [⟨pYH d, false, true, spanOf act (itemY d) (8 * maxN)⟩])
  else if op = 0x13 then
    [⟨pWH d, true, false, none⟩, ⟨pXH d, true, false, spanOf act (itemX d) (vecBytes (hFORMAT X) maxN)⟩] ++
    (if pYMODE d = 2 then [] else [⟨pYH d, false, true, spanOf act (itemY d) (8 * pD d)⟩])
  else if op = 0x33 then [⟨bMH d, true, false, run (fmtBits (hFORMAT (hs (bMH d))) / 8)⟩]
  else if op = 0x34 then [⟨bMH d, false, true, run (fmtBits (hFORMAT (hs (bMH d))) / 8)⟩]
  else if op = 0x35 then
    [⟨bMH d, true, false, run 8⟩] ++
    (if bCDST d = 1 then [⟨bOH d, false, true, if n = 0 then none else
      some (bIMM d % 2 ^ 20, bIMM d % 2 ^ 20 + n - 1)⟩] else [])
  else if op = 0x36 then [⟨bMH d, false, true, span (quantBytes (hFORMAT (hs (bMH d))) n (bMSTRIDE d))⟩]
  else if op ∈ [0x37, 0x38, 0x39] then
    (if bYMODE d ≤ 1 then [⟨bMH d, false, true, span (if n = 0 then 0 else 8)⟩] else [])
  else if op = 0x3B ∨ op = 0x3C then [⟨bMH d, false, true, span (if n = 0 then 0 else 8)⟩]
  else if op = 0x40 then
    [⟨mSH d, true, false, strided (mSOFF d) (mCOUNT d) (mSIZE d) (mSSTRIDE d)⟩,
     ⟨mDH d, false, true, strided (mDOFF d) (mCOUNT d) (mSIZE d) (mDSTRIDE d)⟩]
  else if op ∈ [0x41, 0x42, 0x43, 0x45, 0x48] then
    [⟨mSH d, true, false, strided (mSOFF d) (mCOUNT d) (mSIZE d) (mSSTRIDE d)⟩]
  else if op = 0x44 then [⟨mDH d, false, true, strided (mDOFF d) (mCOUNT d) (mSIZE d) (mDSTRIDE d)⟩]
  else if op = 0x46 then [⟨mSH d, false, true, strided (mSOFF d) (mCOUNT d) (mSIZE d) (mSSTRIDE d)⟩]
  else if op = 0x62 ∨ op = 0x63 then [⟨ySH d, true, false, some (ySOFF d, ySOFF d + 31)⟩]
  else []

/-- The handles a command names, with TH of `HANDLE_WRITE` (R76). -/
def namedHandles (hs : Nat → Wide) (d : Wide) (n : Nat) : List Nat :=
  (opnds hs d n).map (·.h) ++ (if dOP d = 0x62 then [yTH d] else [])

/-- The work of the command is empty (R200). -/
def zeroLength (d : Wide) (n : Nat) : Bool :=
  let op := dOP d
  if op = 0x10 then pVMASK d = 0 || pK d = 0 || pN d = 0
  else if 0x11 ≤ op ∧ op ≤ 0x13 then pVMASK d = 0
  else if 0x21 ≤ op ∧ op ≤ 0x3C then n = 0
  else if op = 0x47 then mSIZE d = 0
  else if 0x40 ≤ op ∧ op ≤ 0x48 then mSIZE d = 0 || mCOUNT d = 0
  else false

end Sys2Proof.Machine
end

