-- ==== Sys2Proof/Machine/Scoreboard.lean ====
section
/-! DEFINITION. The scoreboard (R75 to R80): the ranges that each uncompleted command records, and which command holds which. -/

namespace Sys2Proof.Machine

/-- A recorded range (R76). Spaces 0 to 2 as SPACE codes, 3 the tiles, 4 the handles. -/
structure Rng where
  space : Nat
  lo : Nat
  hi : Nat
  wr : Bool
deriving DecidableEq, Repr

/-- Two ranges conflict (R77). -/
def Rng.conflicts (a b : Rng) : Bool := a.space = b.space && a.lo ≤ b.hi && b.lo ≤ a.hi && (a.wr || b.wr)

/-- The handle entries a command resolves: those it holds since its issue, else those now in the table (R66). -/
def Item.resolve (it : Item) (c : Core) (h : Nat) : Wide :=
  match it.phase with
  | .executing x => match x.handles.find? (·.1 = h) with | some e => e.2 | none => c.handle h
  | _ => c.handle h

/-- The whole of a space. -/
def wholeSpace (sp : Nat) (wr : Bool) : Rng := ⟨sp, 0, 0x3FFFFF, wr⟩

/-- The whole of an operand's space, which the entry as it stands names; of every space where the entry is not valid yet
(R76; DEDUCED, log 19). -/
def wholeOpnd (hs : Nat → Wide) (o : Opnd) : List Rng :=
  if hVALID (hs o.h) then [wholeSpace (hSPACE (hs o.h)) o.wr] else [0, 1, 2].map fun sp => wholeSpace sp o.wr

/-- The ranges of one local operand: its span through the handle's current side, or the whole of its space while an earlier
command is to write the handle (R76). -/
def opndRngs (hs : Nat → Wide) (unstable : Nat → Bool) (o : Opnd) : List Rng :=
  if unstable o.h then wholeOpnd hs o
  else match o.span with
  | none => []
  | some (lo, hi) => [⟨hSPACE (hs o.h), hBASE (hs o.h) + lo, hBASE (hs o.h) + hi, o.wr⟩]

/-- The ranges of a command's local operands. A command of no work touches no byte (R72, R200). The lengths of a KV command's
items hang on T and PT_ENTRIES of its KV handle, so while that is to be written its other operands are whole spaces too; the
KV handle's own ranges are in `kvRngs`. -/
def localRngs (hs : Nat → Wide) (unstable : Nat → Bool) (d : Wide) (n : Nat) : List Rng :=
  if zeroLength d n then []
  else if 0x11 ≤ dOP d ∧ dOP d ≤ 0x13 then
    ((opnds hs d n).drop 1).flatMap (opndRngs hs fun h => unstable h || unstable (pWH d))
  else (opnds hs d n).flatMap (opndRngs hs unstable)

/-- The auxiliary reads of a `MATVEC`: scale area or outlier map (R65, R99, R101). The map is read at issue whatever the work
is (R187). -/
def auxRngs (hs : Nat → Wide) (d : Wide) : List Rng :=
  let W := hs (pWH d)
  if dOP d = 0x10 then
    if hSPLIT W ∧ 0 < hAUXCOUNT W then
      [⟨0, hBASE W + hAUXBASE W, hBASE W + hAUXBASE W + 2 * hAUXCOUNT W - 1, false⟩]
    else if hMX W ∧ !zeroLength d 0 then
      [⟨0, hBASE W + hAUXBASE W, hBASE W + hAUXBASE W + (min (pA d) (pN d) - 1) * 0x20000 +
        ceilDiv (pN d) (pA d) * scaleRows (pK d) * 128 - 1, false⟩]
    else []
  else []

/-- The ranges of a KV command beside its operands: table entries, page tables, the whole side (R76). -/
def kvRngs (hs : Nat → Wide) (unstable : Nat → Bool) (d : Wide) : List Rng :=
  let op := dOP d
  let H := hs (pWH d)
  let act := activeItems d
  if 0x11 ≤ op ∧ op ≤ 0x13 ∧ act ≠ [] then
    act.map (fun i => ⟨1, pLOFF d + 4 * i, pLOFF d + 4 * i + 3, false⟩) ++
    (if unstable (pWH d) then [wholeSpace 0 (op = 0x11), wholeSpace 1 false]
     else
      (if hPTE H = 0 then [] else act.map fun i =>
        let a := hAUXBASE H + (pSLOT0 d + i) * hPTE H * 4
        (⟨1, a, a + hPTE H * 4 - 1, false⟩ : Rng)) ++
      [⟨0, hBASE H, hBASE H + hEXTENT H - 1, op = 0x11⟩])
  else []

/-- The handles a fence's mask names as memory stands now. -/
def State.fenceMask (s : State) (k : Nat) (h : Wide) (d : Wide) : Nat := s.coreNat k 1 (hBASE h + ySOFF d) 32

/-- The ranges that a command records (R76), given those of every earlier uncompleted command. -/
def State.itemRngs (s : State) (k : Nat) (earlier : List Rng) (it : Item) : List Rng :=
  let d := it.desc
  let hs := it.resolve (s.core k)
  let unstable := fun h => match it.phase with
    | .executing _ => false
    | _ => earlier.any fun r => r.space = 4 && r.wr && r.lo ≤ h && h ≤ r.hi
  let mask : List Rng := localRngs hs unstable d it.blen
  let named := (namedHandles hs d it.blen).map fun h => (⟨4, h, h, dOP d = 0x62 && h = yTH d⟩ : Rng)
  let tiles := (tileOps d it.blen).filterMap fun t => if t.n = 0 then none else some (⟨3, t.lo, t.hi, t.wr⟩ : Rng)
  let fence : List Rng :=
    if dOP d = 0x63 then
      if unstable (ySH d) || mask.any fun m => earlier.any fun r => r.wr && r.conflicts m then [⟨4, 0, 255, true⟩]
      else
        let m := s.fenceMask k (hs (ySH d)) d
        (List.range 256).filterMap fun h => if bits m h 1 = 1 then some (⟨4, h, h, true⟩ : Rng) else none
    else []
  mask ++ named ++ tiles ++ auxRngs hs d ++ kvRngs hs unstable d ++ fence

/-- A command of the scoreboard with its queue. -/
abbrev SbEntry := Nat × Item

def sbInsert (x : SbEntry) : List SbEntry → List SbEntry
  | [] => [x]
  | y :: ys => if x.2.ord < y.2.ord then x :: y :: ys else y :: sbInsert x ys

/-- A command is in the scoreboard until its completion (R75). -/
def Item.live (it : Item) : Bool :=
  match it.phase with
  | .waiting => true
  | .executing _ => true
  | _ => false

/-- The uncompleted commands of a core in program order. -/
def Core.scoreboard (c : Core) : List SbEntry :=
  (c.fifo.flatMap fun e => (e.2.filter Item.live).map fun it => (e.1, it)).foldr sbInsert []

/-- Each uncompleted command with the ranges it records, in program order. -/
def State.sbRanges (s : State) (k : Nat) : List (SbEntry × List Rng) :=
  ((s.core k).scoreboard.foldl (fun (acc : List (SbEntry × List Rng)) e =>
    acc ++ [(e, s.itemRngs k (acc.flatMap (·.2)) e.2)]) [])

/-- The part on this core runs in forerunner mode (R80, R514). -/
def State.forerunner (s : State) (k : Nat) : Bool :=
  let p := s.partOfKey k
  p < 64 && s.fld (aCtxMode p) 1 1 = 1

/-- The queue of the first earlier command that holds ranges `rs` of a command of engine `e` at place `ord` (R77, R80). -/
def State.sbHolder (s : State) (k e ord : Nat) (rs : List Rng) : Option Nat :=
  let fr := s.forerunner k
  ((s.sbRanges k).find? fun x =>
    x.1.2.ord < ord && (!fr || queueEngine x.1.1 = e) && x.2.any fun r => rs.any r.conflicts).map (·.1.1)

/-- The queue that holds command `it` of queue `q` (R77). -/
def State.itemHolder (s : State) (k q : Nat) (it : Item) : Option Nat :=
  let before := (s.sbRanges k).filter fun x => x.1.2.ord < it.ord
  s.sbHolder k (queueEngine q) it.ord (s.itemRngs k (before.flatMap (·.2)) it)

/-! ## Queues -/

def Core.queue (c : Core) (q : Nat) : List Item := Tbl.get [] c.fifo q
def Core.setQueue (c : Core) (q : Nat) (l : List Item) : Core := { c with fifo := Tbl.set [] c.fifo q l }

/-- Entries occupied (R182). -/
def Core.depth (c : Core) (q : Nat) : Nat :=
  ((c.queue q).filter fun it => match it.phase with | .waiting => true | _ => false).length

/-- Skip-ledger entries in use (R169). -/
def Core.ledger (c : Core) (q : Nat) : Nat :=
  ((c.queue q).filter fun it => match it.phase with | .skipped => true | _ => false).length

/-- The head command of a queue: its first that waits for issue. -/
def Core.head (c : Core) (q : Nat) : Option Item :=
  (c.queue q).find? fun it => match it.phase with | .waiting => true | _ => false

/-- The executing commands of a queue. -/
def Core.executing (c : Core) (q : Nat) : List (Item × Exec) :=
  (c.queue q).filterMap fun it => match it.phase with | .executing x => some (it, x) | _ => none

/-- The command of sequence `seq` in queue `q` replaced. -/
def Core.updItem (c : Core) (q seq : Nat) (f : Item → Item) : Core :=
  c.setQueue q ((c.queue q).map fun it => if it.seq = seq then f it else it)

/-- The executing state of a command replaced. -/
def Core.updExec (c : Core) (q seq : Nat) (f : Exec → Exec) : Core :=
  c.updItem q seq fun it => match it.phase with | .executing x => { it with phase := .executing (f x) } | _ => it

end Sys2Proof.Machine
end

