-- ==== Sys2Proof/Machine/Queue.lean ====
section
/-! DEFINITION. Queues: delivery, skips, completion, in-order signals and the status registers (R168, R185, R189, R190, R212),
and the inputs that a pass brings (R331). -/

namespace Sys2Proof.Machine

/-! ## Status registers -/

def aQstat (k q : Nat) : Nat := aCoreK k (0xC00 + 8 * q)
def aNumeric (k : Nat) : Nat := aCoreK k 0x180

/-- Flags of a status word of queue `q`, with the sticky bit of R47. -/
def State.withSticky (s : State) (k q flags : Nat) : Nat :=
  if s.fld (aNumeric k) q 1 = 1 then withFlag flags fSTICKY else flags

/-- The capture of a failing status word (R190): only while none is held. -/
def State.capture (s : State) (k q : Nat) (status : BitVec 16) (seq : Nat) (late : Bool) : State :=
  if s.fld (aQstat k q) 48 1 = 1 then s
  else
    let s := s.setFld (aQstat k q) 16 16 status.toNat
    let s := s.setFld (aQstat k q) 32 16 seq
    let s := s.setFld (aQstat k q) 48 1 1
    s.setFld (aQstat k q) 49 1 (if late then 1 else 0)

/-- Queue `q` of core `k` has saturated (R47, R48), whatever code its command reports. -/
def State.saturated (s : State) (k q : Nat) (codes : List Nat) : State :=
  if cSATURATED ∈ codes then s.setFld (aNumeric k) q 1 1 else s

/-- The error record of a command that failed (R189, R351). -/
def State.failRec (s : State) (k q seq op : Nat) (status : BitVec 16) : ErrRec :=
  { s.coreRec k 1 (if op = 0x63 then 0x61 else 0x01) status with queue := q, cmdseq := seq, detail := op }

/-- A late verdict on a completed command (R198, R271). -/
def State.lateVerdict (s : State) (k q seq op code : Nat) : State :=
  let st := statusWord code (s.withSticky k q 0)
  (s.capture k q st seq true).raise { s.coreRec k 1 0x01 st with queue := q, cmdseq := seq, detail := op }

/-! ## Signals in order (R185, R212) -/

/-- One completion signal: the flag and LAST. -/
def State.signalOf (s : State) (k q : Nat) (it : Item) (status : BitVec 16) : State :=
  let s := s.setFld (aQstat k q) 0 16 (statusWord (codeOf status) (s.withSticky k q status.toNat)).toNat
  if dSIG it.desc then (s.flagAdd k (dSIGFLAG it.desc) 1 q).1 else s

/-- The status word of a command that has completed. -/
def Item.doneWith (it : Item) : Option (BitVec 16) := match it.phase with | .done st => some st | _ => none

/-- The front of a queue leaves and signals while it is complete; a skipped command waits for its own event. -/
def State.flush (s : State) (k q : Nat) : State :=
  let gone := ((s.core k).queue q).takeWhile fun it => it.doneWith.isSome
  let s := s.modCore k fun c => c.setQueue q ((c.queue q).drop gone.length)
  gone.foldl (fun s it => match it.doneWith with | some st => s.signalOf k q it st | none => s) s

/-! ## Edition fences of a commit (R350) -/

/-- A fence for `edition` completed on core `k`: when every started core's fence has, the edition is current. -/
def State.fenceDone (s : State) (k : Nat) (edition : Nat) : State :=
  let p := s.partOfKey k
  match (s.part p).pending with
  | none => s
  | some m =>
    if s.edload p = 3 ∧ m.number.toNat = edition then
      let left := (s.part p).fencesLeft.filter (· ≠ k)
      if left = [] then
        let s := s.modPart p fun x => { x with fencesLeft := [], current := some m, pending := none }
        (s.setEdload p 0).setFld (aCtx p 0x08) 32 32 edition
      else s.modPart p fun x => { x with fencesLeft := left }
    else s

/-! ## Completion -/

/-- A command of queue `q` completes with `code` and `flags` (R185, R188, R189); `recorded`: its record is raised already. -/
def State.finish (s : State) (k q : Nat) (it : Item) (code flags : Nat) (recorded : Bool) : State :=
  let flags := if it.stalled then withFlag flags fSTALLED else flags
  let st := statusWord code (s.withSticky k q flags)
  let s := s.modCore k fun c => c.updItem q it.seq fun i => { i with phase := .done st }
  let s := s.traceEv k q 1 st (dOP it.desc + it.seq % 2 ^ 32 * 2 ^ 8)
  let s := if code = cDONE then s
    else
      let s := s.capture k q st it.seq false
      if recorded then s else s.raise (s.failRec k q it.seq (dOP it.desc) st)
  let s := if dOP it.desc = 0x63 ∧ code = cDONE then s.fenceDone k (yVALUE it.desc).toNat else s
  s.flush k q

/-! ## Delivery and skips (R75, R122, R168) -/

def aBrLen (k : Nat) : Nat := aCoreK k 0x2C8

/-- A `BR_SETLEN` that its check passes (R122). -/
def setlenOk (d : Wide) : Bool := reservedOk d && bLEN d ≤ 8192

/-- The length bound at push. -/
def State.boundLen (s : State) (k q : Nat) : Nat := if queueEngine q = 1 then s.fld (aBrLen k) ((q - 4) * 16) 14 else 0

/-- A finished descriptor enters queue `q`. -/
def State.deliver (s : State) (k q : Nat) (d : Wide) : State :=
  let s := if dOP d = 0x20 ∧ setlenOk d then s.setFld (aBrLen k) ((q - 4) * 16) 14 (bLEN d) else s
  let b := s.boundLen k q
  s.modCore k fun c =>
    let n := Tbl.get 0 c.seqs q
    { c.setQueue q (c.queue q ++ [⟨n, c.ord, d, b, false, .waiting⟩]) with
      seqs := Tbl.set 0 c.seqs q (n + 1), ord := c.ord + 1 }

/-- A finished descriptor is skipped. -/
def State.skip (s : State) (k q : Nat) (d : Wide) : State :=
  s.modCore k fun c =>
    let n := Tbl.get 0 c.seqs q
    let c := { c with seqs := Tbl.set 0 c.seqs q (n + 1) }
    if dSIG d then { c.setQueue q (c.queue q ++ [⟨n, c.ord, d, 0, false, .skipped⟩]) with ord := c.ord + 1 } else c

/-- The push must wait: a full queue (R170) or a full skip ledger (R169). -/
def Core.pushBlocked (c : Core) (q : Nat) (d : Wide) (deliver : Bool) : Bool :=
  if deliver then queueDepth q ≤ c.depth q else dSIG d && 8 ≤ c.ledger q

def State.pushNow (s : State) (k q : Nat) (d : Wide) (deliver : Bool) : State :=
  if deliver then s.deliver k q d else s.skip k q d

/-! ## Pass inputs (R331, R350) -/

/-- One input's word reaches core `k`: a slot map word, or the commit word through COMMIT_H. -/
def State.inputWord (s : State) (k : Nat) (pl : Plate) (x : PendingInput) : State :=
  match x.input with
  | .slotWord w v => s.wr (aCoreK k (0x800 + 8 * w)) v
  | .commit e =>
    let h := (s.core k).handle pl.commitH
    s.coreWrite k (hSPACE h) (hBASE h + pl.commitOff) (leBytes 8 (e.toNat + x.pass.toNat * 2 ^ 32)) false

/-- Core `k`'s count stands at P − 1. -/
def dueFor (count : Nat) (x : PendingInput) (k : Nat) : Bool :=
  k ∈ x.cores && BitVec.ofNat 32 (count + 1) = x.pass

/-- Every accepted input whose P − 1 is core `k`'s count is written to it, in the order of acceptance. -/
def State.takeInputs (s : State) (k : Nat) : State :=
  let p := s.partOfKey k
  match (s.part p).plate with
  | none => s
  | some pl =>
    let n := (s.core k).passCount
    let xs := (s.part p).inputs
    let s := (xs.filter fun x => dueFor n x k).foldl (fun s x => s.inputWord k pl x) s
    s.modPart p fun y => { y with
      inputs := (xs.map fun x => if dueFor n x k then { x with cores := x.cores.filter (· ≠ k) } else x).filter
        fun x => x.cores ≠ [] }

end Sys2Proof.Machine
end

