-- ==== Sys2Proof/Machine/Route.lean ====
section
/-! DEFINITION. Routes through the package and the torus (R244 to R254, R517), circuit slot tables (R262), the sending side of
the Ronnen ports (R284 to R289), and host windows (R388, R389). -/

namespace Sys2Proof.Machine

/-! ## The torus (R249, R252) -/

/-- Coordinate of dimension `dim` of a package position. -/
def coord (dim p : Nat) : Nat := if dim = 0 then p % 4 else if dim = 1 then p / 4 % 4 else p / 16

def dimSize (shape : Nat × Nat × Nat) (dim : Nat) : Nat :=
  if dim = 0 then shape.1 else if dim = 1 then shape.2.1 else shape.2.2

/-- The position lies in the shape. -/
def inShape (shape : Nat × Nat × Nat) (p : Nat) : Bool :=
  coord 0 p < shape.1 && coord 1 p < shape.2.1 && coord 2 p < shape.2.2

/-- The next direction from `here` to `dest`, as a role code (0 +X, 1 −X, …); none when they are equal. -/
def nextDir (shape : Nat × Nat × Nat) (here dest : Nat) : Option Nat :=
  ([0, 1, 2].find? fun dim => coord dim here ≠ coord dim dest).map fun dim =>
    let n := dimSize shape dim
    let d := (coord dim dest + n - coord dim here) % n
    2 * dim + (if d ≤ n - d then 0 else 1)

/-- The neighbour of `p` in a direction. -/
def neighbour (shape : Nat × Nat × Nat) (p role : Nat) : Nat :=
  let dim := role / 2
  let n := dimSize shape dim
  let c := coord dim p
  let c' := if role % 2 = 0 then (c + 1) % n else (c + n - 1) % n
  p - c * 4 ^ dim + c' * 4 ^ dim

/-- The link from `p` in a direction is the wrap link of its dimension. -/
def wraps (shape : Nat × Nat × Nat) (p role : Nat) : Bool :=
  let n := dimSize shape (role / 2)
  if role % 2 = 0 then coord (role / 2) p = n - 1 else coord (role / 2) p = 0

/-- The pair that carries a direction. -/
def State.pairOf (s : State) (role : Nat) : Option Nat := (List.range 6).find? fun k => s.pairRole k = role

/-- The quoin of a pair (R276). -/
def pairQuoin (k : Nat) : Nat := (rnnQuoin (2 * k)).1

/-! ## Hops within the package (R244, R245, R250, R251) -/

/-- Directions: 0 north, 1 east, 2 south, 3 west. -/
def stepRouter (f dir : Nat) : Nat :=
  if dir = 0 then f - 9 else if dir = 1 then f + 1 else if dir = 2 then f + 9 else f - 1
def stepDie (d dir : Nat) : Nat :=
  if dir = 0 then d - 8 else if dir = 1 then d + 1 else if dir = 2 then d + 8 else d - 1

/-- The moves along one axis from `a` to `b`: `back` when b is lower. -/
def axis (a b back forth : Nat) : List Nat := List.replicate (a - b) back ++ List.replicate (b - a) forth

/-- Moves on a grid of `w` columns, row first; column first when `colFirst`. -/
def gridMoves (w : Nat) (colFirst : Bool) (a b : Nat) : List Nat :=
  let h := axis (a % w) (b % w) 3 1
  let v := axis (a / w) (b / w) 0 2
  if colFirst then v ++ h else h ++ v

/-- The hops of moves through a mesh from router `f`. -/
def meshHops (die : Nat) : Nat → List Nat → List Hop
  | _, [] => []
  | f, m :: ms => ⟨die, f, m⟩ :: meshHops die (stepRouter f m) ms

/-- The hops of moves from hub crossbar to hub crossbar. -/
def dieHops : Nat → List Nat → List Hop
  | _, [] => []
  | d, m :: ms => ⟨d, 126, m⟩ :: dieHops (stepDie d m) ms

/-- The end of a mesh row nearer to a column: 0 west, 1 east. -/
def nearEnd (f : Nat) : Nat := if f % 9 ≤ 4 then 0 else 1

/-- The router at an end of core f's row. -/
def rowEnd (f side : Nat) : Nat := f / 9 * 9 + 8 * side

/-- The hub link at an end of row r, as an output of the crossbar; its low three bits are the output code 4. -/
def hubOut (row side : Nat) : Nat := 4 + 8 * (2 * row + side)

/-- From a core to its die's crossbar when the first move is `m`: along the row, then the hub link. -/
def leaveDie (d f m : Nat) : List Hop :=
  let side := if m = 1 then 1 else if m = 3 then 0 else nearEnd f
  meshHops d f (gridMoves 9 false f (rowEnd f side)) ++ [⟨d, rowEnd f side, 4⟩]

/-- From a die's crossbar to a core when the last move was `m`. -/
def enterDie (d f m : Nat) : List Hop :=
  let side := if m = 1 then 0 else if m = 3 then 1 else nearEnd f
  ⟨d, 126, hubOut (f / 9) side⟩ :: meshHops d (rowEnd f side) (gridMoves 9 false (rowEnd f side) f)

/-- The moves from a die to the quoin `q`: along its row or column and over the border. -/
def toQuoin (d q : Nat) : List Nat :=
  if q = 0 then List.replicate (d / 8 + 1) 0 else if q = 1 then List.replicate (8 - d % 8) 1
  else if q = 2 then List.replicate (8 - d / 8) 2 else List.replicate (d % 8 + 1) 3

/-- The border die by which traffic from quoin `q` to die `d` enters, and the moves from it to `d`. -/
def fromQuoin (q d : Nat) : Nat × List Nat :=
  if q = 0 then (d % 8, List.replicate (d / 8) 2) else if q = 1 then (d / 8 * 8 + 7, List.replicate (7 - d % 8) 3)
  else if q = 2 then (56 + d % 8, List.replicate (7 - d / 8) 0) else (d / 8 * 8, List.replicate (d % 8) 1)

/-- The move by which traffic enters the grid from a quoin. -/
def entryMove (q : Nat) : Nat := if q = 0 then 2 else if q = 1 then 3 else if q = 2 then 0 else 1

/-- The quoin switch's output to a border die. -/
def quoinOut (q d : Nat) : Hop := ⟨64 + q, 127, entryMove q + 8 * (if q = 0 ∨ q = 2 then d % 8 else d / 8)⟩

/-- The quoin switch's output to a Ronnen port of pair `k`: 5 the first port, 6 the second. -/
def portHop (k j : Nat) : Hop := ⟨64 + pairQuoin k, 127, 5 + j + 8 * k⟩

/-- The attach die of a quoin (R517). -/
def attachDie (q : Nat) : Nat := if q = 1 then 7 else if q = 2 then 56 else 0

/-- An endpoint inside a package: a core, a hub crossbar, a quoin switch, and the way out by quoin `q` of traffic for die `d` of
another package. -/
inductive Endp where
  | core (d f : Nat)
  | hub (d : Nat)
  | quoin (q : Nat)
  | exit (q d : Nat)
deriving DecidableEq, Repr

/-- The moves from a die to a quoin as a destination: to its attach die, and over that die's bridge (R517). -/
def toAttach (colFirst : Bool) (d q : Nat) : List Nat := gridMoves 8 colFirst d (attachDie q) ++ toQuoin (attachDie q) q

/-- Where traffic stands: at a core about to inject, at a die's crossbar, at a quoin switch. -/
abbrev At := Endp

/-- The hops from `a` to `b` within the package; `colFirst` as R254 gives. -/
def hopsTo (colFirst : Bool) (a b : Endp) : List Hop :=
  match a, b with
  | .core d f, .core d' f' =>
    if d = d' then meshHops d f (gridMoves 9 false f f')
    else
      let ms := gridMoves 8 colFirst d d'
      leaveDie d f (ms.headD 0) ++ dieHops d ms ++ enterDie d' f' (ms.getLastD 0)
  | .core d f, .hub d' =>
    let ms := gridMoves 8 colFirst d d'
    leaveDie d f (ms.headD 0) ++ dieHops d ms
  | .core d f, .quoin q => let ms := toAttach colFirst d q; leaveDie d f (ms.headD 0) ++ dieHops d ms
  | .core d f, .exit q _ => let ms := toQuoin d q; leaveDie d f (ms.headD 0) ++ dieHops d ms
  | .hub d, .core d' f' => let ms := gridMoves 8 colFirst d d'; dieHops d ms ++ enterDie d' f' (ms.getLastD 0)
  | .hub d, .hub d' => dieHops d (gridMoves 8 colFirst d d')
  | .hub d, .quoin q => dieHops d (toAttach colFirst d q)
  | .hub d, .exit q _ => dieHops d (toQuoin d q)
  | .quoin q, .core d' f' =>
    let (b, ms) := fromQuoin q d'
    quoinOut q b :: dieHops b ms ++ enterDie d' f' (entryMove q)
  | .quoin q, .hub d' => let (b, ms) := fromQuoin q d'; quoinOut q b :: dieHops b ms
  | .quoin q, .quoin q' =>
    if q = q' then []
    else
      let (b, ms) := fromQuoin q (attachDie q')
      quoinOut q b :: dieHops b (ms ++ toQuoin (attachDie q') q')
  | .quoin q, .exit q' d' =>
    if q = q' then [] else let b := (fromQuoin q d').1; quoinOut q b :: dieHops b (toQuoin b q')
  | .exit _ _, _ => []

/-- The endpoint of a fabric address. An address of a folio die that names no core is the hub's to receive (R248). -/
def endpOf (daddr : Nat) : Endp :=
  let die := bits daddr 35 7
  if 64 ≤ die then .quoin (die - 64)
  else if 18 ≤ bits daddr 28 5 then .hub die
  else .core die (bits daddr 33 2 * 18 + bits daddr 28 5)

/-- The die by which traffic for an address of another package chooses its way (R252, R517). -/
def exitDie (daddr : Nat) : Nat := match endpOf daddr with | .core d _ => d | .hub d => d | .quoin q => attachDie q | .exit _ d => d

/-- The endpoint that a 20-bit source name stands at: a core, a hub, or the quoin of a host bridge (DESIGN CHOICE, log 21). -/
def endpOfSrc (a : BitVec 20) : Endp :=
  if 64 ≤ a20Die a then .quoin (a20Die a - 64)
  else if 72 ≤ a20Core a then .hub (a20Die a)
  else .core (a20Die a) (a20Core a)

/-! ## Circuit slots (R262, R263, R365) -/

/-- The key of a hop output. -/
def hopKey (h : Hop) : Nat := (h.die * 128 + h.router) * 256 + h.out

/-- No hop of a way is fenced or out of use, nor the crossbar where it ends. -/
def State.wayOpen (s : State) (b : Endp) (r : List Hop) : Bool :=
  (r.all fun h => hopKey h ∉ s.badHops ++ s.loopHops) &&
  (match b with | .hub d => decide (hopKey ⟨d, 126, hubOut 0 0⟩ ∉ s.badHops) | _ => true)

/-- The hops from `a` to `b` in force: row first, column first where that meets a fenced resource; none where both do
(R254). -/
def State.route (s : State) (a b : Endp) : Option (List Hop) :=
  [hopsTo false a b, hopsTo true a b].find? (s.wayOpen b)

/-- What owns slot `i` of a hop: 0 nobody. -/
def State.slotOwner (s : State) (h : Hop) (i : Nat) : Nat := Tbl.get 0 s.slots (hopKey h * 32 + i)

/-- The owner number of circuit `circ` of core `src`. -/
def ownerOf (src : BitVec 20) (circ : BitVec 12) : Nat := src.toNat * 2 ^ 12 + circ.toNat + 1

/-- Slots that a circuit may still take: circuits own at most 24 of a table. -/
def State.freeSlots (s : State) (h : Hop) : Nat :=
  24 - ((List.range 32).filter fun i => s.slotOwner h i ≠ 0).length

/-- `n` slots of a hop given to an owner, taken from the numbers in `order`. -/
def State.takeSlots (s : State) (h : Hop) (owner n : Nat) (order : List Nat) : State :=
  ((order.filter fun i => s.slotOwner h i = 0).take n).foldl
    (fun s i => { s with slots := Tbl.set 0 s.slots (hopKey h * 32 + i) owner }) s

/-- Every slot of an owner freed on the hops that `p` accepts. -/
def State.freeOwner (s : State) (owner : Nat) (p : Nat → Bool) : State :=
  { s with slots := s.slots.filter fun e => !(e.2 = owner && p (e.1 / 32)) }

/-- The first hop of a route that lacks `n` free slots. -/
def State.blockedHop (s : State) (n : Nat) (r : List Hop) : Option Hop := r.find? fun h => s.freeSlots h < n

/-! ## Ronnen ports: sending (R284 to R289) -/

def State.rport (s : State) (p : Nat) : RPort := Tbl.get RPort.reset s.rports p
def State.modRport (s : State) (p : Nat) (f : RPort → RPort) : State :=
  { s with rports := Tbl.set RPort.reset s.rports p (f (s.rport p)) }

/-- `RNN_STATUS.STATE` (R293). -/
def State.rnnState (s : State) (p : Nat) : Nat := s.fld (aRnn p 8) 0 4
def State.setRnnState (s : State) (p x : Nat) : State := s.setFld (aRnn p 8) 0 4 x

/-- Buffer capacity of class c = 2 × VC + SET (R286). -/
def rnnCap (c : Nat) : Nat := if c < 2 then 48 else if c < 6 then 64 else 16

/-- A packet as flits of one buffer class (R283, R285). -/
def flitsOf (cls : Nat) (p : Packet) : List FlitBody :=
  let n := max 1 ((p.payload.length + 255) / 256)
  (List.range n).map fun i =>
    let c := (p.payload.drop (256 * i)).take 256
    ⟨cls, i = 0, i + 1 = n, if i = 0 then p.hdr else 0, c ++ List.replicate (256 - c.length) 0, p.replayed⟩

/-- A flit put on the lanes, with what the receiver of this port has to report: ACKSEQ, NAK, at most 63 credits of each class
(R284, R288 to R290). `again`: it comes from the replay buffer. -/
def RPort.putFlit (p : RPort) (ftype seq : Nat) (body : FlitBody) (again : Bool) : RPort :=
  let give := (List.range 8).map fun c => min 63 (Tbl.get 0 p.cret c)
  { p with
    wire := p.wire ++ [(⟨ftype, seq, body, (p.rxNext + 65535) % 65536, p.rxAny, p.nakOut, give, again || body.marked⟩ : WireFlit)]
    cret := (List.range 8).foldl (fun t c => Tbl.set 0 t c (Tbl.get 0 t c - 63)) p.cret }

/-! Arbitration of a port (R259, R262, R285): each flit time of the frame serves the circuit that owns its slot, or else the
channels in turn; within a channel the oldest packet, and one packet at a time. The frame is counted in DATA flits (DESIGN
CHOICE, log 106). -/

/-- The packet of header `a` is older than that of `b`; equal ages go to the lower SRC. -/
def olderHdr (a b : Wide) : Bool :=
  let d := (getW b 192 32 + 2 ^ 32 - getW a 192 32) % 2 ^ 32
  (1 ≤ d && d < 2 ^ 31) || (d = 0 && getW a 128 20 < getW b 128 20)

/-- The owner number of the circuit that a packet rides; 0: none. -/
def riderOf (h : Wide) : Nat :=
  if getW h 34 1 = 1 then ownerOf (BitVec.ofNat 20 (getW h 128 20)) (BitVec.ofNat 12 (getW h 22 12)) else 0

/-- A flit's class has a credit (R288). -/
def RPort.hasCredit (p : RPort) (b : FlitBody) : Bool := Tbl.get 0 p.used b.cls < rnnCap b.cls

/-- The next flit of channel `v` among packets that `ok` accepts: of the packet in progress, or the first of the oldest. -/
def RPort.nextOf (p : RPort) (v : Nat) (ok : Wide → Bool) : Option FlitBody :=
  match Tbl.get none p.sending v with
  | some h => if ok h then (p.txWait.find? fun b => b.cls / 2 = v && !b.first).filter p.hasCredit else none
  | none => (p.txWait.filter fun b => b.cls / 2 = v && b.first && p.hasCredit b && ok b.hdr).foldl
      (fun best b => match best with
        | none => some b
        | some a => if olderHdr b.hdr a.hdr then some b else some a) none

/-- The flit of the next flit time, with the channel that had its turn. -/
def RPort.pick (owner : Nat → Nat) (p : RPort) : Option (FlitBody × Nat) :=
  let mine := if owner p.slot = 0 then none else p.nextOf 0 fun h => riderOf h = owner p.slot
  match mine with
  | some b => some (b, p.turn)
  | none => [1, 2, 3, 4].findSome? fun i => (p.nextOf ((p.turn + i) % 4) fun _ => true).map fun b => (b, (p.turn + i) % 4)

/-- The rest of a packet of channel `v` among the flits after its first, and what stays. -/
def pullRest (v : Nat) : List FlitBody → List FlitBody × List FlitBody
  | [] => ([], [])
  | x :: xs =>
    if x.cls / 2 ≠ v then let r := pullRest v xs; (r.1, x :: r.2)
    else if x.last then ([x], xs)
    else let r := pullRest v xs; (x :: r.1, r.2)

/-- The waiting flits without `b`; the rest of a packet that begins with `b` comes to the front. -/
def takeFlit (b : FlitBody) (l : List FlitBody) : List FlitBody :=
  let i := l.idxOf b
  let r := if b.first && !b.last then pullRest (b.cls / 2) (l.drop (i + 1)) else ([], l.drop (i + 1))
  r.1 ++ l.take i ++ r.2

/-- A DATA flit goes on the lanes for the first time (R288, R289). -/
def RPort.putNew (p : RPort) (b : FlitBody) : RPort :=
  { p.putFlit 1 p.txSeq b false with
    txSeq := (p.txSeq + 1) % 2 ^ 16
    replay := p.replay ++ [(⟨p.txSeq, b⟩ : TxFlit)]
    used := Tbl.set 0 p.used b.cls (Tbl.get 0 p.used b.cls + 1) }

/-- A waiting flit goes; the frame moves on. -/
def RPort.sendFlit (p : RPort) (b : FlitBody) (turn : Nat) : RPort :=
  let v := b.cls / 2
  { p.putNew b with
    txWait := takeFlit b p.txWait
    slot := (p.slot + 1) % 32
    turn := turn
    sending := if b.last then Tbl.set none p.sending v none else if b.first then Tbl.set none p.sending v (some b.hdr) else p.sending }

/-- At most `n` waiting flits go: those that have a credit, while the replay buffer has room. -/
def RPort.drain (owner : Nat → Nat) : Nat → RPort → RPort
  | 0, p => p
  | n + 1, p =>
    if 512 ≤ p.replay.length then p
    else match p.pick owner with
    | none => p
    | some (b, turn) => RPort.drain owner n (p.sendFlit b turn)

/-- The owner of slot `i` of port p's frame. -/
def State.portSlot (s : State) (p i : Nat) : Nat := s.slotOwner (portHop (p / 2) (p % 2)) i

/-- A port of the pair is in loop-back: neither carries traffic (R301). -/
def State.pairLooped (s : State) (k : Nat) : Bool := s.rnnState (2 * k) = 8 || s.rnnState (2 * k + 1) = 8

/-- A port in ACTIVE sends what it can. -/
def State.rnnPump (s : State) (p : Nat) : State :=
  if s.rnnState p = 5 && !s.pairLooped (p / 2) then
    s.modRport p fun r =>
      let q := RPort.drain (s.portSlot p) r.txWait.length r
      { q with lastAckTick := if r.replay = [] then s.tick else q.lastAckTick }
  else s

/-- The port that the next packet of pair `k` takes (R253): the two in turn, passing over one that is down. A pair with a
port in loop-back carries no traffic (R301). -/
def State.choosePort (s : State) (k : Nat) : Option Nat :=
  if s.pairLooped k then none else
  let up := fun p => s.rnnState p = 5 && !(s.rport p).heldDown
  let first := if Tbl.get 0 s.rnnTurn k = 0 then 2 * k else 2 * k + 1
  let other := if first = 2 * k then 2 * k + 1 else 2 * k
  if up first then some first else if up other then some other
  else if s.rnnState first ∉ [0, 7] then some first
  else if s.rnnState other ∉ [0, 7] then some other
  else none

/-- The port whose slots circuit `owner` holds, while it is not down: a circuit keeps the port chosen at its open (R253). -/
def State.circPort (s : State) (k owner : Nat) : Option Nat :=
  if owner = 0 || s.pairLooped k then none
  else [2 * k, 2 * k + 1].find? fun p => s.rnnState p ∉ [0, 7] && (List.range 32).any fun i => s.portSlot p i = owner

/-- A packet sent out of the package by the pair of its next direction; the turn passes to the port's partner, unless the packet
rides a circuit. -/
def State.portSend (s : State) (k port : Nat) (p : Packet) (role : Nat) : State :=
  let wrap := wraps s.shape s.position role
  let hdr := if wrap then putW p.hdr (6 + role / 2) 1 1 else p.hdr
  let cls := 2 * getW hdr 4 2 + getW hdr (6 + role / 2) 1
  let s := if getW hdr 34 1 = 1 then s else { s with rnnTurn := Tbl.set 0 s.rnnTurn k (if port = 2 * k then 1 else 0) }
  let s := s.modRport port fun r => { r with txWait := r.txWait ++ flitsOf cls { p with hdr := hdr } }
  s.rnnPump port

/-! ## Host windows (R388, R389) -/

/-- The function whose windows serve partition p: its primary function. 64 stands for the package error ring, served
through PF0 of the carrying port (R455), port 0 unless it has failed. -/
def State.hostFunc (s : State) (p : Nat) : Option (Nat × Nat) :=
  if p = 64 then some (if s.fld (aPort 0 0) 9 1 = 1 then 1 else 0, 0) else s.partFunc p

/-- BASE and the control word of window `w` of the partition's primary function. -/
def State.window (s : State) (p w : Nat) : Option (Nat × Word) :=
  if 16 ≤ w then none
  else match s.hostFunc p with
  | none => none
  | some (b, f) => some ((s.rd (aFn b f (0x100 + 16 * w))).toNat, s.rd (aFn b f (0x108 + 16 * w)))

def winSize (ctl : Word) : Nat := ctl.toNat / 4096 * 4096

/-- The check of a host range that ends at `hi` (none: no byte): DONE, HANDLE_FAULT or EXTENT_FAULT. -/
def State.winCheck (s : State) (p w : Nat) (hi : Option Nat) (rd wr : Bool) : Nat :=
  match s.window p w with
  | none => cHANDLE
  | some (_, ctl) =>
    if winSize ctl = 0 ∨ (rd ∧ getF ctl 0 1 = 0) ∨ (wr ∧ getF ctl 1 1 = 0) then cHANDLE
    else match hi with
    | some h => if winSize ctl ≤ h then cEXTENT else cDONE
    | none => cDONE

/-- Bus address of byte `off` of a window. -/
def State.winAddr (s : State) (p w off : Nat) : Nat := match s.window p w with | some (b, _) => b + off | none => off

/-- The port and function that carry partition p's traffic now: `HOST_FN.ACTIVE` (R382, R408). -/
def State.carrier (s : State) (p : Nat) : Option (Nat × Nat) :=
  match s.hostFunc p with
  | none => none
  | some (b, f) =>
    if p = 64 ∨ s.fld (aFn b f 0) 8 1 = 1 then some (b, f)
    else if s.fld (aFn (1 - b) f 0) 8 1 = 1 ∧ s.fld (aFn (1 - b) f 0) 1 6 = p then some (1 - b, f) else none

end Sys2Proof.Machine
end

