-- ==== Sys2Proof/Machine/Journal.lean ====
section
/-! DEFINITION. The delivery buffers (R235, R402), the input journal and its replay (R321 to R324), and the inputs that take
effect at a pass: slot map writes and edition commits (R330 to R333, R350, R396). -/

namespace Sys2Proof.Machine

/-! ## Delivery buffers -/

def State.pport (s : State) (b : Nat) : PPort := Tbl.get PPort.reset s.pports b
def State.modPport (s : State) (b : Nat) (f : PPort → PPort) : State :=
  { s with pports := Tbl.set PPort.reset s.pports b (f (s.pport b)) }

/-- The configuration of function f of port b. -/
def State.fnCfg (s : State) (b f : Nat) : FnCfg := Tbl.get FnCfg.reset (s.pport b).cfg f
def State.modFnCfg (s : State) (b f : Nat) (g : FnCfg → FnCfg) : State :=
  s.modPport b fun p => { p with cfg := Tbl.set FnCfg.reset p.cfg f (g (s.fnCfg b f)) }

/-- Bytes in a port's delivery buffer: writes that have not left and those retained (R402, R411). -/
def PPort.heldBytes (p : PPort) : Nat := ((p.buf ++ p.retained).map fun e => e.2.bytes.length).sum

/-- The buffer of 256 KiB has room for `n` bytes more, and nothing waits for it. -/
def PPort.room (p : PPort) (n : Nat) : Bool := p.queued.isEmpty && p.heldBytes + n ≤ 262144

/-- A write enters port b's buffer, behind every earlier one, or waits until it has room (R402; log 113). -/
def State.enterWrite (s : State) (b : Nat) (w : DlvWrite) : State :=
  s.modPport b fun p =>
    if p.room w.bytes.length then { p with buf := p.buf ++ [(p.entered, w)], entered := p.entered + 1 }
    else { p with queued := p.queued ++ [(p.entered, w)], entered := p.entered + 1 }

/-- Writes that wait enter the buffer in order, while it has room. -/
def fillFrom : List (Nat × DlvWrite) → PPort → PPort
  | [], p => { p with queued := [] }
  | e :: es, p =>
    if p.heldBytes + e.2.bytes.length ≤ 262144 then fillFrom es { p with buf := p.buf ++ [e] } else { p with queued := e :: es }

def PPort.fill (p : PPort) : PPort := fillFrom p.queued p

/-- A write of the device's own for partition p, by the port that carries it now; none where no port does. -/
def State.deviceWrite (s : State) (p win off : Nat) (bytes : List Byte) : State :=
  match s.carrier p with
  | some (b, _) => s.enterWrite b ⟨p, win, off, bytes, false, none, none, false⟩
  | none => s

/-! ## Pass counts (R321, R331, R332) -/

/-- The pass core of part p: the lowest started core of the lowest folio. -/
def State.passCore (s : State) (p : Nat) : Option Nat :=
  match s.started p with
  | [] => none
  | k :: ks => some (ks.foldl min k)

/-- The low 32 bits of a core's pass count. -/
def State.passOf (s : State) (k : Nat) : BitVec 32 := BitVec.ofNat 32 (s.core k).passCount

/-- The low 32 bits of the pass core's count. -/
def State.passNow (s : State) (p : Nat) : BitVec 32 := match s.passCore p with | some k => s.passOf k | none => 0

/-! ## The journal (R321 to R323) -/

def digest128 (bs : List Byte) : Nat := leNat (shake256 bs 16)

def jnlBytes (e : JnlEntry) : List Byte :=
  leBytes 8 e.tick ++ leBytes 4 e.pass.toNat ++ [BitVec.ofNat 8 e.kind, if e.dig then 1 else 0] ++ leBytes 2 e.source ++
    leBytes 16 e.data

/-- A recorded entry read back. -/
def jnlOf (bs : List Byte) : JnlEntry :=
  ⟨leAt bs 0 8, BitVec.ofNat 32 (leAt bs 8 4), leAt bs 12 1, leAt bs 13 1 = 1, leAt bs 14 2, leAt bs 16 16⟩

/-- An entry written to the live journal; a full ring overwrites its oldest and sets OVERRUN. -/
def State.jnlAppend (s : State) (p : Nat) (e : JnlEntry) : State :=
  if s.fld (aJnl p 0) 0 1 = 0 then s
  else
    let n := 2 ^ s.fld (aJnl p 0) 16 5
    let head := s.rd (aJnl p 0x10)
    let s := if n ≤ (head - s.rd (aJnl p 0x18)).toNat then s.setFld (aJnl p 0) 2 1 1 else s
    (s.wr (aJnl p 0x10) (head + 1)).deviceWrite p (s.fld (aJnl p 0) 8 8)
      ((s.rd (aJnl p 0x08)).toNat + head.toNat % n * 32) (jnlBytes e)

/-! ## Replay (R324) -/

/-- Inputs of partition p are matched against its recorded journal. -/
def State.replaying (s : State) (p : Nat) : Bool :=
  s.fld (aJnl p 0) 1 1 = 1 && s.fld (aJnl p 0) 3 1 = 0 && (s.rd (aJnl p 0x30)).toNat < (s.rd (aJnl p 0x28)).toNat

/-- The next recorded entry, once it has been read. -/
def State.nextRecorded (s : State) (p : Nat) : Option JnlEntry :=
  ((s.part p).recorded.find? fun e => e.1 = (s.rd (aJnl p 0x30)).toNat).map (·.2)

/-- An input of partition p waits: the recorded pass is still to begin, or its entry still to be read. -/
def State.replayHolds (s : State) (p : Nat) : Bool :=
  s.replaying p && match s.nextRecorded p with
    | some e => passAbove e.pass (s.passNow p)
    | none => true

/-- The pass core's `PASS` waits for a recorded entry with an earlier pass. -/
def State.passHeld (s : State) (k : Nat) : Bool :=
  let p := s.partOfKey k
  s.passCore p = some k && s.replaying p && match s.nextRecorded p with
    | some e => !passAbove e.pass (s.passNow p)
    | none => true

/-- An accepted input is compared with the next recorded entry. -/
def State.replayNote (s : State) (p : Nat) (e : JnlEntry) : State :=
  match s.replaying p, s.nextRecorded p with
  | true, some r =>
    if r.kind = e.kind ∧ r.source = e.source ∧ r.data = e.data then s.wr (aJnl p 0x30) (s.rd (aJnl p 0x30) + 1)
    else (s.setFld (aJnl p 0) 3 1 1).raiseOpen
      { ErrRec.base with cls := 1, source := 0x63, part := p, detail := (s.rd (aJnl p 0x30)).toNat }
  | _, _ => s

/-- Something waits behind what replay mode holds back already. -/
def State.holdBack (s : State) (p : Nat) (x : HeldInput) : State := s.modPart p fun q => { q with held := q.held ++ [x] }

/-- An input accepted by the context of partition p. Its matching waits while the recorded entry is still to be read. -/
def State.journal (s : State) (p kind : Nat) (dig : Bool) (source data : Nat) : State :=
  let e : JnlEntry := ⟨s.tick, s.passNow p, kind, dig, source, data⟩
  let s := if s.replaying p && (s.nextRecorded p).isNone then s.holdBack p (.note e) else s.replayNote p e
  s.jnlAppend p e

/-- An input of partition p must wait: replay mode holds it, or an earlier one. -/
def State.mustWait (s : State) (p : Nat) : Bool := s.replayHolds p || (s.part p).held ≠ []

/-! ## Inputs that take effect at a pass -/

/-- KIND, SOURCE and DATA of an input's journal entry. -/
def inputEntry (x : PassInput) (P : BitVec 32) : Nat × Nat × Nat :=
  match x with
  | .slotWord w v => (2, w, v.toNat + P.toNat * 2 ^ 64)
  | .commit e => (6, 0, e.toNat + P.toNat * 2 ^ 64)

/-- An input of pass P reaches every started core that stands at P − 1, or is late there and then recorded; the rest wait
(R331, R333). -/
def State.spread (s : State) (p : Nat) (pl : Plate) (x : PassInput) (P : BitVec 32) : State :=
  let y : PendingInput := ⟨P, x, pl.started⟩
  let early := pl.started.filter fun k => !passAbove P (s.passOf k)
  let now := pl.started.filter fun k => dueFor (s.core k).passCount y k || !passAbove P (s.passOf k)
  let s := now.foldl (fun s k => s.inputWord k pl y) s
  let s := early.foldl (fun s k => s.raise (s.coreRec k 1 0x62 (BitVec.ofNat 16 cFORMAT))) s
  let rest := pl.started.filter (· ∉ now)
  if rest = [] then s else s.modPart p fun q => { q with inputs := q.inputs ++ [{ y with cores := rest }] }

/-- The pass that an input names: 0 stands for the next. -/
def State.namedPass (s : State) (p : Nat) (named : BitVec 32) : BitVec 32 := if named = 0 then s.passNow p + 1 else named

/-- An input is accepted, or refused with TIMED_OUT (R331). -/
def State.accept (s : State) (p : Nat) (x : PassInput) (named : BitVec 32) : Nat × State :=
  let P := s.namedPass p named
  match (s.part p).plate, passAbove P (s.passNow p) with
  | some pl, true =>
    let e := inputEntry x P
    let s := s.journal p e.1 false e.2.1 e.2.2
    let s := match x with
      | .slotWord w v => s.wr (aCtxSlotmap p w) v
      | .commit _ => s.setFld (aCtx p 0x30) 32 32 P.toNat
    (cDONE, s.spread p pl x P)
  | _, _ => (cTIMEDOUT, s)

/-- The word would admit a slot at or above SLOTS (R330). -/
def overSlots (slots w : Nat) (v : Word) : Bool := v.toNat / 2 ^ (slots - 64 * w) ≠ 0

/-- A write of slot map word `w` (R330, R396). -/
def State.slotInput (s : State) (p w : Nat) (v : Word) (named : BitVec 32) : Nat × State :=
  match (s.part p).plate with
  | none => (cHANDLE, s)
  | some pl =>
    if s.ctxState p ∉ [2, 3, 4] then (cHANDLE, s)
    else if overSlots pl.slots w v then (cFORMAT, s)
    else s.accept p (.slotWord w v) named

/-- `PKG_CTX_CTRL.LAST_STATUS`. -/
def State.ctxSays (s : State) (p code : Nat) : State := s.setFld (aCtx p 0) 16 8 code

/-- A commit of the loaded edition (R350, R352). -/
def State.commitInput (s : State) (p : Nat) (e named : BitVec 32) : State :=
  match (s.part p).pending with
  | none => s.ctxSays p cEDITION
  | some m =>
    if s.edload p ≠ 2 ∨ m.number ≠ e then s.ctxSays p cEDITION
    else
      let r := s.accept p (.commit e) named
      if r.1 = cDONE then
        ((r.2.modPart p fun q => { q with fencesLeft := s.started p }).setEdload p 3).ctxSays p cDONE
      else s.ctxSays p r.1

/-- An input by a register. A refused slot map write is ignored: no field reports it (DEDUCED, log 29). -/
def State.input (s : State) (p : Nat) (x : PassInput) (named : BitVec 32) : State :=
  match x with
  | .slotWord w v => (s.slotInput p w v named).2
  | .commit e => s.commitInput p e named

/-- An input by a register, held back while replay mode says so (R324). -/
def State.inputOrHold (s : State) (p : Nat) (x : PassInput) (named : BitVec 32) : State :=
  if s.mustWait p then s.holdBack p (.input x named) else s.input p x named

/-- A note is matched as soon as its recorded entry has been read; an input waits for its pass too. -/
def State.heldWaits (s : State) (p : Nat) (x : HeldInput) : Bool :=
  match x with | .note _ => s.replaying p && (s.nextRecorded p).isNone | _ => s.replayHolds p

/-- Inputs held back are taken in order for as long as none waits; `act` takes those that are no inputs of a register, or leaves
them. -/
def takeHeld (p : Nat) (act : HeldInput → State → Option State) : List HeldInput → State → State
  | [], s => s.modPart p fun q => { q with held := [] }
  | x :: xs, s =>
    let keep := s.modPart p fun q => { q with held := x :: xs }
    if s.heldWaits p x then keep
    else match x with
    | .input y named => takeHeld p act xs (s.input p y named)
    | .note e => takeHeld p act xs (s.replayNote p e)
    | _ => match act x s with
      | some s => takeHeld p act xs s
      | none => keep

/-- The pass core of a part has begun a pass. -/
def State.passBegun (s : State) (k : Nat) : State :=
  let p := s.partOfKey k
  if s.passCore p = some k then takeHeld p (fun _ _ => none) (s.part p).held s else s

end Sys2Proof.Machine
end

