-- ==== Sys2Proof/Machine/Compositor.lean ====
section
/-! DEFINITION. The compositor (06_compositor.md): fetch, the 33 instructions, faults, loops, pushing, waiting, start and stop. -/

namespace Sys2Proof.Machine

/-! ## Registers (R150, R151) -/

/-- Scalar register r; s0 reads zero and discards writes. -/
def Core.rdS (c : Core) (r : BitVec 5) : Word := if r = 0 then 0 else Tbl.get 0 c.sreg r.toNat
def Core.wrS (c : Core) (r : BitVec 5) (v : Word) : Core :=
  if r = 0 then c else { c with sreg := Tbl.set 0 c.sreg r.toNat v }
/-- Predicate register p; p0 reads true and discards writes. -/
def Core.rdP (c : Core) (p : BitVec 3) : Bool := p = 0 || c.pred.getLsbD p.toNat
def Core.wrP (c : Core) (p : BitVec 3) (b : Bool) : Core :=
  if p = 0 then c
  else { c with pred := if b then c.pred ||| (1#8 <<< p.toNat) else c.pred &&& ~~~(1#8 <<< p.toNat) }
def Core.rdLc (c : Core) (n : BitVec 2) : BitVec 32 := Tbl.get 0 c.lc n.toNat

/-! ## Loops (R160, R163) -/

/-- The step of the loops that end at address `a`, innermost first: the levels left, and where execution returns to. -/
def stepLoops (a : Nat) : List LoopLevel → List LoopLevel × Option Nat
  | [] => ([], none)
  | l :: ls =>
    if l.last = a then (if 1 < l.Q then ({ l with Q := l.Q - 1 } :: ls, some l.first) else stepLoops a ls)
    else (l :: ls, none)

def LoopLevel.holds (l : LoopLevel) (a : Nat) : Bool := l.first ≤ a && a ≤ l.last

/-- The levels that a branch to `a` leaves active. -/
def keepLoops (a : Nat) (ls : List LoopLevel) : List LoopLevel := (ls.reverse.takeWhile fun l => l.holds a).reverse

/-- The instruction at address `a` is complete and execution goes on after it (R160). -/
def Core.goOn (c : Core) (a : Nat) : Core :=
  let (ls, r) := stepLoops a c.loops
  { c with loops := ls, pc := BitVec.ofNat 22 (r.getD (a + 4)), retired := c.retired + 1, stall := .none }

/-- A taken branch (R163). -/
def Core.jump (c : Core) (t : BitVec 22) : Core :=
  { c with loops := keepLoops t.toNat c.loops, pc := t, retired := c.retired + 1, stall := .none }

/-! ## Fetch (R175 to R178) -/

def Core.inWindow (c : Core) (a : Nat) : Bool := c.codeBase.toNat ≤ a && a < c.codeLimit.toNat
def Core.cached (c : Core) (line : Nat) : Option (List Byte) := (c.icache.find? (·.1 = line)).map (·.2)

/-- A line used: it becomes the most recently used (R175). -/
def Core.useLine (c : Core) (line : Nat) : Core :=
  { c with icache := c.icache.filter (·.1 ≠ line) ++ c.icache.filter (·.1 = line) }

/-- A line is requested when it lies in the window and is neither present nor requested already (R176, R177). -/
def Core.want (c : Core) (line : Nat) : Core :=
  if c.inWindow (line * 128) ∧ (c.cached line).isNone ∧ line ∉ c.fills then { c with fills := c.fills ++ [line] } else c

/-- The least recently used line of a full set leaves (R175: 64 sets of 4 ways, set by address bits [12:7]). -/
def evict (line : Nat) (l : List (Nat × List Byte)) : List (Nat × List Byte) :=
  if (l.filter fun e => e.1 % 64 = line % 64).length < 4 then l
  else l.eraseP fun e => e.1 % 64 = line % 64

/-- A line arrives with its bytes. Outstanding `PRIME`s end oldest first: one that is filled before an older one stays until that
is filled too (R177). -/
def Core.install (c : Core) (line : Nat) (bs : List Byte) : Core :=
  { c with
    icache := evict line (c.icache.filter (·.1 ≠ line)) ++ [(line, bs)]
    fills := c.fills.filter (· ≠ line)
    primes := (c.primes.map (·.filter (· ≠ line))).dropWhile (· = [])
    stall := if c.stall = .fetch line then .none else c.stall }

/-- The 32-bit word at byte `o` of a line. -/
def lineWord (bs : List Byte) (o : Nat) : BitVec 32 := BitVec.ofNat 32 (leNat ((bs.drop o).take 4))

/-- The opcodes of R154. -/
def opListed (w : BitVec 32) : Bool :=
  let op := w.toNat / 2 ^ 26
  op ≤ 0x0D || (0x10 ≤ op && op ≤ 0x12) || (0x18 ≤ op && op ≤ 0x1B) || (0x20 ≤ op && op ≤ 0x25) || op = 0x28 ||
    op = 0x29 || op = 0x3F

/-! ## One instruction -/

/-- What an instruction does: `done` and execution goes on, `skip` over a loop body whose last address is given, `jump`,
a fault (R155), a stall, a halt. -/
inductive IRes where
  | done (s : State)
  | skip (s : State) (last : Nat)
  | jump (s : State) (t : BitVec 22)
  | fault (code : Nat)
  | wait (s : State) (x : Stall)
  | halt

/-- The result of an instruction at the program counter of core `k`, applied to `s`. After `HALT` the program counter is at the next
instruction, where a start goes on, and `CMP_STATUS.ADDR` names the `HALT` (DESIGN CHOICE, log 56). -/
def State.retire (s : State) (k : Nat) (r : IRes) : State :=
  let a := (s.core k).pc.toNat
  match r with
  | .done s' => s'.modCore k fun c => c.goOn a
  | .skip s' last => s'.modCore k fun c => c.goOn last
  | .jump s' t => s'.modCore k fun c => c.jump t
  | .fault code => s.cmpFault k code
  | .wait s' x => s'.modCore k fun c => { c with stall := x }
  | .halt => s.modCore k fun c => { (c.goOn a).halt cDONE false with haltAddr := c.pc, haltDepth := c.loops.length }

/-- The compositor of core `k` can execute: it runs, the core is not frozen, and it is not stalled but for a stall that
`again` accepts, whose instruction is tried again. -/
def Core.ready (c : Core) (again : Stall → Bool) : Bool := c.run && !c.frozen && (c.stall = .none || again c.stall)

/-- The word at the program counter is `w`, as the cached line holds it: the cache is the only source of instructions (R175) and
does not follow writes to the program store (R178). -/
def State.fetchMatch (s : State) (k : Nat) (bs : List Byte) (w : BitVec 32) : Bool :=
  w = lineWord bs ((s.core k).pc.toNat % 128)

/-! ## The program store's queue (R176) -/

/-- Requests whose core no longer waits for the line leave. -/
def State.pruneLines (s : State) : State := { s with lineQ := s.lineQ.filter fun e => e.2 ∈ (s.core e.1).fills }

/-- The lines that core `k` has asked for join the queue behind every earlier request. -/
def State.queueLines (s : State) (k : Nat) : State :=
  { s with lineQ := s.lineQ ++ ((s.core k).fills.filter fun l => (k, l) ∉ s.lineQ).map fun l => (k, l) }

/-- The oldest request to the program store of die `d`. -/
def State.oldestLine (s : State) (d : Nat) : Option (Nat × Nat) :=
  s.lineQ.find? fun e => keyDie e.1 = d && e.2 ∈ (s.core e.1).fills

/-- The fetch at the program counter: its line is used, the next one asked for (R176). -/
def Core.fetched (c : Core) : Core := (c.useLine (c.pc.toNat / 128)).want (c.pc.toNat / 128 + 1)

/-- Core `k` executes the instruction whose word is `w`, if that is what it fetches; `act` is its effect. A word that the
compositor would not fetch here is no step of it. -/
def State.instr (s : State) (k : Nat) (w : BitVec 32) (rz : Bool) (again : Stall → Bool) (act : State → IRes) : State :=
  let c := s.core k
  let line := c.pc.toNat / 128
  if !s.powered || !c.ready again then s
  else if !c.inWindow c.pc.toNat then s.cmpFault k cEXTENT
  else match c.cached line with
  | none => (s.modCore k fun c => { c.want line with stall := .fetch line }).queueLines k
  | some bs =>
    if s.fetchMatch k bs w then
      let s := s.modCore k Core.fetched
      (s.retire k (if rz then act s else .fault cFORMAT)).queueLines k
    else if opListed (lineWord bs (c.pc.toNat % 128)) then s
    else s.cmpFault k cFORMAT

/-- An instruction that only changes its core. -/
def State.onCore (s : State) (k : Nat) (f : Core → Core) : IRes := .done (s.modCore k f)

def noStall (_ : Stall) : Bool := false

/-! ## Arithmetic (R152, R154) -/

/-- The result of an `ALU` function; none for an unlisted FN. -/
def aluFn (fn : BitVec 4) (a b : Word) : Option Word :=
  match fn.toNat with
  | 0 => some (a + b)
  | 1 => some (a - b)
  | 2 => some (a &&& b)
  | 3 => some (a ||| b)
  | 4 => some (a ^^^ b)
  | 5 => some (a <<< (b.toNat % 64))
  | 6 => some (a >>> (b.toNat % 64))
  | 7 => some (a.sshiftRight (b.toNat % 64))
  | 8 => some (a * b)
  | 9 => some (if a.slt b then a else b)
  | 10 => some (if a.slt b then b else a)
  | 11 => some (if a.ult b then a else b)
  | 12 => some (if a.ult b then b else a)
  | _ => none

/-- A comparison of R154; none for an unlisted COND. -/
def condFn (cond : BitVec 3) (a b : Word) : Option Bool :=
  match cond.toNat with
  | 0 => some (a = b)
  | 1 => some (a ≠ b)
  | 2 => some (a.slt b)
  | 3 => some (!a.slt b)
  | 4 => some (a.ult b)
  | 5 => some (!a.ult b)
  | _ => none

/-- A predicate function of R154; none for an unlisted FN. -/
def plogFn (fn : BitVec 3) (a b : Bool) : Option Bool :=
  match fn.toNat with
  | 0 => some (a && b)
  | 1 => some (a || b)
  | 2 => some (a ^^ b)
  | 3 => some (a && !b)
  | 4 => some (a || !b)
  | _ => none

/-- A shift of `SHI`; none for kind 3 and for non-zero reserved bits. -/
def shiFn (imm : BitVec 16) (a : Word) : Option Word :=
  let n := imm.toNat % 64
  match imm.toNat / 64 with
  | 0 => some (a <<< n)
  | 1 => some (a >>> n)
  | 2 => some (a.sshiftRight n)
  | _ => none

def setS (s : State) (k : Nat) (rd : BitVec 5) : Option Word → IRes
  | some v => s.onCore k fun c => c.wrS rd v
  | none => .fault cFORMAT

def setP (s : State) (k : Nat) (pd : BitVec 3) : Option Bool → IRes
  | some b => s.onCore k fun c => c.wrP pd b
  | none => .fault cFORMAT

def execNop (c : CoreId) (rz : BitVec 26) (s : State) : Answer :=
  .next (s.instr (kOf c) (0x00#6 ++ rz) (rz = 0) noStall fun s => .done s)

def execAlu (c : CoreId) (rd ra rb : BitVec 5) (rz : BitVec 7) (fn : BitVec 4) (s : State) : Answer :=
  .next (s.instr (kOf c) (0x01#6 ++ rd ++ ra ++ rb ++ rz ++ fn) (rz = 0) noStall fun s =>
    setS s (kOf c) rd (aluFn fn ((s.core (kOf c)).rdS ra) ((s.core (kOf c)).rdS rb)))

def execAddi (c : CoreId) (rd ra : BitVec 5) (imm : BitVec 16) (s : State) : Answer :=
  .next (s.instr (kOf c) (0x02#6 ++ rd ++ ra ++ imm) true noStall fun s =>
    s.onCore (kOf c) fun x => x.wrS rd (x.rdS ra + imm.signExtend 64))

def execAndi (c : CoreId) (rd ra : BitVec 5) (imm : BitVec 16) (s : State) : Answer :=
  .next (s.instr (kOf c) (0x03#6 ++ rd ++ ra ++ imm) true noStall fun s =>
    s.onCore (kOf c) fun x => x.wrS rd (x.rdS ra &&& imm.setWidth 64))

def execOri (c : CoreId) (rd ra : BitVec 5) (imm : BitVec 16) (s : State) : Answer :=
  .next (s.instr (kOf c) (0x04#6 ++ rd ++ ra ++ imm) true noStall fun s =>
    s.onCore (kOf c) fun x => x.wrS rd (x.rdS ra ||| imm.setWidth 64))

def execXori (c : CoreId) (rd ra : BitVec 5) (imm : BitVec 16) (s : State) : Answer :=
  .next (s.instr (kOf c) (0x05#6 ++ rd ++ ra ++ imm) true noStall fun s =>
    s.onCore (kOf c) fun x => x.wrS rd (x.rdS ra ^^^ imm.setWidth 64))

def execShi (c : CoreId) (rd ra : BitVec 5) (imm : BitVec 16) (s : State) : Answer :=
  .next (s.instr (kOf c) (0x06#6 ++ rd ++ ra ++ imm) true noStall fun s =>
    setS s (kOf c) rd (shiFn imm ((s.core (kOf c)).rdS ra)))

def execLi (c : CoreId) (rd : BitVec 5) (imm : BitVec 21) (s : State) : Answer :=
  .next (s.instr (kOf c) (0x07#6 ++ rd ++ imm) true noStall fun s =>
    s.onCore (kOf c) fun x => x.wrS rd (imm.signExtend 64))

def execLis (c : CoreId) (rd : BitVec 5) (rz : BitVec 5) (imm : BitVec 16) (s : State) : Answer :=
  .next (s.instr (kOf c) (0x08#6 ++ rd ++ rz ++ imm) (rz = 0) noStall fun s =>
    s.onCore (kOf c) fun x => x.wrS rd (x.rdS rd <<< 16 ||| imm.setWidth 64))

def execCmp (c : CoreId) (pd cond : BitVec 3) (ra rb : BitVec 5) (rz : BitVec 10) (s : State) : Answer :=
  .next (s.instr (kOf c) (0x09#6 ++ pd ++ cond ++ ra ++ rb ++ rz) (rz = 0) noStall fun s =>
    setP s (kOf c) pd (condFn cond ((s.core (kOf c)).rdS ra) ((s.core (kOf c)).rdS rb)))

def execCmpi (c : CoreId) (pd cond : BitVec 3) (ra : BitVec 5) (imm : BitVec 15) (s : State) : Answer :=
  .next (s.instr (kOf c) (0x0A#6 ++ pd ++ cond ++ ra ++ imm) true noStall fun s =>
    setP s (kOf c) pd (condFn cond ((s.core (kOf c)).rdS ra) (imm.signExtend 64)))

def execPlog (c : CoreId) (pd pa pb fn : BitVec 3) (rz : BitVec 14) (s : State) : Answer :=
  .next (s.instr (kOf c) (0x0B#6 ++ pd ++ pa ++ pb ++ fn ++ rz) (rz = 0) noStall fun s =>
    setP s (kOf c) pd (plogFn fn ((s.core (kOf c)).rdP pa) ((s.core (kOf c)).rdP pb)))

def execPbit (c : CoreId) (pd : BitVec 3) (ra rb : BitVec 5) (rz : BitVec 13) (s : State) : Answer :=
  .next (s.instr (kOf c) (0x0C#6 ++ pd ++ ra ++ rb ++ rz) (rz = 0) noStall fun s =>
    s.onCore (kOf c) fun x => x.wrP pd ((x.rdS ra).getLsbD ((x.rdS rb).toNat % 64)))

def execPrd (c : CoreId) (rd : BitVec 5) (rz : BitVec 21) (s : State) : Answer :=
  .next (s.instr (kOf c) (0x0D#6 ++ rd ++ rz) (rz = 0) noStall fun s =>
    s.onCore (kOf c) fun x => x.wrS rd ((x.pred ||| 1#8).setWidth 64))

/-! ## Control flow -/

def execBr (c : CoreId) (p : BitVec 3) (neg : Bool) (off : BitVec 22) (s : State) : Answer :=
  .next (s.instr (kOf c) (0x10#6 ++ p ++ BitVec.ofBool neg ++ off) true noStall fun s =>
    let x := s.core (kOf c)
    if x.rdP p ^^ neg then .jump s (x.pc + 4 * off) else .done s)

def execJr (c : CoreId) (p : BitVec 3) (neg : Bool) (rz1 : BitVec 1) (ra : BitVec 5) (rz : BitVec 16) (s : State) : Answer :=
  .next (s.instr (kOf c) (0x11#6 ++ p ++ BitVec.ofBool neg ++ rz1 ++ ra ++ rz) (rz1 = 0 && rz = 0) noStall fun s =>
    let x := s.core (kOf c)
    if x.rdP p ^^ neg then
      (if (x.rdS ra).toNat % 4 = 0 then .jump s ((x.rdS ra).setWidth 22) else .fault cFORMAT)
    else .done s)

def execJal (c : CoreId) (rd : BitVec 5) (imm : BitVec 21) (s : State) : Answer :=
  .next (s.instr (kOf c) (0x12#6 ++ rd ++ imm) true noStall fun s =>
    let x := s.core (kOf c)
    .jump (s.modCore (kOf c) fun y => y.wrS rd (BitVec.ofNat 64 (x.pc.toNat + 4))) (x.pc + 4 * imm.signExtend 22))

/-- `LOOP` (R159, R162): the checks of R155's order, the body's last instruction fetched among them. -/
def State.loopAct (s : State) (k : Nat) (n : BitVec 2) (body : Nat) : IRes :=
  let c := s.core k
  let a := c.pc.toNat
  let last := a + 4 * body
  let line := last / 128
  let beyond : Bool := match c.loops with
    | [] => false
    | l :: _ => decide (l.last < last)
  if !c.inWindow last then .fault cEXTENT
  else if 4 ≤ c.loops.length ∨ body = 0 ∨ beyond then .fault cLOOP
  else match c.cached line with
  | none => .wait (s.modCore k fun c => c.want line) (.fetch line)
  | some bs =>
    let op := (lineWord bs (last % 128)).toNat / 2 ^ 26
    if op ∈ [0x10, 0x11, 0x12, 0x18, 0x3F] then .fault cLOOP
    else
      let s := s.modCore k fun c => c.useLine line
      let cnt := (c.rdLc n).toNat
      if cnt = 0 then .skip s last
      else .done (s.modCore k fun c => { c with loops := ⟨a + 4, last, cnt, cnt⟩ :: c.loops })

def execLoop (c : CoreId) (n : BitVec 2) (rz : BitVec 8) (body : BitVec 16) (s : State) : Answer :=
  .next (s.instr (kOf c) (0x18#6 ++ n ++ rz ++ body) (rz = 0) noStall fun s => s.loopAct (kOf c) n body.toNat)

def execSetlc (c : CoreId) (n : BitVec 2) (rz1 : BitVec 3) (ra : BitVec 5) (rz : BitVec 16) (s : State) : Answer :=
  .next (s.instr (kOf c) (0x19#6 ++ n ++ rz1 ++ ra ++ rz) (rz1 = 0 && rz = 0) noStall fun s =>
    let v := ((s.core (kOf c)).rdS ra).toNat
    if 2 ^ 32 ≤ v then .fault cLOOP
    else s.onCore (kOf c) fun x => { x with lc := Tbl.set 0 x.lc n.toNat (BitVec.ofNat 32 v) })

def execGetlc (c : CoreId) (rd : BitVec 5) (rz : BitVec 19) (n : BitVec 2) (s : State) : Answer :=
  .next (s.instr (kOf c) (0x1A#6 ++ rd ++ rz ++ n) (rz = 0) noStall fun s =>
    s.onCore (kOf c) fun x => x.wrS rd ((x.rdLc n).setWidth 64))

/-- Iterations completed by the loop at a level (R161). -/
def Core.literOf (c : Core) (level : Nat) : Nat :=
  match c.loops[level]? with
  | some l => l.C - l.Q
  | none => 0

def execLiter (c : CoreId) (rd : BitVec 5) (rz : BitVec 19) (level : BitVec 2) (s : State) : Answer :=
  .next (s.instr (kOf c) (0x1B#6 ++ rd ++ rz ++ level) (rz = 0) noStall fun s =>
    s.onCore (kOf c) fun x => x.wrS rd (BitVec.ofNat 64 (x.literOf level.toNat)))

/-! ## Scalar memory access (R171) -/

/-- An uncompleted command holds one of the ranges, forerunner mode or not (R171, R510). -/
def State.heldBy (s : State) (k : Nat) (rs : List Rng) : Bool :=
  (s.sbRanges k).any fun x => x.2.any fun r => rs.any r.conflicts

def isScoreboard (x : Stall) : Bool := x = .scoreboard

/-- `SLD` and `SST`: order against earlier commands, the faults of R155, then `go` with space and offset. The offset is the exact
sum of ra, unsigned, and 8 × IMM8 (DESIGN CHOICE, log 102). -/
def State.scalarAct (s : State) (k : Nat) (ra : BitVec 5) (handle imm : BitVec 8) (store : Bool)
    (go : Nat → Nat → IRes) : IRes :=
  let c := s.core k
  let h := c.handle handle.toNat
  let hr : Rng := ⟨4, handle.toNat, handle.toNat, false⟩
  let off := (c.rdS ra).toNat + 8 * imm.toNat
  if s.heldBy k [hr] then .wait s .scoreboard
  else if !hVALID h || !(hSPACE h = 1 || hSPACE h = 2) || !(if store then hWR h else hRD h) then .fault cHANDLE
  else if off % 8 ≠ 0 then .fault cFORMAT
  else if hEXTENT h < off + 8 then .fault cEXTENT
  else if s.heldBy k [⟨hSPACE h, hBASE h + off, hBASE h + off + 7, store⟩] then .wait s .scoreboard
  else go (hSPACE h) (hBASE h + off)

/-- The record of a poisoned unit that an instruction read (R434; DEDUCED, log 20). -/
def State.poisonNote (s : State) (k space off n : Nat) : State :=
  match (unitsOf space off n).find? fun u => s.poisoned k space u with
  | some u => s.raise { s.coreRec k 1 0x15 (BitVec.ofNat 16 cPARITY) with location := locOf space u }
  | none => s

def execSld (c : CoreId) (rd ra : BitVec 5) (handle imm : BitVec 8) (s : State) : Answer :=
  .next (s.instr (kOf c) (0x20#6 ++ rd ++ ra ++ handle ++ imm) true isScoreboard fun s =>
    s.scalarAct (kOf c) ra handle imm false fun sp off =>
      .done ((s.poisonNote (kOf c) sp off 8).modCore (kOf c) fun x =>
        x.wrS rd (BitVec.ofNat 64 (s.coreNat (kOf c) sp off 8))))

def execSst (c : CoreId) (rs ra : BitVec 5) (handle imm : BitVec 8) (s : State) : Answer :=
  .next (s.instr (kOf c) (0x21#6 ++ rs ++ ra ++ handle ++ imm) true isScoreboard fun s =>
    s.scalarAct (kOf c) ra handle imm true fun sp off =>
      .done (s.coreWrite (kOf c) sp off (leBytes 8 ((s.core (kOf c)).rdS rs).toNat) false))

/-! ## Slots, passes, ticks (R157, R173) -/

def execSlotw (c : CoreId) (rd ra : BitVec 5) (rz : BitVec 16) (s : State) : Answer :=
  .next (s.instr (kOf c) (0x22#6 ++ rd ++ ra ++ rz) (rz = 0) noStall fun s =>
    s.onCore (kOf c) fun x => x.wrS rd (Tbl.get 0 x.snap ((x.rdS ra).toNat % 64)))

/-- The live slot occupancy of a core as a table of words. -/
def State.slotmapOf (s : State) (k : Nat) : Tbl Word :=
  (List.range 64).foldl (fun t w => Tbl.set 0 t w (s.rd (aCoreK k (0x800 + 8 * w)))) []

def State.passAct (s : State) (k : Nat) : State :=
  let snap := s.slotmapOf k
  let s := s.modCore k fun c => { c with snap := snap, passCount := (c.passCount + 1) % 2 ^ 64 }
  let s := s.traceEv k 0 4 0 ((s.core k).passCount % 2 ^ 32)
  (s.takeInputs k).passBegun k

/-- `PASS`; the pass core's waits for the recorded inputs of replay mode (R324). -/
def execPass (c : CoreId) (rz : BitVec 26) (s : State) : Answer :=
  .next (s.instr (kOf c) (0x23#6 ++ rz) (rz = 0) noStall fun s =>
    if s.passHeld (kOf c) then .wait s .none else .done (s.passAct (kOf c)))

def execTick (c : CoreId) (rd : BitVec 5) (rz : BitVec 21) (s : State) : Answer :=
  .next (s.instr (kOf c) (0x25#6 ++ rd ++ rz) (rz = 0) noStall fun s =>
    s.onCore (kOf c) fun x => x.wrS rd (BitVec.ofNat 64 s.tick))

/-! ## `CWAIT` (R172, R219, R220) -/

def execCwait (c : CoreId) (pd : BitVec 3) (ra rb : BitVec 5) (flag : BitVec 8) (rz : BitVec 5) (s : State) : Answer :=
  .next (s.instr (kOf c) (0x24#6 ++ pd ++ ra ++ rb ++ flag ++ rz) (rz = 0) noStall fun s =>
    let x := s.core (kOf c)
    let v : BitVec 32 := (x.rdS ra).setWidth 32
    if satisfies (x.flag flag.toNat) v then s.onCore (kOf c) fun y => y.wrP pd true
    else .wait (s.modCore (kOf c) fun y => { y with met := false }) (.cwait pd.toNat v flag.toNat s.tick (x.rdS rb).toNat))

/-- A stalled `CWAIT` ends with pd := `b`. -/
def State.endCwait (s : State) (k pd : Nat) (b : Bool) : State :=
  s.modCore k fun c => (c.wrP (BitVec.ofNat 3 pd) b).goOn c.pc.toNat

/-- The `CWAIT` of core `k` has been satisfied by the end of its deadline tick. -/
def State.cwaitArrives (s : State) (k : Nat) : State :=
  let c := s.core k
  match c.stall with
  | .cwait pd v f t0 n =>
    if s.powered && c.run && !c.frozen && (c.met || (satisfies (c.flag f) v && !expired s.tick t0 n)) then s.endCwait k pd true
    else s
  | _ => s

def execCwaitArrival (c : CoreId) (s : State) : Answer := .next (s.cwaitArrives (kOf c))

def State.cwaitExpires (s : State) (k : Nat) : State :=
  let c := s.core k
  match c.stall with
  | .cwait pd _ _ t0 n =>
    if s.powered && c.run && !c.frozen && !c.met && expired s.tick t0 n then s.endCwait k pd false else s
  | _ => s

def execCwaitTimeout (c : CoreId) (s : State) : Answer := .next (s.cwaitExpires (kOf c))

/-! ## `PUSH` (R164, R165) -/

/-- Byte `o` of template `t` (R87, R164). -/
def templateAddr (k t o : Nat) : Nat := coreAddr k 3 (0x200000 + 64 * t + o)
def State.template (s : State) (k t : Nat) : Nat := leNat (readMem s.mem (templateAddr k t 0) 64)

/-- One patch slot on a descriptor; none where it faults. -/
def patchOne (sreg : Nat → Word) (sb slot : Nat) (k : Nat) (d : Wide) : Option Wide :=
  let off := bits slot 0 8
  let w := bits slot 8 6 + 1
  let mode := bits slot 14 2
  if mode = 0 then some d
  else if 31 < sb + k then none
  else
    let v := sreg (sb + k)
    if 256 < off + w then none
    else if mode = 1 ∧ 2 ^ w ≤ v.toNat then none
    else if mode = 2 ∧ (v.toInt < -(2 ^ (w - 1) : Int) ∨ (2 ^ (w - 1) : Int) - 1 < v.toInt) then none
    else some (putW d off w (if mode = 3 then getW d off w + v.toNat else v.toNat))

/-- The finished descriptor; none where the template or a patch faults. -/
def buildDesc (tpl : Nat) (sreg : Nat → Word) (sb : Nat) : Option Wide :=
  if bits tpl 320 192 ≠ 0 then none
  else (List.range 4).foldl (fun d k => d.bind (patchOne sreg sb (bits tpl (256 + 16 * k) 16) k))
    (some (BitVec.ofNat 256 (bits tpl 0 256)))

def execPush (c : CoreId) (p : BitVec 3) (neg : Bool) (queue : BitVec 4) (template : BitVec 10) (sb : BitVec 5)
    (rz : BitVec 3) (s : State) : Answer :=
  .next (s.instr (kOf c) (0x28#6 ++ p ++ BitVec.ofBool neg ++ queue ++ template ++ sb ++ rz) (rz = 0) noStall fun s =>
    let x := s.core (kOf c)
    match buildDesc (s.template (kOf c) template.toNat) (fun r => x.rdS (BitVec.ofNat 5 r)) sb.toNat with
    | none => .fault cFORMAT
    | some d =>
      let q := queue.toNat
      let del := x.rdP p ^^ neg
      if engineOf (dOP d) ≠ some (queueEngine q) then .fault cFORMAT
      else if x.pushBlocked q d del then .wait s (.push q d del)
      else .done (s.pushNow (kOf c) q d del))

/-- The stall of a `PUSH` ends: the queue or ledger has room (R169, R170). -/
def State.endPush (s : State) (k : Nat) : State :=
  let c := s.core k
  match c.stall with
  | .push q d del =>
    if s.powered && c.run && !c.frozen && !c.pushBlocked q d del then
      ((s.pushNow k q d del).modCore k fun c => c.goOn c.pc.toNat).touch k
    else s
  | _ => s

def execPushStallEnd (c : CoreId) (s : State) : Answer := .next (s.endPush (kOf c))

/-! ## `PRIME`, `HALT`, lines (R176, R177) -/

def isPrime (x : Stall) : Bool := x = .prime

def execPrime (c : CoreId) (ra : BitVec 5) (rz : BitVec 16) (count : BitVec 5) (s : State) : Answer :=
  .next (s.instr (kOf c) (0x29#6 ++ ra ++ rz ++ count) (rz = 0) isPrime fun s =>
    let x := s.core (kOf c)
    if 4 ≤ x.primes.length then .wait s .prime
    else
      let first := ((x.rdS ra).setWidth 22 : BitVec 22).toNat / 128
      let y := (List.range (count.toNat + 1)).foldl (fun y i => y.want (first + i)) x
      let mine := y.fills.filter fun l => first ≤ l ∧ l ≤ first + count.toNat
      .done (s.setCore (kOf c) { y with primes := if mine = [] then y.primes else y.primes ++ [mine] }))

def execHalt (c : CoreId) (rz : BitVec 26) (s : State) : Answer :=
  .next (s.instr (kOf c) (0x3F#6 ++ rz) (rz = 0) noStall fun _ => .halt)

/-- The line that the program store serves: the oldest request of its die (R176). A line that fails parity is not delivered: it is
fetched again, behind what has been asked meanwhile, and one event counts (R435, R441). -/
def State.lineArrives (s : State) (k line : Nat) (bad : Bool) : State :=
  if !s.powered || s.oldestLine (keyDie k) ≠ some (k, line) then s
  else
    let s := { s with lineQ := s.lineQ.erase (k, line) }
    if bad then
      (s.raise { s.coreRec k 0 0x14 (BitVec.ofNat 16 cPARITY) with rkind := 2, res := k, detail := line * 128 }).queueLines k
    else s.modCore k fun c => c.install line (readMem s.mem (storeAddr (keyDie k) (line * 128)) 128)

def execIcacheLineFill (c : CoreId) (line : Nat) (bad : Bool) (s : State) : Answer :=
  .next (s.lineArrives (kOf c) line bad)

/-! ## Start and stop (R174, R180, R516) -/

/-- An armed compositor begins once its start tick has been reached. -/
def State.cmpBegin (s : State) (k : Nat) : State :=
  let c := s.core k
  if s.powered && c.armed && !c.frozen && c.startTick.toNat < s.tick then
    s.modCore k fun c => { c with armed := false, run := true, stall := .none, census := 0 }
  else s

def execCompositorBegin (c : CoreId) (s : State) : Answer := .next (s.cmpBegin (kOf c))

/-- The compositor is armed (R174); one whose start tick has passed begins at once and sets LATE, and the context has no timing
identity (R317). None can be armed before step 7 of the bring-up (R414). A START of a compositor that runs, or of a frozen core, is
ignored (DESIGN CHOICE, log 103). -/
def State.cmpStart (s : State) (k : Nat) : State :=
  let c := s.core k
  if c.run || c.frozen || s.fld aBoot 0 3 < 7 then s
  else if c.startTick.toNat < s.tick then
    (s.modCore k fun c => { c with armed := false, run := true, stall := .none, late := true, census := 0 }).timingLost
      (s.partOfKey k)
  else s.modCore k fun c => { c with armed := true }

/-- A write of `CMP_CTRL`: START and STOP together are ignored (R180). -/
def State.cmpCtrl (s : State) (k : Nat) (v : Word) : State :=
  match getF v 0 1, getF v 1 1 with
  | 1, 0 => s.cmpStart k
  | 0, 1 => s.cmpStop k
  | _, _ => s

def execCmpCtrlStart (c : CoreId) (v : Word) (s : State) : Answer :=
  .next (if s.powered && getF v 0 1 = 1 then s.cmpCtrl (kOf c) v else s)

def execCmpCtrlStop (c : CoreId) (v : Word) (s : State) : Answer :=
  .next (if s.powered && getF v 1 1 = 1 then s.cmpCtrl (kOf c) v else s)

/-- `CMP_PC` (R163, R180). -/
def State.cmpPc (s : State) (k : Nat) (v : Word) : State :=
  if (s.core k).run || getF v 0 2 ≠ 0 then s
  else s.modCore k fun c => { c with pc := v.setWidth 22, loops := [] }

def execCmpPcWrite (c : CoreId) (v : Word) (s : State) : Answer := .next (if s.powered then s.cmpPc (kOf c) v else s)

/-- `CMP_CODE` (R180). -/
def State.cmpCode (s : State) (k : Nat) (v : Word) : State :=
  let base := getF v 0 23
  let limit := getF v 32 23
  if (s.core k).run || base % 128 ≠ 0 || limit % 128 ≠ 0 || 0x400000 < limit then s
  else s.modCore k fun c => { c with codeBase := BitVec.ofNat 23 base, codeLimit := BitVec.ofNat 23 limit }

def execCmpCodeWrite (c : CoreId) (v : Word) (s : State) : Answer := .next (if s.powered then s.cmpCode (kOf c) v else s)

end Sys2Proof.Machine
end

