-- ==== Sys2Proof/Machine/Net.lean ====
section
/-! DEFINITION. Packets (R256 to R261): headers, what leaves a core and when, transfers and their segments (R204, R518), credits
(R223 to R226), absorption (R274), and damage found by a read (R432 to R439). -/

namespace Sys2Proof.Machine

/-! ## Headers (R256) -/

def kTYPE (p : Packet) : Nat := getW p.hdr 0 4
def kCLASS (p : Packet) : Nat := getW p.hdr 4 2
def kRAW (p : Packet) : Bool := getW p.hdr 9 1 = 1
def kITAG (p : Packet) : Nat := getW p.hdr 10 12
def kCIRC (p : Packet) : BitVec 12 := BitVec.ofNat 12 (getW p.hdr 22 12)
def kONCIRC (p : Packet) : Bool := getW p.hdr 34 1 = 1
def kLEN (p : Packet) : Nat := getW p.hdr 35 11
def kDADDR (p : Packet) : Nat := getW p.hdr 64 48
def kDH (p : Packet) : Nat := getW p.hdr 112 8
def kSCALE (p : Packet) : Nat := getW p.hdr 120 8
def kSRC (p : Packet) : BitVec 20 := BitVec.ofNat 20 (getW p.hdr 128 20)
def kTXID (p : Packet) : BitVec 12 := BitVec.ofNat 12 (getW p.hdr 148 12)
def kSEGNO (p : Packet) : Nat := getW p.hdr 160 16
def kPOISON (p : Packet) : Nat := getW p.hdr 176 16
def kARG (p : Packet) : Nat := getW p.hdr 224 32
def kOFF (p : Packet) : Nat := bits (kDADDR p) 0 26
def kSPACE (p : Packet) : Nat := bits (kDADDR p) 26 2
def kPKG (p : Packet) : Nat := bits (kDADDR p) 42 6
def kDIE (p : Packet) : Nat := bits (kDADDR p) 35 7

/-- TYPE codes (R257). -/
def tyWRITE : Nat := 0
def tyACC : Nat := 1
def tyRDREQ : Nat := 2
def tyRDRSP : Nat := 3
def tyACK : Nat := 4
def tyFLAG : Nat := 5
def tyCOPEN : Nat := 6
def tyCCLOSE : Nat := 7
def tyCTRL : Nat := 8

/-- The CLASS of a packet that rides no circuit (R257). -/
def classOf (ty : Nat) : Nat := if ty ≤ 2 then 1 else if ty ≤ 4 then 2 else 3

/-- The 20-bit name of the endpoint of an address: CORE 126 stands for a hub or a quoin (DESIGN CHOICE, log 21). -/
def nameAt (daddr : Nat) : BitVec 20 :=
  addr20 (bits daddr 42 6) (bits daddr 35 7) (if 18 ≤ bits daddr 28 5 then 126 else bits daddr 33 2 * 18 + bits daddr 28 5)

/-- The fabric address of a named endpoint. An offset keeps the 26 bits of its field (R247): one that exceeds them lies outside
every side, and the first segment's range in ARG tells the receiver so. -/
def addrAt (a : BitVec 20) (space off : Nat) : Nat :=
  a20Pkg a * 2 ^ 42 +
    (if a20Core a < 72 then fabAddr (a20Die a) (a20Core a / 18) (a20Core a % 18) space (off % 2 ^ 26)
     else fabAddr (a20Die a) 0 31 space (off % 2 ^ 26))

/-- A header from the fields a sender sets. -/
def mkHdr (ty : Nat) (circ : Option (BitVec 12)) (daddr dh : Nat) (src : BitVec 20) (txid : BitVec 12)
    (segno len arg : Nat) : Wide :=
  mkW ([(0, 4, ty), (4, 2, if circ.isSome then 0 else classOf ty), (35, 11, len), (64, 48, daddr), (112, 8, dh),
        (128, 20, src.toNat), (148, 12, txid.toNat), (160, 16, segno), (224, 32, arg)] ++
       (match circ with | some c => [(22, 12, c.toNat), (34, 1, 1)] | none => []))

/-- The packet asks for bytes: an RDREQ, or a CTRL access of LEN 0 (DEDUCED, log 22). -/
def isRead (p : Packet) : Bool := kTYPE p = tyRDREQ || (kTYPE p = tyCTRL && kLEN p = 0)

/-- The bytes that a packet moves: LEN, and for a CTRL read the count in ARG (DEDUCED, log 22). -/
def kSPAN (p : Packet) : Nat := if kTYPE p = tyCTRL ∧ kLEN p = 0 then kARG p else kLEN p

/-- No reserved value and no non-zero reserved field (R256, R257). LEN counts payload bytes; on an RDREQ it counts the bytes
asked for (DEDUCED, log 22). ITAG is not checked (R270). -/
def packetOk (p : Packet) : Bool :=
  let ty := kTYPE p
  ty ≤ 8 && getW p.hdr 46 18 = 0 && (if kONCIRC p then kCLASS p = 0 else kCLASS p = classOf ty && kCIRC p = 0) &&
  (ty = tyACC || kSCALE p = 0) && kLEN p ≤ 1024 &&
  (if ty = tyRDREQ then p.payload = [] else p.payload.length = kLEN p) &&
  (ty ≠ tyACC || (kLEN p % 8 = 0 && 8 ≤ kLEN p && kLEN p ≤ 256 && kOFF p % 8 = 0))

/-! ## Absorption (R274, R423) -/

/-- The galleys of partition p, bit 4 × die + galley. -/
def State.galleyMask (s : State) (p : Nat) : Nat :=
  (List.range 256).foldl (fun m n => if s.hasGalley p (n / 4) (n % 4) then m + 2 ^ n else m) 0

/-- A reset unit holds the core with key `k`. A partition under reset keeps the galleys that its reset has taken (R371). -/
def State.covers (s : State) (u : ResetUnit) (k : Nat) : Bool :=
  match u with
  | .core c => kOf c = k
  | .galley d g => keyDie k = d.val && keyFlat k / 18 = g.val
  | .partition p =>
    match s.resets.find? fun r => r.unit = u with
    | some r => bits r.galleys (k / 18) 1 = 1
    | none => s.partOfKey k = p.val
  | .package => true

/-- The core is under reset. -/
def State.inReset (s : State) (k : Nat) : Bool := s.resets.any fun r => s.covers r.unit k

/-- A core that takes no traffic: fused off, fenced or under reset. -/
def State.coreAbsorbed (s : State) (k : Nat) : Bool := !s.usable k || s.inReset k

/-- Traffic for a position leaves this package by a port (or waits for one). -/
def State.exitPort (s : State) (pkg : Nat) : Option (Nat × Nat × Nat) :=
  if !inShape s.shape pkg then none
  else match nextDir s.shape s.position pkg with
  | none => none
  | some role => match s.pairOf role with
    | none => none
    | some k => (s.choosePort k).map fun port => (role, k, port)

/-- The direction by which traffic from position `src` to `dest` enters this package; none at its source. -/
def enterDir (shape : Nat × Nat × Nat) (here dest : Nat) : Nat → Nat → Option Nat
  | 0, _ => none
  | n + 1, at' =>
    if at' = here then none
    else match nextDir shape at' dest with
    | none => none
    | some r => if neighbour shape at' r = here then some r else enterDir shape here dest n (neighbour shape at' r)

/-- Where traffic of `src` for `daddr` stands when it begins its way through this package. -/
def State.entryOf (s : State) (src : BitVec 20) (daddr : Nat) : Option Endp :=
  if a20Pkg src = s.position then some (endpOfSrc src)
  else match enterDir s.shape s.position (bits daddr 42 6) 12 (a20Pkg src) with
  | none => none
  | some r => (s.pairOf (if r % 2 = 0 then r + 1 else r - 1)).map fun k => .quoin (pairQuoin k)

/-- Both ways of the packet through this package cross fenced resources (R254). -/
def State.cutOff (s : State) (p : Packet) (b : Endp) : Bool :=
  match s.entryOf (kSRC p) (kDADDR p) with
  | some a => (s.route a b).isNone
  | none => false

/-- The packet's destination, or the way to it through this package, absorbs it. -/
def State.absorbs (s : State) (p : Packet) : Bool :=
  if kPKG p = s.position then
    (match endpOf (kDADDR p) with | .core d f => s.coreAbsorbed (d * 72 + f) | _ => false) || s.cutOff p (endpOf (kDADDR p))
  else match s.exitPort (kPKG p) with
  | some (_, k, _) => s.cutOff p (.exit (pairQuoin k) (exitDie (kDADDR p)))
  | none => true

/-- The packet can arrive: its endpoint is in this package and takes it. -/
def State.arrives (s : State) (p : Packet) : Bool := s.powered && kPKG p = s.position && !s.absorbs p

/-- The key of the destination core. -/
def keyAt (daddr : Nat) : Nat := bits daddr 35 7 * 72 + bits daddr 33 2 * 18 + bits daddr 28 5
def isCoreAt (daddr : Nat) : Bool := bits daddr 35 7 < 64 && bits daddr 28 5 < 18

/-- A packet leaves flight. -/
def State.landed (s : State) (p : Packet) : State := { s with net := s.net.erase p }

/-! ## Leaving -/

/-- A packet on its way: within the package, or out by the port its direction or its circuit takes (R252, R253). One that
cannot leave waits for the hellbox (R274). -/
def State.inject (s : State) (p : Packet) : State :=
  if kPKG p = s.position || s.absorbs p then { s with net := s.net ++ [p] }
  else match s.exitPort (kPKG p) with
  | some (role, k, port) => s.portSend k ((s.circPort k (riderOf p.hdr)).getD port) p role
  | none => { s with net := s.net ++ [p] }

/-- The impression count at injection. -/
def State.withAge (s : State) (p : Packet) : Packet := { p with hdr := putW p.hdr 192 32 s.tick }

/-- The low 12 bits of the imprint sequence (R270). -/
def State.imprintTag (s : State) : Nat := (s.rd aImpSeq).toNat % 2 ^ 12

/-- The answer to a packet, from its destination (R258): an ACK, or an RDRSP for a read. It rides no circuit: a circuit runs from
its source only (R262, R263). -/
def State.answer (s : State) (p : Packet) (ty code flags : Nat) (data : List Byte) (psn : Nat) : State :=
  let st := statusWord code (if p.replayed then withFlag flags fREPLAYED else flags)
  let h := mkHdr ty none (addrAt (kSRC p) 3 0) 0 (nameAt (kDADDR p)) (kTXID p) (kSEGNO p) data.length st.toNat
  s.inject (s.withAge ⟨putW h 176 16 psn, data, false⟩)

def State.ackWith (s : State) (p : Packet) (code : Nat) : State := s.answer p tyACK code 0 [] 0

def Core.awaitOf (c : Core) (dest : BitVec 20) : Nat := Tbl.get 0 c.awaiting dest.toNat
def Core.awaitSum (c : Core) : Nat := c.awaiting.foldl (fun n e => n + e.2) 0

/-- The limits of R260. -/
def Core.room (c : Core) (dest : BitVec 20) : Bool :=
  c.awaitSum < 128 && (c.awaitOf dest ≠ 0 || c.awaiting.length < 16)

/-- A held flagged packet is addressed to `dest`. -/
def Core.holds (c : Core) (dest : BitVec 20) : Bool := c.held.any fun h => nameAt (kDADDR h.1) = dest

/-- The circuit that a command with PATH = 1 rides: none once it is broken (R266, R267). -/
def State.circOf (s : State) (k : Nat) (circ : BitVec 12) : Option (BitVec 12) :=
  if (List.range 8).any fun n =>
      let a := aCoreK k (0xE00 + 8 * n)
      s.fld a 12 1 = 1 && s.fld a 14 1 = 0 && s.fld a 0 12 = circ.toNat
    then some circ else none

/-- A packet formed for a circuit that has broken since goes as an ordinary packet (R267). -/
def State.onPath (s : State) (k : Nat) (p : Packet) : Packet :=
  if kONCIRC p && (s.circOf k (kCIRC p)).isNone then
    { p with hdr := putW (putW (putW p.hdr 22 12 0) 34 1 0) 4 2 (classOf (kTYPE p)) }
  else p

/-- A packet leaves core `k`: it counts as awaiting its answer (R260, R268). -/
def State.leave (s : State) (k : Nat) (p : Packet) : State :=
  let dest := nameAt (kDADDR p)
  let s := s.modCore k fun c => { c with awaiting := Tbl.set 0 c.awaiting dest.toNat (c.awaitOf dest + 1) }
  s.inject (s.withAge (s.onPath k p))

/-! ## Transfers (R204, R223, R518) -/

def Core.xfer (c : Core) (t : BitVec 12) : Option Xfer := c.xfers.find? fun x => x.txid = t
def Core.updXfer (c : Core) (t : BitVec 12) (f : Xfer → Xfer) : Core :=
  { c with xfers := c.xfers.map fun x => if x.txid = t then f x else x }

/-- A transfer that nothing more can be heard of. -/
def Xfer.over? (x : Xfer) : Bool :=
  x.late && x.unsent.isEmpty && x.unanswered = 0 && x.requested = 0 && x.flag = .none

def Core.sweep (c : Core) : Core := { c with xfers := c.xfers.filter fun x => !x.over? }

/-- The next segment of a transfer may leave. -/
def Core.canSend (c : Core) (x : Xfer) : Bool :=
  !x.ended && !x.unsent.isEmpty && (!x.needCredit || !x.grants.isEmpty) && c.room x.dest && !c.holds x.dest

/-- The next segment leaves, on the first grant in hand. -/
def State.sendHead (s : State) (k : Nat) (x : Xfer) : State :=
  match x.unsent with
  | [] => s
  | p :: rest =>
    (s.modCore k fun c => c.updXfer x.txid fun y => { y with
      unsent := rest, grants := y.grants.drop 1, unanswered := y.unanswered + 1 }).leave k p

/-- The transfer whose turn it is: in strict round-robin, after the one served last, of those that can send (R206). -/
def Core.nextXfer (c : Core) : Option Xfer :=
  let turn := fun (x : Xfer) => (x.txid - c.lastSent - 1).toNat
  (c.xfers.filter c.canSend).foldl (fun best x => match best with
    | none => some x
    | some b => if turn x < turn b then some x else some b) none

/-- Segments leave while any can. -/
def sendAll (k : Nat) : Nat → State → State
  | 0, s => s
  | n + 1, s => match (s.core k).nextXfer with
    | some x => sendAll k n ((s.sendHead k x).modCore k fun c => { c with lastSent := x.txid })
    | none => s

/-- Requests that a transfer may still make: up to 8 outstanding, one for each segment without a grant. -/
def Xfer.asks (x : Xfer) : Nat :=
  if x.needCredit && !x.ended then min (8 - x.requested) (x.unsent.length - x.grants.length - x.requested) else 0

/-- Credit requests of every transfer of core `k`. -/
def State.requestAll (s : State) (k : Nat) : State :=
  let xs := (s.core k).xfers
  let me := s.nameOf k
  let ms := xs.flatMap fun x => List.replicate x.asks (CreditMsg.request x.dest x.dh me x.txid)
  let s := s.modCore k fun c => { c with xfers := xs.map fun x => { x with requested := x.requested + x.asks } }
  { s with creditNet := s.creditNet ++ ms }

/-- Flagged packets of transfers whose segments have all left, or that have ended, are held (R268, R518). -/
def State.holdFlags (s : State) (k : Nat) : State :=
  s.modCore k fun c =>
    let ready := c.xfers.filter fun x => x.flag = .unsent && (x.ended || x.unsent.isEmpty)
    let ps := ready.filterMap fun x => x.flagPkt.map fun p => (p, some x.txid, x.queue, x.seq)
    { c with
      held := c.held ++ ps
      xfers := c.xfers.map fun x =>
        if x.flag = .unsent && (x.ended || x.unsent.isEmpty) then { x with flag := .held } else x }

/-- Everything of core `k` that can move on its way out does. -/
def State.pump (s : State) (k : Nat) : State :=
  let n := (s.core k).xfers.foldl (fun n x => n + x.unsent.length) 0
  (sendAll k n (s.requestAll k)).holdFlags k

/-- Credits that the sender `src` returns: the message carries the grants' epochs (R224). -/
def State.giveBack (s : State) (dest : BitVec 20) (dh : Nat) (src : BitVec 20) (txid : BitVec 12) (epochs : List Nat) : State :=
  { s with creditNet := s.creditNet ++ epochs.map fun e => .giveBack dest dh src txid e }

/-- A failing answer ends a transfer (R518): nothing more of it is sent, its grants go back; once its command has completed
every failing verdict is late (R198, R271). -/
def State.failXfer (s : State) (k : Nat) (x : Xfer) (code : Nat) : State :=
  let s := s.giveBack x.dest x.dh (s.nameOf k) x.txid x.grants
  let s := s.modCore k fun c => c.updXfer x.txid fun y => { y with
    ended := true, unsent := [], grants := [], codes := if code ∈ y.codes then y.codes else y.codes ++ [code] }
  if x.late then s.lateVerdict k x.queue x.seq x.opcode code else s

/-- A held flagged packet may leave (R268, R372). -/
def State.flagMayLeave (s : State) (k : Nat) (h : Packet) : Bool :=
  let dest := nameAt (kDADDR h)
  !s.flagHold && (s.core k).awaitOf dest = 0 && (s.core k).room dest

/-- The first held flagged packet that may leave does, with the imprint tag of that moment (R270). -/
def State.releaseFlag (s : State) (k : Nat) : State :=
  match (s.core k).held.find? fun h => s.flagMayLeave k h.1 with
  | none => s
  | some h =>
    let s := s.modCore k fun c =>
      let c := { c with held := c.held.erase h }
      match h.2.1 with
      | some t => c.updXfer t fun x => { x with flag := .left }
      | none => c
    (s.leave k { h.1 with hdr := putW h.1.hdr 10 12 s.imprintTag }).pump k

/-- A FLAG packet that adds `v` to flag `f` of `dest`. -/
def State.flagPacketOf (s : State) (k : Nat) (circ : Option (BitVec 12)) (dest : BitVec 20) (f : Nat) (v : BitVec 32)
    (t : BitVec 12) : Packet :=
  ⟨mkHdr tyFLAG circ (addrAt dest 3 0) f (s.nameOf k) t 0 0 v.toNat, [], false⟩

/-- The lowest-numbered open circuit from core `k` to `dest` (R266). -/
def State.circTo (s : State) (k : Nat) (dest : BitVec 20) : Option (BitVec 12) :=
  let open? := (List.range 8).filter fun n =>
    let a := aCoreK k (0xE00 + 8 * n)
    s.fld a 12 1 = 1 && s.fld a 24 20 = dest.toNat
  let nums := open?.map fun n => s.fld (aCoreK k (0xE00 + 8 * n)) 0 12
  match nums with
  | [] => none
  | n :: ns => s.circOf k (BitVec.ofNat 12 (ns.foldl min n))

/-! ## Damage (R432 to R439) -/

/-- A damaged unit that a read met: space (3 the tiles), offset, and whether it was poisoned before (R434). -/
structure Dmg where
  space : Nat
  off : Nat
  old : Bool
deriving DecidableEq, Repr

/-- The first damaged unit of a range. -/
def State.damage (s : State) (k space off n : Nat) (bad : List Nat) : Option Dmg :=
  ((unitsOf space off n).find? fun u => s.poisoned k space u || locOf space u ∈ bad).map fun u =>
    ⟨space, u, s.poisoned k space u⟩

/-- The record of a damaged read: SOURCE and window kind by the unit (R434, R435, R445). -/
def State.dmgRec (s : State) (k q seq op item slot : Nat) (d : Dmg) : ErrRec :=
  { s.coreRec k 1 (if d.old then 0x15 else if d.space = 0 then 0x10 else if d.space = 3 then 0x12 else 0x11)
      (BitVec.ofNat 16 cPARITY) with
    queue := q
    cmdseq := seq
    detail := op
    item := item
    slot := slot
    location := locOf d.space d.off
    rkind := if d.old then 0xFF else if d.space = 0 then 0 else if d.space = 3 then 2 else 1
    res := if d.space = 3 then k else poisonKey k d.space d.off }

/-- The offset in a target of a weight row of core `k`, where the target covers it: on the pending side of its handle while that
holds an edition and `pend` asks for it, else on the current side (R436). -/
def State.rowHit (s : State) (k row : Nat) (pend : Bool) (t : Target) : Option Nat :=
  let h := (s.core k).handle t.handle
  let base := (if pend && hPEND h then hBASEPEND h else hBASE h) + t.offset
  if t.core = keyFlat k ∧ hVALID h ∧ hSPACE h = 0 ∧ !hKV h ∧ base ≤ row * 128 ∧ row * 128 + 128 ≤ base + t.length then
    some (row * 128 - base)
  else none

/-- The place in a shard of what `hit` finds in one of its targets (R340). -/
def placeIn (hit : Target → Option Nat) : List Target → Option Nat
  | [] => none
  | t :: ts => match hit t with | some o => some o | none => (placeIn hit ts).map (t.length + ·)

/-- The shard that holds a weight row of core `k` and the row's place in it: of the pending edition, on its
pending side, else of the current one (DEDUCED, log 122). -/
def State.rowSource (s : State) (k row : Nat) : Option (Shard × Nat) :=
  let p := s.part (s.partOfKey k)
  let from' := fun (m : Option Manifest) (pend : Bool) => m.bind fun m => m.shards.findSome? fun sh =>
    if sh.die = keyDie k then (placeIn (s.rowHit k row pend) sh.targets).map fun o => (sh, o) else none
  match from' p.pending true with | some x => some x | none => from' p.current false

/-- Some manifest target of the partition covers a weight row of core `k` on a side of its handle (R436). -/
def State.restorable (s : State) (k row : Nat) : Bool := (s.rowSource k row).isSome

/-- Where a row's bytes are asked for, its target's primary source or the alternate: kind (0 host, 1 peer), window or package,
offset (R339, R436). -/
def State.rowAsk (s : State) (k row : Nat) (alt : Bool) : Option (Nat × Nat × Nat) :=
  match s.rowSource k row, alt with
  | some (sh, o), false => some (sh.srcKind, if sh.srcKind = 0 then sh.srcWindow else sh.srcPkg, sh.srcOff + o)
  | some (sh, o), true =>
    if sh.altKind = 0 then none else some (sh.altKind - 1, if sh.altKind = 1 then sh.altWindow else sh.altPkg, sh.altOff + o)
  | none, _ => none

/-- The die hub asks for the 128 bytes of a row. -/
def State.askRow (s : State) (k row : Nat) (alt : Bool) : State :=
  match s.rowAsk k row alt with
  | some x => s.emit (.fetch (s.partOfKey k) (keyDie k) x.1 x.2.1 x.2.2 128)
  | none => s

/-- The weight rows of a range whose read failed parity and that can be restored. -/
def State.toRestore (s : State) (k off n : Nat) (bad : List Nat) : List Nat :=
  ((unitsOf 0 off n).filter fun u => locOf 0 u ∈ bad && !s.poisoned k 0 u && s.restorable k (u / 128)).map (· / 128)

/-- Rows enter the core's restore; the command of queue `q` is squashed (R437). Rows that join a restore whose budget has
expired share that budget: they are poisoned at once (R438). -/
def State.startRestore (s : State) (k q : Nat) (rows : List Nat) : State :=
  let new := match (s.core k).restore with | some r => rows.filter (· ∉ r.rows) | none => rows
  let s := match (s.core k).restore with
    | some r =>
      let s := s.modCore k fun c => { c with restore := some { r with
        rows := r.rows ++ new
        queues := if r.background || q ∈ r.queues then r.queues else r.queues ++ [q] } }
      if r.background then rows.foldl (fun s row => s.setPoison k 0 (row * 128) true) s else s
    | none => s.modCore k fun c => { c with restore := some ⟨rows, [], [], [q], s.tick, false⟩ }
  let s := new.foldl (fun s row => s.askRow k row false) s
  rows.foldl (fun s row => s.raise { s.coreRec k 0 0x10 (statusWord cDONE (withFlag 0 fREPLAYED)) with
    queue := if q < 16 then q else 31, location := locOf 0 (row * 128), rkind := 0, res := poisonKey k 0 (row * 128) }) s

/-- A restore holds the core's platen (R437). -/
def Core.restoring (c : Core) : Bool := match c.restore with | some r => !r.background | none => false

/-- The command of queue `q` waits for the core's restore before it is replayed. -/
def Core.squashed (c : Core) (q : Nat) : Bool :=
  match c.restore with | some r => !r.background && (queueEngine q = 0 || q ∈ r.queues) | none => false

/-- Bytes `off` to `off + n − 1` of weight memory touch a row under restore. -/
def Core.underRestore (c : Core) (off n : Nat) : Bool :=
  match c.restore with | some r => !r.background && (unitsOf 0 off n).any (fun u => u / 128 ∈ r.rows) | none => false

end Sys2Proof.Machine
end

