-- ==== Sys2Proof/Machine/Engine.lean ====
section
/-! DEFINITION. Command engines (07): the checks at issue (R187), issue (R183), completion (R182, R185, R188), skipped
commands (R168) and `BR_SETLEN` (R122). The work of each command is in the files of its engine. -/

namespace Sys2Proof.Machine

/-- The core takes part in events: powered, usable, not under reset, not frozen. -/
def State.live (s : State) (k : Nat) : Bool :=
  s.powered && s.usable k && !s.inReset k && !(s.core k).frozen

/-! ## Circuits of a core (R263, R275) -/

def aCirc (k n : Nat) : Nat := aCoreK k (0xE00 + 8 * n)

/-- The table entry of open circuit `circ` of core `k`. -/
def State.circEntry (s : State) (k circ : Nat) : Option Nat :=
  (List.range 8).find? fun n => s.fld (aCirc k n) 12 1 = 1 && s.fld (aCirc k n) 0 12 = circ

/-- A `CIRCUIT` close of the circuit has issued and not completed (R264). -/
def Core.closing (c : Core) (circ : Nat) : Bool :=
  ((List.range 16).flatMap c.executing).any fun e => dOP e.1.desc = 0x49 && mCOP e.1.desc = 1 && mCIRC e.1.desc = circ

/-- A free entry of the circuit table. -/
def State.circFree (s : State) (k : Nat) : Option Nat := (List.range 8).find? fun n => s.fld (aCirc k n) 12 1 = 0

/-! ## Order 2: handles (R70, R202, R203) -/

/-- A handle suits an operand: valid, of the space and kind asked, with the rights asked. -/
def suits (h : Wide) (sp : Option Nat) (kv : Option Bool) (rd wr : Bool) : Bool :=
  hVALID h && sp.all (· = hSPACE h) && kv.all (· = hKV h) && (!rd || hRD h) && (!wr || hWR h)

/-- The core a command names is reachable in name: CORE and DIE in range (R191). -/
def destOk (a : BitVec 20) : Bool := a20Core a ≤ 71 && a20Die a ≤ 63

/-- The destination of a command in mode RACC. -/
def State.racDest (s : State) (k didx : Nat) : BitVec 20 := BitVec.ofNat 20 (s.fld (aCoreK k (0xA00 + 8 * didx)) 0 20)

/-- A command of a move queue names a host window or a ring. -/
def isHostOp (op : Nat) : Bool := 0x45 ≤ op && op ≤ 0x48

/-- Highest byte of the host range of a command; none for no byte. -/
def hostHi (d : Wide) : Option Nat :=
  if dOP d = 0x47 then (if mSIZE d = 0 then none else some (mHOFF d + mSIZE d - 1))
  else (strided (mHOFF d) (mCOUNT d) (mSIZE d) (mDSTRIDE d)).map (·.2)

/-- The check of a host window for a command (R389). -/
def State.hostWin (s : State) (k : Nat) (d : Wide) (hi : Option Nat) : Nat :=
  let p := s.partOfKey k
  if dOP d = 0x46 then s.winCheck p (mDH d) hi true false else s.winCheck p (mDH d) hi false true

/-- Ring `r` belongs to the partition and is enabled (R381, R391). -/
def State.ringOk (s : State) (p r : Nat) : Bool :=
  r / 256 = p && (s.partFunc p).isSome && s.fld (aRing r 0x10) 5 1 = 1

/-- Every handle, window, ring and circuit of the command suits it. -/
def State.handlesOk (s : State) (k : Nat) (d : Wide) : Bool :=
  let hs := (s.core k).handle
  let op := dOP d
  let y : Bool := pYMODE d = 2 || suits (hs (pYH d)) (some 2) none false true
  let x := suits (hs (pXH d)) (some 1) none true false
  let path : Bool := !mPATH d || match s.circEntry k (mCIRC d) with
    | some n => s.fld (aCirc k n) 24 20 = (mDEST d).toNat && !(s.core k).closing (mCIRC d)
    | none => false
  if op = 0x10 then suits (hs (pWH d)) (some 0) (some false) true false && x && y
  else if op = 0x11 then suits (hs (pWH d)) (some 0) (some true) false true && x
  else if op = 0x12 ∨ op = 0x13 then suits (hs (pWH d)) (some 0) (some true) true false && x && y
  else if op = 0x33 then suits (hs (bMH d)) (some 1) none true false
  else if op = 0x34 ∨ op = 0x36 ∨ op = 0x3B ∨ op = 0x3C then suits (hs (bMH d)) (some 1) none false true
  else if op = 0x35 then
    suits (hs (bMH d)) (some 2) none true false && (bCDST d = 0 || suits (hs (bOH d)) (some 1) none false true)
  else if 0x37 ≤ op ∧ op ≤ 0x39 then 2 ≤ bYMODE d || suits (hs (bMH d)) (some 2) none false true
  else if op = 0x40 then suits (hs (mSH d)) none none true false && suits (hs (mDH d)) none none false true
  else if 0x41 ≤ op ∧ op ≤ 0x43 then suits (hs (mSH d)) none none true false && path
  else if op = 0x44 then suits (hs (mDH d)) none none false true && path
  else if op = 0x45 then suits (hs (mSH d)) none none true false && s.hostWin k d none = cDONE
  else if op = 0x46 then suits (hs (mSH d)) none none false true && s.hostWin k d none = cDONE
  else if op = 0x47 then s.hostWin k d none = cDONE
  else if op = 0x48 then suits (hs (mSH d)) none none true false && s.ringOk (s.partOfKey k) (mRING d)
  else if op = 0x49 then
    (match s.circEntry k (mCIRC d) with
     | some n => mCOP d = 1 && s.fld (aCirc k n) 13 1 = 0 && !(s.core k).closing (mCIRC d)
     | none => mCOP d = 0 && (s.circFree k).isSome)
  else if op = 0x62 ∨ op = 0x63 then suits (hs (ySH d)) (some 1) none true false
  else true

/-! ## Order 3: formats (R33, R40, R110, R133 to R135, R202) -/

def formatsOk (hs : Nat → Wide) (d : Wide) : Bool :=
  let op := dOP d
  let y : Bool := pYMODE d = 2 || hPSCALE (hs (pYH d)) = pASCALE d
  let act := fmtActivation (hFORMAT (hs (pXH d)))
  let mf := hFORMAT (hs (bMH d))
  if op = 0x10 ∨ op = 0x12 ∨ op = 0x13 then act && y
  else if op = 0x11 then hFORMAT (hs (pXH d)) = hFORMAT (hs (pWH d))
  else if op = 0x33 ∨ op = 0x34 then mf = fBF16 || (mf = fFP32 && bET d = 0)
  else if op = 0x35 then
    bCDST d = 0 || hFORMAT (hs (bOH d)) = fE4M3 || hFORMAT (hs (bOH d)) = fE5M2
  else if op = 0x36 then fmtQuant mf
  else if 0x37 ≤ op ∧ op ≤ 0x39 then 2 ≤ bYMODE d || hPSCALE (hs (bMH d)) = bASCALE d
  else if op = 0x43 then hSPACE (hs (mSH d)) = 2
  else if op = 0x48 then hSPACE (hs (mSH d)) = 1
  else true

/-! ## Order 4: ranges and alignment (R94, R98, R124 to R127, R191, R194, R202, R207, R263) -/

def State.rangesOk (s : State) (k : Nat) (d : Wide) (n : Nat) : Bool :=
  let hs := (s.core k).handle
  let op := dOP d
  let yoff : Bool := pYOFF d % 8 = 0 && (pYMODE d ≠ 2 || destOk (s.racDest k (pDIDX d)))
  let xf := hFORMAT (hs (pXH d))
  if op = 0x10 then
    yoff && pWOFF d % 128 = 0 && 1 ≤ pA d && pA d ≤ 32 && (pN d = 0 || pA d ≤ pN d) && vecFits xf (pK d)
  else if op = 0x11 then pLOFF d % 4 = 0
  else if op = 0x12 ∨ op = 0x13 then
    yoff && pLOFF d % 4 = 0 && 1 ≤ pD d && pD d ≤ 128 * hT (hs (pWH d)) && (op = 0x13 || vecFits xf (pD d))
  else if 0x21 ≤ op ∧ op ≤ 0x3C then
    tilesOk (tileOps d n) &&
    (op ≠ 0x2A || n % 2 = 0) &&
    (op ∉ [0x34, 0x36] || bMSTRIDE d ≠ 0) &&
    (op ≠ 0x36 || !fmtMX (hFORMAT (hs (bMH d))) || bMSTRIDE d = 1) &&
    (op ∉ [0x35, 0x3B, 0x3C] || bMOFF d % 8 = 0) &&
    (op ∉ [0x37, 0x38, 0x39] || bYMODE d = 3 || bMOFF d % 8 = 0) &&
    (op ∉ [0x37, 0x38, 0x39] || bYMODE d ≠ 2 || destOk (s.racDest k (bDIDX d)))
  else if op = 0x43 then
    destOk (mDEST d) && mSIZE d % 8 = 0 && mSOFF d % 8 = 0 && mSSTRIDE d % 8 = 0 && mDOFF d % 8 = 0 && mDSTRIDE d % 8 = 0
  else if op = 0x41 ∨ op = 0x42 ∨ op = 0x44 then destOk (mDEST d)
  else if op = 0x48 then mSIZE d = 64
  else if op = 0x49 then destOk (mDEST d) && (mCOP d = 1 || (1 ≤ mSLOTS d && mSLOTS d ≤ 24))
  else if op = 0x60 then !yRMT d || destOk (yDEST d)
  else if op = 0x62 ∨ op = 0x63 then ySOFF d % 32 = 0
  else true

/-! ## Order 5: extents (R71, R73, R86, R98, R107, R124, R127, R194, R389) -/

/-- The table entry of a list item (R107). -/
def State.tableEntry (s : State) (k : Nat) (d : Wide) (i : Nat) : Nat := s.coreNat k 1 (pLOFF d + 4 * i) 4

/-- Pages of an item: the one of its position, or those that cover its length. -/
def pagesOf (op v : Nat) : List Nat := if op = 0x11 then [v / 16] else List.range (ceilDiv v 16)

/-- The spans of a command with the lengths of its attention items. Every active item is checked, one of length zero too
(R108): the span of a pattern whose length its item makes zero has no byte. -/
def State.spanOk (s : State) (k : Nat) (d : Wide) (n : Nat) : Bool :=
  let hs := (s.core k).handle
  let op := dOP d
  let items := (activeItems d).map fun i => (i, s.tableEntry k d i)
  let within := fun (h : Nat) (off len : Nat) => len = 0 || off + len ≤ hEXTENT (hs h)
  if op = 0x12 then
    items.all fun e => within (pXH d) (itemX d e.1) (vecBytes (hFORMAT (hs (pXH d))) (pD d)) &&
      (pYMODE d = 2 || within (pYH d) (itemY d e.1) (8 * e.2))
  else if op = 0x13 then
    items.all fun e => within (pXH d) (itemX d e.1) (vecBytes (hFORMAT (hs (pXH d))) e.2) &&
      (pYMODE d = 2 || within (pYH d) (itemY d e.1) (8 * pD d))
  else (opnds hs d n).all fun o => match o.span with | some (_, hi) => hi < hEXTENT (hs o.h) | none => true

/-- The stripe and the rows of a `MATVEC` (R98), and its scale bytes, of which a zero operand reads none (R99, R72, R73). -/
def State.matvecFits (s : State) (hs : Nat → Wide) (d : Wide) : Bool :=
  let W := hs (pWH d)
  let B := hBASE W + pWOFF d
  let A := pA d
  let N := pN d
  let sweeps := ceilDiv N A
  let S := scaleRows (pK d)
  let scale := fun j => hAUXBASE W + j % A * 0x20000 + j / A * S * 128 + ceilDiv (pK d) 32 - 1
  B / 0x20000 + min A N ≤ s.spaceSize 0 / 0x20000 && B % 0x20000 / 128 + sweeps * rowsPerOut W (pK d) ≤ 1024 &&
    (!hMX W || zeroLength d 0 || (scale (N - 1) < hEXTENT W && scale ((sweeps - 1) * A - 1) < hEXTENT W))

/-- The table entries and slots of a KV command, and the pages' place in the table. -/
def State.kvFits (s : State) (k : Nat) (H d : Wide) : Bool :=
  (activeItems d).all fun i =>
    pSLOT0 d + i < hAUXCOUNT H && pLOFF d + 4 * i + 3 ≤ 0xFFFFF &&
      (let v := s.tableEntry k d i
       if dOP d = 0x11 then v / 16 < hPTE H else ceilDiv v 16 ≤ hPTE H)

def State.extentsOk (s : State) (k : Nat) (d : Wide) (n : Nat) : Bool :=
  let hs := (s.core k).handle
  let op := dOP d
  let kv : Bool := 0x11 ≤ op && op ≤ 0x13
  (!kv || s.kvFits k (hs (pWH d)) d) && s.spanOk k d n && (op ≠ 0x10 || s.matvecFits hs d) &&
  (tileOps d n).all TOp.fits && (op ∉ [0x45, 0x46, 0x47] || s.hostWin k d (hostHi d) = cDONE)

/-! ## Order 6: contents read at issue (R86, R94, R101); a zero operand faces it too (R187) -/

/-- The outlier map of a split-precision handle. -/
def State.outlierMap (s : State) (k : Nat) (W : Wide) : List Nat :=
  (List.range (hAUXCOUNT W)).map fun c => s.coreNat k 0 (hBASE W + hAUXBASE W + 2 * c) 2

/-- The map's conditions (R101). -/
def mapOk (map : List Nat) (K : Nat) : Bool :=
  map.length ≤ K / 64 && map.all (· < min K 0x4000) && (map.zip (map.drop 1)).all fun e => e.1 < e.2

/-- The page-table entry of page `i` of a slot. -/
def State.pageEntry (s : State) (k : Nat) (H : Wide) (slot i : Nat) : Nat :=
  s.coreNat k 1 (hAUXBASE H + (slot * hPTE H + i) * 4) 4

/-- The first byte of the page that an entry names. -/
def pageBase (e : Nat) : Nat := bits e 0 5 * 0x20000 + bits e 5 10 * 0x80

/-- The check of a page-table entry in the order of R86. -/
def State.pageCheck (s : State) (H : Wide) (e : Nat) : Nat :=
  firstFail [
    (e / 2 ^ 16 ≠ 0, cFORMAT),
    (bits e 15 1 = 0 || bits e 5 10 % (16 * hT H) ≠ 0 || s.spaceSize 0 / 0x20000 ≤ bits e 0 5, cHANDLE),
    (pageBase e < hBASE H || hBASE H + hEXTENT H < pageBase e + 16 * hT H * 128, cEXTENT)]

/-- The first failing page of the items, in order. -/
def State.pagesCheck (s : State) (k : Nat) (H d : Wide) : Nat :=
  let codes := (activeItems d).flatMap fun i =>
    (pagesOf (dOP d) (s.tableEntry k d i)).map fun pg => s.pageCheck H (s.pageEntry k H (pSLOT0 d + i) pg)
  (codes.find? (· ≠ cDONE)).getD cDONE

def State.contentsCheck (s : State) (k : Nat) (d : Wide) : Nat :=
  let hs := (s.core k).handle
  let op := dOP d
  if op = 0x10 ∧ hSPLIT (hs (pWH d)) then (if mapOk (s.outlierMap k (hs (pWH d))) (pK d) then cDONE else cFORMAT)
  else if 0x11 ≤ op ∧ op ≤ 0x13 then
    let c := s.pagesCheck k (hs (pWH d)) d
    if c ≠ cDONE then c
    else if op = 0x13 ∧ !((activeItems d).all fun i => vecFits (hFORMAT (hs (pXH d))) (s.tableEntry k d i)) then cFORMAT
    else cDONE
  else cDONE

/-- The checks of R187 in their order. -/
def State.issueCheck (s : State) (k : Nat) (d : Wide) (n : Nat) : Nat :=
  let c := firstFail [
    (!reservedOk d, cFORMAT),
    (!s.handlesOk k d, cHANDLE),
    (!formatsOk (s.core k).handle d, cFORMAT),
    (!s.rangesOk k d n, cFORMAT),
    (!s.extentsOk k d n, cEXTENT)]
  if c ≠ cDONE then c else s.contentsCheck k d

/-! ## Issue (R182, R183) -/

/-- The list items of a KV command, resolved. -/
def State.resolveItems (s : State) (k : Nat) (d : Wide) : List KvItem :=
  let H := (s.core k).handle (pWH d)
  (activeItems d).map fun i =>
    let v := s.tableEntry k d i
    let slot := pSLOT0 d + i
    let row := fun t => pageBase (s.pageEntry k H slot (t / 16)) + t % 16 * hT H * 128
    ⟨i, slot, v, if dOP d = 0x11 then [row v] else (List.range v).map row⟩

/-- Writes that have entered the delivery buffer of the port that carries partition p: what a flush covers (R237). -/
def State.enteredOf (s : State) (p : Nat) : Nat :=
  match s.carrier p with | some (b, _) => (Tbl.get PPort.reset s.pports b).entered | none => 0

/-- What a command holds from its issue. -/
def State.startExec (s : State) (k : Nat) (it : Item) : Exec :=
  let c := s.core k
  let d := it.desc
  let z := zeroLength d it.blen
  { handles := (namedHandles c.handle d it.blen).map fun h => (h, c.handle h)
    outliers := if dOP d = 0x10 ∧ !z ∧ hSPLIT (c.handle (pWH d)) then s.outlierMap k (c.handle (pWH d)) else []
    items := if 0x11 ≤ dOP d ∧ dOP d ≤ 0x13 then s.resolveItems k d else []
    issued := s.tick
    met := if dOP d = 0x61 ∧ satisfies (c.flag (yFLAG d)) (yVALUE d) then some s.tick else none
    worked := z && !(0x41 ≤ dOP d && dOP d ≤ 0x43 && mRSIG d)
    zero := z
    codes := []
    flags := if z then withFlag 0 fZEROLEN else 0
    recorded := false
    txid := none
    progress := if dOP d = 0x47 then s.enteredOf (s.partOfKey k) else 0 }

/-- A command of queue `q` holds an execution slot (R182): its work is to come, or its transfer's segments are. -/
def Core.occupied (c : Core) (q : Nat) : Bool :=
  (c.executing q).any fun e => !e.2.zero && (queueEngine q ≥ 2 || !e.2.worked)

/-- The queue's engine has a slot for it (R182, R195, R197). -/
def Core.slotFree (c : Core) (q : Nat) : Bool :=
  if queueEngine q < 2 then (engineQueues (queueEngine q)).all fun r => !c.occupied r else !c.occupied q

/-- The order in which an engine looks at its queues: after the one it last granted. -/
def Core.grantOrder (c : Core) (e : Nat) : List Nat :=
  let last := Tbl.get 0 c.granted e
  let qs := engineQueues e
  (qs.filter fun q => last < q + 1) ++ qs.filter fun q => q + 1 ≤ last

/-- A head that the engine issues; `BR_SETLEN` takes no part (R122). -/
def State.canIssue (s : State) (k q : Nat) : Bool :=
  match (s.core k).head q with
  | some it => dOP it.desc ≠ 0x20 && (s.core k).slotFree q && (s.itemHolder k q it).isNone &&
      !(queueEngine q = 0 && (s.core k).restoring)
  | none => false

/-- Heads of an engine that wait under R77 are marked (R78). -/
def State.markStalled (s : State) (k e : Nat) : State :=
  (engineQueues e).foldl (fun s q =>
    match (s.core k).head q with
    | some it =>
      if (s.core k).slotFree q ∧ dOP it.desc ≠ 0x20 ∧ (s.itemHolder k q it).isSome then
        s.modCore k fun c => c.updItem q it.seq fun i => { i with stalled := true }
      else s
    | none => s) s

/-- The command at the head of queue `q` issues: refused by a check, or it begins to execute. -/
def State.issue (s : State) (k q : Nat) (it : Item) : State :=
  let code := s.issueCheck k it.desc it.blen
  let s := s.traceEv k q 0 0 (dOP it.desc + it.seq % 2 ^ 32 * 2 ^ 8)
  if code ≠ cDONE then s.finish k q it code 0 false
  else
    let x := s.startExec k it
    s.modCore k fun c => c.updItem q it.seq fun i => { i with phase := .executing x }

/-- A parity error in the core's control state (R441): the core freezes and its part stops. -/
def State.controlFreeze (s : State) (k : Nat) : State :=
  (s.modCore k fun c => { c with frozen := true }).raise
    { s.coreRec k 3 0x13 (BitVec.ofNat 16 cPARITY) with rkind := 2, res := k }

/-- One issue of an engine of core `k`. -/
def State.engineIssue (s : State) (k e : Nat) (par : Bool) : State :=
  if !s.live k then s
  else if par then s.controlFreeze k
  else
    let s := s.markStalled k e
    match ((s.core k).grantOrder e).find? (s.canIssue k) with
    | none => s
    | some q => match (s.core k).head q with
      | none => s
      | some it => (s.modCore k fun c => { c with granted := Tbl.set 0 c.granted e (q + 1) }).issue k q it

def execCommandIssue (c : CoreId) (e : Engine) (par : Bool) (s : State) : Answer :=
  .next (s.engineIssue (kOf c) (engineCode e) par)

/-! ## Work and completion -/

/-- The command of queue `q` whose work of opcode `op` comes next: the oldest executing one with its work undone. -/
def Core.workItem (c : Core) (q op : Nat) : Option (Item × Exec) :=
  match (c.executing q).find? fun e => !e.2.worked with
  | some e => if dOP e.1.desc = op then some e else none
  | none => none

/-- The work of a command of opcode `op` in queue `q` of core `k`, if one waits to be done. -/
def State.work (s : State) (k q op : Nat) (f : Item → Exec → State → State) : State :=
  if !s.live k then s
  else match (s.core k).workItem q op with
    | some (it, x) => if (s.core k).squashed q then s else f it x s
    | none => s

/-- A resolved handle of an executing command. -/
def Exec.handle (x : Exec) (h : Nat) : Wide := match x.handles.find? (·.1 = h) with | some e => e.2 | none => 0

/-- The work of a command is done, with codes and flags added. -/
def State.workDone (s : State) (k q : Nat) (it : Item) (codes : List Nat) (flags : Nat) : State :=
  s.modCore k fun c => c.updExec q it.seq fun x => { x with
    worked := true, codes := x.codes ++ codes, flags := x.flags ||| flags }

/-- The transfer of a command lets it complete (R201, R198, R208, R269, R518). -/
def Xfer.lets (op : Nat) (zero : Bool) (x : Xfer) : Bool :=
  let flagGone : Bool := x.flag ≠ .unsent && x.flag ≠ .held
  let ended : Bool := !x.ended || x.unanswered = 0
  if x.flagPkt.isSome then flagGone && x.unsent.isEmpty
  else if op = 0x49 then x.verdict || x.ended
  else if op = 0x42 ∨ op = 0x44 then x.unsent.isEmpty && x.unanswered = 0
  else if op = 0x41 ∨ op = 0x43 then x.unsent.isEmpty && (zero || x.verdict || x.ended) && ended
  else x.unsent.isEmpty && ended

/-- A worked command may complete. -/
def Core.mayComplete (c : Core) (it : Item) (x : Exec) : Bool :=
  x.worked && match x.txid with
    | none => true
    | some t => match c.xfer t with
      | none => true
      | some y => y.lets (dOP it.desc) x.zero

/-- The oldest executing command of queue `q` that may complete does (R188). -/
def State.complete (s : State) (k q : Nat) : State :=
  if !s.live k then s
  else
    let c := s.core k
    match (c.executing q).find? fun e => c.mayComplete e.1 e.2 with
    | none => s
    | some (it, x) =>
      let y := x.txid.bind c.xfer
      let codes := x.codes ++ (match y with | some y => y.codes | none => [])
      let flags := match y with
        | some y => if y.replayed then withFlag x.flags fREPLAYED else x.flags
        | none => x.flags
      let s := match x.txid with
        | some t => s.modCore k fun c => (c.updXfer t fun y => { y with late := true }).sweep
        | none => s
      (s.saturated k q codes).finish k q it (pickCode codes) flags x.recorded

def execCommandComplete (c : CoreId) (q : Fin 16) (s : State) : Answer := .next (s.complete (kOf c) q.val)

/-- The skipped command at the front of queue `q` gives its signal (R168). -/
def State.skipNow (s : State) (k q : Nat) : State :=
  if !s.live k then s
  else match (s.core k).queue q with
    | it :: _ =>
      match it.phase with
      | .skipped =>
        let st := statusWord cSKIPPED (s.withSticky k q 0)
        let s := s.traceEv k q 2 st (dOP it.desc + it.seq % 2 ^ 32 * 2 ^ 8)
        (s.modCore k fun c => c.updItem q it.seq fun i => { i with phase := .done st }).flush k q
      | _ => s
    | [] => s

def execSkipSignal (c : CoreId) (q : Fin 16) (s : State) : Answer := .next (s.skipNow (kOf c) q.val)

/-- The `BR_SETLEN` at the head of queue `q` completes; its length took effect at its push (R122). -/
def State.setlen (s : State) (k q : Nat) : State :=
  if !s.live k then s
  else match (s.core k).head q with
    | some it =>
      if dOP it.desc = 0x20 then s.finish k q it (if setlenOk it.desc then cDONE else cFORMAT) 0 false else s
    | none => s

def execBrSetlen (c : CoreId) (q : Fin 16) (s : State) : Answer := .next (s.setlen (kOf c) q.val)

end Sys2Proof.Machine
end

