-- ==== Sys2Proof/Machine/Packets.lean ====
section
/-! DEFINITION. Packets, circuits' probes and credits as they arrive (R74, R223 to R226, R256 to R274), hop failures (R440), and
the deadlock census (R239, R240). Raw accesses to control space are in Machine/Control.lean, answers in
Machine/Answers.lean. -/

namespace Sys2Proof.Machine

/-! ## What every receiver does -/

/-- A write with the poison marks of a packet: bit u for payload bytes 64u to 64u + 63 (R433). -/
def State.writeMarked (s : State) (k space off : Nat) (bs : List Byte) (marks : Nat) : State :=
  let s := s.coreWrite k space off bs false
  ((List.range (ceilDiv bs.length 64)).filter fun u => bits marks u 1 = 1).foldl (fun s u =>
    (unitsOf space (off + 64 * u) (min 64 (bs.length - 64 * u))).foldl (fun s v => s.setPoison k space v true) s) s

/-- The credit that a packet took, where it is a segment of a transfer to core `k` that was granted one: the oldest of its
transfer that is out (R204, R223; DEDUCED, log 25). -/
def State.tookCredit (s : State) (k : Nat) (p : Packet) : Option Lent :=
  if (kTYPE p = tyWRITE ∨ kTYPE p = tyACC) ∧ !kRAW p then (s.core k).lentTo (kSRC p) (kTXID p) else none

/-- The credit of a packet that is not written goes back to its pool, whose core may be in another package (R224). -/
def State.creditOf (s : State) (p : Packet) : State :=
  if kPKG p = s.position then
    if isCoreAt (kDADDR p) then
      match s.tookCredit (keyAt (kDADDR p)) p with
      | some l => s.creditHome (keyAt (kDADDR p)) l
      | none => s
    else s
  else if (kTYPE p = tyWRITE ∨ kTYPE p = tyACC) ∧ !kRAW p then
    { s with creditNet := s.creditNet ++ [.lost (nameAt (kDADDR p)) (kDH p) (kSRC p) (kTXID p)] }
  else s

/-- The credit of a segment that is written: an automatic pool's returns; a held pool's is out until its release (R224). -/
def State.creditWritten (s : State) (p : Packet) (k : Nat) : State :=
  match s.tookCredit k p with
  | some l =>
    if ((s.core k).pool l.pool).held then s.modCore k fun c => { c with lent := c.lent.erase l } else s.creditHome k l
  | none => s

/-- A failed packet is answered: a read by an RDRSP without payload (R257, R74). -/
def State.refusePacket (s : State) (p : Packet) (code : Nat) : State :=
  (s.creditOf p).answer p (if isRead p then tyRDRSP else tyACK) code 0 [] 0

/-- A packet with a reserved value or field is discarded (R257). -/
def State.discard (s : State) (p : Packet) : State :=
  let r := { ErrRec.base with
    cls := 1
    source := 0x22
    status := BitVec.ofNat 16 cFORMAT
    detail := (kSRC p).toNat
    die := kDIE p
    part := if isCoreAt (kDADDR p) then s.partOfKey (keyAt (kDADDR p)) else 0xFF }
  (s.landed p).refusePacket p cFORMAT |>.raise r

/-- The verdict of a transfer, kept from its first segment (R74). -/
def Core.rxOf (c : Core) (src : BitVec 20) (t : BitVec 12) : Option RxXfer := c.rx.find? fun r => r.src = src && r.txid = t
def Core.setRx (c : Core) (r : RxXfer) : Core :=
  { c with rx := c.rx.filter (fun x => !(x.src = r.src && x.txid = r.txid)) ++ [r] }

/-- The receiver's checks of R74 on a transfer that ends at offset `hi`. -/
def rxCheck (p : Packet) (h : Wide) (hi : Nat) : Nat :=
  if kTYPE p = tyRDREQ then
    firstFail [(!hVALID h || !hRD h || hSPACE h = 3, cHANDLE), (hEXTENT h ≤ hi, cEXTENT)]
  else firstFail [
    (!hVALID h || !hRMT h || (kTYPE p = tyACC && hSPACE h ≠ 2), cHANDLE),
    (kTYPE p = tyACC && hPSCALE h ≠ sext 8 (kSCALE p), cFORMAT),
    (hEXTENT h ≤ hi, cEXTENT)]

/-- The verdict for this packet, with the first segment's kept; none: the first segment has not arrived. -/
def State.rxVerdict (s : State) (k : Nat) (p : Packet) : Option Nat × State :=
  let h := (s.core k).handle (kDH p)
  if kSEGNO p = 0 then
    let code := rxCheck p h (kARG p)
    (some code, s.modCore k fun c => c.setRx ⟨kSRC p, kTXID p, code, false⟩)
  else match (s.core k).rxOf (kSRC p) (kTXID p) with
    | some r => (some (if r.stale then cABSORBED else r.code), s)
    | none => (none, s)

/-- The bytes of the packet lie within the handle's current side. -/
def inSide (p : Packet) (h : Wide) : Bool := kOFF p + kLEN p ≤ hEXTENT h

/-- A raw data access lies within its space (R87, R248). -/
def State.rawOk (s : State) (p : Packet) : Bool := kSPACE p ≤ 2 && kOFF p + kLEN p ≤ s.spaceSize (kSPACE p)

/-- The packet is of type `ty` (a reserved type goes with `WRITE`) and reaches its endpoint in this package. -/
def State.reaches (s : State) (p : Packet) (ty : Nat) : Bool :=
  s.arrives p && (kTYPE p = ty || (ty = tyWRITE && 9 ≤ kTYPE p))

/-- A packet of `ty` at its endpoint: discarded, rejected where the address names no core (R248), or handled by `f` with the
core's key. -/
def State.receive (s : State) (p : Packet) (ty : Nat) (f : Nat → State → State) : State :=
  if !s.reaches p ty then s
  else if !packetOk p then s.discard p
  else if !isCoreAt (kDADDR p) then (s.landed p).refusePacket p cEXTENT
  else f (keyAt (kDADDR p)) s

/-! ## `WRITE`, `ACC` -/

/-- A segment under the verdict of its transfer: written by `wr`, or refused. -/
def State.segment (s : State) (p : Packet) (k : Nat) (wr : Wide → State → State) : State :=
  match s.rxVerdict k p with
  | (none, _) => s
  | (some code, s) =>
    let h := (s.core k).handle (kDH p)
    let s := (s.landed p).touch k
    let code := if code = cDONE ∧ !inSide p h then cEXTENT else code
    if code = cABSORBED then (s.creditOf p).ackWith p code
    else if code ≠ cDONE then s.refusePacket p code
    else ((wr h s).creditWritten p k).ackWith p cDONE

/-- A `WRITE` segment: raw, or into a handle's current side (R66, R74). -/
def State.writeArrives (s : State) (p : Packet) (k : Nat) : State :=
  if kRAW p then
    let s := (s.landed p).touch k
    if s.rawOk p then (s.writeMarked k (kSPACE p) (kOFF p) p.payload (kPOISON p)).ackWith p cDONE
    else s.ackWith p cEXTENT
  else s.segment p k fun h s => s.writeMarked k (hSPACE h) (hBASE h + kOFF p) p.payload (kPOISON p)

def execWriteSegment (p : Packet) (s : State) : Answer := .next (s.receive p tyWRITE fun k s => s.writeArrives p k)

/-- One entry read, added to and written (R46); the packet's mark of its payload unit is its new poison state (R433). -/
def State.accEntry (s : State) (k off : Nat) (inc : Word) (psn : Bool) : State :=
  let r := psAdd (BitVec.ofNat 64 (s.coreNat k 2 off 8)) inc
  let s := s.coreWrite k 2 off (leBytes 8 r.1.toNat) psn
  if r.2 then s.setFld (aNumeric k) 16 1 1 else s

/-- The entries of an ACC packet (R272). -/
def State.accArrives (s : State) (p : Packet) (k : Nat) : State :=
  s.segment p k fun h s =>
    (List.range (p.payload.length / 8)).foldl (fun s i =>
      s.accEntry k (hBASE h + kOFF p + 8 * i) (BitVec.ofNat 64 (leAt p.payload (8 * i) 8))
        (bits (kPOISON p) (i / 8) 1 = 1)) s

def execAccPacket (p : Packet) (s : State) : Answer := .next (s.receive p tyACC fun k s => s.accArrives p k)

/-! ## `RDREQ` -/

/-- The payload units of a read that are damaged, as the POISON field marks them. -/
def State.readMarks (s : State) (k space off n : Nat) (bad : List Nat) : Nat :=
  ((List.range (ceilDiv n 64)).filter fun u => s.damaged k space (off + 64 * u) (min 64 (n - 64 * u)) bad).foldl
    (fun m u => m + 2 ^ u) 0

/-- Bytes of the core read for a request: restored first where they can be (R436, R437), else carried as they are with
their marks, and PARITY_UNRECOVERED where a unit is damaged (R439). -/
def State.readOut (s : State) (p : Packet) (k space off n : Nat) (bad : List Nat) : State :=
  let rows := if space = 0 then s.toRestore k off n bad else []
  if space = 0 ∧ (s.core k).underRestore off n then s
  else if rows ≠ [] then
    let s := s.startRestore k 16 rows
    { s with net := (s.net.erase p) ++ [{ p with replayed := true }] }
  else
    let s := (s.landed p).touch k
    let code := match s.damage k space off n bad with | some _ => cPARITY | none => cDONE
    let s' := match s.damage k space off n bad with
      | some d => s.raise (s.dmgRec k 31 0 0 0xFFFF 0xFFFF d)
      | none => s
    s'.answer p tyRDRSP code 0 (s.coreRead k space off n) (s.readMarks k space off n bad)

def State.rdreqArrives (s : State) (p : Packet) (bad : List Nat) (k : Nat) : State :=
  if kRAW p then
    if s.rawOk p then s.readOut p k (kSPACE p) (kOFF p) (kLEN p) bad
    else (s.landed p).refusePacket p cEXTENT
  else match s.rxVerdict k p with
  | (none, _) => s
  | (some code, s) =>
    let h := (s.core k).handle (kDH p)
    let code := if code = cDONE ∧ !inSide p h then cEXTENT else code
    if code = cABSORBED then ((s.landed p).touch k).ackWith p code
    else if code ≠ cDONE then ((s.landed p).touch k).refusePacket p code
    else s.readOut p k (hSPACE h) (hBASE h + kOFF p) (kLEN p) bad

def execRdreq (p : Packet) (bad : List Nat) (s : State) : Answer :=
  .next (s.receive p tyRDREQ fun k s => s.rdreqArrives p bad k)

/-! ## `FLAG` (R270) -/

def aImprintRej (k : Nat) : Nat := aCoreK k 0xE58

def State.flagArrives (s : State) (p : Packet) (k : Nat) : State :=
  let s := (s.landed p).touch k
  if kITAG p = s.imprintTag then
    ((s.flagAdd k (kDH p) (BitVec.ofNat 32 (kARG p)) (kSRC p).toNat).1).ackWith p cDONE
  else
    let s := (s.setFld (aImprintRej k) 0 20 (kSRC p).toNat).setFld (aImprintRej k) 20 12 (kITAG p)
    let s := s.satFld (aImprintRej k) 32 16 1
    (s.raise { s.coreRec k 1 0x24 (BitVec.ofNat 16 cIMPRINT) with detail := (kSRC p).toNat }).ackWith p cIMPRINT

def execFlagPacket (p : Packet) (s : State) : Answer := .next (s.receive p tyFLAG fun k s => s.flagArrives p k)

/-- A held flagged packet of core `c` leaves (R268). -/
def execFlaggedPacketRelease (c : CoreId) (s : State) : Answer :=
  .next (if s.live (kOf c) then s.releaseFlag (kOf c) else s)

/-! ## Absorption (R274, R423, R424) -/

/-- An answer that reaches a core under reset: only its counts fall (R423). -/
def State.settle (s : State) (p : Packet) : State :=
  s.modCore (keyAt (kDADDR p)) fun c =>
    let src := (kSRC p).toNat
    let c := { c with awaiting := Tbl.set 0 c.awaiting src (Tbl.get 0 c.awaiting src - 1) }
    (c.updXfer (kTXID p) fun x => { x with unanswered := x.unanswered - 1 }).sweep

/-- The hellbox takes a packet. The first segment of a transfer absorbed at a core marks it, so that segments that arrive
after the reset are absorbed too. -/
def State.absorb (s : State) (p : Packet) : State :=
  let s := s.landed p
  if kTYPE p = tyRDRSP ∨ kTYPE p = tyACK then
    (if kPKG p = s.position ∧ isCoreAt (kDADDR p) then s.settle p else s)
  else
    let s := if kPKG p = s.position ∧ isCoreAt (kDADDR p) ∧ kTYPE p ≤ tyRDREQ ∧ kSEGNO p = 0 then
        s.modCore (keyAt (kDADDR p)) fun c => c.setRx ⟨kSRC p, kTXID p, cABSORBED, true⟩
      else s
    (s.creditOf p).ackWith p cABSORBED

def execHellboxAbsorb (p : Packet) (s : State) : Answer := .next (if s.powered && s.absorbs p then s.absorb p else s)

/-! ## Hops (R440) -/

/-- The window kind and resource of a hop (R435, R448): its router's core, its die, its bridge. -/
def hopWindow (h : Hop) : Nat × Nat :=
  if h.router < 72 ∧ h.out < 4 then (2, h.die * 72 + h.router)
  else if h.router < 72 ∨ (h.router = 126 ∧ h.out % 8 = 4) then (3, h.die)
  else (6, hopKey h)

/-- The record of a hop. An event of a bridge in loop-back is not counted (R482). -/
def State.hopRec (s : State) (h : Hop) (cls source : Nat) (count : Bool) : ErrRec :=
  { ErrRec.base with
    cls := cls
    source := source
    status := BitVec.ofNat 16 cPARITY
    die := h.die
    core := if h.router < 72 then h.router else 127
    part := if h.router < 72 ∧ h.die < 64 then s.partOfKey (h.die * 72 + h.router) else 0xFF
    rkind := if count && hopKey h ∉ s.loopHops then (hopWindow h).1 else 0xFF
    res := (hopWindow h).2
    location := h.out % 256 }

/-- A packet lost at a hop failure: answered with PARITY_UNRECOVERED, its credit returned; a lost answer reaches its
requester as such an ACK (DEDUCED, log 26). -/
def State.hopLost (s : State) (p : Packet) : State :=
  if p ∉ s.net then s
  else
    let s := s.landed p
    if kTYPE p = tyRDRSP ∨ kTYPE p = tyACK then
      let h := putW (putW (putW (putW p.hdr 0 4 tyACK) 35 11 0) 176 16 0) 224 32 cPARITY
      { s with net := s.net ++ [(⟨h, [], p.replayed⟩ : Packet)] }
    else (s.creditOf p).ackWith p cPARITY

/-- Resend `n` of a flit at hop `h` has failed; `held` are the packets there. -/
def State.hopFails (s : State) (h : Hop) (n : Nat) (held : List Packet) : State :=
  let s := held.foldl (fun s p => s.pathInexact (kSRC p) (nameAt (kDADDR p))) s
  if n < 8 then
    ({ s with net := s.net.map fun p => if p ∈ held then { p with replayed := true } else p }).raiseOpen
      (s.hopRec h 0 0x20 false)
  else (held.foldl State.hopLost s).raise (s.hopRec h 1 0x21 true)

def execHopRetry (h : Hop) (n : Nat) (held : List Packet) (s : State) : Answer := .next (if s.powered then s.hopFails h n held else s)

/-! ## Circuits (R263 to R267) -/

/-- Circuit number and slots in the ARG of a probe (DESIGN CHOICE, log 22). -/
def probeArg (circ slots : Nat) : Nat := circ + slots * 2 ^ 12
def probeCirc (p : Packet) : Nat := bits (kARG p) 0 12
def probeSlots (p : Packet) : Nat := bits (kARG p) 12 8

/-- The port of a pair with more free slots, the first on a tie. -/
def State.roomier (s : State) (k : Nat) : Nat := if s.freeSlots (portHop k 0) < s.freeSlots (portHop k 1) then 1 else 0

/-- The hops of a circuit within this package, and the port it leaves by. -/
def State.circHops (s : State) (src : BitVec 20) (daddr : Nat) : Option (List Hop × Option Nat) :=
  match s.entryOf src daddr with
  | none => none
  | some a =>
    if bits daddr 42 6 = s.position then (s.route a (endpOf daddr)).map fun r => (r, none)
    else match s.exitPort (bits daddr 42 6) with
    | none => none
    | some (_, k, _) => (s.route a (.exit (pairQuoin k) (exitDie daddr))).map fun r =>
        (r ++ [portHop k (s.roomier k)], some (2 * k + s.roomier k))

/-- The probe or release of circuit `circ` of `src` that stands in this package. -/
def State.probeOf (s : State) (ty : Nat) (src : BitVec 20) (circ : BitVec 12) : Option Packet :=
  s.net.find? fun p => kTYPE p = ty && kSRC p = src && probeCirc p = circ.toNat

/-- Hop as `CORE_CIRC_FAIL` names it. -/
def State.circFail (s : State) (k circ : Nat) (h : Hop) : State :=
  s.wr (aCoreK k 0xE50) (BitVec.ofNat 64 (circ + h.die * 2 ^ 16 + h.router * 2 ^ 23 + h.out % 8 * 2 ^ 30 +
    s.position * 2 ^ 33))

/-- The slots of a circuit freed in this package. -/
def State.freeCirc (s : State) (src : BitVec 20) (circ : BitVec 12) : State :=
  s.freeOwner (ownerOf src circ) fun _ => true

/-- The partition of a circuit's source, by the records in force, as position × 64 + partition. -/
def State.ownerPart (s : State) (owner : Nat) : Nat :=
  let src := BitVec.ofNat 20 ((owner - 1) / 2 ^ 12)
  let pos := a20Pkg src
  pos * 64 + (((List.range 64).find? fun p =>
    recGalley (efxFixed s.efx s.fuses.fusedDies pos tPARTITION p) (a20Die src) (a20Core src / 18)).getD 0xFF)

/-- Slots of a hop owned by command in partitions that an armed activation does not reset (R370). -/
def State.keptSlots (s : State) (x : ArmedEfx) (h : Hop) : Nat :=
  ((List.range 32).filter fun i =>
    let o := s.slotOwner h i
    o ≠ 0 && o ∉ x.pinned && s.ownerPart o ∉ x.resets).length

/-- The first hop that `n` more slots of an owner would leave unable to hold the armed pinned circuits (R370). -/
def State.armedHop (s : State) (owner n : Nat) (r : List Hop) : Option Hop :=
  match s.efxArmed with
  | none => none
  | some x =>
    if s.ownerPart owner ∈ x.resets then none
    else r.find? fun h => Tbl.get 0 x.need (hopKey h) ≠ 0 && 24 < s.keptSlots x h + n + Tbl.get 0 x.need (hopKey h)

/-- A probe crosses this package: every hop reserves its slots, or it turns back at the first that cannot (R263). -/
def State.probe (s : State) (p : Packet) : State :=
  let src := kSRC p
  let circ := BitVec.ofNat 12 (probeCirc p)
  match s.circHops src (kDADDR p) with
  | none => s
  | some (hops, port) =>
    let s := s.landed p
    match (s.blockedHop (probeSlots p) hops).or (s.armedHop (ownerOf src circ) (probeSlots p) hops) with
    | some h =>
      let s := if a20Pkg src = s.position then s.circFail (a20Die src * 72 + a20Core src) circ.toNat h else s
      s.ackWith p cHANDLE
    | none =>
      let s := hops.foldl (fun s h => s.takeSlots h (ownerOf src circ) (probeSlots p) (List.range 32).reverse) s
      match port, s.exitPort (kPKG p) with
      | some q, some (role, k, _) =>
        ({ s with probes := s.probes ++ [(⟨src, circ, kTXID p⟩ : Probe)] } : State).portSend k q p role
      | _, _ => s.ackWith p cDONE

def execCopen (src : BitVec 20) (circ : BitVec 12) (s : State) : Answer :=
  .next (match s.probeOf tyCOPEN src circ with
    | some p =>
      if !s.powered || s.absorbs p then s
      else if kPKG p = s.position && !packetOk p then s.discard p
      else s.probe p
    | none => s)

/-- A release crosses this package (R264). -/
def State.unprobe (s : State) (p : Packet) (circ : BitVec 12) : State :=
  let s := (s.landed p).freeCirc (kSRC p) circ
  if kPKG p = s.position then s.ackWith p cDONE else s.inject p

def execCclose (src : BitVec 20) (circ : BitVec 12) (s : State) : Answer :=
  .next (match s.probeOf tyCCLOSE src circ with
    | some p =>
      if !s.powered || s.absorbs p then s
      else if kPKG p = s.position && !packetOk p then s.discard p
      else s.unprobe p circ
    | none => s)

/-- Hops of this package on which the circuit owns a slot. -/
def State.ownedHops (s : State) (owner : Nat) : List Nat := (s.slots.filter fun e => e.2 = owner).map fun e => e.1 / 32

/-- A hop of circuit `circ` of core `k` has gone (R267): one fenced here, its Ronnen port down, or, for a circuit that
leaves this package, one of another package. -/
def State.circGone (s : State) (k n : Nat) (circ : BitVec 12) (why : BreakCause) : Bool :=
  let hops := s.ownedHops (ownerOf (s.nameOf k) circ)
  let away : Bool := a20Pkg (BitVec.ofNat 20 (s.fld (aCirc k n) 24 20)) ≠ s.position
  match why with
  | .fenced => away || hops.any fun h => h ∈ s.badHops
  | .portDown => away

/-- A circuit breaks (R267). -/
def State.circBreak (s : State) (k : Nat) (circ : BitVec 12) (why : BreakCause) : State :=
  match s.circEntry k circ.toNat with
  | none => s
  | some n =>
    if !s.powered || s.fld (aCirc k n) 14 1 = 1 || !s.circGone k n circ why then s
    else (s.setFld (aCirc k n) 14 1 1).raiseOpen { s.coreRec k 1 0x23 0 with detail := circ.toNat }

def execCircuitBreak (c : CoreId) (circ : BitVec 12) (why : BreakCause) (s : State) : Answer :=
  .next (s.circBreak (kOf c) circ why)

/-! ## Credits (R223 to R226) -/

/-- A credit message leaves flight. -/
def State.creditLanded (s : State) (m : CreditMsg) : State := { s with creditNet := s.creditNet.erase m }

/-- A request reaches its pool. -/
def State.creditAsked (s : State) (k dh : Nat) (me src : BitVec 20) (txid : BitVec 12) : State :=
  if !s.powered then s
  else
    let s := s.creditLanded (.request me (BitVec.ofNat 8 dh).toNat src txid)
    let h := (s.core k).handle dh
    let n := hPOOL h
    let p := (s.core k).pool n
    let say := fun (s : State) code => { s with creditNet := s.creditNet ++ [.grant src txid p.epoch code] }
    if s.coreAbsorbed k then say s cABSORBED
    else
      let s := s.touch k
      if !hPOOLEN h then say s cDONE
      else if p.limit = 0 then say s cCREDIT
      else (s.modCore k fun c => c.setPool n { p with waiting := p.waiting ++ [(src, txid)] }).poolPump k n

def execCreditRequest (c : CoreId) (dh : BitVec 8) (src : BitVec 20) (txid : BitVec 12) (s : State) : Answer :=
  .next (s.creditAsked (kOf c) dh.toNat (s.nameOf (kOf c)) src txid)

/-- An answer to a request reaches the sender: a grant is kept or, when the transfer has ended, returned; a refusal ends
the transfer (R226, R518). -/
def State.creditAnswered (s : State) (k : Nat) (txid : BitVec 12) (epoch code : Nat) : State :=
  if !s.powered then s
  else
    let s := (s.creditLanded (.grant (s.nameOf k) txid epoch code)).touch k
    match (s.core k).xfer txid with
    | none => s
    | some x =>
      if x.requested = 0 then s
      else
        let s := s.modCore k fun c => c.updXfer txid fun y => { y with requested := y.requested - 1 }
        let s := if code ≠ cDONE then s.failXfer k x code
          else if x.ended then s.giveBack x.dest x.dh (s.nameOf k) txid [epoch]
          else s.modCore k fun c => c.updXfer txid fun y => { y with grants := y.grants ++ [epoch] }
        (s.pump k).modCore k Core.sweep

/-- The credit of pool `n` of core `k` that a return gives back: of one in flight here, of the transfer it names. -/
def State.lentBack (s : State) (k n epoch : Nat) : Option CreditMsg × Lent :=
  let c := s.core k
  let named := s.creditNet.findSome? fun m => match m with
    | .giveBack d _ src t e =>
      if d = s.nameOf k ∧ e = epoch ∧ (⟨n, src, t, e⟩ : Lent) ∈ c.lent then some (some m, (⟨n, src, t, e⟩ : Lent)) else none
    | .lost d _ src t => match c.lentTo src t with
      | some l => if d = s.nameOf k ∧ l.pool = n ∧ l.epoch = epoch then some (some m, l) else none
      | none => none
    | _ => none
  named.getD (none, (c.lent.find? fun l => l.pool = n && l.epoch = epoch && a20Pkg l.src ≠ s.position).getD ⟨n, 0, 0, epoch⟩)

/-- A return reaches the pool: applied when its epoch is the pool's, else discarded (R424). -/
def State.creditReturned (s : State) (k n epoch : Nat) : State :=
  if !s.powered then s
  else
    let r := s.lentBack k n epoch
    let s := match r.1 with | some m => s.creditLanded m | none => s
    if s.coreAbsorbed k then s else (s.touch k).creditHome k r.2

def execCreditReturn (c : CoreId) (pool : Fin 32) (epoch : Nat) (s : State) : Answer :=
  .next (s.creditReturned (kOf c) pool.val epoch)

/-! ## The deadlock census (R239, R240, R243) -/

/-- Why a queue is blocked: CAUSE, WHAT, VALUE, OPCODE of `CORE_CENSUS_Q`. -/
structure Block where
  cause : Nat
  what : Nat
  value : Nat
  op : Nat
deriving DecidableEq, Repr

/-- The queue holds a command that is not complete. -/
def Core.busy (c : Core) (q : Nat) : Bool := (c.queue q).any Item.live || (c.ledger q ≠ 0)

/-- An unsatisfied `WAIT` without a timeout. -/
def Core.waitBlock (c : Core) (it : Item) : Option Block :=
  let d := it.desc
  if dOP d = 0x61 ∧ yTIMEOUT d = 0 ∧ !satisfies (c.flag (yFLAG d)) (yVALUE d) then
    some ⟨1, yFLAG d, (yVALUE d).toNat, 0x61⟩
  else none

/-- The pool that a transfer of queue `q` asks, where its handle is in this package; of one elsewhere, some pool (log 11). -/
def State.poolAsked (s : State) (q : Nat) (x : Xfer) : Nat :=
  if a20Pkg x.dest = s.position then
    hPOOL ((s.core (a20Die x.dest * 72 + a20Core x.dest)).handle x.dh)
  else (Config.freeValue (s.free + q)).toNat % 32

/-- A move command that waits for a credit grant. -/
def State.creditBlock (s : State) (k : Nat) (it : Item) (x : Exec) : Option Block :=
  match x.txid.bind (s.core k).xfer with
  | some y =>
    if y.needCredit ∧ !y.ended ∧ y.unsent ≠ [] ∧ y.grants = [] then some ⟨2, s.poolAsked y.queue y, 0, dOP it.desc⟩ else none
  | none => none

/-- A queue blocked by itself: its executing command waits for a flag or for a credit. -/
def State.selfBlock (s : State) (k q : Nat) : Option Block :=
  match (s.core k).executing q with
  | [(it, x)] => match (s.core k).waitBlock it with
    | some b => some b
    | none => s.creditBlock k it x
  | _ => none

/-- Queues known to be blocked, and those whose head is held by one of them. -/
def State.blockRound (s : State) (k : Nat) (known : List (Nat × Block)) : List (Nat × Block) :=
  (List.range 16).filterMap fun q =>
    match known.find? (·.1 = q) with
    | some e => some e
    | none => match s.selfBlock k q with
      | some b => some (q, b)
      | none =>
        if (s.core k).executing q ≠ [] then none
        else match (s.core k).head q with
        | none => none
        | some it => match s.itemHolder k q it with
          | some h => if known.any (·.1 = h) then some (q, ⟨3, h, 0, dOP it.desc⟩) else none
          | none => none

/-- The blocked queues of a core: sixteen rounds reach every one. -/
def State.blockedQueues (s : State) (k : Nat) : List (Nat × Block) := (List.range 16).foldl (fun b _ => s.blockRound k b) []

/-- The compositor's `CWAIT` without a timeout: its flag. -/
def Core.cwaitFlag (c : Core) : Option Nat :=
  match c.stall with
  | .cwait _ v f _ n => if c.run && n = 0 && !satisfies (c.flag f) v then some f else none
  | _ => none

def Core.pushStalled (c : Core) : Bool :=
  match c.stall with | .push q d del => c.run && c.pushBlocked q d del | _ => false

/-- R239, but for its last point. A compositor that is armed and has not started does not count as halted (DESIGN CHOICE,
log 100). -/
def State.censusBlocked (s : State) (k : Nat) : Bool :=
  let c := s.core k
  let qs := (List.range 16).filter c.busy
  (!c.run && !c.armed || c.cwaitFlag.isSome || c.pushStalled) && !c.frozen && (qs ≠ [] || c.cwaitFlag.isSome) &&
  (let b := s.blockedQueues k
   qs.all fun q => b.any (·.1 = q))

/-- The census freezes the core after the 4,096th tick counted (R240). `census` counts the ticks that began while the core was
blocked. -/
def State.censusFreeze (s : State) (k : Nat) : State :=
  let c := s.core k
  if !s.live k || c.census ≤ 4096 || !s.censusBlocked k then s
  else
    let b := s.blockedQueues k
    let qmask := b.foldl (fun m e => m + 2 ^ e.1) 0
    let cmp : Nat := if c.cwaitFlag.isSome || c.pushStalled then 1 else 0
    let s := s.wr (aCoreK k 0xD00) (BitVec.ofNat 64 (1 + 2 * cmp + 4 * qmask + c.cwaitFlag.getD 0 * 2 ^ 18))
    let s := s.wr (aCoreK k 0xD08) (BitVec.ofNat 64 s.tick)
    let s := b.foldl (fun s e => s.wr (aCoreK k (0xD40 + 8 * e.1))
      (BitVec.ofNat 64 (e.2.op + e.2.cause * 2 ^ 8 + e.2.what * 2 ^ 10 + e.2.value * 2 ^ 32))) s
    let s := { s with free := s.free + 16 }
    (s.modCore k fun c => { c with frozen := true }).raise (s.coreRec k 3 0x03 (BitVec.ofNat 16 cCENSUS))

def execCensusFreeze (c : CoreId) (s : State) : Answer := .next (s.censusFreeze (kOf c))

end Sys2Proof.Machine
end

