-- ==== Sys2Proof/Machine/Platen.lean ====
section
/-! DEFINITION. The platen (04): operands, exact products, stores and accumulate-writes, and its four commands. -/

namespace Sys2Proof.Machine

/-! ## Operands (R34 to R38, R95 to R102) -/

/-- The `w`-bit elements of a byte run, packed with no gaps (R35, R96). -/
def unpack (w : Nat) (bs : List Byte) : List Nat :=
  let n := leNat bs
  (List.range (bs.length * 8 / w)).map fun i => bits n (i * w) w

/-- Blocks of 32 decoded by `f`. -/
def byBlocks (f : Nat → List Nat → List (Option (Int × Int))) (xs : List Nat) : List (Option (Int × Int)) :=
  (List.range (ceilDiv xs.length 32)).flatMap fun b => f b ((xs.drop (32 * b)).take 32)

/-- An activation vector of L elements of format `f` from its bytes (R95, R100, R38). -/
def decodeVec (f L : Nat) (bs : List Byte) : List (Option (Int × Int)) :=
  let nb := ceilDiv L 32
  if fmtMX f then
    (byBlocks (fun b xs => xs.map fun x => withScale (leAt bs (nb * 32 + b) 1) (decElem f x)) (unpack 8 (bs.take (nb * 32)))).take L
  else if f = fBF16 then
    (byBlocks (fun _ xs => let r := bf16Block xs; r.2.map fun m => m.map fun m => (m, r.1)) (unpack 16 bs)).take L
  else (unpack 8 bs).map (decElem f) |>.take L

/-- The stripe of a `MATVEC` (R97). -/
structure Stripe where
  h : Wide
  B : Nat
  A : Nat
  N : Nat
  K : Nat
  Rt : Nat
  S : Nat

def stripeOf (h d : Wide) : Stripe :=
  ⟨h, hBASE h + pWOFF d, pA d, pN d, pK d, rowsPerOut h (pK d), if hMX h then scaleRows (pK d) else 0⟩

/-- abs(j) of R97. -/
def Stripe.abs (t : Stripe) (j : Nat) : Nat :=
  (t.B / 0x20000 + j % t.A) * 0x20000 + (t.B % 0x20000 / 0x80 + j / t.A * t.Rt) * 0x80

/-- The first scale byte of output j, as an absolute offset (R99). -/
def Stripe.scaleAt (t : Stripe) (j : Nat) : Nat :=
  hBASE t.h + hAUXBASE t.h + j % t.A * 0x20000 + j / t.A * t.S * 128

/-- The weights of output j, in input order (R96, R99, R101, R102). -/
def State.weights (s : State) (k : Nat) (t : Stripe) (outliers : List Nat) (j : Nat) : List (Option (Int × Int)) :=
  let f := hFORMAT t.h
  let w := fmtBits f
  let bulkRows := ceilDiv t.K (rowElems f)
  let used := w * rowElems f / 8
  let row := fun r => s.coreRead k 0 (t.abs j + 128 * r) used
  let bulk := ((List.range bulkRows).flatMap fun r => unpack w (row r)).take t.K
  let side := s.coreRead k 0 (t.abs j + 128 * bulkRows) outliers.length
  if f = fSPLIT then
    bulk.zipIdx.map fun (x, i) => match outliers.findIdx? (· = i) with
      | some c => decElem fINT8 (leAt side c 1)
      | none => decElem fINT4 x
  else if fmtMX f then
    byBlocks (fun b xs => xs.map fun x => withScale (s.coreNat k 0 (t.scaleAt j + b) 1) (decElem f x)) bulk
  else bulk.map (decElem f)

/-- An exact sum of products on the grid 2^L (R41 to R44). -/
def dot (ws xs : List (Option (Int × Int))) (L : Int) : Acc := (ws.zip xs).foldl (fun a e => a.add e.1 e.2 L) Acc.zero

/-! ## Results (R104, R105, R439) -/

/-- What a list item formed: its number, slot (0xFFFF none), the offset of its first result, the sums that it writes, the
sums of lanes that it does not write (R90), and the damage its reads met. -/
structure ItemOut where
  item : Nat
  slot : Nat
  off : Nat
  sums : List Acc
  lanes : List Acc
  dmg : Option Dmg

/-- The PS64 results of an item: NaR when it is damaged. -/
def ItemOut.words (o : ItemOut) : List Word := o.sums.map fun a => if o.dmg.isSome then psNaR else a.store.1
/-- A term was clamped (R41), in any lane, or a store would be (R45). -/
def ItemOut.sat (o : ItemOut) : Bool := o.sums.any (fun a => a.sat || a.store.2) || o.lanes.any (·.sat)
/-- A NaR term was formed, in any lane (R48, R90). -/
def ItemOut.nar (o : ItemOut) : Bool := o.sums.any (·.nar) || o.lanes.any (·.nar)

/-- Damage of the destination entries of an item in mode ACC (R439). -/
def State.accDamage (s : State) (k : Nat) (h : Wide) (o : ItemOut) (bad : List Nat) : Option Dmg :=
  s.damage k 2 (hBASE h + o.off) (8 * o.sums.length) bad

/-- One local result stored: plain, or added to the entry; a poisoned entry added to stays so. -/
def State.storeOne (s : State) (k : Nat) (acc : Bool) (off : Nat) (w : Word) (psn : Bool) : State × Bool :=
  let psn := psn || (acc && s.poisoned k 2 off)
  let old := BitVec.ofNat 64 (s.coreNat k 2 off 8)
  let r := if acc then psAdd old w else (w, false)
  let s := if acc ∧ old = psNaR then s.setFld (aNumeric k) 17 1 1 else s
  (s.coreWrite k 2 off (leBytes 8 (if psn then psNaR else r.1).toNat) psn, r.2)

/-- An item's results stored through partial-sum handle `h`. -/
def State.storeItem (s : State) (k : Nat) (h : Wide) (acc : Bool) (o : ItemOut) : State × Bool :=
  o.words.zipIdx.foldl (fun a e =>
    let r := a.1.storeOne k acc (hBASE h + o.off + 8 * e.2) e.1 o.dmg.isSome
    (r.1, a.2 || r.2)) (s, false)

/-! ## Transfers: the start of one, accumulate-writes of mode RACC (R266, R272, R273) -/

/-- A transfer as its command begins it. -/
def Xfer.fresh (t : BitVec 12) (q : Nat) (it : Item) (dest : BitVec 20) (dh : Nat) (circ : Option (BitVec 12))
    (unsent : List Packet) : Xfer where
  txid := t
  queue := q
  seq := it.seq
  opcode := dOP it.desc
  sig := dSIG it.desc
  dest := dest
  dh := dh
  unsent := unsent
  needCredit := false
  requested := 0
  grants := []
  unanswered := 0
  verdict := false
  codes := []
  ended := false
  flag := .none
  flagPkt := none
  replayed := false
  landing := []
  late := false
  circ := circ

/-- A transfer begins; what can leave at once does. -/
def State.startXfer (s : State) (k : Nat) (x : Xfer) : State :=
  (s.modCore k fun c => { (c.updExec x.queue x.seq fun e => { e with txid := some x.txid }) with
    xfers := c.xfers ++ [x], nextTx := x.txid + 1 }).pump k

/-- The next transfer number of core `k`: one that no transfer of it holds. -/
def Core.freshTx (c : Core) : BitVec 12 :=
  ((List.range 4096).map fun i => c.nextTx + BitVec.ofNat 12 i).find? (fun t => (c.xfer t).isNone) |>.getD c.nextTx

/-- SEGNO of segment `i`: 0 is the first alone, and the numbers from 65,536 on begin again at 1 (DESIGN CHOICE, log 98). -/
def segNo (i : Nat) : Nat := if i < 65536 then i else (i - 1) % 65535 + 1

/-- A packet with segment number `i`; the first carries the transfer's highest offset in ARG (R256), held at the field's
greatest value, which lies outside every side. -/
def numbered (hi : Nat) (i : Nat) (p : Packet) : Packet :=
  { p with hdr := putW (putW p.hdr 160 16 (segNo i)) 224 32 (if i = 0 then min hi (2 ^ 32 - 1) else 0) }

/-- An ACC packet of consecutive results at offset `off` of handle `dh`. -/
def State.accPkt (s : State) (k : Nat) (circ : Option (BitVec 12)) (dest : BitVec 20) (dh : Nat) (t : BitVec 12)
    (scale : Int) (off : Nat) (ws : List Word) (psn : Bool) : Packet :=
  let h := mkHdr tyACC circ (addrAt dest 2 off) dh (s.nameOf k) t 0 (8 * ws.length) 0
  let marks := if psn then 2 ^ ceilDiv (8 * ws.length) 64 - 1 else 0
  ⟨putW (putW h 120 8 (toBits 8 scale)) 176 16 marks, ws.flatMap fun w => leBytes 8 w.toNat, false⟩

/-- Results in store grants: groups of `stripe` outputs, cut into eights (R106, R273). -/
def grantsOf (stripe : Nat) (n : Nat) : List (Nat × Nat) :=
  (List.range (ceilDiv n stripe)).flatMap fun sw =>
    let m := min stripe (n - sw * stripe)
    (List.range (ceilDiv m 8)).map fun g => (sw * stripe + 8 * g, min 8 (m - 8 * g))

/-- The accumulate-writes of the items, as one transfer to the DIDX core. -/
def State.raccXfer (s : State) (k q : Nat) (it : Item) (dest : BitVec 20) (dh : Nat) (scale : Int) (stripe : Nat)
    (outs : List ItemOut) : State :=
  let t := (s.core k).freshTx
  let circ := s.circTo k dest
  let ps := outs.flatMap fun o => (grantsOf stripe o.sums.length).map fun g =>
    s.accPkt k circ dest dh t scale (o.off + 8 * g.1) ((o.words.drop g.1).take g.2) o.dmg.isSome
  let hi := outs.foldl (fun m o => max m (o.off + 8 * o.sums.length - 1)) 0
  s.startXfer k (.fresh t q it dest dh circ (ps.zipIdx.map fun e => numbered hi e.2 e.1))

/-- An item's results in a local mode: where it adds to entries, damage of an entry joins that of its reads. -/
def State.deliverOne (s : State) (k : Nat) (h : Wide) (acc : Bool) (bad : List Nat) (o : ItemOut) : State × Bool × ItemOut :=
  let o := { o with dmg := o.dmg.or (if acc then s.accDamage k h o bad else none) }
  let r := s.storeItem k h acc o
  (r.1, r.2, o)

/-- The items delivered one after the other, each on what the ones before it stored (R108). -/
def State.deliverEach (k : Nat) (h : Wide) (acc : Bool) (bad : List Nat) : List ItemOut → State → State × Bool × List ItemOut
  | [], s => (s, false, [])
  | o :: os, s =>
    let a := s.deliverOne k h acc bad o
    let b := State.deliverEach k h acc bad os a.1
    (b.1, a.2.1 || b.2.1, a.2.2 :: b.2.2)

/-- The results of a platen command delivered in its mode, and the command's work done (R104, R47, R108, R439). The record of
damage names the first damaged item. -/
def State.deliverItems (s : State) (k q : Nat) (bad : List Nat) (it : Item) (x : Exec) (stripe : Nat) (outs : List ItemOut) :
    State :=
  let d := it.desc
  let r := if pYMODE d = 2 then (s, false, outs) else State.deliverEach k (x.handle (pYH d)) (pYMODE d = 1) bad outs s
  let s := r.1
  let outs := r.2.2
  let first := outs.find? fun o => o.dmg.isSome
  let s := match first with
    | some o => match o.dmg with
      | some g => s.raise (s.dmgRec k q it.seq (dOP d) o.item o.slot g)
      | none => s
    | none => s
  let s := if outs.any ItemOut.nar then s.setFld (aNumeric k) 17 1 1 else s
  let s := if pYMODE d = 2 then
      s.raccXfer k q it (s.racDest k (pDIDX d)) (pYH d) (pASCALE d) stripe (outs.filter fun o => o.sums ≠ [])
    else s
  let sat := r.2.1 || outs.any ItemOut.sat
  let s := s.modCore k fun c => c.updExec q it.seq fun e => { e with recorded := e.recorded || first.isSome }
  s.workDone k q it ((if first.isSome then [cPARITY] else []) ++ if sat then [cSATURATED] else []) 0

/-- Counters of R117: half-rows, array-beats and active beats, `a` beats to a half-row. -/
def State.platenCount (s : State) (k halfrows a active : Nat) : State :=
  ((s.addFld (aCoreK k 0x288) 0 64 halfrows).addFld (aCoreK k 0x298) 0 64 (a * halfrows)).addFld (aCoreK k 0x280) 0 64 active

/-- Beats of a half-row (R91). -/
def actBeats (f : Nat) : Nat := if f = fBF16 then 2 else 1

/-- The first damage of a list of ranges (space, offset, bytes). -/
def State.firstDamage (s : State) (k : Nat) (bad : List Nat) (rs : List (Nat × Nat × Nat)) : Option Dmg :=
  rs.findSome? fun r => s.damage k r.1 r.2.1 r.2.2 bad

/-- The rows to restore among weight ranges. -/
def State.rowsToRestore (s : State) (k : Nat) (bad : List Nat) (rs : List (Nat × Nat × Nat)) : List Nat :=
  (rs.filter (·.1 = 0)).flatMap fun r => s.toRestore k r.2.1 r.2.2 bad

/-! ## `MATVEC` (R104, R107, R108) -/

/-- What a `MATVEC` reads for every item: rows, scales, map. -/
def matvecReads (t : Stripe) (outliers : List Nat) : List (Nat × Nat × Nat) :=
  ((List.range t.N).flatMap fun j =>
    (if t.Rt = 0 then [] else [(0, t.abs j, 128 * t.Rt)]) ++
    (if t.S = 0 then [] else [(0, t.scaleAt j, ceilDiv t.K 32)])) ++
  (if outliers = [] then [] else [(0, hBASE t.h + hAUXBASE t.h, 2 * outliers.length)])

/-- A sweep whose rows have to be restored first is discarded and replayed; only the replayed one counts (R117; DESIGN CHOICE,
log 97). -/
def State.matvecWork (s : State) (k q : Nat) (bad : List Nat) (it : Item) (x : Exec) : State :=
  let d := it.desc
  let t := stripeOf (x.handle (pWH d)) d
  let X := x.handle (pXH d)
  let f := hFORMAT X
  let len := vecBytes f t.K
  let reads := matvecReads t x.outliers
  let rows := s.rowsToRestore k bad reads
  if rows ≠ [] then s.startRestore k q rows
  else
    let ws := (List.range t.N).map (s.weights k t x.outliers)
    let outs := (activeItems d).map fun i =>
      let xs := decodeVec f t.K (s.coreRead k 1 (hBASE X + itemX d i) len)
      (⟨i, 0xFFFF, itemY d i, ws.map fun w => dot w xs (pASCALE d), [],
        s.firstDamage k bad (reads ++ [(1, hBASE X + itemX d i, len)])⟩ : ItemOut)
    let n := (activeItems d).length
    let s := s.platenCount k (n * t.N * 2 * t.Rt) (actBeats f) (n * ceilDiv t.N t.A * 2 * t.Rt * actBeats f)
    s.deliverItems k q bad it x t.A outs

def execMatvec (c : CoreId) (q : Fin 16) (bad : List Nat) (s : State) : Answer :=
  .next (s.work (kOf c) q.val 0x10 fun it x s => s.matvecWork (kOf c) q.val bad it x)

/-! ## KV commands (R107 to R114) -/

/-- The tables an item of a KV command reads at issue: its entry, its pages' entries. -/
def kvReads (H d : Wide) (e : KvItem) : List (Nat × Nat × Nat) :=
  (1, pLOFF d + 4 * e.item, 4) ::
    (pagesOf (dOP d) e.n).map fun pg => (1, hAUXBASE H + (e.slot * hPTE H + pg) * 4, 4)

/-- Bytes of a poisoned output in the handle's format (R439). -/
def poisonByte (f : Nat) (b : Byte) : Byte := if f = fE4M3 ∨ f = fE5M2 then 0x7F else b

/-- The source of an item of a `KV_APPEND`: offset and bytes. -/
def appendSrc (x : Exec) (d : Wide) (e : KvItem) : Nat × Nat :=
  (hBASE (x.handle (pXH d)) + itemX d e.item, 128 * hT (x.handle (pWH d)))

/-- The damage that an item's reads meet. -/
def State.appendDamage (s : State) (k : Nat) (bad : List Nat) (x : Exec) (d : Wide) (e : KvItem) : Option Dmg :=
  s.firstDamage k bad (kvReads (x.handle (pWH d)) d e ++ [(1, (appendSrc x d e).1, (appendSrc x d e).2)])

/-- One item of a `KV_APPEND` (R110). -/
def State.appendItem (s : State) (k : Nat) (x : Exec) (d : Wide) (e : KvItem) (psn : Bool) : State :=
  let bs := s.coreRead k 1 (appendSrc x d e).1 (appendSrc x d e).2
  let bs := if psn then bs.map (poisonByte (hFORMAT (x.handle (pWH d)))) else bs
  e.rows.foldl (fun s r => s.coreWrite k 0 r bs psn) s

def State.appendWork (s : State) (k q : Nat) (bad : List Nat) (it : Item) (x : Exec) : State :=
  let d := it.desc
  let all := x.items.map fun e => (e, s.appendDamage k bad x d e)
  let s := match all.findSome? fun e => e.2.map fun g => (e.1, g) with
    | some (e, g) =>
      (s.raise (s.dmgRec k q it.seq 0x11 e.item e.slot g)).modCore k fun c =>
        c.updExec q it.seq fun y => { y with recorded := true }
    | none => s
  let s := all.foldl (fun s e => s.appendItem k x d e.1 e.2.isSome) s
  s.workDone k q it (if all.any fun e => e.2.isSome then [cPARITY] else []) 0

def execKvAppend (c : CoreId) (q : Fin 16) (bad : List Nat) (s : State) : Answer :=
  .next (s.work (kOf c) q.val 0x11 fun it x s => s.appendWork (kOf c) q.val bad it x)

/-- The tokens of an item that each array holds, for the active beats of R115. -/
def perArray (rows : List Nat) : Nat :=
  (List.range 32).foldl (fun m a => max m (rows.filter fun r => r / 0x20000 = a).length) 0

/-- The items of an attention command, with `sums` of its key or value rows, and the `lanes` that are formed beside them. -/
def State.attendWork (s : State) (k q : Nat) (bad : List Nat) (it : Item) (x : Exec) (vecLen : KvItem → Nat)
    (sums : List (List (Option (Int × Int))) → List (Option (Int × Int)) → List Acc)
    (lanes : Nat → List (List (Option (Int × Int))) → List (Option (Int × Int)) → List Acc) : State :=
  let d := it.desc
  let H := x.handle (pWH d)
  let X := x.handle (pXH d)
  let f := hFORMAT X
  let live := x.items.filter fun e => e.n ≠ 0
  let outs := live.map fun e =>
    let len := vecBytes f (vecLen e)
    let xs := decodeVec f (vecLen e) (s.coreRead k 1 (hBASE X + itemX d e.item) len)
    let rows := e.rows.map fun r => (unpack 8 (s.coreRead k 0 r (128 * hT H))).map (decElem (hFORMAT H))
    let reads := kvReads H d e ++ [(1, hBASE X + itemX d e.item, len)] ++ e.rows.map fun r => (0, r, 128 * hT H)
    (⟨e.item, e.slot, itemY d e.item, sums rows xs, lanes (128 * hT H) rows xs, s.firstDamage k bad reads⟩ : ItemOut)
  let s := s.platenCount k ((live.map fun e => e.n * 2 * hT H).sum) (actBeats f)
    ((live.map fun e => perArray e.rows * 2 * hT H * actBeats f).sum)
  s.deliverItems k q bad it x 8 outs

/-- score[t] of R112. -/
def scoreSums (D : Nat) (L : Int) (rows : List (List (Option (Int × Int)))) (xs : List (Option (Int × Int))) : List Acc :=
  rows.map fun r => dot (r.take D) xs L

/-- Lane accumulators `lo` to `lo + n − 1` of R90: the terms of one element of every row. -/
def laneSums (lo n : Nat) (L : Int) (rows : List (List (Option (Int × Int)))) (xs : List (Option (Int × Int))) : List Acc :=
  (List.range n).map fun d => dot (rows.map fun r => r.getD (lo + d) none) xs L

/-- out[d] of R113. -/
def applySums (D : Nat) (L : Int) (rows : List (List (Option (Int × Int)))) (xs : List (Option (Int × Int))) : List Acc :=
  laneSums 0 D L rows xs

/-- The lanes from D on: every element of a half-row forms its term (R90), and R113 writes the first D. -/
def restSums (D : Nat) (L : Int) (all : Nat) (rows : List (List (Option (Int × Int)))) (xs : List (Option (Int × Int))) :
    List Acc :=
  laneSums D (all - D) L rows xs

def execAttScore (c : CoreId) (q : Fin 16) (bad : List Nat) (s : State) : Answer :=
  .next (s.work (kOf c) q.val 0x12 fun it x s =>
    s.attendWork (kOf c) q.val bad it x (fun _ => pD it.desc) (scoreSums (pD it.desc) (pASCALE it.desc))
      fun _ _ _ => [])

def execAttApply (c : CoreId) (q : Fin 16) (bad : List Nat) (s : State) : Answer :=
  .next (s.work (kOf c) q.val 0x13 fun it x s =>
    s.attendWork (kOf c) q.val bad it x (fun e => e.n) (applySums (pD it.desc) (pASCALE it.desc))
      (restSums (pD it.desc) (pASCALE it.desc)))

end Sys2Proof.Machine
end

