-- ==== Sys2Proof/Machine/Brayer.lean ====
section
/-! DEFINITION. The brayer (05): tile operands, element-wise commands, the converter, reductions, maxima and sampling. -/

namespace Sys2Proof.Machine

/-! ## Tile operands (R118, R124 to R126) -/

/-- The patterns of a source operand as stored; a stride-zero operand gives its one element for every index. -/
def State.tileRead (s : State) (k : Nat) (t : TOp) : List Nat :=
  (List.range t.n).map fun i => s.tileNat k t.tile ((t.off + i * t.stride) * t.es) t.es

/-- Patterns of `es` bytes as bytes. -/
def elemBytes (es : Nat) (xs : List Nat) : List Byte := xs.flatMap (leBytes es)

/-- A source of type ET as FP32 patterns (R129). -/
def asFp32 (et : Nat) (xs : List Nat) : List Nat := if et = 0 then xs else xs.map widen

/-- FP32 results in type ET (R129). -/
def toEt (et : Nat) (x : Nat) : Nat := if et = 0 then x else narrow x

/-- The canonical NaN of type ET. -/
def etNaN (et : Nat) : Nat := if et = 0 then fNaN else bf16.nan

def opA (d : Wide) (n : Nat) : TOp := tileOp d 64 (etSize (bET d)) n false
def opB (d : Wide) (n : Nat) : TOp := tileOp d 80 (etSize (bET d)) n false
def opC (d : Wide) (n : Nat) : TOp := tileOp d 96 (etSize (bET d)) n false

/-- Source A as FP32 patterns. -/
def State.srcA (s : State) (k : Nat) (d : Wide) (n : Nat) : List Nat := asFp32 (bET d) (s.tileRead k (opA d n))
/-- Source B: the tile operand, or IMM, which is never narrowed (R125). -/
def State.srcB (s : State) (k : Nat) (d : Wide) (n : Nat) : List Nat :=
  if bBSRC d = 1 then List.replicate n (bIMM d) else asFp32 (bET d) (s.tileRead k (opB d n))
def State.srcC (s : State) (k : Nat) (d : Wide) (n : Nat) : List Nat := asFp32 (bET d) (s.tileRead k (opC d n))

/-- The damage that the tile sources meet. -/
def State.tileDamage (s : State) (k : Nat) (bad : List Nat) (d : Wide) (n : Nat) : Option Dmg :=
  ((tileOps d n).filter fun t => !t.wr && t.n ≠ 0).findSome? fun t => s.damage k 3 t.lo (t.hi - t.lo + 1) bad

/-! ## The end of every brayer command (R47, R148, R149, R439) -/

/-- Elements issued in a beat (R148). -/
def brRate (d : Wide) : Nat :=
  let op := dOP d
  if op = 0x33 ∨ op = 0x34 then (if bET d = 0 then 128 else 256) else if op = 0x35 then 8 else if op = 0x3C then 64 else 128

/-- The work is done: counters, the record of a damaged read, the codes. -/
def State.brDone (s : State) (k q : Nat) (it : Item) (dmg : Option Dmg) (sat : Bool) : State :=
  let d := it.desc
  let n := it.blen
  let s := (s.addFld (aCoreK k 0x2D8) 0 64 n).addFld (aCoreK k 0x2D0) 0 64 (ceilDiv n (brRate d))
  let s := match dmg with
    | some g => (s.raise (s.dmgRec k q it.seq (dOP d) 0xFFFF 0xFFFF g)).modCore k fun c =>
        c.updExec q it.seq fun y => { y with recorded := true }
    | none => s
  s.workDone k q it ((if dmg.isSome then [cPARITY] else []) ++ if sat then [cSATURATED] else []) 0

/-- Results of `es` bytes written to operand D; NaN when the command is damaged. -/
def State.putTile (s : State) (k : Nat) (d : Wide) (es nan : Nat) (xs : List Nat) (psn : Bool) : State :=
  let t := tileOp d 48 es xs.length true
  s.tileWrite k t.tile (t.off * es) (elemBytes es (if psn then xs.map fun _ => nan else xs)) psn

/-! ## Element-wise commands (R128 to R132, R143 to R146) -/

/-- A command whose results, in the type it writes, are `f` of the state, descriptor and length. -/
def State.brTiles (s : State) (k q op : Nat) (bad : List Nat) (es nan : Wide → Nat) (f : State → Wide → Nat → List Nat) :
    State :=
  s.work k q op fun it _ s =>
    let d := it.desc
    let g := s.tileDamage k bad d it.blen
    (s.putTile k d (es d) (nan d) (f s d it.blen) g.isSome).brDone k q it g false

/-- A command of type ET throughout, its FP32 results narrowed by R129. -/
def State.brEt (s : State) (k q op : Nat) (bad : List Nat) (f : State → Wide → Nat → List Nat) : State :=
  s.brTiles k q op bad (fun d => etSize (bET d)) (fun d => etNaN (bET d)) fun s d n => (f s d n).map (toEt (bET d))

def State.brUnary (s : State) (k q op : Nat) (bad : List Nat) (f : Nat → Nat) : State :=
  s.brEt k q op bad fun s d n => (s.srcA k d n).map f

def State.brBinary (s : State) (k q op : Nat) (bad : List Nat) (f : Nat → Nat → Nat) : State :=
  s.brEt k q op bad fun s d n => List.zipWith f (s.srcA k d n) (s.srcB k d n)

def execBrAdd (c : CoreId) (q : Fin 16) (bad : List Nat) (s : State) : Answer :=
  .next (s.brBinary (kOf c) q.val 0x21 bad fadd)

def execBrSub (c : CoreId) (q : Fin 16) (bad : List Nat) (s : State) : Answer :=
  .next (s.brBinary (kOf c) q.val 0x22 bad fsub)

def execBrMul (c : CoreId) (q : Fin 16) (bad : List Nat) (s : State) : Answer :=
  .next (s.brBinary (kOf c) q.val 0x23 bad fmul)

def execBrFma (c : CoreId) (q : Fin 16) (bad : List Nat) (s : State) : Answer :=
  .next (s.brEt (kOf c) q.val 0x24 bad fun s d n =>
    List.zipWith (fun (e : Nat × Nat) x => ffma e.1 e.2 x) ((s.srcA (kOf c) d n).zip (s.srcB (kOf c) d n))
      (s.srcC (kOf c) d n))

def execBrMax (c : CoreId) (q : Fin 16) (bad : List Nat) (s : State) : Answer :=
  .next (s.brBinary (kOf c) q.val 0x25 bad fmax)

def execBrMin (c : CoreId) (q : Fin 16) (bad : List Nat) (s : State) : Answer :=
  .next (s.brBinary (kOf c) q.val 0x26 bad fmin)

def execBrAbs (c : CoreId) (q : Fin 16) (bad : List Nat) (s : State) : Answer :=
  .next (s.brUnary (kOf c) q.val 0x27 bad fabs)

def execBrNeg (c : CoreId) (q : Fin 16) (bad : List Nat) (s : State) : Answer :=
  .next (s.brUnary (kOf c) q.val 0x28 bad fneg)

/-- `BR_COPY` moves patterns bit for bit. -/
def execBrCopy (c : CoreId) (q : Fin 16) (bad : List Nat) (s : State) : Answer :=
  .next (s.brTiles (kOf c) q.val 0x29 bad (fun d => etSize (bET d)) (fun d => etNaN (bET d))
    fun s d n => s.tileRead (kOf c) (opA d n))

/-- The pairs of R132: A, cosines, sines. -/
def rope : List Nat → List Nat → List Nat → List Nat
  | a0 :: a1 :: as, c :: cs, x :: xs =>
    ffma (fneg a1) x (fmul a0 c) :: ffma a1 c (fmul a0 x) :: rope as cs xs
  | _, _, _ => []

def execBrRope (c : CoreId) (q : Fin 16) (bad : List Nat) (s : State) : Answer :=
  .next (s.brEt (kOf c) q.val 0x2A bad fun s d n =>
    rope (s.srcA (kOf c) d n) (asFp32 (bET d) (s.tileRead (kOf c) (opB d (n / 2)))) (s.srcC (kOf c) d (n / 2)))

def execBrExp2 (c : CoreId) (q : Fin 16) (bad : List Nat) (s : State) : Answer :=
  .next (s.brUnary (kOf c) q.val 0x2B bad exp2)

def execBrRcp (c : CoreId) (q : Fin 16) (bad : List Nat) (s : State) : Answer :=
  .next (s.brUnary (kOf c) q.val 0x2C bad rcp)

def execBrRsqrt (c : CoreId) (q : Fin 16) (bad : List Nat) (s : State) : Answer :=
  .next (s.brUnary (kOf c) q.val 0x2D bad rsqrt)

def execBrLogistic (c : CoreId) (q : Fin 16) (bad : List Nat) (s : State) : Answer :=
  .next (s.brUnary (kOf c) q.val 0x2E bad logistic)

def execBrSilu (c : CoreId) (q : Fin 16) (bad : List Nat) (s : State) : Answer :=
  .next (s.brUnary (kOf c) q.val 0x2F bad silu)

def execBrGelu (c : CoreId) (q : Fin 16) (bad : List Nat) (s : State) : Answer :=
  .next (s.brUnary (kOf c) q.val 0x30 bad gelu)

def execBrWiden (c : CoreId) (q : Fin 16) (bad : List Nat) (s : State) : Answer :=
  .next (s.brTiles (kOf c) q.val 0x31 bad (fun _ => 4) (fun _ => fNaN) fun s d n =>
    (s.tileRead (kOf c) (tileOp d 64 2 n false)).map widen)

def execBrNarrow (c : CoreId) (q : Fin 16) (bad : List Nat) (s : State) : Answer :=
  .next (s.brTiles (kOf c) q.val 0x32 bad (fun _ => 2) (fun _ => bf16.nan) fun s d n =>
    (s.tileRead (kOf c) (tileOp d 64 4 n false)).map narrow)

/-! ## Memory operands (R127, R133) -/

/-- Offsets of the elements of a memory operand of `size` bytes. -/
def memOffs (h d : Wide) (size n : Nat) : List Nat := (List.range n).map fun i => hBASE h + bMOFF d + i * bMSTRIDE d * size

/-- The damage that the elements of a memory source meet. -/
def State.memDamage (s : State) (k space : Nat) (h d : Wide) (size n : Nat) (bad : List Nat) : Option Dmg :=
  (memOffs h d size n).findSome? fun o => s.damage k space o size bad

/-- Elements written through a memory operand: one run when they lie side by side, one by one otherwise. -/
def State.putMem (s : State) (k space : Nat) (h d : Wide) (size : Nat) (xs : List Nat) (psn : Bool) : State :=
  if bMSTRIDE d = 1 then s.coreWrite k space (hBASE h + bMOFF d) (elemBytes size xs) psn
  else ((memOffs h d size xs.length).zip xs).foldl (fun s e => s.coreWrite k space e.1 (leBytes size e.2) psn) s

def State.loadWork (s : State) (k q : Nat) (bad : List Nat) (it : Item) (x : Exec) : State :=
  let d := it.desc
  let h := x.handle (bMH d)
  let size := fmtBits (hFORMAT h) / 8
  let g := s.memDamage k 1 h d size it.blen bad
  let xs := (memOffs h d size it.blen).map fun o => s.coreNat k 1 o size
  let xs := if hFORMAT h = fBF16 ∧ bET d = 0 then xs.map widen else xs
  (s.putTile k d (etSize (bET d)) (etNaN (bET d)) xs g.isSome).brDone k q it g false

def execBrLd (c : CoreId) (q : Fin 16) (bad : List Nat) (s : State) : Answer :=
  .next (s.work (kOf c) q.val 0x33 fun it x s => s.loadWork (kOf c) q.val bad it x)

def State.storeWork (s : State) (k q : Nat) (bad : List Nat) (it : Item) (x : Exec) : State :=
  let d := it.desc
  let h := x.handle (bMH d)
  let size := fmtBits (hFORMAT h) / 8
  let g := s.tileDamage k bad d it.blen
  let xs := s.tileRead k (opA d it.blen)
  let xs := if hFORMAT h = fBF16 ∧ bET d = 0 then xs.map narrow else xs
  let xs := if g.isSome then xs.map fun _ => if hFORMAT h = fBF16 then bf16.nan else fNaN else xs
  (s.putMem k 1 h d size xs g.isSome).brDone k q it g false

def execBrSt (c : CoreId) (q : Fin 16) (bad : List Nat) (s : State) : Answer :=
  .next (s.work (kOf c) q.val 0x34 fun it x s => s.storeWork (kOf c) q.val bad it x)

/-! ## The converter (R134 to R137) -/

/-- The rounding mode of element `i` (R50, R137). -/
def State.modeOf (s : State) (k : Nat) (d : Wide) (i : Nat) : RMode :=
  if bRMODE d = 1 then
    .stochastic ((rand64 (s.rd (aCoreK k 0x2C0)) (BitVec.ofNat 64 (bRSTREAM d)) (BitVec.ofNat 64 (bRCTR d))
      (BitVec.ofNat 64 i)).toNat % 2 ^ 16)
  else .nearestEven

/-- The element format of a plain FP8 target. -/
def fp8 (f : Nat) : Fmt := if f = fE4M3 then e4m3 else e5m2

def State.cvtWork (s : State) (k q : Nat) (bad : List Nat) (it : Item) (x : Exec) : State :=
  let d := it.desc
  let h := x.handle (bMH d)
  let g := s.memDamage k 2 h d 8 it.blen bad
  let ws := (memOffs h d 8 it.blen).map fun o => BitVec.ofNat 64 (s.coreNat k 2 o 8)
  let s := if psNaR ∈ ws then s.setFld (aNumeric k) 17 1 1 else s
  let conv := fun f => ws.zipIdx.map fun e => cvtPs f e.1 (hPSCALE h) (s.modeOf k d e.2)
  if bCDST d = 1 then
    let o := x.handle (bOH d)
    let r := conv (fp8 (hFORMAT o))
    let ys := if g.isSome then r.map fun _ => 0x7F else r.map (·.1)
    (s.coreWrite k 1 (hBASE o + bIMM d % 2 ^ 20) (elemBytes 1 ys) g.isSome).brDone k q it g (r.any (·.2))
  else
    let r := conv (if bET d = 0 then fp32 else bf16)
    (s.putTile k d (etSize (bET d)) (etNaN (bET d)) (r.map (·.1)) g.isSome).brDone k q it g (r.any (·.2))

def execBrCvt (c : CoreId) (q : Fin 16) (bad : List Nat) (s : State) : Answer :=
  .next (s.work (kOf c) q.val 0x35 fun it x s => s.cvtWork (kOf c) q.val bad it x)

/-- Elements of `w` bits packed with no gaps (R35). -/
def pack (w : Nat) (xs : List Nat) : List Byte :=
  leBytes (xs.length * w / 8) (xs.zipIdx.foldl (fun n e => n + e.1 * 2 ^ (w * e.2)) 0)

/-- The bytes of an MX vector: blocks of elements, then their scales (R54, R100, R136). A damaged command writes the scale
0xFF (R439). -/
def mxBytes (f : Nat) (xs : List Nat) (mode : Nat → RMode) (psn : Bool) : List Byte :=
  let nb := ceilDiv xs.length 32
  let all := xs ++ List.replicate (nb * 32 - xs.length) 0
  let bs := (List.range nb).map fun b => quantBlock f ((all.drop (32 * b)).take 32) fun i => mode (32 * b + i)
  bs.flatMap (fun b => pack (fmtBits f) b.2) ++ bs.map fun b => BitVec.ofNat 8 (if psn then 0xFF else b.1)

def State.quantWork (s : State) (k q : Nat) (bad : List Nat) (it : Item) (x : Exec) : State :=
  let d := it.desc
  let h := x.handle (bMH d)
  let f := hFORMAT h
  let g := s.tileDamage k bad d it.blen
  let xs := s.tileRead k (tileOp d 64 4 it.blen false)
  if fmtMX f then
    (s.coreWrite k 1 (hBASE h + bMOFF d) (mxBytes f xs (s.modeOf k d) g.isSome) g.isSome).brDone k q it g false
  else
    let r := xs.zipIdx.map fun e => quantPlain (fp8 f) e.1 (s.modeOf k d e.2)
    let ys := if g.isSome then r.map fun _ => 0x7F else r.map (·.1)
    (s.putMem k 1 h d 1 ys g.isSome).brDone k q it g (r.any (·.2))

def execBrQuant (c : CoreId) (q : Fin 16) (bad : List Nat) (s : State) : Answer :=
  .next (s.work (kOf c) q.val 0x36 fun it x s => s.quantWork (kOf c) q.val bad it x)

/-! ## Reductions (R139, R140) -/

/-- A reduction's one result delivered in its mode. -/
def State.reduceWork (s : State) (k q : Nat) (bad : List Nat) (it : Item) (x : Exec) (sum : State → Wide → Nat → Acc) : State :=
  let d := it.desc
  let a := sum s d it.blen
  let h := x.handle (bMH d)
  let at' := hBASE h + bMOFF d
  let g := (s.tileDamage k bad d it.blen).or (if bYMODE d = 1 then s.damage k 2 at' 8 bad else none)
  let s := if a.nar then s.setFld (aNumeric k) 17 1 1 else s
  let w := if g.isSome then psNaR else a.store.1
  let sat := a.sat || a.store.2
  if bYMODE d = 3 then
    let r := cvtPs fp32 a.store.1 (bASCALE d) .nearestEven
    (s.putTile k d 4 fNaN [r.1] g.isSome).brDone k q it g (sat || r.2)
  else if bYMODE d = 2 then
    let t := (s.core k).freshTx
    let dest := s.racDest k (bDIDX d)
    let circ := s.circTo k dest
    let p := s.accPkt k circ dest (bMH d) t (bASCALE d) (bMOFF d) [w] g.isSome
    (s.startXfer k (.fresh t q it dest (bMH d) circ [numbered (bMOFF d + 7) 0 p])).brDone k q it g sat
  else
    let r := s.storeOne k (bYMODE d = 1) at' w g.isSome
    r.1.brDone k q it g (sat || r.2)

/-- One term of `BR_RSUM` and `BR_SAMPLE` (R43). -/
def termOf (x : Nat) (L : Int) (a : Acc) : Acc := a.add (some (1, 0)) (decFp32 x) L

def execBrRsum (c : CoreId) (q : Fin 16) (bad : List Nat) (s : State) : Answer :=
  .next (s.work (kOf c) q.val 0x37 fun it x s => s.reduceWork (kOf c) q.val bad it x fun s d n =>
    (s.srcA (kOf c) d n).foldl (fun a x => termOf x (bASCALE d) a) Acc.zero)

def execBrRsumsq (c : CoreId) (q : Fin 16) (bad : List Nat) (s : State) : Answer :=
  .next (s.work (kOf c) q.val 0x38 fun it x s => s.reduceWork (kOf c) q.val bad it x fun s d n =>
    let xs := (s.srcA (kOf c) d n).map decFp32
    dot xs xs (bASCALE d))

def execBrRdot (c : CoreId) (q : Fin 16) (bad : List Nat) (s : State) : Answer :=
  .next (s.work (kOf c) q.val 0x39 fun it x s => s.reduceWork (kOf c) q.val bad it x fun s d n =>
    dot ((s.srcA (kOf c) d n).map decFp32) ((asFp32 (bET d) (s.tileRead (kOf c) (opB d n))).map decFp32) (bASCALE d))

/-! ## Maxima and sampling (R141, R142) -/

def State.rmaxWork (s : State) (k q : Nat) (bad : List Nat) (it : Item) : State :=
  let d := it.desc
  let g := s.tileDamage k bad d it.blen
  let m := toEt (bET d) (maxOf (s.srcA k d it.blen))
  (s.putTile k d (etSize (bET d)) (etNaN (bET d)) [m] g.isSome).brDone k q it g false

def execBrRmax (c : CoreId) (q : Fin 16) (bad : List Nat) (s : State) : Answer :=
  .next (s.work (kOf c) q.val 0x3A fun it _ s => s.rmaxWork (kOf c) q.val bad it)

/-- The record of R141: index, element. A damaged command's element is NaN and its index what was computed (R439). -/
def State.putRecord (s : State) (k : Nat) (h d : Wide) (idx val : Nat) (psn : Bool) : State :=
  s.coreWrite k 1 (hBASE h + bMOFF d) (leBytes 4 idx ++ leBytes 4 (if psn ∨ isNaN val then fNaN else val)) psn

def State.argmaxWork (s : State) (k q : Nat) (bad : List Nat) (it : Item) (x : Exec) : State :=
  let d := it.desc
  let g := s.tileDamage k bad d it.blen
  let r := argMax (s.srcA k d it.blen)
  (s.putRecord k (x.handle (bMH d)) d r.1 r.2 g.isSome).brDone k q it g false

def execBrArgmax (c : CoreId) (q : Fin 16) (bad : List Nat) (s : State) : Answer :=
  .next (s.work (kOf c) q.val 0x3B fun it x s => s.argmaxWork (kOf c) q.val bad it x)

/-- A weight that `BR_SAMPLE` cannot draw from. -/
def badWeight (x : Nat) : Bool := fp32.special x || (fp32.sign x && !isZero x)

/-- The first index whose running sum exceeds T. -/
def drawIndex (T : Int) : Int → Nat → List Int → Option Nat
  | _, _, [] => none
  | P, i, t :: ts => if T < P + t then some i else drawIndex T (P + t) (i + 1) ts

/-- Index and element drawn, and whether the sum or a term was clamped (R142). -/
def sample (u : Nat) (L : Int) (xs : List Nat) : Nat × Nat × Bool :=
  if xs.any badWeight then (0xFFFFFFFF, fNaN, false)
  else
    let ts := xs.map fun x => termOf x L Acc.zero
    let sum := ts.foldl Acc.plus Acc.zero
    let S := sum.store.1.toInt
    let sat := ts.any (·.sat) || sum.store.2
    if S = 0 then (0xFFFFFFFF, fNaN, sat)
    else match drawIndex ((u * S) / 2 ^ 32) 0 0 (ts.map (·.v)) with
      | some i => (i, xs.getD i 0, sat)
      | none => (0xFFFFFFFF, fNaN, sat)

def State.sampleWork (s : State) (k q : Nat) (bad : List Nat) (it : Item) (x : Exec) : State :=
  let d := it.desc
  let g := s.tileDamage k bad d it.blen
  let u := (rand64 (s.rd (aCoreK k 0x2C0)) (BitVec.ofNat 64 (bRSTREAM d)) (BitVec.ofNat 64 (bRCTR d)) 0).toNat / 2 ^ 32
  let r := sample u (bASCALE d) (s.tileRead k (tileOp d 64 4 it.blen false))
  (s.putRecord k (x.handle (bMH d)) d r.1 r.2.1 g.isSome).brDone k q it g r.2.2

def execBrSample (c : CoreId) (q : Fin 16) (bad : List Nat) (s : State) : Answer :=
  .next (s.work (kOf c) q.val 0x3C fun it x s => s.sampleWork (kOf c) q.val bad it x)

end Sys2Proof.Machine
end

