-- ==== Sys2Proof/Machine/Move.lean ====
section
/-! DEFINITION. The move engine's commands within the fabric (R199 to R206, R228, R229, R263, R264): `COPY`, `WRITE`, `WRITE_ACK`,
`ACC_WRITE`, `READ`, `CIRCUIT`. Its host commands are in Machine/HostIf.lean. -/

namespace Sys2Proof.Machine

/-! ## Strided patterns (R199) -/

/-- Byte runs (offset, length) of COUNT units of SIZE bytes; units that lie end to end are one run (DEDUCED, log 22). -/
def runsOf (off count size stride : Nat) : List (Nat × Nat) :=
  if count = 0 ∨ size = 0 then []
  else if stride = size then [(off, count * size)]
  else (List.range count).map fun u => (off + u * stride, size)

/-- Runs cut into pieces of at most `n` bytes. -/
def cutRuns (n : Nat) (rs : List (Nat × Nat)) : List (Nat × Nat) :=
  rs.flatMap fun r => (List.range (ceilDiv r.2 n)).map fun i => (r.1 + n * i, min n (r.2 - n * i))

/-- A stream of bytes dealt to pieces of the given lengths. -/
def deal : List (Nat × Nat) → List Byte → List (Nat × List Byte)
  | [], _ => []
  | (o, n) :: rs, bs => (o, bs.take n) :: deal rs (bs.drop n)

/-- Runs of a pattern from which `n` bytes are taken, and the runs left. -/
def takeRuns : Nat → List (Nat × Nat) → List (Nat × Nat) × List (Nat × Nat)
  | _, [] => ([], [])
  | n, (o, l) :: rs =>
    if n = 0 then ([], (o, l) :: rs)
    else if l ≤ n then let r := takeRuns (n - l) rs; ((o, l) :: r.1, r.2)
    else ([(o, n)], (o + n, l - n) :: rs)

/-- The pieces of `rs` that each length of a list takes in turn. -/
def dealRuns : List Nat → List (Nat × Nat) → List (List (Nat × Nat))
  | [], _ => []
  | n :: ns, rs => let r := takeRuns n rs; r.1 :: dealRuns ns r.2

/-- The source runs of a move command, as absolute offsets of its handle's space. -/
def srcRuns (h d : Wide) : List (Nat × Nat) := runsOf (hBASE h + mSOFF d) (mCOUNT d) (mSIZE d) (mSSTRIDE d)

/-- The source bytes of a move command, in unit order. -/
def State.srcBytes (s : State) (k : Nat) (h d : Wide) : List Byte :=
  (srcRuns h d).flatMap fun r => s.coreRead k (hSPACE h) r.1 r.2

/-- The damage that the source meets. -/
def State.srcDamage (s : State) (k : Nat) (h d : Wide) (bad : List Nat) : Option Dmg :=
  (srcRuns h d).findSome? fun r => s.damage k (hSPACE h) r.1 r.2 bad

/-- Weight rows of the source to restore first (R437). -/
def State.srcRestore (s : State) (k : Nat) (h d : Wide) (bad : List Nat) : List Nat :=
  if hSPACE h = 0 then (srcRuns h d).flatMap fun r => s.toRestore k r.1 r.2 bad else []

/-- The record of a damaged source (R439); an edition fence raises this one as its own (R189). -/
def State.noteDamage (s : State) (k q : Nat) (it : Item) (g : Option Dmg) : State :=
  match g with
  | some g =>
    let r := s.dmgRec k q it.seq (dOP it.desc) 0xFFFF 0xFFFF g
    (s.raise (if dOP it.desc = 0x63 then { r with source := 0x61 } else r)).modCore k fun c =>
      c.updExec q it.seq fun y => { y with recorded := true, codes := y.codes ++ [cPARITY] }
  | none => s

/-- The work of a command that reads a local source: rows restored first, else `go` with the damage noted. -/
def State.srcWork (s : State) (k q op : Nat) (bad : List Nat) (go : Item → Exec → Bool → State → State) : State :=
  s.work k q op fun it x s =>
    let h := x.handle (mSH it.desc)
    let rows := s.srcRestore k h it.desc bad
    if rows ≠ [] then s.startRestore k q rows
    else
      let g := s.srcDamage k h it.desc bad
      go it x g.isSome (s.noteDamage k q it g)

/-! ## `COPY` -/

/-- Byte at offset `o` of a poisoned output of format `f` (R439). -/
def poisonAt (f o : Nat) (b : Byte) : Byte :=
  if f = fPS64 then (if o % 8 = 7 then 0x80 else 0)
  else if f = fFP32 then BitVec.ofNat 8 (bits fNaN (8 * (o % 4)) 8)
  else if f = fBF16 then BitVec.ofNat 8 (bits bf16.nan (8 * (o % 2)) 8)
  else poisonByte f b

/-- Bytes written to the runs of a pattern, in unit order. -/
def State.putRuns (s : State) (k : Nat) (h : Wide) (rs : List (Nat × Nat)) (bs : List Byte) (psn : Bool) : State :=
  (deal rs bs).foldl (fun s e =>
    let b := if psn then e.2.zipIdx.map fun x => poisonAt (hFORMAT h) (e.1 + x.2) x.1 else e.2
    s.coreWrite k (hSPACE h) e.1 b psn) s

/-- Source and destination of a `COPY` share a byte. -/
def copyOverlaps (sh dh : Wide) (src dst : List (Nat × Nat)) : Bool :=
  hSPACE sh = hSPACE dh && src.any fun a => dst.any fun b => overlaps a.1 b.1 a.2 b.2

/-- The absolute offsets of the bytes of a pattern, in unit order. -/
def placesOf (rs : List (Nat × Nat)) : List Nat := rs.flatMap fun r => (List.range r.2).map fun i => r.1 + i

/-- The bytes that a `COPY` writes whose source and destination share a byte. The spec does not say which units are read before
which are written: a source byte that the command writes from another place is open (log 27); one that it does not write, or
writes with itself, is as it was. -/
def copyBytes (src dst : List Nat) (bs : List Byte) : List Byte :=
  bs.zipIdx.map fun e =>
    let from' := src.getD e.2 0
    if dst.zipIdx.any fun x => x.1 = from' && src.getD x.2 0 ≠ from' then Config.copyOpen bs dst e.2 else e.1

def execCopy (c : CoreId) (q : Fin 16) (bad : List Nat) (s : State) : Answer :=
  .next (s.srcWork (kOf c) q.val 0x40 bad fun it x psn s =>
    let d := it.desc
    let dh := x.handle (mDH d)
    let dst := runsOf (hBASE dh + mDOFF d) (mCOUNT d) (mSIZE d) (mDSTRIDE d)
    let src := srcRuns (x.handle (mSH d)) d
    let bs := s.srcBytes (kOf c) (x.handle (mSH d)) d
    let bs := if copyOverlaps (x.handle (mSH d)) dh src dst then copyBytes (placesOf src) (placesOf dst) bs else bs
    (s.putRuns (kOf c) dh dst bs psn).workDone (kOf c) q.val it [] 0)

/-! ## `WRITE`, `WRITE_ACK`, `ACC_WRITE` (R201, R204) -/

/-- The circuit of a move command (R266). -/
def State.pathOf (s : State) (k : Nat) (d : Wide) : Option (BitVec 12) :=
  if mPATH d then s.circOf k (BitVec.ofNat 12 (mCIRC d)) else none

/-- The destination handle charges a pool: seen here for a core of this package, an operand for another (R204). -/
def State.charges (s : State) (dest : BitVec 20) (dh : Nat) (peer : Bool) : Bool :=
  if a20Pkg dest = s.position then hPOOLEN ((s.core (a20Die dest * 72 + a20Core dest)).handle dh) else peer

/-- The segments of a transfer to another core. -/
def State.segments (s : State) (k : Nat) (ty : Nat) (d : Wide) (t : BitVec 12) (scale : Int) (bs : List Byte) (psn : Bool) :
    List Packet :=
  let n := if ty = tyACC then 256 else 1024
  let rs := runsOf (mDOFF d) (mCOUNT d) (mSIZE d) (mDSTRIDE d)
  let hi := mDOFF d + (mCOUNT d - 1) * mDSTRIDE d + mSIZE d - 1
  (deal (cutRuns n rs) bs).zipIdx.map fun e =>
    let h := mkHdr ty (s.pathOf k d) (addrAt (mDEST d) 0 e.1.1) (mDH d) (s.nameOf k) t 0 e.1.2.length 0
    let h := if ty = tyACC then putW h 120 8 (toBits 8 scale) else h
    let h := if psn then putW h 176 16 (2 ^ ceilDiv e.1.2.length 64 - 1) else h
    numbered hi e.2 ⟨h, e.1.2, false⟩

/-- Some entry of the bytes of a partial-sum source is NaR (R48). -/
def narEntry (bs : List Byte) : Bool := (List.range (bs.length / 8)).any fun i => BitVec.ofNat 64 (leAt bs (8 * i) 8) = psNaR

/-- A write to another core begins: its segments, and its flagged packet when RSIG is 1 (R268, R269). -/
def State.writeOut (s : State) (k q ty : Nat) (peer : Bool) (it : Item) (x : Exec) (psn : Bool) : State :=
  let d := it.desc
  let t := (s.core k).freshTx
  let h := x.handle (mSH d)
  let ps := if x.zero then [] else s.segments k ty d t (hPSCALE h) (s.srcBytes k h d) psn
  let fl := if mRSIG d then some (s.flagPacketOf k (s.pathOf k d) (mDEST d) (mRFLAG d) 1 t) else none
  let y := Xfer.fresh t q it (mDEST d) (mDH d) (s.pathOf k d) ps
  let s := if ty = tyACC ∧ narEntry (s.srcBytes k h d) then s.setFld (aNumeric k) 17 1 1 else s
  (s.startXfer k { y with
    needCredit := s.charges (mDEST d) (mDH d) peer
    flagPkt := fl
    flag := if mRSIG d then .unsent else .none }).workDone k q it [] 0

def execWrite (c : CoreId) (q : Fin 16) (bad : List Nat) (peerCredits : Bool) (s : State) : Answer :=
  .next (s.srcWork (kOf c) q.val 0x41 bad fun it x psn s => s.writeOut (kOf c) q.val tyWRITE peerCredits it x psn)

def execWriteAck (c : CoreId) (q : Fin 16) (bad : List Nat) (peerCredits : Bool) (s : State) : Answer :=
  .next (s.srcWork (kOf c) q.val 0x42 bad fun it x psn s => s.writeOut (kOf c) q.val tyWRITE peerCredits it x psn)

def execAccWrite (c : CoreId) (q : Fin 16) (bad : List Nat) (peerCredits : Bool) (s : State) : Answer :=
  .next (s.srcWork (kOf c) q.val 0x43 bad fun it x psn s => s.writeOut (kOf c) q.val tyACC peerCredits it x psn)

/-! ## `READ` -/

/-- Requests for the source runs at DEST, and where each response lands in the local destination. -/
def State.readOutReqs (s : State) (k : Nat) (d dh : Wide) (t : BitVec 12) : List Packet × List (Nat × List (Nat × Nat)) :=
  let rs := cutRuns 1024 (runsOf (mSOFF d) (mCOUNT d) (mSIZE d) (mSSTRIDE d))
  let hi := mSOFF d + (mCOUNT d - 1) * mSSTRIDE d + mSIZE d - 1
  let dst := runsOf (hSPACE dh * 2 ^ 26 + hBASE dh + mDOFF d) (mCOUNT d) (mSIZE d) (mDSTRIDE d)
  (rs.zipIdx.map fun e => numbered hi e.2
      ⟨mkHdr tyRDREQ (s.pathOf k d) (addrAt (mDEST d) 0 e.1.1) (mSH d) (s.nameOf k) t 0 e.1.2 0, [], false⟩,
   (dealRuns (rs.map (·.2)) dst).zipIdx.map fun e => (segNo e.2, e.1))

def execRead (c : CoreId) (q : Fin 16) (s : State) : Answer :=
  .next (s.work (kOf c) q.val 0x44 fun it x s =>
    let d := it.desc
    let t := (s.core (kOf c)).freshTx
    let r := s.readOutReqs (kOf c) d (x.handle (mDH d)) t
    let y := Xfer.fresh t q.val it (mDEST d) (mDH d) (s.pathOf (kOf c) d) r.1
    (s.startXfer (kOf c) { y with landing := r.2 }).workDone (kOf c) q.val it [] 0)

/-! ## `CIRCUIT` (R263, R264) -/

/-- The probe or release of a `CIRCUIT` command leaves as a transfer of one packet. -/
def State.circuitOut (s : State) (k q ty : Nat) (it : Item) : State :=
  let d := it.desc
  let t := (s.core k).freshTx
  let p : Packet := ⟨mkHdr ty none (addrAt (mDEST d) 3 0) 0 (s.nameOf k) t 0 0 (probeArg (mCIRC d) (mSLOTS d)), [], false⟩
  (s.startXfer k (.fresh t q it (mDEST d) 0 none [p])).workDone k q it [] 0

def execCircuitOpen (c : CoreId) (q : Fin 16) (s : State) : Answer :=
  .next (s.work (kOf c) q.val 0x49 fun it _ s => if mCOP it.desc = 0 then s.circuitOut (kOf c) q.val tyCOPEN it else s)

/-- No executing command uses the circuit and everything sent on it is answered (R264). -/
def Core.circIdle (c : Core) (circ : Nat) : Bool :=
  (((List.range 16).flatMap c.executing).all fun e =>
    !(0x41 ≤ dOP e.1.desc && dOP e.1.desc ≤ 0x44 && mPATH e.1.desc && mCIRC e.1.desc = circ)) &&
  c.xfers.all fun x => x.circ ≠ some (BitVec.ofNat 12 circ) || (x.unsent.isEmpty && x.unanswered = 0 && x.flag = .none)

def execCircuitClose (c : CoreId) (q : Fin 16) (s : State) : Answer :=
  .next (s.work (kOf c) q.val 0x49 fun it _ s =>
    if mCOP it.desc = 1 && (s.core (kOf c)).circIdle (mCIRC it.desc) then s.circuitOut (kOf c) q.val tyCCLOSE it else s)

end Sys2Proof.Machine
end

