-- ==== Sys2Proof/Machine/Sync.lean ====
section
/-! DEFINITION. The sync unit (R207 to R209, R218 to R220): `SIGNAL`, `WAIT`, `HANDLE_WRITE`, `EDITION_FENCE`; the handle window
(R68, R88); the pool registers (R222). -/

namespace Sys2Proof.Machine

/-! ## `SIGNAL` -/

/-- A remote `SIGNAL` is a transfer of its flagged packet alone (R268). -/
def State.signalOut (s : State) (k q : Nat) (it : Item) : State :=
  let d := it.desc
  let t := (s.core k).freshTx
  let y := Xfer.fresh t q it (yDEST d) 0 none []
  (s.startXfer k { y with
    flagPkt := some (s.flagPacketOf k none (yDEST d) (yFLAG d) (yVALUE d) t)
    flag := .unsent }).workDone k q it [] 0

/-- A local `SIGNAL` adds; an over-return of credits gives CREDIT_FAULT (R225). -/
def State.signalHere (s : State) (k q : Nat) (it : Item) : State :=
  let r := s.flagAdd k (yFLAG it.desc) (yVALUE it.desc) q
  r.1.workDone k q it (if r.2 then [cCREDIT] else []) 0

def execSignal (c : CoreId) (q : Fin 16) (s : State) : Answer :=
  .next (s.work (kOf c) q.val 0x60 fun it _ s =>
    if yRMT it.desc then s.signalOut (kOf c) q.val it else s.signalHere (kOf c) q.val it)

/-! ## `WAIT` -/

/-- The tick in which the flag of a `WAIT` satisfied it: the first, which its issue or a change of the flag has kept, or this
one (R219). -/
def State.metTick (s : State) (k : Nat) (it : Item) (x : Exec) : Option Nat :=
  match x.met with
  | some t => some t
  | none =>
    if satisfies ((s.core k).flag (yFLAG it.desc)) (yVALUE it.desc) && !expired s.tick x.issued (yTIMEOUT it.desc) then some s.tick
    else none

/-- A `WAIT` that was satisfied in the tick of its issue completes (R219). -/
def execWait (c : CoreId) (q : Fin 16) (s : State) : Answer :=
  .next (s.work (kOf c) q.val 0x61 fun it x s =>
    if s.metTick (kOf c) it x = some x.issued then s.workDone (kOf c) q.val it [] 0 else s)

/-- One that was satisfied completes with arrival, with NEAR_EXPIRY where that was in the deadline tick (R219, R220). -/
def execWaitArrival (c : CoreId) (q : Fin 16) (s : State) : Answer :=
  .next (s.work (kOf c) q.val 0x61 fun it x s =>
    match s.metTick (kOf c) it x with
    | some t =>
      s.workDone (kOf c) q.val it [] (if nearExpiry t x.issued (yTIMEOUT it.desc) then withFlag 0 fNEAREXPIRY else 0)
    | none => s)

/-- The deadline tick has ended and the wait was not satisfied in it or before (R220). -/
def execWaitTimeout (c : CoreId) (q : Fin 16) (s : State) : Answer :=
  .next (s.work (kOf c) q.val 0x61 fun it x s =>
    if expired s.tick x.issued (yTIMEOUT it.desc) ∧ x.met = none then s.workDone (kOf c) q.val it [cTIMEDOUT] 0 else s)

/-! ## `HANDLE_WRITE`, `EDITION_FENCE` (R67, R208, R209) -/

/-- The operand of a sync command: 32 bytes of its activation handle, or its damage. -/
def State.syncOperand (s : State) (k : Nat) (h d : Wide) (bad : List Nat) : Except Dmg Wide :=
  match s.damage k 1 (hBASE h + ySOFF d) 32 bad with
  | some g => .error g
  | none => .ok (BitVec.ofNat 256 (s.coreNat k 1 (hBASE h + ySOFF d) 32))

/-- A sync command that reads its operand: a damaged one changes no handle (R439). -/
def State.syncWork (s : State) (k q op : Nat) (bad : List Nat) (go : Item → Wide → State → State) : State :=
  s.work k q op fun it x s =>
    match s.syncOperand k (x.handle (ySH it.desc)) it.desc bad with
    | .error g => (s.noteDamage k q it (some g)).workDone k q it [] 0
    | .ok v => go it v s

def State.installHandle (s : State) (k q : Nat) (it : Item) (v : Wide) : State :=
  let code := s.handleCheck v
  if code = cDONE then (s.modCore k fun c => c.setHandle (yTH it.desc) v).workDone k q it [] 0
  else s.workDone k q it [code] 0

def execHandleWrite (c : CoreId) (q : Fin 16) (bad : List Nat) (s : State) : Answer :=
  .next (s.syncWork (kOf c) q.val 0x62 bad fun it v s => s.installHandle (kOf c) q.val it v)

/-- The handles that a mask names. -/
def maskHandles (m : Wide) : List Nat := (List.range 256).filter fun h => getW m h 1 = 1

/-- Every named handle is checked before any changes (R209). -/
def State.fence (s : State) (k q : Nat) (it : Item) (m : Wide) : State :=
  let hs := maskHandles m
  let ok := hs.all fun h => hPEND ((s.core k).handle h) && hEDPEND ((s.core k).handle h) = (yVALUE it.desc).toNat
  if hs = [] then s.workDone k q it [] (withFlag 0 fZEROLEN)
  else if !ok then s.workDone k q it [cEDITION] 0
  else (s.modCore k fun c => hs.foldl (fun c h => c.setHandle h (fenceEntry (c.handle h))) c).workDone k q it [] 0

def execEditionFence (c : CoreId) (q : Fin 16) (bad : List Nat) (s : State) : Answer :=
  .next (s.syncWork (kOf c) q.val 0x63 bad fun it v s => s.fence (kOf c) q.val it v)

/-! ## The handle window (R68, R88) -/

def aHandleSel (k : Nat) : Nat := aCoreK k 0x200
def aHandleWord (k n : Nat) : Nat := aCoreK k (0x208 + 8 * n)

/-- An uncompleted command names the handle (R68): one that records a read or write of it. -/
def State.handleBusy (s : State) (k h : Nat) : Bool :=
  (s.sbRanges k).any fun e => e.2.any fun r => r.space = 4 && r.lo ≤ h && h ≤ r.hi

/-- LOAD: the entry of HANDLE into the four words. -/
def State.selLoad (s : State) (k h : Nat) : State :=
  (List.range 4).foldl (fun s n => s.wr (aHandleWord k n) (BitVec.ofNat 64 (getW ((s.core k).handle h) (64 * n) 64))) s

/-- The entry that the four words hold. -/
def State.selEntry (s : State) (k : Nat) : Wide :=
  mkW ((List.range 4).map fun n => (64 * n, 64, (s.rd (aHandleWord k n)).toNat))

/-- INSTALL: checked whole by R67; STATUS holds the code. -/
def State.selInstall (s : State) (k h : Nat) : State :=
  let v := s.selEntry k
  let code := if s.handleBusy k h then cHANDLE else s.handleCheck v
  let s := s.setFld (aHandleSel k) 16 8 code
  if code = cDONE then s.modCore k fun c => c.setHandle h v else s

/-- A write of `CORE_HANDLE_SEL`: INDEX, then LOAD or INSTALL; one that sets both is ignored. -/
def State.handleSel (s : State) (k : Nat) (v : Word) : State :=
  let i := getF v 0 8
  let s' := s.setFld (aHandleSel k) 0 8 i
  match getF v 8 1, getF v 9 1 with
  | 1, 1 => s
  | 1, _ => s'.selLoad k i
  | _, 1 => s'.selInstall k i
  | _, _ => s'

def execHandleSelLoad (c : CoreId) (v : Word) (s : State) : Answer :=
  .next (if s.powered && getF v 8 1 = 1 then s.handleSel (kOf c) v else s)

def execHandleSelInstall (c : CoreId) (v : Word) (s : State) : Answer :=
  .next (if s.powered && getF v 9 1 = 1 then s.handleSel (kOf c) v else s)

/-! ## Credit pools as registers (R221, R222) -/

/-- The 8-byte entry of a pool. -/
def Pool.word (p : Pool) : Word :=
  BitVec.ofNat 64 (p.limit + p.avail * 2 ^ 16 + (if p.held then 2 ^ 32 else 0) + (if p.ovr then 2 ^ 33 else 0) +
    p.relflag * 2 ^ 40)

/-- A write of a pool's entry under byte lanes `m`. -/
def Pool.write (p : Pool) (v m : Word) : Pool :=
  let w := (p.word &&& ~~~m) ||| (v &&& m)
  let p := if getF v 33 1 = 1 ∧ getF m 33 1 = 1 then { p with ovr := false } else p
  let limit := getF w 0 11
  if p.avail = p.limit ∧ limit ≤ 1024 then
    { p with limit := limit, avail := limit, held := getF w 32 1 = 1, relflag := getF w 40 8 }
  else p

def State.poolWrite (s : State) (k n : Nat) (v m : Word) : State :=
  (s.modCore k fun c => c.setPool n ((c.pool n).write v m)).poolPump k n

def execCreditPoolWrite (c : CoreId) (pool : Fin 32) (v : Word) (s : State) : Answer :=
  .next (if s.powered then s.poolWrite (kOf c) pool.val v (maskF 0 64) else s)

end Sys2Proof.Machine
end

