-- ==== Sys2Proof/Machine/Repair.lean ====
section
/-! DEFINITION. Taking resources out of service (R415 to R418, R448, R449): stopping a core's own work, fencing cores, dies and
bridges, spare rows and lanes, the repair log, and what a proof pass found (R421). -/

namespace Sys2Proof.Machine

/-! ## A core stops (R423) -/

/-- Pools whose waiting requests have been answered. -/
def Core.noneWaiting (c : Core) : Core :=
  (List.range 32).foldl (fun c n => c.setPool n { c.pool n with waiting := [] }) c

/-- A transfer of a core that stops: nothing more of it leaves. -/
def Xfer.stopped (x : Xfer) : Xfer :=
  { x with
    unsent := []
    grants := []
    ended := true
    late := true
    codes := []
    flag := if x.flag = .unsent ∨ x.flag = .held then .none else x.flag }

/-- Phase 2 of a reset for one core: its compositor halts, unsent segments and held flagged packets go, grants go back and
requests that wait at its pools are answered as absorbed (DEDUCED, log 31). -/
def State.haltCore (s : State) (k : Nat) : State :=
  let c := s.core k
  let s := c.xfers.foldl (fun s x => s.giveBack x.dest x.dh (s.nameOf k) x.txid x.grants) s
  let reqs := (List.range 32).flatMap fun n =>
    (c.pool n).waiting.map fun w => CreditMsg.grant w.1 w.2 (c.pool n).epoch cABSORBED
  let s := { s with creditNet := s.creditNet ++ reqs }
  s.modCore k fun c =>
    let c := (if c.run || c.armed then c.halt cDONE true else c).noneWaiting
    { c with held := [], xfers := c.xfers.map Xfer.stopped }

/-! ## The repair log (R416) -/

/-- A retirement enters the repair log in NOR with its calendar stamp. -/
def State.logRepair (s : State) (kind res : Nat) : State :=
  { s with
    nor := { s.nor with repairs := s.nor.repairs ++ [⟨kind, res, (s.rd (aMgt 0x30)).toNat⟩] }
    norBusy := s.norBusy ++ [.repairLog] }

/-- The key by which a plate names a die. -/
def dieName (d : Nat) : Nat := 4608 + d

/-- Parts whose plate names a key are stopped (R449). -/
def State.stopNamed (s : State) (keys : List Nat) : State :=
  (List.range 64).foldl (fun s p =>
    match (s.part p).plate with
    | some pl => if s.ctxState p ∈ [3, 4] ∧ pl.named.any (· ∈ keys) then s.stopPart p else s
    | none => s) s

/-- The record of a retirement (R449). -/
def retireRec (kind die core : Nat) : ErrRec :=
  { ErrRec.base with cls := 2, source := 0x70, die := die, core := core, detail := kind }

/-- A core is fenced: it leaves the floor plan, and traffic to it is absorbed. -/
def State.fenceCore (s : State) (k : Nat) : State :=
  if k ∈ s.fenced then s
  else
    let s := (s.haltCore k).stopNamed [k]
    ({ s with fenced := s.fenced ++ [k] }.logRepair 2 k).raiseOpen
      { retireRec 2 (keyDie k) (keyFlat k) with part := s.partOfKey k }

/-- Every core of a die, and the die itself, as plates name them. -/
def dieKeys (d : Nat) : List Nat := (List.range 72).map (d * 72 + ·)

/-- The outputs of a die's crossbar. -/
def crossbarHops (d : Nat) : List Nat :=
  ([0, 1, 2, 3] ++ (List.range 8).flatMap fun r => [hubOut r 0, hubOut r 1]).map fun o => hopKey ⟨d, 126, o⟩

/-- Hop outputs fenced (R254). -/
def State.fenceHops (s : State) (ks : List Nat) : State :=
  { s with badHops := s.badHops ++ ks.filter (· ∉ s.badHops) }

/-- A die is fenced; `hub`: its crossbar failed, and routes go round it. The log names the die, plus 64 with its crossbar. -/
def State.fenceDie (s : State) (d : Nat) (hub : Bool) : State :=
  if s.dieFenced d then s
  else
    let s := (dieKeys d).foldl State.haltCore s
    let s := (s.stopNamed (dieName d :: dieKeys d)).setFld (aHub d 0x508) 29 1 1
    let s := if hub then s.fenceHops (crossbarHops d) else s
    (s.logRepair 3 (if hub then 64 + d else d)).raiseOpen (retireRec 3 d 127)

/-! ## Spare rows and lanes (R59, R415) -/

/-- The array of a weight row's resource key. -/
def arrayOf (res : Nat) : Nat := res / 2 ^ 30 * 32 + res % 2 ^ 30 / 4 / 0x20000

/-- Spare rows of an array still free: 16, less those that fuses and the repair log have taken. -/
def State.freeSpares (s : State) (array : Nat) : Nat :=
  16 - Tbl.get 0 s.fuses.rowsFuse array - (s.nor.repairs.filter fun r => r.kind = 0 ∧ arrayOf r.resource = array).length

/-- A weight row is retired: a spare takes it, or the core is fenced. Whether a spare took it. -/
def State.spareRow (s : State) (res : Nat) : State × Bool :=
  let k := res / 2 ^ 30
  if s.freeSpares (arrayOf res) = 0 then (s.fenceCore k, false)
  else ((s.logRepair 0 res).raiseOpen { retireRec 0 (keyDie k) (keyFlat k) with part := s.partOfKey k, location := res % 2 ^ 30 },
    true)

/-- The die and the direction of the bridge that a hop belongs to. -/
def bridgeOf (key : Nat) : Nat × Nat :=
  let die := key / 256 / 128
  let out := key % 256
  if die < 64 then (die, out)
  else
    let i := out / 8
    let q := die - 64
    (if q = 0 then i else if q = 1 then 8 * i + 7 else if q = 2 then 56 + i else 8 * i, q)

/-- The hops of a bridge, both directions. -/
def bridgeHops (d dir : Nat) : List Nat :=
  let out := hopKey ⟨d, 126, dir⟩
  let edge : Bool := if dir = 0 then d < 8 else if dir = 1 then d % 8 = 7 else if dir = 2 then 56 ≤ d else d % 8 = 0
  if edge then [out, hopKey (quoinOut dir d)] else [out, hopKey ⟨stepDie d dir, 126, (dir + 2) % 4⟩]

/-- Spare lanes of one direction of a bridge still free. -/
def State.freeLanes (s : State) (key : Nat) : Nat :=
  16 * (Config.bridgeLanes / 1024) - Tbl.get 0 s.fuses.lanesFuse key -
    (s.nor.repairs.filter fun r => r.kind = 6 ∧ r.resource = key).length

/-- A bridge hop is retired: a spare lane is taken, or the bridge is fenced. -/
def State.retireLane (s : State) (key : Nat) : State :=
  let b := bridgeOf key
  let s := if s.freeLanes key = 0 then s.fenceHops (bridgeHops b.1 b.2) else s
  (s.logRepair 6 key).raiseOpen { retireRec 6 b.1 127 with location := b.2 }

/-! ## What a proof pass found (R421) -/

/-- An event of a window kind (R447). -/
def State.countWindow (s : State) (kind res : Nat) : State := { s with windows := countEvent s.windows (windowKey kind res) }

/-- The failures of one galley's usable cores: rows spared, cores fenced, each an event of its window. Rows spared and cores
fenced. -/
def State.proofFailures (s : State) (die g : Nat) (r : ProofResult) : State × Nat × List Nat :=
  let key := fun (c : Fin 18) => die * 72 + g * 18 + c.val
  let cores := r.cores.filter fun c => s.usable (key c)
  let (s, n, bad) := (r.rows.filter fun x => s.usable (key x.1)).foldl (fun (a : State × Nat × List Nat) x =>
    let res := poisonKey (key x.1) 0 (x.2.1.val * 0x20000 + x.2.2.val * 128)
    let (s, ok) := (a.1.countWindow 0 res).spareRow res
    (s, a.2.1 + (if ok then 1 else 0), if ok then a.2.2 else a.2.2 ++ [x.1.val])) (s, 0, [])
  let s := cores.foldl (fun s c => (s.countWindow 2 (key c)).fenceCore (key c)) s
  (s, n, bad ++ cores.map (·.val))

end Sys2Proof.Machine
end

