-- ==== Sys2Proof/Machine/Install.lean ====
section
/-! DEFINITION. What the records of an Efxis image install (R363 to R365, R381): handles, pools, pinned circuits, the binding of
functions to partitions. -/

namespace Sys2Proof.Machine

/-- The body of a list record in effect here. -/
def State.efxEntries (s : State) (t p : Nat) (n : Nat) : List (List Byte) := chunks n (efxList s.efx s.position t p)

/-- The record of an entry that is not installed (R364). -/
def State.notInstalled (s : State) (p die core : Nat) : State :=
  s.raiseOpen { ErrRec.base with cls := 1, source := 0x60, die := die, core := core, part := p }

/-- An entry that names a core: installed by `f` where the core is usable. -/
def State.installAt (s : State) (p : Nat) (e : List Byte) (f : Nat → Core → Core) : State :=
  let die := leAt e 0 1
  let core := leAt e 1 1
  let k := die * 72 + core
  if die < 64 ∧ core < 72 ∧ s.usable k then s.modCore k (f k) else s.notInstalled p die core

/-- The entries of a partition's list that name a core which `which` accepts. -/
def State.entriesOn (s : State) (t p n : Nat) (which : Nat → Bool) : List (List Byte) :=
  (s.efxEntries t p n).filter fun e => which (leAt e 0 1 * 72 + leAt e 1 1)

def State.installHandlesOn (s : State) (p : Nat) (which : Nat → Bool) : State :=
  (s.entriesOn tHANDLES p 40 which).foldl (fun s e =>
    s.installAt p e fun _ c => c.setHandle (leAt e 2 1) (BitVec.ofNat 256 (leAt e 8 32))) s

def State.installPoolsOn (s : State) (p : Nat) (which : Nat → Bool) : State :=
  (s.entriesOn tPOOLS p 8 which).foldl (fun s e =>
    s.installAt p e fun _ c =>
      c.setPool (leAt e 2 1) { c.pool (leAt e 2 1) with
        limit := leAt e 4 2, avail := leAt e 4 2, held := bits (leAt e 6 1) 0 1 = 1, relflag := leAt e 3 1 }) s

def State.installHandles (s : State) (p : Nat) : State := s.installHandlesOn p fun _ => true
def State.installPools (s : State) (p : Nat) : State := s.installPoolsOn p fun _ => true

/-! ## Pinned circuits -/

/-- A pinned circuit: the partition of its record, its ends, number and slots. -/
structure Pin where
  part : Nat
  src : BitVec 20
  dest : BitVec 20
  circ : BitVec 12
  slots : Nat
deriving DecidableEq, Repr

/-- An entry's circuit. A record for all packages gives one from that core of each package (R363; DEDUCED, log 32). -/
def pinOf (part : Nat) (pos : Option Nat) (e : List Byte) : Pin :=
  let src := BitVec.ofNat 20 (leAt e 0 4)
  ⟨part, match pos with | some r => addr20 r (a20Die src) (a20Core src) | none => src,
   BitVec.ofNat 20 (leAt e 4 4), BitVec.ofNat 12 (leAt e 8 2), leAt e 10 1⟩

/-- The positions of a shape. -/
def positions (shape : Nat × Nat × Nat) : List Nat := (List.range 64).filter (inShape shape)

/-- The circuits that a record pins, over the group. -/
def recPins (recs : List EfxRec) (shape : Nat × Nat × Nat) (r : EfxRec) : List Pin :=
  if r.typ ≠ tCIRCUITS then []
  else if r.pkg ≠ 0xFF then (chunks 16 r.body).map (pinOf r.index none)
  else ((positions shape).filter fun q => (efxFind recs tCIRCUITS q r.index).isNone).flatMap fun q =>
    (chunks 16 r.body).map (pinOf r.index (some q))

/-- Every pinned circuit of the group in the order of the canonical image (R365). -/
def pinsOf (recs : List EfxRec) (shape : Nat × Nat × Nat) : List Pin := (canonical recs).flatMap (recPins recs shape)

/-- The hops of a pinned circuit within this package: on both ports of a pair it leaves by. -/
def State.pinHops (s : State) (x : Pin) : List Hop :=
  let daddr := addrAt x.dest 3 0
  match s.entryOf x.src daddr with
  | none => []
  | some a =>
    if a20Pkg x.dest = s.position then (s.route a (endpOf daddr)).getD []
    else match (nextDir s.shape s.position (a20Pkg x.dest)).bind s.pairOf with
    | none => []
    | some k => ((s.route a (.exit (pairQuoin k) (exitDie daddr))).map (· ++ [portHop k 0, portHop k 1])).getD []

/-- An end of the circuit is a core of this package that is not usable. -/
def State.pinBad (s : State) (x : Pin) : Bool :=
  [x.src, x.dest].any fun a => a20Pkg a = s.position && !s.usable (a20Die a * 72 + a20Core a)

/-- The source's table entry of a circuit of this package. -/
def State.openPin (s : State) (x : Pin) : State :=
  let k := a20Die x.src * 72 + a20Core x.src
  if a20Pkg x.src ≠ s.position then s
  else match s.circFree k with
  | some n => s.wr (aCirc k n) (BitVec.ofNat 64 (x.circ.toNat + 2 ^ 12 + 2 ^ 13 + x.slots * 2 ^ 16 + x.dest.toNat * 2 ^ 24))
  | none => s

/-- A pinned circuit opens: the lowest free slots of every hop here, and its entry. -/
def State.installPin (s : State) (x : Pin) : State :=
  if s.pinBad x then s.notInstalled x.part (a20Die x.src) (a20Core x.src)
  else ((s.pinHops x).foldl (fun s h => s.takeSlots h (ownerOf x.src x.circ) x.slots (List.range 32)) s).openPin x

/-- The pinned circuits of partitions that `which` accepts, in order, on the slots that they do not hold yet: those of sources in
other packages outlast a reset of this one (R365). -/
def State.installPins (s : State) (which : Nat → Bool) : State :=
  let pins := (pinsOf s.efx s.shape).filter fun x => which x.part
  pins.foldl State.installPin (pins.foldl (fun s x => s.freeCirc x.src x.circ) s)

/-- The lists of partition p, in entry order (R363). -/
def State.installPart (s : State) (p : Nat) : State :=
  ((s.installHandles p).installPools p).installPins (· = p)

/-- Every partition's lists (R367). -/
def State.installAll (s : State) : State :=
  ((List.range 64).foldl (fun s p => (s.installHandles p).installPools p) s).installPins fun _ => true

/-! ## Functions (R381, R411) -/

/-- The partition whose primary function is f of port b. -/
def State.primaryOf (s : State) (b f : Nat) : Option Nat := (List.range 64).find? fun p => s.partFunc p = some (b, f)

/-- `HOST_FN` of every function that a partition names, from the records in force. A function newly named carries its
partition unless its port has failed. -/
def State.bindFns (s : State) : State :=
  [0, 1].foldl (fun s b => (List.range 64).foldl (fun s f =>
    match s.primaryOf b f with
    | some p =>
      if s.fld (aFn b f 0) 0 1 = 1 ∧ s.fld (aFn b f 0) 1 6 = p then s
      else
        let s := (s.setFld (aFn b f 0) 0 1 1).setFld (aFn b f 0) 1 6 p
        s.setFld (aFn b f 0) 8 1 (if s.fld (aPort b 0) 9 1 = 1 then 0 else 1)
    | none =>
      if s.fld (aFn b f 0) 0 1 = 1 then s.wr (aFn b f 0) 0 else s) s) s

end Sys2Proof.Machine
end

