-- ==== Sys2Proof/Machine/Reset.lean ====
section
/-! DEFINITION. Who may access a register (R387), the four resets and their phases (R422 to R427), and the host side of a
function-level reset (R406). -/

namespace Sys2Proof.Machine

/-! ## Who may access a register (R382, R387) -/

/-- The partition that function f of port b carries or mirrors. -/
def State.fnPart (s : State) (b f : Nat) : Option Nat :=
  if s.fld (aFn b f 0) 0 1 = 1 ∨ s.fld (aFn b f 0) 7 1 = 1 ∨ s.fld (aFn b f 0) 8 1 = 1 then some (s.fld (aFn b f 0) 1 6) else none

/-- The function sees the whole of BAR0: PF0, unless it only mirrors. -/
def State.seesAll (s : State) (b f : Nat) : Bool :=
  f = 0 && !(s.fld (aFn b 0 0) 0 1 = 0 && s.fld (aFn b 0 0) 7 1 = 1)

/-- The registers of partition p in the package block that its functions see. -/
def seesPart (p a : Nat) : Bool :=
  (0x2000 ≤ a && a < 0x3000 && (a - 0x2000) / 0x40 = p) || (0x3000 ≤ a && a < 0x4000 && (a - 0x3000) / 0x40 = p) ||
    (0x4000 ≤ a && a < 0xC000 && (a - 0x4000) / 0x200 = p) || (0xE800 ≤ a && a < 0xEA00 && (a - 0xE800) / 8 = p) ||
    (0x100000 ≤ a && a < 0x200000 && (a - 0x100000) / 64 / 256 = p)

/-- A function other than PF0 sees the offset; `write`: it may write there. -/
def State.seesSome (s : State) (b f a : Nat) (write : Bool) : Bool :=
  (!write && (a = aPartId || a = aTick || a = aRate || a = aPort b 0)) ||
    (aFn b f 0 ≤ a && a < aFn b f 0 + 0x200) ||
    match s.fnPart b f with
    | none => false
    | some p => seesPart p a ||
        (folioBase 0 ≤ a && a < folioBase 64 &&
          (let d := (a - folioBase 0) / 0x100000
           let o := a % 0x100000
           if o < 0x10000 then !write && [0, 1, 2, 3].any (s.hasGalley p d)
           else if o < 0x14000 then s.hasGalley p d ((o - 0x10000) / 0x1000)
           else 0x20000 ≤ o && o < 0xB0000 && s.hasGalley p d ((o - 0x20000) / 0x2000 / 18)))

/-- On the recovery path PF0 of port 0 sees three register groups, and no other function anything (R429). -/
def State.romShows (s : State) (who : Accessor) (a : Nat) : Bool :=
  s.recovering.isNone || match who with
    | .func b f => b.val = 0 && f.val = 0 && (a = aPartId || a = aBoot || (aFw 0 ≤ a && a ≤ aFw 0x18))
    | _ => true

/-- An access of control-space offset `a` is one that takes effect. `PKG_RATE_NEXT` is the colophon's (R311); D3hot blocks a
function's BARs (R378). -/
def State.mayAccess (s : State) (who : Accessor) (a : Nat) (write : Bool) : Bool :=
  s.romShows who a && match who with
  | .func b f => (s.seesAll b.val f.val || s.seesSome b.val f.val a write) && !(write && a = aRateNext) && !(s.fnCfg b.val f.val).d3
  | .colophon => true
  | .fabric => !(write && a = aRateNext)

def State.mayWrite (s : State) (who : Accessor) (a : Nat) : Bool := s.powered && s.mayAccess who a true

/-! ## Units -/

/-- Every core of a unit. -/
def State.unitKeys (s : State) (u : ResetUnit) : List Nat :=
  match u with
  | .core c => [kOf c]
  | .galley d g => (List.range 18).map (d.val * 72 + g.val * 18 + ·)
  | _ => (List.range 4608).filter (s.covers u)

/-- Unit u lies within unit v (R426). -/
def State.within (s : State) (u v : ResetUnit) : Bool :=
  match u, v with
  | _, .package => true
  | .core c, .core c' => c = c'
  | .core c, .galley d g => c.die = d && c.flat.val / 18 = g.val
  | .core c, .partition _ => s.covers v (kOf c)
  | .galley d g, .galley d' g' => d = d' && g = g'
  | .galley d g, .partition _ => s.covers v (d.val * 72 + g.val * 18)
  | .partition p, .partition q => p = q
  | _, _ => false

def unitLevel : ResetUnit → Level
  | .core _ => .core
  | .galley _ _ => .galley
  | .partition _ => .partition
  | .package => .package

/-- The unit is a partition or the package: memories are written to zero. -/
def unitWide : ResetUnit → Bool
  | .core _ => false
  | .galley _ _ => false
  | _ => true

/-- The partitions of a wide unit. -/
def unitParts : ResetUnit → List Nat
  | .partition p => [p.val]
  | .package => List.range 64
  | _ => []

/-! ## Registers of a unit (R12) -/

/-- The core in whose window an offset lies. -/
def coreWinKey (a : Nat) : Option Nat :=
  let o := a % 0x100000
  if folioBase 0 ≤ a ∧ a < folioBase 64 ∧ 0x20000 ≤ o ∧ o < 0xB0000 then
    some ((a - folioBase 0) / 0x100000 * 72 + (o - 0x20000) / 0x2000)
  else none

/-- The first core of the galley in whose window an offset lies. -/
def glyWinKey (a : Nat) : Option Nat :=
  let o := a % 0x100000
  if folioBase 0 ≤ a ∧ a < folioBase 64 ∧ 0x10000 ≤ o ∧ o < 0x14000 then
    some ((a - folioBase 0) / 0x100000 * 72 + (o - 0x10000) / 0x1000 * 18)
  else none

/-- The offset lies in the blocks of function f of port b. -/
def inFnBlocks (b f a : Nat) : Bool :=
  (aFn b f 0 ≤ a && a < aFn b f 0 + 0x200) || (aBar2 b f 0 ≤ a && a < aBar2 b f 0 + 0x10000)

/-- The offset belongs to partition p outside the folios. -/
def State.partReg (s : State) (p a : Nat) : Bool :=
  seesPart p a || a = aPartReset p || (aErrRing p 0 ≤ a && a < aErrRing p 0 + 0x40) ||
    (match s.partFunc p with | some (b, f) => inFnBlocks b f a | none => false) ||
    [0, 1].any fun b => (List.range 64).any fun f =>
      (inFnBlocks b f a && s.fld (aFn b f 0) 0 7 = 1 + 2 * p) || (a = aFn b f 0 && s.fnPart b f = some p)

/-- A reset of unit u reaches the register. `CORE_CIRC` entries are closed one by one. -/
def State.regIn (s : State) (u : ResetUnit) (a : Nat) : Bool :=
  match coreWinKey a, glyWinKey a with
  | some k, _ => s.covers u k && !(0xE00 ≤ a % 0x2000 && a % 0x2000 < 0xE40)
  | _, some k => (match u with | .core _ => false | _ => s.covers u k)
  | _, _ => (match u with | .package => true | .partition p => s.partReg p.val a | _ => false)

/-! ## Clearing (R422 to R424) -/

/-- A core after its reset: receivers' transfers go stale, every pool's epoch moves on, credit requests still out are
remembered. The flags are cleared at every level, as R216 tags them. -/
def Core.cleared (c : Core) : Core :=
  let base := { Core.reset with
    nextTx := c.nextTx
    lastSent := c.lastSent
    lent := c.lent
    rx := c.rx.map fun r => { r with stale := true }
    xfers := (c.xfers.map Xfer.stopped).filter fun x => x.requested ≠ 0 }
  (List.range 32).foldl (fun y n => y.setPool n { Pool.reset with epoch := (c.pool n).epoch + 1 }) base

/-- Circuits opened from core k close (R265); pinned ones only in a wide reset. -/
def State.closeCircs (s : State) (k : Nat) (wide : Bool) : State :=
  (List.range 8).foldl (fun s n =>
    if s.fld (aCirc k n) 12 1 = 1 ∧ (wide ∨ s.fld (aCirc k n) 13 1 = 0) then
      (s.freeCirc (s.nameOf k) (BitVec.ofNat 12 (s.fld (aCirc k n) 0 12))).wr (aCirc k n) 0
    else s) s

/-- Host writes and reads of commands of these cores are nobody's any more. -/
def PPort.forget (p : PPort) (inU : Nat → Bool) : PPort :=
  let w := fun (e : Nat × DlvWrite) => match e.2.cmd with
    | some c => if inU c.1 then (e.1, { e.2 with cmd := none }) else e
    | none => e
  let r := fun (h : HRead) => match h.why with
    | .command k _ _ _ => if inU k then { h with why := .probe } else h
    | .flush k _ _ => if inU k then { h with why := .probe } else h
    | _ => h
  { p with buf := p.buf.map w, queued := p.queued.map w, reads := p.reads.map r }

/-- The byte lies in a data memory of a core that `inU` accepts; with `stores`, or in a program store. -/
def memIn (inU : Nat → Bool) (stores : Bool) (a : Nat) : Bool :=
  if bits a 28 5 = 31 then stores && bits a 26 2 = 0 else bits a 26 2 ≠ 3 && inU (keyAt a)

/-- What a reset of partition p clears beside its galleys. -/
def State.clearPart (s : State) (p : Nat) : State :=
  let late := (s.part p).stopLate
  let s := { s with
    parts := Tbl.set Part.reset s.parts p Part.reset
    irqs := s.irqs.filter fun e => e.1 / 256 ≠ p
    delivers := s.delivers.filter fun d => d.ring / 256 ≠ p }
  if late then s.ctxSays p cTIMEDOUT else s

/-- Phase 4: the unit's state is cleared. -/
def State.clearUnit (s : State) (u : ResetUnit) : State :=
  let keys := s.unitKeys u
  let inU := fun k => k ∈ keys
  let wide := unitWide u
  let s := keys.foldl (fun s k => s.closeCircs k wide) s
  let s := { s with ctl := clearRegs (unitLevel u) (s.regIn u) s.ctl }
  let s := { s with
    tiles := s.tiles.filter fun e => !inU (e.1 / 65536)
    poison := s.poison.filter fun e => !(inU (e.1 / 2 ^ 30) && (wide || e.1 % 4 = 3))
    mem := if wide then s.mem.filter fun e => !memIn inU (u = ResetUnit.package) e.1 else s.mem }
  let s : State := keys.foldl (fun (s : State) k => s.modCore k Core.cleared) s
  let s := [0, 1].foldl (fun (s : State) b => s.modPport b fun p => p.forget inU) s.pruneLines
  let s := (unitParts u).foldl State.clearPart s
  if u = .package then
    let s := [0, 1].foldl (fun (s : State) b => s.modPport b fun p => { p with buf := [], queued := [], retained := [] }) s
    (List.range 64).foldl (fun (s : State) d => s.modDie d fun b => { b with traceOn := false, trace := [], traceTaken := 0 }) s
  else s

/-! ## The phases -/

def State.resetOf (s : State) (u : ResetUnit) : Option ResetRun := s.resets.find? fun r => r.unit = u

/-- A proof pass ends because a reset took its galley over (R485). -/
def State.proofTaken (s : State) (r : ResetRun) : State :=
  match r.unit, r.proof with
  | .galley d g, true => (s.setFld (aGly d.val g.val 8) 0 2 0).setFld (aGly d.val g.val 8) 8 8 cABSORBED
  | _, _ => s

/-- The unit lies within a unit that is already under reset; a proof pass gives way to a reset of its whole galley. -/
def State.merges (s : State) (u : ResetUnit) : Bool :=
  s.resets.any fun r => s.within u r.unit && !(r.proof && r.unit = u)

/-- A core or galley reset that covers a started core stops its part (R425). -/
def State.resetStops (s : State) (u : ResetUnit) : State :=
  (List.range 64).foldl (fun s p =>
    if s.ctxState p ∈ [3, 4] ∧ (s.started p).any (s.covers u) then s.stopPart p else s) s

/-- Phases 1 and 2: absorption, and everything of the unit stops. -/
def State.startReset (s : State) (u : ResetUnit) (proof : Bool) : State :=
  if s.merges u then s
  else
    let taken := s.resets.filter fun r => s.within r.unit u
    let s := taken.foldl State.proofTaken s
    let s := if unitWide u then (unitParts u).foldl (fun s p => s.modPart p fun q => { q with load := none }) s
      else s.resetStops u
    let s := (s.unitKeys u).foldl State.haltCore s
    let galleys := match u with | .partition p => s.galleyMask p.val | _ => 0
    { s with resets := s.resets.filter (fun r => !s.within r.unit u) ++ [⟨u, s.tick, false, proof, galleys⟩] }

/-! ## Function-level reset: the host's side (R406) -/

/-- The registers that a function-level reset returns to their reset values: the rings of its partition, its windows and
BAR2. -/
def fnResetReg (b f : Nat) (p : Option Nat) (a : Nat) : Bool :=
  inFnBlocks b f a || match p with | some p => 0x100000 ≤ a && a < 0x200000 && (a - 0x100000) / 64 / 256 = p | none => false

/-- The MSI-X table and pending bits of function f of port b. -/
def msixReg (b f a : Nat) : Bool := aBar2 b f 0x4000 ≤ a && a < aBar2 b f 0x6000

/-- Doorbells, fetches, accesses, flushes and undelivered writes of function f of port b end; its configuration and its MSI-X
state return to their reset values. -/
def State.clearFn (s : State) (b f : Nat) : State :=
  let p := s.fnPart b f
  let mine := fun (q : Nat) => some q = p
  let s := [0, 1].foldl (fun s c => s.modPport c fun x => { x with flushes := x.flushes.filter fun y => !mine y.part }) s
  let s := s.modPport b fun x => ({ x with
    buf := x.buf.filter fun e => !mine e.2.part
    queued := x.queued.filter fun e => !mine e.2.part
    cfg := Tbl.erase x.cfg f } : PPort).fill
  { s with
    irqs := s.irqs.filter fun e => !mine (e.1 / 256)
    delivers := s.delivers.filter fun d => !mine (d.ring / 256)
    aperture := s.aperture.filter fun x => x.fn ≠ b * 64 + f
    ctl := clearRegs .package (msixReg b f) (clearRegs .partition (fnResetReg b f p) s.ctl) }

/-- A function-level reset of a function other than a PF0 that has VFs (R406). -/
def State.flrOne (s : State) (b f : Nat) : State :=
  let p := s.fnPart b f
  let s := s.clearFn b f
  match p with
  | some p => if h : p < 64 then s.startReset (.partition ⟨p, h⟩) false else s
  | none => s

/-! ## Commands -/

/-- A write of `GLY_RESET` (R422, R427). -/
def State.glyReset (s : State) (die : Fin 64) (g : Fin 4) (v : Word) : State :=
  let a := aGly die.val g.val 0
  let s := s.wr a (s.rd a ||| (v &&& maskF 0 19))
  let s := if getF v 18 1 = 1 then s.startReset (.galley die g) false else s
  (List.finRange 18).foldl (fun s c =>
    if getF v c.val 1 = 1 then
      s.startReset (.core ⟨die, ⟨g.val * 18 + c.val, by omega⟩⟩) false
    else s) s

def execGlyResetCores (who : Accessor) (die : Fin 64) (g : Fin 4) (v : Word) (s : State) : Answer :=
  .next (if s.mayWrite who (aGly die.val g.val 0) && getF v 0 18 ≠ 0 then s.glyReset die g v else s)

def execGlyResetGalley (who : Accessor) (die : Fin 64) (g : Fin 4) (v : Word) (s : State) : Answer :=
  .next (if s.mayWrite who (aGly die.val g.val 0) && getF v 18 1 = 1 then s.glyReset die g v else s)

/-- A write of `PKG_PART_RESET`. -/
def State.partReset (s : State) (p : Fin 64) (v : Word) : State :=
  if getF v 0 1 = 1 then (s.setFld (aPartReset p.val) 0 1 1).startReset (.partition p) false else s

def execPkgPartReset (who : Accessor) (p : Fin 64) (v : Word) (s : State) : Answer :=
  .next (if s.mayWrite who (aPartReset p.val) then s.partReset p v else s)

/-- A write of `PKG_RESET`: the key starts a package reset, which resets every function of both ports too (R422). -/
def State.pkgReset (s : State) (v : Word) : State :=
  if getF v 0 32 = 0x4A585253 then
    let s := [0, 1].foldl (fun s b => (List.range 64).foldl (fun s f => s.clearFn b f) s) s
    s.startReset .package false
  else s

def execPkgReset (who : Accessor) (v : Word) (s : State) : Answer :=
  .next (if s.mayWrite who aPkgReset then s.pkgReset v else s)

/-- Every packet that left the unit has been answered. -/
def State.drained (s : State) (u : ResetUnit) : Bool := s.cores.all fun e => !s.covers u e.1 || e.2.awaitSum = 0

/-- Phase 3 ends. -/
def State.drainEnds (s : State) (u : ResetUnit) : State :=
  match s.resetOf u with
  | some r =>
    if s.powered ∧ s.drained u ∧ r.drained = false then
      { s with resets := s.resets.map fun x => if x.unit = u then { x with drained := true } else x }
    else s
  | none => s

def execResetDrainComplete (u : ResetUnit) (s : State) : Answer := .next (s.drainEnds u)

/-- Cores that are neither usable nor fused off. -/
def State.fencedCount (s : State) : Nat :=
  ((List.range 4608).filter fun k => !s.usable k && !s.dieFused (keyDie k) && k ∉ s.fuses.fusedCores).length

/-- A block that die d hashes is not the table's: every die passes on a block to the south before it checks it, so one altered on
its way into a die of the column reaches those below so too; a fused-off die keeps the microcode only (DEDUCED,
log 117). -/
def State.blockBad (s : State) (x : BringUp) (d : Nat) (b : FwBlock) : Bool :=
  !(b.proof && s.dieFused d) && x.altered.any fun a => a.2 = b && a.1.val % 8 = d % 8 && a.1.val ≤ d

/-- Die d never gets some block: it has asked for it again 3 times in vain. -/
def State.blockLost (s : State) (x : BringUp) (d : Nat) : Bool :=
  (x.altered.map (·.2)).any fun b => s.blockBad x d b && x.again.any fun a => a.1.val = d && a.2.1 = b && 3 ≤ a.2.2

/-- The broadcast of step 4 (R419): a die that does not get a block is fenced, the others run the microcode of the image in NOR. -/
def State.broadcast (s : State) (x : BringUp) : State :=
  let lost := (List.range 64).filter (s.blockLost x)
  (lost.foldl (fun s d => s.fenceDie d false) s).wr (aFw 0x18)
    (BitVec.ofNat 64 ((List.range 64).foldl (fun m d => if d ∈ lost then m else m + 2 ^ d) 0))

/-- The proof pass of step 5 over the whole package (R421): its failures, and the hubs that failed, each an event of its window, with
the crossbar's verdict. `PKG_BOOT.FENCED` counts the cores that it fenced. -/
def State.proofAll (s : State) (x : BringUp) : State :=
  let was := s.fencedCount
  let s := x.proof.foldl (fun s y => (s.proofFailures (y.1.val / 4) (y.1.val % 4) y.2).1) s
  let s := x.hubs.foldl (fun s d => (s.countWindow 3 d.1.val).fenceDie d.1.val d.2) s
  s.setFld aBoot 16 16 (s.fencedCount - was)

/-- The request bits of a unit that has come back. -/
def State.bitsDone (s : State) (u : ResetUnit) : State :=
  match u with
  | .core c => s.setFld (aGly c.die.val (c.flat.val / 18) 0) (c.flat.val % 18) 1 0
  | _ => s

/-- Phases 4 and 5: the unit is cleared and comes back. A partition's lists are installed again; a package reset runs steps 4
to 6 of the power-on sequence, without GROUP and PORTS. -/
def State.resetEnds (s : State) (u : ResetUnit) (found : BringUp) : State :=
  match s.resetOf u with
  | some r =>
    if s.powered ∧ r.drained ∧ r.proof = false then
      let s := (s.clearUnit u).bitsDone u
      let s := { s with resets := s.resets.filter fun x => x.unit ≠ u }
      match u with
      | .partition p => (s.installPart p.val).bindFns
      | .package =>
        (((s.broadcast found).proofAll found).bindFns).installAll
      | _ => s
    else s
  | none => s

def execResetReturn (u : ResetUnit) (found : BringUp) (s : State) : Answer := .next (s.resetEnds u found)

end Sys2Proof.Machine
end

