-- ==== Sys2Proof/Machine/Plate.lean ====
section
/-! DEFINITION. Plates and manifests as bytes (R335, R336, R338 to R341): their layout and the checks on their fields. -/

namespace Sys2Proof.Machine

/-- Bytes `o` to `o + n − 1` are zero. -/
def zeroAt (bs : List Byte) (o n : Nat) : Bool := leAt bs o n = 0

/-! ## Plates (R335, R336) -/

/-- A section: its header fields, its body, and where the body begins in the plate. -/
structure Section where
  typ : Nat
  die : Nat
  core : Nat
  count : Nat
  soff : Nat
  body : List Byte
  file : Nat
deriving DecidableEq, Repr

/-- Body bytes of a section; none for a reserved type. -/
def sectionBytes (typ count : Nat) : Option Nat :=
  if typ = 1 then some count else if typ = 2 then some (64 * count) else if typ = 3 then some (8 * count)
  else if typ = 4 then some (32 * count) else if typ = 5 then some 264 else none

/-- How far SOFF + COUNT may reach. -/
def sectionLimit (typ : Nat) : Nat := if typ = 1 then 0x400000 else if typ = 2 then 1024 else if typ = 3 then 64 else 256

/-- `CMP_CODE` and `CMP_PC` as R180 accepts them, no reserved bit set. -/
def codeOk (v : Word) : Bool :=
  getF v 0 23 % 128 = 0 && getF v 32 23 % 128 = 0 && getF v 32 23 ≤ 0x400000 && getF v 23 9 = 0 && getF v 55 9 = 0
def pcOk (v : Word) : Bool := getF v 0 2 = 0 && getF v 22 42 = 0

/-- A `CORE_DEST` entry sets no reserved bit (R191). -/
def destEntryOk (e : List Byte) : Bool := leNat e < 2 ^ 20

def Section.ok (x : Section) : Bool :=
  x.die < 64 && x.core < 72 && (x.typ ≠ 1 || x.core = 0) &&
  (if x.typ = 5 then x.count = 264 && codeOk (BitVec.ofNat 64 (leAt x.body 0 8)) && pcOk (BitVec.ofNat 64 (leAt x.body 8 8))
   else x.soff + x.count ≤ sectionLimit x.typ) &&
  (x.typ ≠ 3 || (chunks 8 x.body).all destEntryOk)

/-- `n` sections from `bs`, which begins at file offset `at'`; none where one is malformed or runs beyond. -/
def sections : Nat → Nat → List Byte → Option (List Section)
  | 0, _, _ => some []
  | n + 1, at', bs =>
    match sectionBytes (leAt bs 0 1) (leAt bs 4 4) with
    | none => none
    | some len =>
      if bs.length < 16 + len then none
      else
        let x : Section := ⟨leAt bs 0 1, leAt bs 1 1, leAt bs 2 1, leAt bs 4 4, leAt bs 8 8, (bs.drop 16).take len, at' + 16⟩
        if !x.ok || !zeroAt bs 3 1 then none
        else (sections n (at' + 16 + len) (bs.drop (16 + len))).map (x :: ·)

/-- A plate's sections, where its header and every section obey order 1 of R337. -/
def plateSections (bs : List Byte) : Option (List Section) :=
  let len := leAt bs 24 8
  if leAt bs 0 4 = 0x4A585050 ∧ leAt bs 4 2 = 1 ∧ 1 ≤ leAt bs 7 1 ∧ leAt bs 7 1 ≤ 64 ∧ leAt bs 8 1 < leAt bs 7 1 ∧
      1 ≤ leAt bs 10 2 ∧ leAt bs 10 2 ≤ 4096 ∧ zeroAt bs 13 3 ∧ leAt bs 16 4 % 8 = 0 ∧ zeroAt bs 32 32 ∧
      64 ≤ len ∧ len ≤ bs.length ∧ leAt bs 20 4 ≤ len / 16 then
    match sections (leAt bs 20 4) 64 ((bs.take len).drop 64) with
    | some xs => if xs.any fun x => x.typ = 5 then some xs else none
    | none => none
  else none

/-- What a plate leaves behind once it is written. -/
def plateOf (bs : List Byte) (xs : List Section) (window offset : Nat) : Plate :=
  let states := xs.filter fun x => x.typ = 5
  { slots := leAt bs 10 2
    commitH := leAt bs 12 1
    commitOff := leAt bs 16 4
    profile := leAt bs 6 1
    started := (states.map fun x => x.die * 72 + x.core).dedup
    named := (xs.map fun x => if x.typ = 1 then dieName x.die else x.die * 72 + x.core).dedup
    programs := (xs.filter fun x => x.typ = 1).map fun x => ⟨x.die, x.soff, x.count, x.file⟩
    digest := digest32 (bs.take (leAt bs 24 8))
    window := window
    offset := offset }

/-! ## Manifests (R338 to R341) -/

def targetOf (bs : List Byte) : Target :=
  ⟨leAt bs 0 1, leAt bs 1 1, bits (leAt bs 2 1) 0 1 = 1, bits (leAt bs 2 1) 1 1 = 1, leAt bs 4 4, leAt bs 8 4, leAt bs 12 4⟩

/-- A target's bytes obey R340 in a manifest of KIND edition or cold. -/
def targetOk (edition : Bool) (bs : List Byte) : Bool :=
  let t := targetOf bs
  t.core < 72 && leAt bs 2 1 < 4 && zeroAt bs 3 1 && t.pending = edition && t.base % 128 = 0 &&
    (!(t.keepBase || !t.pending) || t.base = 0) && t.offset % 128 = 0 && t.length % 128 = 0 && t.length ≠ 0

def shardOf (bs : List Byte) (targets : List Target) : Shard :=
  ⟨leAt bs 0 1, leAt bs 1 1, leAt bs 2 1, leAt bs 3 1, leAt bs 4 1, leAt bs 5 1, leAt bs 6 1, leAt bs 8 8, leAt bs 16 8,
   leAt bs 24 8, (bs.drop 32).take 32, targets⟩

/-- A shard entry obeys R339, given its targets. -/
def shardOk (bs : List Byte) (targets : List Target) : Bool :=
  let s := shardOf bs targets
  s.die < 64 && s.srcKind ≤ 1 && s.altKind ≤ 2 && 1 ≤ leAt bs 7 1 && s.length = (targets.map (·.length)).foldl (· + ·) 0 &&
    (s.srcKind ≠ 1 || (s.srcOff = 0 && s.srcPkg < 64)) && (s.altKind ≠ 2 || (s.altOff = 0 && s.altPkg < 64))

/-- The shards of a manifest: their 64-byte entries with the 16-byte target entries that follow in shard order. -/
def shardsOf (edition : Bool) : List (List Byte) → List Byte → Option (List Shard)
  | [], _ => some []
  | e :: es, tb =>
    let raw := chunks 16 (tb.take (16 * leAt e 7 1))
    let ts := raw.map targetOf
    if raw.all (targetOk edition) && shardOk e ts then (shardsOf edition es (tb.drop (16 * leAt e 7 1))).map (shardOf e ts :: ·)
    else none

/-- Bytes of the signature. -/
def sigBytes : Nat := 29792

/-- A manifest's signed bytes, its signature and its contents, where every field obeys R338 to R340. -/
def manifestOf (bs : List Byte) : Option (List Byte × List Byte × Manifest) :=
  let n := leAt bs 12 2
  let entries := chunks 64 ((bs.drop 64).take (64 * n))
  let targets := (entries.map fun e => leAt e 7 1).foldl (· + ·) 0
  let signed := 64 + 64 * n + 16 * targets
  let ed : Bool := leAt bs 6 1 = 1
  if leAt bs 0 4 = 0x4A584D46 ∧ leAt bs 4 2 = 1 ∧ leAt bs 6 1 ≤ 1 ∧ 1 ≤ n ∧ n ≤ 64 ∧ zeroAt bs 14 2 ∧ zeroAt bs 56 8 ∧
      signed + sigBytes ≤ bs.length then
    match shardsOf ed entries ((bs.drop (64 + 64 * n)).take (16 * targets)) with
    | none => none
    | some shards =>
      if (shards.map (·.die)).Nodup then
        some (bs.take signed, (bs.drop signed).take sigBytes,
          ⟨ed, leAt bs 7 1, BitVec.ofNat 32 (leAt bs 8 4), leAt bs 16 8, (bs.drop 24).take 32, shards,
           digest32 (bs.take (signed + sigBytes))⟩)
      else none
  else none

/-- KEY_ID of a public key (R338, R362). -/
def keyId (pub : List Byte) : Nat := leNat (shake256 pub 8)

/-- KEY_ID names a manifest key of partition p, and the signature verifies under it (R341). -/
def State.signedOk (s : State) (p : Nat) (signed sig : List Byte) (m : Manifest) : Bool :=
  (List.range 8).any fun n =>
    bits (s.partKeymask p) n 1 = 1 &&
      match efxKey s.efx s.position n with
      | some pub => keyId pub = m.keyId && Config.slhDsaVerify pub signed sig
      | none => false

end Sys2Proof.Machine
end

