-- ==== Sys2Proof/Machine/Context.lean ====
section
/-! DEFINITION. Contexts (12): loads of plates, manifests and shards, editions, launch and teardown. -/

namespace Sys2Proof.Machine

/-! ## Host reads (R405) -/

/-- The code of a host outcome. -/
def outcomeCode : PcieOutcome → Nat
  | .timeout => cTIMEDOUT
  | .unsupported => cHANDLE
  | .poisoned => cPARITY

/-- A host read that ended badly raises a record. -/
def State.hostError (s : State) (p code : Nat) : State :=
  s.raise { ErrRec.base with cls := 1, source := 0x40, status := BitVec.ofNat 16 code, part := p }

/-- The bytes that a read of window `win` from `off` on brought, or the code of its failure: the window's own (R389), checked
with the last byte read, or the host's. -/
def State.readHost (s : State) (p win off : Nat) (r : HostRead) : Except Nat (List Byte) :=
  match r with
  | .failed o => if s.winCheck p win none true false = cDONE then .error (outcomeCode o) else .error (s.winCheck p win none true false)
  | .data bs =>
    let c := s.winCheck p win (if bs = [] then none else some (off + bs.length - 1)) true false
    if c = cDONE then .ok bs else .error c

/-! ## The plate's checks (R337) -/

/-- `PKG_PART_ID.PROFILE` (R7). -/
def State.profile (s : State) : Nat := if s.fuses.stepping = 0xB0 then 2 else 1

/-- Order 4: a section's die and core. -/
def State.placed (s : State) (p : Nat) (x : Section) : Bool :=
  if x.typ = 1 then !s.dieFused x.die && !s.dieFenced x.die && [0, 1, 2, 3].any (s.hasGalley p x.die)
  else s.usable (x.die * 72 + x.core) && s.partOfKey (x.die * 72 + x.core) = p

/-- Order 6 for one HANDLES section. -/
def State.handlesCode (s : State) (x : Section) : Nat :=
  (((chunks 32 x.body).map fun e => s.handleCheck (BitVec.ofNat 256 (leNat e))).find? (· ≠ cDONE)).getD cDONE

/-- One section written. -/
def State.writeSection (s : State) (x : Section) : State :=
  let k := x.die * 72 + x.core
  let es := fun n => (chunks n x.body).zipIdx
  if x.typ = 1 then { s with mem := writeMem s.mem (storeAddr x.die x.soff) x.body }
  else if x.typ = 2 then { s with mem := writeMem s.mem (coreAddr k 3 (0x200000 + 64 * x.soff)) x.body }
  else if x.typ = 3 then (es 8).foldl (fun s e => s.wr (aCoreK k (0xA00 + 8 * (x.soff + e.2))) (BitVec.ofNat 64 (leNat e.1 % 2 ^ 20))) s
  else if x.typ = 4 then (es 32).foldl (fun s e => s.modCore k fun c => c.setHandle (x.soff + e.2) (BitVec.ofNat 256 (leNat e.1))) s
  else
    let code := BitVec.ofNat 64 (leAt x.body 0 8)
    s.modCore k fun c => { c with
      codeBase := BitVec.ofNat 23 (getF code 0 23)
      codeLimit := BitVec.ofNat 23 (getF code 32 23)
      pc := BitVec.ofNat 22 (leAt x.body 8 8)
      loops := []
      sreg := (List.range 31).foldl (fun t n => Tbl.set 0 t (n + 1) (BitVec.ofNat 64 (leAt x.body (8 * n + 16) 8))) [] }

/-- Every compositor of the partition halts and its instruction caches are invalidated. -/
def State.quietPart (s : State) (p : Nat) : State :=
  (s.cores.map (·.1)).foldl (fun s k =>
    if s.partOfKey k = p then (s.cmpStop k).modCore k fun c => { c with icache := [], fills := [], primes := [] } else s) s |>.pruneLines

/-- The plate is written. -/
def State.writePlate (s : State) (p : Nat) (xs : List Section) (pl : Plate) : State :=
  let s := xs.foldl State.writeSection (s.quietPart p)
  s.modPart p fun q => { q with plate := some pl }

/-- COMMIT_H on a started core, in a state with the plate written. -/
def State.commitOk (s : State) (pl : Plate) (k : Nat) : Bool :=
  let h := (s.core k).handle pl.commitH
  hVALID h && hSPACE h = 1 && hWR h && pl.commitOff + 8 ≤ hEXTENT h

/-- Orders 3 to 6, given the digest check of order 2: DONE, or the first failing code. `s'` has the plate written. -/
def State.plateCode (s s' : State) (p : Nat) (bs : List Byte) (xs : List Section) (pl : Plate) (m : Manifest) (inter : Bool) : Nat :=
  let hs := ((xs.filter fun x => x.typ = 4).map s.handlesCode).find? (· ≠ cDONE)
  firstFail [
    (pl.digest ≠ m.plateDigest, cDIGEST),
    (leAt bs 9 1 ≠ s.position, cHANDLE),
    (!xs.all (s.placed p), cHANDLE),
    (!inter && pl.profile ≠ 0 && pl.profile ≠ s.profile, cPROFILE),
    (hs.isSome, hs.getD cDONE),
    (!pl.started.all (s'.commitOk pl), cHANDLE)]

/-! ## The manifest's checks against the handles (R341, R348) -/

/-- Every target of a manifest with the core it names. -/
def Manifest.targets (m : Manifest) : List (Nat × Target) :=
  m.shards.flatMap fun sh => sh.targets.map fun t => (sh.die * 72 + t.core, t)

def State.targetHandle (s : State) (e : Nat × Target) : Wide := (s.core e.1).handle e.2.handle

/-- A valid weight handle that is not a KV handle, on a usable core of the partition. -/
def State.targetNamed (s : State) (p : Nat) (e : Nat × Target) : Bool :=
  let h := s.targetHandle e
  s.usable e.1 && s.partOfKey e.1 = p && hVALID h && hSPACE h = 0 && !hKV h

def State.targetsCode (s : State) (p : Nat) (m : Manifest) : Nat :=
  firstFail [
    (!m.targets.all (s.targetNamed p), cHANDLE),
    (!m.targets.all fun e => e.2.offset + e.2.length ≤ hEXTENT (s.targetHandle e), cEXTENT)]

/-- The pending base that a target implies. -/
def State.targetBase (s : State) (e : Nat × Target) : Nat := if e.2.keepBase then hBASEPEND (s.targetHandle e) else e.2.base

/-- The pending side of a target clears every side that it must (R348). -/
def State.pendingOk (s : State) (m : Manifest) (e : Nat × Target) : Bool :=
  let h := s.targetHandle e
  let b := s.targetBase e
  sideOk (s.spaceSize 0) h b &&
    (List.range 256).all (fun n =>
      let g := (s.core e.1).handle n
      !(hVALID g && hSPACE g = 0) || !overlaps b (hBASE g) (hEXTENT h) (hEXTENT g)) &&
    m.targets.all fun x => x.1 ≠ e.1 ||
      (if x.2.handle = e.2.handle then s.targetBase x = b
       else !overlaps b (s.targetBase x) (hEXTENT h) (hEXTENT (s.targetHandle x)))

/-- BASE_PEND set and PEND_VALID cleared on every target handle (R349). -/
def State.preparePending (s : State) (m : Manifest) : State :=
  m.targets.foldl (fun s e => s.modCore e.1 fun c =>
    let h := putW (c.handle e.2.handle) 7 1 0
    c.setHandle e.2.handle (if e.2.keepBase then h else putW h 96 22 e.2.base)) s

/-- PEND_VALID 0 on every target handle. -/
def State.dropPending (s : State) (m : Manifest) : State :=
  m.targets.foldl (fun s e => s.modCore e.1 fun c => c.setHandle e.2.handle (putW (c.handle e.2.handle) 7 1 0)) s

/-! ## Fetches (R342 to R346) -/

/-- The source of an attempt: kind (0 host, 1 peer), window, package, offset. -/
def Fetch.source (f : Fetch) : Nat × Nat × Nat × Nat :=
  let sh := f.shard
  if 2 ≤ f.attempt ∧ sh.altKind ≠ 0 then (sh.altKind - 1, sh.altWindow, sh.altPkg, sh.altOff)
  else (sh.srcKind, sh.srcWindow, sh.srcPkg, sh.srcOff)

/-- The request for a shard's bytes. -/
def State.askShard (s : State) (p : Nat) (f : Fetch) : State :=
  let src := f.source
  s.emit (.fetch p f.shard.die src.1 (if src.1 = 0 then src.2.1 else src.2.2.1) src.2.2.2 f.shard.length)

def State.beginLoad (s : State) (p : Nat) (m : Manifest) : State :=
  let fs := m.shards.map fun sh => (⟨sh, [], 1, false, false, s.tick⟩ : Fetch)
  let s := s.modPart p fun q => { q with load := some ⟨m, fs, s.tick⟩ }
  fs.foldl (fun s f => s.askShard p f) s

/-- CODE and SHARD of a load that failed (R356). -/
def State.loadCode (s : State) (p code shard : Nat) : State :=
  (s.setFld (aCtx p 0x08) 8 8 code).setFld (aCtx p 0x08) 16 8 shard

/-- A LOAD refused by a check (R337, R341). -/
def State.loadRefused (s : State) (p code : Nat) : State := (s.ctxSays p code).loadCode p code 0xFF

/-- The partition's handles are those of its Efxis image. -/
def State.efxisHandles (s : State) (p : Nat) : State :=
  ((s.cores.map (·.1)).foldl (fun s k => if s.partOfKey k = p then s.modCore k fun c => { c with handles := [] } else s) s).installHandles p

/-- A load fails (R346). -/
def State.loadFails (s : State) (p code shard : Nat) : State :=
  match (s.part p).load with
  | none => s
  | some l =>
    let s := (s.modPart p fun q => { q with load := none }).loadCode p code shard
    if l.manifest.edition then (s.dropPending l.manifest).setEdload p 0
    else ((s.modPart p fun q => { q with plate := none, current := none }).efxisHandles p).setCtxState p 0

/-- Every shard is verified (R349). -/
def State.loadDone (s : State) (p : Nat) (m : Manifest) : State :=
  let s := s.modPart p fun q => { q with load := none }
  if m.edition then
    let s := m.targets.foldl (fun s e => s.modCore e.1 fun c =>
      c.setHandle e.2.handle (putW (putW (c.handle e.2.handle) 64 32 m.number.toNat) 7 1 1)) s
    (s.modPart p fun q => { q with pending := some m }).setEdload p 2
  else
    ((s.modPart p fun q => { q with current := some m }).setCtxState p 2).setFld (aCtx p 0x08) 32 32 m.number.toNat

/-- Where byte `i` of a shard goes: core, offset in weight memory, bytes of the target from there on. -/
def State.shardPlace (s : State) (die : Nat) : List Target → Nat → Option (Nat × Nat × Nat)
  | [], _ => none
  | t :: ts, i =>
    if i < t.length then
      let h := (s.core (die * 72 + t.core)).handle t.handle
      some (die * 72 + t.core, (if t.pending then hBASEPEND h else hBASE h) + t.offset + i, t.length - i)
    else s.shardPlace die ts (i - t.length)

/-- Bytes `i` and on of a shard written to its targets; at most `n` targets are crossed. -/
def State.shardWrite (s : State) (sh : Shard) : Nat → Nat → List Byte → State
  | 0, _, _ => s
  | n + 1, i, bs =>
    match s.shardPlace sh.die sh.targets i with
    | none => s
    | some (k, off, room) =>
      if bs = [] then s
      else (s.coreWrite k 0 off (bs.take room) false).shardWrite sh n (i + room) (bs.drop room)

/-- The fetch of a die's shard replaced. -/
def State.modFetch (s : State) (p die : Nat) (f : Fetch → Fetch) : State :=
  s.modPart p fun q => { q with
    load := q.load.map fun l => { l with fetches := l.fetches.map fun x => if x.shard.die = die then f x else x } }

def State.fetchOf (s : State) (p die : Nat) : Option Fetch :=
  match (s.part p).load with
  | some l => l.fetches.find? fun f => f.shard.die = die
  | none => none

/-- An attempt fails (R343, R344): the next begins, or the load fails. -/
def State.attemptFails (s : State) (p : Nat) (f : Fetch) : State :=
  if f.attempt < 1 + s.partRetry p then
    let g := { f with got := [], attempt := f.attempt + 1, lastTick := s.tick }
    (s.modFetch p f.shard.die fun _ => g).askShard p g
  else s.loadFails p (if f.badDigest then cDIGEST else cMISSING) f.shard.die

/-- A verified shard; the last one ends the load. -/
def State.shardVerified (s : State) (p : Nat) (f : Fetch) : State :=
  let s := s.modFetch p f.shard.die fun _ => { f with verified := true }
  match (s.part p).load with
  | some l => if l.fetches.all (·.verified) then s.loadDone p l.manifest else s
  | none => s

/-- A host source serves only what its window allows; a peer's answers are the peer's. -/
def State.sourceOk (s : State) (p : Nat) (f : Fetch) : Bool :=
  let src := f.source
  src.1 = 1 || s.winCheck p src.2.1 (some (src.2.2.2 + f.shard.length - 1)) true false = cDONE

/-- The next bytes of a shard. -/
def State.shardBytes (s : State) (p die : Nat) (bytes : List Byte) : State :=
  match s.fetchOf p die with
  | none => s
  | some f =>
    if !s.powered || f.verified || bytes = [] || !s.sourceOk p f then s
    else
      let bs := bytes.take (f.shard.length - f.got.length)
      let s := s.shardWrite f.shard (f.shard.targets.length + 1) f.got.length bs
      let f := { f with got := f.got ++ bs, lastTick := s.tick }
      if f.got.length < f.shard.length then s.modFetch p die fun _ => f
      else if digest32 f.got = f.shard.digest then s.shardVerified p f
      else s.attemptFails p { f with badDigest := true }

def execShardData (p : Fin 64) (die : Fin 64) (bytes : List Byte) (s : State) : Answer :=
  .next (s.shardBytes p.val die.val bytes)

/-- A source refused or failed, or brought no byte for 25,000,000 ticks (R344). -/
def execShardAttemptTimeout (p : Fin 64) (die : Fin 64) (refused : Bool) (s : State) : Answer :=
  .next (match s.fetchOf p.val die.val with
    | some f =>
      if s.powered && !f.verified && (refused || f.lastTick + 25000000 ≤ s.tick) then s.attemptFails p.val f else s
    | none => s)

/-- The load timeout (R345). -/
def State.loadExpires (s : State) (p : Nat) : State :=
  match (s.part p).load with
  | none => s
  | some l =>
    let late := l.fetches.filter fun f => !f.verified
    let bad := late.filter (·.badDigest)
    let pick := if bad = [] then late else bad
    match pick with
    | [] => s
    | f :: fs =>
      if s.powered && l.since + s.partLoadTimeout p ≤ s.tick then
        s.loadFails p (if bad = [] then cMISSING else cDIGEST) (fs.foldl (fun m g => min m g.shard.die) f.shard.die)
      else s

def execLoadTimeout (p : Fin 64) (s : State) : Answer := .next (s.loadExpires p.val)

/-- A peer package asks for shard bytes (R342, R344): from the current side of a handle, where the record of the partition
marks that package as one it serves. -/
def State.servePeer (s : State) (pos p k handle offset length : Nat) : State :=
  let h := (s.core k).handle handle
  let ok : Bool := bits (s.partReplica p) pos 1 = 1 && s.partOfKey k = p && hVALID h && hSPACE h = 0 && !hKV h &&
    offset + length ≤ hEXTENT h
  if s.coreAbsorbed k then s.emit (.shardAnswer pos p cABSORBED [])
  else if ok then s.emit (.shardAnswer pos p cDONE (s.coreRead k 0 (hBASE h + offset) length))
  else s.emit (.shardAnswer pos p cHANDLE [])

def execShardPeerRequest (pos : Fin 64) (p : Fin 64) (c : CoreId) (handle : BitVec 8) (offset length : BitVec 32) (s : State) :
    Answer :=
  .next (if s.powered then s.servePeer pos.val p.val (kOf c) handle.toNat offset.toNat length.toNat else s)

/-! ## LOAD (R337, R348, R355) -/

/-- INTERLOCKED and WINDOW of a write of `PKG_CTX_CTRL`. -/
def State.ctxFields (s : State) (p : Nat) (v : Word) : State :=
  (s.setFld (aCtx p 0) 3 1 (getF v 3 1)).setFld (aCtx p 0) 8 8 (getF v 8 8)

def State.ctxWindow (s : State) (p : Nat) : Nat := s.fld (aCtx p 0) 8 8

/-- What a stopped context leaves of an edition is dropped by the cold load that follows it: its load, the loaded edition, a commit
in progress (R334). -/
def State.dropEdition (s : State) (p : Nat) : State :=
  let q := s.part p
  let s := match q.load with | some l => if l.manifest.edition then s.dropPending l.manifest else s | none => s
  let s := match q.pending with | some m => s.dropPending m | none => s
  (s.modPart p fun q => { q with load := none, current := none, pending := none, inputs := [], fencesLeft := [] }).setEdload p 0

/-- A cold load of a manifest that passed its own checks. -/
def State.coldLoad (s : State) (p : Nat) (bs : List Byte) (m : Manifest) : State :=
  match plateSections bs with
  | none => s.loadRefused p cFORMAT
  | some xs =>
    let inter : Bool := s.fld (aCtx p 0) 3 1 = 1
    let pl := plateOf bs xs (s.ctxWindow p) (s.rd (aCtx p 0x18)).toNat
    let s' := (s.dropEdition p).writePlate p xs pl
    let code := s.plateCode s' p bs xs pl m inter
    let code := if code = cDONE then s'.targetsCode p m else code
    if code ≠ cDONE then s.loadRefused p code
    else
      let s := s'.modPart p fun q => { q with interlocked := inter || pl.profile = 0 }
      let s := s.setFld (aCtxMode p) 1 1 (s.fld (aCtxMode p) 0 1)
      ((s.setCtxState p 1).ctxSays p cDONE).beginLoad p m

/-- An edition load (R348, R349). -/
def State.editionLoad (s : State) (p : Nat) (m : Manifest) : State :=
  match (s.part p).plate with
  | none => s.ctxSays p cEDITION
  | some pl =>
    if s.ctxState p ∉ [2, 4] ∨ s.edload p ≠ 0 then s.ctxSays p cEDITION
    else if pl.digest ≠ m.plateDigest then s.loadRefused p cDIGEST
    else
      let code := s.targetsCode p m
      if code ≠ cDONE then s.loadRefused p code
      else if !m.targets.all (s.pendingOk m) then s.loadRefused p cEDITION
      else
        let s := if s.ctxState p = 4 then s.timingLost p else s
        (((s.preparePending m).setEdload p 1).ctxSays p cDONE).beginLoad p m

/-- LOAD: the manifest is read and checked, then the plate for a cold load. -/
def State.load (s : State) (p : Nat) (plate manifest : HostRead) : State :=
  match s.readHost p (s.ctxWindow p) (s.rd (aCtx p 0x10)).toNat manifest with
  | .error code => (s.loadRefused p code).hostError p code
  | .ok mb =>
    match manifestOf mb with
    | none => s.loadRefused p cFORMAT
    | some (signed, sig, m) =>
      if !m.edition ∧ s.ctxState p ∉ [0, 6] then s.ctxSays p cHANDLE
      else if !s.signedOk p signed sig m then s.loadRefused p cDIGEST
      else if m.edition then s.editionLoad p m
      else match s.readHost p (s.ctxWindow p) (s.rd (aCtx p 0x18)).toNat plate with
        | .error code => (s.loadRefused p code).hostError p code
        | .ok bs => s.coldLoad p bs m

/-- An orderly power-down has begun: LOAD and ARM are refused (R475). -/
def State.goingOff (s : State) : Bool := s.fld (aMgt 0x08) 1 1 = 1

def execCtxLoad (who : Accessor) (p : Fin 64) (v : Word) (plate manifest : HostRead) (s : State) : Answer :=
  .next (if s.mayWrite who (aCtx p.val 0) && getF v 0 3 = 1 then
    (if s.goingOff then (s.ctxFields p.val v).ctxSays p.val cHANDLE else (s.ctxFields p.val v).load p.val plate manifest)
  else s)

/-! ## ARM (R353) -/

/-- The package is the timing root or aligned to its parent (R300). -/
def State.aligned (s : State) : Bool := s.position = s.timingRoot || s.fld (aRnn s.parentPort 8) 4 1 = 1

def State.armCode (s : State) (p : Nat) : Nat :=
  firstFail [
    (s.ctxState p ≠ 2 || s.thermal.armRefused || s.goingOff, cHANDLE),
    ((s.rd (aCtx p 0x20)).toNat < s.tick + 2500 || !s.aligned, cTIMEDOUT)]

/-- What an accepted ARM writes on a started core. The word of a commit already written there stays (DEDUCED, log 33). -/
def State.armCore (s : State) (p : Nat) (pl : Plate) (k : Nat) : State :=
  let seed := s.rd (aCtx p 0x28)
  let s := (s.wr (aCoreK k 0x2C0) seed).journal p 5 false (keyDie k * 128 + keyFlat k) seed.toNat
  let waits := (s.part p).inputs.any fun x => k ∈ x.cores && match x.input with | .commit _ => true | _ => false
  let s := if s.edload p = 3 ∧ !waits then s
    else s.inputWord k pl ⟨0, .commit (BitVec.ofNat 32 (s.fld (aCtx p 0x08) 32 32)), []⟩
  s.modCore k fun c => { c with startTick := s.rd (aCtx p 0x20), armed := true, late := false }

def State.arm (s : State) (p : Nat) : State :=
  let code := s.armCode p
  match (s.part p).plate, code with
  | some pl, 0 => ((pl.started.foldl (fun s k => s.armCore p pl k) s).setCtxState p 3).ctxSays p cDONE
  | none, _ => s.ctxSays p cHANDLE
  | _, code => s.ctxSays p code

def execCtxArm (who : Accessor) (p : Fin 64) (v : Word) (s : State) : Answer :=
  .next (if s.mayWrite who (aCtx p.val 0) && getF v 0 3 = 2 then (s.ctxFields p.val v).arm p.val else s)

/-! ## STOP, UNLOAD, COMMIT, ABANDON (R350, R352, R355) -/

/-- STOP; refused where no context is loaded (DEDUCED, log 34). -/
def State.stop (s : State) (p : Nat) : State :=
  if s.ctxState p ∈ [0, 1] then s.ctxSays p cHANDLE else (s.stopPart p).ctxSays p cDONE

def execCtxStop (who : Accessor) (p : Fin 64) (v : Word) (s : State) : Answer :=
  .next (if s.mayWrite who (aCtx p.val 0) && getF v 0 3 = 3 then (s.ctxFields p.val v).stop p.val else s)

def execCtxUnload (who : Accessor) (p : Fin 64) (v : Word) (s : State) : Answer :=
  .next (if s.mayWrite who (aCtx p.val 0) && getF v 0 3 = 4 then
    ((s.ctxFields p.val v).ctxSays p.val cDONE).startReset (.partition p) false else s)

def execCtxCommit (who : Accessor) (p : Fin 64) (v : Word) (s : State) : Answer :=
  .next (if s.mayWrite who (aCtx p.val 0) && getF v 0 3 = 5 then
    (s.ctxFields p.val v).inputOrHold p.val (.commit (BitVec.ofNat 32 (s.fld (aCtx p.val 0x30) 0 32)))
      (BitVec.ofNat 32 (s.fld (aCtx p.val 0x38) 0 32))
    else s)

/-- ABANDON (R352). -/
def State.abandon (s : State) (p : Nat) : State :=
  let drop := fun (s : State) m => ((s.dropPending m).setEdload p 0).ctxSays p cDONE
  match s.edload p, (s.part p).load, (s.part p).pending with
  | 1, some l, _ => drop (s.modPart p fun q => { q with load := none }) l.manifest
  | 2, _, some m => drop (s.modPart p fun q => { q with pending := none }) m
  | _, _, _ => s.ctxSays p cEDITION

def execCtxAbandon (who : Accessor) (p : Fin 64) (v : Word) (s : State) : Answer :=
  .next (if s.mayWrite who (aCtx p.val 0) && getF v 0 3 = 6 then (s.ctxFields p.val v).abandon p.val else s)

def execPkgCtxSlotmapWrite (who : Accessor) (p : Fin 64) (w : Fin 64) (v : Word) (s : State) : Answer :=
  .next (if s.mayWrite who (aCtxSlotmap p.val w.val) then
    s.inputOrHold p.val (.slotWord w.val v) (BitVec.ofNat 32 (s.fld (aCtx p.val 0x38) 0 32)) else s)

/-! ## Draining (R355) -/

/-- Every queue is empty and nothing of the partition's cores awaits an answer. -/
def State.partIdle (s : State) (p : Nat) : Bool :=
  s.cores.all fun e => s.partOfKey e.1 ≠ p || (e.2.fifo = [] && e.2.awaitSum = 0)

def execStopDrained (p : Fin 64) (s : State) : Answer :=
  .next (if s.powered && s.ctxState p.val = 5 && s.partIdle p.val then s.setCtxState p.val 6 else s)

/-- 2,500,000 ticks after STOP: the partition is reset, and STOP reports TIMED_OUT. -/
def execStopTimeout (p : Fin 64) (s : State) : Answer :=
  .next (if s.powered && s.ctxState p.val = 5 && !s.partIdle p.val && (s.part p.val).stopTick + 2500000 ≤ s.tick then
    ((s.ctxSays p.val cTIMEDOUT).modPart p.val fun q => { q with stopLate := true }).startReset (.partition p) false
    else s)

end Sys2Proof.Machine
end

