-- ==== Sys2Proof/Machine/HostIf.lean ====
section
/-! DEFINITION. Host memory seen from the package (R235 to R238, R378, R399 to R402, R405): the host commands of the move engine,
the delivery buffers, reads and their completions, completion rings and their interrupts. -/

namespace Sys2Proof.Machine

/-! ## Ports -/

/-- The link of port b is up. -/
def State.linkUp (s : State) (b : Nat) : Bool := s.fld (aPort b 0) 0 3 ≠ 0

/-- Bytes `off` on of two windows of one partition share a byte of host memory. -/
def State.hostMeets (s : State) (p w off n w' off' n' : Nat) : Bool :=
  overlaps (s.winAddr p w off) (s.winAddr p w' off') n n'

/-- A held write overlaps a range of its partition. -/
def State.writeMeets (s : State) (w : DlvWrite) (p win off n : Nat) : Bool :=
  w.part = p && s.hostMeets p w.win w.off w.bytes.length win off n

/-! ## Codes that host memory brings to a command -/

/-- A code for the command of queue q with sequence number `seq`: gathered while it executes, a late verdict after (R198,
R389). -/
def State.cmdCode (s : State) (k q seq op code : Nat) : State :=
  if ((s.core k).executing q).any (·.1.seq = seq) then
    s.modCore k fun c => c.updExec q seq fun x => { x with codes := x.codes ++ [code] }
  else s.lateVerdict k q seq op code

/-- The record of a host read that ended badly for a command (R405). -/
def State.cmdHostError (s : State) (k q seq op code : Nat) : State :=
  s.raise { s.coreRec k 1 0x40 (BitVec.ofNat 16 code) with queue := q, cmdseq := seq, detail := op }

/-- The work of the command is done. -/
def State.cmdWorked (s : State) (k q seq : Nat) : State :=
  s.modCore k fun c => c.updExec q seq fun x => { x with worked := true }

/-! ## Reads: when they leave (R237, R238, R389, R402) -/

/-- The command whose piece a read is. -/
def HRead.owner (r : HRead) : Option (Nat × Nat × Nat) :=
  match r.why with
  | .command k q seq _ => some (k, q, seq)
  | .flush k q seq => some (k, q, seq)
  | _ => none

/-- A write that entered before the read must leave first: it overlaps the read, or another unsent piece of its command. -/
def State.readWaits (s : State) (p : PPort) (r : HRead) : Bool :=
  let rs : List HRead := match r.owner with
    | some o => p.reads.filter fun x => x.owner = some o && !x.sent
    | none => [r]
  r.why ≠ .probe && rs.any fun x => (p.buf ++ p.queued).any fun e => e.1 < x.after && s.writeMeets e.2 x.part x.win x.off x.len

/-- A request that ends at byte `hi` lies beyond the SIZE that its window has now (R389). -/
def State.beyond (s : State) (p w hi : Nat) : Nat :=
  match s.window p w with
  | some (_, ctl) => if winSize ctl ≤ hi then cEXTENT else cDONE
  | none => cEXTENT

/-- The check when a read's request is formed: RD and WR were checked at issue. The recorded journal's reads have no other check. -/
def State.readCode (s : State) (r : HRead) : Nat :=
  match r.why with
  | .journal _ _ => s.winCheck r.part r.win (some (r.off + r.len - 1)) true false
  | _ => if r.len = 0 then cDONE else s.beyond r.part r.win (r.off + r.len - 1)

/-- The check when a write's request is formed; a write of the device's own has no other. -/
def State.writeCode (s : State) (w : DlvWrite) : Nat :=
  let hi := w.off + w.bytes.length - 1
  match w.cmd with
  | some _ => s.beyond w.part w.win hi
  | none => s.winCheck w.part w.win (some hi) false true

/-- Reads outstanding on the link. -/
def PPort.outstanding (p : PPort) : Nat := (p.reads.filter fun r => r.sent && r.got.isNone).length

/-- The read leaves: a zero-length one is addressed to the last byte of its range (R403). -/
def State.sendRead (s : State) (b : Nat) (r : HRead) : State :=
  let s := s.modPport b fun p => { p with
    reads := p.reads.map fun x => if x.tag = r.tag then { x with sent := true, after := p.left, sentAt := s.tick } else x }
  s.emit (.hostRead b r.tag (s.winAddr r.part r.win (if r.zero then r.off + r.len - 1 else r.off)) (if r.zero then 0 else r.len))

/-! ## Landing -/

/-- Bytes written where a piece of a `HOST_READ` lands. -/
def State.landBytes (s : State) (k : Nat) (landing : List (Nat × Nat)) (bs : List Byte) : State :=
  (deal landing bs).foldl (fun s e => s.coreWrite k (e.1 / 2 ^ 26) (e.1 % 2 ^ 26) e.2 false) s

/-- The pieces of a `HOST_READ`, in order. -/
def PPort.pieces (p : PPort) (k q seq : Nat) : List HRead := p.reads.filter fun r => r.owner = some (k, q, seq)

/-- The bytes that a `HOST_READ` has brought, once every piece has ended. -/
def PPort.gathered (p : PPort) (k q seq : Nat) : Option (List Byte) :=
  let rs := p.pieces k q seq
  if rs.any fun r => r.got.isNone then none else some (rs.flatMap fun r => r.got.getD [])

/-- Every piece has come: the bytes are written, and journalled as one HOSTREAD where any was returned (R321). -/
def State.readGathered (s : State) (b k q seq : Nat) : State :=
  let rs := (s.pport b).pieces k q seq
  if rs.any fun r => r.got.isNone then s
  else
    let s := rs.foldl (fun s r => match r.why with
      | .command _ _ _ landing => s.landBytes k landing (r.got.getD [])
      | _ => s) s
    let s := s.modPport b fun p => { p with reads := p.reads.filter fun r => r.owner ≠ some (k, q, seq) }
    let all := rs.flatMap fun r => r.got.getD []
    (if all = [] then s else s.journal (s.partOfKey k) 3 true (keyDie k * 128 + keyFlat k) (digest128 all)).cmdWorked k q seq

/-- A piece has ended. Replay mode may hold the data of a whole `HOST_READ` back (R324). -/
def State.readOrHold (s : State) (b k q seq : Nat) : State :=
  match (s.pport b).gathered k q seq with
  | some (_ :: _) => if s.mustWait (s.partOfKey k) then s.holdBack (s.partOfKey k) (.read b k q seq) else s.readGathered b k q seq
  | _ => s.readGathered b k q seq

/-- Function f of port b is only the mirror of the other port's function f. -/
def State.isMirror (s : State) (b f : Nat) : Bool :=
  s.fld (aFn b f 0) 0 1 = 0 && (s.fld (aFn b f 0) 7 1 = 1 || s.fld (aFn b f 0) 8 1 = 1)

/-- A BAR2 register: a mirror shows the primary's (R382). -/
def State.bar2 (s : State) (b f k : Nat) : Nat := aBar2 (if s.isMirror b f then 1 - b else b) f k

/-- `HOST_FLUSH_STAT`: a flush has completed. -/
def State.flushCounted (s : State) (b f code : Nat) : State :=
  (s.setFld (s.bar2 b f 0x1010) 8 8 code).addFld (s.bar2 b f 0x1010) 32 32 1

/-- The zero-length read of a flush of the doorbell. -/
def flushRead (x : Flush) (tag : Nat) : HRead := ⟨tag, x.part, x.win, x.lo, x.size, true, .doorbell x.f, x.after, false, none, 0⟩

/-- A read enters a port, with a tag of its own. -/
def State.addRead (s : State) (b : Nat) (r : Nat → HRead) : State :=
  s.modPport b fun p => { p with reads := p.reads ++ [r p.nextTag], nextTag := p.nextTag + 1 }

/-- Flushes of function f run in order: those that failed their check complete in their place; the next one's read begins
(R403). -/
def flushNext (b f : Nat) : List Flush → State → State
  | [], s => s
  | x :: xs, s =>
    if x.f ≠ f then flushNext b f xs s
    else if x.code ≠ cDONE then
      flushNext b f xs ((s.modPport b fun p => { p with flushes := p.flushes.erase x }).flushCounted b f x.code)
    else s.addRead b (flushRead x)

/-- The running flush of function f has completed. -/
def State.flushEnds (s : State) (b f code : Nat) : State :=
  match (s.pport b).flushes.find? fun x => x.f = f with
  | none => s
  | some x =>
    let s := (s.modPport b fun p => { p with flushes := p.flushes.erase x }).flushCounted b f code
    flushNext b f (s.pport b).flushes s

/-! ## The recorded journal (R324) -/

/-- The read of up to 128 entries of partition p's recorded journal from entry `first` on. -/
def State.journalRead (s : State) (p first : Nat) : State :=
  let n := min 128 ((s.rd (aJnl p 0x28)).toNat - first)
  match s.carrier p with
  | some (b, _) =>
    if n = 0 then s
    else s.addRead b fun tag => ⟨tag, p, s.fld (aJnl p 0) 8 8, (s.rd (aJnl p 0x20)).toNat + 32 * first, 32 * n, false,
      .journal p first, 0, false, none, 0⟩
  | none => s

/-- Entries of the recorded journal have come; a read that failed ends the matching (DEDUCED, log 35). -/
def State.journalCame (s : State) (p first : Nat) (bs : List Byte) (code : Nat) : State :=
  if code ≠ cDONE then s.setFld (aJnl p 0) 3 1 1
  else
    let es := (chunks 32 bs).zipIdx.map fun e => (first + e.2, jnlOf e.1)
    let s := s.modPart p fun q => { q with recorded := q.recorded ++ es }
    let s := takeHeld p (fun _ _ => none) (s.part p).held s
    if es = [] then s else s.journalRead p (first + es.length)

/-! ## Reads: their end -/

/-- A read has ended with bytes or a failing code; `host`: the host ended it (R405). -/
def State.readEnds (s : State) (b : Nat) (r : HRead) (bs : List Byte) (code : Nat) (host : Bool) : State :=
  let drop := fun (s : State) => s.modPport b fun p => { p with reads := p.reads.filter fun x => x.tag ≠ r.tag }
  let note := fun (s : State) => if code ≠ cDONE && host then s.hostError r.part code else s
  match r.why with
  | .command k q seq _ =>
    let s := if code ≠ cDONE && host then s.cmdHostError k q seq 0x46 code else s
    let s := if code ≠ cDONE then s.cmdCode k q seq 0x46 code else s
    let s := s.modPport b fun p => { p with
      reads := p.reads.map fun x => if x.tag = r.tag then { x with sent := true, got := some bs } else x }
    s.readOrHold b k q seq
  | .flush k q seq =>
    let s := if code ≠ cDONE && host then s.cmdHostError k q seq 0x47 code else s
    let s := if code ≠ cDONE then s.cmdCode k q seq 0x47 code else s
    (drop s).cmdWorked k q seq
  | .doorbell f => (drop (note s)).flushEnds b f code
  | .journal p first => (drop (note s)).journalCame p first bs code
  | .probe => drop (note s)

/-- Reads of port b leave while any can: at most 1,024 are outstanding (R378). One whose window no longer holds it is not
sent (R389). -/
def readPump (b : Nat) : Nat → State → State
  | 0, s => s
  | n + 1, s =>
    let p := s.pport b
    if !s.linkUp b || 1024 ≤ p.outstanding then s
    else match p.reads.find? fun r => !r.sent && !s.readWaits p r with
    | none => s
    | some r =>
      let code := s.readCode r
      readPump b n (if code = cDONE then s.sendRead b r else s.readEnds b r [] code false)

def State.pumpReads (s : State) (b : Nat) : State := readPump b ((s.pport b).reads.length + 32) s

/-! ## `HOST_WRITE` (R235, R402) -/

/-- A write of a command. -/
def cmdWrite (p win : Nat) (cmd : Nat × Nat × Nat × Nat) (off : Nat) (bs : List Byte) (ep : Bool) (ring : Option Nat)
    (ordered : Bool) : DlvWrite := ⟨p, win, off, bs, ep, some cmd, ring, ordered⟩

/-- The pieces of a `HOST_WRITE`: requests of at most 512 bytes (R378), their bytes, and whether their source is damaged. -/
def State.hostPieces (s : State) (k : Nat) (h d : Wide) (bad : List Nat) : List (Nat × List Byte × Bool) :=
  let rs := cutRuns 512 (runsOf (mHOFF d) (mCOUNT d) (mSIZE d) (mDSTRIDE d))
  let src := dealRuns (rs.map (·.2)) (srcRuns h d)
  (rs.zip src).map fun e =>
    (e.1.1, e.2.flatMap fun r => s.coreRead k (hSPACE h) r.1 r.2,
     e.2.any fun r => s.damaged k (hSPACE h) r.1 r.2 bad)

/-- Pieces enter the buffer of port b while it has room; how many did. -/
def placePieces (b p win : Nat) (cmd : Nat × Nat × Nat × Nat) : List (Nat × List Byte × Bool) → State → State × Nat
  | [], s => (s, 0)
  | x :: xs, s =>
    if (s.pport b).room x.2.1.length then
      let r := placePieces b p win cmd xs (s.enterWrite b (cmdWrite p win cmd x.1 x.2.1 x.2.2 none false))
      (r.1, r.2 + 1)
    else (s, 0)

/-- The progress of a host command moves on. -/
def State.progressed (s : State) (k q seq n : Nat) : State :=
  s.modCore k fun c => c.updExec q seq fun x => { x with progress := x.progress + n }

/-- A `HOST_WRITE` places what the buffer takes; it has done its work when its last byte is in the buffer. A partition that
no port carries has no host service (R409). -/
def State.hostWriteWork (s : State) (k q : Nat) (bad : List Nat) (it : Item) (x : Exec) : State :=
  let d := it.desc
  let h := x.handle (mSH d)
  let rows := s.srcRestore k h d bad
  if rows ≠ [] then s.startRestore k q rows
  else
    let s := if x.recorded then s else s.noteDamage k q it (s.srcDamage k h d bad)
    match s.carrier (s.partOfKey k) with
    | none => s.workDone k q it [cABSORBED] 0
    | some (b, _) =>
      let ps := (s.hostPieces k h d bad).drop x.progress
      let r := placePieces b (s.partOfKey k) (mDH d) (k, q, it.seq, 0x45) ps s
      if r.2 = ps.length then r.1.workDone k q it [] 0 else r.1.progressed k q it.seq r.2

def execHostWrite (c : CoreId) (q : Fin 16) (bad : List Nat) (s : State) : Answer :=
  .next (s.work (kOf c) q.val 0x45 fun it x s => s.hostWriteWork (kOf c) q.val bad it x)

/-! ## Completion rings (R390, R394, R398, R399) -/

def State.irq (s : State) (r : Nat) : RingIrq := Tbl.get ⟨0, 0, 0, false⟩ s.irqs r
def State.modIrq (s : State) (r : Nat) (f : RingIrq → RingIrq) : State :=
  { s with irqs := Tbl.set ⟨0, 0, 0, false⟩ s.irqs r (f (s.irq r)) }

/-- The local ring's entries, and the four indices. -/
def State.ringN (s : State) (r : Nat) : Nat := 2 ^ s.fld (aRing r 0x10) 0 5
def State.sqHead (s : State) (r : Nat) : Nat := s.fld (aRing r 0x20) 0 16
def State.sqTail (s : State) (r : Nat) : Nat := s.fld (aRing r 0x20) 16 16
def State.cqTail (s : State) (r : Nat) : Nat := s.fld (aRing r 0x20) 32 16
def State.cqHead (s : State) (r : Nat) : Nat := s.fld (aRing r 0x20) 48 16
def State.ringEn (s : State) (r : Nat) : Bool := s.fld (aRing r 0x10) 5 1 = 1

/-- Entries of the completion ring that are neither used nor reserved. -/
def State.cqFree (s : State) (r : Nat) : Nat :=
  s.ringN r - 1 - (s.cqTail r + s.ringN r - s.cqHead r) % s.ringN r - (s.irq r).reserved

/-- Window and byte offset of a ring. -/
def State.ringPlace (s : State) (r k : Nat) : Nat × Nat :=
  (s.fld (aRing r k) 0 4, (s.rd (aRing r k)).toNat / 64 * 64)

/-- One entry of 62 body bytes and SRC is put at the CQ tail as two writes (R399); `cmd`: the `HOST_POST` that posts it. -/
def State.putEntry (s : State) (b r src : Nat) (body : List Byte) (ep : Bool) (cmd : Option (Nat × Nat × Nat × Nat)) : State :=
  let n := s.ringN r
  let t := s.cqTail r
  let pl := s.ringPlace r 8
  let phase := s.fld (aRing r 0x28) 0 1
  let s := s.enterWrite b ⟨r / 256, pl.1, pl.2 + 64 * t, body, ep, cmd, none, cmd.isSome⟩
  let s := s.enterWrite b ⟨r / 256, pl.1, pl.2 + 64 * t + 62, [BitVec.ofNat 8 src, BitVec.ofNat 8 (128 * phase)], ep, cmd,
    some r, cmd.isSome⟩
  let s := s.setFld (aRing r 0x20) 32 16 ((t + 1) % n)
  if t + 1 = n then s.setFld (aRing r 0x28) 0 1 (1 - phase) else s

/-! ## `HOST_POST` (R205, R391, R398) -/

/-- Entries that a `HOST_POST` can put now: those left, free entries of the ring, room in the buffer. -/
def State.postable (s : State) (b r left : Nat) : Nat :=
  if (s.pport b).queued ≠ [] then 0 else min left (min (s.cqFree r) ((262144 - (s.pport b).heldBytes) / 64))

/-- Offset of the source of entry `i`. -/
def postSrc (h d : Wide) (i : Nat) : Nat := hBASE h + mSOFF d + i * mSSTRIDE d

/-- Entry `i` of a `HOST_POST` is put; its damage is recorded once. -/
def State.postEntry (s : State) (b k q : Nat) (h : Wide) (bad : List Nat) (it : Item) (i : Nat) : State :=
  let o := postSrc h it.desc i
  let g := s.damage k 1 o 62 bad
  let fresh : Bool := match (s.core k).workItem q 0x48 with | some e => !e.2.recorded | none => false
  let s := if fresh then s.noteDamage k q it g else s
  s.putEntry b (mRING it.desc) 1 (s.coreRead k 1 o 62) g.isSome (some (k, q, it.seq, 0x48))

/-- A `HOST_POST` puts what the ring takes. Once EN is 0 or no port carries the partition it ends (R391, R409). -/
def State.hostPostWork (s : State) (k q : Nat) (bad : List Nat) (it : Item) (x : Exec) : State :=
  let r := mRING it.desc
  let left := mCOUNT it.desc - x.progress
  match s.carrier (s.partOfKey k) with
  | none => s.workDone k q it [cABSORBED] 0
  | some (b, _) =>
    if left ≠ 0 && !s.ringEn r then s.workDone k q it [cABSORBED] 0
    else
      let n := s.postable b r left
      ((List.range n).foldl (fun s i => s.postEntry b k q (x.handle (mSH it.desc)) bad it (x.progress + i)) s).progressed
        k q it.seq n

def execHostPost (c : CoreId) (q : Fin 16) (bad : List Nat) (s : State) : Answer :=
  .next (s.work (kOf c) q.val 0x48 fun it x s => s.hostPostWork (kOf c) q.val bad it x)

/-- The `HOST_POST` whose last entry has just left is done. -/
def State.postLeft (s : State) (b k q seq : Nat) : State :=
  match ((s.core k).executing q).find? fun e => e.1.seq = seq with
  | some (it, x) =>
    if mCOUNT it.desc ≤ x.progress && !(s.pport b).buf.any fun e => e.2.cmd = some (k, q, seq, 0x48) then
      s.cmdWorked k q seq
    else s
  | none => s

/-! ## `HOST_READ`, `HOST_FLUSH` (R237, R238) -/

/-- The pieces of a `HOST_READ`: requests of at most `n` bytes, the Max Read Request Size (R378), and where each lands. -/
def readPieces (n : Nat) (dh d : Wide) : List ((Nat × Nat) × List (Nat × Nat)) :=
  let rs := cutRuns n (runsOf (mHOFF d) (mCOUNT d) (mSIZE d) (mDSTRIDE d))
  rs.zip (dealRuns (rs.map (·.2)) (runsOf (hSPACE dh * 2 ^ 26 + hBASE dh + mSOFF d) (mCOUNT d) (mSIZE d) (mSSTRIDE d)))

/-- The reads of a command, begun once. -/
def State.hostReadWork (s : State) (k q : Nat) (it : Item) (x : Exec) : State :=
  let p := s.partOfKey k
  let d := it.desc
  if x.progress ≠ 0 then s
  else match s.carrier p with
  | none => s.workDone k q it [cABSORBED] 0
  | some (b, f) =>
    let n := (s.pport b).entered
    let s := (readPieces (s.fnCfg b f).maxRead (x.handle (mSH d)) d).foldl (fun s e => s.addRead b fun tag =>
      ⟨tag, p, mDH d, e.1.1, e.1.2, false, .command k q it.seq e.2, n, false, none, 0⟩) s
    (s.progressed k q it.seq 1).pumpReads b

def execHostRead (c : CoreId) (q : Fin 16) (s : State) : Answer :=
  .next (s.work (kOf c) q.val 0x46 fun it x s => s.hostReadWork (kOf c) q.val it x)

/-- A `HOST_FLUSH` of the writes that had entered when it issued: `progress` is that count, `items` unused, and its read is
begun once. -/
def State.hostFlushWork (s : State) (k q : Nat) (it : Item) (x : Exec) : State :=
  let p := s.partOfKey k
  let d := it.desc
  match s.carrier p with
  | none => s.workDone k q it [cABSORBED] 0
  | some (b, _) =>
    if (s.pport b).pieces k q it.seq ≠ [] then s
    else (s.addRead b fun tag =>
      ⟨tag, p, mDH d, mHOFF d, mSIZE d, true, .flush k q it.seq, x.progress, false, none, 0⟩).pumpReads b

def execHostFlush (c : CoreId) (q : Fin 16) (s : State) : Answer :=
  .next (s.work (kOf c) q.val 0x47 fun it x s => s.hostFlushWork (kOf c) q.val it x)

/-! ## Interrupts (R400, R455) -/

/-- Vector `v` of function f of port b may send: the link is up, MSI-X enabled, and neither the function nor the vector masked.
The table holds the mask bit of a vector inverted, so that it is masked after reset (R401; PRESUMED, log 112). -/
def State.msixOpen (s : State) (b f v : Nat) : Bool :=
  let c := s.fnCfg b f
  s.linkUp b && c.msixOn && !c.msixMask && s.fld (s.bar2 b f (0x4008 + 16 * v)) 32 1 = 1

/-- The message of a vector, with the address and the data of its table entry, or its pending bit (R401). -/
def State.msixAt (s : State) (b f v : Nat) : State :=
  let a := s.bar2 b f (0x4000 + 16 * v)
  if s.msixOpen b f v then s.emit (.msix b f v (s.rd a).toNat (s.fld (a + 8) 0 32)) else s.setFld (s.bar2 b f 0x5000) v 1 1

/-- The message of vector `v` of the function that carries partition p. -/
def State.msix (s : State) (p v : Nat) : State := match s.carrier p with | some (b, f) => s.msixAt b f v | none => s

/-- Pending messages of the function that carries partition p are sent, where they may be. -/
def State.msixPump (s : State) (p : Nat) : State :=
  match s.carrier p with
  | some (b, f) => (List.range 32).foldl (fun s v =>
      if s.fld (s.bar2 b f 0x5000) v 1 = 1 && s.msixOpen b f v then (s.setFld (s.bar2 b f 0x5000) v 1 0).msixAt b f v else s) s
  | none => s

/-- The message of a completion ring is sent. -/
def State.ringMessage (s : State) (r : Nat) : State :=
  (s.modIrq r fun q => { q with n := 0, oldest := 0 }).msix (r / 256) (s.fld (aRing r 0x10) 7 5)

/-- The entries without a message have reached their count, where IEN is 1. -/
def State.ringTest (s : State) (r : Nat) : State :=
  if s.ringEn r && s.fld (aRing r 0x10) 6 1 = 1 && (s.irq r).n ≠ 0 && max 1 (s.fld (aRing r 0x10) 16 16) ≤ (s.irq r).n then
    s.ringMessage r
  else s

/-- An entry is in its ring: it counts towards the ring's message. -/
def State.entryIn (s : State) (r : Nat) : State :=
  if s.ringEn r then
    (s.modIrq r fun q => { q with n := q.n + 1, oldest := if q.n = 0 then s.tick else q.oldest }).ringTest r
  else s

/-- MTICKS have passed since the oldest entry without a message. -/
def execInterruptTimer (ring : Fin 16384) (s : State) : Answer :=
  let r := ring.val
  let q := s.irq r
  let m := s.fld (aRing r 0x10) 32 32
  let up : Bool := match s.carrier (r / 256) with | some (b, _) => s.linkUp b | none => false
  .next (if s.powered && up && s.ringEn r && s.fld (aRing r 0x10) 6 1 = 1 && m ≠ 0 && q.n ≠ 0 && q.oldest + m ≤ s.tick then
    s.ringMessage r else s)

/-! ## Writes leave (R235 to R237, R399, R402) -/

/-- Flushes of partition p that have issued and whose earlier writes are still to leave: window, offset, length, the writes
they cover. -/
def State.flushBars (s : State) (b p : Nat) : List (Nat × Nat × Nat × Nat) :=
  let x := s.pport b
  ((x.reads.filter fun r => r.part = p && r.zero && !r.sent && r.why ≠ .probe).map fun r => (r.win, r.off, r.len, r.after)) ++
  ((x.flushes.filter fun f => f.part = p && f.code = cDONE).map fun f => (f.win, f.lo, f.size, f.after)) ++
  (s.cores.filter fun e => s.partOfKey e.1 = p).flatMap fun e =>
    ((List.range 16).flatMap e.2.executing).filterMap fun i =>
      if dOP i.1.desc = 0x47 ∧ !i.2.worked then some (mDH i.1.desc, mHOFF i.1.desc, mSIZE i.1.desc, i.2.progress) else none

/-- A write that entered after a flush of its range waits for the earlier writes of that range. -/
def State.barred (s : State) (b : Nat) (e : Nat × DlvWrite) : Bool :=
  (s.flushBars b e.2.part).any fun r =>
    r.2.2.2 ≤ e.1 && s.writeMeets e.2 e.2.part r.1 r.2.1 r.2.2.1 &&
      (s.pport b).buf.any fun x => x.1 < r.2.2.2 && s.writeMeets x.2 e.2.part r.1 r.2.1 r.2.2.1

/-- The write may leave now. -/
def State.mayLeave (s : State) (b : Nat) (e : Nat × DlvWrite) : Bool :=
  let earlier := (s.pport b).buf.filter fun x => x.1 < e.1 && x.2.part = e.2.part
  s.linkUp b && (!e.2.ordered || earlier.isEmpty) &&
    (!(match e.2.ring with | some r => r < 16384 | none => false) ||
      !earlier.any fun x => x.2.win = e.2.win && x.2.off + 62 = e.2.off) &&
    !s.barred b e

/-- What a write that has left brings with it: an entry in a ring, or an error record in its ring. -/
def State.leftNow (s : State) (b : Nat) (w : DlvWrite) (sent : Bool) : State :=
  let s := match w.ring, sent with
    | none, _ => s
    | _, false => s
    | some r, true =>
      if r < 16384 then s.entryIn r
      else
        let c := s.rd (aErrRing (r - 16384) 0)
        if getF c 1 1 = 1 then s.msix (r - 16384) (getF c 2 5) else s
  match w.ring, w.cmd with
  | some _, some c => s.postLeft b c.1 c.2.1 c.2.2.1
  | _, _ => s

/-- A write leaves, its base as the window stands (R389), and is retained; one beyond the window is not sent. -/
def State.writeLeaves (s : State) (b : Nat) (e : Nat × DlvWrite) : State :=
  let w := e.2
  let code := s.writeCode w
  let s := s.modPport b fun p => { p with buf := p.buf.erase e }
  let s := if code = cDONE then
      (s.modPport b fun p => { p with left := p.left + 1, retained := p.retained ++ [(p.left, w)] }).emit
        (.hostWrite b (s.winAddr w.part w.win w.off) w.bytes w.ep)
    else match w.cmd with
    | some c => s.cmdCode c.1 c.2.1 c.2.2.1 c.2.2.2 code
    | none => s
  s.leftNow b w (code = cDONE)

/-- The carrying port gives its partitions back once nothing of theirs is left in it (R410). -/
def State.failbackDue (s : State) (b : Nat) : Bool :=
  s.fld (aPort b 8) 1 1 = 1 &&
    !((s.pport (1 - b)).buf ++ (s.pport (1 - b)).queued ++ (s.pport (1 - b)).retained).any fun e =>
      match s.hostFunc e.2.part with | some (c, _) => e.2.part ≠ 64 && c = b | none => false

/-- Every primary function of port b whose mirror carries its partition does so itself again. One without a mirror has lost its
service until a function-level reset (R409). -/
def State.giveBackPort (s : State) (b : Nat) : State :=
  let s := (List.range 64).foldl (fun s f =>
    let o := aFn (1 - b) f 0
    if s.fld (aFn b f 0) 0 1 = 1 ∧ s.fld o 8 1 = 1 ∧ s.fld o 0 1 = 0 ∧ s.fld o 1 6 = s.fld (aFn b f 0) 1 6 then
      (s.setFld (aFn b f 0) 8 1 1).setFld o 8 1 0
    else s) s
  let s := (s.setFld (aPort b 0) 9 1 0).setFld (aPort b 8) 1 1 0
  s.setFld (aPort (1 - b) 0) 10 1 0

def State.tryFailback (s : State) (b : Nat) : State :=
  if s.failbackDue b && s.fld (aPort b 0) 0 3 ≠ 0 then s.giveBackPort b else s

/-- Entry `i` of port b's buffer leaves. -/
def State.writeOutAt (s : State) (b i : Nat) : State :=
  match (s.pport b).buf[i]? with
  | none => s
  | some e =>
    if s.powered && s.mayLeave b e then ((s.writeLeaves b e).pumpReads b).tryFailback (1 - b) else s

def execDeliveryWriteOut (port : Fin 2) (n : Nat) (s : State) : Answer := .next (s.writeOutAt port.val n)

/-- The zero-length read that proves delivery of retained writes, addressed to the first of them that its window still holds
(R380, R402). -/
def State.probeRead (s : State) (b : Nat) : State :=
  match (s.pport b).retained.find? fun e => s.beyond e.2.part e.2.win e.2.off = cDONE with
  | none => s
  | some e =>
    if s.powered && s.linkUp b then
      ((s.modPport b fun p => { p with probeTick := s.tick }).addRead b fun tag =>
        ⟨tag, e.2.part, e.2.win, e.2.off, 1, true, .probe, 0, false, none, 0⟩).pumpReads b
    else s

def execDeliveryProbeRead (port : Fin 2) (s : State) : Answer := .next (s.probeRead port.val)

/-! ## Completions (R402, R405) -/

/-- The bytes that a completion brings must be those asked for. -/
def HRead.fits (r : HRead) (bs : List Byte) : Bool := bs.length = (if r.zero then 0 else r.len)

/-- The uncorrectable errors of AER that a requester reports: a completion timeout, a poisoned completion (PRESUMED, log 112). -/
def aerBit (code : Nat) : BitVec 32 := if code = cTIMEDOUT then 0x4000#32 else if code = cPARITY then 0x1000#32 else 0#32

/-- A request of partition p ended badly: AER of the function that carries it reports it (R405). -/
def State.raiseAer (s : State) (p code : Nat) : State :=
  match s.carrier p with
  | some (b, f) => if aerBit code = 0 then s else s.modFnCfg b f fun c => { c with aer := c.aer ||| aerBit code }
  | none => s

/-- An outstanding request of port b. -/
def State.awaited (s : State) (b tag : Nat) : Option HRead :=
  (s.pport b).reads.find? fun r => r.tag = tag && r.sent && r.got.isNone

/-- A completion arrives: writes that left before the read are delivered. -/
def State.completionAt (s : State) (b tag : Nat) (bs : List Byte) (code : Nat) (proves : Bool) : State :=
  match s.awaited b tag with
  | none => s
  | some r =>
    let s := if proves then
        s.modPport b fun p => ({ p with retained := p.retained.filter fun e => r.after ≤ e.1 } : PPort).fill
      else s
    (((s.raiseAer r.part code).readEnds b r bs code true).pumpReads b).tryFailback (1 - b)

/-- The completion timeout of the function's Device Control 2 has passed since the request was sent (R405). -/
def State.readLate (s : State) (b tag : Nat) : Bool :=
  match s.awaited b tag with
  | none => false
  | some r => match (match s.carrier r.part with | some (c, f) => (s.fnCfg c f).timeout | none => FnCfg.reset.timeout) with
    | some t => r.sentAt + t ≤ s.tick
    | none => false

def State.timeOut (s : State) (b tag : Nat) : State :=
  if s.powered && s.linkUp b && s.readLate b tag then s.completionAt b tag [] cTIMEDOUT false else s

def State.completion (s : State) (b tag : Nat) (r : HostRead) : State :=
  if !s.powered || !s.linkUp b then s
  else match r with
  | .data bs =>
    if (s.pport b).reads.any fun x => x.tag = tag && x.fits bs then s.completionAt b tag bs cDONE true else s
  | .failed .timeout => s.timeOut b tag
  | .failed o => s.completionAt b tag [] (outcomeCode o) true

def execPcieCompletion (port : Fin 2) (tag : Nat) (r : HostRead) (s : State) : Answer := .next (s.completion port.val tag r)

def execPcieCompletionTimeout (port : Fin 2) (tag : Nat) (s : State) : Answer := .next (s.timeOut port.val tag)

end Sys2Proof.Machine
end

