-- ==== Sys2Proof/Machine/Rings.lean ====
section
/-! DEFINITION. Rings, doorbells and submission entries (R390 to R398), the flush doorbell (R403) and the fabric aperture (R404). -/

namespace Sys2Proof.Machine

/-! ## Functions and their partitions (R381, R382, R386) -/

/-- Partition p, or the package, is under reset. -/
def State.partInReset (s : State) (p : Nat) : Bool := s.resets.any fun r => r.unit = .package || unitParts r.unit = [p]

/-- BAR2 of function f of port b can be reached: D3hot blocks it (R378). -/
def State.bar2Up (s : State) (b f : Nat) : Bool := s.powered && s.linkUp b && !(s.fnCfg b f).d3

/-- The partition for which function f of port b takes doorbells, flushes and aperture accesses: none before failover where
it only mirrors, none while the partition is under reset (R406), and none where no port carries it (R409). -/
def State.takes (s : State) (b f : Nat) : Option Nat :=
  if s.bar2Up b f && (!s.isMirror b f || s.fld (aFn b f 0) 8 1 = 1) then
    (match s.fnPart b f with
     | some p => if s.partInReset p || (s.carrier p).isNone then none else some p
     | none => none)
  else none

/-- The global ring of a local one. -/
def ringOf (p i : Nat) : Nat := 256 * p + i

/-! ## Doorbells (R392) -/

/-- `HOST_RING_STAT.FAULT` with its code. -/
def State.ringFault (s : State) (r code : Nat) : State := (s.setFld (aRing r 0x28) 1 1 1).setFld (aRing r 0x28) 8 8 code

/-- A write of the SQ tail doorbell; the next fetch tries again (R394). -/
def State.sqDoorbell (s : State) (r v : Nat) : State :=
  if s.ringN r ≤ v then s.ringFault r cFORMAT
  else (s.setFld (aRing r 0x20) 16 16 v).modIrq r fun q => { q with stopped := false }

/-- A write of the CQ head doorbell: it releases no entry beyond the tail. -/
def State.cqDoorbell (s : State) (r v : Nat) : State :=
  let n := s.ringN r
  let used := (s.cqTail r + n - s.cqHead r) % n
  if n ≤ v ∨ used < (v + n - s.cqHead r) % n then s.ringFault r cFORMAT
  else s.setFld (aRing r 0x20) 48 16 v

def execSqTailDoorbell (port : Fin 2) (f : Fin 64) (ring : Fin 256) (v : Word) (s : State) : Answer :=
  .next (match s.takes port.val f.val with
    | some p => s.sqDoorbell (ringOf p ring.val) (getF v 0 16)
    | none => s)

def execCqHeadDoorbell (port : Fin 2) (f : Fin 64) (ring : Fin 256) (v : Word) (s : State) : Answer :=
  .next (match s.takes port.val f.val with
    | some p => s.cqDoorbell (ringOf p ring.val) (getF v 0 16)
    | none => s)

/-! ## Submission entries (R393 to R395) -/

/-- KIND, CQE and TAG of an entry. -/
def eKIND (e : BitVec 512) : Nat := bits e.toNat 0 8
def eCQE (e : BitVec 512) : Bool := bits e.toNat 8 1 = 1
def eTAG (e : BitVec 512) : Nat := bits e.toNat 16 16

/-- No reserved field of the entry is set; PASS of a DELIVER is zero (R10, R395). -/
def entryOk (e : BitVec 512) : Bool :=
  bits e.toNat 9 7 = 0 &&
    (if eKIND e = 0 then bits e.toNat 32 480 = 0
     else if eKIND e = 2 then bits e.toNat 70 58 = 0 && bits e.toNat 256 256 = 0
     else bits e.toNat 32 32 = 0)

/-- The bridge may fetch ring r's next entry: enabled, served, not empty, not stopped by a failed read, nothing of the ring
waiting for its acceptance, and an entry of the CQ free. Replay mode may hold it back (R324). -/
def State.sqCan (s : State) (r : Nat) : Bool :=
  let p := r / 256
  s.powered && s.ringEn r && s.sqHead r ≠ s.sqTail r && !(s.irq r).stopped && s.cqFree r ≠ 0 &&
    (match s.carrier p with | some (b, _) => s.linkUp b | none => false) &&
    !(s.delivers.any fun d => d.ring = r && d.stage = 0 && !d.mute) &&
    !s.replayHolds p && (s.part p).held = [] && !s.partInReset p

/-- Rings of partitions that port b carries, of which the bridge can take an entry. -/
def State.sqRings (s : State) (b : Nat) : List Nat :=
  (s.ctl.filterMap fun e =>
    if 0x100000 ≤ e.1 ∧ e.1 < 0x200000 ∧ e.1 % 64 = 0x10 then some ((e.1 - 0x100000) / 64) else none).filter fun r =>
      s.sqCan r && (match s.carrier (r / 256) with | some (c, _) => c = b | none => false)

/-- Rings between the one served last and ring r, in round-robin order of global ring number; the one served last comes last. -/
def sqAfter (last r : Nat) : Nat := (r + 16383 - last) % 16384

/-- The ring whose turn it is: the one served last until it has given 8 entries or can give none, then the next that can (R393; DEDUCED,
log 119). -/
def State.sqTurn (s : State) (b : Nat) : Option Nat :=
  let p := s.pport b
  let rs := s.sqRings b
  if p.sqRing ∈ rs ∧ p.sqRun < 8 then some p.sqRing
  else rs.foldl (fun best r => match best with
    | none => some r
    | some t => if sqAfter p.sqRing r < sqAfter p.sqRing t then some r else some t) none

/-- Ring r's entry is the next that the bridge takes. -/
def State.sqReady (s : State) (r : Nat) : Bool :=
  s.sqCan r && (match s.carrier (r / 256) with | some (b, _) => s.sqTurn b = some r | none => false)

/-- The window check of the bridge's read of an entry (R389). -/
def State.sqWindow (s : State) (r : Nat) : Nat :=
  let pl := s.ringPlace r 0
  s.winCheck (r / 256) pl.1 (some (pl.2 + 64 * s.sqHead r + 63)) true false

/-- The read of an entry failed (R394). -/
def State.sqFails (s : State) (r code : Nat) : State :=
  ((s.ringFault r code).modIrq r fun q => { q with stopped := true }).hostError (r / 256) code

/-- Ring r has given an entry in its turn. -/
def PPort.served (p : PPort) (r : Nat) : PPort :=
  { p with sqRing := r, sqRun := if p.sqRing = r ∧ p.sqRun < 8 then p.sqRun + 1 else 1 }

/-- The entry is accepted: the head advances past it and it is journalled (R394). -/
def State.sqAccept (s : State) (r : Nat) (bytes : List Byte) : State :=
  let s := match s.carrier (r / 256) with | some (b, _) => s.modPport b fun p => p.served r | none => s
  (s.setFld (aRing r 0x20) 0 16 ((s.sqHead r + 1) % s.ringN r)).journal (r / 256) 1 true r (digest128 bytes)

/-- The completion of an SQ entry (R394, R398): written where it is due, the ring is enabled and a port carries it. -/
def State.entryDone (s : State) (r kind tag : Nat) (cqe : Bool) (head code flags : Nat) : State :=
  if (code ≠ cDONE || cqe) && s.ringEn r then
    match s.carrier (r / 256) with
    | some (b, _) =>
      s.putEntry b r 0 (leBytes 2 (statusWord code flags).toNat ++ leBytes 2 tag ++ leBytes 2 head ++ leBytes 1 kind ++
        List.replicate 55 0) false none
    | none => s
  else s

/-- An entry of ring r is fetched: `f` acts on it after the checks. -/
def State.sqFetched (s : State) (r : Nat) (f : State → State) : State :=
  if !s.sqReady r then s
  else if s.sqWindow r ≠ cDONE then s.sqFails r (s.sqWindow r)
  else f s

/-- An entry whose action takes effect at its acceptance: `act` gives its code. -/
def State.sqAct (s : State) (r : Nat) (e : BitVec 512) (act : State → Nat × State) : State :=
  let s := s.sqAccept r (leBytes 64 e.toNat)
  let c := act s
  c.2.entryDone r (eKIND e) (eTAG e) (eCQE e) (s.sqHead r) c.1 0

/-- A NOP, or an entry of a reserved KIND. -/
def execSqNop (ring : Fin 16384) (entry : BitVec 512) (s : State) : Answer :=
  .next (if eKIND entry = 1 ∨ eKIND entry = 2 then s
    else s.sqFetched ring.val fun s =>
      s.sqAct ring.val entry fun s => (if eKIND entry = 0 && entryOk entry then cDONE else cFORMAT, s))

/-- SLOTS (R396). -/
def State.slotsAct (s : State) (p : Nat) (e : BitVec 512) : Nat × State :=
  if !entryOk e then (cFORMAT, s)
  else
    let w := bits e.toNat 64 6
    let v := s.rd (aCtxSlotmap p w)
    let set := BitVec.ofNat 64 (bits e.toNat 128 64)
    let clr := BitVec.ofNat 64 (bits e.toNat 192 64)
    s.slotInput p w ((v &&& ~~~clr) ||| set) (BitVec.ofNat 32 (bits e.toNat 32 32))

def execSlots (ring : Fin 16384) (entry : BitVec 512) (s : State) : Answer :=
  .next (if eKIND entry ≠ 2 then s
    else s.sqFetched ring.val fun s => s.sqAct ring.val entry fun s => s.slotsAct (ring.val / 256) entry)

/-- The bridge's read ended badly (R394, R405). -/
def execSqFetchFail (ring : Fin 16384) (o : PcieOutcome) (s : State) : Answer :=
  .next (s.sqFetched ring.val fun s => s.sqFails ring.val (outcomeCode o))

/-! ## DELIVER (R397) -/

/-- The name of port b's bridge as a source (DESIGN CHOICE, log 21). -/
def State.bridgeName (s : State) (b : Nat) : BitVec 20 := addr20 s.position (64 + portQuoin b) 126

def State.bridgeAwaits (s : State) (b : Nat) (dest : BitVec 20) : Nat :=
  Tbl.get 0 s.bridgeAwait (b * 2 ^ 20 + dest.toNat)

/-- Packets of bridge b awaiting answers, and the destinations they went to (R260). -/
def State.bridgeRoom (s : State) (b : Nat) (dest : BitVec 20) : Bool :=
  let mine := s.bridgeAwait.filter fun e => e.1 / 2 ^ 20 = b
  (mine.map (·.2)).sum < 128 && (s.bridgeAwaits b dest ≠ 0 || mine.length < 16)

/-- A packet leaves bridge b. -/
def State.bridgeSend (s : State) (b : Nat) (p : Packet) : State :=
  let dest := nameAt (kDADDR p)
  let key := b * 2 ^ 20 + dest.toNat
  let s := { s with bridgeAwait := Tbl.set 0 s.bridgeAwait key (s.bridgeAwaits b dest + 1) }
  s.inject (s.withAge p)

/-- A flag of the bridge waits for its destination (R268). -/
def State.bridgeHolds (s : State) (b : Nat) (dest : BitVec 20) : Bool :=
  s.delivers.any fun d => d.port = b && d.stage = 3 && d.dest = dest

/-- A granted entry's write may leave; a flag may leave once nothing to its destination awaits an answer (R268, R372). -/
def State.deliverReady (s : State) (d : Deliver) : Bool :=
  if d.stage = 1 then s.bridgeRoom d.port d.dest && !s.bridgeHolds d.port d.dest
  else d.stage = 3 && !s.flagHold && s.bridgeAwaits d.port d.dest = 0 && s.bridgeRoom d.port d.dest

/-- The packet that an entry sends next. -/
def State.deliverPacket (s : State) (d : Deliver) : Packet :=
  let me := s.bridgeName d.port
  if d.stage = 1 then
    ⟨mkHdr tyWRITE none (addrAt d.dest 0 d.off) d.dh me d.txid 0 64 (d.off + 63), d.bytes, false⟩
  else ⟨putW (mkHdr tyFLAG none (addrAt d.dest 3 0) d.flag me d.txid 0 0 1) 10 12 s.imprintTag, [], false⟩

/-- Entries whose packet may leave send it. -/
def sendDelivers : Nat → State → State
  | 0, s => s
  | n + 1, s =>
    match s.delivers.find? s.deliverReady with
    | none => s
    | some d =>
      let p := s.deliverPacket d
      sendDelivers n (({ s with delivers := s.delivers.map fun x => if x = d then { x with stage := x.stage + 1 } else x }).bridgeSend
        d.port p)

def State.pumpDelivers (s : State) : State := sendDelivers (2 * s.delivers.length) s

/-- A DELIVER entry asks for its credit. -/
def State.deliverAsk (s : State) (b r : Nat) (e : BitVec 512) : State :=
  let v := s.rd (aRing r 0x18)
  let dest := BitVec.ofNat 20 (getF v 0 20)
  let d : Deliver := ⟨b, r, leBytes 64 e.toNat, eTAG e, eCQE e, (s.sqHead r + 1) % s.ringN r, s.bridgeTx, dest, getF v 20 8,
    s.fld (aRing r 0x28) 32 32 % 2 ^ getF v 32 4 * 64, getF v 40 8, 0, false⟩
  let s := s.modIrq r fun q => { q with reserved := q.reserved + 1 }
  { s with
    delivers := s.delivers ++ [d]
    bridgeTx := s.bridgeTx + 1
    creditNet := s.creditNet ++ [CreditMsg.request dest d.dh (s.bridgeName b) d.txid] }

/-- The ring can hand an entry over: EN, and a core of this package as the destination (R411). -/
def State.deliverOk (s : State) (r : Nat) : Bool :=
  let v := s.rd (aRing r 0x18)
  let dest := BitVec.ofNat 20 (getF v 0 20)
  getF v 28 1 = 1 && a20Pkg dest = s.position && destOk dest

/-- A DELIVER entry; of one ring the next begins when the write of the one before has its verdict, which moves the row. -/
def execDeliver (ring : Fin 16384) (entry : BitVec 512) (s : State) : Answer :=
  let r := ring.val
  .next (if eKIND entry ≠ 1 then s
    else s.sqFetched r fun s =>
      if !entryOk entry then s.sqAct r entry fun s => (cFORMAT, s)
      else if !s.deliverOk r then s.sqAct r entry fun s => (cHANDLE, s)
      else if s.delivers.any fun d => d.ring = r && d.stage < 3 then s
      else match s.carrier (r / 256) with
      | some (b, _) => s.deliverAsk b r entry
      | none => s)

/-- An entry of the ring is done with: its reservation is released and its completion written. -/
def State.deliverEnds (s : State) (d : Deliver) (code flags : Nat) : State :=
  let s := { s with delivers := s.delivers.filter fun x => x.txid ≠ d.txid ∨ x.port ≠ d.port }
  if d.mute then s
  else (s.modIrq d.ring fun q => { q with reserved := q.reserved - 1 }).entryDone d.ring 1 d.tag d.cqe d.head code flags

/-- The answer to a bridge's credit request: the grant is the moment of acceptance (R397). -/
def State.bridgeCredit (s : State) (src : BitVec 20) (txid : BitVec 12) (epoch code : Nat) : State :=
  let s := s.creditLanded (.grant src txid epoch code)
  match s.delivers.find? fun d => s.bridgeName d.port = src && d.txid = txid && d.stage = 0 with
  | none => s
  | some d =>
    if d.mute then
      let s := { s with delivers := s.delivers.erase d }
      if code = cDONE then s.giveBack d.dest d.dh src txid [epoch] else s
    else
      let s := s.sqAccept d.ring d.bytes
      if code ≠ cDONE then s.deliverEnds d code 0
      else
        let s := { s with delivers := s.delivers.map fun x => if x = d then { x with stage := 1 } else x }
        s.pumpDelivers

/-- The status of an answer to a bridge's packet: the write's verdict, then the flag's. -/
def State.deliverAnswered (s : State) (d : Deliver) (st : BitVec 16) : State :=
  let s := if d.stage = 4 then s.deliverEnds d (codeOf st) st.toNat
    else if codeOf st = cDONE then
      let s := s.addFld (aRing d.ring 0x28) 32 32 1
      { s with delivers := s.delivers.map fun x => if x = d then { x with stage := 3 } else x }
    else s.deliverEnds d (codeOf st) st.toNat
  s.pumpDelivers

/-! ## EN of a ring (R391) -/

/-- A `HOST_POST` that waits for space in ring r ends with ABSORBED. -/
def Core.absorbPosts (c : Core) (r : Nat) : Core :=
  { c with fifo := c.fifo.map fun e => (e.1, e.2.map fun it =>
      match it.phase with
      | .executing x =>
        if dOP it.desc = 0x48 ∧ mRING it.desc = r ∧ x.progress < mCOUNT it.desc ∧ !x.worked then
          { it with phase := .executing { x with worked := true, codes := x.codes ++ [cABSORBED] } }
        else it
      | _ => it) }

/-- EN of ring r is cleared. -/
def State.ringStops (s : State) (r : Nat) : State :=
  let s := { s with
    cores := s.cores.map fun (e : Nat × Core) => (e.1, e.2.absorbPosts r)
    delivers := s.delivers.map fun (d : Deliver) => if d.ring = r then { d with mute := true } else d }
  s.modIrq r fun _ => ⟨0, 0, 0, false⟩

/-- A write of `HOST_RING_CFG`: LOG2N and VEC are ignored while EN is 1, and EN refuses to set without a legal LOG2N. -/
def State.ringCfg (s : State) (r : Nat) (v : Word) : State :=
  let a := aRing r 0x10
  let en := s.ringEn r
  let s := (s.setFld a 6 1 (getF v 6 1)).setFld a 16 48 (getF v 16 48)
  let s := if en then s else (s.setFld a 0 5 (getF v 0 5)).setFld a 7 5 (getF v 7 5)
  let n := s.fld a 0 5
  if getF v 5 1 = 0 then (if en then (s.setFld a 5 1 0).ringStops r else s)
  else if en then s.ringTest r
  else if n < 4 ∨ 16 < n then s
  else ((s.setFld a 5 1 1).wr (aRing r 0x20) 0).setFld (aRing r 0x28) 0 1 1

def execRingCfgEnWrite (who : Accessor) (ring : Fin 16384) (v : Word) (s : State) : Answer :=
  .next (if s.mayWrite who (aRing ring.val 0x10) then s.ringCfg ring.val v else s)

/-! ## The flush doorbell (R403) -/

/-- The check of R389 on a flush. -/
def State.flushCode (s : State) (p win off size : Nat) : Nat :=
  s.winCheck p win (if size = 0 then none else some (off + size - 1)) false true

/-- A write of `HOST_FLUSH_CTL`: one flush runs, up to 16 wait. It acts on port b, which carries the partition's writes. -/
def State.flushOn (s : State) (b f p : Nat) (v : Word) : State :=
  let off := (s.rd (s.bar2 b f 0x1000)).toNat
  let size := getF v 0 32
  let win := getF v 32 4
  let code := s.flushCode p win off size
  let mine := (s.pport b).flushes.filter fun x => x.f = f
  if size = 0 ∧ code = cDONE then s.flushCounted b f cDONE
  else if 17 ≤ mine.length then s.setFld (s.bar2 b f 0x1010) 0 1 1
  else
    let x : Flush := ⟨f, p, win, off, size, code, (s.pport b).entered⟩
    let s := s.modPport b fun y => { y with flushes := y.flushes ++ [x] }
    (if mine = [] then flushNext b f [x] s else s).pumpReads b

def State.flushWrite (s : State) (p : Nat) (v : Word) : State :=
  match s.carrier p with | some (b, f) => s.flushOn b f p v | none => s

def execHostFlushCtl (port : Fin 2) (f : Fin 64) (v : Word) (s : State) : Answer :=
  .next (match s.takes port.val f.val with
    | some p => s.flushWrite p v
    | none => s)

/-! ## The fabric aperture (R404) -/

/-- The check of an aperture address at the bridge: this package, an endpoint that exists, for a function other than PF0 a
core of its partition. -/
def State.fabCheck (s : State) (f p addr : Nat) : Nat :=
  let die := bits addr 35 7
  firstFail [
    (bits addr 42 6 ≠ s.position, cHANDLE),
    (68 ≤ die || (64 ≤ die && (bits addr 33 2 ≠ 0 || bits addr 28 5 ≠ 31 || bits addr 26 2 ≠ 3)), cEXTENT),
    (f ≠ 0 && !(isCoreAt addr && s.partOfKey (keyAt addr) = p), cHANDLE)]

/-- The packet of an access: a raw WRITE or RDREQ into a core's memories, CTRL elsewhere. -/
def State.fabPacket (s : State) (b addr n : Nat) (data : List Byte) (rd : Bool) : Packet :=
  let ty := if isCoreAt addr && bits addr 26 2 ≠ 3 then (if rd then tyRDREQ else tyWRITE) else tyCTRL
  let ask := ty = tyCTRL ∧ rd
  ⟨putW (mkHdr ty none addr 0 (s.bridgeName b) s.bridgeTx 0 (if ask then 0 else n) (if ask then n else 0)) 9 1 1, data, false⟩

/-- An access is sent once no earlier write of its function awaits its ACK. -/
def fabReady (xs : List FabAccess) (x : FabAccess) : Bool :=
  !x.sent && !(xs.takeWhile (· ≠ x)).any fun y => y.fn = x.fn && !y.isRead

def sendFab : Nat → State → State
  | 0, s => s
  | n + 1, s =>
    match s.aperture.find? fun x => fabReady s.aperture x && s.bridgeRoom (x.fn / 64) (nameAt (kDADDR x.pkt)) &&
        !s.bridgeHolds (x.fn / 64) (nameAt (kDADDR x.pkt)) with
    | none => s
    | some x =>
      sendFab n (({ s with aperture := s.aperture.map fun y => if y = x then { y with sent := true } else y }).bridgeSend
        (x.fn / 64) x.pkt)

def State.pumpFab (s : State) : State := sendFab s.aperture.length s

/-- `HOST_FAB_STAT`: an access was refused or rejected. -/
def State.fabError (s : State) (b f code : Nat) : State :=
  (s.setFld (s.bar2 b f 0x2010) 0 1 1).setFld (s.bar2 b f 0x2010) 8 8 code

/-- With INC set, ADDR advances after an access. -/
def State.fabAdvance (s : State) (b f n : Nat) : State :=
  let a := s.bar2 b f 0x2000
  if s.fld a 48 1 = 1 then s.addFld a 0 48 n else s

/-- The part whose running context holds the core at an address. -/
def State.runningAt (s : State) (addr : Nat) : Option Nat :=
  if isCoreAt addr then
    let p := s.partOfKey (keyAt addr)
    if p < 64 ∧ s.ctxState p = 4 then some p else none
  else none

/-- An access of `n` bytes at an address, with the data written, or a read. -/
def State.fabAt (s : State) (b f p addr n : Nat) (data : List Byte) (rd : Bool) : State :=
  let code := s.fabCheck f p addr
  if code ≠ cDONE then
    let s := s.fabError b f code
    if rd then s.emit (.completion b f 0) else s
  else
    let s' := match s.runningAt addr, rd with
      | some q, false => s.journal q 4 true (bits addr 35 7 * 128 + keyFlat (keyAt addr)) (digest128 data)
      | _, _ => s
    let x : FabAccess := ⟨b * 64 + f, rd, n, s'.fabPacket b addr n data rd, false⟩
    ({ s' with aperture := s'.aperture ++ [x], bridgeTx := s'.bridgeTx + 1 }).pumpFab

/-- An access at `HOST_FAB_ADDR`, which then advances. A write into a running context waits while replay mode holds inputs back
(R324). -/
def State.fabAccess (s : State) (b f p n : Nat) (data : List Byte) (rd : Bool) : State :=
  let addr := s.fld (s.bar2 b f 0x2000) 0 48
  let s := s.fabAdvance b f n
  match s.runningAt addr, rd with
  | some q, false => if s.mustWait q then s.holdBack q (.fab b f p addr data) else s.fabAt b f p addr n data rd
  | _, _ => s.fabAt b f p addr n data rd

def execHostFabDataWrite (port : Fin 2) (f : Fin 64) (size8 : Bool) (v : Word) (s : State) : Answer :=
  let n := if size8 then 8 else 4
  .next (match s.takes port.val f.val with
    | some p => s.fabAccess port.val f.val p n (leBytes n v.toNat) false
    | none => s)

/-- Through a mirror, and through a function without a partition, `HOST_FAB_DATA` reads as zero (R382, R386). -/
def execHostFabDataRead (port : Fin 2) (f : Fin 64) (size8 : Bool) (s : State) : Answer :=
  let n := if size8 then 8 else 4
  .next (match s.takes port.val f.val with
    | some p => s.fabAccess port.val f.val p n [] true
    | none => if s.bar2Up port.val f.val then s.emit (.completion port.val f.val 0) else s)

/-- The answer to an aperture packet. A refused read brings no byte and returns zero; one that met damage returns its bytes
with the code (DEDUCED, log 50). -/
def State.fabAnswered (s : State) (x : FabAccess) (code : Nat) (data : List Byte) : State :=
  let b := x.fn / 64
  let f := x.fn % 64
  let s := { s with aperture := s.aperture.erase x }
  let s := if code = cDONE then s else s.fabError b f code
  let s := if x.isRead then s.emit (.completion b f (BitVec.ofNat 64 (leNat (data.take x.size)))) else s
  s.pumpFab

/-! ## Answers at a bridge -/

/-- The port whose bridge has this name. -/
def State.bridgeAt (s : State) (a : BitVec 20) : Option Nat := [0, 1].find? fun b => s.bridgeName b = a

/-- An ACK or RDRSP reaches bridge b. -/
def State.bridgeAnswer (s : State) (b : Nat) (p : Packet) : State :=
  let key := b * 2 ^ 20 + (kSRC p).toNat
  let s := s.landed p
  let s := { s with bridgeAwait := Tbl.set 0 s.bridgeAwait key (Tbl.get 0 s.bridgeAwait key - 1) }
  let st := BitVec.ofNat 16 (kARG p)
  let mine := fun (q : Packet) => kTXID q = kTXID p && nameAt (kDADDR q) = kSRC p
  let s := match s.delivers.find? fun d => d.port = b && d.txid = kTXID p && (d.stage = 2 || d.stage = 4) with
    | some d => s.deliverAnswered d st
    | none => match s.aperture.find? fun (x : FabAccess) => x.fn / 64 = b && x.sent && mine x.pkt with
      | some x => s.fabAnswered x (codeOf st) p.payload
      | none => s
  s.pumpDelivers.pumpFab

end Sys2Proof.Machine
end

