-- ==== Sys2Proof/Machine/Answers.lean ====
section
/-! DEFINITION. Answers as they arrive (R198, R201, R258, R263, R264, R268, R271, R518): ACKs, read responses, credit grants. -/

namespace Sys2Proof.Machine

/-! ## Read responses -/

/-- Marks of a payload whose byte `o` lies at `a`: every unit of the core's memory that a marked payload unit touches (R433). -/
def State.markPiece (s : State) (k o a n marks : Nat) : State :=
  ((List.range (ceilDiv (o + n) 64)).filter fun u => bits marks u 1 = 1 ∧ o < 64 * u + 64).foldl (fun s u =>
    let lo := max o (64 * u)
    let hi := min (o + n) (64 * u + 64)
    (unitsOf (a / 2 ^ 26) (a % 2 ^ 26 + (lo - o)) (hi - lo)).foldl (fun s v => s.setPoison k (a / 2 ^ 26) v true) s) s

/-- The payload of a read response written where it lands, with its poison marks. -/
def landMarked (k marks : Nat) : Nat → List (Nat × Nat) → List Byte → State → State
  | _, [], _, s => s
  | o, (a, n) :: rest, bs, s =>
    let s := s.coreWrite k (a / 2 ^ 26) (a % 2 ^ 26) (bs.take n) false
    landMarked k marks (o + n) rest (bs.drop n) (s.markPiece k o a n marks)

/-- Where the response with segment number `i` lands: at the oldest place still open under that number (log 98). -/
def Xfer.landingOf (x : Xfer) (i : Nat) : List (Nat × Nat) :=
  match x.landing.find? fun e => e.1 = i with | some e => e.2 | none => []

/-! ## Circuits (R263, R264) -/

/-- The table entry of a circuit opened by a command. -/
def circWord (d : Wide) : Word :=
  BitVec.ofNat 64 (mCIRC d + 2 ^ 12 + mSLOTS d * 2 ^ 16 + (mDEST d).toNat * 2 ^ 24)

/-- A probe that left this package turned back at a hop of another one: `CORE_CIRC_FAIL` names that hop, which the ACK's layout
does not bring, so the hop is a free value (R263; DESIGN CHOICE, log 107). -/
def State.circFailAway (s : State) (k circ : Nat) : State :=
  let (v, s) := s.draw
  s.wr (aCoreK k 0xE50) (BitVec.ofNat 64 (circ + v.toNat % 2 ^ 23 * 2 ^ 16))

/-- The answer to a probe or a release of the command `d`. A failed open frees what it reserved here; the close of a broken
circuit succeeds (R267). -/
def State.circAnswered (s : State) (k : Nat) (x : Xfer) (d : Wide) (code : Nat) : State :=
  let circ := BitVec.ofNat 12 (mCIRC d)
  let left := s.probes.filter fun y => y.src = s.nameOf k && y.txid = x.txid
  let s := { s with probes := s.probes.filter fun y => y ∉ left }
  if mCOP d = 0 then
    match code, s.circFree k with
    | 0, some n => s.wr (aCirc k n) (circWord d)
    | _, _ =>
      let s := if code = cHANDLE ∧ left ≠ [] then s.circFailAway k (mCIRC d) else s
      (s.freeCirc (s.nameOf k) circ).failXfer k x (if code = cDONE then cHANDLE else code)
  else match s.circEntry k (mCIRC d) with
  | some n =>
    if code = cDONE ∨ s.fld (aCirc k n) 14 1 = 1 then (s.freeCirc (s.nameOf k) circ).wr (aCirc k n) 0 else s.failXfer k x code
  | none => if code = cDONE then s else s.failXfer k x code

/-! ## Transfers -/

/-- The flagged packet of a transfer is answered: a failing status is a late verdict (R269, R271). -/
def State.flagAnswered (s : State) (k : Nat) (x : Xfer) (code : Nat) : State :=
  let s := s.modCore k fun c => c.updXfer x.txid fun y => { y with flag := .none }
  if code ≠ cDONE then s.lateVerdict k x.queue x.seq x.opcode code else s

/-- A code that a transfer gathers without ending: bytes read from a damaged unit arrive all the same (R439). -/
def State.gatherCode (s : State) (k : Nat) (x : Xfer) (code : Nat) : State :=
  if code = cDONE then s
  else s.modCore k fun c => c.updXfer x.txid fun y => { y with codes := if code ∈ y.codes then y.codes else y.codes ++ [code] }

/-- The command of a transfer, while it executes. -/
def Core.commandOf (c : Core) (x : Xfer) : Option Wide :=
  ((c.executing x.queue).find? fun e => e.1.seq = x.seq).map fun e => e.1.desc

/-- One packet of a transfer is answered. -/
def State.xferAnswered (s : State) (k : Nat) (x : Xfer) (p : Packet) (st : BitVec 16) : State :=
  let code := codeOf st
  if x.flag = .left then s.flagAnswered k x code
  else
    let s := s.modCore k fun c => c.updXfer x.txid fun y => { y with
      unanswered := y.unanswered - 1
      verdict := y.verdict || kSEGNO p = 0
      replayed := y.replayed || bits st.toNat fREPLAYED 1 = 1 }
    if kTYPE p = tyRDRSP ∧ p.payload ≠ [] then
      let s := s.modCore k fun c => c.updXfer x.txid fun y => { y with landing := y.landing.eraseP fun e => e.1 = kSEGNO p }
      (landMarked k (kPOISON p) 0 (x.landingOf (kSEGNO p)) p.payload s).gatherCode k x code
    else match decide (x.opcode = 0x49), (s.core k).commandOf x with
    | true, some d => s.circAnswered k x d code
    | _, _ => if code = cDONE then s else s.failXfer k x code

/-- An answer reaches core k: its counts fall, and what waited for them goes on. -/
def State.coreAnswer (s : State) (p : Packet) (k : Nat) : State :=
  let src := (kSRC p).toNat
  let s := (s.landed p).touch k
  let s := s.modCore k fun c => { c with awaiting := Tbl.set 0 c.awaiting src (Tbl.get 0 c.awaiting src - 1) }
  let s := match (s.core k).xfer (kTXID p) with
    | some x => s.xferAnswered k x p (BitVec.ofNat 16 (kARG p))
    | none => s
  (s.pump k).modCore k Core.sweep

/-- An answer of type `ty` arrives at its core or its bridge. A malformed one is discarded as any packet is (R257). -/
def State.answerArrives (s : State) (p : Packet) (ty : Nat) : State :=
  if !s.arrives p || kTYPE p ≠ ty then s
  else if !packetOk p then s.discard p
  else if isCoreAt (kDADDR p) then s.coreAnswer p (keyAt (kDADDR p))
  else match s.bridgeAt (nameAt (kDADDR p)) with
  | some b => s.bridgeAnswer b p
  | none => s.landed p

def execAck (p : Packet) (s : State) : Answer := .next (s.answerArrives p tyACK)

def execRdrsp (p : Packet) (s : State) : Answer := .next (s.answerArrives p tyRDRSP)

/-! ## Credit grants (R223, R226, R397) -/

/-- The answer to a credit request: to a core of this package, to a bridge, or on its way to another package. -/
def State.grantArrives (s : State) (src : BitVec 20) (txid : BitVec 12) (epoch code : Nat) : State :=
  if !s.powered then s
  else match s.bridgeAt src with
  | some _ => s.bridgeCredit src txid epoch code
  | none =>
    if a20Pkg src = s.position ∧ destOk src then s.creditAnswered (a20Die src * 72 + a20Core src) txid epoch code
    else s.creditLanded (.grant src txid epoch code)

def execCreditGrant (src : BitVec 20) (txid : BitVec 12) (epoch : Nat) (code : BitVec 8) (s : State) : Answer :=
  .next (s.grantArrives src txid epoch code.toNat)

end Sys2Proof.Machine
end

