-- ==== Sys2Proof/Machine/Fec.lean ====
section
/-! DEFINITION. The line code of a Ronnen flit (R280 to R284): the field GF(2^10), the Reed-Solomon code RS(272, 256), and the
layout of a flit in its codeword. Symbol s of a codeword is the coefficient of x^(271 − s) (PRESUMED, log 37). -/

namespace Sys2Proof.Machine

/-! ## GF(2^10) with x^10 + x^3 + 1 -/

/-- Multiplication by α. -/
def gfDouble (a : Nat) : Nat := if a < 512 then 2 * a else (2 * a) ^^^ 0x409

/-- `n` low bits of `b` times `a`. -/
def gfMulN : Nat → Nat → Nat → Nat
  | 0, _, _ => 0
  | n + 1, a, b => (if b % 2 = 1 then a else 0) ^^^ gfMulN n (gfDouble a) (b / 2)

def gfMul (a b : Nat) : Nat := gfMulN 10 a b

/-- a^n for n below 1024. -/
def gfPowN : Nat → Nat → Nat → Nat
  | 0, _, _ => 1
  | k + 1, a, n => gfMul (if n % 2 = 1 then a else 1) (gfPowN k (gfMul a a) (n / 2))

def gfPow (a n : Nat) : Nat := gfPowN 10 a n

/-- The inverse: a^1022. -/
def gfInv (a : Nat) : Nat := gfPow a 1022

/-- α^n. -/
def alpha (n : Nat) : Nat := gfPow 2 (n % 1023)

/-- A polynomial, lowest coefficient first, at `x`. -/
def polyEval : List Nat → Nat → Nat
  | [], _ => 0
  | c :: cs, x => c ^^^ gfMul x (polyEval cs x)

/-- Sum of polynomials. -/
def polyAdd : List Nat → List Nat → List Nat
  | [], q => q
  | p, [] => p
  | a :: p, b :: q => (a ^^^ b) :: polyAdd p q

def polyScale (c : Nat) (p : List Nat) : List Nat := p.map (gfMul c)

/-- c · x^m · p. -/
def polyShift (c m : Nat) (p : List Nat) : List Nat := List.replicate m 0 ++ polyScale c p

def polyMul : List Nat → List Nat → List Nat
  | [], _ => []
  | a :: p, q => polyAdd (polyScale a q) (0 :: polyMul p q)

/-! ## The encoder (R280) -/

/-- The generator polynomial, lowest coefficient first. -/
def rsGen : List Nat := (List.range 16).foldl (fun g i => polyMul g [alpha i, 1]) [1]

/-- One step of the division by the generator: the remainder, highest coefficient first, with the next data symbol. -/
def rsStep (rem : List Nat) (d : Nat) : List Nat :=
  let f := d ^^^ rem.headD 0
  (polyAdd (rem.drop 1 ++ [0]) (polyScale f (rsGen.reverse.drop 1)))

/-- A codeword: 256 data symbols, then 16 check symbols. -/
def rsEncode (data : List Nat) : List Nat := data ++ data.foldl rsStep (List.replicate 16 0)

/-! ## The decoder (R282) -/

/-- The syndrome at α^i of a received word, symbol 0 the highest coefficient. -/
def syndrome (cw : List Nat) (i : Nat) : Nat :=
  let x := alpha i
  cw.foldl (fun a c => gfMul a x ^^^ c) 0

def syndromes (cw : List Nat) : List Nat := (List.range 16).map (syndrome cw)

/-- The state of Berlekamp and Massey's algorithm. -/
structure Locator where
  C : List Nat
  B : List Nat
  L : Nat
  m : Nat
  b : Nat
deriving DecidableEq, Repr

/-- One step with syndrome `n`. -/
def locStep (syn : List Nat) (k : Locator) (n : Nat) : Locator :=
  let d := (List.range (k.L + 1)).foldl (fun a i => a ^^^ gfMul (k.C.getD i 0) (syn.getD (n - i) 0)) 0
  if d = 0 then { k with m := k.m + 1 }
  else
    let C' := polyAdd k.C (polyShift (gfMul d (gfInv k.b)) k.m k.B)
    if 2 * k.L ≤ n then ⟨C', k.C, n + 1 - k.L, 1, d⟩ else { k with C := C', m := k.m + 1 }

/-- The error locator. -/
def locator (syn : List Nat) : Locator := (List.range 16).foldl (locStep syn) ⟨[1], [1], 0, 1, 1⟩

/-- Symbols of the word that the locator names. -/
def errorPlaces (c : List Nat) : List Nat :=
  (List.range 272).filter fun s => polyEval c (alpha (1023 - (271 - s))) = 0

/-- The error of symbol `s` (Forney). -/
def errorValue (c om : List Nat) (s : Nat) : Nat :=
  let x := alpha (271 - s)
  let y := gfInv x
  let der := ((c.drop 1).zipIdx.map fun e => if e.2 % 2 = 0 then e.1 else 0)
  gfMul x (gfMul (polyEval om y) (gfInv (polyEval der y)))

/-- A received word corrected, with the symbols corrected: none where more than 8 are wrong. -/
def rsDecode (cw : List Nat) : Option (List Nat × List Nat) :=
  let syn := syndromes cw
  if syn.all (· = 0) then some (cw, [])
  else
    let k := locator syn
    let places := errorPlaces k.C
    if 8 < k.L ∨ places.length ≠ k.L then none
    else
      let om := (polyMul syn k.C).take 16
      let fixed := cw.zipIdx.map fun e => if e.2 ∈ places then e.1 ^^^ errorValue k.C om e.2 else e.1
      if (syndromes fixed).all (· = 0) then some (fixed, places) else none

/-! ## Lanes (R281) -/

/-- The PAM4 level, 0 the lowest, of a pair of bits, and the pair of a level: 00, 01, 11, 10 from the lowest. -/
def grayLevel (x : Nat) : Nat := if x = 2 then 3 else if x = 3 then 2 else x

/-- The 5 unit intervals of a symbol, least significant pair first. -/
def symbolLevels (x : Nat) : List Nat := (List.range 5).map fun i => grayLevel (bits x (2 * i) 2)

/-- The symbol of 5 unit intervals. -/
def levelsSymbol (l : List Nat) : Nat := l.foldr (fun v n => grayLevel v + 4 * n) 0

/-- The symbols of a codeword that logical lane `n` carries. -/
def laneSymbols (cw : List Nat) (n : Nat) : List Nat := (List.range 34).map fun i => cw.getD (8 * i + n) 0

/-- The 170 unit intervals of a codeword on logical lane `n`. -/
def laneLevels (cw : List Nat) (n : Nat) : List Nat := (laneSymbols cw n).flatMap symbolLevels

/-- The bits of a codeword on logical lane `n` in time order, the lower of a pair first. -/
def laneBits (cw : List Nat) (n : Nat) : List Nat :=
  (laneLevels cw n).flatMap fun v => [grayLevel v % 2, grayLevel v / 2]

/-! ## The flit in its codeword (R283, R284) -/

/-- The parity bit of a 32-bit word: the 33 bits hold an even number of ones. -/
def wordParity (w : Nat) : Nat := (List.range 32).foldl (fun a i => a ^^^ bits w i 1) 0

/-- The words of a flit as 2,508 bits. -/
def packWords : List Nat → Nat
  | [] => 0
  | w :: ws => w + wordParity w * 2 ^ 32 + packWords ws * 2 ^ 33

/-- The link header. -/
def linkHeader (f : WireFlit) : Nat :=
  let data : Bool := f.ftype = 1
  f.ftype + (if data then f.body.cls / 2 * 2 ^ 4 + f.body.cls % 2 * 2 ^ 6 + (if f.body.first then 2 ^ 7 else 0) +
    (if f.body.last then 2 ^ 8 else 0) + f.seq * 2 ^ 16 else 0) +
  f.ackseq * 2 ^ 32 + (if f.ackv then 2 ^ 48 else 0) + (if f.nak then 2 ^ 49 else 0) +
  (f.cret.zipIdx.foldl (fun n e => n + e.1 * 2 ^ (64 + 6 * e.2)) 0)

/-- The 76 words of a flit. -/
def flitWords (f : WireFlit) : List Nat :=
  let all := linkHeader f + f.body.hdr.toNat * 2 ^ 128 + leNat f.body.payload * 2 ^ 384
  (List.range 76).map fun i => bits all (32 * i) 32

/-- The codeword that carries a flit. -/
def codewordOf (f : WireFlit) : List Nat :=
  let n := packWords (flitWords f)
  rsEncode ((List.range 256).map fun s => bits n (10 * s) 10)

/-- The words of a decoded flit: none where a word fails parity or a pad bit is set. -/
def unpackWords (data : List Nat) : Option (List Nat) :=
  let n := data.zipIdx.foldl (fun a e => a + e.1 * 2 ^ (10 * e.2)) 0
  let ws := (List.range 76).map fun i => bits n (33 * i) 32
  if n / 2 ^ 2508 = 0 ∧ (List.range 76).all (fun i => bits n (33 * i + 32) 1 = wordParity (bits n (33 * i) 32)) then some ws else none

/-- A flit from its words: none for a reserved FTYPE or a reserved field. -/
def flitOf (ws : List Nat) : Option WireFlit :=
  let h := ((ws.take 4).zipIdx.foldl (fun a e => a + e.1 * 2 ^ (32 * e.2)) 0)
  let ty := bits h 0 4
  if 3 ≤ ty ∨ bits h 9 7 ≠ 0 ∨ bits h 50 14 ≠ 0 ∨ bits h 112 16 ≠ 0 then none
  else
    let side := ((ws.drop 4).take 8).zipIdx.foldl (fun a e => a + e.1 * 2 ^ (32 * e.2)) 0
    let body : FlitBody := ⟨2 * bits h 4 2 + bits h 6 1, bits h 7 1 = 1, bits h 8 1 = 1, BitVec.ofNat 256 side,
      (ws.drop 12).flatMap fun w => leBytes 4 w, false⟩
    some ⟨ty, bits h 16 16, body, bits h 32 16, bits h 48 1 = 1, bits h 49 1 = 1, (List.range 8).map fun c => bits h (64 + 6 * c) 6,
      false⟩

/-- A received codeword: the flit and the symbols corrected, or none where it is discarded (R282, R284). -/
def receiveFlit (cw : List Nat) : Option (WireFlit × List Nat) :=
  if cw.length ≠ 272 ∨ cw.any (1024 ≤ ·) then none
  else match rsDecode cw with
  | none => none
  | some (w, fixed) =>
    match (unpackWords (w.take 256)).bind flitOf with
    | none => none
    | some f => some (f, fixed)

end Sys2Proof.Machine
end

