-- ==== Sys2Proof/Machine/Pattern.lean ====
section
/-! DEFINITION. The pattern of the loop-backs (R477, R478): PRBS31, the checker with its lock, and what a tick of a loop-back that
no command carries checks. -/

namespace Sys2Proof.Machine

/-! ## PRBS31, x^31 + x^28 + 1 -/

/-- The bit that follows a register of the last 31 bits, bit 0 the latest. -/
def prbsBit (r : Nat) : Nat := bits r 30 1 ^^^ bits r 27 1

def prbsPush (r b : Nat) : Nat := (2 * r + b) % 2 ^ 31

/-- The first `n` bits of the generator after a register. -/
def prbsFrom : Nat → Nat → List Nat
  | 0, _ => []
  | n + 1, r => prbsBit r :: prbsFrom n (prbsPush r (prbsBit r))

/-- The generator's sequence: its register is seeded to ones. -/
def prbs31 (n : Nat) : List Nat := prbsFrom n (2 ^ 31 - 1)

/-! ## The checker -/

/-- One lane under check: the register, bits seen before lock, bits in error, bits checked. -/
structure LaneCheck where
  reg : Nat
  seen : Nat
  errs : Nat
  checked : Nat
deriving DecidableEq, Repr

/-- One returned bit: the first 64 of a lane load the register, and each one after them is compared (DESIGN CHOICE, log 110). -/
def LaneCheck.take (c : LaneCheck) (b : Nat) : LaneCheck :=
  if c.seen < 64 then { c with reg := prbsPush c.reg b, seen := c.seen + 1 }
  else
    let e := prbsBit c.reg
    { c with reg := prbsPush c.reg e, errs := c.errs + (if b = e then 0 else 1), checked := c.checked + 1 }

def State.pattern (s : State) (a : Nat) : Pattern := Tbl.get Pattern.reset s.patterns a

/-- GEN of the loop-back register at `a`: setting it clears ERRS and MBITS, and generator and checker begin. -/
def State.genTake (s : State) (a gen : Nat) : State :=
  if gen = 1 then { s.setFld a 16 48 0 with patterns := Tbl.set Pattern.reset s.patterns a { Pattern.reset with run := true } }
  else { s with patterns := Tbl.set Pattern.reset s.patterns a Pattern.reset }

/-- `errs` wrong bits among `n` checked count in the register at `a`. -/
def State.countBits (s : State) (a errs n : Nat) : State :=
  let p := s.pattern a
  let total := p.rest + n
  ((({ s with patterns := Tbl.set Pattern.reset s.patterns a { p with rest := total % 2 ^ 30 } }).addFld a 16 32 errs).satFld a 48 16
    (total / 2 ^ 30))

/-- Bits of one lane come back at the checker of `a`. -/
def State.checkLane (s : State) (a lane : Nat) (bs : List Nat) : State :=
  let p := s.pattern a
  if p.run then
    let c := bs.foldl LaneCheck.take ⟨Tbl.get 0 p.reg lane, Tbl.get 0 p.seen lane, 0, 0⟩
    ({ s with patterns := Tbl.set Pattern.reset s.patterns a { p with
      reg := Tbl.set 0 p.reg lane c.reg, seen := Tbl.set 0 p.seen lane c.seen } }).countBits a c.errs c.checked
  else s

/-- A payload comes back, its bytes' bits in order. -/
def State.checkPayload (s : State) (a : Nat) (bs : List Byte) : State :=
  s.checkLane a 0 (bs.flatMap fun b => (List.range 8).map fun i => bits b.toNat i 1)

/-- A codeword comes back on raw lanes. -/
def State.checkCodeword (s : State) (a : Nat) (cw : List Nat) : State :=
  (List.range 8).foldl (fun s n => s.checkLane a n (laneBits cw n)) s

/-! ## Loop-backs that the tick drives -/

/-- The loop-back register of a die bridge, `FD_BRIDGE_LOOP` of R478. -/
def isBridgeLoop (a : Nat) : Bool :=
  folioBase 0 ≤ a && a < folioBase 64 && (a - folioBase 0) % 0x100000 ∈ [0x600, 0x608, 0x610, 0x618]

/-- Lanes and bits of each lane that come back in one tick of 4 ns at the loop-back of `a`, where no command carries them: a PCIe
port at the rate and width last negotiated (R378, R479), a die bridge at 1.5 TB/s (R262, R481), a Ronnen port at depth 1 (R278, R301). -/
def State.tickLanes (s : State) (a : Nat) : Nat × Nat :=
  match [0, 1].find? fun b => a = aPort b 0x18 with
  | some b =>
    let l := (s.pport b).lanes
    if s.fld a 0 1 = 1 then (l.2, [0, 10, 20, 32, 64, 128, 256].getD l.1 0) else (0, 0)
  | none => match (List.range 12).find? fun p => a = aRnn p 0x30 with
    | some p => if s.rnnState p = 8 ∧ s.fld (aRnn p 0) 2 1 = 1 ∧ s.fld (aRnn p 0) 3 3 = 1 then (8, 896) else (0, 0)
    | none => if isBridgeLoop a && s.fld a 0 1 = 1 then (1, 48000) else (0, 0)

/-- A tick of a running pattern: bits past the lock count, and how many of them are wrong is a free value (DESIGN CHOICE, log
110). -/
def State.patternTick (s : State) (a : Nat) : State :=
  let l := s.tickLanes a
  let p := s.pattern a
  if !p.run || l.1 * l.2 = 0 then s
  else
    let seen := Tbl.get 0 p.seen 0
    let n := l.1 * (l.2 - (64 - seen))
    let v := s.draw
    (({ v.2 with patterns := Tbl.set Pattern.reset s.patterns a { p with seen := Tbl.set 0 p.seen 0 (min 64 (seen + l.2)) } }).countBits a
      (v.1.toNat % (n + 1)) n)

end Sys2Proof.Machine
end

