-- ==== Sys2Proof/Machine/Ports.lean ====
section
/-! DEFINITION. PCIe ports (R378, R382, R383, R406 to R410, R413, R502): mirrors, function-level and hot resets, links, failover
and failback, configuration requests. -/

namespace Sys2Proof.Machine

/-! ## Mirrors (R382) -/

/-- A write of `HOST_FN`: MIRROR is refused where a partition has the function as its primary, and where the other port's
function has no partition. -/
def State.mirrorWrite (s : State) (b f : Nat) (v : Word) : State :=
  let a := aFn b f 0
  if getF v 7 1 = 1 then
    if s.fld a 0 1 = 1 ∨ s.fld (aFn (1 - b) f 0) 0 1 = 0 then s.setFld a 7 1 0
    else (s.setFld a 7 1 1).setFld a 1 6 (s.fld (aFn (1 - b) f 0) 1 6)
  else
    let s := s.setFld a 7 1 0
    if s.fld a 0 1 = 0 ∧ s.fld a 8 1 = 0 then s.setFld a 1 6 0 else s

def execHostFnMirrorWrite (port : Fin 2) (f : Fin 64) (v : Word) (s : State) : Answer :=
  .next (if s.powered then s.mirrorWrite port.val f.val v else s)

/-! ## Function-level and hot reset (R406, R407) -/

/-- A function-level reset gives a partition that no port carries its service back (R409), once its port is in L0. -/
def State.serviceBack (s : State) (b f : Nat) : State :=
  if s.fld (aFn b f 0) 0 1 = 1 ∧ (s.carrier (s.fld (aFn b f 0) 1 6)).isNone ∧ s.linkUp b then s.setFld (aFn b f 0) 8 1 1 else s

/-- R406 on one function. -/
def State.flr (s : State) (b f : Nat) : State := (s.flrOne b f).serviceBack b f

/-- R406 on PF0 and every VF of port b. -/
def State.flrAll (s : State) (b : Nat) : State := (List.range 64).foldl (fun s f => s.flr b f) s

def execFunctionLevelReset (port : Fin 2) (f : Fin 64) (s : State) : Answer :=
  .next (if !s.powered then s
    else if f.val = 0 && !s.isMirror port.val 0 then s.flrAll port.val
    else s.flr port.val f.val)

/-- RATE, WIDTH and FLIT of port b. -/
def State.setLink (s : State) (b rate width flit : Nat) : State :=
  ((s.setFld (aPort b 0) 0 3 rate).setFld (aPort b 0) 3 5 width).setFld (aPort b 0) 8 1 flit

/-- Conventional reset of a port: its functions are reset, and its link trains again. -/
def State.portReset (s : State) (b : Nat) : State :=
  ((s.flrAll b).setLink b 0 0 0).modPport b fun p => { p with downTick := none, vfs := 0 }

/-- A Hot Reset, or a link disable. -/
def execHotReset (port : Fin 2) (s : State) : Answer := .next (if s.powered then s.portReset port.val else s)

/-- PERST# of a port: while asserted the link is down, and its functions are reset as by a Hot Reset (PRESUMED, log 36). -/
def execPerst (port : Fin 2) (low : Bool) (s : State) : Answer :=
  .next (if !s.powered || (s.pport port.val).perstLow = low then s
    else
      let s := s.modPport port.val fun p => { p with perstLow := low }
      if low then s.portReset port.val else s)

/-! ## Failover (R408, R409) -/

/-- A host command of partition p that has not done its work ends with ABSORBED. -/
def Core.absorbHost (c : Core) : Core :=
  { c with fifo := c.fifo.map fun (e : Nat × List Item) => (e.1, e.2.map fun it =>
      match it.phase with
      | .executing x =>
        if isHostOp (dOP it.desc) ∧ !x.worked then
          { it with phase := .executing { x with worked := true, codes := x.codes ++ [cABSORBED] } }
        else it
      | _ => it) }

/-- A partition loses host service: its writes and reads are discarded, its rings disabled, its host commands end. -/
def State.unserved (s : State) (b f p : Nat) : State :=
  let s := s.setFld (aFn b f 0) 8 1 0
  let s := s.modPport b fun x => { x with
    buf := x.buf.filter fun e => e.2.part ≠ p
    queued := x.queued.filter fun e => e.2.part ≠ p
    retained := x.retained.filter fun e => e.2.part ≠ p
    reads := x.reads.filter fun r => r.part ≠ p
    flushes := x.flushes.filter fun y => y.part ≠ p }
  let s := (List.range 256).foldl (fun s i =>
    if s.ringEn (ringOf p i) then (s.setFld (aRing (ringOf p i) 0x10) 5 1 0).ringStops (ringOf p i) else s) s
  { s with cores := s.cores.map fun (e : Nat × Core) => if s.partOfKey e.1 = p then (e.1, e.2.absorbHost) else e }

/-- The count `n` of writes of a list, numbered by entry. -/
def movedBefore (l : List (Nat × DlvWrite)) (n : Nat) : Nat := (l.filter fun e => e.1 < n).length

/-- A `HOST_FLUSH` that has issued covers the same writes under their new numbers. -/
def Core.moveFlushes (c : Core) (renum : Nat → Nat) : Core :=
  { c with fifo := c.fifo.map fun (e : Nat × List Item) => (e.1, e.2.map fun it =>
      match it.phase with
      | .executing x => if dOP it.desc = 0x47 then { it with phase := .executing { x with progress := renum x.progress } } else it
      | _ => it) }

/-- A retained write is sent again through port b: at once where its link is up. One that its window no longer holds is not sent
(R389). -/
def State.resend (s : State) (b : Nat) (w : DlvWrite) : State :=
  let w := { w with ring := none }
  let code := s.beyond w.part w.win (w.off + w.bytes.length - 1)
  if code ≠ cDONE then (match w.cmd with | some c => s.cmdCode c.1 c.2.1 c.2.2.1 c.2.2.2 code | none => s)
  else if s.linkUp b then
    (s.modPport b fun p => { p with left := p.left + 1, retained := p.retained ++ [(p.left, w)] }).emit
      (.hostWrite b (s.winAddr w.part w.win w.off) w.bytes w.ep)
  else s.enterWrite b { w with ordered := true }

/-- Writes and reads of the partitions that `mine` accepts move from port b to the other: retained writes are sent again in their
order, reads without a completion are issued again, `owed` messages are sent, then the rest follows (R408). -/
def State.moveTraffic (s : State) (b : Nat) (mine : Nat → Bool) (owed : State → State) : State :=
  let o := 1 - b
  let x := s.pport b
  let held := (x.buf ++ x.queued).filter fun e => mine e.2.part
  let old := x.retained.filter fun e => mine e.2.part
  let reads := x.reads.filter fun r => mine r.part
  let s := old.foldl (fun s e => s.resend o e.2) s
  let start := (s.pport o).entered
  let renum := fun n => start + movedBefore held n
  let s := (reads.filter fun r => r.sent).foldl (fun s r => s.addRead o fun tag => if r.got.isSome then { r with tag := tag } else
    { r with tag := tag, sent := false, after := start }) s
  let s := owed (s.pumpReads o)
  let s := held.foldl (fun s e => s.enterWrite o e.2) s
  let s := (reads.filter fun r => !r.sent).foldl (fun s r => s.addRead o fun tag =>
    { r with tag := tag, after := renum r.after }) s
  let s := s.modPport o fun y => { y with
    flushes := y.flushes ++ (x.flushes.filter fun f => mine f.part).map fun f => { f with after := renum f.after } }
  let s := s.modPport b fun y => ({ y with
    buf := y.buf.filter fun e => !mine e.2.part
    queued := y.queued.filter fun e => !mine e.2.part
    retained := y.retained.filter fun e => !mine e.2.part
    reads := y.reads.filter fun r => !mine r.part
    flushes := y.flushes.filter fun f => !mine f.part } : PPort).fill
  { s with cores := s.cores.map fun (e : Nat × Core) => if mine (s.partOfKey e.1) then (e.1, e.2.moveFlushes renum) else e }

/-- The function of the other port that takes over function f of port b. -/
def State.mirrorReady (s : State) (b f : Nat) : Bool :=
  s.fld (aFn b f 0) 0 1 = 1 && s.fld (aFn (1 - b) f 0) 7 1 = 1 && s.fld (aPort 0 8) 0 1 = 1 && s.fld (aPort 1 8) 0 1 = 1

/-- Port b is declared failed. -/
def State.portFails (s : State) (b : Nat) : State :=
  let act := (List.range 64).filter fun f => s.fld (aFn b f 0) 8 1 = 1
  let moved := act.filter (s.mirrorReady b)
  let pkg : Bool := b = 0 && s.fld (aPort 1 0) 9 1 = 0
  let s := (s.setFld (aPort b 0) 9 1 1).modPport b fun p => { p with downTick := none }
  let s := (act.filter (· ∉ moved)).foldl (fun s f => s.unserved b f (s.fld (aFn b f 0) 1 6)) s
  let s := moved.foldl (fun s f => (s.setFld (aFn b f 0) 8 1 0).setFld (aFn (1 - b) f 0) 8 1 1) s
  let s := if moved = [] then s else s.setFld (aPort (1 - b) 0) 10 1 1
  let parts := moved.map fun f => s.fld (aFn b f 0) 1 6
  let s := s.moveTraffic b (fun p => p ∈ parts || (pkg && p = 64)) fun s =>
    (parts ++ if pkg then [64] else []).foldl State.msixPump s
  let s := s.raiseOpen { ErrRec.base with cls := 1, source := 0x41, location := b }
  s.pumpReads (1 - b)

/-- The link has not returned within 2 ms (500,000 ticks). -/
def execPortFailover (port : Fin 2) (s : State) : Answer :=
  let b := port.val
  .next (if s.powered && !s.linkUp b &&
      (match (s.pport b).downTick with | some t => t + 500000 ≤ s.tick | none => false) then s.portFails b else s)

/-- Data Link Layer Link Active clears without a Hot Reset or a link disable. -/
def execPcieLinkDown (port : Fin 2) (surprise : Bool) (s : State) : Answer :=
  let b := port.val
  .next (if !s.powered || !s.linkUp b then s
    else
      let s := (s.setLink b 0 0 0).modPport b fun p => { p with downTick := some s.tick }
      if surprise then s.portFails b else s)

/-- The link reaches L0 at a rate and a width of R378, unless PERST# or a loop-back (R480) holds it down. -/
def execPcieLinkUp (port : Fin 2) (rate : BitVec 3) (width : BitVec 5) (flit : Bool) (s : State) : Answer :=
  let b := port.val
  .next (if s.powered && !s.linkUp b && !(s.pport b).perstLow && s.fld (aPort b 0x18) 0 1 = 0 && 1 ≤ rate.toNat && rate.toNat ≤ 6 &&
      width.toNat ∈ [1, 2, 4, 8, 16] then
    (List.range 65).foldl State.msixPump (((s.setLink b rate.toNat width.toNat (if flit then 1 else 0)).modPport b fun p =>
      { p with downTick := none, lanes := (rate.toNat, width.toNat) }).pumpReads b)
    else s)

/-! ## Failback (R410) -/

/-- A write of 1 to `HOST_PORT_CTRL.FAILBACK`, on a repaired port in L0. -/
def State.failback (s : State) (b : Nat) : State :=
  if s.fld (aPort b 0) 9 1 = 1 ∧ s.linkUp b then (s.setFld (aPort b 8) 1 1 1).tryFailback b else s

def execFailback (port : Fin 2) (s : State) : Answer := .next (if s.powered then s.failback port.val else s)

/-! ## Configuration requests (R378, R379, R383, R401, R405, R413) -/

/-- VF Enable and NumVFs are written: every VF removed is reset. -/
def State.vfWrite (s : State) (b : Nat) (enable : Bool) (n : Nat) : State :=
  let n := if enable then n else 0
  let old := (s.pport b).vfs
  let s := ((List.range 64).filter fun f => n < f ∧ f ≤ old).foldl (fun s f => s.flr b f) s
  s.modPport b fun p => { p with vfs := n }

/-- What a read of the 4 bytes at `reg` of function f's configuration space returns: Device ID above the Vendor ID at 0x00, class
code above Revision ID at 0x08 (R379), AER's uncorrectable errors; the rest is PCI Express's, and open (PRESUMED, log 112). -/
def State.cfgRead (s : State) (b f : Nat) (reg : ConfigReg) (v : Nat) : Nat :=
  match reg with
  | .ids => v % 2 ^ 16 + (if f = 0 then 0x4A40 else 0x4A41) * 2 ^ 16
  | .classCode => s.fuses.stepping.toNat + 0x120000 * 2 ^ 8
  | .aer => (s.fnCfg b f).aer.toNat
  | .other => v % 2 ^ 32

/-- What a configuration write sets. VF Enable and NumVFs lie in PF0. -/
def State.cfgWrite (s : State) (b f : Nat) (op : ConfigOp) : State :=
  match op with
  | .read _ => s
  | .sriov enable n => if f = 0 then s.vfWrite b enable n.val else s
  | .power d3 => s.modFnCfg b f fun c => { c with d3 := d3 }
  | .maxRead n => s.modFnCfg b f fun c => { c with maxRead := 128 * 2 ^ n.val }
  | .timeout t => s.modFnCfg b f fun c => { c with timeout := t }
  | .msix on mask =>
    let s := s.modFnCfg b f fun c => { c with msixOn := on, msixMask := mask }
    match s.fnPart b f with | some p => s.msixPump p | none => s
  | .aerClear m => s.modFnCfg b f fun c => { c with aer := c.aer &&& ~~~m }

/-- Before step 7 has ended a function answers with Request Retry Status, but PF0 of port 0 on the recovery path (R429). -/
def execConfigurationRequest (port : Fin 2) (f : Fin 64) (op : ConfigOp) (s : State) : Answer :=
  let b := port.val
  .next (if !s.powered || !s.linkUp b then s
    else if s.fld aBoot 0 3 < 7 && !(s.recovering.isSome && b = 0 && f.val = 0) then s.emit (.retryStatus b f.val)
    else match op with
    | .read reg =>
      let (v, s) := s.draw
      s.emit (.completion b f.val (BitVec.ofNat 64 (s.cfgRead b f.val reg v.toNat)))
    | _ => s.cfgWrite b f.val op)

end Sys2Proof.Machine
end

