-- ==== Sys2Proof/Machine/Rate.lean ====
section
/-! DEFINITION. Beats and ticks (R303 to R309), the setpoint (R311 to R314, R464), the power-cap loop (R25 to R30), supply limits
(R461, R462). -/

namespace Sys2Proof.Machine

/-! ## Beats (R305 to R309) -/

/-- The units in which time within a frame is counted, to one frame of 20 ns: every setpoint period and every stretched
period is a whole number of them. -/
def frameUnits : Nat := (1182266884102822267511361600 : Nat) ^ 2

/-- The length that replica demand `d`, in 1/64 period, asks of a beat at code c. -/
def demandUnits (c d : Nat) : Nat := d * frameUnits / (64 * c)

/-- The beats of one tick as they end (R308, R309): when the beat in progress began, beats ended, whether the last one ended by
replica demand and whether it demanded more than 5/3 periods; droop events begun, grid points lost, floor events ended. -/
structure Beats where
  began : Nat
  n : Nat
  droop : Bool
  deep : Bool
  events : Nat
  lost : Nat
  floors : Nat
deriving DecidableEq, Repr

/-- A beat ends at `x` with `skipped` grid points inside it, under demand `D`; `byDemand`: it would have ended sooner without. -/
def Beats.close (P D : Nat) (byDemand : Bool) (skipped : Nat) (b : Beats) (x : Nat) : Beats :=
  let deep : Bool := 5 * P < 3 * D
  { began := x
    n := b.n + 1
    droop := byDemand
    deep := deep
    events := b.events + (if byDemand && !b.droop then 1 else 0)
    lost := b.lost + (if byDemand || b.droop then skipped else 0)
    floors := b.floors + (if b.deep && !deep then 1 else 0) }

/-- Time is counted from a grid point at least `phase` before the tick: `lo` and `hi` are its ends. A capped beat takes the longer of
64/f periods and the demand, a beat that is longer already when the factor falls ends at once. -/
def cappedStep (P L D lo hi : Nat) (b : Beats) : Beats :=
  let x := max (b.began + max L D) lo
  if hi < x then b else b.close P D (L < D) ((x - 1) / P - b.began / P) x

/-- An uncapped beat ends on the first grid point at least one period, and the demand, after it began. -/
def gridStep (P D : Nat) (b : Beats) (x : Nat) : Beats :=
  if x < b.began + max P D then b else b.close P D (b.began + 2 * P ≤ x) ((x - 1) / P - b.began / P) x

/-- The beats of a die in the tick at place `t` of its frame, at code c and cap factor f, under demand `d`; `phase` the time since
the beat in progress began. The second value is that time at the tick's end. -/
def beatTick (c f d phase t : Nat) (droop deep : Bool) : Beats × Nat :=
  let P := frameUnits / c
  let D := demandUnits c d
  let back := P * (phase / P + 1)
  let lo := back + t * frameUnits / 5
  let hi := back + (t + 1) * frameUnits / 5
  let b : Beats := ⟨lo - phase, 0, droop, deep, 0, 0, 0⟩
  let r :=
    if f < 64 then (List.range 9).foldl (fun b _ => cappedStep P (64 * P / f) D lo hi b) b
    else (((List.range (c + 1)).map fun i => back + i * P).filter fun x => lo < x && x ≤ hi).foldl (gridStep P D) b
  (r, hi - r.began)

/-- `PKG_RATE.CUR` and the cap factor. -/
def State.rate (s : State) : Nat := s.fld aRate 0 6
def State.capFactor (s : State) : Nat := s.fld (aMgt 0x10) 16 7

/-- Running parts with a started core on die d lose TIMING_EXACT. -/
def State.dieInexact (s : State) (d : Nat) : State :=
  (List.range 64).foldl (fun s p =>
    if s.ctxState p = 4 ∧ (s.started p).any (fun k => keyDie k = d) then s.timingLost p else s) s

/-- The beats of die d in one tick. -/
def State.beatsOf (s : State) (d : Nat) : Beats × Nat :=
  let b := s.die d
  beatTick s.rate s.capFactor b.demand b.phase (s.tick % 5) b.droop b.deep

/-- Droop events, grid points lost and floor events of a tick's beats; each floor event raises its record (R308, R309). -/
def State.noteBeats (s : State) (d : Nat) (r : Beats) : State :=
  let s := if r.events = 0 then s else (s.addFld (aHub d 0x408) 0 32 r.events).dieInexact d
  let s := if r.lost = 0 then s else s.addFld (aHub d 0x410) 0 64 r.lost
  if r.floors = 0 then s
  else (List.range r.floors).foldl (fun s _ => s.raiseOpen { ErrRec.base with source := 0x50, die := d })
    (s.satFld (aHub d 0x408) 32 16 r.floors)

/-- One tick of die d. -/
def State.dieTick (s : State) (d : Nat) : State :=
  let r := s.beatsOf d
  ((s.modDie d fun x => { x with phase := r.2, droop := r.1.droop, deep := r.1.deep }).addFld (aHub d 0x418) 0 64 r.1.n).noteBeats d r.1

/-! ## One tick (R303, R239, R240, R334) -/

/-- Some condition of R320 that the package sees does not hold at launch, or an edition load goes on (R349). -/
def State.inexact (s : State) (p : Nat) : Bool :=
  (s.part p).interlocked || s.rateArm.isSome || s.capFactor < 64 || s.edload p = 1 ||
    (s.started p).any fun k => (s.core k).late || (s.die (keyDie k)).demand ≠ 0

/-- An armed part runs from tick S, with timing identity unless a condition of R320 has failed already. -/
def State.launch (s : State) (p : Nat) : State :=
  if s.ctxState p = 3 ∧ (s.rd (aCtx p 0x20)).toNat ≤ s.tick then
    (s.setCtxState p 4).setFld (aJnl p 0) 4 1 (if s.inexact p then 0 else 1)
  else s

/-- The census count of a core at the beginning of a tick. -/
def State.censusCount (s : State) (k : Nat) : State :=
  s.modCore k fun c => { c with census := if s.censusBlocked k then c.census + 1 else 0 }

/-- Queues whose head waits at issue under R77. -/
def State.sbWaiting (s : State) (k : Nat) : Nat :=
  ((List.range 16).filter fun q =>
    match (s.core k).head q with
    | some it => (s.core k).slotFree q && dOP it.desc ≠ 0x20 && (s.itemHolder k q it).isSome
    | none => false).length

/-- The register of a compositor's stall (R180): a full queue or ledger, a fetch miss or a fifth `PRIME`, a wait. -/
def Core.stallReg (c : Core) : Option Nat :=
  if !c.run then none
  else match c.stall with
    | .push _ _ _ => some 0x430
    | .fetch _ | .prime => some 0x438
    | .cwait _ v f _ _ => if c.met || satisfies (c.flag f) v then none else some 0x440
    | .scoreboard => some 0x440
    | .none => none

/-- A command that waits at the head of its queue under R77 keeps the mark (R78). -/
def State.markWaiting (s : State) (k : Nat) : State := (List.range 4).foldl (fun s e => s.markStalled k e) s

/-- The counters of beats that core `k` spends waiting (R77, R88, R180, R268, R275), over the beats of one tick of its die
(DESIGN CHOICE, log 51), and the marks of the commands that wait. -/
def State.waitTick (s : State) (k : Nat) : State :=
  if !s.live k then s
  else
    let c := s.core k
    let n := (s.beatsOf (keyDie k)).1.n
    let held : Bool := c.held.any fun h => c.awaitOf (nameAt (kDADDR h.1)) ≠ 0
    let s := s.addFld (aCoreK k 0x240) 0 64 (s.sbWaiting k * n)
    let s := match c.stallReg with | some o => s.addFld (aCoreK k o) 0 64 n | none => s
    (if held then s.addFld (aCoreK k 0xE48) 0 64 n else s).markWaiting k

/-- One tick of a powered package. -/
def State.tickOn (s : State) : State :=
  let s := (s.cores.map (·.1)).foldl State.waitTick s
  let s := (List.range 64).foldl State.dieTick s
  let s := { s with tick := s.tick + 1 }.addFld (aMgt 0x40) 0 64 1
  let s := (List.range 64).foldl State.launch s
  let s := (s.cores.map (·.1)).foldl State.censusCount s
  (s.patterns.map (·.1)).foldl State.patternTick s

/-! ## The setpoint (R311 to R315, R464) -/

/-- The next tick at or after now whose low 40 bits are `low`. -/
def State.tickOf40 (s : State) (low : Nat) : Nat :=
  let t := s.tick / 2 ^ 40 * 2 ^ 40 + low
  if t < s.tick then t + 2 ^ 40 else t

/-- Running parts lose TIMING_EXACT. -/
def State.runningInexact (s : State) : State :=
  (List.range 64).foldl (fun s p => if s.ctxState p = 4 then s.timingLost p else s) s

/-- R312. -/
def State.rateCode (s : State) (code t : Nat) : Nat :=
  firstFail [
    (code < 10 || 36 < code || t % 5 ≠ 0, cFORMAT),
    (t < s.tick + 2500, cTIMEDOUT),
    ((match s.rateArm with | some (_, t) => decide (t < s.tick + 2500) | none => false), cTIMEDOUT)]

/-- A write of `PKG_RATE_NEXT`. -/
def State.rateNext (s : State) (v : Word) : State :=
  let code := getF v 0 6
  let t := s.tickOf40 (getF v 24 40)
  let c := s.rateCode code t
  if c ≠ cDONE then s.setFld aRateNext 16 8 c
  else
    let s := (s.wr aRateNext (v &&& (maskF 0 7 ||| maskF 24 40))).setFld aRateNext 16 8 cDONE
    if getF v 6 1 = 1 then { s with rateArm := some (code, t) }.runningInexact else { s with rateArm := none }

def execPkgRateNextWrite (who : Accessor) (v : Word) (s : State) : Answer :=
  .next (if s.mayWrite who aRateNext then s.rateNext v else s)

/-- The three ceilings, and the lowest; code 10 once the colophon has tripped (R460). -/
def State.hostCeil (s : State) : Nat := s.fld (aMgt 0x20) 0 6
def State.thermalCeil (s : State) : Nat := s.fld (aMgt 0x28) 0 6
def State.capCeil (s : State) : Nat := s.fld (aMgt 0x28) 8 6
def State.ceiling (s : State) : Nat :=
  if s.thermal.trip10 then 10 else min s.hostCeil (min s.thermalCeil s.capCeil)

/-- The primary colophon arms no change: it is being handed over or restarted (R430, R456). -/
def State.colophonAway (s : State) : Bool :=
  s.fwRestarting.isSome || s.romUp ||
    match s.handover with | some t => decide (s.tick < t + 12500000) | none => false

/-- The first multiple of 5 at or after n. -/
def up5 (n : Nat) : Nat := (n + 4) / 5 * 5

/-- The tick for a change to `code`: the one asked for, or the earliest; a raise keeps 25,000,000 ticks from the last lowering
(R464). -/
def State.rateTick (s : State) (code : Nat) (ask : Option Nat) : Nat :=
  let t := match ask with | some t => t | none => up5 (s.tick + 2500)
  match s.thermal.lastLower with
  | some l => if s.rate < code ∧ t < l + 25000000 then up5 (l + 25000000) else t
  | none => t

/-- The colophon keeps the setpoint at the lowest ceiling: it arms the change, or leaves an armed one that may not be
replaced. -/
def State.steer (s : State) (ask : Option Nat) : State :=
  let s := s.setFld (aMgt 0x20) 6 1 (if s.ceiling < s.hostCeil then 1 else 0)
  let code := s.ceiling
  let plan := match s.rateArm with | some (c, _) => c | none => s.rate
  if s.colophonAway || (plan = code && ask.isNone) then s
  else if code = s.rate ∧ ask.isNone then
    match s.rateArm with
    | some (_, t) => if t < s.tick + 2500 then s else { s with rateArm := none }.setFld aRateNext 6 1 0
    | none => s
  else
    let t := s.rateTick code ask
    if s.rateCode code t ≠ cDONE then s
    else s.rateNext (BitVec.ofNat 64 (code + 2 ^ 6 + t % 2 ^ 40 * 2 ^ 24))

/-- At T every die joins the new grid; the colophon then follows a ceiling that has changed meanwhile. -/
def State.rateJoin (s : State) : State :=
  match s.rateArm with
  | some (c, t) =>
    if s.powered ∧ t ≤ s.tick then
      let th := if c < s.rate then { s.thermal with lastLower := some t } else s.thermal
      let s := ({ s with rateArm := none, thermal := th }.setFld aRate 0 6 c).setFld aRateNext 6 1 0
      let w := s.thermal.wanted
      (s.runningInexact).steer (if s.tick + 2500 ≤ w ∧ s.ceiling ≠ c then some w else none)
    else s
  | none => s

def execRateChange (s : State) : Answer := .next s.rateJoin

/-! ## Management registers (R476) -/

/-- Only PF0 and the colophons write the colophon registers. -/
def State.mayManage (s : State) (who : Accessor) (a : Nat) : Bool :=
  s.mayWrite who a && match who with | .func b f => s.seesAll b.val f.val | .colophon => true | .fabric => false

/-- The code of a request for a host ceiling (R464). -/
def State.rateReqCode (s : State) (code low : Nat) : Nat :=
  firstFail [
    (code < 10 || 36 < code || (low ≠ 0 && s.tickOf40 low % 5 ≠ 0), cFORMAT),
    (low ≠ 0 && s.tickOf40 low < s.tick + 5000, cTIMEDOUT)]

/-- A write of `MGT_RATE_REQ`. -/
def State.rateReq (s : State) (code low : Nat) : State :=
  let c := s.rateReqCode code low
  if c ≠ cDONE then s.setFld (aMgt 0x20) 8 8 c
  else
    let s := (((s.setFld (aMgt 0x20) 0 6 code).setFld (aMgt 0x20) 24 40 low).setFld (aMgt 0x20) 8 8 cDONE)
    let t := if low = 0 then 0 else s.tickOf40 low
    let s := { s with thermal := { s.thermal with wanted := t } }
    s.steer (if low = 0 ∨ s.ceiling = s.rate then none else some t)

def execMgtRateReqWrite (who : Accessor) (v : Word) (s : State) : Answer :=
  .next (if s.mayManage who (aMgt 0x20) then s.rateReq (getF v 0 6) (getF v 24 40) else s)

/-- The limit in force (R461). -/
def State.capEffect (s : State) : State :=
  let l := s.fld (aMgt 0x10) 0 7
  s.setFld (aMgt 0x10) 8 7 (if s.fld (aMgt 0) 7 1 = 1 then min l 60 else l)

/-- A write of `MGT_CAP.LIMIT` (R462). -/
def State.capWrite (s : State) (l : Nat) : State :=
  if l < 60 ∨ 120 < l then s.setFld (aMgt 0x10) 24 8 cFORMAT
  else ((s.setFld (aMgt 0x10) 0 7 l).setFld (aMgt 0x10) 24 8 cDONE).capEffect

def execMgtCapWrite (who : Accessor) (v : Word) (s : State) : Answer :=
  .next (if s.mayManage who (aMgt 0x10) then s.capWrite (getF v 0 7) else s)

/-! ## The power-cap loop (R25 to R28, R463) -/

/-- The trigger thresholds of the two limits, in mW. -/
def fastLimit : Nat := 1450000 - Config.capMarginFast
def State.slowLimit (s : State) : Nat := s.fld (aMgt 0x10) 8 7 * 10000 - Config.capMarginSlow

/-- The 5 ms average lies above its threshold. While fewer than 5,000 measurements have been made since power-on, the missing ones
count as 0 W (DESIGN CHOICE, log 104). -/
def State.slowOver (s : State) : Bool := s.slowLimit * 5000 < s.thermal.window.sum

/-- Energy of `x` mW over 1 µs joins a counter of mJ with a remainder in nJ. -/
def addEnergy (rest x : Nat) : Nat × Nat := ((rest + x) / 1000000, (rest + x) % 1000000)

/-- The energy counters of the input and of each die (R472). -/
def State.countEnergy (s : State) (mw : List Nat) : State :=
  let e := addEnergy s.thermal.rest mw.sum
  let s := { s with thermal := { s.thermal with rest := e.2 } }.addFld (aMgt 0x58) 0 64 e.1
  mw.zipIdx.foldl (fun s x =>
    let e := addEnergy (Tbl.get 0 s.thermal.dieRest x.2) x.1
    { s with thermal := { s.thermal with dieRest := Tbl.set 0 s.thermal.dieRest x.2 e.2 } }.addFld (aMgt (0x800 + 8 * x.2)) 0 64 e.1) s

/-- The factor moves one step; leaving 64 begins a capping interval. -/
def State.setFactor (s : State) (f : Nat) : State :=
  let s' := s.setFld (aMgt 0x10) 16 7 f
  if s.capFactor = 64 ∧ f < 64 then (s'.addFld (aMgt 0x18) 0 64 1).runningInexact else s'

/-- The cap ceiling falls one code below the setpoint, and the change is armed at the earliest tick, in place of any that R312 lets
it replace. -/
def State.lowerCeil (s : State) : State :=
  let s := s.setFld (aMgt 0x28) 8 6 (s.rate - 1)
  let s := if s.colophonAway then s
    else s.rateNext (BitVec.ofNat 64 (s.ceiling + 2 ^ 6 + up5 (s.tick + 2500) % 2 ^ 40 * 2 ^ 24))
  s.steer none

/-- The cap ceiling moves one code: down once the last lowering, or a change that may not be replaced (R312), has taken effect; up
once no change is armed (DESIGN CHOICE, log 39). -/
def State.moveCeil (s : State) (past : Bool) : State :=
  if past then
    (if s.rate ≤ 10 || (match s.rateArm with | some (_, t) => decide (t < s.tick + 2500) | none => false) then s else s.lowerCeil)
  else if s.rateArm.isSome then s
  else if s.capCeil < 36 ∧ s.capCeil ≤ s.rate then (s.setFld (aMgt 0x28) 8 6 (s.capCeil + 1)).steer none
  else s

/-- The tick from which a condition has held. -/
def since (b : Bool) (old : Option Nat) (now : Nat) : Option Nat := if b then some (old.getD now) else none

/-- One measurement. -/
def State.capMeasure (s : State) (mw : List Nat) : State :=
  let mw := mw.take 68
  let s := s.countEnergy mw
  let s := { s with thermal := { s.thermal with window := (mw.sum :: s.thermal.window).take 5000, power := mw.sum } }
  let slow := s.slowOver
  let past := slow || fastLimit < mw.sum
  let f := s.capFactor
  let s := if past then (if f ≤ 32 then s.moveCeil true else s.setFactor (f - 1))
    else if f < 64 then s.setFactor (f + 1) else s.moveCeil false
  let th := s.thermal
  let low := since (!slow) th.belowSince s.tick
  { s with thermal := { th with
    floorSince := since (s.rate = 10 && s.capFactor = 32) th.floorSince s.tick
    belowSince := low
    armRefused := th.armRefused && !(match low with | some t => decide (t + 25000000 ≤ s.tick) | none => false) } }

/-- Measurements come 1 µs (250 ticks) apart (DESIGN CHOICE, log 121). -/
def execPowerCapMeasure (mw : List Nat) (s : State) : Answer :=
  .next (if s.powered && s.thermal.nextCap ≤ s.tick then
    { s with thermal := { s.thermal with nextCap := s.tick + 250 } }.capMeasure mw else s)

/-- Every partition that holds a part. -/
def State.heldParts (s : State) : List Nat := (List.range 64).filter fun p => s.ctxState p ≠ 0

/-- The last resort: every part stops, with a record for each partition that held one (R28). -/
def State.notHeld (s : State) : State :=
  let parts := s.heldParts
  let s := parts.foldl State.stopPart s
  let s := parts.foldl (fun s p => s.raiseOpen { ErrRec.base with cls := 3, source := 0x52, part := p }) s
  { s with thermal := { s.thermal with armRefused := true, belowSince := none } }

def execCapNotHeld (s : State) : Answer :=
  .next (if s.powered && s.slowOver &&
      (match s.thermal.floorSince with | some t => decide (t + 1250000 ≤ s.tick) | none => false) then s.notHeld else s)

/-! ## The 12 V input (R461) -/

/-- A record of an event that the spec gives neither a SOURCE nor a code: both are open (log 11). -/
def State.raiseUnsourced (s : State) (r : ErrRec) : State :=
  let (v, s) := s.draw
  s.raiseOpen { r with source := (v.setWidth 8).toNat }

/-- A PLDM event message, where a receiver is set (R466). -/
def State.tellEvent (s : State) (source die : Nat) : State :=
  if s.mgmt.receiver.isSome then s.emit (.event source die) else s

/-- One 1 ms average in mV. -/
def State.vinSample (s : State) (mv : Nat) : State :=
  let (_, _, _, lo, hi, _) := s.sensors
  let side := if mv < lo then 1 else if hi < mv then 2 else 0
  let was := s.thermal.vinSide
  let th := s.thermal
  let mark := if side = 1 then some s.tick else if was = 0 then th.underSince else th.underSince.map fun _ => s.tick
  let under : Bool := match mark with | some t => side ≠ 0 || decide (s.tick < t + 25000000) | none => false
  let s := { s with thermal := { th with vin := mv, vinSide := side, underSince := if under then mark else none } }
  let s := (s.setFld (aMgt 0) 7 1 (if under then 1 else 0)).capEffect
  if side ≠ 0 ∧ side ≠ was then (s.raiseUnsourced { ErrRec.base with cls := 1 }).tellEvent 0 127 else s

def execUndervoltSample (mv : Nat) (s : State) : Answer := .next (if s.powered then s.vinSample mv else s)

/-! ## Droop (R306 to R309) -/

/-- The beat in progress may be lengthened by an amount the spec does not define (free, log 40). -/
def State.loosePhase (s : State) (d : Nat) : State :=
  let (v, s) := s.draw
  s.modDie d fun b => { b with phase := v.toNat % (b.phase + 1) }

/-- A droop reaches the replicas of a die: the beats of R306 stretch as far as the demand asks. -/
def State.droopTo (s : State) (d demand : Nat) : State :=
  if (s.die d).demand = 0 then (s.loosePhase d).modDie d fun b => { b with demand := demand }
  else s.modDie d fun b => { b with demand := max b.demand demand }

def execDroopBegins (die : Fin 64) (demand : Nat) (s : State) : Answer :=
  .next (if s.powered && 64 ≤ demand then s.droopTo die.val demand else s)

/-- The droop passes: the beat in progress, and those that rejoin the grid, ask for no more than the grid or the cap. Their ends
count what the droop has cost (R308, R309). -/
def State.droopEnds (s : State) (d : Nat) : State :=
  if (s.die d).demand = 0 then s else (s.loosePhase d).modDie d fun b => { b with demand := 0 }

def execDroopPasses (die : Fin 64) (s : State) : Answer := .next (if s.powered then s.droopEnds die.val else s)

end Sys2Proof.Machine
end

