-- ==== Sys2Proof/Machine/Ronnen.lean ====
section
/-! DEFINITION. The Ronnen ports (R276 to R302, R451): flits received, replay, training, lanes, hand-over, loop-backs, and the
alignment of the impression counter. -/

namespace Sys2Proof.Machine

/-! ## Records -/

/-- A record of a port and a lane (R444, R445), counted in a window of kind `rkind` where it is not 0xFF. -/
def rnnRec (cls source p lane rkind res : Nat) : ErrRec :=
  { ErrRec.base with
    cls := cls
    source := source
    die := 64 + (rnnQuoin p).1
    location := p + lane * 2 ^ 8
    rkind := rkind
    res := res }

/-- The resource of a lane, in its window kind. -/
def laneRes (p lane : Nat) : Nat := p * 16 + lane

/-! ## Alignment of the impression counter (R298 to R300) -/

/-- This package is the timing root. -/
def State.isRoot (s : State) : Bool := s.position = s.timingRoot

def State.setSynced (s : State) (x : Nat) : State := (List.range 12).foldl (fun s p => s.setFld (aRnn p 8) 4 1 x) s

/-- The first port of the pair towards the root (R298). -/
def State.firstParent (s : State) : State :=
  match (nextDir s.shape s.position s.timingRoot).bind s.pairOf with
  | some k => { s with parentPort := 2 * k }
  | none => s

/-- The port that the package aligns to: the first of the parent pair, or the second if the first is not ACTIVE. -/
def State.syncPort (s : State) : Nat := if s.rnnState s.parentPort = 5 then s.parentPort else s.parentPort + 1

/-- Alignment is lost: running parts lose TIMING_EXACT, and one record is raised. -/
def State.alignLost (s : State) : State :=
  if s.fld (aRnn s.parentPort 8) 4 1 = 0 then s
  else
    let s := (List.range 64).foldl (fun s p => if s.ctxState p = 4 then s.timingLost p else s) (s.setSynced 0)
    s.raiseOpen { ErrRec.base with cls := 1, source := 0x34, location := s.parentPort }

/-- The count and its phase, in 1/64 tick, and whether a time lies in this tick (R299). -/
def State.now64 (s : State) : Nat := s.tick * 64 + s.frac
def State.isNow (s : State) (t : Nat) : Bool := s.now64 ≤ t && t < s.now64 + 64

/-- ACTIVE ports, in the order of directions, over which a neighbour has reported itself aligned and no child of this package:
its depth, the first port of the pair. -/
def State.parentChoices (s : State) : List (Nat × Nat) :=
  (List.range 6).flatMap fun role => match s.pairOf role with
    | none => []
    | some k => [2 * k, 2 * k + 1].filterMap fun p =>
        if s.rnnState p = 5 then (s.rport p).peerDepth.map fun d => (d, 2 * k) else none

/-- A new parent is taken of the neighbours that have reported: the smallest depth, the first direction on ties (R300). -/
def State.adopt (s : State) : State :=
  match s.parentChoices with
  | [] => s
  | c :: cs => { s with parentPort := (cs.foldl (fun m x => if x.1 < m.1 then x else m) c).2, parentStage := .up }

/-- Both ports of the parent pair have left ACTIVE: alignment is lost, and a new parent is sought, by what the neighbours report
from now on (R300). -/
def State.parentLeft (s : State) : State :=
  if s.isRoot || s.parentStage ≠ .up || s.rnnState s.parentPort = 5 || s.rnnState (s.parentPort + 1) = 5 then s
  else
    let s := { s.alignLost with parentStage := .sought, syncTick := none }
    (List.range 12).foldl (fun s p => s.modRport p fun r => { r with peerDepth := none, syncT1 := none }) s

/-- A message of the port's own protocols goes out. -/
def State.rnnSay (s : State) (p : Nat) (m : LinkMsg) : State := s.modRport p fun r => { r with msgs := r.msgs ++ [m] }

/-- The ports that a measurement asks: the one that the package aligns to, or every ACTIVE port while it seeks a parent. -/
def State.syncPorts (s : State) : List Nat :=
  if s.parentStage = .sought then (List.range 12).filter fun p => s.rnnState p = 5
  else if s.rnnState s.syncPort = 5 then [s.syncPort] else []

/-- 262,144 ticks have passed since the last measurement (R299). -/
def State.syncDue (s : State) : Bool := match s.syncTick with | some t => t + 262144 ≤ s.tick | none => true

/-- A measurement begins: SYNC_REQ carries the time at which it leaves. -/
def State.syncBegins (s : State) (t1 : Nat) : State :=
  if !s.powered || s.isRoot || !s.isNow t1 || !s.syncDue then s
  else
    let s := if s.parentStage = .sought then s.adopt else s
    s.syncPorts.foldl (fun s p => (s.rnnSay p (.syncReq t1)).modRport p fun r => { r with syncT1 := some t1 })
      (if s.syncPorts = [] then s else { s with syncTick := some s.tick })

def execSyncMeasurement (t1 : Nat) (s : State) : Answer := .next (s.syncBegins t1)

/-- A neighbour measures against this package: its request came at t2, and the answer leaves at t3. It is told this package's
depth, whether it is aligned, and whether it aligns to the neighbour (R299, R300). -/
def State.syncAsked (s : State) (p t1 t2 t3 : Nat) : State :=
  if s.powered && s.rnnState p = 5 && t2 ≤ t3 && s.isNow t3 then
    s.rnnSay p (.syncRsp t1 t2 t3 (if s.isRoot then 0 else s.syncDepth) (s.fld (aRnn p 8) 4 1 = 1)
      (!s.isRoot && s.parentStage ≠ .sought && s.parentPort / 2 = p / 2))
  else s

def execSyncReq (port : Fin 12) (t1 t2 t3 : Nat) (s : State) : Answer := .next (s.syncAsked port.val t1 t2 t3)

/-- One-way delay and offset of the parent, in 1/64 tick (R299). -/
def syncDelay (t1 t2 t3 t4 : Nat) : Int := (((t4 : Int) - t1) - ((t3 : Int) - t2)) / 2
def syncOffset (t1 t2 t3 t4 : Nat) : Int := (((t2 : Int) - t1) + ((t3 : Int) - t4)) / 2

/-- Some compositor of the package is armed. -/
def State.anyArmed (s : State) : Bool := s.cores.any fun e => e.2.run || e.2.armed

/-- The counter steps by `o` units of 1/64 tick; the tick of the last measurement moves with it. -/
def State.stepCounter (s : State) (o : Int) : State :=
  let u := ((s.now64 : Nat) + o).toNat
  { s with tick := u / 64, frac := u % 64, syncTick := s.syncTick.map fun t => t + u / 64 - s.tick }

/-- The package is aligned below a parent of depth `d`. -/
def State.synced (s : State) (d : Nat) : State := ({ s with syncDepth := d + 1, alignedOnce := true }).setSynced 1

/-- The parent's answer: a first alignment steps, an aligned package checks, one that has lost alignment recovers (R299,
R300). -/
def State.syncAnswer (s : State) (o : Int) (depth : Nat) (parentSynced : Bool) : State :=
  let near : Bool := -16 ≤ o && o ≤ 16
  let mayStep : Bool := !s.anyArmed && parentSynced
  if s.fld (aRnn s.parentPort 8) 4 1 = 1 then (if near then { s with syncDepth := depth + 1 } else s.alignLost)
  else if s.alignedOnce && near then s.synced depth
  else if mayStep && (!s.alignedOnce || (s.rateArm.isNone && s.efxArmed.isNone)) then (s.stepCounter o).synced depth
  else s

/-- Some neighbour has still to answer. -/
def State.awaitsSync (s : State) : Bool := (List.range 12).any fun p => s.rnnState p = 5 && (s.rport p).syncT1.isSome

/-- What a neighbour reports is kept; a package that seeks a parent takes one when every neighbour has answered. -/
def State.syncHeard (s : State) (p depth : Nat) (parentSynced child : Bool) : State :=
  let s := s.modRport p fun r => { r with peerDepth := if parentSynced && !child then some depth else none, syncT1 := none }
  if s.parentStage = .sought && !s.awaitsSync then s.adopt else s

/-- SYNC_RSP to the request that left at t1, arriving at t4; from the parent, the offset acts. -/
def State.syncCame (s : State) (p t1 t2 t3 t4 depth : Nat) (parentSynced child : Bool) : State :=
  if !s.powered || s.rnnState p ≠ 5 || (s.rport p).syncT1 ≠ some t1 || !s.isNow t4 then s
  else
    let s := s.syncHeard p depth parentSynced child
    if s.isRoot ∨ p ≠ s.syncPort ∨ s.parentStage = .sought then s
    else
      let o := syncOffset t1 t2 t3 t4
      let s := s.setFld (aRnn p 0x28) 0 16 (toBits 16 o)
      let s := s.setFld (aRnn p 0x28) 16 16 (toBits 16 (syncDelay t1 t2 t3 t4))
      s.syncAnswer o depth parentSynced

def execSyncRsp (port : Fin 12) (t1 t2 t3 t4 : Nat) (depth : Nat) (parentSynced child : Bool) (s : State) : Answer :=
  .next (s.syncCame port.val t1 t2 t3 t4 depth parentSynced child)

/-! ## States of a port (R293) -/

/-- The port leaves ACTIVE. -/
def State.leaveActive (s : State) (p x : Nat) : State :=
  ((s.setRnnState p x).modRport p fun r => { r with outTick := s.tick, peerDepth := none, syncT1 := none }).parentLeft

/-- RETRAIN from ACTIVE, which counts in the port's window (R448). -/
def State.enterRetrain (s : State) (p : Nat) : State :=
  if s.rnnState p ≠ 5 then s
  else
    let s := (s.leaveActive p 6).modRport p fun r => { r with fromRetrain := true }
    s.raiseOpen (rnnRec 0 0x33 p 0 5 p)

/-- The port goes DOWN; from ACTIVE this counts in its window. -/
def State.enterDown (s : State) (p : Nat) : State :=
  let was := s.rnnState p
  let s := if was = 5 then s.leaveActive p 7 else s.setRnnState p 7
  let s := (s.modRport p fun r => { r with downTick := s.tick, retrainFails := 0, fromRetrain := false, swaps := [] }).setFld
    (aRnn p 0) 1 1 0
  s.raiseOpen (rnnRec 0 0x33 p 0 (if was = 5 then 5 else 0xFF) p)

/-- The port's own IDENT. -/
def State.ident (s : State) (p : Nat) : LinkMsg := .ident s.position p (s.fld (aRnn p 8) 22 3)

/-- INIT: the port sends its IDENT. -/
def State.enterInit (s : State) (p : Nat) : State :=
  ((s.setRnnState p 4).modRport p fun r => { r with identTick := s.tick }).rnnSay p (s.ident p)

/-! ## Lanes (R295) -/

/-- The logical lane that a physical lane carries, in the map at bit `lo` of `RNN_LANEMAP`. -/
def State.logicalOf (s : State) (p lo lane : Nat) : Option Nat := (List.range 8).find? fun n => s.fld (aRnn p 0x10) (lo + 4 * n) 4 = lane

/-- The spare of a direction has failed. -/
def RPort.spareBad (r : RPort) (rx : Bool) : Bool := if rx then r.spareBadRx else r.spareBadTx

/-- A physical lane of a direction has failed: the logical lane that it carries moves to the spare; a second failure in that
direction takes the port down. -/
def State.moveLane (s : State) (p : Nat) (rx : Bool) (lane : Nat) : State :=
  let lo := if rx then 32 else 0
  match s.logicalOf p lo lane with
  | some n =>
    let s := s.setFld (aRnn p 8) 8 4 lane
    if (s.logicalOf p lo 8).isSome || (s.rport p).spareBad rx then s.enterDown p
    else ((s.setFld (aRnn p 0x10) (lo + 4 * n) 4 8).setFld (aRnn p 8) 5 1 1).satFld (aRnn p 0x20) 48 16 1
  | none =>
    if lane = 8 then
      (s.setFld (aRnn p 8) 8 4 8).modRport p fun r =>
        if rx then { r with spareBadRx := true } else { r with spareBadTx := true }
    else s

/-- A swap waits for its codeword boundary. -/
def RPort.addSwap (r : RPort) (rx : Bool) (lane : Nat) : RPort :=
  if (rx, lane) ∈ r.swaps then r else { r with swaps := r.swaps ++ [(rx, lane)] }

/-- This end has found a receive lane failing: it names it to the peer, and both switch. -/
def State.callSwap (s : State) (p lane : Nat) : State := (s.rnnSay p (.laneSwap lane)).modRport p fun r => r.addSwap true lane

/-- A LANE_SWAP message names a transmit lane of this end. -/
def execLaneSwap (port : Fin 12) (lane : Fin 9) (s : State) : Answer :=
  .next (if s.powered && s.rnnState port.val = 5 then s.modRport port.val fun r => r.addSwap false lane.val else s)

/-- The 64th codeword boundary after the oldest message. -/
def State.laneSwitch (s : State) (p : Nat) : State :=
  match (s.rport p).swaps with
  | [] => s
  | (rx, lane) :: rest =>
    if !s.powered || s.rnnState p ≠ 5 then s
    else ((s.modRport p fun r => { r with swaps := rest }).raiseOpen (rnnRec 0 0x32 p lane 0xFF 0)).moveLane p rx lane

def execLaneSwitch (port : Fin 12) (s : State) : Answer := .next (s.laneSwitch port.val)

/-- A receive lane loses symbol lock: an event of its window. -/
def execSymbolLockLoss (port : Fin 12) (lane : Fin 9) (s : State) : Answer :=
  let p := port.val
  .next (if s.powered && s.rnnState p = 5 then
    (s.callSwap p lane.val).raiseOpen (rnnRec 0 0x32 p lane.val 4 (laneRes p lane.val)) else s)

/-! ## Sequence numbers and replay (R289 to R291) -/

/-- Sequence number `a` lies beyond `b`. -/
def seqAfter (a b : Nat) : Bool := (a + 65536 - b % 65536) % 65536 ≠ 0 && (a + 65536 - b % 65536) % 65536 < 32768

/-- Acknowledged flits of packets whose LAST flit is not acknowledged yet. -/
def keepPart (l : List FlitBody) (t : TxFlit) : List FlitBody :=
  if t.body.last then l.filter fun b => b.cls / 2 ≠ t.body.cls / 2 else l ++ [t.body]

/-- Every flit up to `n` has been accepted. -/
def RPort.ackTo (r : RPort) (n tick : Nat) : RPort :=
  let gone := r.replay.takeWhile fun t => !seqAfter t.seq n
  if gone = [] then r
  else { r with
    replay := r.replay.drop gone.length, ackedPart := gone.foldl keepPart r.ackedPart, lastAckTick := tick, sameStart := 0 }

/-- Every buffered flit goes out again, in order. -/
def RPort.sendAgain (r : RPort) : RPort := r.replay.foldl (fun r t => r.putFlit 1 t.seq t.body true) r

/-- A replay from the oldest unacknowledged flit; the eighth in succession from one number retrains the port. -/
def State.replay (s : State) (p : Nat) (timeout : Bool) : State :=
  match (s.rport p).replay with
  | [] => s
  | t :: _ =>
    let s := (s.rport p).replay.foldl (fun s t =>
      if t.body.first then s.pathInexact (kSRC ⟨t.body.hdr, [], false⟩) (nameAt (kDADDR ⟨t.body.hdr, [], false⟩)) else s) s
    let s := s.addFld (aRnn p 0x20) 0 32 1
    let s := if timeout then s.satFld (aRnn p 0x20) 32 16 1 else s
    let s := s.modRport p fun r =>
      let n := if r.sameStart ≠ 0 ∧ r.lastStart = t.seq then r.sameStart + 1 else 1
      { r.sendAgain with sameStart := n, lastStart := t.seq, lastAckTick := s.tick }
    let s := s.raiseOpen (rnnRec 0 0x31 p 0 0xFF 0)
    if 8 ≤ (s.rport p).sameStart then (s.modRport p fun r => { r with sameStart := 0 }).enterRetrain p else s

/-- A NAK with its ACKSEQ. -/
def State.nakCame (s : State) (p ackseq : Nat) : State :=
  (s.modRport p fun r => r.ackTo ackseq s.tick).replay p false

/-! ## Loop-backs that return flits (R301) -/

/-- The depth of the loop-back that this end has asked for and that is in force; 0: none. -/
def State.loopDepth (s : State) (p : Nat) : Nat :=
  if s.rnnState p = 8 ∧ s.fld (aRnn p 0) 2 1 = 1 then s.fld (aRnn p 0) 3 3 else 0

/-- The other port of the pair. -/
def partner (p : Nat) : Nat := if p % 2 = 0 then p + 1 else p - 1

/-- Flits go from each port of the pair out of the other (depth 5). -/
def State.throughPair (s : State) (p : Nat) : Bool := s.loopDepth p = 5 || s.loopDepth (partner p) = 5

/-- The link layer works in the loop-back: depth 4 at either end, depth 5. -/
def State.loopLinks (s : State) (p : Nat) : Bool :=
  s.rnnState p = 8 && ((s.rport p).reflect = 4 || s.loopDepth p = 4 || s.loopDepth p = 5)

/-- The first of the flits that have a credit, no earlier flit of their channel waiting for one. -/
def RPort.firstFree (r : RPort) : List Nat → List FlitBody → Option FlitBody
  | _, [] => none
  | shut, b :: bs =>
    if b.cls / 2 ∈ shut then r.firstFree shut bs
    else if r.hasCredit b then some b
    else r.firstFree (b.cls / 2 :: shut) bs

/-- At most `n` flits that a loop-back returns go out, beside the traffic that waits. -/
def RPort.sendBack : Nat → RPort → RPort
  | 0, r => r
  | n + 1, r =>
    if 512 ≤ r.replay.length then r
    else match r.firstFree [] r.loopWait with
    | none => r
    | some b => RPort.sendBack n { r.putNew b with loopWait := r.loopWait.erase b }

def State.loopPump (s : State) (p : Nat) : State := s.modRport p fun r => RPort.sendBack r.loopWait.length r

/-- A port sends what it can. -/
def State.linkPump (s : State) (p : Nat) : State := (s.rnnPump p).loopPump p

/-- The port's link layer runs: in ACTIVE, or in a loop-back that keeps it. -/
def State.linkLive (s : State) (p : Nat) : Bool := s.rnnState p = 5 || s.loopLinks p

/-- A NAK, after whose replay the port resumes. -/
def execRonnenNak (port : Fin 12) (ackseq : BitVec 16) (s : State) : Answer :=
  let p := port.val
  .next (if s.powered && s.linkLive p then (s.nakCame p ackseq.toNat).linkPump p else s)

/-- ACKSEQ has not advanced for 1 µs (250 ticks). -/
def execReplayTimeout (port : Fin 12) (s : State) : Answer :=
  let p := port.val
  .next (if s.powered && s.linkLive p && (s.rport p).lastAckTick + 250 ≤ s.tick then s.replay p true else s)

/-! ## Flits received (R282, R285, R288 to R290, R292) -/

/-- A packet from its flits. -/
def packetOf (bs : List FlitBody) (replayed : Bool) : Packet :=
  let h := (bs.headD ⟨0, true, true, 0, [], false⟩).hdr
  let p : Packet := ⟨h, [], replayed⟩
  { p with payload := if kTYPE p = tyRDREQ then [] else (bs.flatMap (·.payload)).take (kLEN p) }

/-- The answer of a probe passes this package: a failing one releases what the probe reserved here (R263). -/
def State.passAnswer (s : State) (p : Packet) : State :=
  match s.probes.find? fun x => kTYPE p = tyACK && x.src = nameAt (kDADDR p) && x.txid = kTXID p with
  | none => s
  | some x =>
    let s := { s with probes := s.probes.erase x }
    if codeOf (BitVec.ofNat 16 (kARG p)) = cDONE then s else s.freeCirc x.src x.circ

/-- A packet is handed to the quoin switch. Probes and releases are carried out hop by hop. -/
def State.fromPort (s : State) (p : Packet) : State :=
  let s := if p.replayed then s.pathInexact (kSRC p) (nameAt (kDADDR p)) else s
  if kPKG p = s.position ∨ kTYPE p = tyCOPEN ∨ kTYPE p = tyCCLOSE then { s with net := s.net ++ [p] }
  else (s.passAnswer p).inject p

/-- A DATA flit has been accepted. -/
def RPort.accepted (r : RPort) : RPort := { r with rxNext := (r.rxNext + 1) % 65536, rxAny := true, nakOut := false }

/-- `n` flits of a class leave their buffer. -/
def RPort.freed (r : RPort) (cls n : Nat) : RPort := { r with cret := Tbl.set 0 r.cret cls (Tbl.get 0 r.cret cls + n) }

/-- A DATA flit is accepted into the packet that its channel assembles; a packet is handed on with its LAST flit, which frees
its buffers. -/
def State.assemble (s : State) (p : Nat) (f : WireFlit) : State :=
  let vc := f.body.cls / 2
  let old := Tbl.get ([], false) (s.rport p).asm vc
  let cur := if f.body.first then ([f.body], f.again) else (old.1 ++ [f.body], old.2 || f.again)
  let s := s.modRport p fun r =>
    if f.body.last then { r.freed f.body.cls cur.1.length with asm := Tbl.set ([], false) r.asm vc ([], false) }
    else { r with asm := Tbl.set ([], false) r.asm vc cur }
  if f.body.last then s.fromPort (packetOf cur.1 cur.2) else s

/-- An accepted flit in a loop-back: returned to the peer (depth 4), checked where the pattern came from, or sent out of the other
port (depth 5, whose second port checks, R482). -/
def State.loopFlit (s : State) (p : Nat) (f : WireFlit) : State :=
  let s := s.modRport p fun r => r.freed f.body.cls 1
  if (s.rport p).reflect = 4 then (s.modRport p fun r => { r with loopWait := r.loopWait ++ [f.body] }).loopPump p
  else if s.loopDepth p = 4 then s.checkPayload (aRnn p 0x30) f.body.payload
  else
    let s := if p % 2 = 1 then s.checkPayload (aRnn p 0x30) f.body.payload else s
    (s.modRport (partner p) fun r => { r with loopWait := r.loopWait ++ [f.body] }).loopPump (partner p)

/-- A DATA flit with the number expected. -/
def State.acceptFlit (s : State) (p : Nat) (f : WireFlit) : State :=
  let s := s.modRport p RPort.accepted
  if s.loopLinks p || s.throughPair p then s.loopFlit p f else s.assemble p f

/-- A flit is discarded, or out of turn: the port asks for a replay. -/
def State.askReplay (s : State) (p : Nat) : State := s.modRport p fun r => { r with nakOut := true }

/-- An outgoing flit reports what has come. -/
def State.report (s : State) (p : Nat) : State := s.modRport p fun r => r.putFlit 0 0 ⟨0, false, false, 0, List.replicate 256 0, false⟩ false

/-- Symbols corrected, against the physical lanes that carried them; each 2^20 of a lane count in its window (R448). -/
def State.countFixed (s : State) (p : Nat) (fixed : List Nat) : State :=
  if fixed = [] then s
  else fixed.foldl (fun s sym =>
    let lane := s.fld (aRnn p 0x10) (32 + 4 * (sym % 8)) 4
    let s := s.addFld (aRnn p (0x40 + 8 * lane)) 0 64 1
    let n := Tbl.get 0 (s.rport p).symCount lane + 1
    let s := s.modRport p fun r => { r with symCount := Tbl.set 0 r.symCount lane (n % 2 ^ 20) }
    if n = 2 ^ 20 then s.raiseOpen (rnnRec 0 0x30 p lane 4 (laneRes p lane)) else s) (s.addFld (aRnn p 0x18) 0 32 1)

/-- What every flit's header reports: ACKSEQ, NAK, credits. -/
def State.headerCame (s : State) (p : Nat) (f : WireFlit) : State :=
  let s := s.modRport p fun r =>
    let r := if f.ackv then r.ackTo f.ackseq s.tick else r
    { r with used := f.cret.zipIdx.foldl (fun t e => Tbl.set 0 t e.2 (Tbl.get 0 t e.2 - e.1)) r.used }
  if f.nak then s.nakCame p f.ackseq else s

/-- A flit arrives at a port whose link layer runs. -/
def State.flitCame (s : State) (p : Nat) (f : WireFlit) : State :=
  let s := s.headerCame p f
  if f.ftype ≠ 1 then s.linkPump p
  else
    let s := if f.seq = (s.rport p).rxNext then s.acceptFlit p f else s.askReplay p
    (s.report p).linkPump p

/-- A codeword reaches a port in loop-back: returned as the peer asked, or compared with the pattern. At depth 1 the port hears
its own transmitters, and the cable is not used. -/
def State.loopCame (s : State) (p : Nat) (cw : List Nat) (got : Option (WireFlit × List Nat)) : State :=
  if (s.rport p).reflect = 2 then s.modRport p fun r => { r with raw := r.raw ++ [cw] }
  else if s.loopDepth p = 1 then s
  else if s.loopDepth p = 2 then s.checkCodeword (aRnn p 0x30) cw
  else match got with
  | none =>
    let s := s.addFld (aRnn p 0x18) 32 32 1
    if s.loopLinks p then (s.askReplay p).report p else s
  | some (f, fixed) =>
    let s := s.countFixed p fixed
    if (s.rport p).reflect = 3 then s.modRport p fun r => { r with wire := r.wire ++ [f] }
    else if s.loopDepth p = 3 then (if f.ftype = 1 then s.checkPayload (aRnn p 0x30) f.body.payload else s)
    else if s.loopLinks p then s.flitCame p f
    else s

/-- A codeword arrives; `again`: its flit is resent from the peer's replay buffer, or of a packet that is marked (R292; log 105). -/
def State.flitRx (s : State) (p : Nat) (cw : List Nat) (again : Bool) : State :=
  let got := (receiveFlit cw).map fun e => ({ e.1 with again := again }, e.2)
  if !s.powered then s
  else if s.rnnState p = 8 then s.loopCame p cw got
  else if s.rnnState p ≠ 5 then s
  else match got with
  | none => ((s.addFld (aRnn p 0x18) 32 32 1).askReplay p).report p
  | some (f, fixed) => (s.countFixed p fixed).flitCame p f

def execRonnenFlitRx (port : Fin 12) (cw : List Nat) (again : Bool) (s : State) : Answer := .next (s.flitRx port.val cw again)

/-! ## Hand-over to the partner port (R296, R451, R267) -/

/-- Flits of a port that is down, each with its sequence number while it is in the replay buffer. -/
def RPort.flits (r : RPort) : List (Option Nat × FlitBody) :=
  (r.ackedPart.map fun b => (none, b)) ++ (r.replay.map fun t => (some t.seq, t.body)) ++ r.txWait.map fun b => (none, b)

/-- Flits gathered into packets, one virtual channel at a time; a packet is listed at its LAST flit. -/
def gatherFlits : Tbl (List FlitBody) → List (Option Nat × FlitBody) → List (Option Nat × List FlitBody)
  | _, [] => []
  | open', e :: es =>
    let vc := e.2.cls / 2
    let cur := Tbl.get [] open' vc ++ [e.2]
    if e.2.last then (e.1, cur) :: gatherFlits (Tbl.set [] open' vc []) es else gatherFlits (Tbl.set [] open' vc cur) es

/-- Packets that the receiver of the port has not accepted whole. -/
def RPort.unsentPackets (r : RPort) (peerSeq : Nat) : List (List FlitBody) :=
  (gatherFlits [] r.flits).filterMap fun e => match e.1 with
    | some q => if seqAfter q peerSeq then some e.2 else none
    | none => some e.2

/-- A packet that waits for a direction without a port is absorbed (R274, R296): its slots, its credit and its answer. -/
def State.absorbAway (s : State) (p : Packet) : State :=
  (if kTYPE p = tyCOPEN then s.freeCirc (kSRC p) (BitVec.ofNat 12 (probeCirc p)) else s).absorb p

/-- Circuits of a port that is down move to the other port of the pair, where it has the slots or they hold them already (R267,
R365). -/
def State.moveCircuits (s : State) (p : Nat) : State :=
  let h := portHop (p / 2) (p % 2)
  let o := portHop (p / 2) (1 - p % 2)
  let held := fun (s : State) (x : Hop) (w : Nat) => ((List.range 32).filter fun i => s.slotOwner x i = w).length
  let owners := ((List.range 32).map (s.slotOwner h)).dedup.filter (· ≠ 0)
  owners.foldl (fun s w =>
    let n := held s h w - held s o w
    if n ≤ s.freeSlots o then (s.freeOwner w fun k => k = hopKey h).takeSlots o w n (List.range 32).reverse else s) s

/-- The traffic of port p goes over to its partner; `peerSeq`: the last number that its receiver had accepted. This end tells the
peer the same of its own receiver. -/
def State.handOver (s : State) (p peerSeq : Nat) : State :=
  let o := partner p
  let up : Bool := s.rnnState o ∉ [0, 7, 8]
  let ps := (s.rport p).unsentPackets peerSeq
  let s := if up then s.rnnSay o (.handover (((s.rport p).rxNext + 65535) % 65536)) else s
  let s := s.modRport p fun r => { r with replay := [], ackedPart := [], txWait := [], sending := [], asm := [], fromRetrain := false }
  let s := s.moveCircuits p
  if up then (s.modRport o fun r => { r with txWait := r.txWait ++ ps.flatten }).rnnPump o
  else ps.foldl (fun s bs => s.absorbAway (packetOf bs (bs.any (·.marked)))) s

def execPortDown (port : Fin 12) (peerSeq : BitVec 16) (s : State) : Answer :=
  let p := port.val
  .next (if s.powered && s.rnnState p ∈ [4, 5, 6, 7] then
    (if s.rnnState p = 7 then s else s.enterDown p).handOver p peerSeq.toNat else s)

/-- A port has been out of ACTIVE for 10 µs (2,500 ticks). -/
def execPortHandoverTimeout (port : Fin 12) (peerSeq : BitVec 16) (s : State) : Answer :=
  let p := port.val
  .next (if s.powered && s.rnnState p ∉ [5, 8] && (s.rport p).outTick + 2500 ≤ s.tick && (s.rport p).flits ≠ [] then
    (s.handOver p peerSeq.toNat).raiseOpen (rnnRec 0 0x33 p 0 0xFF 0) else s)

/-! ## Training (R293, R294) -/

/-- The port may train: enabled, with a role, not fused off, not held DOWN. -/
def State.mayTrain (s : State) (p : Nat) : Bool :=
  s.fld (aRnn p 0) 0 1 = 1 && s.fld (aRnn p 8) 22 3 ≠ 6 && !s.portFused p && !(s.rport p).heldDown

/-- Lanes that training found failing move to the spare: a receive lane here, a transmit lane by the peer's finding (R295). -/
def State.trainLanes (s : State) (p : Nat) (lane peerLane : Option (Fin 9)) : State :=
  let s := match lane with | some l => s.moveLane p true l.val | none => s
  match peerLane with
  | some l => if s.rnnState p = 7 then s else s.moveLane p false l.val
  | none => s

/-- A training state ends. -/
def State.trainingStep (s : State) (p : Nat) (ok : Bool) (lane peerLane : Option (Fin 9)) : State :=
  let st := s.rnnState p
  if !s.powered || st ∉ [1, 2, 3, 6] then s
  else if ok then
    let s := s.trainLanes p lane peerLane
    if s.rnnState p = 7 then s
    else if st = 3 ∨ st = 6 then s.enterInit p else s.setRnnState p (st + 1)
  else if st = 6 then
    let s := s.modRport p fun r => { r with retrainFails := r.retrainFails + 1 }
    if 3 ≤ (s.rport p).retrainFails then s.enterDown p else s
  else s.enterDown p

def execRonnenTrainingStep (port : Fin 12) (ok : Bool) (lane peerLane : Option (Fin 9)) (s : State) : Answer :=
  .next (s.trainingStep port.val ok lane peerLane)

/-- The opposite direction. -/
def oppRole (r : Nat) : Nat := if r % 2 = 0 then r + 1 else r - 1

/-- The cabling matches the roles: the neighbour, its role, its pair (R294). -/
def State.identOk (s : State) (p pos peerPort role : Nat) : Bool :=
  let mine := s.fld (aRnn p 8) 22 3
  mine < 6 && pos = neighbour s.shape s.position mine && role = oppRole mine && peerPort < 12 &&
    recRole (efxFixed s.efx [] pos tPORTS 0) (peerPort / 2) = role

/-- A port that was not in RETRAIN begins anew: numbers from 0, and packets not acknowledged whole wait to be sent (R293;
DEDUCED, log 73). -/
def RPort.anew (r : RPort) : RPort :=
  { r with
    txWait := ((gatherFlits [] r.flits).map (·.2)).flatten, replay := [], ackedPart := [], sending := [], slot := 0
    txSeq := 0, rxNext := 0, rxAny := false, nakOut := false, asm := [], sameStart := 0 }

/-- The port enters ACTIVE with the credits of INIT (R286, R293): after RETRAIN its numbers and replay buffer are kept and traffic
resumes by replay. -/
def State.enterActive (s : State) (p : Nat) : State :=
  let s := (s.setRnnState p 5).setFld (aRnn p 0) 1 1 0
  let s := s.modRport p fun r =>
    let r := { r with used := [], cret := [], retrainFails := 0, lastAckTick := s.tick }
    if r.fromRetrain then { r.sendAgain with fromRetrain := false } else r.anew
  let s := if s.parentStage = .fresh && p / 2 = s.parentPort / 2 then { s with parentStage := .up } else s
  s.rnnPump p

/-- An IDENT message. -/
def State.identCame (s : State) (p pos peerPort role : Nat) : State :=
  if !s.powered || s.rnnState p ≠ 4 then s
  else
    let s := (s.setFld (aRnn p 8) 12 6 pos).setFld (aRnn p 8) 18 4 peerPort
    if s.identOk p pos peerPort role then (s.setFld (aRnn p 8) 6 1 0).enterActive p
    else (s.setFld (aRnn p 8) 6 1 1).modRport p fun r => { r with identTick := s.tick }

def execIdent (port : Fin 12) (pos : BitVec 6) (peerPort : BitVec 4) (role : BitVec 3) (s : State) : Answer :=
  .next (s.identCame port.val pos.toNat peerPort.toNat role.toNat)

/-- A mismatched port tries again after 10 ms (2,500,000 ticks). -/
def execIdentRetry (port : Fin 12) (s : State) : Answer :=
  let p := port.val
  .next (if s.powered && s.rnnState p = 4 && s.fld (aRnn p 8) 6 1 = 1 && (s.rport p).identTick + 2500000 ≤ s.tick then
    s.enterInit p else s)

/-- A port that is DOWN restarts after 1 s (250,000,000 ticks). -/
def execPortDownRestart (port : Fin 12) (s : State) : Answer :=
  let p := port.val
  .next (if s.powered && s.rnnState p = 7 && s.mayTrain p && (s.rport p).downTick + 250000000 ≤ s.tick then
    s.setRnnState p 1 else s)

/-! ## `RNN_CTRL` (R293, R301, R302) -/

/-- RETRAIN is written 1. -/
def State.ctrlRetrain (s : State) (p : Nat) : State :=
  if s.rnnState p = 5 then (s.setFld (aRnn p 0) 1 1 1).enterRetrain p else s

def execRnnCtrlRetrain (port : Fin 12) (s : State) : Answer := .next (if s.powered then s.ctrlRetrain port.val else s)

/-- ENABLE changes: a port that may train begins at DETECT, one that is disabled stops, and a RETRAIN of it ends. -/
def State.enableWrite (s : State) (p x : Nat) : State :=
  let s := s.setFld (aRnn p 0) 0 1 x
  if x = 1 then (if s.rnnState p = 0 ∧ s.mayTrain p then s.setRnnState p 1 else s)
  else
    let s := (s.setFld (aRnn p 0) 1 1 0).modRport p fun r => { r with fromRetrain := false }
    if s.rnnState p = 5 then s.leaveActive p 0 else if s.rnnState p = 8 then s else s.setRnnState p 0

/-- The loop-back begins, where the port's state and the depth allow it. -/
def State.loopBegins (s : State) (p depth : Nat) : State :=
  let st := s.rnnState p
  if depth ∈ [1, 5] ∧ st ∈ [0, 5] then (if st = 5 then s.leaveActive p 8 else s.setRnnState p 8)
  else if depth ∈ [2, 3, 4] ∧ st = 5 then (s.rnnSay p (.loopReq depth true)).leaveActive p 8
  else s

/-- The loop-back ends: the port returns to DETECT. -/
def State.loopEnds (s : State) (p depth : Nat) : State :=
  if s.rnnState p ≠ 8 then s
  else
    let s := if depth ∈ [2, 3, 4] then s.rnnSay p (.loopReq depth false) else s
    ((s.setRnnState p 1).modRport p fun r => { r with loopWait := [] }).rnnPump (partner p)

/-- A write of `RNN_CTRL`. Fused ports ignore the loop-back fields. -/
def State.rnnCtrlWrite (s : State) (p : Nat) (v : Word) : State :=
  let was := s.fld (aRnn p 0) 2 1
  let oldDepth := s.fld (aRnn p 0) 3 3
  let s := s.enableWrite p (getF v 0 1)
  let s := if getF v 1 1 = 1 then s.ctrlRetrain p else s
  if s.portFused p then s
  else
    let s := s.setFld (aRnn p 0) 2 4 (getF v 2 4)
    if getF v 2 1 = 1 ∧ was = 0 then s.loopBegins p (getF v 3 3)
    else if getF v 2 1 = 0 ∧ was = 1 then s.loopEnds p oldDepth
    else s

def execLoopEnWrite (who : Accessor) (port : Fin 12) (v : Word) (s : State) : Answer :=
  .next (if s.mayWrite who (aRnn port.val 0) then s.rnnCtrlWrite port.val v else s)

/-- A loop-back request of the peer. -/
def State.loopAsked (s : State) (p depth : Nat) (enable : Bool) : State :=
  if !s.powered then s
  else if enable then
    (if s.rnnState p = 5 ∧ depth ∈ [2, 3, 4] then (s.leaveActive p 8).modRport p fun r => { r with reflect := depth } else s)
  else if s.rnnState p = 8 ∧ (s.rport p).reflect ≠ 0 then
    ((s.modRport p fun r => { r with reflect := 0, loopWait := [] }).setRnnState p 1).rnnPump (partner p)
  else s

def execLoopbackRequest (port : Fin 12) (depth : BitVec 3) (enable : Bool) (s : State) : Answer :=
  .next (s.loopAsked port.val depth.toNat enable)

end Sys2Proof.Machine
end

