-- ==== Sys2Proof/Machine/Errors.lean ====
section
/-! DEFINITION. Error records leaving (R444 to R446, R455), fault windows and retirement (R447 to R449), restores (R436 to R438,
R441), writes to NOR (R473, R453) and the hand-over of the primary colophon (R456). -/

namespace Sys2Proof.Machine

/-! ## Records (R444, R446, R455) -/

/-- A record as 64 bytes. -/
def recBytes (seq pos : Nat) (r : ErrRec) : List Byte :=
  leBytes 8 r.tick ++ leBytes 4 seq ++ leBytes 1 r.cls ++ leBytes 1 r.source ++ leBytes 2 r.status.toNat ++
    leBytes 8 (pos + r.die % 128 * 2 ^ 8 + r.core % 128 * 2 ^ 15 + r.queue % 32 * 2 ^ 22 + r.part % 256 * 2 ^ 32 +
      r.rkind % 256 * 2 ^ 40 + r.wcount % 65536 * 2 ^ 48) ++
    leBytes 8 r.caltime ++ leBytes 8 r.location ++ leBytes 2 r.item ++ leBytes 2 r.slot ++ leBytes 4 r.cmdseq ++
    leBytes 2 r.repeats ++ List.replicate 6 0 ++ leBytes 8 r.detail

/-- A record written to host error ring `p`: at the place of HEAD, or counted as lost where the ring is full. -/
def State.ringRecord (s : State) (p : Nat) (bs : List Byte) : State :=
  let ctl := s.rd (aErrRing p 0)
  let n := getF ctl 16 5
  let head := (s.rd (aErrRing p 0x10)).toNat
  let tail := (s.rd (aErrRing p 0x18)).toNat
  let off := (s.rd (aErrRing p 0x08)).toNat + 64 * (head % 2 ^ n)
  if getF ctl 0 1 = 0 ∨ n < 4 ∨ 16 < n then s
  else if 2 ^ n - 1 ≤ head - tail then s.addFld (aErrRing p 0x20) 0 64 1
  else match s.carrier p with
  | some (b, _) =>
    if s.winCheck p (getF ctl 8 8) (some (off + 63)) false true ≠ cDONE then s
    else (s.addFld (aErrRing p 0x10) 0 64 1).enterWrite b ⟨p, getF ctl 8 8, off, bs, false, none, some (16384 + p), false⟩
  | none => s

/-- A record written to NOR, with the powered-tick count that orders it (R446, R474). -/
def State.norRecord (s : State) (bs : List Byte) : State :=
  { s with
    nor := { s.nor with records := s.nor.records ++ [bs ++ leBytes 8 (s.rd (aMgt 0x40)).toNat] }
    norBusy := s.norBusy ++ [.record] }

/-- A record enters the package log, the ring of its partition, and NOR where its class is fenced or above. -/
def State.logRecord (s : State) (r : ErrRec) : State :=
  let seq := s.fld aErrSeq 0 32
  let bs := recBytes seq s.position r
  let s := s.addFld aErrSeq 0 32 1
  let s := { s with errLog := (s.errLog ++ [(seq, bs)]).drop (s.errLog.length + 1 - 4096) }
  let s := s.ringRecord (if r.part < 64 then r.part else 64) bs
  if 2 ≤ r.cls then (s.norRecord bs).tellEvent r.source r.die else s

/-! ## Retirement (R448, R449) -/

/-- A retirement that fences nothing: the repair log and a record. -/
def State.retired (s : State) (kind res die loc : Nat) : State :=
  (s.logRepair kind res).raiseOpen { retireRec kind die 127 with location := loc }

/-- The widest width of R378 on lanes counted from either end of port b that leaves out its retired lanes; 0 none (DEDUCED,
log 41). -/
def State.laneWidth (s : State) (b : Nat) : Nat :=
  let bad := (s.nor.repairs.filter fun r => r.kind = 7 ∧ r.resource / 16 = b).map (·.resource % 16)
  let lo := bad.foldl min 16
  let hi := bad.foldl (fun m l => min m (15 - l)) 16
  ([16, 8, 4, 2, 1].find? fun w => w ≤ max lo hi).getD 0

/-- A PCIe lane is retired: the port retrains without it, and its functions are not reset. -/
def State.retirePcie (s : State) (b lane : Nat) : State :=
  let s := s.retired 7 (b * 16 + lane) (64 + portQuoin b) (b + lane * 2 ^ 8)
  let w := s.laneWidth b
  if !s.linkUp b then s
  else if w = 0 then s.setLink b 0 0 0
  else s.setFld (aPort b 0) 3 5 (min w (s.fld (aPort b 0) 3 5))

/-- The action of R448 on a resource. Kind 7 acts with its event. -/
def State.retireAct (s : State) (r : ErrRec) : State :=
  let k := r.res / 2 ^ 30
  if r.rkind = 0 then (s.spareRow r.res).1
  else if r.rkind = 1 then s.fenceCore k
  else if r.rkind = 2 then s.fenceCore r.res
  else if r.rkind = 3 then s.fenceDie r.res (r.source = 0x21)
  else if r.rkind = 4 then (s.callSwap (r.res / 16) (r.res % 16)).retired 4 r.res (64 + (rnnQuoin (r.res / 16)).1) r.location
  else if r.rkind = 5 then
    ((s.modRport r.res fun x => { x with heldDown := true }).enterDown r.res).retired 5 r.res (64 + (rnnQuoin r.res).1) r.res
  else if r.rkind = 6 then s.retireLane r.res
  else s

/-- The first record whose merge interval of 250,000 ticks has passed leaves, and a resource at its limit is retired. -/
def State.emitRecord (s : State) : State :=
  match s.errPend.find? fun r => decide (r.tick + 250000 ≤ s.tick) with
  | none => s
  | some r =>
    let s := ({ s with errPend := s.errPend.erase r }).logRecord r
    if r.retire then s.retireAct r else s

def execErrorRecordEmit (s : State) : Answer := .next (if s.powered then s.emitRecord else s)

/-! ## Fault windows (R447) -/

/-- The leak interval of a kind in seconds. COUNT 0 gives none, and nothing leaks (DESIGN CHOICE, log 42). -/
def State.leakSecs (s : State) (kind : Nat) : Option Nat :=
  let w := s.faultWin kind
  if w.1 = 0 then none else some (max (w.2 / w.1) 1)

/-- What leaks from a counter of the kind up to powered tick t: one for each multiple of its interval that has been passed since it
leaked last. -/
def State.leaks (s : State) (t kind : Nat) : Nat :=
  match s.leakSecs kind with
  | some l => t / (l * 250000000) - s.leaked / (l * 250000000)
  | none => 0

/-- The counters leak up to now. -/
def State.leak (s : State) : State :=
  let t := (s.rd (aMgt 0x40)).toNat
  { s with
    windows := (s.windows.map fun (e : Nat × Nat) => (e.1, e.2 - s.leaks t (e.1 / 2 ^ 40))).filter fun e => e.2 ≠ 0
    leaked := t }

def execFaultWindowLeak (s : State) : Answer := .next (if s.powered then s.leak else s)

/-- A receiver error of a PCIe lane. -/
def State.pcieError (s : State) (b lane : Nat) : State :=
  let res := b * 16 + lane
  let s := s.raiseUnsourced { ErrRec.base with
    die := 64 + portQuoin b, location := b + lane * 2 ^ 8, rkind := 7, res := res }
  if (s.faultWin 7).1 ≠ 0 ∧ Tbl.get 0 s.windows (windowKey 7 res) = (s.faultWin 7).1 then s.retirePcie b lane else s

def execPcieLaneReceiverError (port : Fin 2) (lane : Fin 16) (s : State) : Answer :=
  .next (if s.powered then s.pcieError port.val lane.val else s)

/-- The ageing monitor of a galley: its wear index, and a record as it passes 30,000 ppm (R472). -/
def State.wearSample (s : State) (n ppm : Nat) : State :=
  let a := aMgt (0x1000 + 8 * n)
  let was := s.fld a 0 32
  let s := s.setFld a 0 32 ppm
  if was ≤ 30000 ∧ 30000 < ppm then s.raiseUnsourced { ErrRec.base with cls := 1, die := n / 4 } else s

def execAgeingMonitorSample (die : Fin 64) (g : Fin 4) (ppm : BitVec 32) (s : State) : Answer :=
  .next (if s.powered then s.wearSample (die.val * 4 + g.val) ppm.toNat else s)

/-! ## Restores (R436 to R438) -/

/-- The commands that a restore squashed report REPLAYED. -/
def Core.replayed (c : Core) (qs : List Nat) : Core :=
  qs.foldl (fun c q => (c.executing q).foldl (fun c e =>
    if e.2.worked then c else c.updExec q e.1.seq fun x => { x with flags := withFlag x.flags fREPLAYED }) c) c

/-- The source that a row under restore was asked of serves it: a peer's answers are the peer's, a host source serves what its window
allows. -/
def State.rowServed (s : State) (k row : Nat) (alt : Bool) : Bool :=
  match s.rowAsk k row alt with
  | some x => x.1 = 1 || s.winCheck (s.partOfKey k) x.2.1 (some (x.2.2 + 127)) true false = cDONE
  | none => true

/-- What the source of a row under restore brought. Its 128 bytes are written unless another write stands; with the last row, the
squashed commands may be replayed. Anything else is a source that failed: the alternate is asked, once. A restore in the
background gives up at the partition's load timeout. -/
def State.rowCame (s : State) (k row : Nat) (bytes : List Byte) : State :=
  match (s.core k).restore with
  | none => s
  | some r =>
    if row ∉ r.rows then s
    else if bytes.length ≠ 128 ∨ s.rowServed k row (decide (row ∈ r.alt)) = false then
      if row ∈ r.alt then s
      else (s.modCore k fun c => { c with restore := some { r with alt := row :: r.alt } }).askRow k row true
    else
      let late : Bool := r.background && decide (r.since + s.partLoadTimeout (s.partOfKey k) ≤ s.tick)
      let left := r.rows.filter (· ≠ row)
      let s := s.modCore k fun c => { c with restore := none }
      let s := if late ∨ row ∈ r.overwritten then s else s.coreWrite k 0 (row * 128) bytes false
      if left = [] ∨ late then s.modCore k fun c => c.replayed r.queues
      else s.modCore k fun c => { c with restore := some { r with rows := left } }

def execWeightRowRestore (c : CoreId) (row : Nat) (bytes : List Byte) (s : State) : Answer :=
  .next (if s.powered && !s.coreAbsorbed (kOf c) then s.rowCame (kOf c) row bytes else s)

/-- Squashed commands end without a replay. -/
def Core.unreplayed (c : Core) (qs : List Nat) : Core :=
  qs.foldl (fun c q => (c.executing q).foldl (fun c e =>
    if e.2.worked then c else c.updExec q e.1.seq fun x => { x with worked := true, codes := x.codes ++ [cPARITY] }) c) c

/-- The restore budget of 4,000 ticks expires. -/
def State.restoreExpires (s : State) (k row : Nat) : State :=
  match (s.core k).restore with
  | none => s
  | some r =>
    if r.background ∨ row ∉ r.rows ∨ s.tick < r.since + 4000 then s
    else
      let s := (r.rows.filter (· ∉ r.overwritten)).foldl (fun s x => s.setPoison k 0 (x * 128) true) s
      let s := s.modCore k fun c => { c.unreplayed r.queues with restore := some { r with background := true, queues := [] } }
      s.raise { s.coreRec k 1 0x10 (BitVec.ofNat 16 cPARITY) with location := locOf 0 (row * 128) }

def execRestoreBudgetExpiry (c : CoreId) (row : Nat) (s : State) : Answer :=
  .next (if s.powered && !s.coreAbsorbed (kOf c) then s.restoreExpires (kOf c) row else s)

/-! ## Lines of a program store (R441) -/

/-- The section of a part's plate that covers some byte of a line. -/
def Plate.lineSec (pl : Plate) (die line : Nat) : Option ProgSec :=
  pl.programs.find? fun x => x.die = die && x.soff < line * 128 + 128 && line * 128 < x.soff + x.count

/-- The part and the section from which a line is read again. -/
def State.lineSource (s : State) (die line : Nat) : Option (Nat × Plate × ProgSec) :=
  (List.range 64).findSome? fun p => (s.part p).plate.bind fun pl => (pl.lineSec die line).map fun x => (p, pl, x)

/-- The line is no longer asked for, by a fetch or ahead of one. -/
def Core.unwant (c : Core) (line : Nat) : Core :=
  { c with fills := c.fills.filter (· ≠ line), primes := (c.primes.map (·.filter (· ≠ line))).dropWhile (· = []) }

/-- Every compositor that fetches the line to execute from it halts (R155), and its part is stopped; a line asked for ahead is not
delivered. -/
def State.lineLost (s : State) (die line : Nat) : State :=
  let keys := (dieKeys die).filter fun k => (s.core k).run && (s.core k).stall = .fetch line
  let s := keys.foldl (fun s k => s.modCore k fun c => c.halt cPARITY false) s
  let s := ((dieKeys die).foldl (fun s k => s.modCore k fun c => c.unwant line) s).pruneLines
  keys.foldl (fun s k => s.raise { s.coreRec k 3 0x14 (BitVec.ofNat 16 cPARITY) with detail := line * 128 }) s

/-- The bytes of a line that a read of the plate's section brought, with their offset in the program store. -/
def State.lineBytes (s : State) (line : Nat) (src : Nat × Plate × ProgSec) (r : HostRead) : Option (Nat × List Byte) :=
  let (p, pl, x) := src
  let lo := max (line * 128) x.soff
  let n := min (line * 128 + 128) (x.soff + x.count) - lo
  match s.readHost p pl.window (pl.offset + x.file + (lo - x.soff)) r with
  | .ok bs => if bs.length = n then some (lo, bs) else none
  | .error _ => none

/-- A line of a program store has failed parity; `r` is what the read of its bytes brought. The record names the part whose plate
holds the line; it is corrected, or partition-fatal and stops that part (R435). -/
def State.lineRestore (s : State) (die line : Nat) (r : HostRead) : State :=
  let src := s.lineSource die line
  let rec' : ErrRec := { ErrRec.base with
    source := 0x14, status := BitVec.ofNat 16 cPARITY, die := die, core := 126, detail := line * 128, rkind := 3, res := die
    part := match src with | some x => x.1 | none => 0xFF }
  match src.bind fun x => s.lineBytes line x r with
  | some (lo, bs) => { s.raise rec' with mem := writeMem s.mem (storeAddr die lo) bs }
  | none => (s.lineLost die line).raise { rec' with cls := 3 }

def execProgramStoreRestore (die : Fin 64) (line : Nat) (r : HostRead) (s : State) : Answer :=
  .next (if s.powered && line < 32768 then s.lineRestore die.val line r else s)

/-! ## The primary colophon and NOR (R453, R456) -/

def State.primary (s : State) : Nat := s.fld (aMgt 0) 0 2
def State.norOk (s : State) : Bool := s.fld (aMgt 0) 3 1 = 1

/-- The Q0 colophon and NOR are both lost: no image and no firmware is applied any more. -/
def State.allLost (s : State) : Bool := !s.norOk && 0 ∈ s.colophonStopped

/-- Loss of both at once is package-fatal: every part stops. -/
def State.bothLost (s : State) : State :=
  if s.allLost then
    ((List.range 64).foldl State.stopPart s).raiseOpen { ErrRec.base with cls := 4, source := 0x71 }
  else s

/-- The Q0 colophon has stopped: that of Q1 becomes primary. -/
def State.colophonLost (s : State) : State :=
  if s.primary ≠ 0 ∨ 0 ∈ s.colophonStopped then s
  else
    let s := ({ s with colophonStopped := 0 :: s.colophonStopped, handover := some s.tick }.setFld (aMgt 0) 0 2 1)
    (s.raiseOpen { ErrRec.base with cls := 2, source := 0x71, die := 64 }).bothLost

def execColophonHandover (s : State) : Answer := .next (if s.powered then s.colophonLost else s)

/-- NOR fails: counters and logs are kept in RAM from then on, and lost with power (DEDUCED, log 120). -/
def State.norFails (s : State) : State :=
  if s.norOk then (({ s with norKept := some s.nor }.setFld (aMgt 0) 3 1 0).raiseOpen { ErrRec.base with cls := 2, source := 0x71, die := 64 }).bothLost else s

/-! ## Writes to NOR -/

/-- Registers `base + 8i` for i below n, as a table. -/
def State.regTable (s : State) (base n w : Nat) : Tbl Nat :=
  (List.range n).foldl (fun t i => Tbl.set 0 t i (s.fld (base + 8 * i) 0 w)) []

/-- The lifetime records as they stand, in the next copy (R472, R473). -/
def State.lifeCopy (s : State) (orderly : Bool) : LifeCopy where
  seq := (s.nor.life.map (·.seq)).foldl max 0 + 1
  ticks := (s.rd (aMgt 0x40)).toNat
  powerOns := (s.rd (aMgt 0x48)).toNat
  unclean := (s.rd (aMgt 0x50)).toNat
  cycles := s.regTable (aMgt 0x400) 68 64
  energy := (s.rd (aMgt 0x58)).toNat
  dieEnergy := s.regTable (aMgt 0x800) 68 64
  windows := s.windows
  wear := s.regTable (aMgt 0x1000) 256 32
  erases := s.erases
  orderly := orderly

/-- A copy fills the older of the two; writes go round the 64 sectors. -/
def State.lifeWritten (s : State) (orderly : Bool) : State :=
  let seq := (s.nor.life.map (·.seq)).foldl max 0 + 1
  let s := { s with erases := Tbl.set 0 s.erases (seq % 64) (Tbl.get 0 s.erases (seq % 64) + 1) }
  { s with nor := { s.nor with life := (s.nor.life ++ [s.lifeCopy orderly]).drop (s.nor.life.length + 1 - 2) } }

/-- The lifetime records are to be written; a request during a write joins it. -/
def State.persist (s : State) : State :=
  if NorWrite.lifetime ∈ s.norBusy then s else { s with norBusy := s.norBusy ++ [.lifetime] }

/-- The firmware image written is the one in force: COMMITTED, and the keys it revokes are blown (R430, R470). -/
def State.fwWritten (s : State) : State :=
  let img := s.nor.firmware
  let keys := (Config.firmwareRevokes img).filter fun k => k < 4 && some k ≠ Config.firmwareKey img && k ∉ s.fuses.revoked
  let s := { s with
    nor := { s.nor with firmwareGood := true, fwVersion := Config.firmwareVersion img }
    fuses := { s.fuses with revoked := s.fuses.revoked ++ keys } }
  ((((s.setFld (aFw 0) 24 8 cDONE).setFld (aFw 0) 32 1 0).setFld (aFw 0) 34 1 1).setFld (aFw 0x10) 32 32
    (Config.firmwareVersion img).toNat).wr (aFw 0x18) 0

/-- The read-back differs: written again, up to 3 times, then COMMIT reports PARITY_UNRECOVERED. -/
def State.fwMismatch (s : State) : State :=
  if s.fwTries < 4 then { s with fwTries := s.fwTries + 1, norBusy := s.norBusy ++ [.firmware] }
  else (s.setFld (aFw 0) 24 8 cPARITY).setFld (aFw 0) 32 1 0

end Sys2Proof.Machine
end

