-- ==== Sys2Proof/Machine/Manage.lean ====
section
/-! DEFINITION. The colophon's temperature and lifetime work (R458 to R460, R472 to R476). -/

namespace Sys2Proof.Machine

/-! ## Temperatures (R458 to R460, R464, R472) -/

def aTemp (d : Nat) : Nat := aMgt (0x100 + 8 * d)

/-- `MGT_TEMP` of die d: TMAX, SENSOR and the highest TMAX since power-on; a die without a lowest value has had no sample. -/
def State.showTemp (s : State) (d : Nat) (t : Int) (sensor : Nat) : State :=
  let peak := if Tbl.get 10000 s.thermal.cycleLow d = 10000 then t else max t (sext 12 (getF (s.rd (aTemp d)) 16 12))
  s.wr (aTemp d) (BitVec.ofNat 64 (toBits 12 t + sensor * 2 ^ 12 + toBits 12 peak * 2 ^ 16))

/-- Thermal cycles of die d: 40 °C up from the lowest value, then 40 °C down from the peak of that rise. -/
def State.cycle (s : State) (d : Nat) (t : Int) : State :=
  let th := s.thermal
  let low := Tbl.get 10000 th.cycleLow d
  let peak := Tbl.get (-10000) th.cyclePeak d
  let put := fun (l p : Int) => { s with thermal := { th with
    cycleLow := Tbl.set 10000 th.cycleLow d l, cyclePeak := Tbl.set (-10000) th.cyclePeak d p } }
  if peak = -10000 then put (min low t) (if min low t + 160 ≤ t then t else -10000)
  else if t ≤ max peak t - 160 then (put t (-10000)).addFld (aMgt (0x400 + 8 * d)) 0 64 1
  else put low (max peak t)

/-- A record that a temperature of die d has crossed a threshold, and its event message. -/
def State.crossed (s : State) (d cls part : Nat) : State :=
  (s.raiseOpen { ErrRec.base with cls := cls, source := 0x51, die := d, part := part }).tellEvent 0x51 d

/-- Die d against a warning threshold of `c` °C, with its key: one record, until it falls 3 °C below. -/
def State.warn (s : State) (d key c : Nat) (t : Int) : State :=
  if t > 4 * (c : Int) then
    if key ∈ s.thermal.warned then s
    else { s with thermal := { s.thermal with warned := key :: s.thermal.warned } }.crossed d 1 0xFF
  else if t < 4 * ((c : Int) - 3) then { s with thermal := { s.thermal with warned := s.thermal.warned.filter (· ≠ key) } }
  else s

/-- The thermal ceiling set, with its tick; THROTTLE shows it below 36. -/
def State.setThermal (s : State) (c : Nat) : State :=
  let s := (s.setFld (aMgt 0x28) 0 6 c).setFld (aMgt 0) 6 1 (if c < 36 then 1 else 0)
  { s with thermal := { s.thermal with lastThermal := some s.tick } }.steer none

/-- The ceiling falls by one code, from the setpoint that the ceilings give (DEDUCED from the example of R464, log 43). -/
def State.throttle (s : State) : State :=
  let s := { s with thermal := { s.thermal with hotSince := s.tick } }
  if 10 < s.ceiling then s.setThermal (s.ceiling - 1) else s

/-- The ceiling rises by one code; one that no longer holds the setpoint is lifted (log 43). -/
def State.unthrottle (s : State) : State :=
  let c := s.thermalCeil + 1
  let ok : Bool := match s.thermal.lastThermal with | some t => decide (t + 25000000 ≤ s.tick) | none => true
  if ok then s.setThermal (if min s.hostCeil s.capCeil ≤ c then 36 else c) else s

/-- The partitions that own a galley. -/
def State.livePartitions (s : State) : List Nat :=
  (List.range 64).filter fun p => (leAt (s.partRec p) 0 32) ≠ 0

/-- Thermal trip. -/
def State.trip (s : State) (d : Nat) : State :=
  let s := s.livePartitions.foldl (fun s p => s.crossed d 3 p) s
  let s := (List.range 64).foldl State.stopPart s
  let s := (s.setFld (aMgt 0x10) 0 7 60).capEffect
  let s := ({ s with thermal := { s.thermal with trip10 := true, tripped := true } }.steer none).persist
  (s.setFld (aMgt 0) 5 1 1).emit .thermtrip

/-- The 1 ms sample of the dies' highest temperatures. -/
def State.thermal1ms (s : State) (temps : List (Int × BitVec 4)) : State :=
  let (warn, hot, trip, _, _, _) := s.sensors
  let ds := (temps.take 68).zipIdx
  let s := ds.foldl (fun s x =>
    let t := x.1.1
    let d := x.2
    (((s.showTemp d t x.1.2.toNat).cycle d t).warn d d warn t).warn d (128 + d) hot t) s
  let isHot := temps.any fun t => t.1 > 4 * (hot : Int)
  let cool := temps.all fun t => t.1 < 4 * ((hot : Int) - 3)
  let past := ds.find? fun x => x.1.1 > 4 * (trip : Int)
  let was := s.thermal.hot
  let again := s.thermal.tripNext
  let s := { s with thermal := { s.thermal with hot := isHot, tripNext := past.isSome } }
  let s := if isHot ∧ !was then s.throttle else if cool ∧ s.thermalCeil < 36 then s.unthrottle else s
  match past with
  | some x => if again ∧ !s.thermal.trip10 then s.trip x.2 else s
  | none => s

/-- Samples are taken at ticks that are multiples of 250,000. -/
def execThermalSample (temps : List (Int × BitVec 4)) (s : State) : Answer :=
  .next (if s.powered && s.tick % 250000 = 0 then s.thermal1ms temps else s)

/-- Every 10 ms (2,500,000 ticks) above THOT. -/
def execThrottleStep (s : State) : Answer :=
  .next (if s.powered && s.thermal.hot && s.thermal.hotSince + 2500000 ≤ s.tick then s.throttle else s)

/-- A die manager reads 120 °C: the trip output is asserted at once, and nothing is persisted. -/
def execHardwareTrip (_die : Fin 68) (s : State) : Answer :=
  .next (if s.powered then
    ({ s with thermal := { s.thermal with tripped := true } }.setFld (aMgt 0) 5 1 1).emit .thermtrip else s)

/-! ## Lifetime and calendar (R473 to R475) -/

/-- A write of `MGT_CTRL`: PERSIST joins a write in progress; POWERDOWN stops every part and persists. -/
def State.mgtCtrl (s : State) (v : Word) : State :=
  let s := if getF v 0 1 = 1 then (s.setFld (aMgt 0x08) 0 1 1).persist else s
  if getF v 1 1 = 1 ∧ s.fld (aMgt 0x08) 1 1 = 0 then
    let s := (List.range 64).foldl State.stopPart (s.setFld (aMgt 0x08) 1 1 1)
    { s with norBusy := s.norBusy ++ [.powerdown] }
  else s

def execPersist (who : Accessor) (v : Word) (s : State) : Answer :=
  .next (if s.mayManage who (aMgt 0x08) && getF v 0 1 = 1 then s.mgtCtrl v else s)

def execPowerdown (who : Accessor) (v : Word) (s : State) : Answer :=
  .next (if s.mayManage who (aMgt 0x08) && getF v 1 1 = 1 then s.mgtCtrl v else s)

/-- Every 150,000,000,000 powered ticks. -/
def execLifetimePersistTimer (s : State) : Answer :=
  .next (if s.powered && (s.rd (aMgt 0x40)).toNat % 150000000000 = 0 && s.rd (aMgt 0x40) ≠ 0 then s.persist else s)

/-- The calendar is set. -/
def State.setCalendar (s : State) (v : Word) : State :=
  ({ s with calDue := s.tick + 250000000 }.wr (aMgt 0x30) v).setFld (aMgt 0) 2 1 1

def execMgtCalWrite (who : Accessor) (v : Word) (s : State) : Answer :=
  .next (if s.mayManage who (aMgt 0x30) then s.setCalendar v else s)

/-- 250,000,000 ticks have passed since the calendar was set or last advanced. -/
def execCalendarSecond (s : State) : Answer :=
  .next (if s.powered && s.fld (aMgt 0) 2 1 = 1 && s.calDue ≤ s.tick then
    { s with calDue := s.calDue + 250000000 }.addFld (aMgt 0x30) 0 64 1 else s)

end Sys2Proof.Machine
end

