-- ==== Sys2Proof/Machine/Efxis.lean ====
section
/-! DEFINITION. Efxis images: their checks (R366), STAGE, ACTIVATE and DISCARD (R368 to R370), the activation and its hold window
(R371, R372), the imprint (R373, R374) and the census (R375, R376). -/

namespace Sys2Proof.Machine

/-! ## Parsing and order 1 (R357 to R359, R366) -/

/-- A record with the byte offset of its header. -/
structure ImgRec where
  off : Nat
  r : EfxRec
deriving DecidableEq, Repr

/-- A refused check: code, offset and TYPE of the record, order. -/
structure ImgErr where
  code : Nat
  off : Nat
  typ : Nat
  order : Nat
deriving DecidableEq, Repr

def isListType (t : Nat) : Bool := (efxEntry t).isSome
def isPartType (t : Nat) : Bool := t = tPARTITION || isListType t

/-- A record header is legal: TYPE known, PKG and INDEX of its scope, reserved byte zero, body of a legal length. -/
def headerOk (w : Nat) : Bool :=
  let t := bits w 0 16
  let n := bits w 16 24
  let pkg := bits w 40 8
  let idx := bits w 48 8
  bits w 56 8 = 0 && n % 8 = 0 && (pkg < 64 || pkg = 0xFF) && (t ≠ tGROUP || pkg = 0xFF) &&
    (if isPartType t then idx < 64 else if t = tKEY then idx < 8 else idx = 0) &&
    match efxFull t, efxEntry t with
    | some m, _ => n ≤ m
    | none, some e => n % e = 0
    | none, none => false

/-- The records of a body that begins at byte `off`; the offset and TYPE of the first that is not legal. -/
def parseRecs : Nat → Nat → List Byte → Except (Nat × Nat) (List ImgRec)
  | 0, off, bs => if bs = [] then .ok [] else .error (off, 0)
  | n + 1, off, bs =>
    if bs = [] then .ok []
    else
      let w := leAt bs 0 8
      let len := bits w 16 24
      if bs.length < 8 + len ∨ !headerOk w then .error (off, bits w 0 16)
      else
        let r : ImgRec := ⟨off, ⟨bits w 0 16, bits w 40 8, bits w 48 8, (bs.drop 8).take len⟩⟩
        match parseRecs n (off + 8 + len) (bs.drop (8 + len)) with
        | .ok rs => .ok (r :: rs)
        | .error e => .error e

/-- The first record that repeats TYPE, PKG and INDEX of an earlier one. -/
def dupRec : List EfxRec → List ImgRec → Option ImgRec
  | _, [] => none
  | seen, x :: xs => if (efxFind seen x.r.typ x.r.pkg x.r.index).isSome then some x else dupRec (x.r :: seen) xs

/-- Order 1. -/
def parseImage (bs : List Byte) : Except ImgErr (Nat × List ImgRec) :=
  let len := leAt bs 8 4
  let count := leAt bs 16 4
  if bs.length < 64 ∨ leAt bs 0 4 ≠ 0x4A584546 ∨ leAt bs 4 2 ≠ 1 ∨ leAt bs 6 2 ≠ 0 ∨ len ≠ bs.length ∨ 0x400000 < len ∨
      leAt bs 20 44 ≠ 0 then .error ⟨cFORMAT, 0, 0, 1⟩
  else match parseRecs count 64 (bs.drop 64) with
  | .error e => .error ⟨cFORMAT, e.1, e.2, 1⟩
  | .ok rs =>
    if rs.length ≠ count then .error ⟨cFORMAT, 0, 0, 1⟩
    else match dupRec [] rs with
    | some x => .error ⟨cFORMAT, x.off, x.r.typ, 1⟩
    | none => .ok (leAt bs 12 4, rs)

/-! ## Order 2: values -/

/-- A core that exists. -/
def entryCoreOk (e : List Byte) : Bool := leAt e 0 1 < 64 && leAt e 1 1 < 72

def nameOk (a : Nat) : Bool := a < 2 ^ 20 && bits a 0 7 < 72 && bits a 7 7 < 64

/-- The shape that an image gives (R249). -/
def shapeOf (recs : List EfxRec) : Nat × Nat × Nat :=
  let g := efxFixed recs [] 0 tGROUP 0
  (leAt g 0 1, leAt g 1 1, leAt g 2 1)

/-- The values of a record, with the values below it where it has none. -/
def valuesOk (recs : List EfxRec) (shape : Nat × Nat × Nat) (r : EfxRec) : Bool :=
  let b := overlay r.typ r.body (if r.pkg = 0xFF then factoryBody [] r.typ r.index else efxFixed recs [] 0xFF r.typ r.index)
  let dim := fun n => 1 ≤ n && n ≤ 4
  (r.pkg = 0xFF || inShape shape r.pkg) &&
  (if r.typ = tGROUP then
    dim (leAt b 0 1) && dim (leAt b 1 1) && dim (leAt b 2 1) && inShape shape (leAt b 3 1) && leAt b 4 4 = 0
  else if r.typ = tPORTS then
    let roles := (List.range 6).map (recRole b)
    let used := roles.filter (· < 6)
    roles.all (· ≤ 6) && used.eraseDups.length = used.length && bits (leAt b 0 8) 30 34 = 0
  else if r.typ = tPARTITION then leAt b 34 1 ≤ 15 && leAt b 35 5 = 0 && leAt b 40 8 ≠ 0 && leAt b 56 8 = 0
  else if r.typ = tKEY then r.body = [] || (leAt b 0 1 = 1 && leAt b 1 7 = 0)
  else if r.typ = tSENSORS then
    leAt b 0 1 < leAt b 1 1 && leAt b 1 1 < leAt b 2 1 && leAt b 2 1 ≤ 115 && leAt b 3 1 = 0 &&
      60 ≤ leAt b 8 1 && leAt b 8 1 ≤ 120 && leAt b 9 7 = 0
  else if r.typ = tFAULTWIN then (chunks 8 b).all fun e => leAt e 2 4 ≠ 0 && leAt e 6 2 = 0
  else if r.typ = tHANDLES then (chunks 40 r.body).all fun e => entryCoreOk e && leAt e 3 5 = 0
  else if r.typ = tPOOLS then (chunks 8 r.body).all fun e =>
    entryCoreOk e && leAt e 2 1 < 32 && leAt e 4 2 ≤ 1024 && leAt e 6 1 ≤ 1 && leAt e 7 1 = 0
  else (chunks 16 r.body).all fun e =>
    nameOk (leAt e 0 4) && (r.pkg = 0xFF || leAt e 0 4 / 2 ^ 14 = r.pkg) && nameOk (leAt e 4 4) &&
      inShape shape (leAt e 4 4 / 2 ^ 14) && leAt e 8 2 < 2 ^ 12 && 1 ≤ leAt e 10 1 && leAt e 10 1 ≤ 24 && leAt e 11 5 = 0)

/-- The directions that R252 can choose in a shape. -/
def rolesNeeded (shape : Nat × Nat × Nat) : List Nat :=
  (List.range 6).filter fun role =>
    let n := roleSize shape role
    if role % 2 = 0 then 2 ≤ n else 3 ≤ n

/-- The first position whose effective PORTS gives a direction that R252 can choose to no pair. -/
def portsLack (recs : List EfxRec) (shape : Nat × Nat × Nat) : Option Nat :=
  (positions shape).find? fun pos =>
    let b := efxFixed recs [] pos tPORTS 0
    !(rolesNeeded shape).all fun role => (List.range 6).any fun k => recRole b k = role

/-- The record that is effective at `pos`, for an error. -/
def effRec (rs : List ImgRec) (t pos idx : Nat) : Nat × Nat :=
  match rs.find? fun x => x.r.typ = t ∧ x.r.pkg = pos ∧ x.r.index = idx with
  | some x => (x.off, t)
  | none => match rs.find? fun x => x.r.typ = t ∧ x.r.pkg = 0xFF ∧ x.r.index = idx with
    | some x => (x.off, t)
    | none => (0, t)

def errAt (code order : Nat) (e : Nat × Nat) : ImgErr := ⟨code, e.1, e.2, order⟩

/-- Order 2. -/
def valuesErr (rs : List ImgRec) : Option ImgErr :=
  let recs := rs.map (·.r)
  let shape := shapeOf recs
  match rs.find? fun x => !valuesOk recs shape x.r with
  | some x => some ⟨cFORMAT, x.off, x.r.typ, 2⟩
  | none => (portsLack recs shape).map fun pos => errAt cFORMAT 2 (effRec rs tPORTS pos 0)

/-! ## Orders 3 to 5: this package. `s` is the state with the image's records in force. -/

/-- A galley of partition p that another partition claims too, or that lies on a fused-off die. -/
def State.galleyBad (s : State) (p : Nat) : Bool :=
  (List.range 64).any fun d => (List.range 4).any fun g =>
    s.hasGalley p d g && (s.dieFused d || (List.range p).any fun q => s.hasGalley q d g)

/-- Its FUNC is that of a lower partition. -/
def State.funcBad (s : State) (p : Nat) : Bool :=
  (s.partFunc p).isSome && (List.range p).any fun q => s.partFunc q = s.partFunc p

/-- Every entry of a list record of p lies within its galleys; of a circuit the source, which a record for all packages has here
whatever package it names, and the destination where that is here. -/
def State.listInside (s : State) (t p : Nat) : Bool :=
  let here := fun (die core : Nat) => s.hasGalley p die (core / 18)
  let nm := fun (a : Nat) => here (bits a 7 7) (bits a 0 7)
  let all := (efxFind s.efx t s.position p).isNone
  (s.efxEntries t p ((efxEntry t).getD 1)).all fun e =>
    if t = tCIRCUITS then
      (!all && leAt e 0 4 / 2 ^ 14 ≠ s.position || nm (leAt e 0 4)) && (leAt e 4 4 / 2 ^ 14 ≠ s.position || nm (leAt e 4 4))
    else here (leAt e 0 1) (leAt e 1 1)

/-- The MXJ-64L has both ports only on pairs 1 and 4, which carry the X directions (R277). -/
def State.rolesBad (s : State) : Bool :=
  s.fuses.part = 0x03 && [0, 2, 3, 5].any fun k => recRole (s.efxBody tPORTS 0) k < 2

/-- Order 3. -/
def State.placeErr (s : State) (rs : List ImgRec) : Option ImgErr :=
  let here := fun t p => errAt cHANDLE 3 (effRec rs t s.position p)
  match (List.range 64).findSome? fun p =>
    if s.galleyBad p || s.funcBad p then some (here tPARTITION p)
    else ([tHANDLES, tPOOLS, tCIRCUITS].find? fun t => !s.listInside t p).map fun t => here t p with
  | some e => some e
  | none => if s.rolesBad then some (here tPORTS 0) else none

/-- The code of the first entry of a HANDLES list that fails R67. -/
def State.handlesErr (s : State) (body : List Byte) : Option Nat :=
  ((chunks 40 body).map fun e => s.handleCheck (BitVec.ofNat 256 (leAt e 8 32))).find? (· ≠ cDONE)

/-- The pools that a record gives, over the group: position, die, core, pool. -/
def recPools (recs : List EfxRec) (shape : Nat × Nat × Nat) (r : EfxRec) : List (Nat × Nat) :=
  if r.typ ≠ tPOOLS then []
  else ((positions shape).filter fun q => r.pkg = q || (r.pkg = 0xFF && (efxFind recs tPOOLS q r.index).isNone)).flatMap fun q =>
    (chunks 8 r.body).map fun e => (q, leAt e 0 3)

/-- Pins that join those `seen`: each circuit number once for a source, at most 8 for one source. -/
def pinsOk : List Pin → List Pin → Bool
  | _, [] => true
  | seen, x :: xs =>
    !(seen.any fun y => y.src = x.src && y.circ = x.circ) && (seen.filter fun y => y.src = x.src).length < 8 && pinsOk (x :: seen) xs

/-- Order 4 for one record, beside the records before it. -/
def State.recErr (s : State) (before : List EfxRec) (r : EfxRec) : Option Nat :=
  if r.typ = tHANDLES then s.handlesErr r.body
  else
    let pools := (before ++ [r]).flatMap (recPools s.efx s.shape)
    let pins := before.flatMap (recPins s.efx s.shape)
    if r.typ = tPOOLS && pools.eraseDups.length ≠ pools.length then some cHANDLE
    else if !pinsOk pins (recPins s.efx s.shape r) then some cHANDLE
    else none

/-- Order 4: the records of the file in turn. -/
def State.listErr (s : State) : List EfxRec → List ImgRec → Option ImgErr
  | _, [] => none
  | before, x :: xs => match s.recErr before x.r with
    | some c => some ⟨c, x.off, x.r.typ, 4⟩
    | none => s.listErr (before ++ [x.r]) xs

/-- Slots taken on each hop of this package, with those of one more pinned circuit. -/
def State.pinAdd (s : State) (t : Tbl Nat) (x : Pin) : Tbl Nat :=
  if s.pinBad x then t
  else (s.pinHops x).foldl (fun t h => Tbl.set 0 t (hopKey h) (Tbl.get 0 t (hopKey h) + x.slots)) t

/-- Slots that pinned circuits take on each hop of this package. -/
def State.pinNeed (s : State) : Tbl Nat := (pinsOf s.efx s.shape).foldl s.pinAdd []

/-- The first pinned circuit that does not fit beside those before it. -/
def State.overfull (s : State) : Tbl Nat → List Pin → Option Pin
  | _, [] => none
  | t, x :: xs =>
    let t := s.pinAdd t x
    if t.all fun e => e.2 ≤ 24 then s.overfull t xs else some x

/-- Order 5. -/
def State.slotsErr (s : State) (rs : List ImgRec) : Option ImgErr :=
  (s.overfull [] (pinsOf s.efx s.shape)).map fun x => errAt cHANDLE 5 (effRec rs tCIRCUITS (a20Pkg x.src) x.part)

/-- The checks of R366 in their order: SEQ and the records, or the first failure. -/
def State.checkImage (s : State) (bs : List Byte) : Except ImgErr (Nat × List EfxRec) :=
  match parseImage bs with
  | .error e => .error e
  | .ok (seq, rs) =>
    let s' := { s with efx := rs.map fun (x : ImgRec) => x.r }
    match (valuesErr rs).or ((s'.placeErr rs).or ((s'.listErr [] rs).or (s'.slotsErr rs))) with
    | some e => .error e
    | none => .ok (seq, rs.map (·.r))

/-! ## STAGE, ACTIVATE, DISCARD (R368 to R370) -/

def State.efxSays (s : State) (code : Nat) : State := s.setFld aEfxCtrl 16 8 code
def State.showImgErr (s : State) (e : ImgErr) : State :=
  s.wr aEfxErr (BitVec.ofNat 64 (e.off + e.typ * 2 ^ 32 + e.order * 2 ^ 48))

/-- STAGED with its sequence goes, and with it an armed activation. -/
def State.unstage (s : State) : State :=
  ({ s with efxStaged := none, efxArmed := none, nor := { s.nor with staged := none } }.setFld aEfxCtrl 25 2 0).setFld aImpSeq 32 32 0

/-- STAGE of the bytes that the read brought. A new staged image disarms the old (DESIGN CHOICE, log 44). -/
def State.stage (s : State) (img : HostRead) : State :=
  match s.readHost 64 (s.fld aEfxCtrl 8 8) (s.rd aEfxSrc).toNat img with
  | .error code => (s.efxSays code).hostError 0xFF code
  | .ok bs =>
    match s.checkImage bs with
    | .error e => (s.efxSays e.code).showImgErr e
    | .ok (seq, recs) =>
      if seq ≤ s.fld aImpSeq 0 32 then s.efxSays cFORMAT
      else
        let s := s.unstage
        ({ s with
          efxStaged := some (recs, seq)
          nor := { s.nor with staged := some bs }
          norBusy := s.norBusy ++ [NorWrite.stagedImage] } : State).setFld aEfxCtrl 24 1 1

/-- Partition p's records differ at `pos` between two images. -/
def changedAt (fusedDies : List Nat) (old new : List EfxRec) (pos p : Nat) : Bool :=
  efxFixed old fusedDies pos tPARTITION p ≠ efxFixed new fusedDies pos tPARTITION p ||
    [tHANDLES, tPOOLS, tCIRCUITS].any fun t => efxList old pos t p ≠ efxList new pos t p

def State.changed (s : State) (new : List EfxRec) (pos p : Nat) : Bool :=
  changedAt (if pos = s.position then s.fuses.fusedDies else []) s.efx new pos p

/-- What an activation of `new` at T resets and pins. -/
def State.armedBy (s : State) (new : List EfxRec) (t : Nat) : ArmedEfx where
  tick := t
  need := { s with efx := new }.pinNeed
  pinned := (pinsOf s.efx s.shape).map fun x => ownerOf x.src x.circ
  resets := (positions s.shape).flatMap fun pos => ((List.range 64).filter (s.changed new pos)).map (pos * 64 + ·)

/-- Some hop cannot hold the staged pins beside the circuits that stay. -/
def State.pinsCrowd (s : State) (x : ArmedEfx) : Bool :=
  x.need.any fun e =>
    let h : Hop := ⟨e.1 / 256 / 128, e.1 / 256 % 128, e.1 % 256⟩
    24 < s.keptSlots x h + e.2

/-- The code of an ACTIVATE of a staged image. -/
def State.activateCode (s : State) (new : List EfxRec) (t : Nat) : Nat :=
  let at' := fun (l : List EfxRec) ty => efxFixed l s.fuses.fusedDies s.position ty 0
  firstFail [
    (t < s.tick + 25000, cTIMEDOUT),
    (at' s.efx tGROUP ≠ at' new tGROUP || at' s.efx tPORTS ≠ at' new tPORTS, cHANDLE),
    ((List.range 64).any fun p => s.changed new s.position p && s.ctxState p ∉ [0, 6], cHANDLE),
    (s.pinsCrowd (s.armedBy new t), cHANDLE)]

def State.activate (s : State) : State :=
  match s.efxStaged, s.fld aEfxCtrl 25 1 with
  | some (new, _), 1 =>
    let t := (s.rd aEfxTick).toNat
    let code := s.activateCode new t
    if code ≠ cDONE then s.efxSays code
    else ({ s with efxArmed := some (s.armedBy new t) }.setFld aEfxCtrl 26 1 1).efxSays cDONE
  | _, _ => s.efxSays cHANDLE

/-- Only PF0 and the colophons write the Efxis registers; once the package is lost (R453) nothing is applied, and the code is open
(log 11). -/
def State.efxCommand (s : State) (who : Accessor) (v : Word) (f : State → State) : State :=
  if !s.mayManage who aEfxCtrl then s
  else
    let s := s.setFld aEfxCtrl 8 8 (getF v 8 8)
    if s.allLost then (let (v, s) := s.draw; s.efxSays (v.toNat % 17))
    else if s.fld aEfxCtrl 24 1 = 1 then s.efxSays cHANDLE else f s

def execEfxStage (who : Accessor) (v : Word) (img : HostRead) (s : State) : Answer :=
  .next (if getF v 0 3 = 1 then s.efxCommand who v fun s => s.stage img else s)

def execEfxActivate (who : Accessor) (v : Word) (s : State) : Answer :=
  .next (if getF v 0 3 = 2 then s.efxCommand who v State.activate else s)

def execEfxDiscard (who : Accessor) (v : Word) (s : State) : Answer :=
  .next (if getF v 0 3 = 3 then s.efxCommand who v fun s => s.unstage.efxSays cDONE else s)

/-! ## The imprint and the activation (R371 to R374) -/

/-- The imprint registers. -/
def State.imprint (s : State) (seq : Nat) (recs : List EfxRec) : State :=
  let d := imprintDigest recs
  (List.range 4).foldl (fun s n => s.wr (aImpDigest n) (BitVec.ofNat 64 (leAt d (8 * n) 8))) (s.setFld aImpSeq 0 32 seq)

/-- `MGT_CAP.LIMIT` takes a changed CAP_INIT (R462). -/
def State.capInit (s : State) (old : Nat) : State :=
  let (_, _, _, _, _, c) := s.sensors
  if c = old then s else (s.setFld (aMgt 0x10) 0 7 c).capEffect

/-- Pinned circuits from other packages, of partitions that change there. -/
def State.remotePins (s : State) (resets : List Nat) : List Pin :=
  (pinsOf s.efx s.shape).filter fun x => a20Pkg x.src ≠ s.position && (a20Pkg x.src * 64 + x.part) ∈ resets

/-- Partition resets of this package. -/
def State.resetParts (s : State) (ps : List Nat) : State :=
  ps.foldl (fun s p => if h : p < 64 then s.startReset (.partition ⟨p, h⟩) false else s) s

/-- The partitions under reset take the galleys that the new records give them; a galley that has changed hands is cleared with its
new partition (R371, R426). -/
def State.retake (s : State) : State :=
  let owner := fun n => s.partOf (n / 4) (n % 4)
  let mask := fun (r : ResetRun) (p : Nat) => (List.range 256).foldl (fun m n =>
    if owner n = p || (64 ≤ owner n && bits r.galleys n 1 = 1) then m + 2 ^ n else m) 0
  let runs := s.resets.map fun r => match r.unit with
    | .partition p => { r with galleys := mask r p.val }
    | _ => r
  let s := { s with resets := runs }
  ((List.range 4608).filter fun k => runs.any fun r => match r.unit with
    | .partition _ => bits r.galleys (k / 18) 1 = 1
    | _ => false).foldl State.haltCore s

/-- At T. -/
def State.takeForce (s : State) : State :=
  match s.efxArmed, s.efxStaged with
  | some x, some (new, seq) =>
    if !s.powered ∨ s.tick < x.tick ∨ s.allLost then s
    else
      let ps := (List.range 64).filter (s.changed new s.position)
      let (_, _, _, _, _, cap) := s.sensors
      let s := s.resetParts ps
      let s := (s.remotePins x.resets).foldl (fun s y => s.freeCirc y.src y.circ) s
      let s := { s with
        efx := new, efxStaged := none, efxArmed := none, efxLast := some x.tick
        nor := { s.nor with image := s.nor.staged, staged := none } }.retake
      let s := (((s.setFld aEfxCtrl 25 3 0).setFld aImpSeq 32 32 0).imprint seq new).capInit cap
      ((s.remotePins x.resets).foldl State.installPin s).runningInexact
  | _, _ => s

def execEfxisActivation (s : State) : Answer := .next s.takeForce

/-- The hold window begins at tick T − 2,052. -/
def execFlagHoldWindowStart (s : State) : Answer :=
  .next (match s.efxArmed with
    | some x => if s.powered ∧ x.tick ≤ s.tick + 2052 then { s with flagHold := true } else s
    | none => s)

/-- It ends after tick T + 2; the packets held may then leave. -/
def State.holdEnds (s : State) : Bool :=
  (match s.efxArmed with | some x => decide (s.tick + 2052 < x.tick) | none => true) &&
    match s.efxLast with | some t => decide (t + 2 < s.tick) | none => true

def execFlagHoldWindowEnd (s : State) : Answer :=
  .next (if s.powered && s.flagHold && s.holdEnds then ({ s with flagHold := false }).pumpDelivers else s)

/-! ## The census (R375, R376) -/

/-- A round may begin: the root, a period, no activation armed or just past. -/
def State.censusReady (s : State) : Bool :=
  s.powered && s.isRoot && s.censusPeriod ≠ 0 && s.censusDue ≤ s.tick && s.censusOpen.isNone && s.efxArmed.isNone &&
    match s.efxLast with | some t => decide (t + 250000 ≤ s.tick) | none => true

/-- The pairs that lead to this package's children in the alignment tree of R298 (DEDUCED, log 118). -/
def State.childPairs (s : State) : List Nat :=
  (positions s.shape).filterMap fun q => match nextDir s.shape q s.timingRoot with
    | some r => if neighbour s.shape q r = s.position then s.pairOf (if r % 2 = 0 then r + 1 else r - 1) else none
    | none => none

/-- The request goes down the tree: a CTRL packet on virtual channel 3 to each child, by a port of its pair. -/
def State.censusAsk (s : State) : State :=
  s.childPairs.foldl (fun s k => match s.choosePort k with | some p => s.emit (.censusAsk p) | none => s) s

def execCensusRound (s : State) : Answer :=
  .next (if s.censusReady then
    { s with censusOpen := some s.tick, censusDue := s.tick + s.censusPeriod }.censusAsk else s)

/-- The imprint in force, as bytes. -/
def State.imprintBytes (s : State) : List Byte := (List.range 4).flatMap fun n => leBytes 8 (s.rd (aImpDigest n)).toNat

/-- A request that comes from the parent in the tree is answered and passed down. -/
def execCensusRequest (via : Fin 12) (s : State) : Answer :=
  .next (if s.powered && !s.isRoot && s.rnnState via.val = 5 &&
      (nextDir s.shape s.position s.timingRoot).bind s.pairOf = some (via.val / 2) then
    (s.emit (.censusAnswer s.position (BitVec.ofNat 32 (s.fld aImpSeq 0 32)) s.imprintBytes)).censusAsk else s)

/-- The result of a round, stored (R377). -/
def State.censusStore (s : State) (agree disagree missing : Nat) (dis mis : Word) : State :=
  let round := s.fld aImpCensus 0 32 + 1
  ((s.wr aImpCensus (BitVec.ofNat 64 (round % 2 ^ 32 + agree % 256 * 2 ^ 32 + disagree % 256 * 2 ^ 40 + missing % 256 * 2 ^ 48))).wr
    aImpDisagree dis).wr aImpMissing mis

/-- 0 agrees, 1 disagrees, 2 missing. -/
def State.verdictOf (s : State) (answers : List CensusAnswer) (pos : Nat) : Nat :=
  if pos = s.position then 0
  else match answers.find? fun a => a.pos.val = pos with
  | none => 2
  | some a => if a.seq.toNat = s.fld aImpSeq 0 32 ∧ a.digest = s.imprintBytes then 0 else 1

/-- 250,000 ticks after the request. -/
def State.censusClose (s : State) (answers : List CensusAnswer) : State :=
  let pos := positions s.shape
  let which := fun n => pos.filter fun p => s.verdictOf answers p = n
  let mask := fun (l : List Nat) => BitVec.ofNat 64 (l.foldl (fun m p => m + 2 ^ p) 0)
  let dis := which 1
  let mis := which 2
  let agree := (which 0).length
  let s := (pos.filter fun p => p ∈ dis ++ mis).foldl (fun s p => s.raise { ErrRec.base with
    cls := 1, source := 0x24, status := BitVec.ofNat 16 cIMPRINT, detail := p }) { s with censusOpen := none }
  (s.censusStore agree dis.length mis.length (mask dis) (mask mis)).emit
    (.censusResult (BitVec.ofNat 8 agree) (BitVec.ofNat 8 dis.length) (BitVec.ofNat 8 mis.length) (mask dis) (mask mis))

def execCensusRoundTimeout (answers : List CensusAnswer) (s : State) : Answer :=
  .next (match s.censusOpen with
    | some t => if s.powered ∧ t + 250000 ≤ s.tick then s.censusClose answers else s
    | none => s)

def execCensusResult (agree disagree missing : BitVec 8) (dis mis : Word) (s : State) : Answer :=
  .next (if s.powered && !s.isRoot then s.censusStore agree.toNat disagree.toNat missing.toNat dis mis else s)

end Sys2Proof.Machine
end

