-- ==== Sys2Proof/Machine/Boot.lean ====
section
/-! DEFINITION. Power-on and power loss (R412 to R421, R429, R495 to R500), the firmware image (R428 to R431, R470), writes to NOR
that end (R371, R430, R473, R475), and the proof pass in service (R484, R485). -/

namespace Sys2Proof.Machine

/-! ## Step 2: everything cleared -/

/-- The registers of the package, the rate and the colophons that power-on sets before any other step. -/
def coldRegs : Tbl Word := ctlReset.filter fun e => e.1 = aRate || (aFw 0 ≤ e.1 && e.1 < aMgt 0x40)

/-- The copy of the lifetime records with the higher sequence number (R473). -/
def Nor.latest (n : Nor) : Option LifeCopy :=
  n.life.foldl (fun a c => match a with | some b => if b.seq < c.seq then some c else a | none => some c) none

def State.wrAll (s : State) (base n w : Nat) (t : Tbl Nat) : State :=
  (List.range n).foldl (fun s i => s.setFld (base + 8 * i) 0 w (Tbl.get 0 t i)) s

/-- The lifetime counters resume from a copy. -/
def State.loadLife (s : State) (c : LifeCopy) : State :=
  let s := { s with windows := c.windows, leaked := c.ticks, erases := c.erases }
  let s := (((s.wr (aMgt 0x40) (BitVec.ofNat 64 c.ticks)).wr (aMgt 0x48) (BitVec.ofNat 64 c.powerOns)).wr (aMgt 0x50)
    (BitVec.ofNat 64 c.unclean)).wr (aMgt 0x58) (BitVec.ofNat 64 c.energy)
  ((s.wrAll (aMgt 0x400) 68 64 c.cycles).wrAll (aMgt 0x800) 68 64 c.dieEnergy).wrAll (aMgt 0x1000) 256 32 c.wear

/-- Everything but NOR, the fuses and the lands at what power-on makes of it; fused ageing baselines in their registers. -/
def State.cold (s : State) (b : BootInput) : State :=
  let s := { State.reset with
    pending := s.pending
    free := s.free
    ctl := coldRegs
    fuses := s.fuses
    position := s.position
    nor := { s.nor with chainOk := b.chainOk, staged := none }
    thermal := { Thermal.reset with tripped := s.thermal.tripped }
    pports := [0, 1].foldl (fun t k => Tbl.set PPort.reset t k { PPort.reset with perstLow := (s.pport k).perstLow }) []
    tick := b.ms * 250000
    mgmt := .reset b.straps
    alignedOnce := false
    censusDue := 0
    out := s.out }
  let s := (List.range 256).foldl (fun s i => s.setFld (aMgt (0x1000 + 8 * i)) 32 32 (Tbl.get 0 s.fuses.baseline i)) s
  ((match s.nor.latest with | some c => s.loadLife c | none => s).addFld (aMgt 0x40) 0 64 (b.ms * 250000)).setFld aBoot 0 3 2

/-! ## Step 4: the repair log (R416) -/

/-- An entry of the repair log acts again: a fenced core or die stays so, a bridge without spare lanes stays fenced, a port
stays DOWN. A spared row, a bridge lane and a PCIe lane need nothing more (R415, R448). -/
def State.applyRepair (s : State) (r : Repair) : State :=
  if r.kind = 1 then { s with fenced := s.fenced ++ [r.resource / 2 ^ 30] }
  else if r.kind = 2 then { s with fenced := s.fenced ++ [r.resource] }
  else if r.kind = 3 then
    let s := s.setFld (aHub (r.resource % 64) 0x508) 29 1 1
    if 64 ≤ r.resource then s.fenceHops (crossbarHops (r.resource % 64)) else s
  else if r.kind = 5 then s.modRport r.resource fun x => { x with heldDown := true }
  else if r.kind = 6 then
    let b := bridgeOf r.resource
    if 16 * (Config.bridgeLanes / 1024) < Tbl.get 0 s.fuses.lanesFuse r.resource +
        (s.nor.repairs.filter fun x => x.kind = 6 ∧ x.resource = r.resource).length then s.fenceHops (bridgeHops b.1 b.2) else s
  else s

/-! ## Step 6: the Efxis image (R367) -/

/-- The image in NOR in force, or the factory image with a record that names the failure. -/
def State.bootImage (s : State) : State :=
  let fallBack := fun (s : State) => (s.setFld aEfxCtrl 27 1 1).imprint 0 []
  match s.nor.image with
  | none => (fallBack s).raiseOpen { ErrRec.base with cls := 1, source := 0x60 }
  | some bs => match s.checkImage bs with
    | .ok (seq, recs) => { s with efx := recs }.imprint seq recs
    | .error e => ((fallBack s).showImgErr e).raise
        { ErrRec.base with cls := 1, source := 0x60, status := BitVec.ofNat 16 e.code, detail := e.off }

/-- A Ronnen port takes ENABLE and its role from the image; one that may train begins. -/
def State.bootPort (s : State) (p : Nat) : State :=
  let en := bits (leAt (s.efxBody tPORTS 0) 0 8) (18 + p) 1
  let s := (s.setFld (aRnn p 0) 0 1 (if s.portFused p then 0 else en)).wr (aRnn p 0x10) (BitVec.ofNat 64 0x7654321076543210)
  let s := ((s.wr (aRnn p 8) 0).setFld (aRnn p 8) 8 4 15).setFld (aRnn p 8) 22 3 (s.pairRole (p / 2))
  if s.mayTrain p then s.setRnnState p 1 else if (s.rport p).heldDown then s.setRnnState p 7 else s

def State.applyImage (s : State) : State :=
  let s := s.bootImage
  let (_, _, _, _, _, cap) := s.sensors
  let s := ((s.setFld (aMgt 0x10) 0 7 cap).capEffect).installAll
  let s := (List.range 12).foldl State.bootPort s
  let s := { s.firstParent with alignedOnce := s.isRoot, censusDue := s.censusPeriod }
  if s.isRoot then s.setSynced 1 else s

/-! ## Steps 4 to 7 -/

/-- Functions come up; the power-on counts, and counts as following an unclean power-off where the copy says so (R473). -/
def State.bootEnds (s : State) (ms : Nat) : State :=
  let s := s.bindFns.leak.addFld (aMgt 0x48) 0 64 1
  let s := match s.nor.latest with
    | some c => if c.orderly then s else (s.addFld (aMgt 0x50) 0 64 1).raiseUnsourced { ErrRec.base with cls := 1 }
    | none => s
  let s := { s with nor := { s.nor with life := s.nor.life.map fun (c : LifeCopy) => { c with orderly := false } } }
  let v := s.nor.fwVersion.toNat
  let s := s.wr (aFw 0x10) (BitVec.ofNat 64 (v + v * 2 ^ 32))
  ((s.setFld aBoot 0 3 7).setFld aBoot 32 32 ms).emit .hotJoin

/-- Steps 4 to 7. -/
def State.boot (s : State) (b : BootInput) (ms : Nat) : State :=
  let s := s.nor.repairs.foldl State.applyRepair s
  ((((s.broadcast b.found).proofAll b.found).applyImage).bootEnds ms)

/-- A key of the set that is not revoked signs the image (R470). -/
def State.fwSigned (s : State) (img : List Byte) : Bool :=
  match Config.firmwareKey img with
  | some k => k < 4 && k ∉ s.fuses.revoked
  | none => false

/-- Step 3: the image in NOR is there and whole, is read as NOR holds it, and verifies (R412, R428). -/
def State.romVerifies (s : State) (b : BootInput) : Bool := b.firmwareOk && s.nor.firmwareGood && s.fwSigned s.nor.firmware

/-- PWRGD is asserted: steps 2 to 7, or the recovery path where the image is absent or fails verification (R429). -/
def State.powerOn (s : State) (b : BootInput) : State :=
  let s := s.cold b
  if s.romVerifies b then s.boot b b.ms
  else { s with recovering := some b }.setFld aBoot 3 1 1

def execPowerGood (b : BootInput) (s : State) : Answer := .next (if s.powered then s else s.powerOn b)

/-! ## Power loss (R496, R500) -/

/-- Every die stops. Nothing is recorded and nothing persisted; a copy of the lifetime records is orderly only where it was
written by a power-down that had ended or by a trip (`clean`). A NOR that failed holds what it held then (R453). -/
def State.lose (s : State) (clean : Bool) : State :=
  let n := s.norKept.getD s.nor
  { s with
    powered := false
    norBusy := []
    norKept := none
    nor := { n with life := n.life.map fun (c : LifeCopy) => { c with orderly := c.orderly && clean } } }

/-- PWRGD falls, or VIN lies below 10.8 V, which also releases the trip output (R502). -/
def State.powerFails (s : State) (low : Bool) : State :=
  let s := if s.powered then s.lose (s.fld (aMgt 0) 4 1 = 1 || s.thermal.trip10) else s
  if low then { s with thermal := { s.thermal with tripped := false } } else s

def execPowerLoss (low : Bool) (s : State) : Answer := .next (s.powerFails low)

/-- The reference clock is lost: always an unclean power-off. -/
def execRefclkLoss (s : State) : Answer := .next (if s.powered then s.lose false else s)

/-! ## The firmware image (R428 to R431) -/

def State.fwSays (s : State) (code : Nat) : State := s.setFld (aFw 0) 24 8 code

/-- The image is written over the NOR region; until the read-back succeeds, NOR holds no good image. -/
def State.fwToNor (s : State) (img : List Byte) : State :=
  { s with
    nor := { s.nor with firmware := img, firmwareGood := false }
    fwTries := 1
    norBusy := s.norBusy ++ [NorWrite.firmware] }.setFld (aFw 0) 32 1 1

/-- The boot ROM takes the image from the host and writes it at once (R429). -/
def State.romStage (s : State) (img : HostRead) : State :=
  match img with
  | .failed o => s.fwSays (outcomeCode o)
  | .data bs => if s.fwSigned bs then s.fwToNor bs else s.fwSays cDIGEST

/-- STAGE. -/
def State.fwStage (s : State) (img : HostRead) : State :=
  match s.readHost 64 (s.fld (aFw 0) 8 8) (s.rd (aFw 8)).toNat img with
  | .error code => (s.fwSays code).hostError 0xFF code
  | .ok bs =>
    if s.fwSigned bs then ({ s with fwStaged := some bs }.setFld (aFw 0) 33 2 1).fwSays cDONE else s.fwSays cDIGEST

/-- COMMIT of a staged image that NOR does not hold yet. -/
def State.fwCommit (s : State) : State :=
  match s.fwStaged with
  | some img => if s.fld (aFw 0) 33 2 = 1 then s.fwToNor img else s.fwSays cHANDLE
  | none => s.fwSays cHANDLE

/-- ACTIVATE of a committed image: the colophons restart one at a time, or the dies of a partition take the microcode. -/
def State.fwActivate (s : State) : State :=
  let p := s.fld (aFw 0) 16 8
  if s.fld (aFw 0) 34 1 = 0 then s.fwSays cHANDLE
  else if p = 0xFF then { s with fwRestarting := some (1, s.tick) }.setFld (aFw 0) 32 1 1
  else
    let ds := (List.range 64).filter fun d => [0, 1, 2, 3].any (s.hasGalley p d)
    (ds.foldl (fun s d => s.setFld (aFw 0x18) d 1 1) s).fwSays cDONE

/-- DISCARD before COMMIT. -/
def State.fwDiscard (s : State) : State :=
  if s.fld (aFw 0) 33 2 = 1 then ({ s with fwStaged := none }.setFld (aFw 0) 33 1 0).fwSays cDONE else s.fwSays cHANDLE

/-- A write of `MGT_FW_CTRL` with a command. One that comes while another runs, or an update over PLDM, is refused; once the
package is lost (R453) nothing is applied, and the code is open (log 11). -/
def State.fwCommand (s : State) (who : Accessor) (v : Word) (f : State → State) : State :=
  if !s.mayManage who (aFw 0) then s
  else
    let s := s.setFld (aFw 0) 8 16 (getF v 8 16)
    if s.allLost then (let (v, s) := s.draw; s.fwSays (v.toNat % 17))
    else if s.fld (aFw 0) 32 1 = 1 ∨ s.mgmt.update ≠ 0 then s.fwSays cHANDLE else f s

/-- The boot ROM serves the registers: it knows only STAGE. -/
def State.romServes (s : State) : Bool := s.recovering.isSome || s.romUp

def execFwStage (who : Accessor) (v : Word) (img : HostRead) (s : State) : Answer :=
  .next (if getF v 0 3 = 1 then s.fwCommand who v fun s => if s.romServes then s.romStage img else s.fwStage img else s)

def execFwCommit (who : Accessor) (v : Word) (s : State) : Answer :=
  .next (if getF v 0 3 = 2 then s.fwCommand who v fun s => if s.romServes then s.fwSays cHANDLE else s.fwCommit else s)

def execFwActivate (who : Accessor) (v : Word) (s : State) : Answer :=
  .next (if getF v 0 3 = 3 then s.fwCommand who v fun s => if s.romServes then s.fwSays cHANDLE else s.fwActivate else s)

def execFwDiscard (who : Accessor) (v : Word) (s : State) : Answer :=
  .next (if getF v 0 3 = 4 then s.fwCommand who v fun s => if s.romServes then s.fwSays cHANDLE else s.fwDiscard else s)

/-- The colophon of quoin q runs the new image: the next one restarts, and after Q0 the command ends. -/
def State.colophonUp (s : State) (q : Nat) : State :=
  let s := { s with colophonStopped := s.colophonStopped.filter (· ≠ q) }
  if q ≠ 0 then { s with fwRestarting := some ((q + 1) % 4, s.tick) }
  else
    let v := s.fld (aFw 0x10) 32 32
    let s := ({ s with fwRestarting := none }.setFld (aMgt 0) 0 2 0).setFld (aFw 0x10) 0 32 v
    ((s.setFld (aFw 0) 32 1 0).fwSays cDONE).steer none

def execColophonStarted (q : Fin 4) (s : State) : Answer :=
  .next (match s.fwRestarting with
    | some (x, _) => if s.powered ∧ x = q.val then s.colophonUp q.val else s
    | none => s)

/-- A colophon has not started within 2 s (500,000,000 ticks): the boot ROM takes the recovery path. The status that ACTIVATE
then reports is open. -/
def State.colophonLate (s : State) (q : Nat) : State :=
  let (v, s) := s.draw
  let s := { s with
    fwRestarting := none
    romUp := true
    colophonStopped := s.colophonStopped.filter (· ≠ q) ++ [q] }
  ((s.setFld aBoot 3 1 1).setFld (aFw 0) 32 1 0).fwSays (v.toNat % 17)

def execColophonStartTimeout (q : Fin 4) (s : State) : Answer :=
  .next (match s.fwRestarting with
    | some (x, t) => if s.powered ∧ x = q.val ∧ t + 500000000 ≤ s.tick then s.colophonLate q.val else s
    | none => s)

/-- The ROM has a good image again: on power-on the sequence goes on (R429), and `PKG_BOOT.MS` counts from power-good (R413); in
service the colophons run it. -/
def State.romDone (s : State) : State :=
  match s.recovering with
  | some b =>
    { s with recovering := none }.boot b (s.tick / 250000)
  | none =>
    if s.romUp then
      ({ s with romUp := false, colophonStopped := [] }.setFld (aFw 0x10) 0 32 s.nor.fwVersion.toNat).steer none
    else s

/-! ## Writes to NOR end (R371, R430, R473, R475) -/

/-- No part is still to be stopped. -/
def State.allStopped (s : State) : Bool := (List.range 64).all fun p => s.ctxState p ∉ [3, 4, 5]

/-- A write has ended. That of a power-down which a package reset has called off is no orderly one (R475). -/
def State.norDone (s : State) (what : NorWrite) (ok : Bool) : State :=
  match what with
  | .firmware => if ok then s.fwWritten.romDone else s.fwMismatch
  | .lifetime =>
    if ok then (s.lifeWritten s.thermal.trip10).setFld (aMgt 0x08) 0 1 0 else (s.setFld (aMgt 0x08) 0 1 0).norFails
  | .powerdown =>
    if !ok then s.norFails
    else if s.goingOff then (s.lifeWritten true).setFld (aMgt 0) 4 1 1 else s.lifeWritten false
  | .stagedImage =>
    let s := s.setFld aEfxCtrl 24 1 0
    if ok then ((s.setFld aEfxCtrl 25 1 1).setFld aEfxCtrl 16 8 cDONE).setFld aImpSeq 32 32 (match s.efxStaged with | some x => x.2 | none => 0)
    else
      let (v, s) := { s with efxStaged := none }.draw
      (s.setFld aEfxCtrl 16 8 (v.toNat % 17)).norFails
  | .repairLog => if ok then s else s.norFails
  | .record => if ok then s else s.norFails

/-- A write to NOR ends. That of an orderly power-down waits until every part has stopped (R475). -/
def execNorWriteComplete (what : NorWrite) (ok : Bool) (s : State) : Answer :=
  .next (if !s.powered || what ∉ s.norBusy || (what = .powerdown && !s.allStopped) then s
    else ({ s with norBusy := s.norBusy.erase what }).norDone what ok)

/-! ## The proof pass in service (R484, R485) -/

/-- A proof pass of the galley is refused. -/
def State.proofBars (s : State) (d : Fin 64) (g : Fin 4) : Bool :=
  (s.resets.any fun r => s.within (.galley d g) r.unit) ||
    (List.range 64).any fun p => s.ctxState p ∈ [3, 4, 5] && (s.started p).any (s.covers (.galley d g))

/-- A write of `GLY_PROOF`. -/
def State.proofWrite (s : State) (d : Fin 64) (g : Fin 4) (v : Word) : State :=
  let a := aGly d.val g.val 8
  if getF v 0 1 = 0 then s
  else if s.proofBars d g then s.setFld a 8 8 cHANDLE
  else (s.setFld a 0 2 3).startReset (.galley d g) true

def execGlyProofStart (who : Accessor) (die : Fin 64) (g : Fin 4) (v : Word) (s : State) : Answer :=
  .next (if s.mayWrite who (aGly die.val g.val 8) then s.proofWrite die g v else s)

/-- The galley's memories are written to zero. -/
def State.zeroGalley (s : State) (keys : List Nat) : State :=
  let inU := fun k => k ∈ keys
  let s := { s with
    mem := s.mem.filter fun e => !memIn inU false e.1
    poison := s.poison.filter fun e => !inU (e.1 / 2 ^ 30) }
  keys.foldl (fun s k => s.modCore k fun c => { c with flags := [] }) s

/-- The lists of the partition are installed again on the galley's cores. -/
def State.reinstall (s : State) (p : Nat) (keys : List Nat) : State :=
  if p < 64 then (s.installHandlesOn p fun k => k ∈ keys).installPoolsOn p fun k => k ∈ keys else s

/-- The tests end with what they found; the galley is cleared and comes back. -/
def State.proofEnds (s : State) (d : Fin 64) (g : Fin 4) (r : ProofResult) : State :=
  let u : ResetUnit := .galley d g
  let keys := s.unitKeys u
  let s := (s.clearUnit u).zeroGalley keys
  let s := { s with resets := s.resets.filter fun x => x.unit ≠ u }
  let (s, spared, failed) := s.proofFailures d.val g.val r
  let s := s.reinstall (s.partOf d.val g.val) keys
  let mask := (List.range 18).foldl (fun m c => if c ∈ failed then m + 2 ^ c else m) 0
  s.wr (aGly d.val g.val 8) (BitVec.ofNat 64
    ((if failed = [] then cDONE else cPARITY) * 2 ^ 8 + mask * 2 ^ 16 + min spared 255 * 2 ^ 34))

def execGlyProofDone (die : Fin 64) (g : Fin 4) (r : ProofResult) (s : State) : Answer :=
  .next (if s.powered && s.resets.any fun (x : ResetRun) => x.unit = .galley die g && x.proof && x.drained then
    s.proofEnds die g r else s)

end Sys2Proof.Machine
end

