-- ==== Sys2Proof/Machine/Test.lean ====
section
/-! DEFINITION. Test and debug (R477 to R489): loop-backs of PCIe ports and die bridges, the trace, the JTAG port. -/

namespace Sys2Proof.Machine

/-! ## Loop-back registers (R478) -/

/-- EN, DEPTH and GEN take the written values; setting GEN clears ERRS and MBITS. -/
def State.loopTake (s : State) (a : Nat) (v : Word) : State :=
  ((s.setFld a 0 1 (getF v 0 1)).setFld a 1 4 (getF v 1 4)).genTake a (getF v 4 1)

/-- A write that leaves EN clear: DEPTH and GEN take effect only where EN was 0. -/
def State.loopOff (s : State) (a : Nat) (v : Word) : State :=
  if s.fld a 0 1 = 0 then s.loopTake a v else s.setFld a 0 1 0

/-! ## PCIe (R479, R480) -/

/-- The code of a write that sets `HOST_LOOP.EN`. -/
def State.hostLoopCode (s : State) (who : Accessor) (b depth : Nat) : Nat :=
  firstFail [
    (!(1 ≤ depth && depth ≤ 4), cFORMAT),
    (((List.range 64).any fun f => s.fld (aFn b f 0) 8 1 = 1) ||
      (match who with | .func port _ => decide (port.val = b) | _ => false), cHANDLE)]

/-- A write of `HOST_LOOP`. -/
def State.hostLoop (s : State) (who : Accessor) (b : Nat) (v : Word) : State :=
  let a := aPort b 0x18
  if getF v 0 1 = 1 then
    let code := s.hostLoopCode who b (getF v 1 3)
    let s := s.setFld a 8 8 code
    if code = cDONE then (s.loopTake a v).portReset b else s
  else if s.fld a 0 1 = 1 then (s.loopOff a v).portReset b
  else s.loopOff a v

def execHostLoopWrite (who : Accessor) (port : Fin 2) (v : Word) (s : State) : Answer :=
  .next (if s.mayWrite who (aPort port.val 0x18) then s.hostLoop who port.val v else s)

/-! ## Die bridges (R481, R482) -/

/-- An open circuit crosses the bridge. -/
def State.bridgeUsed (s : State) (d e : Nat) : Bool := s.slots.any fun x => x.1 / 32 ∈ bridgeHops d e

/-- A write of `FD_BRIDGE_LOOP`. While the loop-back lasts, the bridge is out of the routes. -/
def State.bridgeLoop (s : State) (d e : Nat) (v : Word) : State :=
  let a := aHub d (0x600 + 8 * e)
  let was := s.fld a 0 1
  if getF v 0 1 = 1 then
    let code := firstFail [(s.bridgeUsed d e, cHANDLE), (getF v 1 3 ≠ 1 && getF v 1 3 ≠ 2, cFORMAT)]
    let s := s.setFld a 8 8 code
    if code ≠ cDONE then s
    else if was = 1 then s.loopTake a v
    else { s with loopHops := s.loopHops ++ bridgeHops d e }.loopTake a v
  else if was = 1 then { s with loopHops := (bridgeHops d e).foldl List.erase s.loopHops }.loopOff a v
  else s.loopOff a v

def execFdBridgeLoopWrite (who : Accessor) (die : Fin 64) (e : Fin 4) (v : Word) (s : State) : Answer :=
  .next (if s.mayWrite who (aHub die.val (0x600 + 8 * e.val)) then s.bridgeLoop die.val e.val v else s)

/-! ## Trace (R486, R487) -/

/-- Low 32 bits of the impression count have reached START. -/
def State.traceDue (s : State) (d : Nat) : Bool := (s.tick + 2 ^ 32 - s.fld (aHub d 0x800) 32 32) % 2 ^ 32 < 2 ^ 31

/-- A write of `FD_TRACE_CTL`: capture with START 0 begins at once. -/
def State.traceCtl (s : State) (d : Nat) (v : Word) : State :=
  let a := aHub d 0x800
  let on := s.fld a 0 1
  let s := s.wr a (writeFlds (regFlds a) (s.rd a) v (maskF 0 64))
  if getF v 0 1 = 0 then s.modDie d fun b => { b with traceOn := false }
  else if on = 0 ∧ getF v 32 32 = 0 then s.modDie d fun b => { b with traceOn := true }
  else s

/-- Only PF0 and the colophons write it. -/
def execFdTraceCtlWrite (who : Accessor) (die : Fin 64) (v : Word) (s : State) : Answer :=
  .next (if s.mayManage who (aHub die.val 0x800) then s.traceCtl die.val v else s)

def execTraceStart (die : Fin 64) (s : State) : Answer :=
  .next (if s.powered && s.fld (aHub die.val 0x800) 0 1 = 1 && s.traceDue die.val then
    s.modDie die.val fun b => { b with traceOn := true } else s)

/-! ## JTAG (R489) -/

/-- An instruction in force: 0 BYPASS, 1 IDCODE, 2 SAMPLE/PRELOAD, 3 EXTEST, 4 CLAMP, 5 HIGHZ. -/
def State.jtagIr (s : State) (ir : Nat) : State := { s with jtag := { s.jtag with ir := ir } }

/-- The bypass register captures 0. -/
def execBypass (s : State) : Answer := .next (if s.powered then (s.jtagIr 0).emit (.jtag 0) else s)

/-- The identity code. -/
def State.idcode (s : State) : Nat :=
  1 + Config.jedecId.toNat * 2 + 0x4A40 * 2 ^ 12 + (if s.fuses.stepping = 0xB0 then 2 else 1) * 2 ^ 28

def execIdcode (s : State) : Answer := .next (if s.powered then (s.jtagIr 1).emit (.jtag s.idcode) else s)

/-- The lands are sampled into the boundary cells. -/
def execSamplePreload (lands : List Bool) (s : State) : Answer :=
  .next (if s.powered then { s with jtag := ⟨2, lands, s.jtag.lands⟩ } else s)

/-- EXTEST, CLAMP and HIGHZ act only before step 4 of power-on, else as BYPASS. Here the lands are driven from the cells. -/
def execExtest (s : State) : Answer :=
  .next (if !s.powered then s
    else if s.fld aBoot 0 3 < 4 then { s with jtag := { s.jtag with ir := 3, lands := s.jtag.cells } } else s.jtagIr 0)

/-- The lands hold what the cells drive, and the bypass register shifts. -/
def execClamp (s : State) : Answer :=
  .next (if !s.powered then s
    else if s.fld aBoot 0 3 < 4 then { s with jtag := { s.jtag with ir := 4, lands := s.jtag.cells } } else s.jtagIr 0)

/-- The lands are released. -/
def execHighz (s : State) : Answer :=
  .next (if !s.powered then s
    else if s.fld aBoot 0 3 < 4 then { s with jtag := { s.jtag with ir := 5, lands := [] } } else s.jtagIr 0)

end Sys2Proof.Machine
end

