-- ==== Sys2Proof/Machine/Protocols.lean ====
section
/-! DEFINITION. Management protocols (R465, R466): I3C common command codes, MCTP control, PLDM. Completion codes and formats that the
spec leaves to the standards are theirs (PRESUMED, log 47); bytes it does not give are free (log 12). -/

namespace Sys2Proof.Machine

/-! ## Who answers (R429, R430, R456, R465) -/

/-- A hand-over of the primary colophon is in progress. -/
def State.handingOver (s : State) : Bool :=
  match s.handover with | some t => decide (s.tick < t + 12500000) | none => false

/-- The colophon of quoin q runs, and is not being restarted. -/
def State.colophonRuns (s : State) (q : Nat) : Bool :=
  q ∉ s.colophonStopped && match s.fwRestarting with | some (x, _) => x ≠ q | none => true

/-- The package answers management requests. -/
def State.managed (s : State) : Bool :=
  s.powered && !s.romServes && !s.handingOver && s.colophonRuns s.primary

/-- The I3C target answers: only while the Q0 colophon is primary. -/
def State.i3cUp (s : State) : Bool := s.managed && s.primary = 0

/-- The target has the dynamic address `a`. -/
def State.i3cAt (s : State) (a : BitVec 7) : Bool := s.i3cUp && s.mgmt.dynAddr = some a

/-- A message that came by `via` is answered. -/
def State.answers (s : State) (via : MgmtVia) : Bool :=
  match via with
  | .i3c => s.i3cUp && s.mgmt.dynAddr.isSome
  | .pcie b => s.managed && s.linkUp b.val && match s.fwRestarting with | some (x, _) => x ≠ portQuoin b.val | none => true

def State.modMgmt (s : State) (f : Mgmt → Mgmt) : State := { s with mgmt := f s.mgmt }

/-- An answer with the fields that the spec gives. -/
def State.tell (s : State) (proto : Nat) (via : MgmtVia) (name : String) (code : Nat) (fields : List Nat) : State :=
  s.emit (.mgmt proto via name code fields [])

/-- An answer whose remaining bytes are another standard's. -/
def State.tellOpen (s : State) (proto : Nat) (via : MgmtVia) (name : String) (code : Nat) (fields : List Nat) : State :=
  let (bs, s) := s.drawBytes
  s.emit (.mgmt proto via name code fields bs)

/-- A request acts where it is answered. -/
def State.whenAnswered (s : State) (via : MgmtVia) (f : State → State) : State := if s.answers via then f s else s

/-! ## I3C common command codes -/

def execEnec (events : BitVec 8) (s : State) : Answer :=
  .next (if s.i3cUp then s.modMgmt fun m => { m with events := m.events ||| events } else s)

def execDisec (events : BitVec 8) (s : State) : Answer :=
  .next (if s.i3cUp then s.modMgmt fun m => { m with events := m.events &&& ~~~events } else s)

/-- The dynamic address is dropped. -/
def execRstdaa (s : State) : Answer := .next (if s.i3cUp then s.modMgmt fun m => { m with dynAddr := none } else s)

/-- A target without a dynamic address takes one. -/
def execEntdaa (addr : BitVec 7) (s : State) : Answer :=
  .next (if s.i3cUp && s.mgmt.dynAddr.isNone then s.modMgmt fun m => { m with dynAddr := some addr } else s)

/-- From the static address on the strap lands. -/
def execSetdasa (static addr : BitVec 7) (s : State) : Answer :=
  .next (if s.i3cUp && s.mgmt.dynAddr.isNone && s.mgmt.staticAddr = static then
    s.modMgmt fun m => { m with dynAddr := some addr } else s)

def execSetnewda (old addr : BitVec 7) (s : State) : Answer :=
  .next (if s.i3cAt old then s.modMgmt fun m => { m with dynAddr := some addr } else s)

/-- An answer to a directed read. -/
def State.i3cSay (s : State) (a : BitVec 7) (name : String) : State := if s.i3cAt a then s.tellOpen 0 .i3c name 0 [] else s

def execGetpid (addr : BitVec 7) (s : State) : Answer := .next (s.i3cSay addr "GETPID")
def execGetbcr (addr : BitVec 7) (s : State) : Answer := .next (s.i3cSay addr "GETBCR")
def execGetdcr (addr : BitVec 7) (s : State) : Answer := .next (s.i3cSay addr "GETDCR")
def execGetstatus (addr : BitVec 7) (s : State) : Answer := .next (s.i3cSay addr "GETSTATUS")

def execGetmwl (addr : BitVec 7) (s : State) : Answer :=
  .next (if s.i3cAt addr then s.tell 0 .i3c "GETMWL" 0 [s.mgmt.mwl.toNat] else s)

def execGetmrl (addr : BitVec 7) (s : State) : Answer :=
  .next (if s.i3cAt addr then s.tell 0 .i3c "GETMRL" 0 [s.mgmt.mrl.toNat, s.mgmt.ibi.toNat] else s)

def execSetmwl (len : BitVec 16) (s : State) : Answer :=
  .next (if s.i3cUp then s.modMgmt fun m => { m with mwl := len } else s)

def execSetmrl (len : BitVec 16) (ibi : BitVec 8) (s : State) : Answer :=
  .next (if s.i3cUp then s.modMgmt fun m => { m with mrl := len, ibi := ibi } else s)

/-- The action that the next target reset pattern takes. -/
def execRstact (action : BitVec 8) (s : State) : Answer :=
  .next (if s.i3cUp then s.modMgmt fun m => { m with rstAction := action } else s)

/-! ## MCTP control: one endpoint ID, shared by both bindings -/

/-- Identifiers 0 and 0xFF are nobody's. -/
def idOk (x : BitVec 8) : Bool := x ≠ 0 && x ≠ 0xFF#8

def execSetEndpointId (via : MgmtVia) (eid : BitVec 8) (s : State) : Answer :=
  .next (s.whenAnswered via fun s =>
    if idOk eid then (s.modMgmt fun m => { m with eid := eid }).tell 1 via "Set Endpoint ID" 0 [eid.toNat]
    else s.tell 1 via "Set Endpoint ID" 2 [])

def execGetEndpointId (via : MgmtVia) (s : State) : Answer :=
  .next (s.whenAnswered via fun s => s.tell 1 via "Get Endpoint ID" 0 [s.mgmt.eid.toNat])

def execGetEndpointUuid (via : MgmtVia) (s : State) : Answer :=
  .next (s.whenAnswered via fun s => s.tellOpen 1 via "Get Endpoint UUID" 0 [])

/-- Message types: control, PLDM, SPDM, secured messages. -/
def mctpTypes : List Nat := [0, 1, 5, 6]

def execGetMctpVersionSupport (via : MgmtVia) (typ : BitVec 8) (s : State) : Answer :=
  .next (s.whenAnswered via fun s =>
    if typ.toNat ∈ 0xFF :: mctpTypes then s.tellOpen 1 via "Get MCTP Version Support" 0 []
    else s.tell 1 via "Get MCTP Version Support" 0x80 [])

def execGetMessageTypeSupport (via : MgmtVia) (s : State) : Answer :=
  .next (s.whenAnswered via fun s => s.tell 1 via "Get Message Type Support" 0 mctpTypes)

/-! ## PLDM base (type 0) -/

def pldmTypes : List Nat := [0, 2, 3, 5]

def execGetTid (via : MgmtVia) (s : State) : Answer :=
  .next (s.whenAnswered via fun s => s.tell 2 via "GetTID" 0 [s.mgmt.tid.toNat])

def execSetTid (via : MgmtVia) (tid : BitVec 8) (s : State) : Answer :=
  .next (s.whenAnswered via fun s =>
    if idOk tid then (s.modMgmt fun m => { m with tid := tid }).tell 2 via "SetTID" 0 [] else s.tell 2 via "SetTID" 2 [])

def execGetPldmVersion (via : MgmtVia) (typ : BitVec 8) (s : State) : Answer :=
  .next (s.whenAnswered via fun s =>
    if typ.toNat ∈ pldmTypes then s.tellOpen 2 via "GetPLDMVersion" 0 [] else s.tell 2 via "GetPLDMVersion" 0x83 [])

def execGetPldmTypes (via : MgmtVia) (s : State) : Answer :=
  .next (s.whenAnswered via fun s => s.tell 2 via "GetPLDMTypes" 0 pldmTypes)

def execGetPldmCommands (via : MgmtVia) (typ : BitVec 8) (s : State) : Answer :=
  .next (s.whenAnswered via fun s =>
    if typ.toNat ∈ pldmTypes then s.tellOpen 2 via "GetPLDMCommands" 0 [] else s.tell 2 via "GetPLDMCommands" 0x83 [])

/-! ## PLDM platform monitoring (type 2, R466) -/

def execGetPdrRepositoryInfo (via : MgmtVia) (s : State) : Answer :=
  .next (s.whenAnswered via fun s => s.tellOpen 2 via "GetPDRRepositoryInfo" 0 [])

/-- Which records the repository holds, and under which handles, the spec does not state. -/
def execGetPdr (via : MgmtVia) (record : BitVec 32) (s : State) : Answer :=
  .next (s.whenAnswered via fun s =>
    let (v, s) := s.draw
    s.tellOpen 2 via "GetPDR" (v.toNat % 256) [record.toNat])

/-- A sensor's reading: 0 to 67 Tmax of each die in 0.25 °C, 68 the input power in mW, 69 the 12 V input in mV, 70 the input
energy in mJ (the numbers are the model's, log 48). -/
def State.sensorValue (s : State) (n : Nat) : Option Nat :=
  if n < 68 then some (s.fld (aMgt (0x100 + 8 * n)) 0 12)
  else if n = 68 then some s.thermal.power
  else if n = 69 then some s.thermal.vin
  else if n = 70 then some (s.rd (aMgt 0x58)).toNat
  else none

def execGetSensorReading (via : MgmtVia) (sensor : BitVec 16) (s : State) : Answer :=
  .next (s.whenAnswered via fun s => match s.sensorValue sensor.toNat with
    | some v => s.tell 2 via "GetSensorReading" 0 [v]
    | none => s.tell 2 via "GetSensorReading" 0x80 [])

/-- Effecter 0 is the cap limit in units of 10 W, 1 the host rate code (the numbers are the model's, log 48). -/
def execGetNumericEffecterValue (via : MgmtVia) (effecter : BitVec 16) (s : State) : Answer :=
  .next (s.whenAnswered via fun s =>
    if effecter = 0 then s.tell 2 via "GetNumericEffecterValue" 0 [s.fld (aMgt 0x10) 0 7]
    else if effecter = 1 then s.tell 2 via "GetNumericEffecterValue" 0 [s.hostCeil]
    else s.tell 2 via "GetNumericEffecterValue" 0x80 [])

/-- The completion code of an effecter write that left `status` in its register. -/
def effecterCode (status : Nat) : Nat := if status = cDONE then 0 else 2

/-- A write acts as a write of `MGT_CAP.LIMIT`, or of `MGT_RATE_REQ` with TICK 0. -/
def execSetNumericEffecterValue (via : MgmtVia) (effecter : BitVec 16) (value : BitVec 32) (s : State) : Answer :=
  .next (s.whenAnswered via fun s =>
    if effecter = 0 then
      let s := s.capWrite value.toNat
      s.tell 2 via "SetNumericEffecterValue" (effecterCode (s.fld (aMgt 0x10) 24 8)) []
    else if effecter = 1 then
      let s := s.rateReq value.toNat 0
      s.tell 2 via "SetNumericEffecterValue" (effecterCode (s.fld (aMgt 0x20) 8 8)) []
    else s.tell 2 via "SetNumericEffecterValue" 0x80 [])

def execSetEventReceiver (via : MgmtVia) (enable : Bool) (eid : BitVec 8) (s : State) : Answer :=
  .next (s.whenAnswered via fun s =>
    (s.modMgmt fun m => { m with receiver := if enable then some eid else none }).tell 2 via "SetEventReceiver" 0 [])

/-! ## PLDM BIOS control (type 3, R474) -/

def execGetDateTime (via : MgmtVia) (s : State) : Answer :=
  .next (s.whenAnswered via fun s => s.tell 2 via "GetDateTime" 0 [(s.rd (aMgt 0x30)).toNat])

def execSetDateTime (via : MgmtVia) (seconds : Word) (s : State) : Answer :=
  .next (s.whenAnswered via fun s => (s.setCalendar seconds).tell 2 via "SetDateTime" 0 [])

/-! ## PLDM firmware update (type 5, R466) -/

def execQueryDeviceIdentifiers (via : MgmtVia) (s : State) : Answer :=
  .next (s.whenAnswered via fun s => s.tellOpen 2 via "QueryDeviceIdentifiers" 0 [])

/-- The versions that run and that NOR holds. -/
def execGetFirmwareParameters (via : MgmtVia) (s : State) : Answer :=
  .next (s.whenAnswered via fun s =>
    s.tellOpen 2 via "GetFirmwareParameters" 0 [s.fld (aFw 0x10) 0 32, s.fld (aFw 0x10) 32 32])

def State.setUpdate (s : State) (n : Nat) : State := s.modMgmt fun m => { m with update := n }

/-- An update through `MGT_FW_CTRL` is under way: a command runs, or an image is staged and not committed. -/
def State.fwBusy (s : State) : Bool := s.fld (aFw 0) 32 1 = 1 || s.fld (aFw 0) 33 2 = 1

/-- A request of an update at a stage that allows it; else the code for its stage. -/
def State.updAt (s : State) (via : MgmtVia) (name : String) (stages : List Nat) (f : State → State) : State :=
  s.whenAnswered via fun s =>
    if s.mgmt.update = 0 then s.tell 2 via name 0x80 []
    else if s.mgmt.update ∈ stages then f s else s.tell 2 via name 0x84 []

/-- One update at a time, of either kind. -/
def execRequestUpdate (via : MgmtVia) (s : State) : Answer :=
  .next (s.whenAnswered via fun s =>
    if s.mgmt.update ≠ 0 then s.tell 2 via "RequestUpdate" 0x81 []
    else if s.fwBusy then s.tell 2 via "RequestUpdate" 4 []
    else (s.modMgmt fun m => { m with update := 1, updSize := 0, updBytes := [] }).tell 2 via "RequestUpdate" 0 [])

/-- The package has one component, the firmware image. -/
def execPassComponentTable (via : MgmtVia) (component : BitVec 16) (s : State) : Answer :=
  .next (s.updAt via "PassComponentTable" [1] fun s => (s.setUpdate 2).tell 2 via "PassComponentTable" 0 [component.toNat])

/-- The transfer begins: the package asks for the image. -/
def execUpdateComponent (via : MgmtVia) (component : BitVec 16) (size : BitVec 32) (s : State) : Answer :=
  .next (s.updAt via "UpdateComponent" [2] fun s =>
    ((s.modMgmt fun m => { m with update := 3, updSize := size.toNat, updBytes := [] }).tell 2 via "UpdateComponent" 0
      [component.toNat]).tell 2 via "RequestFirmwareData" 0 [0, size.toNat])

/-- Bytes of the image that the package asked for. -/
def execRequestFirmwareData (via : MgmtVia) (bytes : List Byte) (s : State) : Answer :=
  .next (s.updAt via "RequestFirmwareData" [3] fun s =>
    let all := s.mgmt.updBytes ++ bytes
    if s.mgmt.updSize < all.length then s
    else
      let s := s.modMgmt fun m => { m with updBytes := all }
      if all.length < s.mgmt.updSize then s.tell 2 via "RequestFirmwareData" 0 [all.length, s.mgmt.updSize - all.length] else s)

/-- The transfer has ended: the image is staged. -/
def execTransferComplete (via : MgmtVia) (s : State) : Answer :=
  .next (s.updAt via "TransferComplete" [3] fun s =>
    if s.mgmt.updBytes.length ≠ s.mgmt.updSize then s
    else ({ s with fwStaged := some s.mgmt.updBytes }.setUpdate 4).tell 2 via "TransferComplete" 0 [])

/-- The signature check of STAGE is reported; a good image is then committed. -/
def execVerifyComplete (via : MgmtVia) (s : State) : Answer :=
  .next (s.updAt via "VerifyComplete" [4] fun s =>
    let img := s.mgmt.updBytes
    if s.fwSigned img then
      ((((s.setFld (aFw 0) 33 2 1).fwSays cDONE).fwToNor img).setUpdate 5).tell 2 via "VerifyComplete" 0 []
    else (({ s with fwStaged := none }.fwSays cDIGEST).setUpdate 2).tell 2 via "VerifyComplete" 1 [])

/-- COMMIT has ended. -/
def execApplyComplete (via : MgmtVia) (s : State) : Answer :=
  .next (s.updAt via "ApplyComplete" [5] fun s =>
    if s.fld (aFw 0) 32 1 = 1 then s
    else if s.fld (aFw 0) 34 1 = 1 then (s.setUpdate 6).tell 2 via "ApplyComplete" 0 []
    else (s.setUpdate 2).tell 2 via "ApplyComplete" 1 [])

/-- ACTIVATE with PART 0xFF, and the update is over. -/
def execActivateFirmware (via : MgmtVia) (s : State) : Answer :=
  .next (s.updAt via "ActivateFirmware" [6] fun s =>
    (((s.setFld (aFw 0) 16 8 0xFF).fwActivate).setUpdate 0).tell 2 via "ActivateFirmware" 0 [])

/-- The stage of the update. -/
def execGetStatus (via : MgmtVia) (s : State) : Answer :=
  .next (s.whenAnswered via fun s => s.tell 2 via "GetStatus" 0 [s.mgmt.update])

/-- What has come of the image is dropped; a COMMIT is not undone (R430). -/
def State.dropUpdate (s : State) (n : Nat) : State :=
  let s := if s.mgmt.update = 4 then { s with fwStaged := none } else s
  s.modMgmt fun m => { m with update := n, updSize := 0, updBytes := [] }

def execCancelUpdateComponent (via : MgmtVia) (s : State) : Answer :=
  .next (s.updAt via "CancelUpdateComponent" [3, 4] fun s => (s.dropUpdate 2).tell 2 via "CancelUpdateComponent" 0 [])

def execCancelUpdate (via : MgmtVia) (s : State) : Answer :=
  .next (s.updAt via "CancelUpdate" [1, 2, 3, 4, 5, 6] fun s => (s.dropUpdate 0).tell 2 via "CancelUpdate" 0 [])

end Sys2Proof.Machine
end

