-- ==== Sys2Proof/Machine/Secure.lean ====
section
/-! DEFINITION. SPDM (R467 to R471). A responder answers on each port (DOE and MCTP over PCIe) and on I3C. Error codes are SPDM's
(PRESUMED, log 47); signatures, keys and certificates are free bytes (log 12). -/

namespace Sys2Proof.Machine

/-- The responder that a request reaches. -/
def viaKey : MgmtVia → Nat
  | .pcie b => b.val
  | .i3c => 2

def State.spdmOf (s : State) (via : MgmtVia) : Spdm := Tbl.get Spdm.reset s.spdm (viaKey via)
def State.modSpdm (s : State) (via : MgmtVia) (f : Spdm → Spdm) : State :=
  { s with spdm := Tbl.set Spdm.reset s.spdm (viaKey via) (f (s.spdmOf via)) }

def State.spdmErr (s : State) (via : MgmtVia) (code : Nat) : State := s.tell 3 via "ERROR" code []

/-- An answer beyond the data transfer size of 4,096 bytes, which carries a signature of 35,664 bytes (R469): it is read in
chunks. -/
def State.largeAnswer (s : State) (via : MgmtVia) (fields : List Nat) : State :=
  let (bs, s) := s.drawBytes
  let h := ((s.spdmOf via).outHandle + 1) % 256
  (s.modSpdm via fun x => { x with chunkOut := bs, outHandle := h, outSeq := 0 }).tell 3 via "ERROR" 0x0F (h :: fields)

/-- The chain matches its fused digest and the slot is the one filled (R469). -/
def State.slotOk (s : State) (slot : BitVec 4) : Bool := slot = 0 && s.nor.chainOk

/-- The code of a request that needs the identity: no agreement, an empty slot, or a chain that does not match. -/
def State.identCode (s : State) (via : MgmtVia) (stages : List Nat) (slot : BitVec 4) : Nat :=
  firstFail [((s.spdmOf via).stage ∉ stages, 4), (slot ≠ 0, 1), (!s.nor.chainOk, 5)]

/-- The connection begins again. Versions 1.2 and 1.3. -/
def execGetVersion (via : MgmtVia) (s : State) : Answer :=
  .next (s.whenAnswered via fun s =>
    (s.modSpdm via fun x => { x with stage := 1, chunkIn := [], inSeq := 0, chunkOut := [] }).tell 3 via "VERSION" 0 [0x12, 0x13])

/-- Data transfer size and the largest message. -/
def execGetCapabilities (via : MgmtVia) (s : State) : Answer :=
  .next (s.whenAnswered via fun s =>
    if (s.spdmOf via).stage = 1 then
      (s.modSpdm via fun x => { x with stage := 2 }).tell 3 via "CAPABILITIES" 0 [4096, 65536]
    else s.spdmErr via 4)

/-- What the requester accepts decides what it may do (R468). -/
def execNegotiateAlgorithms (via : MgmtVia) (sig kem hash aead : Bool) (s : State) : Answer :=
  .next (s.whenAnswered via fun s =>
    if (s.spdmOf via).stage = 2 then
      let n := if !(sig && hash) then 4 else if kem && aead then 3 else 5
      (s.modSpdm via fun x => { x with stage := n }).tell 3 via "ALGORITHMS" 0 [1, 2]
    else s.spdmErr via 4)

/-- Only slot 0 holds a chain. -/
def execGetDigests (via : MgmtVia) (s : State) : Answer :=
  .next (s.whenAnswered via fun s =>
    if (s.spdmOf via).stage ∈ [3, 4, 5] then s.tellOpen 3 via "DIGESTS" 0 [1] else s.spdmErr via 4)

def execGetCertificate (via : MgmtVia) (slot : BitVec 4) (offset length : BitVec 16) (s : State) : Answer :=
  .next (s.whenAnswered via fun s =>
    let code := s.identCode via [3, 4, 5] slot
    if code ≠ cDONE then s.spdmErr via code else s.tellOpen 3 via "CERTIFICATE" 0 [slot.toNat, offset.toNat, length.toNat])

def execChallenge (via : MgmtVia) (slot : BitVec 4) (_nonce : List Byte) (s : State) : Answer :=
  .next (s.whenAnswered via fun s =>
    let code := s.identCode via [3, 5] slot
    if code ≠ cDONE then s.spdmErr via code else s.largeAnswer via [slot.toNat])

/-! ## Measurements (R471) -/

/-- The fused-resource maps of R418, die by die. -/
def State.fusedMaps (s : State) : List Byte :=
  (List.range 64).flatMap fun d =>
    let n := (List.range 72).foldl (fun m c => if s.dieFused d ∨ d * 72 + c ∈ s.fuses.fusedCores then m + 2 ^ c else m) 0
    leBytes 16 n

/-- `PKG_PART_ID` (R7). -/
def State.partIdValue (s : State) : Nat :=
  s.fuses.part.toNat + s.fuses.stepping.toNat * 2 ^ 8 + s.profile * 2 ^ 16

/-- The bytes of a block that the spec gives; `none` where they are of code or records it does not lay out (free, log 12). The
order of a block's parts is that of R471 (log 49). -/
def State.blockBytes (s : State) (n : Nat) : Option (List Byte) :=
  if n = 2 then some (sha3_384 s.nor.firmware)
  else if n = 5 then some (leBytes 4 s.partIdValue ++ s.fusedMaps)
  else if n = 6 then some (s.imprintBytes ++ leBytes 4 (s.fld aImpSeq 0 32))
  else if n = 7 then some (sha3_384 (s.nor.repairs.flatMap fun r => Config.repairBytes r.kind r.resource r.stamp))
  else if 16 ≤ n ∧ n < 80 then
    let p := n - 16
    if s.ctxState p = 0 then some (List.replicate 68 0)
    else
      let x := s.part p
      some ((match x.plate with | some pl => pl.digest | none => List.replicate 32 0) ++
        leBytes 4 (s.fld (aCtx p 0x30) 32 32) ++ (match x.current with | some m => m.digest | none => List.replicate 32 0))
  else none

/-- The blocks that exist. -/
def blockExists (n : Nat) : Bool := (1 ≤ n && n ≤ 7) || (16 ≤ n && n < 80)

/-- A block's value: hashed, or raw on request. -/
def State.blockValue (s : State) (n : Nat) (raw : Bool) : List Byte × State :=
  match s.blockBytes n with
  | some bs => (if raw then bs else sha3_384 bs, s)
  | none => s.drawBytes

/-- Index 0 asks for the number of blocks, 0xFF for all of them; a signed answer needs the identity. -/
def execGetMeasurements (via : MgmtVia) (index : BitVec 8) (raw sign : Bool) (_nonce : List Byte) (s : State) : Answer :=
  .next (s.whenAnswered via fun s =>
    let n := index.toNat
    let code := if sign then s.identCode via [3, 5] 0 else firstFail [((s.spdmOf via).stage ∉ [3, 4, 5], 4)]
    if code ≠ cDONE then s.spdmErr via code
    else if n ≠ 0 ∧ n ≠ 0xFF ∧ !blockExists n then s.spdmErr via 1
    else if sign then s.largeAnswer via [n]
    else if n = 0 then s.tell 3 via "MEASUREMENTS" 0 [71]
    else if n = 0xFF then s.tellOpen 3 via "MEASUREMENTS" 0 [n]
    else
      let (bs, s) := s.blockValue n raw
      s.emit (.mgmt 3 via "MEASUREMENTS" 0 [n] bs))

/-! ## Sessions (R467, R468) -/

/-- Up to 4 sessions on each port. -/
def execKeyExchange (via : MgmtVia) (slot : BitVec 4) (_encapKey : List Byte) (s : State) : Answer :=
  .next (s.whenAnswered via fun s =>
    let x := s.spdmOf via
    let code := s.identCode via [3] slot
    if code ≠ cDONE then s.spdmErr via code
    else if 4 ≤ x.sessions.length then s.spdmErr via 0x0A
    else
      (s.modSpdm via fun x => { x with
        sessions := x.sessions ++ [⟨BitVec.ofNat 32 x.nextSession, false⟩], nextSession := x.nextSession + 1 }).largeAnswer via
        [x.nextSession])

def Spdm.session (x : Spdm) (id : BitVec 32) : Option Session := x.sessions.find? fun y => y.id = id

/-- A request within an established session. -/
def State.inSession (s : State) (via : MgmtVia) (id : BitVec 32) (f : State → State) : State :=
  s.whenAnswered via fun s =>
    match (s.spdmOf via).session id with
    | some y => if y.established then f s else s.spdmErr via 0x0B
    | none => s.spdmErr via 0x0B

/-- The check of the requester's MAC is of keys that the model does not hold: its outcome is free (log 11). -/
def execFinish (via : MgmtVia) (session : BitVec 32) (_mac : List Byte) (s : State) : Answer :=
  .next (s.whenAnswered via fun s =>
    match (s.spdmOf via).session session with
    | none => s.spdmErr via 0x0B
    | some y =>
      if y.established then s.spdmErr via 4
      else
        let (v, s) := s.draw
        if v.getLsbD 0 then
          (s.modSpdm via fun x => { x with
            sessions := x.sessions.map fun (z : Session) => if z.id = session then { z with established := true } else z }).tell
            3 via "FINISH_RSP" 0 []
        else (s.modSpdm via fun x => { x with sessions := x.sessions.filter fun z => z.id ≠ session }).spdmErr via 6)

def execHeartbeat (via : MgmtVia) (session : BitVec 32) (s : State) : Answer :=
  .next (s.inSession via session fun s => s.tell 3 via "HEARTBEAT_ACK" 0 [])

/-- UpdateKey, UpdateAllKeys and VerifyNewKey. -/
def execKeyUpdate (via : MgmtVia) (session : BitVec 32) (op : BitVec 8) (s : State) : Answer :=
  .next (s.inSession via session fun s =>
    if 1 ≤ op.toNat ∧ op.toNat ≤ 3 then s.tell 3 via "KEY_UPDATE_ACK" 0 [op.toNat] else s.spdmErr via 1)

def execEndSession (via : MgmtVia) (session : BitVec 32) (s : State) : Answer :=
  .next (s.inSession via session fun s =>
    (s.modSpdm via fun x => { x with sessions := x.sessions.filter fun z => z.id ≠ session }).tell 3 via "END_SESSION_ACK" 0 [])

/-- IDE_KM: keys of the port's IDE stream, which are PCI Express's. -/
def execVendorDefinedRequest (via : MgmtVia) (session : BitVec 32) (_bytes : List Byte) (s : State) : Answer :=
  .next (s.inSession via session fun s => s.tellOpen 3 via "VENDOR_DEFINED_RESPONSE" 0 [])

/-! ## Chunks (R467) -/

/-- Part of a request; the largest message is 64 KiB. The answer to a whole request comes with the last acknowledgement. -/
def execChunkSend (via : MgmtVia) (handle : BitVec 8) (seq : BitVec 16) (last : Bool) (bytes : List Byte) (s : State) : Answer :=
  .next (s.whenAnswered via fun s =>
    let x := s.spdmOf via
    let first : Bool := seq = 0
    let all := (if first then [] else x.chunkIn) ++ bytes
    let drop := fun (s : State) => s.modSpdm via fun x => { x with chunkIn := [], inSeq := 0 }
    if !first ∧ (seq.toNat ≠ x.inSeq ∨ handle.toNat ≠ x.inHandle) then (drop s).spdmErr via 1
    else if 65536 < all.length then (drop s).spdmErr via 0x0E
    else if last then (drop s).tellOpen 3 via "CHUNK_SEND_ACK" 0 [handle.toNat, seq.toNat]
    else (s.modSpdm via fun x => { x with chunkIn := all, inHandle := handle.toNat, inSeq := seq.toNat + 1 }).tell
      3 via "CHUNK_SEND_ACK" 0 [handle.toNat, seq.toNat])

/-- The next part of a large answer. -/
def execChunkGet (via : MgmtVia) (handle : BitVec 8) (seq : BitVec 16) (s : State) : Answer :=
  .next (s.whenAnswered via fun s =>
    let x := s.spdmOf via
    if handle.toNat ≠ x.outHandle ∨ seq.toNat ≠ x.outSeq then s.spdmErr via 1
    else
      let part := x.chunkOut.take 4096
      (s.modSpdm via fun x => { x with chunkOut := x.chunkOut.drop 4096, outSeq := x.outSeq + 1 }).emit
        (.mgmt 3 via "CHUNK_RESPONSE" 0 [handle.toNat, seq.toNat, if x.chunkOut.length ≤ 4096 then 1 else 0] part))

end Sys2Proof.Machine
end

