-- ==== Sys2Proof/Machine/Control.lean ====
section
/-! DEFINITION. The control space as it is read and written (R10, R11, R87, R88, R180, R248, R385, R387, R411, R515): what each
register shows, what a plain write does, and raw accesses by CTRL packets. -/

namespace Sys2Proof.Machine

/-! ## What registers show -/

/-- `n` bits of a list of conditions, as a number. -/
def maskOf (n : Nat) (f : Nat → Bool) : Nat := (List.range n).foldl (fun m i => if f i then m + 2 ^ i else m) 0

def nat64 (n : Nat) : Word := BitVec.ofNat 64 n

/-- A core's window (R88, R180, R190, R275). LATE of a `CORE_QSTAT` reads 0 while FAIL_VALID is 0. -/
def State.coreView (s : State) (k o : Nat) : Word :=
  let c := s.core k
  let v := s.rd (aCoreK k o)
  if o = 0x200 then putF v 10 1 (if s.handleBusy k (getF v 0 8) then 1 else 0)
  else if o = 0x400 then nat64 (if c.armed then 1 else 0)
  else if o = 0x408 then nat64 ((if c.run then 1 else 0) + (if c.late then 2 else 0) + c.haltCode * 2 ^ 8 +
    c.haltAddr.toNat * 2 ^ 16 + c.haltDepth * 2 ^ 40)
  else if o = 0x410 then nat64 c.pc.toNat
  else if o = 0x418 then nat64 (c.codeBase.toNat + c.codeLimit.toNat * 2 ^ 32)
  else if o = 0x420 then c.startTick
  else if o = 0x428 then nat64 c.passCount
  else if o = 0x448 then nat64 c.retired
  else if 0x600 ≤ o ∧ o < 0x700 then c.rdS (BitVec.ofNat 5 ((o - 0x600) / 8))
  else if 0xC00 ≤ o ∧ o < 0xC80 then
    putF (putF v 56 8 (c.depth ((o - 0xC00) / 8))) 49 1 (getF v 48 1 * getF v 49 1)
  else if o = 0xE40 then nat64 (c.awaitSum + c.awaiting.length * 2 ^ 8)
  else v

/-- Flat cores of die d that are fused off. -/
def State.flatFused (s : State) (d c : Nat) : Bool := s.dieFused d || d * 72 + c ∈ s.fuses.fusedCores

/-- `FD_REPAIR` (R483). -/
def State.repairView (s : State) (d : Nat) : Nat :=
  let arrays := (List.range (72 * 32)).map (d * 2304 + ·)
  let hops := (List.range 4).map fun e => hopKey ⟨d, 126, e⟩
  let rows := (arrays.map fun a => Tbl.get 0 s.fuses.rowsFuse a).sum
  let lanes := (hops.map fun h => Tbl.get 0 s.fuses.lanesFuse h).sum
  let rowsSvc := (s.nor.repairs.filter fun r => r.kind = 0 && keyDie (r.resource / 2 ^ 30) = d).length
  let lanesSvc := (s.nor.repairs.filter fun r => r.kind = 6 && (bridgeOf r.resource).1 = d).length
  let free := (arrays.filter fun a => s.usable (a / 32)).foldl (fun m a => min m (s.freeSpares a)) 16
  rows % 2 ^ 16 + rowsSvc % 2 ^ 16 * 2 ^ 16 + lanes % 256 * 2 ^ 32 + lanesSvc % 256 * 2 ^ 40 + free * 2 ^ 48

/-- A die hub's window (R315, R418, R483). -/
def State.hubView (s : State) (d o : Nat) : Word :=
  let v := s.rd (aHub d o)
  let use := fun c => s.usable (d * 72 + c)
  let count := fun g => ((List.range 18).filter fun c => use (g * 18 + c)).length
  if o = 0x400 then nat64 (s.rate + (match s.rateArm with | some a => a.1 * 2 ^ 6 + 2 ^ 12 | none => 0) +
    (if s.capFactor < 64 then 2 ^ 13 else 0) + (if 4096 < (s.die d).demand * s.capFactor then 2 ^ 14 else 0))
  else if o = 0x500 then nat64 (maskOf 64 use)
  else if o = 0x508 then nat64 (maskOf 8 (fun c => use (64 + c)) + count 0 * 2 ^ 8 + count 1 * 2 ^ 13 + count 2 * 2 ^ 18 +
    count 3 * 2 ^ 23 + (if s.dieFused d then 2 ^ 28 else 0) + (if s.dieFenced d then 2 ^ 29 else 0))
  else if o = 0x510 then nat64 (maskOf 64 (s.flatFused d))
  else if o = 0x518 then nat64 (maskOf 8 fun c => s.flatFused d (64 + c))
  else if o = 0x520 then nat64 (s.repairView d)
  else v

/-- The package log: the record whose SEQ has its place, while it is among the latest 4,096 (R455). -/
def State.logView (s : State) (o : Nat) : Word :=
  match s.errLog.find? fun r => r.1 % 4096 = o / 64 with
  | some r => nat64 (leAt r.2 (o % 64) 8)
  | none => 0

/-- A quoin's window (R302, R411, R476): the colophon registers lie in the primary's, and `MGT_STATUS` in all. -/
def State.quoinView (s : State) (q o : Nat) : Word :=
  if 0x30000 ≤ o ∧ o < 0x40000 then
    if o = 0x30000 ∨ q = s.primary then s.rd (aMgt (o - 0x30000)) else 0
  else
    let v := s.rd (quoinBase q + o)
    let p := [0, 2, 6, 8].getD q 0 + (o - 0x10000) / 0x1000
    if 0x10000 ≤ o ∧ o < 0x14000 ∧ o % 0x1000 = 8 then putF v 7 1 (if s.portFused p then 1 else 0)
    else if o = 0x40010 then
      let x := s.pport (if q = 0 then 0 else 1)
      nat64 (x.heldBytes + x.retained.length * 2 ^ 32)
    else v

/-- The BAR2 register at `a` (R382, R386, R411): PENDING of `HOST_FAB_STAT` counts writes whose ACK is to come, and the table shows
a vector's mask bit (log 112). -/
def State.bar2View (s : State) (a : Nat) : Word :=
  let k := a % 0x10000
  let v := s.rd a
  if k = 0x2010 then
    putF v 16 16 ((s.aperture.filter fun x => !x.isRead && s.bar2 (x.fn / 64) (x.fn % 64) k = a).length)
  else if 0x4000 ≤ k ∧ k < 0x4200 ∧ k % 16 = 8 then v ^^^ maskF 32 1
  else v

/-- What the 8-byte register at `a` shows; a write-only field reads as zero (R11). -/
def State.readReg (s : State) (a : Nat) : Word :=
  let o := a % 0x100000
  let v :=
    if a = aPartId then nat64 s.partIdValue
    else if a = aTick then nat64 s.tick
    else if aErrLog ≤ a ∧ a < aErrLog + 0x40000 then s.logView (a - aErrLog)
    else if a < 0x400000 then s.rd a
    else if a < 0x800000 then s.quoinView (a / 0x100000 - 4) o
    else if folioBase 0 ≤ a ∧ a < folioBase 64 then
      let d := (a - folioBase 0) / 0x100000
      if o < 0x10000 then s.hubView d o
      else if 0x20000 ≤ o ∧ o < 0xB0000 then s.coreView (d * 72 + (o - 0x20000) / 0x2000) (o % 0x2000)
      else s.rd a
    else if 0x80000000 ≤ a then s.bar2View a
    else s.rd a
  v &&& ~~~(accMask .wo (regFlds a))

/-! ## Writes (R11) -/

/-- Byte lanes of an access of 4 or 8 bytes, and its value in them. -/
def laneMask (off : Nat) (size8 : Bool) : Word := if size8 then maskF 0 64 else if off % 8 = 4 then maskF 32 32 else maskF 0 32
def laneValue (off : Nat) (size8 : Bool) (v : Word) : Word :=
  if size8 then v else if off % 8 = 4 then (v &&& maskF 0 32) <<< 32 else v &&& maskF 0 32

/-- A register that only holds its fields. -/
def State.plainWrite (s : State) (a : Nat) (v m : Word) : State := s.wr a (writeFlds (regFlds a) (s.rd a) v m)

/-- The whole word that a write stands for: its own lanes, and beside them the RW fields as they are. -/
def State.wholeWord (s : State) (a : Nat) (v m : Word) : Word :=
  ((s.readReg a &&& accMask .rw (regFlds a)) &&& ~~~m) ||| (v &&& m)

/-- The recorded journal is read from its first entry, in place of what has been read of another (R324). -/
def State.journalStart (s : State) (p : Nat) : State :=
  let mine := fun (r : HRead) => match r.why with | .journal q _ => decide (q = p) | _ => false
  let s := [0, 1].foldl (fun s b => s.modPport b fun x => { x with reads := x.reads.filter fun r => !mine r }) s
  ((s.wr (aJnl p 0x30) 0).modPart p fun q => { q with recorded := [] }).journalRead p 0

/-- Journal registers of partition p (R325): all but TAIL and the W1C bits are fixed while its context runs. In replay mode the
recorded journal is read when the mode is set, and again when its place or its length changes (DEDUCED, log 35). -/
def State.jnlWrite (s : State) (p k : Nat) (v m : Word) : State :=
  let a := aJnl p k
  let running : Bool := s.ctxState p = 4
  let old := s.rd a
  let s := if k = 0 then s.plainWrite a v (if running then m &&& maskF 2 2 else m)
    else if running && k ≠ 0x18 then s
    else s.plainWrite a v m
  let moved : Bool := (k = 0 && (getF old 1 1 ≠ s.fld a 1 1 || getF old 8 8 ≠ s.fld a 8 8)) || (k ∈ [0x20, 0x28] && old ≠ s.rd a)
  if s.fld (aJnl p 0) 1 1 = 1 && moved then s.journalStart p else s

/-- `PKG_CTX_CTRL` (R356). A LOAD needs the bytes it reads, which `CTX_LOAD` brings. -/
def State.ctxWrite (s : State) (p : Fin 64) (w : Word) : State :=
  let cmd := getF w 0 3
  if cmd = 1 then s
  else
    let s := s.ctxFields p.val w
    if cmd = 2 then s.arm p.val
    else if cmd = 3 then s.stop p.val
    else if cmd = 4 then (s.ctxSays p.val cDONE).startReset (.partition p) false
    else if cmd = 5 then s.inputOrHold p.val (.commit (BitVec.ofNat 32 (s.fld (aCtx p.val 0x30) 0 32)))
      (BitVec.ofNat 32 (s.fld (aCtx p.val 0x38) 0 32))
    else if cmd = 6 then s.abandon p.val
    else s

/-- `PKG_EFX_CTRL` (R377). A STAGE needs the bytes it reads, which `EFX_STAGE` brings. -/
def State.efxWrite (s : State) (who : Accessor) (w : Word) : State :=
  let cmd := getF w 0 3
  if cmd = 1 then s
  else if cmd = 2 then s.efxCommand who w State.activate
  else if cmd = 3 then s.efxCommand who w fun s => s.unstage.efxSays cDONE
  else if s.mayManage who aEfxCtrl then s.setFld aEfxCtrl 8 8 (getF w 8 8)
  else s

/-- An error ring (R455): setting EN sets HEAD and TAIL to 0. -/
def State.errRingWrite (s : State) (p k : Nat) (v m : Word) : State :=
  let was := s.fld (aErrRing p 0) 0 1
  let s := s.plainWrite (aErrRing p k) v m
  if k = 0 ∧ was = 0 ∧ s.fld (aErrRing p 0) 0 1 = 1 then (s.wr (aErrRing p 0x10) 0).wr (aErrRing p 0x18) 0 else s

/-- A ring's registers (R391): its places are fixed while EN is 1. -/
def State.ringWrite (s : State) (r k : Nat) (v m : Word) : State :=
  if k = 0x10 then s.ringCfg r (s.wholeWord (aRing r k) v m)
  else if s.ringEn r && (k = 0 || k = 8 || k = 0x18) then s
  else s.plainWrite (aRing r k) v m

/-- The package block. -/
def State.pkgWrite (s : State) (who : Accessor) (a : Nat) (v m : Word) : State :=
  let w := s.wholeWord a v m
  if a = aRateNext then s.rateNext w
  else if a = aEfxCtrl then s.efxWrite who w
  else if a = aEfxSrc ∨ a = aEfxTick then (if s.mayManage who a then s.plainWrite a v m else s)
  else if a = aPkgReset then (if s.mayManage who a then s.pkgReset w else s)
  else if 0x2000 ≤ a ∧ a < 0x3000 then s.jnlWrite ((a - 0x2000) / 0x40) (a % 0x40) v m
  else if 0x3000 ≤ a ∧ a < 0x4000 then
    (if h : (a - 0x3000) / 0x40 < 64 then
      (if a % 0x40 = 0 then s.ctxWrite ⟨(a - 0x3000) / 0x40, h⟩ w else s.plainWrite a v m) else s)
  else if 0x4000 ≤ a ∧ a < 0xC000 then
    let p := (a - 0x4000) / 0x200
    s.inputOrHold p (.slotWord ((a - 0x4000) % 0x200 / 8) w) (BitVec.ofNat 32 (s.fld (aCtx p 0x38) 0 32))
  else if 0xC000 ≤ a ∧ a < 0xC200 then
    (if h : (a - 0xC000) / 8 < 64 then (if s.mayManage who a then s.partReset ⟨(a - 0xC000) / 8, h⟩ w else s) else s)
  else if 0xD000 ≤ a ∧ a < 0xE040 then s.errRingWrite ((a - 0xD000) / 0x40) (a % 0x40) v m
  else if 0x100000 ≤ a ∧ a < 0x200000 then s.ringWrite ((a - 0x100000) / 64) (a % 64) v m
  else s.plainWrite a v m

/-- `MGT_FW_CTRL` (R431). A STAGE needs the bytes it reads, which `FW_STAGE` brings. -/
def State.fwWrite (s : State) (who : Accessor) (w : Word) : State :=
  let cmd := getF w 0 3
  let late := fun (f : State → State) (s : State) => if s.romServes then s.fwSays cHANDLE else f s
  if cmd = 1 then s
  else if cmd = 2 then s.fwCommand who w (late State.fwCommit)
  else if cmd = 3 then s.fwCommand who w (late State.fwActivate)
  else if cmd = 4 then s.fwCommand who w (late State.fwDiscard)
  else if s.mayManage who (aFw 0) then s.setFld (aFw 0) 8 16 (getF w 8 16)
  else s

/-- The colophon registers, at their offset `k` (R476). -/
def State.mgtWrite (s : State) (who : Accessor) (k : Nat) (w : Word) : State :=
  if !s.mayManage who (aMgt k) then s
  else if k = 0x08 then s.mgtCtrl w
  else if k = 0x10 then s.capWrite (getF w 0 7)
  else if k = 0x20 then s.rateReq (getF w 0 6) (getF w 24 40)
  else if k = 0x30 then s.setCalendar w
  else s

/-- `RNN_LBK` (R478): setting GEN clears the counts. -/
def State.lbkWrite (s : State) (a : Nat) (v m : Word) : State :=
  let s := s.plainWrite a v m
  s.genTake a (s.fld a 4 1)

/-- `HOST_PORT_CTRL` (R410, R411). -/
def State.portCtrlWrite (s : State) (b : Nat) (w : Word) : State :=
  let s := s.setFld (aPort b 8) 0 1 (getF w 0 1)
  if getF w 1 1 = 1 then s.failback b else s

/-- Quoin q's window. -/
def State.quoinWrite (s : State) (who : Accessor) (q o : Nat) (v m : Word) : State :=
  let a := quoinBase q + o
  let b := if q = 0 then 0 else 1
  let w := s.wholeWord a v m
  if 0x30000 ≤ o ∧ o < 0x40000 then
    (if q = s.primary then s.mgtWrite who (o - 0x30000) (s.wholeWord (aMgt (o - 0x30000)) v m) else s)
  else if regFlds a = [] then s
  else if 0x10000 ≤ o ∧ o < 0x14000 then
    let p := [0, 2, 6, 8].getD q 0 + (o - 0x10000) / 0x1000
    (if o % 0x1000 = 0 then s.rnnCtrlWrite p w else if o % 0x1000 = 0x30 then s.lbkWrite a v m else s)
  else if o = 0x20000 then s.fwWrite who w
  else if o = 0x20008 then (if s.mayManage who a then s.plainWrite a v m else s)
  else if o = 0x40008 then s.portCtrlWrite b w
  else if o = 0x40018 then s.hostLoop who b w
  else if 0x41000 ≤ o ∧ (o - 0x41000) % 0x200 = 0 then s.mirrorWrite b ((o - 0x41000) / 0x200) w
  else s.plainWrite a v m

/-- Die d's hub window. -/
def State.hubWrite (s : State) (who : Accessor) (d o : Nat) (v m : Word) : State :=
  let a := aHub d o
  let w := s.wholeWord a v m
  if 0x600 ≤ o ∧ o < 0x620 then s.bridgeLoop d ((o - 0x600) / 8) w
  else if 0x800 ≤ o ∧ o < 0x818 then
    (if !s.mayManage who a then s else if o = 0x800 then s.traceCtl d w else s.plainWrite a v m)
  else s

/-- A scalar register, while the compositor is halted (R180). -/
def State.sregWrite (s : State) (k n : Nat) (v : Word) : State :=
  if (s.core k).run ∨ n = 0 then s else s.modCore k fun c => { c with sreg := Tbl.set 0 c.sreg n v }

/-- A core's window (R88, R180). -/
def State.coreWin (s : State) (k o : Nat) (v m : Word) : State :=
  let a := aCoreK k o
  let w := s.wholeWord a v m
  if o = 0x200 then s.handleSel k w
  else if o = 0x400 then s.cmpCtrl k w
  else if o = 0x408 then (if getF (v &&& m) 1 1 = 1 then s.modCore k fun c => { c with late := false } else s)
  else if o = 0x410 then s.cmpPc k w
  else if o = 0x418 then s.cmpCode k w
  else if o = 0x420 then s.modCore k fun c => { c with startTick := w }
  else if 0x600 ≤ o ∧ o < 0x700 then s.sregWrite k ((o - 0x600) / 8) w
  else s.plainWrite a v m

/-- A write of the control-space register at `a`, a multiple of 8, under byte lanes `m`. -/
def State.regWrite (s : State) (who : Accessor) (a : Nat) (v m : Word) : State :=
  let o := a % 0x100000
  if a < 0x400000 then s.pkgWrite who a v m
  else if a < 0x800000 then s.quoinWrite who (a / 0x100000 - 4) o v m
  else if folioBase 0 ≤ a ∧ a < folioBase 64 then
    let d := (a - folioBase 0) / 0x100000
    if o < 0x10000 then s.hubWrite who d o v m
    else if o < 0x14000 then
      (if h : d < 64 ∧ (o - 0x10000) / 0x1000 < 4 then
        let w := s.wholeWord a v m
        let g : Fin 4 := ⟨(o - 0x10000) / 0x1000, h.2⟩
        (if o % 0x1000 = 0 then s.glyReset ⟨d, h.1⟩ g w
         else if o % 0x1000 = 8 then s.proofWrite ⟨d, h.1⟩ g w
         else s)
      else s)
    else if 0x20000 ≤ o ∧ o < 0xB0000 then s.coreWin (d * 72 + (o - 0x20000) / 0x2000) (o % 0x2000) v m
    else s
  else s

/-! ## `REGISTER_WRITE` (R11, R385) -/

/-- A write of `size8` bytes at offset `o` of the BAR2 of function f of port b (R386). The MSI-X table is written whether or not the
function takes doorbells (R382). -/
def State.bar2Write (s : State) (b f o : Nat) (size8 : Bool) (w : Word) : State :=
  let k := o / 8 * 8
  let v := laneValue o size8 w
  let m := laneMask o size8
  let a := s.bar2 b f k
  if 0x4000 ≤ k then
    if !s.bar2Up b f then s
    else
      let s := s.plainWrite a (if k % 16 = 8 then v ^^^ maskF 32 1 else v) m
      match s.fnPart b f with | some p => s.msixPump p | none => s
  else match s.takes b f with
  | none => s
  | some p =>
    if k < 0x1000 then
      (if o ≠ k then s
       else if k % 16 = 0 then s.sqDoorbell (ringOf p (k / 16)) (getF v 0 16)
       else s.cqDoorbell (ringOf p (k / 16)) (getF v 0 16))
    else if k = 0x1008 then s.flushWrite p (s.wholeWord a v m)
    else if o = 0x2008 then
      let n := if size8 then 8 else 4
      s.fabAccess b f p n (leBytes n w.toNat) false
    else s.plainWrite a v m

/-- The control-space offset that BAR0 offset `x` reaches; none in the zero gaps (R385). -/
def bar0 (x : Nat) : Option Nat :=
  let d := (x - 0x1000000) / 0xC0000
  let w := (x - 0x1000000) % 0xC0000
  if x < 0x1000000 then some x
  else if d < 64 ∧ w < 0xB0000 then some (0x1000000 + d * 0x100000 + w)
  else none

/-- The offset by which an accessor names the control-space offset `a`: its BAR0 offset, for a function. -/
def nameOff (who : Accessor) (a : Nat) : Nat :=
  match who with
  | .func _ _ => if a < 0x1000000 then a else 0x1000000 + (a - 0x1000000) / 0x100000 * 0xC0000 + (a - 0x1000000) % 0x100000
  | _ => a

/-- The control-space offset of an access at `o`: a function's lies in BAR0, of 64 MiB (R384, R385). -/
def ctlOff (who : Accessor) (o : Nat) : Option Nat :=
  match who with
  | .func _ _ => if o < 0x4000000 then bar0 o else none
  | _ => some o

/-- A host's write to a core of a running context is one of its inputs (R321): the core. -/
def State.hostInput (s : State) (who : Accessor) (a : Nat) : Option (Nat × Nat) :=
  match who, coreWinKey a with
  | .func _ _, some k => if s.partOfKey k < 64 ∧ s.ctxState (s.partOfKey k) = 4 then some (s.partOfKey k, k) else none
  | _, _ => none

/-- The entry of such a write: SEED with the seed that it leaves, or HOSTWRITE with a digest of the bytes. -/
def State.journalWrite (s : State) (p k a n : Nat) (v x m : Word) : State :=
  let src := keyDie k * 128 + keyFlat k
  if a = aCoreK k 0x2C0 then s.journal p 5 false src ((s.rd a &&& ~~~m) ||| (x &&& m)).toNat
  else s.journal p 4 true src (digest128 (leBytes n v.toNat))

/-- A naturally aligned access. -/
def alignedAccess (off : Nat) (size8 : Bool) : Bool := if size8 then off % 8 = 0 else off % 4 = 0

/-- A host's write of a register takes its effect, and its journal entry where it is an input. -/
def State.hostRegDone (s : State) (who : Accessor) (off : Nat) (size8 : Bool) (v : Word) : State :=
  let a := off / 8 * 8
  let x := laneValue off size8 v
  let m := laneMask off size8
  match s.hostInput who a with
  | none => s.regWrite who a x m
  | some (p, k) => (s.journalWrite p k a (if size8 then 8 else 4) v x m).regWrite who a x m

/-- A write that an accessor's view admits. One into a running context waits while replay mode holds inputs back (R324). -/
def State.hostRegWrite (s : State) (who : Accessor) (off : Nat) (size8 : Bool) (v : Word) : State :=
  match s.hostInput who (off / 8 * 8) with
  | some (p, _) => if s.mustWait p then s.holdBack p (.reg who off size8 v) else s.hostRegDone who off size8 v
  | none => s.hostRegDone who off size8 v

/-- The function whose BAR2 holds the offset (log 16). -/
def bar2Owner (off : Nat) (who : Accessor) : Option (Nat × Nat) :=
  match who with
  | .func b f => if aBar2 b.val f.val 0 ≤ off ∧ off < aBar2 b.val f.val 0 + 0x10000 then some (b.val, f.val) else none
  | _ => none

def execRegisterWrite (who : Accessor) (off : BitVec 32) (size8 : Bool) (v : Word) (s : State) : Answer :=
  let o := off.toNat
  .next (if !s.powered || !alignedAccess o size8 then s
    else match bar2Owner o who, ctlOff who o with
    | some (b, f), _ => s.bar2Write b f (o % 0x10000) size8 v
    | _, some a => if s.mayAccess who (a / 8 * 8) true then s.hostRegWrite who a size8 v else s
    | _, none => s)

/-! ## What a host reads (R384 to R387, R488) -/

/-- The 16 bytes of a trace record (R486). -/
def TraceRec.bytes (r : TraceRec) : List Byte :=
  leBytes 8 (r.beat + r.core * 2 ^ 32 + r.queue * 2 ^ 39 + r.event * 2 ^ 43 + r.status.toNat * 2 ^ 48) ++ leBytes 8 r.arg

/-- The byte at offset `o` of BAR4 of PF0, the debug window: the repair log, the trace buffers, and zero elsewhere (R488). -/
def State.debugByte (s : State) (o : Nat) : Byte :=
  if o < 0x100000 then (s.nor.repairs.flatMap fun r => Config.repairBytes r.kind r.resource r.stamp).getD o 0
  else if 0x400000 ≤ o ∧ o < 0x800000 then
    match (s.die ((o - 0x400000) / 0x10000)).trace[o % 0x10000 / 16]? with
    | some r => r.bytes.getD (o % 16) 0
    | none => 0
  else 0

/-- The 8 bytes of BAR0, BAR2 or BAR4 of function f of port b that hold the byte at `o`: BAR2 of a mirror shows its primary's, BAR4
is PF0's, and no write changes it. BAR2 and BAR4 lie above the control space (log 16). -/
def State.hostReads (s : State) (b : Fin 2) (f : Fin 64) (o : Nat) : Word :=
  let who : Accessor := .func b f
  let dbg := 0xC0000000 + b.val * 0x1000000
  if (s.fnCfg b.val f.val).d3 then 0
  else if dbg ≤ o ∧ o < dbg + 0x1000000 then
    (if f.val = 0 then nat64 (leNat ((List.range 8).map fun i => s.debugByte ((o - dbg) / 8 * 8 + i))) else 0)
  else match bar2Owner o who, ctlOff who o with
  | some _, _ => s.readReg (s.bar2 b.val f.val (o % 0x10000 / 8 * 8))
  | _, some a => if s.mayAccess who (a / 8 * 8) false then s.readReg (a / 8 * 8) else 0
  | _, none => 0

/-! ## Raw accesses (R87, R216, R221, R248, R404, R515) -/

/-- What the destination of a CTRL packet is, with the offset in it. -/
inductive RawPlace where
  | window (a : Nat)
  | flags (k off : Nat)
  | pools (k off : Nat)
  | bytes (a : Nat)
  | nowhere
deriving DecidableEq, Repr

/-- The place of `n` bytes at a fabric address: within one of the ranges of R87 and R248, or nowhere. -/
def rawPlace (daddr n : Nat) : RawPlace :=
  let die := bits daddr 35 7
  let off := bits daddr 0 26
  let space := bits daddr 26 2
  let hub : Bool := bits daddr 33 2 = 0 && bits daddr 28 5 = 31
  let inR := fun (lo hi : Nat) => decide (lo ≤ off ∧ off + n ≤ hi)
  if isCoreAt daddr then
    if space ≠ 3 then .nowhere
    else if inR 0 0x2000 then .window (aCoreK (keyAt daddr) off)
    else if inR 0x100000 0x100400 then .flags (keyAt daddr) (off - 0x100000)
    else if inR 0x110000 0x110100 then .pools (keyAt daddr) (off - 0x110000)
    else if inR 0x200000 0x210000 then .bytes (coreAddr (keyAt daddr) 3 off)
    else .nowhere
  else if !hub then .nowhere
  else if die < 64 then
    if space = 0 && inR 0 0x400000 then .bytes (storeAddr die off)
    else if space = 3 && inR 0 0x10000 then .window (aHub die off)
    else .nowhere
  else if die < 68 && space = 3 && inR 0 0x100000 then .window (quoinBase (die - 64) + off)
  else .nowhere

/-- Who a CTRL packet comes from: PF0 of the port whose bridge sent it, for a window that only PF0 reaches by the aperture
(R404). -/
def State.ctrlSender (s : State) (p : Packet) : Accessor :=
  match s.bridgeAt (kSRC p) with
  | some b => if isCoreAt (kDADDR p) then .fabric else if b = 0 then .func 0 0 else .func 1 0
  | none => .fabric

/-- Pieces of `n` bytes at `off`: 8 bytes where they are aligned and left, else 4. -/
def rawPieces : Nat → Nat → Nat → List (Nat × Nat)
  | 0, _, _ => []
  | f + 1, off, n =>
    if n < 4 then []
    else if off % 8 = 0 ∧ 8 ≤ n then (off, 8) :: rawPieces f (off + 8) (n - 8)
    else (off, 4) :: rawPieces f (off + 4) (n - 4)

/-- One flag replaced (R216). -/
def State.flagWrite (s : State) (k f v : Nat) : State :=
  s.modCore k fun c => ({ c with flags := Tbl.set 0 c.flags f (BitVec.ofNat 32 v), census := 0 } : Core).latch s.tick

/-- One piece of a raw write. -/
def State.rawWrite (s : State) (who : Accessor) (x : RawPlace) (bs : List Byte) (e : Nat × Nat) (base : Nat) : State :=
  let v := leAt bs (e.1 - base) e.2
  let size8 : Bool := e.2 = 8
  match x with
  | .window _ =>
    let a := e.1 / 8 * 8
    if s.mayWrite who a then s.regWrite who a (laneValue e.1 size8 (nat64 v)) (laneMask e.1 size8) else s
  | .flags k _ =>
    let s := s.flagWrite k (e.1 / 4) (v % 2 ^ 32)
    if size8 then s.flagWrite k (e.1 / 4 + 1) (v / 2 ^ 32) else s
  | .pools k _ => s.poolWrite k (e.1 / 8) (laneValue e.1 size8 (nat64 v)) (laneMask e.1 size8)
  | _ => s

/-- The 8 bytes at a multiple of 8. -/
def State.rawWord (s : State) (x : RawPlace) (o : Nat) : Word :=
  match x with
  | .window _ => s.readReg o
  | .flags k _ => nat64 (((s.core k).flag (o / 4)).toNat + ((s.core k).flag (o / 4 + 1)).toNat * 2 ^ 32)
  | .pools k _ => ((s.core k).pool (o / 8)).word
  | _ => 0

def rawOff : RawPlace → Nat
  | .window a => a
  | .flags _ o => o
  | .pools _ o => o
  | .bytes a => a
  | .nowhere => 0

/-- A raw write of `bs`. -/
def State.rawStore (s : State) (who : Accessor) (x : RawPlace) (bs : List Byte) : State :=
  match x with
  | .bytes a => { s with mem := writeMem s.mem a bs }
  | _ => (rawPieces bs.length (rawOff x) bs.length).foldl (fun s e => s.rawWrite who x bs e (rawOff x)) s

/-- A raw read of `n` bytes. -/
def State.rawLoad (s : State) (x : RawPlace) (n : Nat) : List Byte :=
  match x with
  | .bytes a => readMem s.mem a n
  | _ => (rawPieces n (rawOff x) n).flatMap fun e =>
      let w := s.rawWord x (e.1 / 8 * 8)
      leBytes e.2 (if e.1 % 8 = 4 then w.toNat / 2 ^ 32 else w.toNat)

/-- The access is one of registers that does not fall on 4-byte boundaries. -/
def rawSkewed (x : RawPlace) (n : Nat) : Bool :=
  match x with
  | .bytes _ => false
  | _ => rawOff x % 4 ≠ 0 || n % 4 ≠ 0

/-- The address is in the program store of a die whose galleys are fused off, which is not available (R3): its hub absorbs the
access as a fused-off core's cluster does (R274; DEDUCED, log 108). -/
def State.storeFused (s : State) (daddr : Nat) : Bool :=
  match endpOf daddr with | .hub d => bits daddr 26 2 = 0 && s.dieFused d | _ => false

/-- A CTRL packet at its endpoint. -/
def State.ctrlAct (s : State) (p : Packet) : State :=
  let n := kSPAN p
  let x := rawPlace (kDADDR p) n
  let s := s.landed p
  let s := if isCoreAt (kDADDR p) then s.touch (keyAt (kDADDR p)) else s
  if s.storeFused (kDADDR p) then s.ackWith p cABSORBED
  else if x = .nowhere || rawSkewed x n || 1024 < n then s.refusePacket p cEXTENT
  else if isRead p then s.answer p tyRDRSP cDONE 0 (s.rawLoad x n) 0
  else (s.rawStore (s.ctrlSender p) x p.payload).ackWith p cDONE

def execCtrlRawAccess (p : Packet) (s : State) : Answer :=
  .next (if !s.arrives p || kTYPE p ≠ tyCTRL then s else if packetOk p then s.ctrlAct p else s.discard p)

end Sys2Proof.Machine
end

