-- ==== Sys2Proof/Machine/Dispatch.lean ====
section
/-! DEFINITION. The command table: one arm per command, each one call of its meaning. -/

namespace Sys2Proof.Machine

def exec (i : Instr) (s : State) : Host.Outcome State Fault Refusal :=
  match i with
  | .nop c rz => Sys2Proof.Machine.execNop c rz s
  | .alu c rd ra rb rz fn => Sys2Proof.Machine.execAlu c rd ra rb rz fn s
  | .addi c rd ra imm => Sys2Proof.Machine.execAddi c rd ra imm s
  | .andi c rd ra imm => Sys2Proof.Machine.execAndi c rd ra imm s
  | .ori c rd ra imm => Sys2Proof.Machine.execOri c rd ra imm s
  | .xori c rd ra imm => Sys2Proof.Machine.execXori c rd ra imm s
  | .shi c rd ra imm => Sys2Proof.Machine.execShi c rd ra imm s
  | .li c rd imm => Sys2Proof.Machine.execLi c rd imm s
  | .lis c rd rz imm => Sys2Proof.Machine.execLis c rd rz imm s
  | .cmp c pd cond ra rb rz => Sys2Proof.Machine.execCmp c pd cond ra rb rz s
  | .cmpi c pd cond ra imm => Sys2Proof.Machine.execCmpi c pd cond ra imm s
  | .plog c pd pa pb fn rz => Sys2Proof.Machine.execPlog c pd pa pb fn rz s
  | .pbit c pd ra rb rz => Sys2Proof.Machine.execPbit c pd ra rb rz s
  | .prd c rd rz => Sys2Proof.Machine.execPrd c rd rz s
  | .br c p neg off => Sys2Proof.Machine.execBr c p neg off s
  | .jr c p neg rz1 ra rz => Sys2Proof.Machine.execJr c p neg rz1 ra rz s
  | .jal c rd imm => Sys2Proof.Machine.execJal c rd imm s
  | .loop c n rz body => Sys2Proof.Machine.execLoop c n rz body s
  | .setlc c n rz1 ra rz => Sys2Proof.Machine.execSetlc c n rz1 ra rz s
  | .getlc c rd rz n => Sys2Proof.Machine.execGetlc c rd rz n s
  | .liter c rd rz level => Sys2Proof.Machine.execLiter c rd rz level s
  | .sld c rd ra handle imm => Sys2Proof.Machine.execSld c rd ra handle imm s
  | .sst c rs ra handle imm => Sys2Proof.Machine.execSst c rs ra handle imm s
  | .slotw c rd ra rz => Sys2Proof.Machine.execSlotw c rd ra rz s
  | .pass c rz => Sys2Proof.Machine.execPass c rz s
  | .cwait c pd ra rb flag rz => Sys2Proof.Machine.execCwait c pd ra rb flag rz s
  | .cwaitArrival c => Sys2Proof.Machine.execCwaitArrival c s
  | .cwaitTimeout c => Sys2Proof.Machine.execCwaitTimeout c s
  | .tick c rd rz => Sys2Proof.Machine.execTick c rd rz s
  | .push c p neg queue template sb rz => Sys2Proof.Machine.execPush c p neg queue template sb rz s
  | .pushStallEnd c => Sys2Proof.Machine.execPushStallEnd c s
  | .prime c ra rz count => Sys2Proof.Machine.execPrime c ra rz count s
  | .halt c rz => Sys2Proof.Machine.execHalt c rz s
  | .icacheLineFill c line bad => Sys2Proof.Machine.execIcacheLineFill c line bad s
  | .compositorBegin c => Sys2Proof.Machine.execCompositorBegin c s
  | .cmpCtrlStart c v => Sys2Proof.Machine.execCmpCtrlStart c v s
  | .cmpCtrlStop c v => Sys2Proof.Machine.execCmpCtrlStop c v s
  | .cmpPcWrite c v => Sys2Proof.Machine.execCmpPcWrite c v s
  | .cmpCodeWrite c v => Sys2Proof.Machine.execCmpCodeWrite c v s
  | .handleSelLoad c v => Sys2Proof.Machine.execHandleSelLoad c v s
  | .handleSelInstall c v => Sys2Proof.Machine.execHandleSelInstall c v s
  | .creditPoolWrite c pool v => Sys2Proof.Machine.execCreditPoolWrite c pool v s
  | .registerWrite who off size8 v => Sys2Proof.Machine.execRegisterWrite who off size8 v s
  | .commandIssue c e par => Sys2Proof.Machine.execCommandIssue c e par s
  | .commandComplete c q => Sys2Proof.Machine.execCommandComplete c q s
  | .skipSignal c q => Sys2Proof.Machine.execSkipSignal c q s
  | .matvec c q bad => Sys2Proof.Machine.execMatvec c q bad s
  | .kvAppend c q bad => Sys2Proof.Machine.execKvAppend c q bad s
  | .attScore c q bad => Sys2Proof.Machine.execAttScore c q bad s
  | .attApply c q bad => Sys2Proof.Machine.execAttApply c q bad s
  | .brSetlen c q => Sys2Proof.Machine.execBrSetlen c q s
  | .brAdd c q bad => Sys2Proof.Machine.execBrAdd c q bad s
  | .brSub c q bad => Sys2Proof.Machine.execBrSub c q bad s
  | .brMul c q bad => Sys2Proof.Machine.execBrMul c q bad s
  | .brFma c q bad => Sys2Proof.Machine.execBrFma c q bad s
  | .brMax c q bad => Sys2Proof.Machine.execBrMax c q bad s
  | .brMin c q bad => Sys2Proof.Machine.execBrMin c q bad s
  | .brAbs c q bad => Sys2Proof.Machine.execBrAbs c q bad s
  | .brNeg c q bad => Sys2Proof.Machine.execBrNeg c q bad s
  | .brCopy c q bad => Sys2Proof.Machine.execBrCopy c q bad s
  | .brRope c q bad => Sys2Proof.Machine.execBrRope c q bad s
  | .brExp2 c q bad => Sys2Proof.Machine.execBrExp2 c q bad s
  | .brRcp c q bad => Sys2Proof.Machine.execBrRcp c q bad s
  | .brRsqrt c q bad => Sys2Proof.Machine.execBrRsqrt c q bad s
  | .brLogistic c q bad => Sys2Proof.Machine.execBrLogistic c q bad s
  | .brSilu c q bad => Sys2Proof.Machine.execBrSilu c q bad s
  | .brGelu c q bad => Sys2Proof.Machine.execBrGelu c q bad s
  | .brWiden c q bad => Sys2Proof.Machine.execBrWiden c q bad s
  | .brNarrow c q bad => Sys2Proof.Machine.execBrNarrow c q bad s
  | .brLd c q bad => Sys2Proof.Machine.execBrLd c q bad s
  | .brSt c q bad => Sys2Proof.Machine.execBrSt c q bad s
  | .brCvt c q bad => Sys2Proof.Machine.execBrCvt c q bad s
  | .brQuant c q bad => Sys2Proof.Machine.execBrQuant c q bad s
  | .brRsum c q bad => Sys2Proof.Machine.execBrRsum c q bad s
  | .brRsumsq c q bad => Sys2Proof.Machine.execBrRsumsq c q bad s
  | .brRdot c q bad => Sys2Proof.Machine.execBrRdot c q bad s
  | .brRmax c q bad => Sys2Proof.Machine.execBrRmax c q bad s
  | .brArgmax c q bad => Sys2Proof.Machine.execBrArgmax c q bad s
  | .brSample c q bad => Sys2Proof.Machine.execBrSample c q bad s
  | .copy c q bad => Sys2Proof.Machine.execCopy c q bad s
  | .write c q bad peerCredits => Sys2Proof.Machine.execWrite c q bad peerCredits s
  | .writeAck c q bad peerCredits => Sys2Proof.Machine.execWriteAck c q bad peerCredits s
  | .accWrite c q bad peerCredits => Sys2Proof.Machine.execAccWrite c q bad peerCredits s
  | .read c q => Sys2Proof.Machine.execRead c q s
  | .hostWrite c q bad => Sys2Proof.Machine.execHostWrite c q bad s
  | .hostRead c q => Sys2Proof.Machine.execHostRead c q s
  | .hostFlush c q => Sys2Proof.Machine.execHostFlush c q s
  | .hostPost c q bad => Sys2Proof.Machine.execHostPost c q bad s
  | .circuitOpen c q => Sys2Proof.Machine.execCircuitOpen c q s
  | .circuitClose c q => Sys2Proof.Machine.execCircuitClose c q s
  | .signal c q => Sys2Proof.Machine.execSignal c q s
  | .wait c q => Sys2Proof.Machine.execWait c q s
  | .waitArrival c q => Sys2Proof.Machine.execWaitArrival c q s
  | .waitTimeout c q => Sys2Proof.Machine.execWaitTimeout c q s
  | .handleWrite c q bad => Sys2Proof.Machine.execHandleWrite c q bad s
  | .editionFence c q bad => Sys2Proof.Machine.execEditionFence c q bad s
  | .creditRequest c dh src txid => Sys2Proof.Machine.execCreditRequest c dh src txid s
  | .creditGrant src txid epoch code => Sys2Proof.Machine.execCreditGrant src txid epoch code s
  | .creditReturn c pool epoch => Sys2Proof.Machine.execCreditReturn c pool epoch s
  | .writeSegment p => Sys2Proof.Machine.execWriteSegment p s
  | .accPacket p => Sys2Proof.Machine.execAccPacket p s
  | .rdreq p bad => Sys2Proof.Machine.execRdreq p bad s
  | .rdrsp p => Sys2Proof.Machine.execRdrsp p s
  | .ack p => Sys2Proof.Machine.execAck p s
  | .flagPacket p => Sys2Proof.Machine.execFlagPacket p s
  | .flaggedPacketRelease c => Sys2Proof.Machine.execFlaggedPacketRelease c s
  | .copen src circ => Sys2Proof.Machine.execCopen src circ s
  | .cclose src circ => Sys2Proof.Machine.execCclose src circ s
  | .ctrlRawAccess p => Sys2Proof.Machine.execCtrlRawAccess p s
  | .hellboxAbsorb p => Sys2Proof.Machine.execHellboxAbsorb p s
  | .hopRetry h n held => Sys2Proof.Machine.execHopRetry h n held s
  | .circuitBreak c circ why => Sys2Proof.Machine.execCircuitBreak c circ why s
  | .censusFreeze c => Sys2Proof.Machine.execCensusFreeze c s
  | .ronnenFlitRx port cw again => Sys2Proof.Machine.execRonnenFlitRx port cw again s
  | .ronnenNak port ackseq => Sys2Proof.Machine.execRonnenNak port ackseq s
  | .replayTimeout port => Sys2Proof.Machine.execReplayTimeout port s
  | .ronnenTrainingStep port ok lane peerLane => Sys2Proof.Machine.execRonnenTrainingStep port ok lane peerLane s
  | .ident port pos peerPort role => Sys2Proof.Machine.execIdent port pos peerPort role s
  | .identRetry port => Sys2Proof.Machine.execIdentRetry port s
  | .rnnCtrlRetrain port => Sys2Proof.Machine.execRnnCtrlRetrain port s
  | .portDown port peerSeq => Sys2Proof.Machine.execPortDown port peerSeq s
  | .portDownRestart port => Sys2Proof.Machine.execPortDownRestart port s
  | .portHandoverTimeout port peerSeq => Sys2Proof.Machine.execPortHandoverTimeout port peerSeq s
  | .laneSwap port lane => Sys2Proof.Machine.execLaneSwap port lane s
  | .laneSwitch port => Sys2Proof.Machine.execLaneSwitch port s
  | .syncMeasurement t1 => Sys2Proof.Machine.execSyncMeasurement t1 s
  | .syncReq port t1 t2 t3 => Sys2Proof.Machine.execSyncReq port t1 t2 t3 s
  | .syncRsp port t1 t2 t3 t4 depth parentSynced child => Sys2Proof.Machine.execSyncRsp port t1 t2 t3 t4 depth parentSynced child s
  | .loopEnWrite who port v => Sys2Proof.Machine.execLoopEnWrite who port v s
  | .loopbackRequest port depth enable => Sys2Proof.Machine.execLoopbackRequest port depth enable s
  | .pkgRateNextWrite who v => Sys2Proof.Machine.execPkgRateNextWrite who v s
  | .rateChange => Sys2Proof.Machine.execRateChange s
  | .powerCapMeasure mw => Sys2Proof.Machine.execPowerCapMeasure mw s
  | .capNotHeld => Sys2Proof.Machine.execCapNotHeld s
  | .ctxLoad who p v plate manifest => Sys2Proof.Machine.execCtxLoad who p v plate manifest s
  | .ctxArm who p v => Sys2Proof.Machine.execCtxArm who p v s
  | .ctxStop who p v => Sys2Proof.Machine.execCtxStop who p v s
  | .ctxUnload who p v => Sys2Proof.Machine.execCtxUnload who p v s
  | .ctxCommit who p v => Sys2Proof.Machine.execCtxCommit who p v s
  | .ctxAbandon who p v => Sys2Proof.Machine.execCtxAbandon who p v s
  | .pkgCtxSlotmapWrite who p w v => Sys2Proof.Machine.execPkgCtxSlotmapWrite who p w v s
  | .shardData p die bytes => Sys2Proof.Machine.execShardData p die bytes s
  | .shardAttemptTimeout p die refused => Sys2Proof.Machine.execShardAttemptTimeout p die refused s
  | .shardPeerRequest pos p c handle offset length => Sys2Proof.Machine.execShardPeerRequest pos p c handle offset length s
  | .loadTimeout p => Sys2Proof.Machine.execLoadTimeout p s
  | .stopDrained p => Sys2Proof.Machine.execStopDrained p s
  | .stopTimeout p => Sys2Proof.Machine.execStopTimeout p s
  | .efxStage who v img => Sys2Proof.Machine.execEfxStage who v img s
  | .efxActivate who v => Sys2Proof.Machine.execEfxActivate who v s
  | .efxDiscard who v => Sys2Proof.Machine.execEfxDiscard who v s
  | .flagHoldWindowStart => Sys2Proof.Machine.execFlagHoldWindowStart s
  | .efxisActivation => Sys2Proof.Machine.execEfxisActivation s
  | .flagHoldWindowEnd => Sys2Proof.Machine.execFlagHoldWindowEnd s
  | .censusRound => Sys2Proof.Machine.execCensusRound s
  | .censusRequest via => Sys2Proof.Machine.execCensusRequest via s
  | .censusRoundTimeout answers => Sys2Proof.Machine.execCensusRoundTimeout answers s
  | .censusResult agree disagree missing dis mis => Sys2Proof.Machine.execCensusResult agree disagree missing dis mis s
  | .sqTailDoorbell port f ring v => Sys2Proof.Machine.execSqTailDoorbell port f ring v s
  | .cqHeadDoorbell port f ring v => Sys2Proof.Machine.execCqHeadDoorbell port f ring v s
  | .sqNop ring entry => Sys2Proof.Machine.execSqNop ring entry s
  | .deliver ring entry => Sys2Proof.Machine.execDeliver ring entry s
  | .slots ring entry => Sys2Proof.Machine.execSlots ring entry s
  | .sqFetchFail ring o => Sys2Proof.Machine.execSqFetchFail ring o s
  | .ringCfgEnWrite who ring v => Sys2Proof.Machine.execRingCfgEnWrite who ring v s
  | .interruptTimer ring => Sys2Proof.Machine.execInterruptTimer ring s
  | .deliveryWriteOut port n => Sys2Proof.Machine.execDeliveryWriteOut port n s
  | .deliveryProbeRead port => Sys2Proof.Machine.execDeliveryProbeRead port s
  | .pcieCompletion port tag r => Sys2Proof.Machine.execPcieCompletion port tag r s
  | .pcieCompletionTimeout port tag => Sys2Proof.Machine.execPcieCompletionTimeout port tag s
  | .hostFlushCtl port f v => Sys2Proof.Machine.execHostFlushCtl port f v s
  | .hostFabDataWrite port f size8 v => Sys2Proof.Machine.execHostFabDataWrite port f size8 v s
  | .hostFabDataRead port f size8 => Sys2Proof.Machine.execHostFabDataRead port f size8 s
  | .hostFnMirrorWrite port f v => Sys2Proof.Machine.execHostFnMirrorWrite port f v s
  | .functionLevelReset port f => Sys2Proof.Machine.execFunctionLevelReset port f s
  | .hotReset port => Sys2Proof.Machine.execHotReset port s
  | .pcieLinkDown port surprise => Sys2Proof.Machine.execPcieLinkDown port surprise s
  | .portFailover port => Sys2Proof.Machine.execPortFailover port s
  | .failback port => Sys2Proof.Machine.execFailback port s
  | .perst port low => Sys2Proof.Machine.execPerst port low s
  | .powerGood b => Sys2Proof.Machine.execPowerGood b s
  | .powerLoss low => Sys2Proof.Machine.execPowerLoss low s
  | .refclkLoss => Sys2Proof.Machine.execRefclkLoss s
  | .glyResetCores who die g v => Sys2Proof.Machine.execGlyResetCores who die g v s
  | .glyResetGalley who die g v => Sys2Proof.Machine.execGlyResetGalley who die g v s
  | .pkgPartReset who p v => Sys2Proof.Machine.execPkgPartReset who p v s
  | .pkgReset who v => Sys2Proof.Machine.execPkgReset who v s
  | .resetDrainComplete u => Sys2Proof.Machine.execResetDrainComplete u s
  | .resetReturn u found => Sys2Proof.Machine.execResetReturn u found s
  | .fwStage who v img => Sys2Proof.Machine.execFwStage who v img s
  | .fwCommit who v => Sys2Proof.Machine.execFwCommit who v s
  | .fwActivate who v => Sys2Proof.Machine.execFwActivate who v s
  | .fwDiscard who v => Sys2Proof.Machine.execFwDiscard who v s
  | .colophonStartTimeout q => Sys2Proof.Machine.execColophonStartTimeout q s
  | .weightRowRestore c row bytes => Sys2Proof.Machine.execWeightRowRestore c row bytes s
  | .restoreBudgetExpiry c row => Sys2Proof.Machine.execRestoreBudgetExpiry c row s
  | .programStoreRestore die line r => Sys2Proof.Machine.execProgramStoreRestore die line r s
  | .errorRecordEmit => Sys2Proof.Machine.execErrorRecordEmit s
  | .faultWindowLeak => Sys2Proof.Machine.execFaultWindowLeak s
  | .colophonHandover => Sys2Proof.Machine.execColophonHandover s
  | .thermalSample temps => Sys2Proof.Machine.execThermalSample temps s
  | .throttleStep => Sys2Proof.Machine.execThrottleStep s
  | .hardwareTrip die => Sys2Proof.Machine.execHardwareTrip die s
  | .undervoltSample mv => Sys2Proof.Machine.execUndervoltSample mv s
  | .mgtCapWrite who v => Sys2Proof.Machine.execMgtCapWrite who v s
  | .mgtRateReqWrite who v => Sys2Proof.Machine.execMgtRateReqWrite who v s
  | .persist who v => Sys2Proof.Machine.execPersist who v s
  | .lifetimePersistTimer => Sys2Proof.Machine.execLifetimePersistTimer s
  | .powerdown who v => Sys2Proof.Machine.execPowerdown who v s
  | .mgtCalWrite who v => Sys2Proof.Machine.execMgtCalWrite who v s
  | .calendarSecond => Sys2Proof.Machine.execCalendarSecond s
  | .hostLoopWrite who port v => Sys2Proof.Machine.execHostLoopWrite who port v s
  | .fdBridgeLoopWrite who die e v => Sys2Proof.Machine.execFdBridgeLoopWrite who die e v s
  | .glyProofStart who die g v => Sys2Proof.Machine.execGlyProofStart who die g v s
  | .glyProofDone die g r => Sys2Proof.Machine.execGlyProofDone die g r s
  | .fdTraceCtlWrite who die v => Sys2Proof.Machine.execFdTraceCtlWrite who die v s
  | .traceStart die => Sys2Proof.Machine.execTraceStart die s
  | .bypass => Sys2Proof.Machine.execBypass s
  | .idcode => Sys2Proof.Machine.execIdcode s
  | .samplePreload lands => Sys2Proof.Machine.execSamplePreload lands s
  | .extest => Sys2Proof.Machine.execExtest s
  | .clamp => Sys2Proof.Machine.execClamp s
  | .highz => Sys2Proof.Machine.execHighz s
  | .enec events => Sys2Proof.Machine.execEnec events s
  | .disec events => Sys2Proof.Machine.execDisec events s
  | .rstdaa => Sys2Proof.Machine.execRstdaa s
  | .entdaa addr => Sys2Proof.Machine.execEntdaa addr s
  | .setdasa static addr => Sys2Proof.Machine.execSetdasa static addr s
  | .setnewda old addr => Sys2Proof.Machine.execSetnewda old addr s
  | .getpid addr => Sys2Proof.Machine.execGetpid addr s
  | .getbcr addr => Sys2Proof.Machine.execGetbcr addr s
  | .getdcr addr => Sys2Proof.Machine.execGetdcr addr s
  | .getstatus addr => Sys2Proof.Machine.execGetstatus addr s
  | .getmwl addr => Sys2Proof.Machine.execGetmwl addr s
  | .getmrl addr => Sys2Proof.Machine.execGetmrl addr s
  | .setmwl len => Sys2Proof.Machine.execSetmwl len s
  | .setmrl len ibi => Sys2Proof.Machine.execSetmrl len ibi s
  | .rstact action => Sys2Proof.Machine.execRstact action s
  | .setEndpointId via eid => Sys2Proof.Machine.execSetEndpointId via eid s
  | .getEndpointId via => Sys2Proof.Machine.execGetEndpointId via s
  | .getEndpointUuid via => Sys2Proof.Machine.execGetEndpointUuid via s
  | .getMctpVersionSupport via typ => Sys2Proof.Machine.execGetMctpVersionSupport via typ s
  | .getMessageTypeSupport via => Sys2Proof.Machine.execGetMessageTypeSupport via s
  | .getTid via => Sys2Proof.Machine.execGetTid via s
  | .setTid via tid => Sys2Proof.Machine.execSetTid via tid s
  | .getPldmVersion via typ => Sys2Proof.Machine.execGetPldmVersion via typ s
  | .getPldmTypes via => Sys2Proof.Machine.execGetPldmTypes via s
  | .getPldmCommands via typ => Sys2Proof.Machine.execGetPldmCommands via typ s
  | .getPdrRepositoryInfo via => Sys2Proof.Machine.execGetPdrRepositoryInfo via s
  | .getPdr via record => Sys2Proof.Machine.execGetPdr via record s
  | .getSensorReading via sensor => Sys2Proof.Machine.execGetSensorReading via sensor s
  | .getNumericEffecterValue via effecter => Sys2Proof.Machine.execGetNumericEffecterValue via effecter s
  | .setNumericEffecterValue via effecter value => Sys2Proof.Machine.execSetNumericEffecterValue via effecter value s
  | .setEventReceiver via enable eid => Sys2Proof.Machine.execSetEventReceiver via enable eid s
  | .getDateTime via => Sys2Proof.Machine.execGetDateTime via s
  | .setDateTime via seconds => Sys2Proof.Machine.execSetDateTime via seconds s
  | .queryDeviceIdentifiers via => Sys2Proof.Machine.execQueryDeviceIdentifiers via s
  | .getFirmwareParameters via => Sys2Proof.Machine.execGetFirmwareParameters via s
  | .requestUpdate via => Sys2Proof.Machine.execRequestUpdate via s
  | .passComponentTable via component => Sys2Proof.Machine.execPassComponentTable via component s
  | .updateComponent via component size => Sys2Proof.Machine.execUpdateComponent via component size s
  | .transferComplete via => Sys2Proof.Machine.execTransferComplete via s
  | .verifyComplete via => Sys2Proof.Machine.execVerifyComplete via s
  | .applyComplete via => Sys2Proof.Machine.execApplyComplete via s
  | .activateFirmware via => Sys2Proof.Machine.execActivateFirmware via s
  | .getStatus via => Sys2Proof.Machine.execGetStatus via s
  | .cancelUpdateComponent via => Sys2Proof.Machine.execCancelUpdateComponent via s
  | .cancelUpdate via => Sys2Proof.Machine.execCancelUpdate via s
  | .requestFirmwareData via bytes => Sys2Proof.Machine.execRequestFirmwareData via bytes s
  | .getVersion via => Sys2Proof.Machine.execGetVersion via s
  | .getCapabilities via => Sys2Proof.Machine.execGetCapabilities via s
  | .negotiateAlgorithms via sig kem hash aead => Sys2Proof.Machine.execNegotiateAlgorithms via sig kem hash aead s
  | .getDigests via => Sys2Proof.Machine.execGetDigests via s
  | .getCertificate via slot offset length => Sys2Proof.Machine.execGetCertificate via slot offset length s
  | .challenge via slot nonce => Sys2Proof.Machine.execChallenge via slot nonce s
  | .getMeasurements via index raw sign nonce => Sys2Proof.Machine.execGetMeasurements via index raw sign nonce s
  | .keyExchange via slot encapKey => Sys2Proof.Machine.execKeyExchange via slot encapKey s
  | .finish via session mac => Sys2Proof.Machine.execFinish via session mac s
  | .heartbeat via session => Sys2Proof.Machine.execHeartbeat via session s
  | .keyUpdate via session op => Sys2Proof.Machine.execKeyUpdate via session op s
  | .endSession via session => Sys2Proof.Machine.execEndSession via session s
  | .chunkSend via handle seq last bytes => Sys2Proof.Machine.execChunkSend via handle seq last bytes s
  | .chunkGet via handle seq => Sys2Proof.Machine.execChunkGet via handle seq s
  | .vendorDefinedRequest via session bytes => Sys2Proof.Machine.execVendorDefinedRequest via session bytes s
  | .droopBegins die demand => Sys2Proof.Machine.execDroopBegins die demand s
  | .droopPasses die => Sys2Proof.Machine.execDroopPasses die s
  | .symbolLockLoss port lane => Sys2Proof.Machine.execSymbolLockLoss port lane s
  | .pcieLinkUp port rate width flit => Sys2Proof.Machine.execPcieLinkUp port rate width flit s
  | .configurationRequest port f op => Sys2Proof.Machine.execConfigurationRequest port f op s
  | .pcieLaneReceiverError port lane => Sys2Proof.Machine.execPcieLaneReceiverError port lane s
  | .ageingMonitorSample die g ppm => Sys2Proof.Machine.execAgeingMonitorSample die g ppm s
  | .norWriteComplete what ok => Sys2Proof.Machine.execNorWriteComplete what ok s
  | .colophonStarted q => Sys2Proof.Machine.execColophonStarted q s

end Sys2Proof.Machine
end

