-- ==== Sys2Proof/Machine/Held.lean ====
section
/-! DEFINITION. What replay mode has held back and takes when its pass has begun (R324), and the tick that an empty queue lets
pass. -/

namespace Sys2Proof.Machine

/-- Host writes and the data of host reads, as they are taken. -/
def takeInput (x : HeldInput) (s : State) : Option State :=
  match x with
  | .reg who off size8 v => some (s.hostRegDone who off size8 v)
  | .fab b f p addr bytes => some (s.fabAt b f p addr bytes.length bytes false)
  | .read b k q seq => some (s.readGathered b k q seq)
  | _ => none

/-- What partition p may take now (DESIGN CHOICE, log 111: those that are no register inputs are taken at a tick). -/
def State.releaseHeld (s : State) (p : Nat) : State :=
  if (s.part p).held = [] then s else takeHeld p takeInput (s.part p).held s

/-- As a hand-over of the primary colophon ends, 50 ms after it began, the setpoint follows the ceilings again (R456, R464). -/
def State.handoverEnds (s : State) : State := if s.handover.any (fun t => s.tick = t + 12500000) then s.steer none else s

/-- One tick passes, and inputs whose pass has begun are taken. -/
def State.idle (s : State) : State := if s.powered then (List.range 64).foldl State.releaseHeld s.tickOn.handoverEnds else s

end Sys2Proof.Machine
end

