-- ==== Sys2Proof/WellFormed.lean ====
section
/-! DEFINITION. Well-formed commands: each operand lies in the range that the spec gives it. A field of a fixed width is
kept by its type; the checks here are the ones a type does not keep. -/

namespace Sys2Proof

/-- The queues of engine `e`: platen Q0 to Q3, brayer Q4 to Q7, move engine Q8 to Q13, sync unit Q14 and Q15 (R181). -/
def onQueue (e : Nat) (q : Fin 16) : Bool :=
  if q.val < 4 then e = 0 else if q.val < 8 then e = 1 else if q.val < 14 then e = 2 else e = 3

/-- A memory unit as LOCATION names it: 28 bits (R444). -/
def isUnit (u : Nat) : Bool := u < 2 ^ 28

/-- A packet has at most 1,024 bytes of payload (R256). -/
def Packet.wf (p : Packet) : Bool := p.payload.length ≤ 1024

/-- A hop that exists: a mesh router of a folio die, a hub router, the hub crossbar or the quoin switch (R262). -/
def Hop.wf (h : Hop) : Bool := h.die < 68 && (h.router < 72 || h.router = 126 || h.router = 127)

/-- A read that brought at most `n` bytes (a program-store section may end within a line, R441), or failed. -/
def HostRead.wf (n : Nat) : HostRead → Bool
  | .data bs => bs.length ≤ n
  | .failed _ => true

/-- No galley and no die is named twice. -/
def BringUp.wf (x : BringUp) : Bool :=
  decide (x.proof.map (·.1)).Nodup && decide (x.hubs.map (·.1)).Nodup && decide (x.again.map fun a => (a.1, a.2.1)).Nodup

def BootInput.wf (b : BootInput) : Bool := b.found.wf

/-- The checks of each command: queues of the right engine (R181), units (R444), packets (R256), hops (R262), codewords of
272 symbols of 10 bits (R282), samples of the 68 dies (R27, R459), weight rows of 128 bytes (R437), program-store lines (R176),
digests of 32 bytes (R374), demand of at least one period (R306), nonces of 32 bytes (R471). -/
def Instr.wf (i : Instr) : Bool :=
  match i with
  | .icacheLineFill _ line _ => line < 32768
  | .matvec _ q bad => onQueue 0 q && bad.all isUnit
  | .kvAppend _ q bad => onQueue 0 q && bad.all isUnit
  | .attScore _ q bad => onQueue 0 q && bad.all isUnit
  | .attApply _ q bad => onQueue 0 q && bad.all isUnit
  | .brSetlen _ q => onQueue 1 q
  | .brAdd _ q bad => onQueue 1 q && bad.all isUnit
  | .brSub _ q bad => onQueue 1 q && bad.all isUnit
  | .brMul _ q bad => onQueue 1 q && bad.all isUnit
  | .brFma _ q bad => onQueue 1 q && bad.all isUnit
  | .brMax _ q bad => onQueue 1 q && bad.all isUnit
  | .brMin _ q bad => onQueue 1 q && bad.all isUnit
  | .brAbs _ q bad => onQueue 1 q && bad.all isUnit
  | .brNeg _ q bad => onQueue 1 q && bad.all isUnit
  | .brCopy _ q bad => onQueue 1 q && bad.all isUnit
  | .brRope _ q bad => onQueue 1 q && bad.all isUnit
  | .brExp2 _ q bad => onQueue 1 q && bad.all isUnit
  | .brRcp _ q bad => onQueue 1 q && bad.all isUnit
  | .brRsqrt _ q bad => onQueue 1 q && bad.all isUnit
  | .brLogistic _ q bad => onQueue 1 q && bad.all isUnit
  | .brSilu _ q bad => onQueue 1 q && bad.all isUnit
  | .brGelu _ q bad => onQueue 1 q && bad.all isUnit
  | .brWiden _ q bad => onQueue 1 q && bad.all isUnit
  | .brNarrow _ q bad => onQueue 1 q && bad.all isUnit
  | .brLd _ q bad => onQueue 1 q && bad.all isUnit
  | .brSt _ q bad => onQueue 1 q && bad.all isUnit
  | .brCvt _ q bad => onQueue 1 q && bad.all isUnit
  | .brQuant _ q bad => onQueue 1 q && bad.all isUnit
  | .brRsum _ q bad => onQueue 1 q && bad.all isUnit
  | .brRsumsq _ q bad => onQueue 1 q && bad.all isUnit
  | .brRdot _ q bad => onQueue 1 q && bad.all isUnit
  | .brRmax _ q bad => onQueue 1 q && bad.all isUnit
  | .brArgmax _ q bad => onQueue 1 q && bad.all isUnit
  | .brSample _ q bad => onQueue 1 q && bad.all isUnit
  | .copy _ q bad => onQueue 2 q && bad.all isUnit
  | .write _ q bad _ => onQueue 2 q && bad.all isUnit
  | .writeAck _ q bad _ => onQueue 2 q && bad.all isUnit
  | .accWrite _ q bad _ => onQueue 2 q && bad.all isUnit
  | .read _ q => onQueue 2 q
  | .hostWrite _ q bad => onQueue 2 q && bad.all isUnit
  | .hostRead _ q => onQueue 2 q
  | .hostFlush _ q => onQueue 2 q
  | .hostPost _ q bad => onQueue 2 q && bad.all isUnit
  | .circuitOpen _ q => onQueue 2 q
  | .circuitClose _ q => onQueue 2 q
  | .signal _ q => onQueue 3 q
  | .wait _ q => onQueue 3 q
  | .waitArrival _ q => onQueue 3 q
  | .waitTimeout _ q => onQueue 3 q
  | .handleWrite _ q bad => onQueue 3 q && bad.all isUnit
  | .editionFence _ q bad => onQueue 3 q && bad.all isUnit
  | .writeSegment p => p.wf
  | .accPacket p => p.wf
  | .rdreq p bad => p.wf && bad.all isUnit
  | .rdrsp p => p.wf
  | .ack p => p.wf
  | .flagPacket p => p.wf
  | .ctrlRawAccess p => p.wf
  | .hellboxAbsorb p => p.wf
  | .hopRetry h _ held => h.wf && held.all Packet.wf
  | .ronnenFlitRx _ cw _ => cw.length = 272 && cw.all (· < 1024)
  | .powerCapMeasure mw => mw.length = 68
  | .censusRoundTimeout answers => answers.all (·.digest.length = 32) && decide (answers.map (·.pos)).Nodup
  | .powerGood b => b.wf
  | .resetReturn _ found => found.wf
  | .weightRowRestore _ row bytes => row < 32768 && bytes.length = 128
  | .restoreBudgetExpiry _ row => row < 32768
  | .programStoreRestore _ line d => line < 32768 && d.wf 128
  | .thermalSample temps => temps.length = 68
  | .challenge _ _ nonce => nonce.length = 32
  | .getMeasurements _ _ _ sign nonce => !sign || nonce.length = 32
  | .droopBegins _ demand => 64 ≤ demand
  | .nop .. | .alu .. | .addi .. | .andi .. | .ori .. | .xori .. | .shi .. | .li .. | .lis .. | .cmp .. | .cmpi .. | .plog ..
  | .pbit .. | .prd .. | .br .. | .jr .. | .jal .. | .loop .. | .setlc .. | .getlc .. | .liter .. | .sld .. | .sst .. | .slotw ..
  | .pass .. | .cwait .. | .cwaitArrival .. | .cwaitTimeout .. | .tick .. | .push .. | .pushStallEnd .. | .prime .. | .halt ..
  | .compositorBegin .. | .cmpCtrlStart .. | .cmpCtrlStop .. | .cmpPcWrite .. | .cmpCodeWrite .. | .handleSelLoad ..
  | .handleSelInstall .. | .creditPoolWrite .. | .registerWrite .. | .commandIssue .. | .commandComplete .. | .skipSignal ..
  | .creditRequest .. | .creditGrant .. | .creditReturn .. | .flaggedPacketRelease .. | .copen .. | .cclose .. | .circuitBreak ..
  | .censusFreeze .. | .ronnenNak .. | .replayTimeout .. | .ronnenTrainingStep .. | .ident .. | .identRetry ..
  | .rnnCtrlRetrain .. | .portDown .. | .portDownRestart .. | .portHandoverTimeout .. | .laneSwap .. | .laneSwitch ..
  | .syncMeasurement .. | .syncReq .. | .syncRsp .. | .loopEnWrite .. | .loopbackRequest .. | .pkgRateNextWrite ..
  | .rateChange .. | .capNotHeld .. | .ctxLoad .. | .ctxArm .. | .ctxStop .. | .ctxUnload .. | .ctxCommit .. | .ctxAbandon ..
  | .pkgCtxSlotmapWrite .. | .shardData .. | .shardAttemptTimeout .. | .shardPeerRequest .. | .loadTimeout .. | .stopDrained ..
  | .stopTimeout .. | .efxStage .. | .efxActivate .. | .efxDiscard .. | .flagHoldWindowStart .. | .efxisActivation ..
  | .flagHoldWindowEnd .. | .censusRound .. | .censusRequest .. | .censusResult .. | .sqTailDoorbell .. | .cqHeadDoorbell ..
  | .sqNop .. | .deliver .. | .slots .. | .sqFetchFail .. | .ringCfgEnWrite .. | .interruptTimer .. | .deliveryWriteOut ..
  | .deliveryProbeRead .. | .pcieCompletion .. | .pcieCompletionTimeout .. | .hostFlushCtl .. | .hostFabDataWrite ..
  | .hostFabDataRead .. | .hostFnMirrorWrite .. | .functionLevelReset .. | .hotReset .. | .pcieLinkDown .. | .portFailover ..
  | .failback .. | .perst .. | .powerLoss .. | .refclkLoss .. | .glyResetCores .. | .glyResetGalley .. | .pkgPartReset ..
  | .pkgReset .. | .resetDrainComplete .. | .fwStage .. | .fwCommit .. | .fwActivate .. | .fwDiscard ..
  | .colophonStartTimeout .. | .errorRecordEmit .. | .faultWindowLeak .. | .colophonHandover .. | .throttleStep ..
  | .hardwareTrip .. | .undervoltSample .. | .mgtCapWrite .. | .mgtRateReqWrite .. | .persist .. | .lifetimePersistTimer ..
  | .powerdown .. | .mgtCalWrite .. | .calendarSecond .. | .hostLoopWrite .. | .fdBridgeLoopWrite .. | .glyProofStart ..
  | .glyProofDone .. | .fdTraceCtlWrite .. | .traceStart .. | .bypass .. | .idcode .. | .samplePreload .. | .extest ..
  | .clamp .. | .highz .. | .enec .. | .disec .. | .rstdaa .. | .entdaa .. | .setdasa .. | .setnewda .. | .getpid .. | .getbcr ..
  | .getdcr .. | .getstatus .. | .getmwl .. | .getmrl .. | .setmwl .. | .setmrl .. | .rstact .. | .setEndpointId ..
  | .getEndpointId .. | .getEndpointUuid .. | .getMctpVersionSupport .. | .getMessageTypeSupport .. | .getTid .. | .setTid ..
  | .getPldmVersion .. | .getPldmTypes .. | .getPldmCommands .. | .getPdrRepositoryInfo .. | .getPdr .. | .getSensorReading ..
  | .getNumericEffecterValue .. | .setNumericEffecterValue .. | .setEventReceiver .. | .getDateTime .. | .setDateTime ..
  | .queryDeviceIdentifiers .. | .getFirmwareParameters .. | .requestUpdate .. | .passComponentTable .. | .updateComponent ..
  | .transferComplete .. | .verifyComplete .. | .applyComplete .. | .activateFirmware .. | .getStatus ..
  | .cancelUpdateComponent .. | .cancelUpdate .. | .requestFirmwareData .. | .getVersion .. | .getCapabilities ..
  | .negotiateAlgorithms .. | .getDigests .. | .getCertificate .. | .keyExchange .. | .finish .. | .heartbeat .. | .keyUpdate ..
  | .endSession .. | .chunkSend .. | .chunkGet .. | .vendorDefinedRequest .. | .droopPasses .. | .symbolLockLoss ..
  | .pcieLinkUp .. | .configurationRequest .. | .pcieLaneReceiverError .. | .ageingMonitorSample .. | .norWriteComplete ..
  | .colophonStarted .. => true

end Sys2Proof
end

