-- ==== Sys2Proof/Safety.lean ====
section
/-! DEFINITION. What a safe run is, and the canonical form of the state's memories. -/

namespace Sys2Proof.Machine

/-- A memory in canonical form: addresses strictly rising, no entry equal to what an unlisted address reads as. -/
def Memory.wf (m : List Host.Cell) : Bool := Tbl.wf (0 : Byte) m

/-- Both byte memories are in canonical form. -/
def State.memWf (s : State) : Bool := Memory.wf s.mem && Memory.wf s.tiles

/-- A step is safe where it answers a next state. -/
def State.safeStep (s : State) : Prop := ∃ t, step s = .next t

/-- A run of `n` steps from `s` ends in `t` without a fault or a refusal. -/
def State.runsTo : Nat → State → State → Prop
  | 0, s, t => s = t
  | n + 1, s, t => ∃ u, step s = .next u ∧ u.runsTo n t

/-! ## What a compositor instruction leaves (R151, R154, R160) -/

/-- Core `k` runs, unstalled and not frozen, and the word at its program counter, in its window and its cache, is `w`. -/
def State.Fetches (s : State) (k : Nat) (w : BitVec 32) : Prop :=
  s.powered = true ∧ (s.core k).ready noStall = true ∧ (s.core k).inWindow (s.core k).pc.toNat = true ∧
    ∃ bs, (s.core k).cached ((s.core k).pc.toNat / 128) = some bs ∧ w = lineWord bs ((s.core k).pc.toNat % 128)

/-- Nothing but core `k` and its requests for instruction lines differs: no byte of memory, no register of the control space,
no other core, no earlier request. -/
def State.OnlyCore (s : State) (k : Nat) (t : State) : Prop :=
  t = { s with cores := t.cores, lineQ := t.lineQ } ∧ (∀ j, j ≠ k → t.core j = s.core j) ∧
    ∃ ls, t.lineQ = s.lineQ ++ ls ∧ ∀ e ∈ ls, e.1 = k

/-- Beside the registers, the predicates, the loops, the program counter, the count of instructions, the stall and the
instruction cache, `c'` is `c`. -/
def Core.SameBut (c c' : Core) : Prop :=
  c' = { c with sreg := c'.sreg, pred := c'.pred, lc := c'.lc, loops := c'.loops, pc := c'.pc, retired := c'.retired,
                stall := c'.stall, met := c'.met, icache := c'.icache, fills := c'.fills }

/-- The instruction at `c`'s program counter is complete and execution goes on after it, through the loops that end there
(R160). -/
def Core.Advances (c c' : Core) : Prop :=
  c'.retired = c.retired + 1 ∧ c'.stall = .none ∧ c'.loops = (stepLoops c.pc.toNat c.loops).1 ∧
    c'.pc = BitVec.ofNat 22 ((stepLoops c.pc.toNat c.loops).2.getD (c.pc.toNat + 4))

/-- It is complete, and nothing beside those fields differs. -/
def Core.GoesOn (c c' : Core) : Prop := c.SameBut c' ∧ c.Advances c'

/-- Register `rd` holds `v`, but s0 holds zero; every other register, every predicate and every loop count is as it was. -/
def Core.Writes (c c' : Core) (rd : BitVec 5) (v : Word) : Prop :=
  (∀ r, c'.rdS r = if r = rd ∧ r ≠ 0 then v else c.rdS r) ∧ c'.pred = c.pred ∧ c'.lc = c.lc

/-- Predicate `pd` holds `b`, but p0 holds true; every other predicate, every register and every loop count is as it was. -/
def Core.WritesP (c c' : Core) (pd : BitVec 3) (b : Bool) : Prop :=
  (∀ p, c'.rdP p = if p = pd ∧ p ≠ 0 then b else c.rdP p) ∧ c'.sreg = c.sreg ∧ c'.lc = c.lc

/-- The command takes `s` to a state in which core `k` alone differs, having gone on with register `rd` at `v`. -/
def ScalarResult (i : Instr) (s : State) (k : Nat) (rd : BitVec 5) (v : Word) : Prop :=
  ∃ t, exec i s = .next t ∧ s.OnlyCore k t ∧ (s.core k).GoesOn (t.core k) ∧ (s.core k).Writes (t.core k) rd v

/-- The same with predicate `pd` at `b`. -/
def PredicateResult (i : Instr) (s : State) (k : Nat) (pd : BitVec 3) (b : Bool) : Prop :=
  ∃ t, exec i s = .next t ∧ s.OnlyCore k t ∧ (s.core k).GoesOn (t.core k) ∧ (s.core k).WritesP (t.core k) pd b

/-! ## What the work of an engine command leaves (R122, R182, R188) -/

/-- The next work of queue `q` of core `k` is that of `it`, of opcode `op`, which executes as `x`. -/
def State.Works (s : State) (k q op : Nat) (it : Item) (x : Exec) : Prop :=
  s.live k = true ∧ (s.core k).workItem q op = some (it, x) ∧ (s.core k).squashed q = false

/-- The command of sequence number `it.seq` in queue `q` is worked, with these codes and flags added; nothing else of the core
differs. -/
def Core.Worked (c c' : Core) (q : Nat) (it : Item) (codes : List Nat) (flags : Nat) : Prop :=
  c' = c.updExec q it.seq fun x => { x with worked := true, codes := x.codes ++ codes, flags := x.flags ||| flags }

/-- The bytes at `at'` of the memories are `bs`; every other byte is as it was. -/
def State.BytesBecome (s t : State) (at' : Nat) (bs : List Byte) : Prop :=
  (∀ i (h : i < bs.length), t.byte (at' + i) = bs[i]) ∧
    ∀ a, (a < at' ∨ at' + bs.length ≤ a) → t.byte a = s.byte a

/-- The same of the tiles of core `k`: tile `tile` from byte `off` on. -/
def State.TilesBecome (s t : State) (k tile off : Nat) (bs : List Byte) : Prop :=
  (∀ i (h : i < bs.length), Tbl.get 0 t.tiles (tileKey k tile off + i) = bs[i]) ∧
    ∀ a, (a < tileKey k tile off ∨ tileKey k tile off + bs.length ≤ a) → Tbl.get 0 t.tiles a = Tbl.get 0 s.tiles a

/-- Outside core `k` and the registers of its window that `own` names, nothing of these differs: other cores, registers, parts,
ports, packets, records, pending resets. -/
def State.OthersKept (s t : State) (k : Nat) (own : Nat → Bool) : Prop :=
  (∀ j, j ≠ k → t.core j = s.core j) ∧ (∀ a, (∀ o, own o = true → a ≠ aCoreK k o) → t.rd a = s.rd a) ∧
    t.parts = s.parts ∧ t.pports = s.pports ∧ t.rports = s.rports ∧ t.net = s.net ∧ t.creditNet = s.creditNet ∧
    t.errPend = s.errPend ∧ t.resets = s.resets ∧ t.pending = s.pending ∧ t.tick = s.tick ∧ t.nor = s.nor

/-- A command without the tick at which a `WAIT` was satisfied, which any change of a flag may set. -/
def Item.unmet (it : Item) : Item :=
  match it.phase with | .executing x => { it with phase := .executing { x with met := none } } | _ => it

/-- The command of sequence number `seq` in queue `q` completes with `code`, and every completed command at the front of the queue
leaves it and signals: LAST names the last of them, and its completion signal adds 1 to its flag (R185, R190, R212). No other queue
changes. -/
def State.Completes (s t : State) (k q seq code : Nat) : Prop :=
  ∃ st : BitVec 16, codeOf st = code % 256 ∧
    (let q' := ((s.core k).queue q).map fun i => if i.seq = seq then { i with phase := .done st } else i
     let gone := q'.takeWhile fun i => i.doneWith.isSome
     ((t.core k).queue q).map Item.unmet = (q'.drop gone.length).map Item.unmet ∧
     (∀ f, (t.core k).flag f = (s.core k).flag f +
       BitVec.ofNat 32 (gone.filter fun i => dSIG i.desc && decide (dSIGFLAG i.desc = f)).length) ∧
     ∀ i ∈ gone.getLast?, ∀ st', i.doneWith = some st' → t.fld (aQstat k q) 0 8 = codeOf st') ∧
    (∀ r, r ≠ q → ((t.core k).queue r).map Item.unmet = ((s.core k).queue r).map Item.unmet) ∧
    (∀ j, j ≠ k → t.core j = s.core j) ∧ t.mem = s.mem ∧ t.tiles = s.tiles ∧ (t.core k).sreg = (s.core k).sreg ∧
    (t.core k).pred = (s.core k).pred ∧ (t.core k).handles = (s.core k).handles ∧ (t.core k).run = (s.core k).run

/-- The end of an undamaged brayer command (R148, R149, R48): its two counters rise by elements and beats, it is worked with `codes`,
and NAR_SEEN is set where it has met a NaR. -/
def State.BrayerEndsNar (s t : State) (k q : Nat) (it : Item) (codes : List Nat) (nar : Bool) : Prop :=
  s.OthersKept t k (fun o => o = 0x180 || o = 0x2D0 || o = 0x2D8) ∧ (s.core k).Worked (t.core k) q it codes 0 ∧
    t.rd (aNumeric k) = (if nar = true then s.rd (aNumeric k) ||| 2 ^ 17 else s.rd (aNumeric k)) ∧
    t.rd (aCoreK k 0x2D8) = s.rd (aCoreK k 0x2D8) + BitVec.ofNat 64 it.blen ∧
    t.rd (aCoreK k 0x2D0) = s.rd (aCoreK k 0x2D0) + BitVec.ofNat 64 (ceilDiv it.blen (brRate it.desc))

/-- The same of a command that meets none. -/
def State.BrayerEnds (s t : State) (k q : Nat) (it : Item) (codes : List Nat) : Prop := s.BrayerEndsNar t k q it codes false

/-- The core of a worked command whose writes may have reached weight rows under restore, which stand against that restore
(R437). -/
def Core.WorkedOnRows (c c' : Core) (q : Nat) (it : Item) (codes : List Nat) : Prop :=
  ({ c with restore := c'.restore } : Core).Worked c' q it codes 0

/-- Weight rows enter the restore of core `k`, and nothing is written before they are back (R437). -/
def State.RestoreBegins (s t : State) (k : Nat) (rows : List Nat) : Prop :=
  t.mem = s.mem ∧ t.tiles = s.tiles ∧ (t.core k).fifo = (s.core k).fifo ∧ (t.core k).xfers = (s.core k).xfers ∧
    ∃ r, (t.core k).restore = some r ∧ ∀ row ∈ rows, row ∈ r.rows

/-- Element i of a tile operand of type ET as an FP32 pattern (R118, R124, R129). -/
def State.tileElem (s : State) (k : Nat) (d : Wide) (t : TOp) (i : Nat) : Nat :=
  let v := s.tileNat k t.tile ((t.off + i * t.stride) * etSize (bET d)) (etSize (bET d))
  if bET d = 0 then v else widen v

end Sys2Proof.Machine
end

