-- ==== Sys2Proof/Certificates/Slice0/Obligations.lean ====
section
/-! DEFINITION. The statements for the provers. A name in a let is local to its statement; a statement of several parts joins them. -/

open Sys2Proof Sys2Proof.Machine

/-- One step with a command at the front of the queue is that command's effect on the state that holds the queue's rest. -/
def Obligations.StepRunsFront : Prop :=
  ∀ (c : Instr) (rest : List Instr) (s : State), step { s with pending := c :: rest } = exec c { s with pending := rest }

/-- R77, R78, R239, R303, R305, R308, R309, R334, R472: on an empty queue a package with power lets one tick pass (the model's choice, log 1).
The tick itself: the impression count and the powered ticks rise by one, an armed part whose start tick has come runs, the beat counter of
a die rises by the beats that end in the tick, and nothing else moves but the dies' beats with their counters and floor records, the
cores' counters of beats spent waiting, their census counts and the marks of waiting commands, and running loop-back patterns. Inputs
that replay mark held and whose pass has begun are then taken, and the end of a hand-over steers the setpoint (log 111); where there is
neither, nothing more happens. Without power nothing happens. -/
def Obligations.IdleTick : Prop :=
  ∀ (p d : Nat) (s : State), s.pending = [] →
    (s.powered = false → step s = .next s) ∧
    (s.powered = true → ∃ t, step s = .next ((List.range 64).foldl State.releaseHeld t.handoverEnds) ∧
      t = { s with tick := s.tick + 1, ctl := t.ctl, dies := t.dies, cores := t.cores, patterns := t.patterns, free := t.free,
                   errPend := t.errPend } ∧
      ((∀ q, q < 64 → (s.part q).held = []) → (∀ h, s.handover = some h → s.tick + 1 ≠ h + 12500000) → step s = .next t) ∧
      t.rd (aMgt 0x40) = s.rd (aMgt 0x40) + 1 ∧
      (d < 64 →
        t.die d = { s.die d with phase := (s.beatsOf d).2, droop := (s.beatsOf d).1.droop, deep := (s.beatsOf d).1.deep } ∧
        t.rd (aHub d 0x418) = s.rd (aHub d 0x418) + BitVec.ofNat 64 (s.beatsOf d).1.n ∧
        t.rd (aHub d 0x410) = s.rd (aHub d 0x410) + BitVec.ofNat 64 (s.beatsOf d).1.lost) ∧
      (∀ k, { t.core k with census := 0, fifo := [] } = { s.core k with census := 0, fifo := [] } ∧
        ((t.core k).census = 0 ∨ (s.core k).census < (t.core k).census) ∧
        ∀ q, ((t.core k).queue q).map (fun i => { i with stalled := false }) =
          ((s.core k).queue q).map (fun i => { i with stalled := false })) ∧
      (p < 64 → t.ctxState p = if s.ctxState p = 3 ∧ (s.rd (aCtx p 0x20)).toNat ≤ s.tick + 1 then 4 else s.ctxState p))

/-- R7, R11, R56, R88, R216, R222, R299, R302, R315, R334, R391, R411, R427, R462, R464, R472, R476: what the machine holds after power-on:
the sequence has ended, the setpoint is 30, the cap limit 1,200 W with factor 64, the ceilings 36 and 36 and the host's 30, no context is
loaded, no ring enabled, no handle valid, no flag raised, every memory zero, no record pending, one power-on counted. -/
def Obligations.ResetValues : Prop :=
  let s := State.reset
  s.pending = [] ∧ s.powered = true ∧ s.tick = 0 ∧ s.fld aBoot 0 3 = 7 ∧ s.fld aBoot 3 1 = 0 ∧ s.rate = 30 ∧ s.rateArm = none ∧
    s.fld (aMgt 0x10) 0 7 = 120 ∧ s.capFactor = 64 ∧ s.hostCeil = 30 ∧ s.thermalCeil = 36 ∧ s.capCeil = 36 ∧ s.primary = 0 ∧
    s.norOk = true ∧ s.rd (aMgt 0x48) = 1 ∧ s.fld aEfxCtrl 24 4 = 0 ∧ s.net = [] ∧ s.errPend = [] ∧ s.errLog = [] ∧ s.resets = [] ∧
    s.fuses.part = 0x01 ∧ s.fuses.stepping = 0xA1 ∧ (∀ p, p < 64 → s.ctxState p = 0 ∧ s.edload p = 0) ∧
    (∀ r, r < 256 → s.ringEn r = false) ∧ (∀ a, s.byte a = 0) ∧
    ∀ k n, (s.core k).run = false ∧ (s.core k).armed = false ∧ hVALID ((s.core k).handle n) = false ∧ (s.core k).flag n = 0 ∧
      ((s.core k).pool n).limit = 0 ∧ ((s.core k).pool n).avail = 0

/-- The two byte memories of the state after power-on have their canonical form. -/
def Obligations.ResetCanonical : Prop :=
  State.reset.memWf = true

/-- Every step keeps the canonical form of the two byte memories. -/
def Obligations.StepKeepsMemWf : Prop :=
  ∀ s t : State, s.memWf = true → step s = .next t → t.memWf = true

/-- R475: without power nothing is measured, counted or answered: only PWRGD, and the fall of the 12 V input (which releases the trip
output), act on a package that has no power. -/
def Obligations.UnpoweredHolds : Prop :=
  ∀ (i : Instr) (s : State), s.powered = false → (∀ b, i ≠ .powerGood b) → (∀ low, i ≠ .powerLoss low) → exec i s = .next s

/-- Every command answers a next state in every state, and leaves the queue and the package's position in its group as they are. -/
def Obligations.EveryCommandCompletes : Prop :=
  ∀ (i : Instr) (s : State), ∃ t, exec i s = .next t ∧ t.pending = s.pending ∧ t.position = s.position

/-- R416, R449: no step reverses a retirement: the repair log only grows, the fused resources stay, and a fenced core stays fenced,
but for PWRGD, which takes the fencing from the log again. -/
def Obligations.RetirementLasts : Prop :=
  ∀ s t : State, step s = .next t →
    (∃ l, t.nor.repairs = s.nor.repairs ++ l) ∧ t.fuses.fusedCores = s.fuses.fusedCores ∧ t.fuses.fusedDies = s.fuses.fusedDies ∧
      ((∀ b rest, s.pending ≠ .powerGood b :: rest) → ∀ k ∈ s.fenced, k ∈ t.fenced)

/-- R154, R151, R152, R160: `ADDI`, `ANDI`, `ORI`, `XORI`, `LI`, `LIS` and the three shifts of `SHI` write the destination,
sign- or zero-extending the immediate as R154 gives; s0 discards the write; nothing outside the core differs.
R154, R152: the thirteen functions of `ALU`. -/
def Obligations.ScalarArithmetic : Prop :=
  (∀ (c : CoreId) (rd ra : BitVec 5) (imm : BitVec 16) (wide : BitVec 21) (s : State),
    let a := (s.core (kOf c)).rdS ra
    let d := (s.core (kOf c)).rdS rd
    (s.Fetches (kOf c) (0x02#6 ++ rd ++ ra ++ imm) →
      ScalarResult (.addi c rd ra imm) s (kOf c) rd (a + imm.signExtend 64)) ∧
    (s.Fetches (kOf c) (0x03#6 ++ rd ++ ra ++ imm) →
      ScalarResult (.andi c rd ra imm) s (kOf c) rd (a &&& imm.setWidth 64)) ∧
    (s.Fetches (kOf c) (0x04#6 ++ rd ++ ra ++ imm) →
      ScalarResult (.ori c rd ra imm) s (kOf c) rd (a ||| imm.setWidth 64)) ∧
    (s.Fetches (kOf c) (0x05#6 ++ rd ++ ra ++ imm) →
      ScalarResult (.xori c rd ra imm) s (kOf c) rd (a ^^^ imm.setWidth 64)) ∧
    (s.Fetches (kOf c) (0x07#6 ++ rd ++ wide) →
      ScalarResult (.li c rd wide) s (kOf c) rd (wide.signExtend 64)) ∧
    (s.Fetches (kOf c) (0x08#6 ++ rd ++ 0#5 ++ imm) →
      ScalarResult (.lis c rd 0 imm) s (kOf c) rd (d <<< 16 ||| imm.setWidth 64)) ∧
    (s.Fetches (kOf c) (0x06#6 ++ rd ++ ra ++ imm) → imm.toNat < 64 →
      ScalarResult (.shi c rd ra imm) s (kOf c) rd (a <<< imm.toNat)) ∧
    (s.Fetches (kOf c) (0x06#6 ++ rd ++ ra ++ imm) → 64 ≤ imm.toNat → imm.toNat < 128 →
      ScalarResult (.shi c rd ra imm) s (kOf c) rd (a >>> (imm.toNat - 64))) ∧
    (s.Fetches (kOf c) (0x06#6 ++ rd ++ ra ++ imm) → 128 ≤ imm.toNat → imm.toNat < 192 →
      ScalarResult (.shi c rd ra imm) s (kOf c) rd (a.sshiftRight (imm.toNat - 128)))) ∧
  (∀ (c : CoreId) (rd ra rb : BitVec 5) (fn : BitVec 4) (s : State),
    s.Fetches (kOf c) (0x01#6 ++ rd ++ ra ++ rb ++ 0#7 ++ fn) →
    let a := (s.core (kOf c)).rdS ra
    let b := (s.core (kOf c)).rdS rb
    let n := b.toNat % 64
    let gives := fun v => ScalarResult (.alu c rd ra rb 0 fn) s (kOf c) rd v
    (fn = 0 → gives (a + b)) ∧ (fn = 1 → gives (a - b)) ∧ (fn = 2 → gives (a &&& b)) ∧ (fn = 3 → gives (a ||| b)) ∧
    (fn = 4 → gives (a ^^^ b)) ∧ (fn = 5 → gives (a <<< n)) ∧ (fn = 6 → gives (a >>> n)) ∧
    (fn = 7 → gives (a.sshiftRight n)) ∧ (fn = 8 → gives (a * b)) ∧
    (fn = 9 → gives (if a.toInt < b.toInt then a else b)) ∧ (fn = 10 → gives (if a.toInt < b.toInt then b else a)) ∧
    (fn = 11 → gives (if a.toNat < b.toNat then a else b)) ∧ (fn = 12 → gives (if a.toNat < b.toNat then b else a)))

/-- R154, R157, R161, R173: `PRD`, `GETLC`, `LITER`, `SLOTW` and `TICK` read predicates, loop counts, completed iterations,
the slot snapshot and the impression counter.
R154: `CMP` and `CMPI` compare, `PLOG` combines two predicates, `PBIT` takes a bit; p0 discards the write. -/
def Obligations.ReadsAndPredicates : Prop :=
  (∀ (c : CoreId) (rd ra : BitVec 5) (n : BitVec 2) (s : State),
    let x := s.core (kOf c)
    (s.Fetches (kOf c) (0x0D#6 ++ rd ++ 0#21) →
      ScalarResult (.prd c rd 0) s (kOf c) rd ((x.pred ||| 1#8).setWidth 64)) ∧
    (s.Fetches (kOf c) (0x1A#6 ++ rd ++ 0#19 ++ n) →
      ScalarResult (.getlc c rd 0 n) s (kOf c) rd ((x.rdLc n).setWidth 64)) ∧
    (s.Fetches (kOf c) (0x1B#6 ++ rd ++ 0#19 ++ n) → ∀ l, x.loops[n.toNat]? = some l →
      ScalarResult (.liter c rd 0 n) s (kOf c) rd (BitVec.ofNat 64 (l.C - l.Q))) ∧
    (s.Fetches (kOf c) (0x1B#6 ++ rd ++ 0#19 ++ n) → x.loops.length ≤ n.toNat →
      ScalarResult (.liter c rd 0 n) s (kOf c) rd 0) ∧
    (s.Fetches (kOf c) (0x22#6 ++ rd ++ ra ++ 0#16) →
      ScalarResult (.slotw c rd ra 0) s (kOf c) rd (Tbl.get 0 x.snap ((x.rdS ra).toNat % 64))) ∧
    (s.Fetches (kOf c) (0x25#6 ++ rd ++ 0#21) → ScalarResult (.tick c rd 0) s (kOf c) rd (BitVec.ofNat 64 s.tick))) ∧
  (∀ (c : CoreId) (pd k pa pb : BitVec 3) (ra rb : BitVec 5) (imm : BitVec 15) (s : State),
    let x := s.core (kOf c)
    let a := x.rdS ra
    let b := x.rdS rb
    let i : Word := imm.signExtend 64
    (s.Fetches (kOf c) (0x09#6 ++ pd ++ k ++ ra ++ rb ++ 0#10) →
      let gives := fun v => PredicateResult (.cmp c pd k ra rb 0) s (kOf c) pd v
      (k = 0 → gives (decide (a = b))) ∧ (k = 1 → gives (decide (a ≠ b))) ∧ (k = 2 → gives (decide (a.toInt < b.toInt))) ∧
      (k = 3 → gives (decide (b.toInt ≤ a.toInt))) ∧ (k = 4 → gives (decide (a.toNat < b.toNat))) ∧
      (k = 5 → gives (decide (b.toNat ≤ a.toNat)))) ∧
    (s.Fetches (kOf c) (0x0A#6 ++ pd ++ k ++ ra ++ imm) →
      let gives := fun v => PredicateResult (.cmpi c pd k ra imm) s (kOf c) pd v
      (k = 0 → gives (decide (a = i))) ∧ (k = 1 → gives (decide (a ≠ i))) ∧ (k = 2 → gives (decide (a.toInt < i.toInt))) ∧
      (k = 3 → gives (decide (i.toInt ≤ a.toInt))) ∧ (k = 4 → gives (decide (a.toNat < i.toNat))) ∧
      (k = 5 → gives (decide (i.toNat ≤ a.toNat)))) ∧
    (s.Fetches (kOf c) (0x0B#6 ++ pd ++ pa ++ pb ++ k ++ 0#14) →
      let gives := fun v => PredicateResult (.plog c pd pa pb k 0) s (kOf c) pd v
      (k = 0 → gives (x.rdP pa && x.rdP pb)) ∧ (k = 1 → gives (x.rdP pa || x.rdP pb)) ∧
      (k = 2 → gives (x.rdP pa ^^ x.rdP pb)) ∧ (k = 3 → gives (x.rdP pa && !x.rdP pb)) ∧
      (k = 4 → gives (x.rdP pa || !x.rdP pb))) ∧
    (s.Fetches (kOf c) (0x0C#6 ++ pd ++ ra ++ rb ++ 0#13) →
      PredicateResult (.pbit c pd ra rb 0) s (kOf c) pd (a.getLsbD (b.toNat % 64))))

/-- R154, R163: a taken `BR`, `JR` or `JAL` sets the program counter to the target, leaves the loop levels that hold the
target, outermost first, and `JAL` links; an untaken one goes on.
R154, R159 to R161: `NOP` only goes on; `SETLC` sets a loop count; `LOOP` pushes its level, with C and Q at the count,
and goes on into the body, or passes over the body where the count is 0; `HALT` goes on past itself and halts with DONE. -/
def Obligations.ControlFlow : Prop :=
  (∀ (c : CoreId) (p : BitVec 3) (neg : Bool) (off : BitVec 22) (rd ra : BitVec 5) (imm : BitVec 21) (s : State),
    let x := s.core (kOf c)
    let goes := fun (i : Instr) (t : BitVec 22) (rd : BitVec 5) (v : Word) =>
      ∃ t', exec i s = .next t' ∧ s.OnlyCore (kOf c) t' ∧ x.SameBut (t'.core (kOf c)) ∧ (t'.core (kOf c)).pc = t ∧
        (t'.core (kOf c)).retired = x.retired + 1 ∧ (t'.core (kOf c)).stall = .none ∧
        (t'.core (kOf c)).loops = (x.loops.reverse.takeWhile fun l => decide (l.first ≤ t.toNat ∧ t.toNat ≤ l.last)).reverse ∧
        x.Writes (t'.core (kOf c)) rd v
    let stays := fun (i : Instr) => ScalarResult i s (kOf c) 0 0
    (s.Fetches (kOf c) (0x10#6 ++ p ++ BitVec.ofBool neg ++ off) →
      (x.rdP p ≠ neg → goes (.br c p neg off) (x.pc + 4 * off) 0 0) ∧ (x.rdP p = neg → stays (.br c p neg off))) ∧
    (s.Fetches (kOf c) (0x11#6 ++ p ++ BitVec.ofBool neg ++ 0#1 ++ ra ++ 0#16) →
      (x.rdP p ≠ neg → (x.rdS ra).toNat % 4 = 0 → goes (.jr c p neg 0 ra 0) ((x.rdS ra).setWidth 22) 0 0) ∧
      (x.rdP p = neg → stays (.jr c p neg 0 ra 0))) ∧
    (s.Fetches (kOf c) (0x12#6 ++ rd ++ imm) →
      goes (.jal c rd imm) (x.pc + 4 * imm.signExtend 22) rd (BitVec.ofNat 64 (x.pc.toNat + 4)))) ∧
  (∀ (c : CoreId) (n : BitVec 2) (ra : BitVec 5) (body : BitVec 16) (s : State),
    let x := s.core (kOf c)
    (s.Fetches (kOf c) 0#32 → ScalarResult (.nop c 0) s (kOf c) 0 0) ∧
    (s.Fetches (kOf c) (0x19#6 ++ n ++ 0#3 ++ ra ++ 0#16) → (x.rdS ra).toNat < 2 ^ 32 →
      ∃ t, exec (.setlc c n 0 ra 0) s = .next t ∧ s.OnlyCore (kOf c) t ∧ x.GoesOn (t.core (kOf c)) ∧
        (∀ m, (t.core (kOf c)).rdLc m = if m = n then (x.rdS ra).setWidth 32 else x.rdLc m) ∧
        (t.core (kOf c)).sreg = x.sreg ∧ (t.core (kOf c)).pred = x.pred) ∧
    (s.Fetches (kOf c) (0x3F#6 ++ 0#26) →
      ∃ t, exec (.halt c 0) s = .next t ∧ s.OnlyCore (kOf c) t ∧ (t.core (kOf c)).run = false ∧
        (t.core (kOf c)).haltCode = 0 ∧ (t.core (kOf c)).haltAddr = x.pc ∧ (t.core (kOf c)).haltDepth = x.loops.length ∧
        (t.core (kOf c)).loops = [] ∧ (t.core (kOf c)).sreg = x.sreg ∧ (t.core (kOf c)).pred = x.pred ∧
        (t.core (kOf c)).fifo = x.fifo) ∧
    (s.Fetches (kOf c) (0x18#6 ++ n ++ 0#8 ++ body) →
      let last := x.pc.toNat + 4 * body.toNat
      x.inWindow last = true → x.loops.length < 4 → body ≠ 0 → (∀ l ∈ x.loops.head?, last ≤ l.last) →
      ∀ bs, x.fetched.cached (last / 128) = some bs → (lineWord bs (last % 128)).toNat / 2 ^ 26 ∉ [0x10, 0x11, 0x12, 0x18, 0x3F] →
      ∃ t, exec (.loop c n 0 body) s = .next t ∧ s.OnlyCore (kOf c) t ∧ (t.core (kOf c)).sreg = x.sreg ∧
        (t.core (kOf c)).pred = x.pred ∧ (t.core (kOf c)).lc = x.lc ∧ (t.core (kOf c)).retired = x.retired + 1 ∧
        (x.rdLc n ≠ 0 →
          (t.core (kOf c)).loops = ⟨x.pc.toNat + 4, last, (x.rdLc n).toNat, (x.rdLc n).toNat⟩ :: x.loops ∧
            (t.core (kOf c)).pc = BitVec.ofNat 22 (x.pc.toNat + 4)) ∧
        (x.rdLc n = 0 →
          (t.core (kOf c)).loops = (stepLoops last x.loops).1 ∧
            (t.core (kOf c)).pc = BitVec.ofNat 22 ((stepLoops last x.loops).2.getD (last + 4)))))

/-- R155, R152, R154, R159: an instruction that R155 faults halts its compositor at its own address with the code, its loop
stack emptied, its registers unwritten: reserved bits, functions and conditions that R154 does not list, shift kind 3, a
misaligned `JR`, an oversized loop count, a fifth loop level and an empty body. -/
def Obligations.InstructionFaults : Prop :=
  ∀ (c : CoreId) (rd ra rb : BitVec 5) (pd k pa pb : BitVec 3) (fn : BitVec 4) (n : BitVec 2) (neg : Bool) (imm : BitVec 16)
    (rz26 : BitVec 26) (rz7 : BitVec 7) (s : State),
    let x := s.core (kOf c)
    let faults := fun (i : Instr) (code : Nat) =>
      ∃ t, exec i s = .next t ∧ (t.core (kOf c)).run = false ∧ (t.core (kOf c)).haltCode = code ∧
        (t.core (kOf c)).haltAddr = x.pc ∧ (t.core (kOf c)).loops = [] ∧ (t.core (kOf c)).sreg = x.sreg ∧
        (t.core (kOf c)).pred = x.pred ∧ t.mem = s.mem
    (s.Fetches (kOf c) (0x00#6 ++ rz26) → rz26 ≠ 0 → faults (.nop c rz26) 0x04) ∧
    (s.Fetches (kOf c) (0x3F#6 ++ rz26) → rz26 ≠ 0 → faults (.halt c rz26) 0x04) ∧
    (s.Fetches (kOf c) (0x01#6 ++ rd ++ ra ++ rb ++ rz7 ++ fn) → (rz7 ≠ 0 ∨ 12 < fn.toNat) →
      faults (.alu c rd ra rb rz7 fn) 0x04) ∧
    (s.Fetches (kOf c) (0x06#6 ++ rd ++ ra ++ imm) → 192 ≤ imm.toNat → faults (.shi c rd ra imm) 0x04) ∧
    (s.Fetches (kOf c) (0x09#6 ++ pd ++ k ++ ra ++ rb ++ 0#10) → 5 < k.toNat → faults (.cmp c pd k ra rb 0) 0x04) ∧
    (s.Fetches (kOf c) (0x0B#6 ++ pd ++ pa ++ pb ++ k ++ 0#14) → 4 < k.toNat → faults (.plog c pd pa pb k 0) 0x04) ∧
    (s.Fetches (kOf c) (0x11#6 ++ pd ++ BitVec.ofBool neg ++ 0#1 ++ ra ++ 0#16) → x.rdP pd ≠ neg →
      (x.rdS ra).toNat % 4 ≠ 0 → faults (.jr c pd neg 0 ra 0) 0x04) ∧
    (s.Fetches (kOf c) (0x19#6 ++ n ++ 0#3 ++ ra ++ 0#16) → 2 ^ 32 ≤ (x.rdS ra).toNat → faults (.setlc c n 0 ra 0) 0x10) ∧
    (s.Fetches (kOf c) (0x18#6 ++ n ++ 0#8 ++ imm) → x.inWindow (x.pc.toNat + 4 * imm.toNat) = true →
      (imm = 0 ∨ 4 ≤ x.loops.length) → faults (.loop c n 0 imm) 0x10)

/-- R171, R155: with no uncompleted command in the way, `SLD` reads and `SST` writes eight bytes, little-endian, at the
handle's current base plus ra + 8 × IMM; `SST` changes those eight bytes alone, `SLD` no byte. The handle must be valid,
permit the access and lie in activation or partial-sum memory; the offset is a multiple of 8 within the extent.
R155, R171: `SLD` and `SST` fault with HANDLE_FAULT on an invalid or unfit handle, then with FORMAT_FAULT on a misaligned
offset, then with EXTENT_FAULT past the extent. -/
def Obligations.ScalarMemory : Prop :=
  (∀ (c : CoreId) (r ra : BitVec 5) (hd imm : BitVec 8) (s : State),
    let k := kOf c
    let x := s.core k
    let f := s.modCore k Core.fetched
    let h := x.handle hd.toNat
    let off := (x.rdS ra).toNat + 8 * imm.toNat
    hVALID h = true → (hSPACE h = 1 ∨ hSPACE h = 2) → off % 8 = 0 → off + 8 ≤ hEXTENT h →
    f.heldBy k [⟨4, hd.toNat, hd.toNat, false⟩] = false →
    let at' := coreAddr k (hSPACE h) (hBASE h + off)
    (s.Fetches k (0x20#6 ++ r ++ ra ++ hd ++ imm) → hRD h = true →
      f.heldBy k [⟨hSPACE h, hBASE h + off, hBASE h + off + 7, false⟩] = false →
      (∀ u ∈ unitsOf (hSPACE h) (hBASE h + off) 8, s.poisoned k (hSPACE h) u = false) →
      ScalarResult (.sld c r ra hd imm) s k r (BitVec.ofNat 64 (leNat ((List.range 8).map fun i => s.byte (at' + i))))) ∧
    (s.Fetches k (0x21#6 ++ r ++ ra ++ hd ++ imm) → hWR h = true →
      f.heldBy k [⟨hSPACE h, hBASE h + off, hBASE h + off + 7, true⟩] = false →
      ∃ t, exec (.sst c r ra hd imm) s = .next t ∧ x.GoesOn (t.core k) ∧ (t.core k).sreg = x.sreg ∧
        (t.core k).pred = x.pred ∧ (t.core k).lc = x.lc ∧ (∀ j, j ≠ k → t.core j = s.core j) ∧ t.ctl = s.ctl ∧
        (∀ i, i < 8 → t.byte (at' + i) = BitVec.ofNat 8 ((x.rdS r).toNat / 256 ^ i)) ∧
        (∀ a, (a < at' ∨ at' + 8 ≤ a) → t.byte a = s.byte a))) ∧
  (∀ (c : CoreId) (r ra : BitVec 5) (hd imm : BitVec 8) (s : State),
    let k := kOf c
    let x := s.core k
    let h := x.handle hd.toNat
    let off := (x.rdS ra).toNat + 8 * imm.toNat
    let faults := fun (i : Instr) (code : Nat) =>
      ∃ t, exec i s = .next t ∧ (t.core k).run = false ∧ (t.core k).haltCode = code ∧ (t.core k).haltAddr = x.pc ∧
        (t.core k).sreg = x.sreg ∧ t.mem = s.mem
    let fit := hVALID h = true ∧ (hSPACE h = 1 ∨ hSPACE h = 2)
    (s.modCore k Core.fetched).heldBy k [⟨4, hd.toNat, hd.toNat, false⟩] = false →
    (s.Fetches k (0x20#6 ++ r ++ ra ++ hd ++ imm) →
      (¬ (fit ∧ hRD h = true) → faults (.sld c r ra hd imm) 0x05) ∧
      (fit → hRD h = true → off % 8 ≠ 0 → faults (.sld c r ra hd imm) 0x04) ∧
      (fit → hRD h = true → off % 8 = 0 → hEXTENT h < off + 8 → faults (.sld c r ra hd imm) 0x03)) ∧
    (s.Fetches k (0x21#6 ++ r ++ ra ++ hd ++ imm) →
      (¬ (fit ∧ hWR h = true) → faults (.sst c r ra hd imm) 0x05) ∧
      (fit → hWR h = true → off % 8 ≠ 0 → faults (.sst c r ra hd imm) 0x04) ∧
      (fit → hWR h = true → off % 8 = 0 → hEXTENT h < off + 8 → faults (.sst c r ra hd imm) 0x03)))

/-- R172, R219, R220: a satisfied `CWAIT` completes at once with pd true, any other stalls with its threshold, flag, tick and
timeout; the stall ends with pd true when the flag satisfies the threshold, or has satisfied it, no later than the deadline tick,
and with pd false once that tick has ended without that.
R157, R158: `PASS` copies the slot map into the snapshot, raises the pass count by one, and goes on; the registers stay. -/
def Obligations.WaitAndPass : Prop :=
  (∀ (c : CoreId) (pd : BitVec 3) (ra rb : BitVec 5) (flag : BitVec 8) (s : State),
    let k := kOf c
    let x := s.core k
    let v : BitVec 32 := (x.rdS ra).setWidth 32
    (s.Fetches k (0x24#6 ++ pd ++ ra ++ rb ++ flag ++ 0#5) →
      ((x.flag flag.toNat - v).toNat < 2 ^ 31 → PredicateResult (.cwait c pd ra rb flag 0) s k pd true) ∧
      (2 ^ 31 ≤ (x.flag flag.toNat - v).toNat →
        ∃ t, exec (.cwait c pd ra rb flag 0) s = .next t ∧ s.OnlyCore k t ∧ x.SameBut (t.core k) ∧
          (t.core k).stall = .cwait pd.toNat v flag.toNat s.tick (x.rdS rb).toNat ∧ (t.core k).met = false ∧
          (t.core k).pc = x.pc ∧ (t.core k).retired = x.retired)) ∧
    (s.powered = true → x.run = true → x.frozen = false → ∀ (th : BitVec 32) (f t0 n : Nat),
      x.stall = .cwait pd.toNat th f t0 n →
      ((x.met = true ∨ ((x.flag f - th).toNat < 2 ^ 31 ∧ (n = 0 ∨ s.tick ≤ t0 + n))) →
        PredicateResult (.cwaitArrival c) s k pd true) ∧
      (x.met = false → n ≠ 0 → t0 + n < s.tick → PredicateResult (.cwaitTimeout c) s k pd false))) ∧
  (∀ (c : CoreId) (s : State), s.Fetches (kOf c) (0x23#6 ++ 0#26) →
    (s.modCore (kOf c) Core.fetched).passHeld (kOf c) = false →
    ∃ t, exec (.pass c 0) s = .next t ∧ (s.core (kOf c)).Advances (t.core (kOf c)) ∧
      (t.core (kOf c)).passCount = ((s.core (kOf c)).passCount + 1) % 2 ^ 64 ∧
      (∀ w, w < 64 → Tbl.get 0 (t.core (kOf c)).snap w = s.rd (aCoreK (kOf c) (0x800 + 8 * w))) ∧
      (t.core (kOf c)).sreg = (s.core (kOf c)).sreg ∧ (t.core (kOf c)).pred = (s.core (kOf c)).pred ∧
      (t.core (kOf c)).fifo = (s.core (kOf c)).fifo)

/-- R164 to R170, R122: a `PUSH` whose predicate holds delivers the finished descriptor to the end of its queue, with the queue's
next sequence number, the core's next place in program order and the brayer length bound to it; a false one enters the skip ledger
where it names a completion signal, and otherwise only counts; both go on. A full queue, or a full ledger, stalls it, and the stall
ends when an entry is free. A template or a patch that faults, or a queue of another engine, halts with FORMAT_FAULT.
R164 to R166: a template whose reserved bytes are zero and whose patch slots are all of mode 0 gives its own descriptor;
a patch of mode 1 or 2 replaces its field by the register's value where the field holds it, unsigned or signed, and faults
elsewhere; mode 3 adds modulo the field. -/
def Obligations.PushAndPatches : Prop :=
  (∀ (c : CoreId) (p : BitVec 3) (neg : Bool) (queue : BitVec 4) (tpl : BitVec 10) (sb : BitVec 5) (d : Wide) (s : State),
    let k := kOf c
    let q := queue.toNat
    let x := s.core k
    let i := Instr.push c p neg queue tpl sb 0
    let built := buildDesc (s.template k tpl.toNat) (fun r => x.rdS (BitVec.ofNat 5 r)) sb.toNat
    let full := fun (del : Bool) => if del = true then queueDepth q ≤ x.depth q else dSIG d = true ∧ 8 ≤ x.ledger q
    let lands := fun (j : Instr) (del : Bool) => ∃ t, exec j s = .next t ∧
      (let n := Tbl.get 0 x.seqs q
       let y : Core := { x with seqs := Tbl.set 0 x.seqs q (n + 1), census := (t.core k).census }
       let enters := fun (b : Nat) (ph : Phase) =>
         ({ y with fifo := Tbl.set [] x.fifo q (x.queue q ++ [⟨n, x.ord, d, b, false, ph⟩]), ord := x.ord + 1 } : Core)
       (if del = true then enters (t.boundLen k q) .waiting else if dSIG d = true then enters 0 .skipped else y).GoesOn
         (t.core k)) ∧
      (t.core k).sreg = x.sreg ∧ (t.core k).pred = x.pred ∧ (t.core k).lc = x.lc ∧ (∀ j, j ≠ k → t.core j = s.core j) ∧
      t = { s with cores := t.cores, lineQ := t.lineQ, ctl := t.ctl } ∧ (∀ a, a ≠ aBrLen k → t.rd a = s.rd a) ∧
      (if del = true ∧ dOP d = 0x20 ∧ setlenOk d = true then t.fld (aBrLen k) ((q - 4) * 16) 14 = bLEN d else t.ctl = s.ctl)
    (s.Fetches k (0x28#6 ++ p ++ BitVec.ofBool neg ++ queue ++ tpl ++ sb ++ 0#3) →
      ((built = none ∨ (built = some d ∧ engineOf (dOP d) ≠ some (queueEngine q))) →
        ∃ t, exec i s = .next t ∧ (t.core k).run = false ∧ (t.core k).haltCode = 0x04 ∧ (t.core k).haltAddr = x.pc ∧
          (t.core k).fifo = x.fifo ∧ (t.core k).seqs = x.seqs ∧ t.mem = s.mem) ∧
      (built = some d → engineOf (dOP d) = some (queueEngine q) →
        let del := x.rdP p ^^ neg
        (¬ full del → lands i del) ∧
        (full del →
          ∃ t, exec i s = .next t ∧ s.OnlyCore k t ∧ x.SameBut (t.core k) ∧ (t.core k).stall = .push q d del ∧
            (t.core k).pc = x.pc ∧ (t.core k).retired = x.retired))) ∧
    (s.powered = true → x.run = true → x.frozen = false → engineOf (dOP d) = some (queueEngine q) →
      ∀ del, x.stall = .push q d del → ¬ full del → lands (.pushStallEnd c) del)) ∧
  ((∀ (tpl : Nat) (sreg : Nat → Word) (sb : Nat), bits tpl 320 192 = 0 →
    (∀ n, n < 4 → bits (bits tpl (256 + 16 * n) 16) 14 2 = 0) →
    buildDesc tpl sreg sb = some (BitVec.ofNat 256 (bits tpl 0 256))) ∧
  (∀ (sreg : Nat → Word) (sb slot n : Nat) (d : Wide),
    let off := bits slot 0 8
    let w := bits slot 8 6 + 1
    let v := sreg (sb + n)
    sb + n ≤ 31 → off + w ≤ 256 →
    (bits slot 14 2 = 1 → patchOne sreg sb slot n d = if v.toNat < 2 ^ w then some (putW d off w v.toNat) else none) ∧
    (bits slot 14 2 = 2 → patchOne sreg sb slot n d =
      if -(2 ^ (w - 1) : Int) ≤ v.toInt ∧ v.toInt < 2 ^ (w - 1) then some (putW d off w v.toNat) else none) ∧
    (bits slot 14 2 = 3 → patchOne sreg sb slot n d = some (putW d off w (getW d off w + v.toNat)))))

/-- R175 to R178, R435: the program store serves the oldest request of its die: that line is cached with its 128 bytes and no longer
awaited; one that fails parity stays awaited and is asked for again; any other line is not served. `PRIME` asks for the lines of its
range that lie in the window and are not present, and stalls while four are outstanding. -/
def Obligations.InstructionLines : Prop :=
  ∀ (c : CoreId) (s : State),
    let k := kOf c
    let x := s.core k
    (∀ line, s.powered = true → s.oldestLine (keyDie k) = some (k, line) →
      (∃ t, exec (.icacheLineFill c line false) s = .next t ∧
        t = { s with cores := t.cores, lineQ := s.lineQ.erase (k, line) } ∧ (∀ j, j ≠ k → t.core j = s.core j) ∧
        (t.core k).fills = x.fills.filter (· ≠ line) ∧
        (t.core k).cached line = some ((List.range 128).map fun i => s.byte (storeAddr (keyDie k) (line * 128) + i)) ∧
        (t.core k).sreg = x.sreg ∧ (t.core k).pc = x.pc ∧ (t.core k).run = x.run) ∧
      (∃ t, exec (.icacheLineFill c line true) s = .next t ∧ (k, line) ∈ t.lineQ ∧ (t.core k).fills = x.fills ∧
        (t.core k).icache = x.icache ∧ t.mem = s.mem)) ∧
    (∀ line bad, s.powered = true → s.oldestLine (keyDie k) ≠ some (k, line) →
      exec (.icacheLineFill c line bad) s = .next s) ∧
    (∀ (ra : BitVec 5) (count : BitVec 5), s.Fetches k (0x29#6 ++ ra ++ 0#16 ++ count) →
      (x.primes.length < 4 →
        ∃ t, exec (.prime c ra 0 count) s = .next t ∧ s.OnlyCore k t ∧ x.Advances (t.core k) ∧
          (∀ i, i ≤ count.toNat →
            let line := ((x.rdS ra).setWidth 22 : BitVec 22).toNat / 128 + i
            x.inWindow (line * 128) = true → (x.fetched.cached line).isNone = true →
              line ∈ (t.core k).fills ∧ (k, line) ∈ t.lineQ) ∧
          (t.core k).sreg = x.sreg ∧ (t.core k).pred = x.pred ∧ (t.core k).lc = x.lc ∧ (t.core k).fifo = x.fifo) ∧
      (4 ≤ x.primes.length →
        ∃ t, exec (.prime c ra 0 count) s = .next t ∧ s.OnlyCore k t ∧ x.SameBut (t.core k) ∧ (t.core k).stall = .prime ∧
          (t.core k).pc = x.pc ∧ (t.core k).retired = x.retired))

/-- R174, R180, R414, R516, R317: once the bring-up stands at step 7, START arms a compositor for its start tick, or lets it begin
at once with LATE set where that tick has passed; an armed one begins when its tick has passed; STOP halts a running one with DONE
and keeps its loop stack, and disarms one that has not begun; the two together, and a START of a compositor that runs or of a frozen
core (the model's choice, log 103), change nothing.
R163, R180: `CMP_PC` takes a multiple of 4 and `CMP_CODE` a window of whole lines while the compositor is halted; `CMP_PC`
empties the loop stack; any other value, and writes while it runs, change nothing. -/
def Obligations.CompositorControl : Prop :=
  (∀ (c : CoreId) (v : Word) (s : State),
    let k := kOf c
    let x := s.core k
    s.powered = true →
    (v.getLsbD 0 = true → v.getLsbD 1 = false → x.run = false → x.frozen = false → s.fld aBoot 0 3 = 7 →
      (s.tick ≤ x.startTick.toNat →
        ∃ t, exec (.cmpCtrlStart c v) s = .next t ∧ s.OnlyCore k t ∧ t.core k = { x with armed := true }) ∧
      (x.startTick.toNat < s.tick →
        ∃ t, exec (.cmpCtrlStart c v) s = .next t ∧ (∀ j, j ≠ k → t.core j = s.core j) ∧ t.mem = s.mem ∧
          t.core k = { x with armed := false, run := true, stall := .none, late := true, census := 0 })) ∧
    (v.getLsbD 0 = true → v.getLsbD 1 = false → (x.run = true ∨ x.frozen = true ∨ s.fld aBoot 0 3 < 7) →
      exec (.cmpCtrlStart c v) s = .next s) ∧
    (v.getLsbD 0 = true → v.getLsbD 1 = true →
      exec (.cmpCtrlStart c v) s = .next s ∧ exec (.cmpCtrlStop c v) s = .next s) ∧
    (x.armed = true → x.frozen = false → x.startTick.toNat < s.tick →
      ∃ t, exec (.compositorBegin c) s = .next t ∧ s.OnlyCore k t ∧
        t.core k = { x with armed := false, run := true, stall := .none, census := 0 }) ∧
    (v.getLsbD 1 = true → v.getLsbD 0 = false →
      (x.run = true →
        ∃ t, exec (.cmpCtrlStop c v) s = .next t ∧ s.OnlyCore k t ∧ (t.core k).run = false ∧ (t.core k).haltCode = 0 ∧
          (t.core k).haltAddr = x.pc ∧ (t.core k).loops = x.loops ∧ (t.core k).sreg = x.sreg ∧ (t.core k).fifo = x.fifo) ∧
      (x.run = false →
        ∃ t, exec (.cmpCtrlStop c v) s = .next t ∧ s.OnlyCore k t ∧ t.core k = { x with armed := false }))) ∧
  (∀ (c : CoreId) (v : Word) (s : State),
    let k := kOf c
    let x := s.core k
    s.powered = true →
    (x.run = false → v.toNat % 4 = 0 →
      ∃ t, exec (.cmpPcWrite c v) s = .next t ∧ s.OnlyCore k t ∧ t.core k = { x with pc := v.setWidth 22, loops := [] }) ∧
    (x.run = true → exec (.cmpPcWrite c v) s = .next s ∧ exec (.cmpCodeWrite c v) s = .next s) ∧
    (x.run = false → v.toNat % 128 = 0 → v.toNat / 2 ^ 32 % 128 = 0 → v.toNat / 2 ^ 32 % 2 ^ 23 ≤ 0x400000 →
      ∃ t, exec (.cmpCodeWrite c v) s = .next t ∧ s.OnlyCore k t ∧
        t.core k = { x with codeBase := v.setWidth 23, codeLimit := (v >>> 32).setWidth 23 }) ∧
    (v.toNat % 4 ≠ 0 → exec (.cmpPcWrite c v) s = .next s) ∧
    (v.toNat % 128 ≠ 0 ∨ v.toNat / 2 ^ 32 % 128 ≠ 0 ∨ 0x400000 < v.toNat / 2 ^ 32 % 2 ^ 23 → exec (.cmpCodeWrite c v) s = .next s))

/-- R124, R125, R128, R129, R131: `BR_ADD`, `BR_SUB`, `BR_MUL`, `BR_MAX` and `BR_MIN` write f(A, B) element by element in type ET,
B from a tile or from IMM unnarrowed; `BR_FMA` writes A × B + C; no other byte of a tile and no byte of memory differs.
R124, R129, R131, R144 to R146: the commands of one source write f(A) element by element; `BR_COPY` moves patterns,
`BR_WIDEN` takes BF16 to FP32 and `BR_NARROW` FP32 to BF16. -/
def Obligations.BrayerArithmetic : Prop :=
  (∀ (c : CoreId) (q : Fin 16) (bad : List Nat) (s : State) (it : Item) (x : Exec) (i : Instr) (op : Nat) (f : Nat → Nat → Nat → Nat),
    (i, op, f) ∈ [(.brAdd c q bad, 0x21, fun a b _ => fadd a b), (.brSub c q bad, 0x22, fun a b _ => fsub a b),
      (.brMul c q bad, 0x23, fun a b _ => fmul a b), (.brFma c q bad, 0x24, fun a b e => ffma a b e),
      (.brMax c q bad, 0x25, fun a b _ => fmax a b), (.brMin c q bad, 0x26, fun a b _ => fmin a b)] →
    let k := kOf c
    let d := it.desc
    let n := it.blen
    let b := fun j => if bBSRC d = 1 then bIMM d else s.tileElem k d (opB d n) j
    let y := fun j => f (s.tileElem k d (opA d n) j) (b j) (s.tileElem k d (opC d n) j)
    let D := tileOp d 48 (etSize (bET d)) n true
    s.Works k q.val op it x → s.tileDamage k bad d n = none →
    ∃ t, exec i s = .next t ∧ t.mem = s.mem ∧ s.BrayerEnds t k q.val it [] ∧
      s.TilesBecome t k D.tile (D.off * etSize (bET d)) (elemBytes (etSize (bET d)) ((List.range n).map fun j => toEt (bET d) (y j)))) ∧
  (∀ (c : CoreId) (q : Fin 16) (bad : List Nat) (s : State) (it : Item) (x : Exec) (i : Instr) (op : Nat),
    let k := kOf c
    let d := it.desc
    let n := it.blen
    let gives := fun (es : Nat) (xs : List Nat) =>
      s.tileDamage k bad d n = none → s.Works k q.val op it x →
      ∃ t, exec i s = .next t ∧ t.mem = s.mem ∧ s.BrayerEnds t k q.val it [] ∧
        s.TilesBecome t k (tileOp d 48 es n true).tile ((tileOp d 48 es n true).off * es) (elemBytes es xs)
    let raw := fun (es j : Nat) => s.tileNat k (tileOp d 64 es n false).tile
      (((tileOp d 64 es n false).off + j * (tileOp d 64 es n false).stride) * es) es
    (∀ f, (i, op, f) ∈ [(.brAbs c q bad, 0x27, fabs), (.brNeg c q bad, 0x28, fneg), (.brExp2 c q bad, 0x2B, exp2),
        (.brRcp c q bad, 0x2C, rcp), (.brRsqrt c q bad, 0x2D, rsqrt), (.brLogistic c q bad, 0x2E, logistic),
        (.brSilu c q bad, 0x2F, silu), (.brGelu c q bad, 0x30, gelu)] →
      gives (etSize (bET d)) ((List.range n).map fun j => toEt (bET d) (f (s.tileElem k d (opA d n) j)))) ∧
    ((i, op) = (.brCopy c q bad, 0x29) → gives (etSize (bET d)) ((List.range n).map (raw (etSize (bET d))))) ∧
    ((i, op) = (.brWiden c q bad, 0x31) → gives 4 ((List.range n).map fun j => raw 2 j * 2 ^ 16)) ∧
    ((i, op) = (.brNarrow c q bad, 0x32) → gives 2 ((List.range n).map fun j => narrow (raw 4 j))))

/-- R132: `BR_ROPE` rotates each pair of A by the cosine in B and the sine in C.
R127, R133: `BR_LD` brings BLEN elements of an activation handle into a tile and `BR_ST` takes them out, converting between
BF16 in memory and FP32 in the tile; `BR_ST` writes those elements' bytes alone. -/
def Obligations.BrayerRopeAndMoves : Prop :=
  (∀ (c : CoreId) (q : Fin 16) (bad : List Nat) (s : State) (it : Item) (x : Exec),
    let k := kOf c
    let d := it.desc
    let n := it.blen
    let a := s.tileElem k d (opA d n)
    let b := s.tileElem k d (opB d (n / 2))
    let e := s.tileElem k d (opC d (n / 2))
    let D := tileOp d 48 (etSize (bET d)) n true
    n % 2 = 0 → s.Works k q.val 0x2A it x → s.tileDamage k bad d n = none →
    ∃ t, exec (.brRope c q bad) s = .next t ∧ t.mem = s.mem ∧ s.BrayerEnds t k q.val it [] ∧
      s.TilesBecome t k D.tile (D.off * etSize (bET d)) (elemBytes (etSize (bET d))
        ((List.range (n / 2)).flatMap fun j =>
          [toEt (bET d) (ffma (fneg (a (2 * j + 1))) (e j) (fmul (a (2 * j)) (b j))),
           toEt (bET d) (ffma (a (2 * j + 1)) (b j) (fmul (a (2 * j)) (e j)))]))) ∧
  (∀ (c : CoreId) (q : Fin 16) (bad : List Nat) (s : State) (it : Item) (x : Exec),
    let k := kOf c
    let d := it.desc
    let n := it.blen
    let h := x.handle (bMH d)
    let size := fmtBits (hFORMAT h) / 8
    let place := fun i => hBASE h + bMOFF d + i * bMSTRIDE d * size
    let cross := hFORMAT h = fBF16 ∧ bET d = 0
    let es := etSize (bET d)
    (s.Works k q.val 0x33 it x → s.memDamage k 1 h d size n bad = none →
      ∃ t, exec (.brLd c q bad) s = .next t ∧ t.mem = s.mem ∧ s.BrayerEnds t k q.val it [] ∧
        s.TilesBecome t k (tileOp d 48 es n true).tile ((tileOp d 48 es n true).off * es)
          (elemBytes es ((List.range n).map fun i =>
            let v := s.coreNat k 1 (place i) size
            if cross then widen v else v))) ∧
    (s.Works k q.val 0x34 it x → s.tileDamage k bad d n = none → bMSTRIDE d ≠ 0 →
      ∃ t, exec (.brSt c q bad) s = .next t ∧ t.tiles = s.tiles ∧ s.BrayerEnds t k q.val it [] ∧
        (∀ i j, i < n → (hj : j < size) → t.byte (coreAddr k 1 (place i + j)) =
          let v := s.tileNat k (opA d n).tile (((opA d n).off + i * (opA d n).stride) * es) es
          BitVec.ofNat 8 ((if cross then narrow v else v) / 256 ^ j)) ∧
        (∀ a, (∀ i j, i < n → j < size → a ≠ coreAddr k 1 (place i + j)) → t.byte a = s.byte a)))

/-- R47, R48, R52, R134, R137: `BR_CVT` takes BLEN PS64 entries through the converter, each in its rounding mode, into a tile or as
FP8 into activation memory; the command carries SATURATED where an element saturated, and a NaR entry sets NAR_SEEN.
R54, R135, R136: `BR_QUANT` quantises FP32 elements into plain FP8, element by element, or into MX blocks of 32 with their
scales behind them, zeros filling the last block. -/
def Obligations.BrayerConversions : Prop :=
  (∀ (c : CoreId) (q : Fin 16) (bad : List Nat) (s : State) (it : Item) (x : Exec),
    let k := kOf c
    let d := it.desc
    let h := x.handle (bMH d)
    let w := fun i => BitVec.ofNat 64 (s.coreNat k 2 (hBASE h + bMOFF d + i * bMSTRIDE d * 8) 8)
    let r := fun f i => cvtPs f (w i) (hPSCALE h) (s.modeOf k d i)
    let codes := fun f => if (List.range it.blen).any (fun i => (r f i).2) then [0x06] else []
    let nar := (List.range it.blen).any fun i => decide (w i = psNaR)
    s.Works k q.val 0x35 it x → s.memDamage k 2 h d 8 it.blen bad = none →
    (bCDST d = 0 →
      let f := if bET d = 0 then fp32 else bf16
      ∃ t, exec (.brCvt c q bad) s = .next t ∧ t.mem = s.mem ∧ s.BrayerEndsNar t k q.val it (codes f) nar ∧
        s.TilesBecome t k (tileOp d 48 (etSize (bET d)) it.blen true).tile
          ((tileOp d 48 (etSize (bET d)) it.blen true).off * etSize (bET d))
          (elemBytes (etSize (bET d)) ((List.range it.blen).map fun i => (r f i).1))) ∧
    (bCDST d = 1 →
      let f := if hFORMAT (x.handle (bOH d)) = 0x03 then e4m3 else e5m2
      ∃ t, exec (.brCvt c q bad) s = .next t ∧ t.tiles = s.tiles ∧ s.BrayerEndsNar t k q.val it (codes f) nar ∧
        s.BytesBecome t (coreAddr k 1 (hBASE (x.handle (bOH d)) + bIMM d % 2 ^ 20))
          (elemBytes 1 ((List.range it.blen).map fun i => (r f i).1)))) ∧
  (∀ (c : CoreId) (q : Fin 16) (bad : List Nat) (s : State) (it : Item) (x : Exec),
    let k := kOf c
    let d := it.desc
    let h := x.handle (bMH d)
    let A := tileOp d 64 4 it.blen false
    let v := fun i => s.tileNat k A.tile ((A.off + i * A.stride) * 4) 4
    s.Works k q.val 0x36 it x → s.tileDamage k bad d it.blen = none →
    (fmtMX (hFORMAT h) = false → bMSTRIDE d = 1 →
      let r := fun i => quantPlain (if hFORMAT h = 0x03 then e4m3 else e5m2) (v i) (s.modeOf k d i)
      ∃ t, exec (.brQuant c q bad) s = .next t ∧ t.tiles = s.tiles ∧
        s.BrayerEnds t k q.val it (if (List.range it.blen).any (fun i => (r i).2) then [0x06] else []) ∧
        s.BytesBecome t (coreAddr k 1 (hBASE h + bMOFF d)) (elemBytes 1 ((List.range it.blen).map fun i => (r i).1))) ∧
    (fmtMX (hFORMAT h) = true →
      let blocks := (List.range (ceilDiv it.blen 32)).map fun b =>
        quantBlock (hFORMAT h) ((List.range 32).map fun j => if 32 * b + j < it.blen then v (32 * b + j) else 0)
          fun j => s.modeOf k d (32 * b + j)
      ∃ t, exec (.brQuant c q bad) s = .next t ∧ t.tiles = s.tiles ∧ s.BrayerEnds t k q.val it [] ∧
        s.BytesBecome t (coreAddr k 1 (hBASE h + bMOFF d))
          (blocks.flatMap (fun b => pack (fmtBits (hFORMAT h)) b.2) ++ blocks.map fun b => BitVec.ofNat 8 b.1)))

/-- R104, R139, R140, R45 to R48: `BR_RSUM`, `BR_RSUMSQ` and `BR_RDOT` form their exact sum on the grid 2^ASCALE, which mode ST stores as
PS64 through the handle, mode ACC adds to the entry there, mode RACC begins to send to its DIDX core, and mode TILE writes as FP32 into
one tile element; a clamp gives SATURATED, and a NaR sets NAR_SEEN. -/
def Obligations.BrayerReductions : Prop :=
  ∀ (c : CoreId) (q : Fin 16) (bad : List Nat) (s : State) (it : Item) (x : Exec) (i : Instr) (op : Nat),
    let k := kOf c
    let d := it.desc
    let n := it.blen
    let L := bASCALE d
    let a := fun j => decFp32 (s.tileElem k d (opA d n) j)
    let b := fun j => decFp32 (s.tileElem k d (opB d n) j)
    let sum := fun (f : Nat → Acc → Acc) => (List.range n).foldl (fun acc j => f j acc) Acc.zero
    let off := hBASE (x.handle (bMH d)) + bMOFF d
    let old := BitVec.ofNat 64 (s.coreNat k 2 off 8)
    let codes := fun (sat : Bool) => if sat = true then [0x06] else []
    let gives := fun (v : Acc) =>
      let w := v.store.1
      let sat := v.sat || v.store.2
      s.Works k q.val op it x → s.tileDamage k bad d n = none →
      (bYMODE d = 0 → ∃ t, exec i s = .next t ∧ t.tiles = s.tiles ∧ s.BrayerEndsNar t k q.val it (codes sat) v.nar ∧
        s.BytesBecome t (coreAddr k 2 off) (leBytes 8 w.toNat)) ∧
      (bYMODE d = 1 → s.damage k 2 off 8 bad = none →
        ∃ t, exec i s = .next t ∧ t.tiles = s.tiles ∧
          s.BrayerEndsNar t k q.val it (codes (sat || (psAdd old w).2)) (v.nar || decide (old = psNaR)) ∧
          s.BytesBecome t (coreAddr k 2 off) (leBytes 8 (psAdd old w).1.toNat)) ∧
      (bYMODE d = 2 → ∃ t, exec i s = .next t ∧ t.tiles = s.tiles ∧ t.mem = s.mem ∧ (t.core k).sreg = (s.core k).sreg ∧
        ∃ y ∈ (t.core k).xfers, y.txid = (s.core k).freshTx ∧ y.seq = it.seq ∧ y.dest = s.racDest k (bDIDX d) ∧ y.dh = bMH d) ∧
      (bYMODE d = 3 →
        ∃ t, exec i s = .next t ∧ t.mem = s.mem ∧
          s.BrayerEndsNar t k q.val it (codes (sat || (cvtPs fp32 w L .nearestEven).2)) v.nar ∧
          s.TilesBecome t k (tileOp d 48 4 1 true).tile ((tileOp d 48 4 1 true).off * 4)
            (leBytes 4 (cvtPs fp32 w L .nearestEven).1))
    ((i, op) = (.brRsum c q bad, 0x37) → gives (sum fun j acc => acc.add (some (1, 0)) (a j) L)) ∧
    ((i, op) = (.brRsumsq c q bad, 0x38) → gives (sum fun j acc => acc.add (a j) (a j) L)) ∧
    ((i, op) = (.brRdot c q bad, 0x39) → gives (sum fun j acc => acc.add (a j) (b j) L))

/-- R141, R142: `BR_RMAX` writes the greatest element; `BR_ARGMAX` and `BR_SAMPLE` write a record of an index and its element, the
element a NaN's canonical pattern where it is one; a draw that clamps gives SATURATED. -/
def Obligations.MaximaAndSampling : Prop :=
  ∀ (c : CoreId) (q : Fin 16) (bad : List Nat) (s : State) (it : Item) (x : Exec),
    let k := kOf c
    let d := it.desc
    let n := it.blen
    let a := (List.range n).map (s.tileElem k d (opA d n))
    let S := tileOp d 64 4 n false
    let ws := (List.range n).map fun j => s.tileNat k S.tile ((S.off + j * S.stride) * 4) 4
    let u := (rand64 (s.rd (aCoreK k 0x2C0)) (BitVec.ofNat 64 (bRSTREAM d)) (BitVec.ofNat 64 (bRCTR d)) 0).toNat / 2 ^ 32
    let elem := fun v => leBytes 4 (if isNaN v then 0x7FC00000 else v)
    let place := coreAddr k 1 (hBASE (x.handle (bMH d)) + bMOFF d)
    s.tileDamage k bad d n = none →
    (s.Works k q.val 0x3A it x → ∃ t, exec (.brRmax c q bad) s = .next t ∧ t.mem = s.mem ∧ s.BrayerEnds t k q.val it [] ∧
      s.TilesBecome t k (tileOp d 48 (etSize (bET d)) 1 true).tile ((tileOp d 48 (etSize (bET d)) 1 true).off * etSize (bET d))
        (leBytes (etSize (bET d)) (toEt (bET d) (maxOf a)))) ∧
    (s.Works k q.val 0x3B it x → ∃ t, exec (.brArgmax c q bad) s = .next t ∧ t.tiles = s.tiles ∧ s.BrayerEnds t k q.val it [] ∧
      s.BytesBecome t place (leBytes 4 (argMax a).1 ++ elem (argMax a).2)) ∧
    (s.Works k q.val 0x3C it x →
      ∃ t, exec (.brSample c q bad) s = .next t ∧ t.tiles = s.tiles ∧
      s.BrayerEnds t k q.val it (if (sample u (bASCALE d) ws).2.2 = true then [0x06] else []) ∧
      s.BytesBecome t place (leBytes 4 (sample u (bASCALE d) ws).1 ++ elem (sample u (bASCALE d) ws).2.1))

/-- R41 to R45, R96 to R104, R107, R108, R273: a `MATVEC` whose reads meet no damage forms, for each active item in turn, the N exact
dot products of the stripe's weights with the item's vector, on the grid 2^ASCALE. Mode ST stores them as PS64 from the item's Y
offset on, mode ACC adds each to the entry there, and mode RACC begins one transfer of them to its DIDX core; no other byte of memory
and no tile differs. Where weight rows have to be restored first, nothing is written before they are. -/
def Obligations.MatvecStores : Prop :=
  ∀ (c : CoreId) (q : Fin 16) (bad : List Nat) (s : State) (it : Item) (x : Exec),
    let k := kOf c
    let d := it.desc
    let T := stripeOf (x.handle (pWH d)) d
    let X := x.handle (pXH d)
    let f := hFORMAT X
    let reads := matvecReads T x.outliers
    let vec := fun i => s.coreRead k 1 (hBASE X + itemX d i) (vecBytes f T.K)
    let out := fun i j => (dot (s.weights k T x.outliers j) (decodeVec f T.K (vec i)) (pASCALE d)).store.1
    let place := fun i j => coreAddr k 2 (hBASE (x.handle (pYH d)) + itemY d i + 8 * j)
    let each := fun (g : Word → Word → Word) => (activeItems d).foldl (fun m i => (List.range (pN d)).foldl (fun m j =>
      writeMem m (place i j) (leBytes 8 (g (BitVec.ofNat 64 (leNat (readMem m (place i j) 8))) (out i j)).toNat)) m) s.mem
    let n := (s.core k).freshTx
    s.Works k q.val 0x10 it x →
    (s.rowsToRestore k bad reads ≠ [] →
      ∃ t, exec (.matvec c q bad) s = .next t ∧ s.RestoreBegins t k (s.rowsToRestore k bad reads)) ∧
    (s.rowsToRestore k bad reads = [] → (∀ i ∈ activeItems d, s.firstDamage k bad (reads ++ [(1, hBASE X + itemX d i, vecBytes f T.K)]) = none) →
    ∃ t, exec (.matvec c q bad) s = .next t ∧ t.tiles = s.tiles ∧ (∀ j, j ≠ k → t.core j = s.core j) ∧
      (pYMODE d ≠ 2 → (pYMODE d = 1 → ∀ i ∈ activeItems d,
          s.damage k 2 (hBASE (x.handle (pYH d)) + itemY d i) (8 * pN d) bad = none) →
        (∃ codes, (s.core k).Worked (t.core k) q.val it codes 0 ∧ ∀ e ∈ codes, e = 0x06) ∧
        t.mem = each (if pYMODE d = 1 then fun old w => (psAdd old w).1 else fun _ w => w)) ∧
      (pYMODE d = 2 → t.mem = s.mem ∧ (t.core k).sreg = (s.core k).sreg ∧
        ∃ y ∈ (t.core k).xfers, y.txid = n ∧ y.queue = q.val ∧ y.seq = it.seq ∧ y.dest = s.racDest k (pDIDX d) ∧ y.dh = pYH d))

/-- R110: `KV_APPEND` copies each item's 128 × T bytes from its X operand into its row of the KV handle, in item order.
R90, R104, R107, R111 to R113, R273: `ATT_SCORE` forms one dot product of the item's vector with each token's key, `ATT_APPLY` one sum
of each of D elements over the item's tokens; mode ST stores them as PS64 through the Y handle, mode ACC adds each to the entry there,
mode RACC begins one transfer of them; items of length 0 store nothing. -/
def Obligations.KvAndAttention : Prop :=
  (∀ (c : CoreId) (q : Fin 16) (bad : List Nat) (s : State) (it : Item) (x : Exec),
    let k := kOf c
    let d := it.desc
    let H := x.handle (pWH d)
    let X := x.handle (pXH d)
    s.Works k q.val 0x11 it x → (∀ e ∈ x.items, s.appendDamage k bad x d e = none) →
    ∃ t, exec (.kvAppend c q bad) s = .next t ∧ t.tiles = s.tiles ∧ (s.core k).WorkedOnRows (t.core k) q.val it [] ∧
      (∀ j, j ≠ k → t.core j = s.core j) ∧ t.errPend = s.errPend ∧
      t.mem = x.items.foldl (fun m e =>
        let bs := readMem m (coreAddr k 1 (hBASE X + itemX d e.item)) (128 * hT H)
        e.rows.foldl (fun m r => writeMem m (coreAddr k 0 r) bs) m) s.mem) ∧
  (∀ (c : CoreId) (q : Fin 16) (bad : List Nat) (s : State) (it : Item) (x : Exec),
    let k := kOf c
    let d := it.desc
    let H := x.handle (pWH d)
    let X := x.handle (pXH d)
    let Y := x.handle (pYH d)
    let f := hFORMAT X
    let L := pASCALE d
    let vec := fun (e : KvItem) len => decodeVec f len (s.coreRead k 1 (hBASE X + itemX d e.item) (vecBytes f len))
    let rows := fun (e : KvItem) => e.rows.map fun r => (unpack 8 (s.coreRead k 0 r (128 * hT H))).map (decElem (hFORMAT H))
    let sound := fun len => ∀ e ∈ x.items, e.n ≠ 0 → s.firstDamage k bad (kvReads H d e ++
      [(1, hBASE X + itemX d e.item, vecBytes f (len e))] ++ e.rows.map fun r => (0, r, 128 * hT H)) = none
    let place := fun (e : KvItem) (j : Nat) => coreAddr k 2 (hBASE Y + itemY d e.item + 8 * j)
    let stores := fun (i : Instr) (sums : KvItem → List Acc) =>
      let each := fun (g : Word → Word → Word) => (x.items.filter fun e => e.n ≠ 0).foldl (fun m e =>
        (sums e).zipIdx.foldl (fun m a =>
          writeMem m (place e a.2) (leBytes 8 (g (BitVec.ofNat 64 (leNat (readMem m (place e a.2) 8))) a.1.store.1).toNat)) m) s.mem
      ∃ t, exec i s = .next t ∧ t.tiles = s.tiles ∧ (∀ j, j ≠ k → t.core j = s.core j) ∧
        (pYMODE d ≠ 2 → (pYMODE d = 1 → ∀ e ∈ x.items, e.n ≠ 0 →
            s.damage k 2 (hBASE Y + itemY d e.item) (8 * (sums e).length) bad = none) →
          (∃ codes, (s.core k).Worked (t.core k) q.val it codes 0 ∧ ∀ e ∈ codes, e = 0x06) ∧
          t.mem = each (if pYMODE d = 1 then fun old w => (psAdd old w).1 else fun _ w => w)) ∧
        (pYMODE d = 2 → t.mem = s.mem ∧ (t.core k).sreg = (s.core k).sreg ∧
          ∃ y ∈ (t.core k).xfers, y.txid = (s.core k).freshTx ∧ y.queue = q.val ∧ y.seq = it.seq ∧
            y.dest = s.racDest k (pDIDX d) ∧ y.dh = pYH d)
    (s.Works k q.val 0x12 it x → sound (fun _ => pD d) →
      stores (.attScore c q bad) fun e => (rows e).map fun r => dot (r.take (pD d)) (vec e (pD d)) L) ∧
    (s.Works k q.val 0x13 it x → sound (fun e => e.n) →
      stores (.attApply c q bad) fun e => (List.range (pD d)).map fun i => dot ((rows e).map fun r => r.getD i none) (vec e e.n) L))

/-- R199, R201, R437: a `COPY` whose source is undamaged writes the source's bytes, in unit order, to the runs of its destination, and
nothing else; where they share bytes, it writes so every byte whose source byte it does not write from another place, and the others are
open (log 27). Where weight rows have to be restored first, nothing is written before they are.
R201, R204, R229, R263, R264, R268: `WRITE`, `WRITE_ACK`, `ACC_WRITE`, `READ` and `CIRCUIT` begin one transfer to DEST, of a number
of its own, with damaged source bytes too; no byte of this package changes before a packet of it arrives. A close waits while its
circuit is in use. -/
def Obligations.CopyAndTransfers : Prop :=
  (∀ (c : CoreId) (q : Fin 16) (bad : List Nat) (s : State) (it : Item) (x : Exec),
    let k := kOf c
    let d := it.desc
    let sh := x.handle (mSH d)
    let dh := x.handle (mDH d)
    let dst := runsOf (hBASE dh + mDOFF d) (mCOUNT d) (mSIZE d) (mDSTRIDE d)
    s.Works k q.val 0x40 it x →
    (s.srcRestore k sh d bad ≠ [] → ∃ t, exec (.copy c q bad) s = .next t ∧ s.RestoreBegins t k (s.srcRestore k sh d bad)) ∧
    (s.srcRestore k sh d bad = [] → s.srcDamage k sh d bad = none →
    ∃ t, exec (.copy c q bad) s = .next t ∧ t.tiles = s.tiles ∧ (s.core k).WorkedOnRows (t.core k) q.val it [] ∧
      (∀ j, j ≠ k → t.core j = s.core j) ∧ t.errPend = s.errPend ∧
      (let bs := s.srcBytes k sh d
       let moved := if copyOverlaps sh dh (srcRuns sh d) dst then copyBytes (placesOf (srcRuns sh d)) (placesOf dst) bs else bs
       t.mem = (deal dst moved).foldl (fun m e => writeMem m (coreAddr k (hSPACE dh) e.1) e.2) s.mem) ∧
      (∀ a, (∀ r ∈ dst, a < coreAddr k (hSPACE dh) r.1 ∨ coreAddr k (hSPACE dh) r.1 + r.2 ≤ a) → t.byte a = s.byte a))) ∧
  (∀ (c : CoreId) (q : Fin 16) (bad : List Nat) (peer : Bool) (s : State) (it : Item) (x : Exec),
    let k := kOf c
    let d := it.desc
    let n := (s.core k).freshTx
    let begins := fun (i : Instr) (op : Nat) =>
      ∃ t, exec i s = .next t ∧ t.mem = s.mem ∧ t.tiles = s.tiles ∧ (t.core k).sreg = (s.core k).sreg ∧
        (t.core k).flags = (s.core k).flags ∧ (t.core k).handles = (s.core k).handles ∧
        (∃ y ∈ (t.core k).xfers, y.txid = n ∧ y.queue = q.val ∧ y.seq = it.seq ∧ y.opcode = op ∧ y.dest = mDEST d) ∧
        (∃ it' ∈ (t.core k).queue q.val, it'.seq = it.seq ∧ ∃ x', it'.phase = .executing x' ∧ x'.worked = true ∧ x'.txid = some n)
    let whole := s.srcRestore k (x.handle (mSH d)) d bad = []
    (s.Works k q.val 0x41 it x → whole → begins (.write c q bad peer) 0x41) ∧
    (s.Works k q.val 0x42 it x → whole → begins (.writeAck c q bad peer) 0x42) ∧
    (s.Works k q.val 0x43 it x → whole → begins (.accWrite c q bad peer) 0x43) ∧
    (s.Works k q.val 0x44 it x → begins (.read c q) 0x44) ∧
    (s.Works k q.val 0x49 it x → mCOP d = 0 → begins (.circuitOpen c q) 0x49) ∧
    (s.Works k q.val 0x49 it x → mCOP d = 1 →
      ((s.core k).circIdle (mCIRC d) = true → begins (.circuitClose c q) 0x49) ∧
      ((s.core k).circIdle (mCIRC d) = false → exec (.circuitClose c q) s = .next s)))

/-- R204, R256: the segments of a transfer carry its bytes in order, at most 1,024 each, or 256 in an accumulate-write; each goes to
DEST under the destination handle and the transfer's number; they count up from 0. -/
def Obligations.SegmentsCarryTheBytes : Prop :=
  ∀ (s : State) (k ty : Nat) (d : Wide) (t : BitVec 12) (scale : Int) (bs : List Byte),
    bs.length = mCOUNT d * mSIZE d → mCOUNT d ≤ 2 ^ 32 →
    let ps := s.segments k ty d t scale bs false
    (ps.flatMap (·.payload)) = bs ∧
    (∀ p ∈ ps, p.payload.length ≤ (if ty = 1 then 256 else 1024)) ∧
    (∀ i (h : i < ps.length), i < 2 ^ 16 → kSEGNO ps[i] = i ∧ kTXID ps[i] = t)

/-- R208, R217, R219, R220, R268: a local `SIGNAL` adds VALUE to its flag modulo 2^32 and to no other, a remote one begins a transfer of
its flagged packet alone. A `WAIT` is worked with DONE once its flag satisfies it, or has satisfied it, within its deadline tick, with
NEAR_EXPIRY where the first tick of that is the deadline tick, and with TIMED_OUT once that tick has ended without it.
R66, R67, R208, R209, R439: `HANDLE_WRITE` installs the 32 bytes of its operand that pass R67, and with any other code installs
nothing; `EDITION_FENCE` flips every handle its mask names, or none and EDITION_CONFLICT, and carries ZERO_LENGTH where it names none;
a damaged operand changes no handle and gives PARITY. -/
def Obligations.SyncCommands : Prop :=
  (∀ (c : CoreId) (q : Fin 16) (s : State) (it : Item) (x : Exec),
    let k := kOf c
    let d := it.desc
    let n := yTIMEOUT d
    let met := ((s.core k).flag (yFLAG d) - yVALUE d).toNat < 2 ^ 31
    let metIn := fun (u : Nat) => x.met = some u ∨ (x.met = none ∧ met ∧ (n = 0 ∨ s.tick ≤ x.issued + n) ∧ u = s.tick)
    (s.Works k q.val 0x60 it x →
      (yRMT d = false →
        ∃ t, exec (.signal c q) s = .next t ∧ t.mem = s.mem ∧ (t.core k).sreg = (s.core k).sreg ∧
          (∀ j, j ≠ k → t.core j = s.core j) ∧
          (∀ f, (t.core k).flag f = if f = yFLAG d then (s.core k).flag f + yVALUE d else (s.core k).flag f) ∧
          (∃ it' ∈ (t.core k).queue q.val, it'.seq = it.seq ∧ ∃ x', it'.phase = .executing x' ∧ x'.worked = true)) ∧
      (yRMT d = true →
        ∃ t, exec (.signal c q) s = .next t ∧ t.mem = s.mem ∧ (t.core k).sreg = (s.core k).sreg ∧
          (∀ f, (t.core k).flag f = (s.core k).flag f) ∧
          (∃ y ∈ (t.core k).xfers, y.txid = (s.core k).freshTx ∧ y.dest = yDEST d ∧ y.flagPkt.isSome = true) ∧
          (∃ it' ∈ (t.core k).queue q.val, it'.seq = it.seq ∧ ∃ x', it'.phase = .executing x' ∧ x'.worked = true))) ∧
    (s.Works k q.val 0x61 it x →
      (metIn x.issued → ∃ t, exec (.wait c q) s = .next t ∧ s.OnlyCore k t ∧ (s.core k).Worked (t.core k) q.val it [] 0) ∧
      (∀ u, metIn u → ∃ t, exec (.waitArrival c q) s = .next t ∧ s.OnlyCore k t ∧
        (s.core k).Worked (t.core k) q.val it [] (if n ≠ 0 ∧ u = x.issued + n then 2 ^ 8 else 0)) ∧
      (x.met = none → n ≠ 0 → x.issued + n < s.tick →
        ∃ t, exec (.waitTimeout c q) s = .next t ∧ s.OnlyCore k t ∧ (s.core k).Worked (t.core k) q.val it [0x02] 0))) ∧
  (∀ (c : CoreId) (q : Fin 16) (bad : List Nat) (s : State) (it : Item) (x : Exec),
    let k := kOf c
    let d := it.desc
    let at' := hBASE (x.handle (ySH d)) + ySOFF d
    let v : Wide := BitVec.ofNat 256 (s.coreNat k 1 at' 32)
    let named := fun h => h < 256 ∧ v.getLsbD h = true
    let fit := fun h => hPEND ((s.core k).handle h) = true ∧ hEDPEND ((s.core k).handle h) = (yVALUE d).toNat
    let queueWorked := fun (t : State) (codes : List Nat) (flags : Nat) =>
      ∃ e, (s.core k).Worked e q.val it codes flags ∧ (t.core k).fifo = e.fifo ∧ (t.core k).sreg = (s.core k).sreg ∧
        (t.core k).flags = (s.core k).flags ∧ t.mem = s.mem ∧ t.ctl = s.ctl
    let hurt := fun (i : Instr) => ∃ t, exec i s = .next t ∧ (t.core k).handles = (s.core k).handles ∧ t.mem = s.mem ∧
      ∃ it' ∈ (t.core k).queue q.val, it'.seq = it.seq ∧ ∃ x', it'.phase = .executing x' ∧ x'.worked = true ∧ 0x07 ∈ x'.codes
    (s.damage k 1 at' 32 bad ≠ none →
      (s.Works k q.val 0x62 it x → hurt (.handleWrite c q bad)) ∧ (s.Works k q.val 0x63 it x → hurt (.editionFence c q bad))) ∧
    (s.damage k 1 at' 32 bad = none →
      (s.Works k q.val 0x62 it x →
        (s.handleCheck v = 0 → ∃ t, exec (.handleWrite c q bad) s = .next t ∧ queueWorked t [] 0 ∧
          ∀ h, (t.core k).handle h = if h = yTH d then v else (s.core k).handle h) ∧
        (s.handleCheck v ≠ 0 → ∃ t, exec (.handleWrite c q bad) s = .next t ∧ queueWorked t [s.handleCheck v] 0 ∧
          (t.core k).handles = (s.core k).handles)) ∧
      (s.Works k q.val 0x63 it x →
        ((∀ h, ¬ named h) → ∃ t, exec (.editionFence c q bad) s = .next t ∧ queueWorked t [] (2 ^ 11) ∧
          (t.core k).handles = (s.core k).handles) ∧
        ((∃ h, named h) → (∀ h, named h → fit h) → ∃ t, exec (.editionFence c q bad) s = .next t ∧ queueWorked t [] 0 ∧
          ∀ h, (named h → (t.core k).handle h = fenceEntry ((s.core k).handle h)) ∧
            (¬ named h → (t.core k).handle h = (s.core k).handle h)) ∧
        ((∃ h, named h ∧ ¬ fit h) → ∃ t, exec (.editionFence c q bad) s = .next t ∧ queueWorked t [0x0A] 0 ∧
          (t.core k).handles = (s.core k).handles))))

/-- R78, R182, R183, R187, R189: an engine's turn first marks the heads that wait for earlier commands, then takes the first queue, after
the one it last granted, whose head may issue; a head that passes every check begins to execute in that tick, and one that fails a
check completes with that check's code and raises its error record; where no head may issue nothing else changes.
R441, R442: a parity error in a core's control state freezes it at its engine's turn and raises a partition-fatal record. -/
def Obligations.IssueAndFreeze : Prop :=
  (∀ (c : CoreId) (e : Engine) (s : State),
    let k := kOf c
    let s1 := s.markStalled k (engineCode e)
    let pick := ((s1.core k).grantOrder (engineCode e)).find? (s1.canIssue k)
    s.live k = true →
    (pick = none → exec (.commandIssue c e false) s = .next s1) ∧
    (∀ (q : Nat) (it : Item), pick = some q → (s1.core k).head q = some it →
      let s2 := s1.modCore k fun c => { c with granted := Tbl.set 0 c.granted (engineCode e) (q + 1) }
      let code := s2.issueCheck k it.desc it.blen
      (code = 0 →
        ∃ t, exec (.commandIssue c e false) s = .next t ∧ t.mem = s.mem ∧ t.tiles = s.tiles ∧ t.errPend = s.errPend ∧
          (∀ j, j ≠ k → t.core j = s.core j) ∧ Tbl.get 0 (t.core k).granted (engineCode e) = q + 1 ∧
          (t.core k).flags = (s.core k).flags ∧ (t.core k).sreg = (s.core k).sreg ∧
          ∃ x, x.issued = s.tick ∧ x.codes = [] ∧
            (t.core k).fifo = ((s2.core k).updItem q it.seq fun i => { i with phase := .executing x }).fifo) ∧
      (code ≠ 0 →
        ∃ t, exec (.commandIssue c e false) s = .next t ∧ s2.Completes t k q it.seq code ∧
          Tbl.get 0 (t.core k).granted (engineCode e) = q + 1 ∧
          ∃ r ∈ t.errPend, r.source = (if dOP it.desc = 0x63 then 0x61 else 0x01) ∧ r.die = keyDie k ∧ r.core = keyFlat k))) ∧
  (∀ (c : CoreId) (e : Engine) (s : State), s.live (kOf c) = true →
    ∃ t, exec (.commandIssue c e true) s = .next t ∧ (t.core (kOf c)).frozen = true ∧ t.mem = s.mem ∧
      (t.core (kOf c)).fifo = (s.core (kOf c)).fifo ∧ ∃ r ∈ t.errPend, r.source = 0x13 ∧ r.core = keyFlat (kOf c))

/-- R47, R48, R168, R185, R188 to R190, R212: the oldest worked command of a queue that may complete does, with the first of its codes in
R188's order: a failing one raises its record and is captured where none is held, and one that saturated sets its queue's sticky bit;
a skipped command at the front of its queue gives SKIPPED. Completed commands at the front leave and signal in order.
R121, R122, R185, R200: a `BR_SETLEN` at the head of its queue completes with DONE where its length is at most 8,192 and its unused
fields are zero, with FORMAT_FAULT otherwise, and signals in its queue's order; the bound lengths stay those of the pushes. -/
def Obligations.Completion : Prop :=
  (∀ (c : CoreId) (q : Fin 16) (s : State),
    let k := kOf c
    let x := s.core k
    s.live k = true →
    (∀ (it : Item) (e : Exec), ((x.executing q.val).find? fun a => x.mayComplete a.1 a.2) = some (it, e) →
      let codes := e.codes ++ (match e.txid.bind x.xfer with | some y => y.codes | none => [])
      let code := pickCode codes
      ∃ t, exec (.commandComplete c q) s = .next t ∧ s.Completes t k q.val it.seq code ∧
        (0x06 ∈ codes → t.fld (aCoreK k 0x180) q.val 1 = 1) ∧
        (code ≠ 0 → e.recorded = false → ∃ r ∈ t.errPend,
          r.source = (if dOP it.desc = 0x63 then 0x61 else 0x01) ∧ r.die = keyDie k ∧ r.core = keyFlat k) ∧
        (code ≠ 0 → s.fld (aQstat k q.val) 48 1 = 0 → t.fld (aQstat k q.val) 48 1 = 1 ∧
          t.fld (aQstat k q.val) 32 16 = it.seq % 2 ^ 16 ∧ t.fld (aQstat k q.val) 16 8 = code)) ∧
    (∀ (it : Item) (rest : List Item), x.queue q.val = it :: rest → it.phase = .skipped →
      ∃ t, exec (.skipSignal c q) s = .next t ∧ s.Completes t k q.val it.seq 0x01)) ∧
  (∀ (c : CoreId) (q : Fin 16) (s : State) (it : Item),
    let k := kOf c
    let good := reservedOk it.desc = true ∧ bLEN it.desc ≤ 8192
    s.live k = true → (s.core k).head q.val = some it → dOP it.desc = 0x20 →
    (good → ∃ t, exec (.brSetlen c q) s = .next t ∧ s.Completes t k q.val it.seq 0x00 ∧ t.rd (aBrLen k) = s.rd (aBrLen k)) ∧
    (¬ good → ∃ t, exec (.brSetlen c q) s = .next t ∧ s.Completes t k q.val it.seq 0x04 ∧ t.rd (aBrLen k) = s.rd (aBrLen k) ∧
      ∃ r ∈ t.errPend, r.source = 0x01 ∧ r.die = keyDie k ∧ r.core = keyFlat k))

/-- R11, R47, R211, R142, R321, R324, R385: a register that only holds fields takes, from an aligned write of 4 or 8 bytes by an accessor
that may reach it, its RW fields and clears its W1C bits where 1 is written, and nothing else changes; the 64 words of
`CORE_RACC_DEST`, the seed and the sticky bits stand for them, and the scalar registers of a halted compositor take the whole word.
A host's write to a running context takes the same effect with its journal entry, or is held back where replay mode says so.
R385, R387: a write that is not aligned, one whose place the accessor's view does not admit, and one into a gap of BAR0 change
nothing.
R68, R88: LOAD copies the named handle's entry into the four words, INSTALL checks the words whole and installs them, with the
code in STATUS; a failing code, or a handle that an uncompleted command names, installs nothing; a write of both does nothing.
R222, R223: a write of a pool's entry takes LIMIT, HELD and RELFLAG together, and AVAIL with LIMIT, while no credit is lent; with a
credit lent, or a LIMIT above 1,024, only a 1 written to OVER has an effect. Requests that wait are granted, in their order, as AVAIL
allows. -/
def Obligations.CoreRegisters : Prop :=
  (∀ (who : Accessor) (c : CoreId) (size8 : Bool) (v : Word) (s : State),
    let k := kOf c
    let lanes : Word := if size8 then BitVec.allOnes 64 else 0xFFFFFFFF
    let writes := fun (o : Nat) (w : Word) =>
      let i := Instr.registerWrite who (BitVec.ofNat 32 (nameOff who (aCoreK k o))) size8 v
      s.mayAccess who (aCoreK k o) true = true →
      (s.hostInput who (aCoreK k o) = none →
        ∃ t, exec i s = .next t ∧ t = { s with ctl := t.ctl } ∧ ∀ a, t.rd a = if a = aCoreK k o then w else s.rd a) ∧
      (∀ p j, s.hostInput who (aCoreK k o) = some (p, j) →
        (s.mustWait p = false → ∃ t, exec i s = .next t ∧ t.rd (aCoreK k o) = w ∧ t.mem = s.mem ∧ t.tiles = s.tiles) ∧
        (s.mustWait p = true → ∃ t, exec i s = .next t ∧ t = { s with parts := t.parts } ∧
          (t.part p).held = (s.part p).held ++ [.reg who (aCoreK k o) size8 v]))
    s.powered = true →
    (∀ i, i < 64 → writes (0xA00 + 8 * i) ((s.rd (aCoreK k (0xA00 + 8 * i)) &&& ~~~0xFFFFF) ||| (v &&& 0xFFFFF))) ∧
    writes 0x180 (s.rd (aCoreK k 0x180) &&& ~~~(v &&& 0x3FFFF)) ∧
    writes 0x2C0 ((s.rd (aCoreK k 0x2C0) &&& ~~~lanes) ||| (v &&& lanes)) ∧
    (∀ n, 0 < n → n < 32 → (s.core k).run = false → s.mayAccess who (aCoreK k (0x600 + 8 * n)) true = true →
      s.hostInput who (aCoreK k (0x600 + 8 * n)) = none →
      ∃ t, exec (.registerWrite who (BitVec.ofNat 32 (nameOff who (aCoreK k (0x600 + 8 * n)))) true v) s = .next t ∧
        s.OnlyCore k t ∧ t.core k = { s.core k with sreg := Tbl.set 0 (s.core k).sreg n v })) ∧
  (∀ (who : Accessor) (off : BitVec 32) (size8 : Bool) (v : Word) (s : State),
    (off.toNat % (if size8 then 8 else 4) ≠ 0 → exec (.registerWrite who off size8 v) s = .next s) ∧
    (bar2Owner off.toNat who = none → (∀ a, ctlOff who off.toNat = some a → s.mayAccess who (a / 8 * 8) true = false) →
      exec (.registerWrite who off size8 v) s = .next s)) ∧
  (∀ (c : CoreId) (v : Word) (s : State),
    let k := kOf c
    let h := v.toNat % 256
    let e := s.selEntry k
    s.powered = true →
    (v.getLsbD 8 = true → v.getLsbD 9 = false →
      ∃ t, exec (.handleSelLoad c v) s = .next t ∧ t.cores = s.cores ∧ t.mem = s.mem ∧
        ∀ n, n < 4 → t.rd (aCoreK k (0x208 + 8 * n)) = BitVec.ofNat 64 (((s.core k).handle h).toNat / 2 ^ (64 * n))) ∧
    (v.getLsbD 9 = true → v.getLsbD 8 = false → s.handleBusy k h = false →
      (s.handleCheck e = 0 →
        ∃ t, exec (.handleSelInstall c v) s = .next t ∧ t.mem = s.mem ∧ t.fld (aCoreK k 0x200) 16 8 = 0 ∧
          ∀ n, (t.core k).handle n = if n = h then e else (s.core k).handle n) ∧
      (s.handleCheck e ≠ 0 → s.handleCheck e < 256 →
        ∃ t, exec (.handleSelInstall c v) s = .next t ∧ t.mem = s.mem ∧ t.fld (aCoreK k 0x200) 16 8 = s.handleCheck e ∧
          t.cores = s.cores)) ∧
    (v.getLsbD 9 = true → v.getLsbD 8 = false → s.handleBusy k h = true →
      ∃ t, exec (.handleSelInstall c v) s = .next t ∧ t.mem = s.mem ∧ t.fld (aCoreK k 0x200) 16 8 = 0x05 ∧ t.cores = s.cores) ∧
    (v.getLsbD 9 = true → v.getLsbD 8 = true →
      exec (.handleSelLoad c v) s = .next s ∧ exec (.handleSelInstall c v) s = .next s)) ∧
  (∀ (c : CoreId) (pool : Fin 32) (v : Word) (s : State),
    let k := kOf c
    let p := (s.core k).pool pool.val
    let limit := v.toNat % 2 ^ 11
    let free := p.avail = p.limit ∧ limit ≤ 1024
    let a := if free then limit else p.avail
    s.powered = true →
    ∃ t, exec (.creditPoolWrite c pool v) s = .next t ∧
      t = { s with cores := t.cores,
                   creditNet := s.creditNet ++ (p.waiting.take a).map fun w => .grant w.1 w.2 p.epoch 0 } ∧
      (∀ j, j ≠ k → t.core j = s.core j) ∧
      (t.core k).pool pool.val = { p with
        ovr := p.ovr && !v.getLsbD 33
        limit := if free then limit else p.limit
        avail := a - min a p.waiting.length
        held := if free then v.getLsbD 32 else p.held
        relflag := if free then v.toNat / 2 ^ 40 % 256 else p.relflag
        waiting := p.waiting.drop a } ∧
      (∀ n, n ≠ pool.val → (t.core k).pool n = (s.core k).pool n) ∧ (t.core k).sreg = (s.core k).sreg ∧
      (t.core k).handles = (s.core k).handles)

/-- R235, R402, R409, R437: an undamaged `HOST_WRITE` whose pieces fit the delivery buffer of the port that carries its partition places
them there in order and has done its work; one whose next piece finds no room, or waits behind others, places nothing yet; one that no
port carries ends with ABSORBED; weight rows of the source are restored first.
R205, R390, R398, R399: an entry of a `HOST_POST` is put at the CQ tail as two writes, its 62 bytes and then SRC 1 and the phase;
the tail moves on one entry, and the phase turns where it returns to 0. While the ring or the buffer takes none it waits; once the ring
is disabled with entries left, or no port carries the partition, it ends with ABSORBED (R391, R409). -/
def Obligations.HostWritesEnter : Prop :=
  (∀ (c : CoreId) (q : Fin 16) (bad : List Nat) (s : State) (it : Item) (x : Exec) (b f : Nat),
    let k := kOf c
    let d := it.desc
    let h := x.handle (mSH d)
    let ps := (s.hostPieces k h d bad).drop x.progress
    let p := s.partOfKey k
    s.Works k q.val 0x45 it x →
    (s.srcRestore k h d bad ≠ [] → ∃ t, exec (.hostWrite c q bad) s = .next t ∧ s.RestoreBegins t k (s.srcRestore k h d bad)) ∧
    (s.srcRestore k h d bad = [] → s.srcDamage k h d bad = none →
    (s.carrier p = none → ∃ t, exec (.hostWrite c q bad) s = .next t ∧ t = { s with cores := t.cores } ∧
      (s.core k).Worked (t.core k) q.val it [0x08] 0) ∧
    (∀ e es, s.carrier p = some (b, f) → ps = e :: es → (s.pport b).room e.2.1.length = false →
      ∃ t, exec (.hostWrite c q bad) s = .next t ∧ t = { s with cores := t.cores } ∧
        (t.core k).queue q.val = (s.core k).queue q.val) ∧
    (s.carrier p = some (b, f) → (s.pport b).queued = [] →
    (s.pport b).heldBytes + (ps.map fun e => e.2.1.length).sum ≤ 262144 →
    ∃ t, exec (.hostWrite c q bad) s = .next t ∧ t = { s with cores := t.cores, pports := t.pports } ∧
      (∀ j, j ≠ k → t.core j = s.core j) ∧ (s.core k).Worked (t.core k) q.val it [] 0 ∧
      (t.pport b).buf.map (·.2) = (s.pport b).buf.map (·.2) ++
        ps.map (fun e => cmdWrite p (mDH d) (k, q.val, it.seq, 0x45) e.1 e.2.1 e.2.2 none false) ∧
      (t.pport b).retained = (s.pport b).retained ∧ (t.pport b).reads = (s.pport b).reads))) ∧
  (∀ (c : CoreId) (q : Fin 16) (bad : List Nat) (s : State) (it : Item) (x : Exec) (b f : Nat),
    let k := kOf c
    let d := it.desc
    let r := mRING d
    let o := postSrc (x.handle (mSH d)) d x.progress
    let at' := (s.ringPlace r 8).2 + 64 * s.cqTail r
    let phase := s.fld (aRing r 0x28) 0 1
    let mine := some (k, q.val, it.seq, 0x48)
    let n := (s.pport b).entered
    let left := mCOUNT d - x.progress
    s.Works k q.val 0x48 it x →
    ((s.carrier (s.partOfKey k) = none ∨ (left ≠ 0 ∧ s.ringEn r = false)) →
      ∃ t, exec (.hostPost c q bad) s = .next t ∧ t = { s with cores := t.cores } ∧
        (s.core k).Worked (t.core k) q.val it [0x08] 0) ∧
    (s.carrier (s.partOfKey k) = some (b, f) → s.ringEn r = true → s.postable b r left = 0 →
      ∃ t, exec (.hostPost c q bad) s = .next t ∧ t = { s with cores := t.cores } ∧
        (t.core k).queue q.val = (s.core k).queue q.val) ∧
    (r / 256 = s.partOfKey k → s.carrier (s.partOfKey k) = some (b, f) → s.ringEn r = true →
    s.ringN r ≤ 2 ^ 16 → s.postable b r left = 1 → s.damage k 1 o 62 bad = none →
    ∃ t, exec (.hostPost c q bad) s = .next t ∧ t = { s with cores := t.cores, pports := t.pports, ctl := t.ctl } ∧
      (∀ j, j ≠ k → t.core j = s.core j) ∧
      t.core k = (s.core k).updExec q.val it.seq (fun y => { y with progress := y.progress + 1 }) ∧
      (t.pport b).buf = (s.pport b).buf ++
        [(n, ⟨r / 256, (s.ringPlace r 8).1, at', s.coreRead k 1 o 62, false, mine, none, true⟩),
         (n + 1, ⟨r / 256, (s.ringPlace r 8).1, at' + 62, [1, BitVec.ofNat 8 (128 * phase)], false, mine, some r, true⟩)] ∧
      t.cqTail r = (s.cqTail r + 1) % s.ringN r ∧
      t.fld (aRing r 0x28) 0 1 = (if s.cqTail r + 1 = s.ringN r then 1 - phase else phase)))

/-- R237, R238, R378, R389, R409: `HOST_READ`, in requests of at most the Max Read Request Size, and `HOST_FLUSH` begin their reads at
the port that carries their partition, once, and end with ABSORBED where none does; a lone read leaves at once on a link in L0 that
nothing of the port waits for: a flush's as a read of no byte at the last byte of its range. -/
def Obligations.HostReadsLeave : Prop :=
  ∀ (c : CoreId) (q : Fin 16) (s : State) (it : Item) (x : Exec) (b f : Nat) (e : (Nat × Nat) × List (Nat × Nat)),
    let k := kOf c
    let d := it.desc
    let p := s.partOfKey k
    let tag := (s.pport b).nextTag
    let rs := readPieces (s.fnCfg b f).maxRead (x.handle (mSH d)) d
    (s.carrier p = none →
      (s.Works k q.val 0x46 it x → x.progress = 0 → ∃ t, exec (.hostRead c q) s = .next t ∧ t = { s with cores := t.cores } ∧
        (s.core k).Worked (t.core k) q.val it [0x08] 0) ∧
      (s.Works k q.val 0x47 it x → ∃ t, exec (.hostFlush c q) s = .next t ∧ t = { s with cores := t.cores } ∧
        (s.core k).Worked (t.core k) q.val it [0x08] 0)) ∧
    (s.carrier p = some (b, f) → b < 2 →
    (s.linkUp b = false →
      (s.Works k q.val 0x46 it x → x.progress = 0 →
        ∃ t, exec (.hostRead c q) s = .next t ∧ t = { s with cores := t.cores, pports := t.pports } ∧
          (∀ j, j ≠ k → t.core j = s.core j) ∧ (t.pport b).buf = (s.pport b).buf ∧
          (t.pport b).reads.map (fun r => (r.win, r.off, r.len)) = (s.pport b).reads.map (fun r => (r.win, r.off, r.len)) ++
            rs.map (fun e => (mDH d, e.1.1, e.1.2))) ∧
      (s.Works k q.val 0x47 it x → (s.pport b).pieces k q.val it.seq = [] →
        ∃ t, exec (.hostFlush c q) s = .next t ∧ t = { s with pports := t.pports } ∧ (t.pport b).buf = (s.pport b).buf ∧
          (t.pport b).reads.map (fun r => (r.win, r.off, r.len)) = (s.pport b).reads.map (fun r => (r.win, r.off, r.len)) ++
            [(mDH d, mHOFF d, mSIZE d)])) ∧
    (s.linkUp b = true → (s.pport b).reads = [] → (s.pport b).buf = [] → (s.pport b).queued = [] →
      (s.Works k q.val 0x46 it x → x.progress = 0 → rs = [e] → 0 < e.1.2 → s.beyond p (mDH d) (e.1.1 + e.1.2 - 1) = 0 →
        ∃ t, exec (.hostRead c q) s = .next t ∧ t.mem = s.mem ∧
          t.out = s.out ++ [.hostRead b tag (s.winAddr p (mDH d) e.1.1) e.1.2]) ∧
      (s.Works k q.val 0x47 it x → 0 < mSIZE d → s.beyond p (mDH d) (mHOFF d + mSIZE d - 1) = 0 →
        ∃ t, exec (.hostFlush c q) s = .next t ∧ t.mem = s.mem ∧
          t.out = s.out ++ [.hostRead b tag (s.winAddr p (mDH d) (mHOFF d + mSIZE d - 1)) 0])))

/-- R223, R226: a request for a credit of a handle's pool takes one while AVAIL is at least 1 and waits behind the earlier ones
otherwise, which is first in, first out; one for a handle that charges no pool is granted, one for a pool of LIMIT 0 is refused with CREDIT_FAULT, and one for a
core that absorbs with ABSORBED; none of these takes a credit.
R204, R223, R226, R267, R518: a grant lets the segment that waits for it leave, on its way to its destination; a grant of a transfer
that has ended goes back, under the grant's epoch; a refusal ends the transfer with its code; an answer that nothing waits for, or that
is for another package, only leaves flight.
R223, R224, R424: a return raises AVAIL by one, up to LIMIT, where it carries the pool's epoch, and the requests that wait are granted
from it; a return of an earlier epoch, and one to a core that absorbs, is discarded. -/
def Obligations.Credits : Prop :=
  (∀ (c : CoreId) (dh : BitVec 8) (src : BitVec 20) (txid : BitVec 12) (s : State),
    let k := kOf c
    let h := (s.core k).handle dh.toNat
    let n := hPOOL h
    let p := (s.core k).pool n
    let answers := fun (code : Nat) (q : Pool) =>
      ∃ t, exec (.creditRequest c dh src txid) s = .next t ∧ t = { s with cores := t.cores, creditNet := t.creditNet } ∧
        (∀ j, j ≠ k → t.core j = s.core j) ∧ (t.core k).pool n = q ∧ (∀ m, m ≠ n → (t.core k).pool m = (s.core k).pool m) ∧
        t.creditNet = s.creditNet.erase (.request (s.nameOf k) dh.toNat src txid) ++ [.grant src txid p.epoch code]
    s.powered = true →
    (s.coreAbsorbed k = true → answers 0x08 p) ∧
    (s.coreAbsorbed k = false →
      (hPOOLEN h = false → answers 0x00 p) ∧
      (hPOOLEN h = true → p.limit = 0 → answers 0x0F p) ∧
      (hPOOLEN h = true → p.limit ≠ 0 →
        let ws := p.waiting ++ [(src, txid)]
        ∃ t, exec (.creditRequest c dh src txid) s = .next t ∧ t = { s with cores := t.cores, creditNet := t.creditNet } ∧
          (∀ j, j ≠ k → t.core j = s.core j) ∧
          (t.core k).pool n = { p with avail := p.avail - min p.avail ws.length, waiting := ws.drop p.avail } ∧
          (∀ m, m ≠ n → (t.core k).pool m = (s.core k).pool m) ∧
          t.creditNet = s.creditNet.erase (.request (s.nameOf k) dh.toNat src txid) ++
            (ws.take p.avail).map fun w => .grant w.1 w.2 p.epoch 0))) ∧
  (∀ (src : BitVec 20) (txid : BitVec 12) (epoch : Nat) (code : BitVec 8) (s : State) (x : Xfer),
    let k := a20Die src * 72 + a20Core src
    let c := s.core k
    let left := s.creditNet.erase (.grant (s.nameOf k) txid epoch code.toNat)
    let ends := fun (net : List Packet) (cr : List CreditMsg) (xs : List Xfer) =>
      ∃ t, exec (.creditGrant src txid epoch code) s = .next t ∧ t = { s with cores := t.cores, net := net, creditNet := cr } ∧
        (∀ j, j ≠ k → t.core j = s.core j) ∧ (t.core k).xfers = xs ∧ (t.core k).sreg = c.sreg ∧ (t.core k).fifo = c.fifo
    let me := a20Pkg src = s.position ∧ destOk src = true
    s.powered = true → s.bridgeAt src = none →
    (¬ me → exec (.creditGrant src txid epoch code) s =
      .next { s with creditNet := s.creditNet.erase (.grant src txid epoch code.toNat) }) ∧
    (me → c.xfer txid = none → ∃ t, exec (.creditGrant src txid epoch code) s = .next t ∧
      t = { s with cores := t.cores, creditNet := left } ∧ (∀ j, j ≠ k → t.core j = s.core j) ∧
      t.core k = { c with census := 0 }) ∧
    (me → c.xfers = [x] → x.txid = txid → x.requested = 1 → x.flag = .none →
    (∀ p, code = 0 → x.ended = false → x.needCredit = true → x.grants = [] → x.unsent = [p] → c.room x.dest = true →
      c.holds x.dest = false → kPKG p = s.position →
      ends (s.net ++ [s.withAge (s.onPath k p)]) left [{ x with requested := 0, unsent := [], unanswered := x.unanswered + 1 }]) ∧
    (code = 0 → x.ended = true → x.unsent = [] → x.unanswered ≠ 0 →
      ends s.net (left ++ [.giveBack x.dest x.dh (s.nameOf k) txid epoch]) [{ x with requested := 0 }]) ∧
    (∀ p, code ≠ 0 → x.ended = false → x.codes = [] → x.late = false → x.grants = [] → x.unsent = [p] →
      ends s.net left [{ x with requested := 0, unsent := [], ended := true, codes := [code.toNat] }]))) ∧
  (∀ (c : CoreId) (pool : Fin 32) (epoch : Nat) (s : State),
    let k := kOf c
    let p := (s.core k).pool pool.val
    let a := min p.limit (p.avail + 1)
    s.powered = true →
    ∃ t, exec (.creditReturn c pool epoch) s = .next t ∧ t = { s with cores := t.cores, creditNet := t.creditNet } ∧
      (∀ j, j ≠ k → t.core j = s.core j) ∧ (∀ n, n ≠ pool.val → (t.core k).pool n = (s.core k).pool n) ∧
      (t.core k).pool pool.val =
        (if s.coreAbsorbed k = false ∧ p.epoch = epoch then
          { p with avail := a - min a p.waiting.length, waiting := p.waiting.drop a } else p) ∧
      (t.core k).sreg = (s.core k).sreg ∧ (t.core k).flags = (s.core k).flags)

/-- R66, R74, R87, R272: a segment that its handle's current side holds, whose transfer passed at its first segment, is written there,
and poison marks change no byte: a `WRITE`'s payload as it is, each entry of an `ACC` added with saturation to the one it reaches; a raw
`WRITE` is written within its space.
R74, R248, R257, R258, R274: a segment that its handle refuses changes no byte, and is answered with the code; so is one that is
malformed, with FORMAT_FAULT, one whose address names no core or lies outside its space, with EXTENT_FAULT, and a packet that the
hellbox absorbs, with ABSORBED; an absorbed answer is answered by none. -/
def Obligations.SegmentsArrive : Prop :=
  (∀ (p : Packet) (s : State),
    let k := keyAt (kDADDR p)
    let h := (s.core k).handle (kDH p)
    let base := hBASE h + kOFF p
    let regs := fun (t : State) => (t.core k).sreg = (s.core k).sreg ∧ (t.core k).flags = (s.core k).flags ∧ t.tiles = s.tiles
    let passed := (kSEGNO p = 0 ∧ rxCheck p h (kARG p) = 0) ∨
      (kSEGNO p ≠ 0 ∧ ∃ r, (s.core k).rxOf (kSRC p) (kTXID p) = some r ∧ r.stale = false ∧ r.code = 0)
    s.arrives p = true → isCoreAt (kDADDR p) = true → packetOk p = true →
    (kTYPE p = 0 → kRAW p = true → s.rawOk p = true →
      ∃ t, exec (.writeSegment p) s = .next t ∧ regs t ∧ s.BytesBecome t (coreAddr k (kSPACE p) (kOFF p)) p.payload) ∧
    (kRAW p = false → passed → inSide p h = true →
      (kTYPE p = 0 → ∃ t, exec (.writeSegment p) s = .next t ∧ regs t ∧
        s.BytesBecome t (coreAddr k (hSPACE h) base) p.payload) ∧
      (kTYPE p = 1 → ∃ t, exec (.accPacket p) s = .next t ∧ regs t ∧
        (∀ i, i < p.payload.length / 8 → t.coreNat k 2 (base + 8 * i) 8 =
          (psAdd (BitVec.ofNat 64 (s.coreNat k 2 (base + 8 * i) 8)) (BitVec.ofNat 64 (leAt p.payload (8 * i) 8))).1.toNat) ∧
        ∀ a, (a < coreAddr k 2 base ∨ coreAddr k 2 base + p.payload.length ≤ a) → t.byte a = s.byte a))) ∧
  (∀ (p : Packet) (s : State),
    let k := keyAt (kDADDR p)
    let h := (s.core k).handle (kDH p)
    let answered := fun (i : Instr) (code : Nat) =>
      ∃ t, exec i s = .next t ∧ t.mem = s.mem ∧ t.tiles = s.tiles ∧ (a20Pkg (kSRC p) = s.position →
        ∃ r ∈ t.net, kTYPE r = 4 ∧ kTXID r = kTXID p ∧ kSEGNO r = kSEGNO p ∧ codeOf (BitVec.ofNat 16 (kARG r)) = code)
    let both := fun (code : Nat) =>
      (kTYPE p = 0 → answered (.writeSegment p) code) ∧ (kTYPE p = 1 → answered (.accPacket p) code)
    (s.arrives p = true → packetOk p = false → both 0x04) ∧
    (s.arrives p = true → packetOk p = true → isCoreAt (kDADDR p) = false → both 0x03) ∧
    (s.arrives p = true → packetOk p = true → isCoreAt (kDADDR p) = true →
      (kTYPE p = 0 → kRAW p = true → s.rawOk p = false → answered (.writeSegment p) 0x03) ∧
      (kRAW p = false → kSEGNO p = 0 → rxCheck p h (kARG p) ≠ 0 → both (rxCheck p h (kARG p)))) ∧
    (s.powered = true → s.absorbs p = true → kTYPE p ≠ 3 → kTYPE p ≠ 4 → answered (.hellboxAbsorb p) 0x08) ∧
    (s.powered = true → s.absorbs p = true → (kTYPE p = 3 ∨ kTYPE p = 4) →
      ∃ t, exec (.hellboxAbsorb p) s = .next t ∧ t.mem = s.mem ∧ t.tiles = s.tiles ∧ t.net = s.net.erase p))

/-- R74, R258, R436, R437, R439: a read that its handle's current side holds, or that lies within its space where it is raw, is answered
by an RDRSP with the bytes, and with PARITY_UNRECOVERED where a unit is damaged; no byte changes. One that its handle refuses is answered
without bytes. One whose weight rows are to be restored waits for that, as does one of rows under restore.
R201, R258, R260, R263, R264, R439, R518: an answer to a packet of a transfer is counted: one packet fewer awaits its answer from
that endpoint, and one of the transfer's; an ACK with DONE does nothing else to a transfer of data, one with a failing code ends it, and
the payload of a read response lands where its segment's bytes go, with any code. DONE for a probe enters the circuit in the table, DONE
for a release takes it out. -/
def Obligations.ReadsAndAnswers : Prop :=
  (∀ (p : Packet) (bad : List Nat) (s : State),
    let k := keyAt (kDADDR p)
    let h := (s.core k).handle (kDH p)
    let sp := if kRAW p then kSPACE p else hSPACE h
    let off := if kRAW p then kOFF p else hBASE h + kOFF p
    let rows := if sp = 0 then s.toRestore k off (kLEN p) bad else []
    let busy := sp = 0 ∧ (s.core k).underRestore off (kLEN p) = true
    let answered := fun (code : Nat) (bs : List Byte) =>
      ∃ t, exec (.rdreq p bad) s = .next t ∧ t.mem = s.mem ∧ t.tiles = s.tiles ∧ (a20Pkg (kSRC p) = s.position →
        ∃ r ∈ t.net, kTYPE r = 3 ∧ kTXID r = kTXID p ∧ kSEGNO r = kSEGNO p ∧ r.payload = bs ∧
          codeOf (BitVec.ofNat 16 (kARG r)) = code)
    s.arrives p = true → isCoreAt (kDADDR p) = true → packetOk p = true → kTYPE p = 2 →
    (kRAW p = true → s.rawOk p = false → answered 0x03 []) ∧
    (kRAW p = false → kSEGNO p = 0 → rxCheck p h (kARG p) ≠ 0 → answered (rxCheck p h (kARG p)) []) ∧
    ((if kRAW p then s.rawOk p = true else inSide p h = true ∧ ((kSEGNO p = 0 ∧ rxCheck p h (kARG p) = 0) ∨
        (kSEGNO p ≠ 0 ∧ ∃ r, (s.core k).rxOf (kSRC p) (kTXID p) = some r ∧ r.stale = false ∧ r.code = 0))) →
      (busy → ∃ t, exec (.rdreq p bad) s = .next t ∧ t.mem = s.mem ∧ t.net = s.net) ∧
      (¬ busy → rows ≠ [] → ∃ t, exec (.rdreq p bad) s = .next t ∧ s.RestoreBegins t k rows ∧
        ∃ r ∈ t.net, r.hdr = p.hdr ∧ r.payload = p.payload ∧ r.replayed = true) ∧
      (¬ busy → rows = [] →
        answered (if s.damage k sp off (kLEN p) bad = none then 0x00 else 0x07) (s.coreRead k sp off (kLEN p))))) ∧
  (∀ (p : Packet) (s : State) (x : Xfer) (a : Nat),
    let k := keyAt (kDADDR p)
    let c := s.core k
    let src := (kSRC p).toNat
    let code := codeOf (BitVec.ofNat 16 (kARG p))
    let counted := fun (t : State) (f : Xfer → Xfer) => (∀ j, j ≠ k → t.core j = s.core j) ∧
      t.core k = { c with census := 0, awaiting := Tbl.set 0 c.awaiting src (Tbl.get 0 c.awaiting src - 1),
                          restore := (t.core k).restore,
                          xfers := c.xfers.map fun z => if z.txid = kTXID p then f { z with
                            unanswered := z.unanswered - 1
                            verdict := z.verdict || kSEGNO p = 0
                            replayed := z.replayed || (BitVec.ofNat 16 (kARG p)).getLsbD 9 } else z }
    s.arrives p = true → isCoreAt (kDADDR p) = true → packetOk p = true →
    (∀ z ∈ c.xfers, z.unsent = [] ∧ z.needCredit = false ∧ z.flag = .none ∧ z.late = false) →
    (c.xfer (kTXID p) = none → kTYPE p = 4 →
      ∃ t, exec (.ack p) s = .next t ∧ t = { s with cores := t.cores, net := s.net.erase p } ∧ counted t id) ∧
    (c.xfer (kTXID p) = some x → x.opcode ≠ 0x49 →
      (kTYPE p = 4 → code = 0 →
        ∃ t, exec (.ack p) s = .next t ∧ t = { s with cores := t.cores, net := s.net.erase p } ∧ counted t id) ∧
      (kTYPE p = 4 → code ≠ 0 →
        ∃ t, exec (.ack p) s = .next t ∧ t = { s with cores := t.cores, net := s.net.erase p, creditNet := t.creditNet } ∧
          counted t fun z => { z with ended := true, grants := [],
                                      codes := if code ∈ z.codes then z.codes else z.codes ++ [code] }) ∧
      (kTYPE p = 3 → p.payload ≠ [] → x.landingOf (kSEGNO p) = [(a, p.payload.length)] →
        ∃ t, exec (.rdrsp p) s = .next t ∧ t.tiles = s.tiles ∧ t.net = s.net.erase p ∧
          (counted t fun z => { z with
            landing := z.landing.eraseP fun e => e.1 = kSEGNO p
            codes := if code = 0 ∨ code ∈ z.codes then z.codes else z.codes ++ [code] }) ∧
          s.BytesBecome t (coreAddr k (a / 2 ^ 26) (a % 2 ^ 26)) p.payload)) ∧
    (c.xfer (kTXID p) = some x → x.opcode = 0x49 → kTYPE p = 4 → code = 0 → ∀ d n, c.commandOf x = some d →
      (mCOP d = 0 → s.circFree k = some n →
        ∃ t, exec (.ack p) s = .next t ∧ t.mem = s.mem ∧ t.rd (aCirc k n) = circWord d) ∧
      (mCOP d = 1 → s.circEntry k (mCIRC d) = some n →
        ∃ t, exec (.ack p) s = .next t ∧ t.mem = s.mem ∧ t.rd (aCirc k n) = 0)))

/-- R217, R257, R270: a flagged packet of the imprint in force adds ARG to its flag and to no other, and is answered DONE; one of
another imprint adds nothing, is counted in `CORE_IMPRINT_REJ` and recorded, and is answered IMPRINT_MISMATCH; a malformed one adds
nothing and is answered FORMAT_FAULT.
R260, R268, R270, R372: the first held flagged packet leaves whose destination owes no answer, within the core's limits and while
packets are not held for an activation, with the imprint tag of that moment; where none may, all stay.
R257, R262 to R264, R370: a probe takes its slots, each free before, on every hop of its way through this package; at its destination
it is answered DONE, and before that it goes on to the next package; where a hop has too few, or an armed activation needs them, it takes
none and is answered HANDLE_FAULT; a malformed one is answered FORMAT_FAULT at its destination. A release frees every slot of its circuit
and no other. -/
def Obligations.FlagsAndCircuits : Prop :=
  (∀ (p : Packet) (s : State),
    let k := keyAt (kDADDR p)
    let answered := fun (t : State) (code : Nat) => a20Pkg (kSRC p) = s.position →
      ∃ r ∈ t.net, kTYPE r = 4 ∧ kTXID r = kTXID p ∧ codeOf (BitVec.ofNat 16 (kARG r)) = code
    s.arrives p = true → isCoreAt (kDADDR p) = true → kTYPE p = 5 →
    (packetOk p = false → ∃ t, exec (.flagPacket p) s = .next t ∧ t.mem = s.mem ∧ answered t 0x04 ∧
      (t.core k).flags = (s.core k).flags ∧ ∃ r ∈ t.errPend, r.source = 0x22 ∧ r.die = kDIE p) ∧
    (packetOk p = true → kITAG p = s.imprintTag → ∃ t, exec (.flagPacket p) s = .next t ∧ t.mem = s.mem ∧ answered t 0x00 ∧
      (t.core k).sreg = (s.core k).sreg ∧
      ∀ f, (t.core k).flag f = if f = kDH p then (s.core k).flag f + BitVec.ofNat 32 (kARG p) else (s.core k).flag f) ∧
    (packetOk p = true → kITAG p ≠ s.imprintTag → ∃ t, exec (.flagPacket p) s = .next t ∧ t.mem = s.mem ∧ answered t 0x09 ∧
      (t.core k).flags = (s.core k).flags ∧ t.fld (aCoreK k 0xE58) 0 20 = (kSRC p).toNat ∧
      t.fld (aCoreK k 0xE58) 20 12 = kITAG p ∧
      t.fld (aCoreK k 0xE58) 32 16 = min 65535 (s.fld (aCoreK k 0xE58) 32 16 + 1) ∧
      ∃ r ∈ t.errPend, r.source = 0x24 ∧ r.core = keyFlat k)) ∧
  (∀ (c : CoreId) (s : State) (p : Packet) (o : Option (BitVec 12)) (q n : Nat),
    let k := kOf c
    let x := s.core k
    let dest := nameAt (kDADDR p)
    let may := fun (h : Packet) => s.flagHold = false ∧ x.awaitOf (nameAt (kDADDR h)) = 0 ∧ x.room (nameAt (kDADDR h)) = true
    s.live k = true →
    (∀ pre post, x.held = pre ++ (p, o, q, n) :: post → (∀ h ∈ pre, ¬ may h.1) → may p →
      (∀ z ∈ x.xfers, z.unsent = [] ∧ z.needCredit = false ∧ z.flag ≠ .unsent) →
      ∃ t, exec (.flaggedPacketRelease c) s = .next t ∧ t.mem = s.mem ∧ t.tiles = s.tiles ∧ (∀ j, j ≠ k → t.core j = s.core j) ∧
        (t.core k).held = pre ++ post ∧ (t.core k).awaitOf dest = 1 ∧ (t.core k).flags = x.flags ∧
        (∀ tx, o = some tx → ∀ z ∈ (t.core k).xfers, z.txid = tx → z.flag = .left) ∧
        (kPKG p = s.position → t = { s with cores := t.cores, net := t.net } ∧
          ∃ r, t.net = s.net ++ [r] ∧ kITAG r = s.imprintTag ∧ nameAt (kDADDR r) = dest ∧ kDH r = kDH p ∧ kARG r = kARG p)) ∧
    ((∀ h ∈ x.held, ¬ may h.1) → exec (.flaggedPacketRelease c) s = .next s)) ∧
  (∀ (src : BitVec 20) (circ : BitVec 12) (s : State) (p : Packet) (hops : List Hop) (port : Option Nat),
    let own := ownerOf src circ
    let answered := fun (t : State) (code : Nat) => a20Pkg src = s.position →
      ∃ r ∈ t.net, kTYPE r = 4 ∧ kTXID r = kTXID p ∧ codeOf (BitVec.ofNat 16 (kARG r)) = code
    let same := fun (t : State) => t.cores = s.cores ∧ t.mem = s.mem ∧ t.tiles = s.tiles
    s.powered = true → s.absorbs p = false →
    (s.probeOf 6 src circ = some p →
      (kPKG p = s.position → packetOk p = false →
        ∃ t, exec (.copen src circ) s = .next t ∧ t.mem = s.mem ∧ t.slots = s.slots ∧ answered t 0x04) ∧
      ((kPKG p ≠ s.position ∨ packetOk p = true) → s.circHops src (kDADDR p) = some (hops, port) →
        (s.blockedHop (probeSlots p) hops = none → s.armedHop own (probeSlots p) hops = none →
          ∃ t, exec (.copen src circ) s = .next t ∧ same t ∧ t.ctl = s.ctl ∧
            (∀ h i, i < 32 → t.slotOwner h i ≠ s.slotOwner h i →
              hopKey h ∈ hops.map hopKey ∧ s.slotOwner h i = 0 ∧ t.slotOwner h i = own) ∧
            (∀ h, hops = [h] → ((List.range 32).filter fun i => t.slotOwner h i = own).length =
              ((List.range 32).filter fun i => s.slotOwner h i = own).length + probeSlots p) ∧
            (port = none → answered t 0x00) ∧ (port ≠ none → (⟨src, circ, kTXID p⟩ : Probe) ∈ t.probes)) ∧
        ((s.blockedHop (probeSlots p) hops ≠ none ∨ s.armedHop own (probeSlots p) hops ≠ none) →
          ∃ t, exec (.copen src circ) s = .next t ∧ same t ∧ t.slots = s.slots ∧ answered t 0x05))) ∧
    (s.probeOf 7 src circ = some p → Tbl.wf 0 s.slots = true → (kPKG p ≠ s.position ∨ packetOk p = true) →
      ∃ t, exec (.cclose src circ) s = .next t ∧ same t ∧ t.ctl = s.ctl ∧ (kPKG p = s.position → answered t 0x00) ∧
        ∀ h i, i < 32 → t.slotOwner h i = if s.slotOwner h i = own then 0 else s.slotOwner h i))

/-- R3, R87, R216, R248, R515: a raw write of a core's metadata or of a program store changes those bytes alone; one of 4 bytes of the
flag array replaces that flag; a raw read of the flag array gives the flag; each is answered. An address that is no place of the control
space is answered EXTENT_FAULT, the program store of a fused-off die ABSORBED (log 108), and neither changes a byte. -/
def Obligations.RawAccesses : Prop :=
  ∀ (p : Packet) (s : State) (a k off : Nat),
    let place := rawPlace (kDADDR p) (kSPAN p)
    let answered := fun (t : State) (ty code : Nat) => a20Pkg (kSRC p) = s.position →
      ∃ r ∈ t.net, kTYPE r = ty ∧ kTXID r = kTXID p ∧ codeOf (BitVec.ofNat 16 (kARG r)) = code
    s.arrives p = true → packetOk p = true → kTYPE p = 8 →
    (s.storeFused (kDADDR p) = true → ∃ t, exec (.ctrlRawAccess p) s = .next t ∧ t.mem = s.mem ∧ t.ctl = s.ctl ∧ answered t 4 0x08) ∧
    (s.storeFused (kDADDR p) = false →
      (place = .nowhere → ∃ t, exec (.ctrlRawAccess p) s = .next t ∧ t.mem = s.mem ∧ t.ctl = s.ctl ∧
        answered t (if kLEN p = 0 then 3 else 4) 0x03) ∧
      (p.payload ≠ [] → place = .bytes a →
        ∃ t, exec (.ctrlRawAccess p) s = .next t ∧ s.BytesBecome t a p.payload ∧ t.ctl = s.ctl ∧ t.tiles = s.tiles ∧
          answered t 4 0x00) ∧
      (p.payload.length = 4 → place = .flags k off → off % 4 = 0 →
        ∃ t, exec (.ctrlRawAccess p) s = .next t ∧ t.mem = s.mem ∧ t.ctl = s.ctl ∧ answered t 4 0x00 ∧
          ∀ f, (t.core k).flag f = if f = off / 4 then BitVec.ofNat 32 (leNat p.payload) else (s.core k).flag f) ∧
      (kLEN p = 0 → kARG p = 4 → place = .flags k off → off % 4 = 0 →
        ∃ t, exec (.ctrlRawAccess p) s = .next t ∧ t.mem = s.mem ∧ t.ctl = s.ctl ∧ (a20Pkg (kSRC p) = s.position →
          ∃ r ∈ t.net, kTYPE r = 3 ∧ kTXID r = kTXID p ∧ leNat r.payload = ((s.core k).flag (off / 4)).toNat)))

/-- R440: each of the first eight failures of a flit at a hop marks the packets there as replayed and changes nothing else but for a
corrected record; the next ends them: a packet is answered PARITY_UNRECOVERED, an answer reaches its requester as such an ACK, with a
record of class contained.
R239, R240, R267: a core blocked for 4,096 ticks is frozen, with the tick, its blocked queues and a partition-fatal record; a
circuit one of whose hops has gone is marked BROKEN, once, with a record of class contained. -/
def Obligations.HopsCensusBreaks : Prop :=
  (∀ (h : Hop) (n : Nat) (p : Packet) (held : List Packet) (s : State), s.powered = true →
    (n < 8 → ∃ t, exec (.hopRetry h n held) s = .next t ∧ t.mem = s.mem ∧ t.cores = s.cores ∧
      t.net = s.net.map (fun q => if q ∈ held then { q with replayed := true } else q) ∧
      ∃ r ∈ t.errPend, r.source = 0x20 ∧ r.location = h.out % 256 ∧ (s.errPend = [] → r.cls = 0)) ∧
    (8 ≤ n → p ∈ s.net →
      ∃ t, exec (.hopRetry h n [p]) s = .next t ∧ t.mem = s.mem ∧ t.tiles = s.tiles ∧
        (((kTYPE p = 3 ∨ kTYPE p = 4) ∨ a20Pkg (kSRC p) = s.position) →
          ∃ r ∈ t.net, kTYPE r = 4 ∧ kTXID r = kTXID p ∧ codeOf (BitVec.ofNat 16 (kARG r)) = 0x07) ∧
        ∃ r ∈ t.errPend, r.source = 0x21 ∧ r.location = h.out % 256 ∧ (s.errPend = [] → r.cls = 1))) ∧
  (∀ (c : CoreId) (circ : BitVec 12) (why : BreakCause) (s : State) (n : Nat),
    let k := kOf c
    (s.live k = true → 4096 < (s.core k).census → s.censusBlocked k = true →
      ∃ t, exec (.censusFreeze c) s = .next t ∧ t.mem = s.mem ∧ (t.core k).frozen = true ∧ (t.core k).fifo = (s.core k).fifo ∧
        t.fld (aCoreK k 0xD00) 0 1 = 1 ∧ t.rd (aCoreK k 0xD08) = BitVec.ofNat 64 s.tick ∧
        ∃ r ∈ t.errPend, r.source = 0x03 ∧ r.core = keyFlat k) ∧
    (s.powered = true → s.circEntry k circ.toNat = some n → s.fld (aCirc k n) 14 1 = 0 → s.circGone k n circ why = true →
      ∃ t, exec (.circuitBreak c circ why) s = .next t ∧ t.mem = s.mem ∧ t.cores = s.cores ∧ t.fld (aCirc k n) 14 1 = 1 ∧
        t.slots = s.slots ∧ ∃ r ∈ t.errPend, r.source = 0x23 ∧ r.core = keyFlat k))

/-- R282, R285, R289 to R292: a codeword that cannot be decoded is counted and answered with a NAK; the expected DATA flit joins the
packet of its channel, which its LAST flit hands on; another number asks for a replay; ACKSEQ empties the replay buffer; a NAK, and
1 µs without an acknowledgement, sends every buffered flit again, in order, until the eighth from one number retrains the port. -/
def Obligations.FlitsAndReplay : Prop :=
  ∀ (port : Fin 12) (cw : List Nat) (again : Bool) (f : WireFlit) (fixed : List Nat) (ackseq : BitVec 16) (h : TxFlit)
    (rest : List TxFlit) (s : State),
    let p := port.val
    let r := s.rport p
    let rx := Instr.ronnenFlitRx port cw again
    let vc := f.body.cls / 2
    let old := Tbl.get ([], false) r.asm vc
    let cur := if f.body.first then ([f.body], again) else (old.1 ++ [f.body], old.2 || again)
    let pk := packetOf cur.1 cur.2
    let resent := fun (i : Instr) (late : Nat) (gone : Bool) =>
      ∃ t more new, exec i s = .next t ∧ t.net = s.net ∧ t.mem = s.mem ∧ t.cores = s.cores ∧
        t.fld (aRnn p 0x20) 0 32 = (s.fld (aRnn p 0x20) 0 32 + 1) % 2 ^ 32 ∧
        t.fld (aRnn p 0x20) 32 16 = min 65535 (s.fld (aRnn p 0x20) 32 16 + late) ∧
        (t.rport p).replay = h :: rest ++ new ∧
        (t.rport p).wire.map (fun w => (w.ftype, w.seq, w.body, w.again)) =
          r.wire.map (fun w => (w.ftype, w.seq, w.body, w.again)) ++ (h :: rest).map (fun w => (1, w.seq, w.body, true)) ++ more ∧
        t.rnnState p = (if gone = false ∧ 7 ≤ r.sameStart ∧ r.lastStart = h.seq then 6 else 5)
    s.powered = true →
    (s.rnnState p ≠ 5 → s.rnnState p ≠ 8 → exec rx s = .next s ∧ exec (.ronnenNak port ackseq) s = .next s ∧
      exec (.replayTimeout port) s = .next s) ∧
    (s.rnnState p = 5 →
      (receiveFlit cw = none → ∃ t w, exec rx s = .next t ∧ t = { s with ctl := t.ctl, rports := t.rports } ∧
        t.fld (aRnn p 0x18) 32 32 = (s.fld (aRnn p 0x18) 32 32 + 1) % 2 ^ 32 ∧ (t.rport p).wire = r.wire ++ [w] ∧
        w.nak = true ∧ w.ackseq = (r.rxNext + 65535) % 65536 ∧ (t.rport p).nakOut = true ∧ (t.rport p).rxNext = r.rxNext) ∧
      (receiveFlit cw = some (f, fixed) →
        (f.ftype = 1 → f.seq ≠ r.rxNext → ∃ t, exec rx s = .next t ∧ t.net = s.net ∧ t.mem = s.mem ∧ t.cores = s.cores ∧
          (t.rport p).rxNext = r.rxNext ∧ (t.rport p).nakOut = true) ∧
        (f.ftype ≠ 1 → ∃ t, exec rx s = .next t ∧ t.net = s.net ∧ t.mem = s.mem ∧ t.cores = s.cores ∧
          (t.rport p).rxNext = r.rxNext ∧ (t.rport p).nakOut = r.nakOut) ∧
        (f.ftype ≠ 1 → f.nak = false → ∃ t new, exec rx s = .next t ∧
          (t.rport p).replay = (if f.ackv then r.replay.dropWhile (fun w => !seqAfter w.seq f.ackseq) else r.replay) ++ new) ∧
        (f.ftype = 1 → f.seq = r.rxNext → s.rnnState (partner p) ≠ 8 →
          (f.body.last = false → ∃ t, exec rx s = .next t ∧ t.net = s.net ∧ t.mem = s.mem ∧ t.cores = s.cores ∧
            Tbl.get ([], false) (t.rport p).asm vc = cur ∧ (t.rport p).rxNext = (r.rxNext + 1) % 65536 ∧
            (t.rport p).nakOut = false) ∧
          (f.body.last = true → kPKG pk = s.position ∨ kTYPE pk = tyCOPEN ∨ kTYPE pk = tyCCLOSE →
            ∃ t, exec rx s = .next t ∧ t.net = s.net ++ [pk] ∧ t.mem = s.mem ∧ t.cores = s.cores ∧
              Tbl.get ([], false) (t.rport p).asm vc = ([], false) ∧ (t.rport p).rxNext = (r.rxNext + 1) % 65536 ∧
              (t.rport p).nakOut = false))) ∧
      (let gone := r.replay.takeWhile fun w => !seqAfter w.seq ackseq.toNat
       r.replay = gone ++ h :: rest → resent (.ronnenNak port ackseq) 0 (gone ≠ [])) ∧
      (r.replay = h :: rest → r.lastAckTick + 250 ≤ s.tick → resent (.replayTimeout port) 1 false))

/-- R293 to R295: the training states follow each other to INIT, where the port sends its IDENT, again every 10 ms while it mismatches;
a failing lane moves to its direction's spare on the way; a failure leads to DOWN, but from RETRAIN only the third; an IDENT that
matches makes the port ACTIVE, with numbers from 0 but after a RETRAIN, another sets MISMATCH; a port that may train leaves DOWN for
DETECT after 1 s; RETRAIN written 1 takes an ACTIVE port to RETRAIN. -/
def Obligations.PortTraining : Prop :=
  ∀ (port : Fin 12) (good : Bool) (lane peerLane : Option (Fin 9)) (pos : BitVec 6) (peerPort : BitVec 4) (role : BitVec 3)
    (s : State),
    let p := port.val
    let r := s.rport p
    let st := s.rnnState p
    let ok := s.identOk p pos.toNat peerPort.toNat role.toNat
    let spare := fun (rx : Bool) => r.spareBad rx = false ∧ s.logicalOf p (if rx then 32 else 0) 8 = none
    let goes := fun (i : Instr) (x : Nat) => ∃ t, exec i s = .next t ∧ t.rnnState p = x ∧ t.net = s.net ∧ t.mem = s.mem ∧
      t.cores = s.cores ∧
      ∀ q, q ≠ p → t.rport q = { s.rport q with peerDepth := (t.rport q).peerDepth, syncT1 := (t.rport q).syncT1 }
    s.powered = true →
    (st = 1 ∨ st = 2 ∨ st = 3 ∨ st = 6 → (lane ≠ none → spare true) → (peerLane ≠ none → spare false) →
      goes (.ronnenTrainingStep port true lane peerLane) (if st = 3 ∨ st = 6 then 4 else st + 1) ∧
      ∃ t, exec (.ronnenTrainingStep port true lane peerLane) s = .next t ∧ ∀ m, m < 8 →
        t.fld (aRnn p 0x10) (32 + 4 * m) 4 =
          (if (lane.bind fun l => s.logicalOf p 32 l.val) = some m then 8 else s.fld (aRnn p 0x10) (32 + 4 * m) 4) ∧
        t.fld (aRnn p 0x10) (4 * m) 4 =
          (if (peerLane.bind fun l => s.logicalOf p 0 l.val) = some m then 8 else s.fld (aRnn p 0x10) (4 * m) 4)) ∧
    (st = 1 ∨ st = 2 ∨ st = 3 → goes (.ronnenTrainingStep port false lane peerLane) 7) ∧
    (st = 6 → goes (.ronnenTrainingStep port false lane peerLane) (if 2 ≤ r.retrainFails then 7 else 6)) ∧
    (st ≠ 1 → st ≠ 2 → st ≠ 3 → st ≠ 6 → exec (.ronnenTrainingStep port good lane peerLane) s = .next s) ∧
    (st = 4 → goes (.ident port pos peerPort role) (if ok then 5 else 4) ∧
      ∃ t, exec (.ident port pos peerPort role) s = .next t ∧ t.fld (aRnn p 8) 6 1 = (if ok then 0 else 1) ∧
        t.fld (aRnn p 8) 12 6 = pos.toNat ∧ t.fld (aRnn p 8) 18 4 = peerPort.toNat ∧
        (ok = true → (t.rport p).rxNext = (if r.fromRetrain then r.rxNext else 0))) ∧
    (st ≠ 4 → exec (.ident port pos peerPort role) s = .next s) ∧
    (st = 4 → s.fld (aRnn p 8) 6 1 = 1 → r.identTick + 2500000 ≤ s.tick →
      ∃ t, exec (.identRetry port) s = .next t ∧ t.rnnState p = 4 ∧ (t.rport p).msgs = r.msgs ++ [s.ident p]) ∧
    (st = 7 → s.mayTrain p = true → r.downTick + 250000000 ≤ s.tick → goes (.portDownRestart port) 1) ∧
    (st = 5 → goes (.rnnCtrlRetrain port) 6) ∧ (st ≠ 5 → exec (.rnnCtrlRetrain port) s = .next s)

/-- R267, R274, R295, R296, R451: a port that goes DOWN, or stays out of ACTIVE for 10 µs, tells its peer over the partner port the last
number it accepted, hands what its own peer has not accepted over to the partner, or has it absorbed where that is down too, and
keeps nothing; a LANE_SWAP names the lane, and at the 64th boundary the logical lane that it carried moves to the spare, which is
recorded, but a second failure of the direction takes the port down; a lane that loses lock is named to the peer. -/
def Obligations.PortsAndLanesDown : Prop :=
  ∀ (port : Fin 12) (lane : Fin 9) (rx : Bool) (rest : List (Bool × Nat)) (peerSeq : BitVec 16) (n : Nat) (s : State),
    let p := port.val
    let o := partner p
    let r := s.rport p
    let gone := r.unsentPackets peerSeq.toNat
    let empty := fun (t : State) => (t.rport p).replay = [] ∧ (t.rport p).txWait = []
    let partnerUp := s.rnnState o ≠ 0 ∧ s.rnnState o ≠ 7 ∧ s.rnnState o ≠ 8
    let moves := fun (i : Instr) (x : Nat) => ∃ t, exec i s = .next t ∧ t.rnnState p = x ∧ t.net = s.net ∧ t.mem = s.mem ∧ empty t ∧
      (t.rport o).msgs = (s.rport o).msgs ++ [.handover ((r.rxNext + 65535) % 65536)] ∧
      (s.rnnState o ≠ 5 → (t.rport o).txWait = (s.rport o).txWait ++ gone.flatten) ∧
      ∀ b ∈ gone.flatten, b ∈ (t.rport o).txWait ∨ ∃ w ∈ (t.rport o).replay, w.body = b
    let lo := if rx then 32 else 0
    s.powered = true →
    (partnerUp → (s.rnnState p = 4 ∨ s.rnnState p = 5 ∨ s.rnnState p = 6 ∨ s.rnnState p = 7 → moves (.portDown port peerSeq) 7) ∧
      (s.rnnState p ≠ 5 → s.rnnState p ≠ 8 → r.outTick + 2500 ≤ s.tick → r.flits ≠ [] →
        moves (.portHandoverTimeout port peerSeq) (s.rnnState p))) ∧
    (¬ partnerUp → s.rnnState p = 4 ∨ s.rnnState p = 5 ∨ s.rnnState p = 6 ∨ s.rnnState p = 7 →
      ∃ u, exec (.portDown port peerSeq) s = .next (gone.foldl (fun v bs => v.absorbAway (packetOf bs (bs.any (·.marked)))) u) ∧
        u.rnnState p = 7 ∧ empty u ∧ u.net = s.net ∧ u.mem = s.mem) ∧
    (s.rnnState p = 4 ∨ s.rnnState p = 5 ∨ s.rnnState p = 6 → partnerUp →
      ∃ t, exec (.portDown port peerSeq) s = .next t ∧ ∃ e ∈ t.errPend, e.source = 0x33) ∧
    (s.rnnState p ≠ 5 → exec (.laneSwap port lane) s = .next s ∧ exec (.symbolLockLoss port lane) s = .next s ∧
      exec (.laneSwitch port) s = .next s) ∧
    (s.rnnState p = 5 →
      (∃ t, exec (.laneSwap port lane) s = .next t ∧ t = { s with rports := t.rports } ∧
        (t.rport p).swaps = (if (false, lane.val) ∈ r.swaps then r.swaps else r.swaps ++ [(false, lane.val)])) ∧
      (∃ t, exec (.symbolLockLoss port lane) s = .next t ∧
        (t.rport p).swaps = (if (true, lane.val) ∈ r.swaps then r.swaps else r.swaps ++ [(true, lane.val)]) ∧
        (t.rport p).msgs = r.msgs ++ [.laneSwap lane.val] ∧ t.rnnState p = 5 ∧ ∃ e ∈ t.errPend, e.source = 0x32) ∧
      (r.swaps = (rx, lane.val) :: rest → s.logicalOf p lo lane.val = some n →
        (s.logicalOf p lo 8 = none → r.spareBad rx = false →
          ∃ t, exec (.laneSwitch port) s = .next t ∧ t.rnnState p = 5 ∧ (t.rport p).swaps = rest ∧
            (∀ m, m < 8 → t.fld (aRnn p 0x10) (lo + 4 * m) 4 = if m = n then 8 else s.fld (aRnn p 0x10) (lo + 4 * m) 4) ∧
            (∀ m, m < 8 → t.fld (aRnn p 0x10) (32 - lo + 4 * m) 4 = s.fld (aRnn p 0x10) (32 - lo + 4 * m) 4) ∧
            t.fld (aRnn p 8) 8 4 = lane.val ∧ t.fld (aRnn p 8) 5 1 = 1 ∧ ∃ e ∈ t.errPend, e.source = 0x32) ∧
        (s.logicalOf p lo 8 ≠ none ∨ r.spareBad rx = true →
          ∃ t, exec (.laneSwitch port) s = .next t ∧ t.rnnState p = 7 ∧ t.fld (aRnn p 8) 8 4 = lane.val)))

/-- R298 to R300: a package that is not the root asks its parent, or every neighbour while it seeks one, once in 262,144 ticks; a
neighbour's request is answered with this package's depth; the first answer of an aligned parent steps the counter by the offset
where nothing is armed, an aligned package never steps, one whose offset lies beyond 16 units loses its alignment, and one that has
been aligned recovers without a step within 16 units; an answer from elsewhere only reports.
R293, R301, R477: LOOP_EN set takes an ACTIVE port to LOOPBACK at depths 1 to 5, those of the far end by a request to the peer, and a
DISABLED one at depths 1 and 5; cleared, it takes the port to DETECT; RETRAIN written with it goes first; a fused port ignores both
fields; a peer's request does the same here, and one for another depth, or in another state, is ignored; a codeword or a flit goes back at the depths that return it, and at
depth 2 goes to the checker, which does nothing while no pattern runs. -/
def Obligations.AlignmentAndLoops : Prop :=
  (∀ (port : Fin 12) (t1 t2 t3 t4 depth : Nat) (up child : Bool) (s : State),
    let p := port.val
    let o := syncOffset t1 t2 t3 t4
    let near := -16 ≤ o ∧ o ≤ 16
    let synced := fun (u : State) (q : Nat) => u.fld (aRnn q 8) 4 1
    let rsp := Instr.syncRsp port t1 t2 t3 t4 depth up child
    let seeks := s.parentStage = .sought
    s.powered = true →
    (s.isRoot = false → s.isNow t1 = true → s.syncDue = true →
      (¬ seeks → s.rnnState s.syncPort = 5 →
        ∃ t, exec (.syncMeasurement t1) s = .next t ∧ t = { s with rports := t.rports, syncTick := some s.tick } ∧
          (t.rport s.syncPort).msgs = (s.rport s.syncPort).msgs ++ [.syncReq t1] ∧ (t.rport s.syncPort).syncT1 = some t1) ∧
      (seeks → s.parentChoices = [] → ∃ t, exec (.syncMeasurement t1) s = .next t ∧
        ∀ q, q < 12 → s.rnnState q = 5 →
          (t.rport q).msgs = (s.rport q).msgs ++ [.syncReq t1] ∧ (t.rport q).syncT1 = some t1)) ∧
    (s.isRoot = true ∨ s.isNow t1 = false ∨ s.syncDue = false → exec (.syncMeasurement t1) s = .next s) ∧
    (s.rnnState p = 5 → t2 ≤ t3 → s.isNow t3 = true →
      ∃ t, exec (.syncReq port t1 t2 t3) s = .next t ∧ t = { s with rports := t.rports } ∧
        (t.rport p).msgs = (s.rport p).msgs ++ [.syncRsp t1 t2 t3 (if s.isRoot then 0 else s.syncDepth) (synced s p = 1)
          (!s.isRoot && decide (¬ seeks) && s.parentPort / 2 = p / 2)]) ∧
    (s.rnnState p = 5 → (s.rport p).syncT1 = some t1 → s.isNow t4 = true →
      (¬ seeks → s.isRoot = true ∨ p ≠ s.syncPort → ∃ t, exec rsp s = .next t ∧ t = { s with rports := t.rports } ∧
        (t.rport p).peerDepth = if up && !child then some depth else none) ∧
      (¬ seeks → s.isRoot = false → p = s.syncPort → s.parentPort < 12 →
        let open' := synced s s.parentPort = 0
        let mayStep := s.anyArmed = false ∧ up = true ∧ (s.alignedOnce = false ∨ s.rateArm = none ∧ s.efxArmed = none)
        let recovers := s.alignedOnce = true ∧ near
        (open' → ¬ recovers → mayStep → 0 ≤ (s.now64 : Int) + o →
          ∃ t, exec rsp s = .next t ∧ (t.now64 : Int) = (s.now64 : Int) + o ∧ t.frac < 64 ∧ t.syncDepth = depth + 1 ∧
            ∀ q, q < 12 → synced t q = 1) ∧
        (open' → recovers → ∃ t, exec rsp s = .next t ∧ t.tick = s.tick ∧ t.frac = s.frac ∧ t.syncDepth = depth + 1 ∧
          ∀ q, q < 12 → synced t q = 1) ∧
        (open' → ¬ recovers → ¬ mayStep → ∃ t, exec rsp s = .next t ∧ t.tick = s.tick ∧ t.frac = s.frac ∧
          synced t s.parentPort = 0) ∧
        (synced s s.parentPort = 1 →
          (near → ∃ t, exec rsp s = .next t ∧ t.tick = s.tick ∧ t.frac = s.frac ∧ t.syncDepth = depth + 1 ∧
            synced t s.parentPort = 1) ∧
          (¬ near → ∃ t, exec rsp s = .next t ∧ t.tick = s.tick ∧ t.frac = s.frac ∧
            (∀ q, q < 12 → synced t q = 0) ∧ ∃ e ∈ t.errPend, e.source = 0x34))))) ∧
  (∀ (who : Accessor) (port : Fin 12) (v : Word) (depth : BitVec 3) (cw : List Nat) (again : Bool) (f : WireFlit) (s : State),
    let p := port.val
    let st := s.rnnState p
    let rx := exec (.ronnenFlitRx port cw again) s
    let d := getF v 3 3
    let was := s.fld (aRnn p 0) 2 1
    let goes := fun (x : Nat) => ∃ t, exec (.loopEnWrite who port v) s = .next t ∧ t.rnnState p = x ∧
      t.fld (aRnn p 0) 2 4 = getF v 2 4 ∧ t.net = s.net ∧ t.mem = s.mem ∧ t.cores = s.cores
    s.powered = true →
    (s.mayWrite who (aRnn p 0) = false → exec (.loopEnWrite who port v) s = .next s) ∧
    (s.mayWrite who (aRnn p 0) = true →
      (s.portFused p = true → ∃ t, exec (.loopEnWrite who port v) s = .next t ∧ t.fld (aRnn p 0) 2 4 = s.fld (aRnn p 0) 2 4) ∧
      (s.portFused p = false → was = 0 → v.getLsbD 2 = true → v.getLsbD 1 = false →
        (st = 5 → d = 1 ∨ d = 5 → goes 8) ∧ (st = 0 → v.getLsbD 0 = false → goes (if d = 1 ∨ d = 5 then 8 else 0)) ∧
        (st = 5 → v.getLsbD 0 = true → (d = 2 ∨ d = 3 ∨ d = 4 → goes 8 ∧
            ∃ t, exec (.loopEnWrite who port v) s = .next t ∧ (t.rport p).msgs = (s.rport p).msgs ++ [.loopReq d true]) ∧
          (d = 0 ∨ d = 6 ∨ d = 7 → goes 5))) ∧
      (s.portFused p = false → st = 5 → was = 0 → v.getLsbD 2 = true → v.getLsbD 1 = true → v.getLsbD 0 = true → goes 6) ∧
      (s.portFused p = false → st = 8 → was = 1 → v.getLsbD 2 = false → goes 1)) ∧
    (st = 5 → 2 ≤ depth.toNat → depth.toNat ≤ 4 →
      ∃ t, exec (.loopbackRequest port depth true) s = .next t ∧ t.rnnState p = 8 ∧ (t.rport p).reflect = depth.toNat) ∧
    (st ≠ 5 ∨ depth.toNat < 2 ∨ 4 < depth.toNat → exec (.loopbackRequest port depth true) s = .next s) ∧
    (st = 8 → (s.rport p).reflect ≠ 0 →
      ∃ t, exec (.loopbackRequest port depth false) s = .next t ∧ t = { s with ctl := t.ctl, rports := t.rports } ∧
        t.rnnState p = 1 ∧ (t.rport p).reflect = 0) ∧
    (st ≠ 8 ∨ (s.rport p).reflect = 0 → exec (.loopbackRequest port depth false) s = .next s) ∧
    (st = 8 →
      ((s.rport p).reflect = 2 → ∃ t, rx = .next t ∧ t = { s with rports := t.rports } ∧
        (t.rport p).raw = (s.rport p).raw ++ [cw]) ∧
      ((s.rport p).reflect = 3 → s.loopDepth p = 0 → receiveFlit cw = some (f, []) → ∃ t, rx = .next t ∧
        t = { s with rports := t.rports } ∧ (t.rport p).wire = (s.rport p).wire ++ [{ f with again := again }]) ∧
      ((s.rport p).reflect = 0 → s.loopDepth p = 2 → ∃ t, rx = .next t ∧ t = { s with ctl := t.ctl, patterns := t.patterns } ∧
        ((s.pattern (aRnn p 0x30)).run = false → t = s))))

/-- R312, R313, R464: an accepted write of `PKG_RATE_NEXT` arms its code for its tick, or cancels; a refused one shows its code and
leaves what is armed; at its tick the armed code becomes the setpoint; a request for a host ceiling that is in range is the ceiling. -/
def Obligations.SetpointChanges : Prop :=
  ∀ (who : Accessor) (v : Word) (s : State) (c t0 : Nat),
    let code := getF v 0 6
    let at' := s.tickOf40 (getF v 24 40)
    let rc := s.rateReqCode code (getF v 24 40)
    let soon : Bool := match s.rateArm with | some (_, x) => decide (x < s.tick + 2500) | none => false
    let refusal := if code < 10 ∨ 36 < code ∨ at' % 5 ≠ 0 then 0x04 else if at' < s.tick + 2500 then 0x02
      else if soon = true then 0x02 else 0x00
    (s.mayWrite who aRateNext = true →
      ∃ t, exec (.pkgRateNextWrite who v) s = .next t ∧ t = { s with ctl := t.ctl, rateArm := t.rateArm } ∧ t.rate = s.rate ∧
        t.fld aRateNext 16 8 = refusal ∧
        t.rateArm = (if refusal ≠ 0 then s.rateArm else if v.getLsbD 6 then some (code, at') else none)) ∧
    (s.powered = true → s.rateArm = some (c, t0) → t0 ≤ s.tick → c < 64 →
      ∃ t, exec .rateChange s = .next t ∧ t = { s with ctl := t.ctl, rateArm := t.rateArm, thermal := t.thermal } ∧ t.rate = c ∧
        (t.rateArm = none ∨ t.rateArm.isSome ∧ t.ceiling ≠ c)) ∧
    (s.mayManage who (aMgt 0x20) = true →
      ∃ t, exec (.mgtRateReqWrite who v) s = .next t ∧ t = { s with ctl := t.ctl, rateArm := t.rateArm, thermal := t.thermal } ∧
        t.rate = s.rate ∧ t.fld (aMgt 0x20) 8 8 = rc ∧ t.hostCeil = (if rc = 0 then code else s.hostCeil) ∧
        t.thermalCeil = s.thermalCeil ∧ t.capCeil = s.capCeil) ∧
    (s.mayWrite who aRateNext = false → exec (.pkgRateNextWrite who v) s = .next s) ∧
    (s.mayManage who (aMgt 0x20) = false → exec (.mgtRateReqWrite who v) s = .next s) ∧
    (s.rateArm = none ∨ s.rateArm = some (c, t0) ∧ s.tick < t0 → exec .rateChange s = .next s)

/-- R25 to R28, R306, R309, R462, R463, R472: a limit of 600 W to 1,200 W is taken and another refused; a measurement above a limit
lowers a factor over 32/64 by one step, and at 32/64 the cap ceiling to one code below the setpoint; another below both raises one
under 64/64; each adds to the energy counted, and none comes within 250 ticks of the last; at the floor for 5 ms over the limit every
part stops and arming is refused; a droop sets the demand of its die and its passing clears it. -/
def Obligations.PowerCap : Prop :=
  ∀ (who : Accessor) (v : Word) (mw : List Nat) (die : Fin 64) (demand f0 : Nat) (s : State),
    let l := getF v 0 7
    let f := s.capFactor
    let m := mw.take 68
    let past := s.slowLimit * 5000 < ((m.sum :: s.thermal.window).take 5000).sum ∨ fastLimit < m.sum
    let d := die.val
    let measured := fun (x : Nat) (more : State → Prop) => ∃ t, exec (.powerCapMeasure mw) s = .next t ∧ t.capFactor = x ∧
      t.rate = s.rate ∧ t.thermal.window = (m.sum :: s.thermal.window).take 5000 ∧ t.mem = s.mem ∧ t.cores = s.cores ∧
      t.thermal.nextCap = s.tick + 250 ∧ more t ∧
      t.rd (aMgt 0x58) = s.rd (aMgt 0x58) + BitVec.ofNat 64 ((s.thermal.rest + m.sum) / 1000000)
    let kept := fun (t : State) => t.rateArm = s.rateArm ∧ t.capCeil = s.capCeil
    let same := fun (t : State) => t.mem = s.mem ∧ t.tick = s.tick ∧ t.cores = s.cores ∧ t.ctl = s.ctl
    (s.mayManage who (aMgt 0x10) = true →
      ∃ t, exec (.mgtCapWrite who v) s = .next t ∧ t = { s with ctl := t.ctl } ∧
        t.fld (aMgt 0x10) 24 8 = (if 60 ≤ l ∧ l ≤ 120 then 0x00 else 0x04) ∧
        t.fld (aMgt 0x10) 0 7 = (if 60 ≤ l ∧ l ≤ 120 then l else s.fld (aMgt 0x10) 0 7) ∧
        (60 ≤ l → l ≤ 120 → t.fld (aMgt 0x10) 8 7 = if s.fld (aMgt 0) 7 1 = 1 then 60 else l)) ∧
    (s.mayManage who (aMgt 0x10) = false → exec (.mgtCapWrite who v) s = .next s) ∧
    (s.powered = true →
      (s.tick < s.thermal.nextCap → exec (.powerCapMeasure mw) s = .next s) ∧
      (s.thermal.nextCap ≤ s.tick → f ≤ 64 →
        (past → 32 < f → measured (f - 1) kept) ∧ (¬ past → f < 64 → measured (f + 1) kept) ∧
        (past → f ≤ 32 → 10 < s.rate → s.rateArm = none → measured f fun t => t.capCeil = s.rate - 1) ∧
        (past → f ≤ 32 → s.rate ≤ 10 → measured f kept) ∧
        (¬ past → f = 64 → s.rateArm = none → measured f fun t =>
          t.capCeil = if s.capCeil < 36 ∧ s.capCeil ≤ s.rate then s.capCeil + 1 else s.capCeil)) ∧
      (s.slowOver = true → s.thermal.floorSince = some f0 → f0 + 1250000 ≤ s.tick →
        ∃ t, exec .capNotHeld s = .next t ∧ t.mem = s.mem ∧ t.thermal.armRefused = true ∧ t.rate = s.rate ∧
          ∀ p, p < 64 → t.ctxState p = if s.ctxState p ∈ [2, 3, 4] then 5 else s.ctxState p) ∧
      (s.slowOver = false ∨ s.thermal.floorSince = none ∨ s.thermal.floorSince = some f0 ∧ s.tick < f0 + 1250000 →
        exec .capNotHeld s = .next s) ∧
      (64 ≤ demand → ∃ t, exec (.droopBegins die demand) s = .next t ∧ same t ∧
        (t.die d).demand = max (s.die d).demand demand) ∧
      (demand < 64 → exec (.droopBegins die demand) s = .next s) ∧
      ((s.die d).demand ≠ 0 → ∃ t, exec (.droopPasses die) s = .next t ∧ same t ∧ (t.die d).demand = 0) ∧
      ((s.die d).demand = 0 → exec (.droopPasses die) s = .next s))

/-- R459 to R461, R464: a sample shows each die's highest temperature and lowers nothing below the thresholds; the first above THOT, and
every 10 ms of more, lowers the ceiling by one code; below THOT − 3 °C it rises no sooner than 100 ms after its last change; the
second sample in succession above TTRIP trips: limit 600 W, every part stopped; a hardware trip asserts THERMTRIP#; a low 12 V input
limits the power at once, one within the window or above it does not. -/
def Obligations.ThermalAndSupply : Prop :=
  ∀ (temps : List (Int × BitVec 4)) (die : Fin 68) (mv : Nat) (s : State),
    let warn := s.sensors.1
    let hot := s.sensors.2.1
    let trip := s.sensors.2.2.1
    let lo := s.sensors.2.2.2.1
    let ds := temps.take 68
    let own := fun (t : State) => t = { s with ctl := t.ctl, rateArm := t.rateArm, thermal := t.thermal }
    s.powered = true →
    (s.tick % 250000 ≠ 0 → exec (.thermalSample temps) s = .next s) ∧
    (s.tick % 250000 = 0 → s.thermalCeil = 36 →
      (∀ x ∈ temps, x.1 ≤ 4 * (warn : Int) ∧ x.1 ≤ 4 * (hot : Int) ∧ x.1 ≤ 4 * (trip : Int)) →
      ∃ t, exec (.thermalSample temps) s = .next t ∧ t = { s with ctl := t.ctl, thermal := t.thermal } ∧ t.thermalCeil = 36 ∧
        ∀ i (h : i < ds.length), t.fld (aTemp i) 0 12 = toBits 12 ds[i].1 ∧ t.fld (aTemp i) 12 4 = ds[i].2.toNat) ∧
    (s.tick % 250000 = 0 → s.thermal.hot = false → (∃ x ∈ temps, 4 * (hot : Int) < x.1) → (∀ x ∈ temps, x.1 ≤ 4 * (trip : Int)) →
      ∃ t, exec (.thermalSample temps) s = .next t ∧ t.mem = s.mem ∧ t.cores = s.cores ∧ t.thermal.hot = true ∧ t.rate = s.rate ∧
        t.thermalCeil = if 10 < s.ceiling then s.ceiling - 1 else s.thermalCeil) ∧
    (s.tick % 250000 = 0 → s.thermalCeil < 36 → (∀ x ∈ temps, x.1 < 4 * ((hot : Int) - 3) ∧ x.1 ≤ 4 * (trip : Int)) →
      (s.thermal.lastThermal = none ∨ ∃ t0, s.thermal.lastThermal = some t0 ∧ t0 + 25000000 ≤ s.tick) →
      ∃ t, exec (.thermalSample temps) s = .next t ∧ t.mem = s.mem ∧ t.cores = s.cores ∧ t.rate = s.rate ∧
        (t.thermalCeil = s.thermalCeil + 1 ∨ t.thermalCeil = 36)) ∧
    (s.tick % 250000 = 0 → s.thermal.tripNext = true → s.thermal.trip10 = false → (∃ x ∈ ds, x.1 > 4 * (trip : Int)) →
      ∃ t, exec (.thermalSample temps) s = .next t ∧ t.mem = s.mem ∧ t.thermal.trip10 = true ∧ t.ceiling = 10 ∧
        t.fld (aMgt 0x10) 0 7 = 60 ∧ t.fld (aMgt 0) 5 1 = 1 ∧ Out.thermtrip ∈ t.out ∧
        ∀ p, p < 64 → s.ctxState p ∈ [2, 3, 4] → t.ctxState p = 5) ∧
    (s.thermal.hot = true → s.thermal.hotSince + 2500000 ≤ s.tick →
      (10 < s.ceiling → ∃ t, exec .throttleStep s = .next t ∧ own t ∧
        t.thermalCeil = s.ceiling - 1 ∧ t.fld (aMgt 0) 6 1 = (if s.ceiling - 1 < 36 then 1 else 0) ∧ t.rate = s.rate) ∧
      (s.ceiling ≤ 10 → ∃ t, exec .throttleStep s = .next t ∧ own t ∧ t.ctl = s.ctl ∧ t.rateArm = s.rateArm)) ∧
    (s.thermal.hot = false ∨ s.tick < s.thermal.hotSince + 2500000 → exec .throttleStep s = .next s) ∧
    (∃ t, exec (.hardwareTrip die) s = .next t ∧ t.mem = s.mem ∧ t.cores = s.cores ∧ t.nor = s.nor ∧ t.thermal.tripped = true ∧
      t.fld (aMgt 0) 5 1 = 1 ∧ t.out = s.out ++ [.thermtrip]) ∧
    (mv < lo → ∃ t, exec (.undervoltSample mv) s = .next t ∧ t.mem = s.mem ∧ t.cores = s.cores ∧ t.fld (aMgt 0) 7 1 = 1 ∧
      t.fld (aMgt 0x10) 8 7 = min 60 (s.fld (aMgt 0x10) 0 7)) ∧
    (lo ≤ mv → s.thermal.underSince = none → ∃ t, exec (.undervoltSample mv) s = .next t ∧ t.mem = s.mem ∧ t.cores = s.cores ∧
      t.fld (aMgt 0) 7 1 = 0 ∧ t.fld (aMgt 0x10) 8 7 = s.fld (aMgt 0x10) 0 7)

/-- R324, R330, R331, R350, R352, R353, R355, R426: ARM arms every started core for its tick and seed, or is refused with its code; STOP
halts them and drains, but is refused where nothing is loaded; UNLOAD begins the partition's reset; a commit of the loaded edition and
a slot map word are accepted for a pass that is still to come, and held back in order while replay mode says so; ABANDON drops a
loading or loaded edition; a drained part stops, and one that does not drain is reset. -/
def Obligations.ContextCommands : Prop :=
  ∀ (who : Accessor) (q : Fin 64) (w : Fin 64) (v : Word) (pl : Plate) (m : Manifest) (l : Load) (s : State),
    let p := q.val
    let said := fun (t : State) => t.fld (aCtx p 0) 16 8
    let named := BitVec.ofNat 32 (s.fld (aCtx p 0x38) 0 32)
    let P := s.namedPass p named
    let e := BitVec.ofNat 32 (s.fld (aCtx p 0x30) 0 32)
    let cmd := v.toNat % 8
    let starts := fun (t : State) => t.mem = s.mem ∧ t.resets = if s.merges (.partition q) then s.resets
      else s.resets.filter (fun r => !s.within r.unit (.partition q)) ++ [⟨.partition q, s.tick, false, false, s.galleyMask p⟩]
    let waits := fun (t : State) (x : PassInput) => t.mem = s.mem ∧ t.cores = s.cores ∧
      (t.part p).held = (s.part p).held ++ [.input x named] ∧ (t.part p).inputs = (s.part p).inputs
    let refused := fun (t : State) (code : Nat) => t = { s with ctl := t.ctl } ∧ said t = code ∧ t.edload p = s.edload p
    (s.mayWrite who (aCtx p 0) = true →
      (cmd = 2 → (s.part p).plate = some pl →
        ∃ t, exec (.ctxArm who q v) s = .next t ∧ said t = s.armCode p ∧
          (s.armCode p = 0 → t.ctxState p = 3 ∧ ∀ k ∈ pl.started, (t.core k).armed = true ∧
            (t.core k).startTick = s.rd (aCtx p 0x20) ∧ t.rd (aCoreK k 0x2C0) = s.rd (aCtx p 0x28)) ∧
          (s.armCode p ≠ 0 → t = { s with ctl := t.ctl } ∧ t.ctxState p = s.ctxState p)) ∧
      (cmd = 2 → (s.part p).plate = none → ∃ t, exec (.ctxArm who q v) s = .next t ∧ refused t 0x05) ∧
      (cmd = 3 → ∃ t, exec (.ctxStop who q v) s = .next t ∧ t.mem = s.mem ∧
          (s.ctxState p ∈ [0, 1] → said t = 0x05 ∧ t.ctxState p = s.ctxState p ∧ t.cores = s.cores) ∧
          (s.ctxState p ∈ [5, 6] → said t = 0x00 ∧ t.ctxState p = s.ctxState p ∧ t.cores = s.cores) ∧
          (s.ctxState p ∈ [2, 3, 4] → said t = 0x00 ∧ t.ctxState p = 5 ∧ (t.part p).inputs = [] ∧
            ∀ k ∈ s.started p, (t.core k).run = false ∧ (t.core k).armed = false)) ∧
      (cmd = 4 → ∃ t, exec (.ctxUnload who q v) s = .next t ∧ starts t ∧ said t = 0x00) ∧
      (cmd = 5 → s.mustWait p = true → ∃ t, exec (.ctxCommit who q v) s = .next t ∧ waits t (.commit e)) ∧
      (cmd = 5 → s.mustWait p = false → (s.part p).plate = some pl → (s.part p).pending = some m →
        s.edload p = 2 → m.number = e →
        ∃ t, exec (.ctxCommit who q v) s = .next t ∧ t.ctxState p = s.ctxState p ∧
          if passAbove P (s.passNow p) = true then said t = 0x00 ∧ t.edload p = 3 ∧ t.fld (aCtx p 0x30) 32 32 = P.toNat
          else said t = 0x02 ∧ t.edload p = 2) ∧
      (cmd = 5 → s.mustWait p = false → (s.part p).pending = none ∨ (s.part p).pending = some m ∧ (s.edload p ≠ 2 ∨ m.number ≠ e) →
        ∃ t, exec (.ctxCommit who q v) s = .next t ∧ refused t 0x0A) ∧
      (cmd = 6 → s.edload p = 2 ∧ (s.part p).pending = some m ∨ s.edload p = 1 ∧ (s.part p).load = some l →
        ∃ t, exec (.ctxAbandon who q v) s = .next t ∧ said t = 0x00 ∧ t.edload p = 0 ∧
          (s.edload p = 2 → (t.part p).pending = none) ∧ (s.edload p = 1 → (t.part p).load = none) ∧
          t.mem = s.mem ∧ t.ctxState p = s.ctxState p) ∧
      (cmd = 6 → s.edload p = 0 ∨ s.edload p = 3 → ∃ t, exec (.ctxAbandon who q v) s = .next t ∧ refused t 0x0A)) ∧
    (s.mayWrite who (aCtx p 0) = false → ∀ i ∈ [Instr.ctxArm who q v, .ctxStop who q v, .ctxUnload who q v, .ctxCommit who q v,
      .ctxAbandon who q v], exec i s = .next s) ∧
    (s.mayWrite who (aCtxSlotmap p w.val) = true →
      (s.mustWait p = true → ∃ t, exec (.pkgCtxSlotmapWrite who q w v) s = .next t ∧ waits t (.slotWord w.val v)) ∧
      (s.mustWait p = false → (s.part p).plate = some pl → s.ctxState p ∈ [2, 3, 4] →
        ∃ t, exec (.pkgCtxSlotmapWrite who q w v) s = .next t ∧ t.ctxState p = s.ctxState p ∧ t.rd (aCtxSlotmap p w.val) =
          if overSlots pl.slots w.val v = false ∧ passAbove P (s.passNow p) = true then v else s.rd (aCtxSlotmap p w.val)) ∧
      (s.mustWait p = false → (s.part p).plate = none ∨ s.ctxState p ∉ [2, 3, 4] →
        exec (.pkgCtxSlotmapWrite who q w v) s = .next s)) ∧
    (s.powered = true → s.ctxState p = 5 →
      (s.partIdle p = true →
        ∃ t, exec (.stopDrained q) s = .next t ∧ t = { s with ctl := t.ctl } ∧ t.ctxState p = 6) ∧
      (s.partIdle p = false → exec (.stopDrained q) s = .next s ∧ ((s.part p).stopTick + 2500000 ≤ s.tick →
        ∃ t, exec (.stopTimeout q) s = .next t ∧ starts t ∧ said t = 0x02)))

/-- R337, R341 to R346, R348, R349, R475: a LOAD of a well-formed manifest is refused with SHARD_DIGEST_BAD unless it verifies, and
otherwise by the first failing check of its plate or targets; one whose manifest cannot be read or is malformed, that the context's
state does not allow, or that comes as the package goes off, with its code; what passes begins to load. Bytes of a shard go to its
targets, and those that complete the last shard end the load where their digest matches; an attempt that fails is made again as often
as RETRY allows; a load that fails leaves the partition EMPTY, or without the edition. A peer is served from a handle it may read. -/
def Obligations.ContextLoads : Prop :=
  ∀ (who : Accessor) (q die pos : Fin 64) (v : Word) (plate manifest : HostRead) (mb bs signed sig bytes : List Byte) (m : Manifest)
    (xs : List Section) (l : Load) (f : Fetch) (tg : Target) (refused : Bool) (c : CoreId) (h : BitVec 8) (off len : BitVec 32)
    (code : Nat) (s : State),
    let p := q.val
    let said := fun (t : State) => t.fld (aCtx p 0) 16 8
    let s1 := s.ctxFields p v
    let win := getF v 8 8
    let e := (s.core (kOf c)).handle h.toNat
    let k := die.val * 72 + tg.core
    let at' := (if tg.pending then hBASEPEND ((s.core k).handle tg.handle) else hBASE ((s.core k).handle tg.handle)) + tg.offset
    let edition := m.edition
    let refuses := fun (x : Nat) => ∃ t, exec (.ctxLoad who q v plate manifest) s = .next t ∧ said t = x ∧ t.mem = s.mem ∧
      t.cores = s.cores ∧ t.ctxState p = s.ctxState p ∧ t.edload p = s.edload p
    let read := s1.readHost p win (s.rd (aCtx p 0x10)).toNat manifest
    (s.mayWrite who (aCtx p 0) = true → v.toNat % 8 = 1 →
      (s.goingOff = true → refuses 0x05) ∧
      (s.goingOff = false →
        (read = .error code → code < 256 → refuses code) ∧
        (read = .ok mb → manifestOf mb = none → refuses 0x04) ∧
        (read = .ok mb → manifestOf mb = some (signed, sig, m) →
          (edition = false → s.ctxState p ∉ [0, 6] → refuses 0x05) ∧
          (edition = false → s.ctxState p ∈ [0, 6] → s1.readHost p win (s.rd (aCtx p 0x18)).toNat plate = .ok bs →
            plateSections bs = some xs →
            let pl := plateOf bs xs win (s.rd (aCtx p 0x18)).toNat
            let s2 := (s1.dropEdition p).writePlate p xs pl
            let c1 := s1.plateCode s2 p bs xs pl m (v.getLsbD 3)
            let code := if s.signedOk p signed sig m = false then 0x0B else if c1 ≠ 0 then c1 else s2.targetsCode p m
            ∃ t, exec (.ctxLoad who q v plate manifest) s = .next t ∧ said t = code ∧
              (code ≠ 0 → t.mem = s.mem ∧ t.cores = s.cores ∧ t.ctxState p = s.ctxState p) ∧
              (code = 0 → t.mem = s2.mem ∧ t.ctxState p = 1 ∧ t.edload p = 0 ∧ (t.part p).plate = some pl ∧
                ((t.part p).load.map (·.manifest)) = some m)) ∧
          (edition = true → s.signedOk p signed sig m = true → (s.part p).plate = none ∨ s.ctxState p ∉ [2, 4] ∨ s.edload p ≠ 0 →
            refuses 0x0A) ∧
          (edition = true → s.ctxState p ∈ [2, 4] → s.edload p = 0 → (s.part p).plate.isSome = true →
            ((s.part p).plate.map (·.digest)) = some m.plateDigest → s.targetsCode p m = 0 → m.targets.all (s.pendingOk m) = true →
            ∃ t, exec (.ctxLoad who q v plate manifest) s = .next t ∧ t.mem = s.mem ∧ t.ctxState p = s.ctxState p ∧
              if s.signedOk p signed sig m = true then said t = 0 ∧ t.edload p = 1 ∧ ((t.part p).load.map (·.manifest)) = some m
              else said t = 0x0B ∧ t.edload p = 0)))) ∧
    (s.powered = true → (s.part p).load = some l → s.fetchOf p die.val = some f → f.verified = false →
      (bytes ≠ [] → s.sourceOk p f = true → ∃ t, exec (.shardData q die bytes) s = .next t ∧
        t.mem = (s.shardWrite f.shard (f.shard.targets.length + 1) f.got.length (bytes.take (f.shard.length - f.got.length))).mem ∧
        (f.got.length + bytes.length < f.shard.length →
          t.fetchOf p die.val = some { f with got := f.got ++ bytes, lastTick := s.tick })) ∧
      (bytes ≠ [] → s.sourceOk p f = true → l.fetches = [f] → f.shard.targets = [tg] → f.shard.length ≤ tg.length →
        (f.got.length + bytes.length ≤ f.shard.length →
          ∃ t, exec (.shardData q die bytes) s = .next t ∧ s.BytesBecome t (coreAddr k 0 (at' + f.got.length)) bytes) ∧
        (f.got.length + bytes.length = f.shard.length →
          ∃ t, exec (.shardData q die bytes) s = .next t ∧
            (digest32 (f.got ++ bytes) = f.shard.digest → (t.part p).load = none ∧
              if l.manifest.edition then t.edload p = 2 ∧ (t.part p).pending = some l.manifest
              else t.ctxState p = 2 ∧ t.fld (aCtx p 0x08) 32 32 = l.manifest.number.toNat) ∧
            (digest32 (f.got ++ bytes) ≠ f.shard.digest → f.attempt < 1 + s.partRetry p → t.fetchOf p die.val =
              some { f with got := [], attempt := f.attempt + 1, badDigest := true, lastTick := s.tick }))) ∧
      (bytes = [] ∨ s.sourceOk p f = false → exec (.shardData q die bytes) s = .next s) ∧
      (refused = true ∨ f.lastTick + 25000000 ≤ s.tick →
        ∃ t, exec (.shardAttemptTimeout q die refused) s = .next t ∧ t.mem = s.mem ∧
          if f.attempt < 1 + s.partRetry p then
            t.fetchOf p die.val = some { f with got := [], attempt := f.attempt + 1, lastTick := s.tick }
          else (t.part p).load = none ∧ t.fld (aCtx p 0x08) 8 8 = (if f.badDigest then 0x0B else 0x0C) ∧
            (if l.manifest.edition then t.edload p = 0 else t.ctxState p = 0)) ∧
      (l.since + s.partLoadTimeout p ≤ s.tick →
        ∃ t, exec (.loadTimeout q) s = .next t ∧ t.mem = s.mem ∧ (t.part p).load = none ∧
          t.fld (aCtx p 0x08) 8 8 = (if l.fetches.any (fun g => !g.verified && g.badDigest) then 0x0B else 0x0C) ∧
          (if l.manifest.edition then t.edload p = 0 else t.ctxState p = 0) ∧
          (l.fetches = [f] → t.fld (aCtx p 0x08) 16 8 = die.val))) ∧
    (s.powered = true → ∃ t, exec (.shardPeerRequest pos q c h off len) s = .next t ∧ t = { s with out := t.out } ∧ t.out = s.out ++
        [if s.coreAbsorbed (kOf c) then .shardAnswer pos.val p 0x08 []
          else if bits (s.partReplica p) pos.val 1 = 1 ∧ s.partOfKey (kOf c) = p ∧ hVALID e = true ∧ hSPACE e = 0 ∧ hKV e = false ∧
            off.toNat + len.toNat ≤ hEXTENT e
          then .shardAnswer pos.val p 0x00 (s.coreRead (kOf c) 0 (hBASE e + off.toNat) len.toNat)
          else .shardAnswer pos.val p 0x05 []])

/-- R366, R368 to R374, R453: STAGE stages an image that passes every check and is newer than the one in force, or shows the first
failing check, its age or the failure of its read; ACTIVATE arms it for its tick or is refused with its code; DISCARD drops it; each is
refused while NOR is written and applies nothing once the package is lost; flagged packets are held from 2,052 ticks before T; at T
the image is in force, in NOR and in the imprint; the hold ends after T + 2. -/
def Obligations.EfxisImages : Prop :=
  ∀ (who : Accessor) (v : Word) (img : HostRead) (bs : List Byte) (seq rc : Nat) (recs new : List EfxRec) (err : ImgErr) (x : ArmedEfx)
    (s : State),
    let said := fun (t : State) => t.fld aEfxCtrl 16 8
    let cmd := v.toNat % 8
    let s1 := s.setFld aEfxCtrl 8 8 (getF v 8 8)
    let code := s1.activateCode new (s.rd aEfxTick).toNat
    let read := s1.readHost 64 (getF v 8 8) (s.rd aEfxSrc).toNat img
    let same := fun (t : State) => t.efx = s.efx ∧ t.efxStaged = s.efxStaged ∧ t.efxArmed = s.efxArmed ∧ t.nor = s.nor ∧
      t.cores = s.cores ∧ t.mem = s.mem
    let does := fun (i : Instr) (n : Nat) => cmd = n →
      (s.mayManage who aEfxCtrl = false → exec i s = .next s) ∧
      (s.mayManage who aEfxCtrl = true → s.allLost = true → ∃ t, exec i s = .next t ∧ same t ∧ said t ≤ 0x10) ∧
      (s.mayManage who aEfxCtrl = true → s.allLost = false → s.fld aEfxCtrl 24 1 = 1 →
        ∃ t, exec i s = .next t ∧ same t ∧ said t = 0x05)
    does (.efxStage who v img) 1 ∧ does (.efxActivate who v) 2 ∧ does (.efxDiscard who v) 3 ∧
    (s.mayManage who aEfxCtrl = true → s.allLost = false → s.fld aEfxCtrl 24 1 = 0 →
      (cmd = 1 → read = .error rc → rc < 256 → ∃ t, exec (.efxStage who v img) s = .next t ∧ same t ∧ said t = rc) ∧
      (cmd = 1 → read = .ok bs →
        (s1.checkImage bs = .ok (seq, recs) → s.fld aImpSeq 0 32 < seq →
          ∃ t, exec (.efxStage who v img) s = .next t ∧ t.efx = s.efx ∧ t.efxStaged = some (recs, seq) ∧ t.efxArmed = none ∧
            t.nor.staged = some bs ∧ t.fld aEfxCtrl 24 1 = 1 ∧ t.norBusy = s.norBusy ++ [.stagedImage] ∧ t.mem = s.mem) ∧
        (s1.checkImage bs = .ok (seq, recs) → seq ≤ s.fld aImpSeq 0 32 →
          ∃ t, exec (.efxStage who v img) s = .next t ∧ same t ∧ said t = 0x04) ∧
        (s1.checkImage bs = .error err → err.code < 256 →
          ∃ t, exec (.efxStage who v img) s = .next t ∧ same t ∧ said t = err.code ∧
            t.rd aEfxErr = BitVec.ofNat 64 (err.off + err.typ * 2 ^ 32 + err.order * 2 ^ 48))) ∧
      (cmd = 2 → s.efxStaged = some (new, seq) → s.fld aEfxCtrl 25 1 = 1 →
        ∃ t, exec (.efxActivate who v) s = .next t ∧ said t = code ∧ t.efx = s.efx ∧ t.efxStaged = s.efxStaged ∧ t.nor = s.nor ∧
          if code = 0 then (t.efxArmed.map (·.tick)) = some (s.rd aEfxTick).toNat ∧ t.fld aEfxCtrl 26 1 = 1 else same t) ∧
      (cmd = 2 → s.efxStaged = none ∨ s.fld aEfxCtrl 25 1 = 0 →
        ∃ t, exec (.efxActivate who v) s = .next t ∧ same t ∧ said t = 0x05) ∧
      (cmd = 3 → ∃ t, exec (.efxDiscard who v) s = .next t ∧ said t = 0 ∧ t.efx = s.efx ∧ t.efxStaged = none ∧ t.efxArmed = none ∧
        t.nor.staged = none ∧ t.fld aEfxCtrl 25 2 = 0 ∧ t.mem = s.mem)) ∧
    (s.powered = true → s.efxArmed = some x →
      (x.tick ≤ s.tick + 2052 → ∃ t, exec .flagHoldWindowStart s = .next t ∧ t = { s with flagHold := true }) ∧
      (s.tick + 2052 < x.tick → exec .flagHoldWindowStart s = .next s) ∧
      (s.tick < x.tick → exec .efxisActivation s = .next s) ∧
      (s.efxStaged = some (new, seq) → s.allLost = false → x.tick ≤ s.tick →
        ∃ t, exec .efxisActivation s = .next t ∧ t.efx = new ∧ t.efxStaged = none ∧ t.efxArmed = none ∧ t.efxLast = some x.tick ∧
          t.nor.image = s.nor.staged ∧ t.fld aImpSeq 0 32 = seq % 2 ^ 32 ∧ t.fld aEfxCtrl 25 3 = 0 ∧ t.mem = s.mem ∧
          t.tick = s.tick)) ∧
    (s.efxArmed = none → exec .flagHoldWindowStart s = .next s ∧ exec .efxisActivation s = .next s) ∧
    (s.powered = true → s.flagHold = true → s.holdEnds = true →
      ∃ t, exec .flagHoldWindowEnd s = .next t ∧ t.flagHold = false ∧ (s.delivers = [] → t = { s with flagHold := false })) ∧
    (s.flagHold = false ∨ s.holdEnds = false → exec .flagHoldWindowEnd s = .next s)

/-- R298, R375 to R377: the root begins a round once a period, and closes it 250,000 ticks later: the counts and masks of those that
agree, disagree and are missing are stored and told, and each of the last two is recorded; another package answers its parent in the
tree with its imprint, passes the request on to its children, and stores the result that it is told. -/
def Obligations.ImprintCensus : Prop :=
  ∀ (via : Fin 12) (answers : List CensusAnswer) (agree disagree missing : BitVec 8) (dis mis : Word) (t0 : Nat) (s : State),
    let which := fun n => (positions s.shape).filter fun p => s.verdictOf answers p = n
    let mask := fun n => BitVec.ofNat 64 ((which n).foldl (fun m p => m + 2 ^ p) 0)
    let count := fun n => (which n).length
    let asks := s.childPairs.filterMap fun k => (s.choosePort k).map Out.censusAsk
    let fromParent := (nextDir s.shape s.position s.timingRoot).bind s.pairOf = some (via.val / 2)
    let round := s.fld aImpCensus 0 32
    let stored := fun (t : State) (a d m : Nat) (x y : Word) => t.fld aImpCensus 0 32 = (round + 1) % 2 ^ 32 ∧
      t.fld aImpCensus 32 8 = a % 256 ∧ t.fld aImpCensus 40 8 = d % 256 ∧ t.fld aImpCensus 48 8 = m % 256 ∧
      t.rd aImpDisagree = x ∧ t.rd aImpMissing = y ∧ t.mem = s.mem ∧ t.cores = s.cores
    (s.censusReady = true → ∃ t, exec .censusRound s = .next t ∧
      t = { s with censusOpen := some s.tick, censusDue := s.tick + s.censusPeriod, out := s.out ++ asks }) ∧
    (s.censusReady = false → exec .censusRound s = .next s) ∧
    (s.powered = true →
      (s.isRoot = false →
        (s.rnnState via.val = 5 → fromParent → ∃ t, exec (.censusRequest via) s = .next t ∧ t = { s with out := s.out ++
          (Out.censusAnswer s.position (BitVec.ofNat 32 (s.fld aImpSeq 0 32)) s.imprintBytes :: asks) }) ∧
        (∃ t, exec (.censusResult agree disagree missing dis mis) s = .next t ∧ t = { s with ctl := t.ctl } ∧
          stored t agree.toNat disagree.toNat missing.toNat dis mis)) ∧
      (s.isRoot = true ∨ s.rnnState via.val ≠ 5 ∨ ¬ fromParent → exec (.censusRequest via) s = .next s) ∧
      (s.isRoot = true → exec (.censusResult agree disagree missing dis mis) s = .next s) ∧
      (s.censusOpen = some t0 → t0 + 250000 ≤ s.tick →
        ∃ t, exec (.censusRoundTimeout answers) s = .next t ∧ stored t (count 0) (count 1) (count 2) (mask 1) (mask 2) ∧
          t.censusOpen = none ∧ (count 1 + count 2 ≠ 0 → ∃ e ∈ t.errPend, e.source = 0x24) ∧ t.out = s.out ++
            [.censusResult (BitVec.ofNat 8 (count 0)) (BitVec.ofNat 8 (count 1)) (BitVec.ofNat 8 (count 2)) (mask 1) (mask 2)]) ∧
      (s.censusOpen = none ∨ s.censusOpen = some t0 ∧ s.tick < t0 + 250000 → exec (.censusRoundTimeout answers) s = .next s))

/-- R381, R386, R389 to R398, R400, R401: a doorbell below the ring's length moves its index, and another sets FAULT; the entry whose
turn it is is accepted: the head passes it, a SLOTS entry writes its word or is refused, its completion is put at the CQ tail where one
is due, and a DELIVER asks for its credit first; a failed fetch stops the ring; EN set with a legal LOG2N starts the ring afresh, and
cleared stops it; the message of an entry that has waited MTICKS is sent, with its vector's address and data, or pends. -/
def Obligations.HostRings : Prop :=
  ∀ (who : Accessor) (port : Fin 2) (f : Fin 64) (ring : Fin 256) (g : Fin 16384) (v : Word) (entry : BitVec 512) (o : PcieOutcome)
    (p b fn : Nat) (pl : Plate) (s : State),
    let r := g.val
    let q := r / 256
    let lr := 256 * p + ring.val
    let x := v.toNat % 2 ^ 16
    let faulted := fun (t : State) (r code : Nat) => t.fld (aRing r 0x28) 1 1 = 1 ∧ t.fld (aRing r 0x28) 8 8 = code ∧
      t.rd (aRing r 0x20) = s.rd (aRing r 0x20) ∧ t.mem = s.mem
    let word := getW (entry.setWidth 256) 64 6
    let named := BitVec.ofNat 32 (entry.toNat / 2 ^ 32 % 2 ^ 32)
    let v' := (s.rd (aCtxSlotmap q word) &&& ~~~BitVec.ofNat 64 (entry.toNat / 2 ^ 192)) ||| BitVec.ofNat 64 (entry.toNat / 2 ^ 128)
    let taken := s.sqReady r = true ∧ s.sqWindow r = 0
    let done := fun (i : Instr) (due : Bool) (more : State → Prop) => ∃ t, exec i s = .next t ∧ t.mem = s.mem ∧ t.net = s.net ∧
      t.sqHead r = (s.sqHead r + 1) % s.ringN r % 2 ^ 16 ∧
      t.cqTail r = (if due then (s.cqTail r + 1) % s.ringN r % 2 ^ 16 else s.cqTail r) ∧ more t
    let slotOk := entryOk entry = true ∧ s.ctxState q ∈ [2, 3, 4] ∧ overSlots pl.slots word v' = false ∧
      passAbove (s.namedPass q named) (s.passNow q) = true
    let vec := s.fld (aRing r 0x10) 7 5
    let due := s.ringEn r = true ∧ s.fld (aRing r 0x10) 6 1 = 1 ∧ s.fld (aRing r 0x10) 32 32 ≠ 0 ∧
      (s.irq r).n ≠ 0 ∧ (s.irq r).oldest + s.fld (aRing r 0x10) 32 32 ≤ s.tick
    (s.takes port.val f.val = none →
      exec (.sqTailDoorbell port f ring v) s = .next s ∧ exec (.cqHeadDoorbell port f ring v) s = .next s) ∧
    (s.takes port.val f.val = some p →
      (∃ t, exec (.sqTailDoorbell port f ring v) s = .next t ∧
        if x < s.ringN lr then t = { s with ctl := t.ctl, irqs := t.irqs } ∧ t.sqTail lr = x ∧ t.sqHead lr = s.sqHead lr ∧
          (t.irq lr).stopped = false
        else faulted t lr 0x04) ∧
      (∃ t, exec (.cqHeadDoorbell port f ring v) s = .next t ∧ t = { s with ctl := t.ctl } ∧
        if x < s.ringN lr ∧ (x + s.ringN lr - s.cqHead lr) % s.ringN lr ≤ (s.cqTail lr + s.ringN lr - s.cqHead lr) % s.ringN lr
        then t.cqHead lr = x ∧ t.cqTail lr = s.cqTail lr else faulted t lr 0x04)) ∧
    (s.sqReady r = false → ∀ i ∈ [Instr.sqNop g entry, .slots g entry, .deliver g entry, .sqFetchFail g o], exec i s = .next s) ∧
    (s.sqReady r = true → s.sqWindow r ≠ 0 → eKIND entry = 0 →
      ∃ t, exec (.sqNop g entry) s = .next t ∧ faulted t r (s.sqWindow r) ∧ (t.irq r).stopped = true) ∧
    (taken →
      (eKIND entry ≠ 1 → eKIND entry ≠ 2 →
        done (.sqNop g entry) (eCQE entry || eKIND entry ≠ 0 || !entryOk entry) fun _ => True) ∧
      (eKIND entry = 2 → (s.part q).plate = some pl →
        (slotOk → done (.slots g entry) (eCQE entry) fun t => t.rd (aCtxSlotmap q word) = v') ∧
        (¬ slotOk → done (.slots g entry) true fun t => t.rd (aCtxSlotmap q word) = s.rd (aCtxSlotmap q word))) ∧
      (eKIND entry = 2 → (s.part q).plate = none →
        done (.slots g entry) true fun t => t.rd (aCtxSlotmap q word) = s.rd (aCtxSlotmap q word)) ∧
      (eKIND entry = 1 → entryOk entry = false ∨ s.deliverOk r = false →
        done (.deliver g entry) true fun t => t.delivers = s.delivers ∧ t.creditNet = s.creditNet) ∧
      (eKIND entry = 1 → entryOk entry = true → s.deliverOk r = true → s.carrier q = some (b, fn) →
        (∀ d ∈ s.delivers, d.ring = r → 3 ≤ d.stage) →
        ∃ t, exec (.deliver g entry) s = .next t ∧ t.mem = s.mem ∧ t.net = s.net ∧ t.sqHead r = s.sqHead r ∧
          t.creditNet = s.creditNet ++ [.request (BitVec.ofNat 20 (s.fld (aRing r 0x18) 0 20)) (s.fld (aRing r 0x18) 20 8)
            (s.bridgeName b) s.bridgeTx] ∧
          (t.delivers.map (·.bytes)) = (s.delivers.map (·.bytes)) ++ [leBytes 64 entry.toNat]) ∧
      (∃ t, exec (.sqFetchFail g o) s = .next t ∧ faulted t r (outcomeCode o) ∧ (t.irq r).stopped = true)) ∧
    (s.mayWrite who (aRing r 0x10) = false → exec (.ringCfgEnWrite who g v) s = .next s) ∧
    (s.mayWrite who (aRing r 0x10) = true →
      (s.ringEn r = false → ∃ t, exec (.ringCfgEnWrite who g v) s = .next t ∧ t = { s with ctl := t.ctl } ∧
        t.ringN r = 2 ^ getF v 0 5 ∧ (t.ringEn r = true ↔ v.getLsbD 5 = true ∧ 4 ≤ getF v 0 5 ∧ getF v 0 5 ≤ 16) ∧
        (t.ringEn r = true → t.rd (aRing r 0x20) = 0 ∧ t.fld (aRing r 0x28) 0 1 = 1)) ∧
      (s.ringEn r = true →
        ∃ t, exec (.ringCfgEnWrite who g v) s = .next t ∧ t.ringEn r = v.getLsbD 5 ∧ t.ringN r = s.ringN r ∧ t.mem = s.mem ∧
          t.fld (aRing r 0x10) 7 5 = vec)) ∧
    (s.powered = true → s.carrier q = some (b, fn) → s.linkUp b = true → due →
      ∃ t, exec (.interruptTimer g) s = .next t ∧ (t.irq r).n = 0 ∧
        if s.msixOpen b fn vec then t = { s with irqs := t.irqs, out := t.out } ∧ t.out = s.out ++
          [.msix b fn vec (s.rd (s.bar2 b fn (0x4000 + 16 * vec))).toNat (s.fld (s.bar2 b fn (0x4008 + 16 * vec)) 0 32)]
        else t = { s with irqs := t.irqs, ctl := t.ctl } ∧ t.fld (s.bar2 b fn 0x5000) vec 1 = 1) ∧
    (¬ due → exec (.interruptTimer g) s = .next s)

/-- R235 to R237, R382, R389, R402 to R405: a write that may leave goes to its host address and is retained until a later completion
proves it delivered, and one that its window no longer holds is not sent; the completion of a piece of a `HOST_READ` lands its bytes,
or waits while replay mode says so; a timeout, which comes no sooner than Device Control 2 says, proves nothing; a flush acts on the
port that carries its partition: one of no byte, and one that its window refuses, completes at once, another asks by a read of no byte,
a seventeenth behind one that runs is lost; an aperture access that passes its check leaves as a packet, one that does not sets ERR and
its code. -/
def Obligations.DeliveryAndAperture : Prop :=
  ∀ (port : Fin 2) (f : Fin 64) (n p k q seq a c g : Nat) (e : Nat × DlvWrite) (r : HRead) (bs : List Byte)
    (size8 : Bool) (v : Word) (s : State),
    let b := port.val
    let x := s.pport b
    let w := e.2
    let y := s.pport c
    let stat := s.bar2 c g 0x1010
    let off := (s.rd (s.bar2 c g 0x1000)).toNat
    let size := v.toNat % 2 ^ 32
    let win := getF v 32 4
    let fc := s.flushCode p win off size
    let mine := y.flushes.filter fun z => z.f = g
    let addr := s.fld (s.bar2 b f.val 0x2000) 0 48
    let fstat := s.bar2 b f.val 0x2010
    let len := if size8 then 8 else 4
    let data := leBytes len v.toNat
    let flush := Instr.hostFlushCtl port f v
    let flushed := fun (code : Nat) => ∃ t, exec flush s = .next t ∧ t.fld stat 8 8 = code ∧
      t.fld stat 32 32 = (s.fld stat 32 32 + 1) % 2 ^ 32 ∧ t.mem = s.mem ∧ t.out = s.out
    let waits := ∃ z, s.runningAt addr = some z ∧ s.mustWait z = true
    let leaves := fun (i : Instr) (data : List Byte) (rd : Bool) => ∃ t, exec i s = .next t ∧ t.mem = s.mem ∧ t.cores = s.cores ∧
      t.net = s.net ++ [s.withAge (s.fabPacket b addr len data rd)]
    s.powered = true → s.linkUp b = true →
    (x.buf[n]? = some e → s.mayLeave b e = true → s.writeCode w = 0 →
      (∃ t more, exec (.deliveryWriteOut port n) s = .next t ∧
        t.out = s.out ++ .hostWrite b (s.winAddr w.part w.win w.off) w.bytes w.ep :: more) ∧
      (x.reads = [] → ∃ t, exec (.deliveryWriteOut port n) s = .next t ∧ t.mem = s.mem ∧ (t.pport b).buf = x.buf.erase e ∧
        (t.pport b).retained = x.retained ++ [(x.left, w)])) ∧
    (x.buf[n]? = some e → s.mayLeave b e = true → s.writeCode w ≠ 0 → x.reads = [] →
      ∃ t, exec (.deliveryWriteOut port n) s = .next t ∧ t.mem = s.mem ∧ (t.pport b).buf = x.buf.erase e ∧
        (t.pport b).retained = x.retained) ∧
    (x.buf[n]? = none ∨ x.buf[n]? = some e ∧ s.mayLeave b e = false → exec (.deliveryWriteOut port n) s = .next s) ∧
    (x.reads = [] → x.retained.find? (fun z => s.beyond z.2.part z.2.win z.2.off = 0) = some e →
      ∃ t, exec (.deliveryProbeRead port) s = .next t ∧ t.mem = s.mem ∧ (t.pport b).retained = x.retained ∧
        t.out = s.out ++ [.hostRead b x.nextTag (s.winAddr w.part w.win w.off) 0]) ∧
    ((∀ z ∈ x.retained, s.beyond z.2.part z.2.win z.2.off ≠ 0) → exec (.deliveryProbeRead port) s = .next s) ∧
    (x.reads = [r] → r.sent = true → r.got = none →
      (s.readLate b r.tag = false → exec (.pcieCompletionTimeout port r.tag) s = .next s) ∧
      (r.why = .probe → r.zero = true →
        (∃ t, exec (.pcieCompletion port r.tag (.data [])) s = .next t ∧ (t.pport b).reads = [] ∧ t.mem = s.mem ∧
          (t.pport b).retained = x.retained.filter (fun e => r.after ≤ e.1)) ∧
        (s.readLate b r.tag = true → ∃ t, exec (.pcieCompletionTimeout port r.tag) s = .next t ∧ (t.pport b).reads = [] ∧
          t.mem = s.mem ∧ (t.pport b).retained = x.retained)) ∧
      (r.why = .command k q seq [(a, bs.length)] → r.zero = false → r.len = bs.length → bs ≠ [] →
        (s.mustWait (s.partOfKey k) = false →
          ∃ t, exec (.pcieCompletion port r.tag (.data bs)) s = .next t ∧ t.tiles = s.tiles ∧ (t.pport b).reads = [] ∧
            s.BytesBecome t (coreAddr k (a / 2 ^ 26) (a % 2 ^ 26)) bs) ∧
        (s.mustWait (s.partOfKey k) = true →
          ∃ t, exec (.pcieCompletion port r.tag (.data bs)) s = .next t ∧ t.mem = s.mem ∧
            (t.part (s.partOfKey k)).held = (s.part (s.partOfKey k)).held ++ [.read b k q seq]) ∧
        ∃ t, exec (.pcieCompletion port r.tag (.failed .unsupported)) s = .next t ∧ ∃ z ∈ t.errPend, z.source = 0x40)) ∧
    (s.takes b f.val = none → exec flush s = .next s ∧ exec (.hostFabDataWrite port f size8 v) s = .next s ∧
      (s.bar2Up b f.val = true → exec (.hostFabDataRead port f size8) s =
        .next { s with out := s.out ++ [.completion b f.val 0] })) ∧
    (s.takes b f.val = some p →
      (s.carrier p = some (c, g) →
        (size = 0 → fc = 0 → flushed 0) ∧
        (y.flushes = [] → y.reads = [] → fc ≠ 0 → flushed fc) ∧
        (y.flushes = [] → y.reads = [] → size ≠ 0 → fc = 0 → y.buf = [] → y.queued = [] → s.linkUp c = true →
          ∃ t, exec flush s = .next t ∧ t.mem = s.mem ∧ t.ctl = s.ctl ∧
            t.out = s.out ++ [.hostRead c y.nextTag (s.winAddr p win (off + size - 1)) 0]) ∧
        (size ≠ 0 → mine ≠ [] → mine.length < 17 → ∃ u : State, exec flush s = .next (u.pumpReads c) ∧ u.ctl = s.ctl ∧
          (u.pport c).flushes = y.flushes ++ [⟨g, p, win, off, size, fc, y.entered⟩]) ∧
        (size ≠ 0 → 17 ≤ mine.length →
          ∃ t, exec flush s = .next t ∧ t = { s with ctl := t.ctl } ∧ t.fld stat 0 1 = 1)) ∧
      (waits → ∃ t, exec (.hostFabDataWrite port f size8 v) s = .next t ∧ t.mem = s.mem ∧ t.net = s.net ∧
        ∀ z, s.runningAt addr = some z → (t.part z).held = (s.part z).held ++ [.fab b f.val p addr data]) ∧
      (s.fabCheck f.val p addr ≠ 0 →
        (¬ waits → ∃ t, exec (.hostFabDataWrite port f size8 v) s = .next t ∧ t = { s with ctl := t.ctl } ∧ t.fld fstat 0 1 = 1 ∧
          t.fld fstat 8 8 = s.fabCheck f.val p addr) ∧
        (∃ t, exec (.hostFabDataRead port f size8) s = .next t ∧ t = { s with ctl := t.ctl, out := t.out } ∧ t.fld fstat 0 1 = 1 ∧
          t.out = s.out ++ [.completion b f.val 0])) ∧
      (s.fabCheck f.val p addr = 0 → s.aperture = [] → s.bridgeRoom b (nameAt addr) = true → s.bridgeHolds b (nameAt addr) = false →
        (¬ waits → leaves (.hostFabDataWrite port f size8 v) data false) ∧ leaves (.hostFabDataRead port f size8) [] true))

/-- R378, R379, R382, R383, R401, R405 to R407, R413, R429, R502: MIRROR sets where the other port's function carries a partition and
this one has none; a function-level reset ends what its function had under way, disables its rings, returns its configuration and
resets its partition; a Hot Reset and PERST# do so for every function and take the link down; a configuration request is answered and
has its effect, or is put off until power-on has ended.
R378, R389, R408 to R410, R447, R448: a link that goes down starts 2 ms; when they have passed, or at a Surprise Down, the port has
failed: a function whose mirror is ready hands its partition over, whose retained writes are sent again where its windows still hold
them, and the partition of another loses its rings; the link comes up again with its rate and width; FAILBACK on a repaired port whose
peer holds nothing of it gives every function back whose mirror carries its partition; a receiver error counts, and at its limit
retires its lane. -/
def Obligations.PciePorts : Prop :=
  (∀ (port : Fin 2) (f : Fin 64) (v : Word) (op : ConfigOp) (reg : ConfigReg) (enable on mask low : Bool) (n : Fin 64) (m : Fin 6)
    (ticks : Option Nat) (bs : BitVec 32) (s : State),
    let b := port.val
    let a := aFn b f.val 0
    let a' := aFn (1 - b) f.val 0
    let under := fun (t : State) (p : Nat) (h : p < 64) => ∃ r ∈ t.resets, r.unit = .partition ⟨p, h⟩ ∨ r.unit = .package
    let resetAll := fun (t : State) (which : Nat → Prop) => ∀ g p (h : p < 64), g < 64 → which g → s.fnPart b g = some p → under t p h
    let portDown := fun (t : State) => resetAll t (fun _ => True) ∧ t.linkUp b = false ∧ (t.pport b).downTick = none ∧
      (t.pport b).vfs = 0 ∧ t.mem = s.mem
    let count := if enable then n.val else 0
    let up := s.fld aBoot 0 3 = 7 ∨ s.recovering ≠ none ∧ b = 0 ∧ f.val = 0
    let cfg := s.fnCfg b f.val
    let sets := fun (op : ConfigOp) (c : FnCfg) => ∃ t, exec (.configurationRequest port f op) s = .next t ∧
      t = { s with pports := t.pports } ∧ t.fnCfg b f.val = c
    s.powered = true →
    (∃ t, exec (.hostFnMirrorWrite port f v) s = .next t ∧ t = { s with ctl := t.ctl } ∧ t.fld a 0 1 = s.fld a 0 1 ∧
      t.fld a 8 1 = s.fld a 8 1 ∧
      if v.getLsbD 7 = true ∧ s.fld a 0 1 = 0 ∧ s.fld a' 0 1 = 1 then t.fld a 7 1 = 1 ∧ t.fld a 1 6 = s.fld a' 1 6
      else t.fld a 7 1 = 0) ∧
    (f.val ≠ 0 ∨ s.isMirror b 0 = true → ∃ t, exec (.functionLevelReset port f) s = .next t ∧ t.mem = s.mem ∧
      t.linkUp b = s.linkUp b ∧ t.rd (aBar2 b f.val 0x1000) = 0 ∧ t.fld (aBar2 b f.val 0x2000) 0 49 = 0 ∧
      t.fnCfg b f.val = FnCfg.reset ∧ t.aperture = s.aperture.filter (fun x => x.fn ≠ b * 64 + f.val) ∧
      (s.fnPart b f.val = none → t.resets = s.resets) ∧
      ∀ p (h : p < 64), s.fnPart b f.val = some p → under t p h ∧
        (∀ c, c < 2 → (t.pport c).flushes = (s.pport c).flushes.filter fun y => y.part ≠ p) ∧
        (t.pport b).buf ++ (t.pport b).queued = ((s.pport b).buf ++ (s.pport b).queued).filter (fun e => e.2.part ≠ p) ∧
        ∀ r, r / 256 = p → t.ringEn r = false) ∧
    (s.isMirror b 0 = false → ∃ t, exec (.functionLevelReset port 0) s = .next t ∧ t.mem = s.mem ∧ t.linkUp b = s.linkUp b ∧
      resetAll t (fun _ => True)) ∧
    (∃ t, exec (.hotReset port) s = .next t ∧ portDown t) ∧
    ((s.pport b).perstLow = false → ∃ t, exec (.perst port true) s = .next t ∧ portDown t ∧ (t.pport b).perstLow = true) ∧
    ((s.pport b).perstLow = true → ∃ t, exec (.perst port false) s = .next t ∧ t = { s with pports := t.pports } ∧
      (t.pport b).perstLow = false) ∧
    ((s.pport b).perstLow = low → exec (.perst port low) s = .next s) ∧
    (s.linkUp b = false → exec (.configurationRequest port f op) s = .next s) ∧
    (s.linkUp b = true →
      (¬ up → exec (.configurationRequest port f op) s = .next { s with out := s.out ++ [.retryStatus b f.val] }) ∧
      (up →
        (∃ t x, exec (.configurationRequest port f (.read reg)) s = .next t ∧ t = { s with out := t.out, free := t.free } ∧
          t.out = s.out ++ [.completion b f.val x] ∧
          (reg = .ids → x.toNat / 2 ^ 16 = if f.val = 0 then 0x4A40 else 0x4A41) ∧
          (reg = .classCode → x.toNat = s.fuses.stepping.toNat + 0x120000 * 2 ^ 8) ∧
          (reg = .aer → x.toNat = cfg.aer.toNat)) ∧
        sets (.power on) { cfg with d3 := on } ∧ sets (.maxRead m) { cfg with maxRead := 128 * 2 ^ m.val } ∧
        sets (.timeout ticks) { cfg with timeout := ticks } ∧ sets (.aerClear bs) { cfg with aer := cfg.aer &&& ~~~bs } ∧
        (∃ t, exec (.configurationRequest port f (.msix on mask)) s = .next t ∧ t.mem = s.mem ∧
          t.fnCfg b f.val = { cfg with msixOn := on, msixMask := mask }) ∧
        (f.val = 0 → ∃ t, exec (.configurationRequest port f (.sriov enable n)) s = .next t ∧ (t.pport b).vfs = count ∧
          t.mem = s.mem ∧ resetAll t (fun g => count < g ∧ g ≤ (s.pport b).vfs)) ∧
        (f.val ≠ 0 → exec (.configurationRequest port f (.sriov enable n)) s = .next s)))) ∧
  (∀ (port : Fin 2) (lane : Fin 16) (rate : BitVec 3) (width : BitVec 5) (flit surprise : Bool) (t0 : Nat) (s : State),
    let b := port.val
    let o := 1 - b
    let carries := fun (x : State) (p f : Nat) => x.fld (aFn p f 0) 8 1
    let down := fun (t : State) => t.fld (aPort b 0) 9 1 = 1 ∧ t.linkUp b = false
    let failed := fun (t : State) => down t ∧ (t.pport b).downTick = none ∧
      t.mem = s.mem ∧ t.resets = s.resets ∧ ∀ f, f < 64 → carries s b f = 1 → carries t b f = 0 ∧
        let p := s.fld (aFn b f 0) 1 6
        if s.mirrorReady b f then carries t o f = 1 ∧ t.fld (aPort o 0) 10 1 = 1 ∧
          (s.linkUp o = true → (∀ g, g < 64 → carries s b g = 1 → s.fld (aFn b g 0) 1 6 = p → s.mirrorReady b g = true) →
            ∀ e ∈ (s.pport b).retained, e.2.part = p → s.beyond p e.2.win (e.2.off + e.2.bytes.length - 1) = 0 →
            Out.hostWrite o (t.winAddr p e.2.win e.2.off) e.2.bytes e.2.ep ∈ t.out)
        else ∀ i, i < 256 → t.ringEn (256 * p + i) = false
    let quiet := (s.pport 0).reads = [] ∧ (s.pport 1).reads = []
    let fails := fun (i : Instr) => ∃ t, exec i s = .next t ∧ down t ∧ (quiet → failed t)
    let mirrored := fun (f : Nat) => s.fld (aFn b f 0) 0 1 = 1 ∧ carries s o f = 1 ∧ s.fld (aFn o f 0) 0 1 = 0 ∧
      s.fld (aFn o f 0) 1 6 = s.fld (aFn b f 0) 1 6
    let left := ∃ e ∈ (s.pport o).buf ++ (s.pport o).queued ++ (s.pport o).retained, e.2.part ≠ 64 ∧
      (s.hostFunc e.2.part).map (·.1) = some b
    let mayRise := (s.pport b).perstLow = false ∧ s.fld (aPort b 0x18) 0 1 = 0 ∧ 1 ≤ rate.toNat ∧ rate.toNat ≤ 6 ∧
      width.toNat ∈ [1, 2, 4, 8, 16]
    let res := b * 16 + lane.val
    let key := windowKey 7 res
    s.powered = true →
    (s.linkUp b = true →
      (∃ t, exec (.pcieLinkDown port false) s = .next t ∧ t = { s with ctl := t.ctl, pports := t.pports } ∧ t.linkUp b = false ∧
        (t.pport b).downTick = some s.tick ∧ (t.pport b).buf = (s.pport b).buf ∧ (t.pport b).retained = (s.pport b).retained) ∧
      fails (.pcieLinkDown port true) ∧ exec (.portFailover port) s = .next s ∧
      exec (.pcieLinkUp port rate width flit) s = .next s ∧
      (s.fld (aPort b 0) 9 1 = 0 → exec (.failback port) s = .next s) ∧
      (s.fld (aPort b 0) 9 1 = 1 → ∃ t, exec (.failback port) s = .next t ∧ t = { s with ctl := t.ctl } ∧
        (left → t.fld (aPort b 8) 1 1 = 1 ∧ t.fld (aPort b 0) 9 1 = 1 ∧ ∀ f p, f < 64 → p < 2 → carries t p f = carries s p f) ∧
        (¬ left → t.fld (aPort b 0) 9 1 = 0 ∧ t.fld (aPort o 0) 10 1 = 0 ∧ ∀ f, f < 64 →
          (mirrored f → carries t b f = 1 ∧ carries t o f = 0) ∧
          (¬ mirrored f → carries t b f = carries s b f ∧ carries t o f = carries s o f)))) ∧
    (s.linkUp b = false →
      ((s.pport b).downTick = some t0 → t0 + 500000 ≤ s.tick → fails (.portFailover port)) ∧
      ((s.pport b).downTick = none ∨ (s.pport b).downTick = some t0 ∧ s.tick < t0 + 500000 →
        exec (.portFailover port) s = .next s) ∧
      exec (.failback port) s = .next s ∧ exec (.pcieLinkDown port surprise) s = .next s ∧
      (mayRise → ∃ t, exec (.pcieLinkUp port rate width flit) s = .next t ∧
        t.fld (aPort b 0) 0 3 = rate.toNat ∧ t.fld (aPort b 0) 3 5 = width.toNat ∧
        t.fld (aPort b 0) 8 1 = (if flit then 1 else 0) ∧ (t.pport b).downTick = none ∧
        ((s.pport b).reads = [] → t = { s with ctl := t.ctl, pports := t.pports, out := t.out })) ∧
      (¬ mayRise → exec (.pcieLinkUp port rate width flit) s = .next s)) ∧
    (∃ t, exec (.pcieLaneReceiverError port lane) s = .next t ∧ t.cores = s.cores ∧ t.mem = s.mem ∧ t.resets = s.resets ∧
      Tbl.get 0 t.windows key = Tbl.get 0 s.windows key + 1 ∧
      if (s.faultWin 7).1 = Tbl.get 0 s.windows key + 1 then
        (t.nor.repairs = s.nor.repairs ++ [⟨7, res, (s.rd (aMgt 0x30)).toNat⟩] ∧
          (s.linkUp b = true → if t.laneWidth b = 0 then t.linkUp b = false
            else t.fld (aPort b 0) 3 5 = min (t.laneWidth b) (s.fld (aPort b 0) 3 5)))
      else t.nor = s.nor))

/-- R412, R414, R420, R428, R429, R453, R473, R496, R500, R502: PWRGD on a package without power clears it, keeps NOR, the fuses and the
position, and leaves it at the end of the sequence, or on the recovery path where NOR holds no image that verifies; it changes nothing
on a package that runs. The loss of power or of the reference clock stops everything, leaves in a NOR that has failed what it held
then, and takes from the lifetime copies that they were orderly, unless a power-down had ended or a trip had persisted. -/
def Obligations.PowerAndLoss : Prop :=
  ∀ (b : BootInput) (low : Bool) (c : LifeCopy) (s : State),
    let kept := fun (t : State) => t.powered = true ∧ t.mem = [] ∧ t.tiles = [] ∧ t.fuses = s.fuses ∧ t.position = s.position ∧
      t.pending = s.pending ∧ t.nor.firmware = s.nor.firmware ∧ t.nor.image = s.nor.image ∧ t.tick = b.ms * 250000
    let clean := s.fld (aMgt 0) 4 1 = 1 ∨ s.thermal.trip10 = true
    let nor := s.norKept.getD s.nor
    let lost := fun (t : State) (ok : Prop) => t.powered = false ∧ t.norBusy = [] ∧ t.norKept = none ∧
      t.nor = { nor with life := t.nor.life } ∧
      t.nor.life.length = nor.life.length ∧ (¬ ok → ∀ x ∈ t.nor.life, x.orderly = false) ∧ (ok → t.nor.life = nor.life)
    (s.powered = true → exec (.powerGood b) s = .next s) ∧
    (s.powered = false →
      (s.romVerifies b = false →
        ∃ t, exec (.powerGood b) s = .next t ∧ kept t ∧ t.recovering = some b ∧ t.fld aBoot 3 1 = 1 ∧ t.fld aBoot 0 3 = 2 ∧
          t.nor.records = s.nor.records ∧ t.nor.repairs = s.nor.repairs ∧ t.cores = [] ∧ t.out = s.out) ∧
      (s.romVerifies b = true →
        ∃ t, exec (.powerGood b) s = .next t ∧ kept t ∧ t.recovering = none ∧ t.fld aBoot 3 1 = 0 ∧ t.fld aBoot 0 3 = 7 ∧
          t.fld aBoot 32 32 = b.ms % 2 ^ 32 ∧ (∃ o, t.out = o ++ [.hotJoin]) ∧ (∀ x ∈ t.nor.life, x.orderly = false) ∧
          (s.nor.latest = some c → t.rd (aMgt 0x48) = BitVec.ofNat 64 c.powerOns + 1 ∧
            t.rd (aMgt 0x50) = BitVec.ofNat 64 c.unclean + (if c.orderly then 0 else 1)))) ∧
    (∃ t, exec (.powerLoss low) s = .next t ∧
      t = { s with powered := t.powered, norBusy := t.norBusy, nor := t.nor, norKept := t.norKept, thermal := t.thermal } ∧
      t.powered = false ∧
      t.thermal = { s.thermal with tripped := s.thermal.tripped && !low } ∧ (s.powered = true → lost t clean)) ∧
    (∃ t, exec .refclkLoss s = .next t ∧
      t = { s with powered := t.powered, norBusy := t.norBusy, nor := t.nor, norKept := t.norKept } ∧
      t.powered = false ∧ (s.powered = true → lost t False))

/-- R371, R422, R423, R425 to R427: each of the four requests starts the reset of its unit, whose cores halt at once, keeping every byte;
a reset of cores or of a galley that covers a started core stops its part; a request within a unit under reset adds none, and a wider
one takes the narrower over; the unit drains, and then comes back.
R12, R422 to R424: a unit that has drained comes back cleared: its cores as after reset but for what stays open with others, its
registers, tile memory and, of a partition or the package, its memories at zero; a core or galley reset keeps memory; a unit that
has not drained, or whose proof pass still runs, stays. -/
def Obligations.Resets : Prop :=
  (∀ (who : Accessor) (die : Fin 64) (g : Fin 4) (p : Fin 64) (v : Word) (u : ResetUnit) (r : ResetRun) (s : State),
    let a := aGly die.val g.val 0
    let core := fun (c : Fin 18) => ResetUnit.core ⟨die, ⟨g.val * 18 + c.val, by omega⟩⟩
    let asked := (List.finRange 18).filter fun c => v.getLsbD c.val
    let run := fun (u : ResetUnit) =>
      (⟨u, s.tick, false, false, match u with | .partition q => s.galleyMask q.val | _ => 0⟩ : ResetRun)
    let starts := fun (t : State) (us : List ResetUnit) => t.mem = s.mem ∧ t.tiles = s.tiles ∧ t.nor = s.nor ∧
      (s.resets = [] → t.resets = us.map run) ∧ (∀ u ∈ us, ∃ r ∈ t.resets, s.within u r.unit = true) ∧
      (∀ r ∈ s.resets, r ∈ t.resets ∨ ∃ u ∈ us, s.within r.unit u = true) ∧
      ∀ u ∈ us, s.merges u = false → ∀ k, k < 4608 → s.covers u k = true → (t.core k).run = false ∧ (t.core k).armed = false
    let stops := fun (t : State) (us : List ResetUnit) => ∀ q, q < 64 → s.ctxState q ∈ [3, 4] →
      (∃ u ∈ us, s.merges u = false ∧ (s.started q).any (s.covers u) = true) → t.ctxState q = 5
    (s.mayWrite who a = true →
      (v.getLsbD 18 = false → asked ≠ [] → ∃ t, exec (.glyResetCores who die g v) s = .next t ∧ starts t (asked.map core) ∧
        stops t (asked.map core) ∧ t.rd a = s.rd a ||| (v &&& 0x7FFFF)) ∧
      (v.getLsbD 18 = true → ∃ t, exec (.glyResetGalley who die g v) s = .next t ∧ starts t [.galley die g] ∧
        stops t [.galley die g] ∧ t.rd a = s.rd a ||| (v &&& 0x7FFFF)) ∧
      (asked = [] → exec (.glyResetCores who die g v) s = .next s) ∧
      (v.getLsbD 18 = false → exec (.glyResetGalley who die g v) s = .next s)) ∧
    (s.mayWrite who a = false → exec (.glyResetCores who die g v) s = .next s ∧ exec (.glyResetGalley who die g v) s = .next s) ∧
    (s.mayWrite who (aPartReset p.val) = true →
      (v.getLsbD 0 = true → ∃ t, exec (.pkgPartReset who p v) s = .next t ∧ starts t [.partition p] ∧
        t.fld (aPartReset p.val) 0 1 = 1 ∧
        (s.merges (.partition p) = true → t = { s with ctl := t.ctl }) ∧
        (s.merges (.partition p) = false → (t.part p.val).load = none)) ∧
      (v.getLsbD 0 = false → exec (.pkgPartReset who p v) s = .next s)) ∧
    (s.mayWrite who (aPartReset p.val) = false → exec (.pkgPartReset who p v) s = .next s) ∧
    (s.mayWrite who aPkgReset = true →
      (v.toNat % 2 ^ 32 = 0x4A585253 → ∃ t, exec (.pkgReset who v) s = .next t ∧ starts t [.package] ∧
        ((∀ r ∈ s.resets, r.unit ≠ .package) → t.resets = [run .package])) ∧
      (v.toNat % 2 ^ 32 ≠ 0x4A585253 → exec (.pkgReset who v) s = .next s)) ∧
    (s.mayWrite who aPkgReset = false → exec (.pkgReset who v) s = .next s) ∧
    (s.powered = true → s.resetOf u = some r → r.drained = false →
      ∃ t, exec (.resetDrainComplete u) s = .next t ∧ t = { s with resets := t.resets } ∧
        t.resetOf u = some (if (s.cores.all fun e => !s.covers u e.1 || e.2.awaitSum = 0) = true then { r with drained := true }
          else r)) ∧
    (s.resetOf u = none ∨ s.resetOf u = some r ∧ r.drained = true → exec (.resetDrainComplete u) s = .next s)) ∧
  (∀ (c : CoreId) (die : Fin 64) (g : Fin 4) (p : Fin 64) (u : ResetUnit) (r : ResetRun) (found : BringUp) (s : State),
    (s.powered = false ∨ s.resetOf u = none ∨ s.resetOf u = some r ∧ (r.drained = false ∨ r.proof = true) →
      exec (.resetReturn u found) s = .next s) ∧
    (s.powered = true → s.resetOf u = some r → r.drained = true → r.proof = false →
      ∃ t, exec (.resetReturn u found) s = .next t ∧ t.resets = s.resets.filter (fun x => x.unit ≠ u) ∧ t.tick = s.tick ∧
        (∀ k, k < 4608 → s.covers u k = true → t.rd (aCoreK k 0x2C0) = 0 ∧ (∀ i, i < 65536 → Tbl.get 0 t.tiles (k * 65536 + i) = 0) ∧
          (u = .core c ∨ u = .galley die g → t.core k = (s.core k).cleared) ∧
          (u = .partition p ∨ u = .package → ∀ space off, space < 3 → off < 2 ^ 26 → t.byte (coreAddr k space off) = 0)) ∧
        (u = .core c ∨ u = .galley die g → t.mem = s.mem ∧ ∀ k, s.covers u k = false → t.core k = s.core k) ∧
        (u = .core c → t.fld (aGly c.die.val (c.flat.val / 18) 0) (c.flat.val % 18) 1 = 0) ∧
        (u = .galley die g → t.fld (aGly die.val g.val 0) 0 19 = 0) ∧
        (u = .partition p → t.part p.val = Part.reset ∧ (∀ k space off, k < 4608 → s.covers u k = false → space < 3 →
          off < 2 ^ 26 → t.byte (coreAddr k space off) = s.byte (coreAddr k space off)) ∧
          (∀ d off, d < 64 → off < 2 ^ 26 → t.byte (storeAddr d off) = s.byte (storeAddr d off)))))

/-- R428 to R431, R453, R470: STAGE takes an image that a key in force signs, and COMMIT writes it; ACTIVATE restarts the colophons one at a
time from Q1's, or takes the microcode into a partition's dies; DISCARD drops an image not committed; a command out of this order, or
while one runs, is refused, and once the package is lost none is applied; the boot ROM knows only STAGE, and writes the image at once.
Each colophon that starts hands on to the next, Q0's ends the command, and one that does not start within 2 s leaves the ROM in
charge.
R371, R413, R429, R430, R446, R453, R473, R475: a write to NOR that ends well puts in force what it wrote: the firmware image, with
which a boot ROM that waits goes on; the lifetime records in the older of two copies, the staged image, the power-down once every part
has stopped, but one that a reset has called off; an image that reads back wrong is written again up to 3 times; a failure of another
write makes NOR not good. -/
def Obligations.FirmwareAndNor : Prop :=
  (∀ (who : Accessor) (v : Word) (img : HostRead) (bs : List Byte) (code : Nat) (o : PcieOutcome) (q : Fin 4) (t0 : Nat) (s : State),
    let a := aFw 0
    let said := fun (t : State) => t.fld a 24 8
    let s1 := s.setFld a 8 16 (getF v 8 16)
    let read := s1.readHost 64 (getF v 8 8) (s.rd (aFw 8)).toNat img
    let p := getF v 16 8
    let staged := s.fld a 33 2 = 1 ∧ s.fwStaged = some bs
    let cmds := [(1, Instr.fwStage who v img), (2, .fwCommit who v), (3, .fwActivate who v), (4, .fwDiscard who v)]
    let refused := fun (i : Instr) => ∃ t, exec i s = .next t ∧ t = { s with ctl := t.ctl } ∧ said t = 0x05 ∧ t.fld a 32 3 = s.fld a 32 3
    let toNor := fun (i : Instr) => ∃ t, exec i s = .next t ∧ t.fld a 32 1 = 1 ∧ t.fwTries = 1 ∧
      t = { s with ctl := t.ctl, nor := t.nor, fwTries := t.fwTries, norBusy := s.norBusy ++ [.firmware] } ∧
      t.nor = { s.nor with firmware := bs, firmwareGood := false }
    let keeps := fun (t : State) => t.fwStaged = s.fwStaged ∧ t.nor = s.nor ∧ t.fld a 32 3 = s.fld a 32 3 ∧ t.mem = s.mem
    (s.mayManage who a = false → ∀ e ∈ cmds, exec e.2 s = .next s) ∧
    (s.mayManage who a = true → s.allLost = true → ∀ e ∈ cmds, v.toNat % 8 = e.1 →
      ∃ t, exec e.2 s = .next t ∧ keeps t ∧ said t ≤ 0x10) ∧
    (s.mayManage who a = true → s.allLost = false →
      (s.fld a 32 1 = 1 ∨ s.mgmt.update ≠ 0 → ∀ e ∈ cmds, v.toNat % 8 = e.1 → refused e.2) ∧
      (s.fld a 32 1 = 0 → s.mgmt.update = 0 → s.romServes = true →
        (v.toNat % 8 = 1 →
          (s.fwSigned bs = true → toNor (.fwStage who v (.data bs))) ∧
          (s.fwSigned bs = false → ∃ t, exec (.fwStage who v (.data bs)) s = .next t ∧ keeps t ∧ said t = 0x0B) ∧
          ∃ t, exec (.fwStage who v (.failed o)) s = .next t ∧ keeps t ∧ said t = outcomeCode o) ∧
        ∀ e ∈ cmds.tail, v.toNat % 8 = e.1 → refused e.2) ∧
      (s.fld a 32 1 = 0 → s.mgmt.update = 0 → s.romServes = false →
        (v.toNat % 8 = 1 → read = .ok bs →
          ∃ t, exec (.fwStage who v img) s = .next t ∧ t = { s with ctl := t.ctl, fwStaged := t.fwStaged } ∧
            if s.fwSigned bs = true then said t = 0x00 ∧ t.fwStaged = some bs ∧ t.fld a 33 2 = 1
            else said t = 0x0B ∧ t.fwStaged = s.fwStaged ∧ t.fld a 33 2 = s.fld a 33 2) ∧
        (v.toNat % 8 = 1 → read = .error code → code < 256 →
          ∃ t, exec (.fwStage who v img) s = .next t ∧ keeps t ∧ said t = code) ∧
        (v.toNat % 8 = 2 → (staged → toNor (.fwCommit who v)) ∧
          (s.fld a 33 2 ≠ 1 ∨ s.fwStaged = none → refused (.fwCommit who v))) ∧
        (v.toNat % 8 = 3 → (s.fld a 34 1 = 0 → refused (.fwActivate who v)) ∧
          (s.fld a 34 1 = 1 → ∃ t, exec (.fwActivate who v) s = .next t ∧ t = { s with ctl := t.ctl, fwRestarting := t.fwRestarting } ∧
            if p = 0xFF then t.fwRestarting = some (1, s.tick) ∧ t.fld a 32 1 = 1
            else said t = 0x00 ∧ ∀ d, d < 64 → t.fld (aFw 0x18) d 1 =
              if s.hasGalley p d 0 || s.hasGalley p d 1 || s.hasGalley p d 2 || s.hasGalley p d 3 then 1 else s.fld (aFw 0x18) d 1)) ∧
        (v.toNat % 8 = 4 → (s.fld a 33 2 = 1 → ∃ t, exec (.fwDiscard who v) s = .next t ∧
            t = { s with ctl := t.ctl, fwStaged := none } ∧ said t = 0x00 ∧ t.fld a 33 1 = 0) ∧
          (s.fld a 33 2 ≠ 1 → refused (.fwDiscard who v))))) ∧
    (s.powered = true → s.fwRestarting = some (q.val, t0) →
      (q ≠ 0 → ∃ t, exec (.colophonStarted q) s = .next t ∧ t.fwRestarting = some ((q.val + 1) % 4, s.tick) ∧
        t = { s with colophonStopped := s.colophonStopped.filter (· ≠ q.val), fwRestarting := t.fwRestarting }) ∧
      (q = 0 → ∃ t, exec (.colophonStarted q) s = .next t ∧ t.fwRestarting = none ∧ t.primary = 0 ∧ t.fld a 32 1 = 0 ∧ said t = 0x00 ∧
        t.fld (aFw 0x10) 0 32 = s.fld (aFw 0x10) 32 32 ∧ t.mem = s.mem ∧ t.cores = s.cores ∧ t.rate = s.rate) ∧
      (t0 + 500000000 ≤ s.tick → ∃ t, exec (.colophonStartTimeout q) s = .next t ∧ t.fwRestarting = none ∧ t.romUp = true ∧
        t.fld aBoot 3 1 = 1 ∧ t.fld a 32 1 = 0 ∧ q.val ∈ t.colophonStopped ∧ t.cores = s.cores ∧ t.mem = s.mem) ∧
      (s.tick < t0 + 500000000 → exec (.colophonStartTimeout q) s = .next s)) ∧
    ((∀ x, s.fwRestarting ≠ some (q.val, x)) →
      exec (.colophonStarted q) s = .next s ∧ exec (.colophonStartTimeout q) s = .next s)) ∧
  (∀ (what : NorWrite) (ok : Bool) (b : BootInput) (s : State),
    let a := aFw 0
    let life := fun (t : State) (orderly : Bool) => t.nor.life.length ≤ max 2 s.nor.life.length ∧ ∃ x, t.nor.life.getLast? = some x ∧
      x.seq = (s.nor.life.map (·.seq)).foldl max 0 + 1 ∧ x.ticks = (s.rd (aMgt 0x40)).toNat ∧
      x.powerOns = (s.rd (aMgt 0x48)).toNat ∧ x.windows = s.windows ∧ x.orderly = orderly
    let ends := fun (what : NorWrite) (ok : Bool) (holds : State → Prop) =>
      s.powered = true → what ∈ s.norBusy → ∃ t, exec (.norWriteComplete what ok) s = .next t ∧ t.mem = s.mem ∧ holds t
    let written := fun (t : State) => t.norBusy = s.norBusy.erase .firmware ∧
      t.nor.firmwareGood = true ∧ t.nor.firmware = s.nor.firmware ∧ t.fld a 24 8 = 0x00 ∧ t.fld a 32 1 = 0 ∧ t.fld a 34 1 = 1 ∧
      t.rd (aFw 0x18) = 0
    (s.powered = false ∨ what ∉ s.norBusy → exec (.norWriteComplete what ok) s = .next s) ∧
    (s.recovering = none → ends .firmware true fun t => written t ∧
      t.fld (aFw 0x10) 32 32 = (Config.firmwareVersion s.nor.firmware).toNat ∧ t.romUp = false) ∧
    (s.recovering = some b → ends .firmware true fun t => t.nor.firmwareGood = true ∧ t.recovering = none ∧ t.fld aBoot 0 3 = 7 ∧
      t.fld aBoot 32 32 = s.tick / 250000 % 2 ^ 32) ∧
    (ends .firmware false fun t => t.nor = s.nor ∧
      if s.fwTries < 4 then t.fwTries = s.fwTries + 1 ∧ t.norBusy = s.norBusy.erase .firmware ++ [.firmware] ∧ t.ctl = s.ctl
      else t.fld a 24 8 = 0x07 ∧ t.fld a 32 1 = 0) ∧
    (ends .lifetime true fun t => life t s.thermal.trip10 ∧ t.fld (aMgt 0x08) 0 1 = 0 ∧ t.cores = s.cores) ∧
    (ends .lifetime false fun t => t.fld (aMgt 0x08) 0 1 = 0 ∧ t.norOk = false ∧ t.nor = s.nor) ∧
    (s.allStopped = true → ends .powerdown true fun t => life t s.goingOff ∧ t.cores = s.cores ∧
      t.fld (aMgt 0) 4 1 = if s.goingOff then 1 else s.fld (aMgt 0) 4 1) ∧
    (s.allStopped = true → ends .powerdown false fun t => t.norOk = false ∧ t.nor = s.nor) ∧
    (s.allStopped = false → exec (.norWriteComplete .powerdown ok) s = .next s) ∧
    (ends .stagedImage true fun t => t = { s with ctl := t.ctl, norBusy := s.norBusy.erase .stagedImage } ∧ t.fld aEfxCtrl 24 1 = 0 ∧
      t.fld aEfxCtrl 25 1 = 1 ∧ t.fld aEfxCtrl 16 8 = 0x00) ∧
    (ends .stagedImage false fun t => t.efxStaged = none ∧ t.fld aEfxCtrl 24 1 = 0 ∧ t.norOk = false ∧ t.nor = s.nor ∧
      t.fld aEfxCtrl 16 8 ≤ 0x10) ∧
    (∀ x, x = .record ∨ x = .repairLog → (ends x true fun t => t = { s with norBusy := s.norBusy.erase x }) ∧
      ends x false fun t => t.norOk = false ∧ t.nor = s.nor ∧ (s.norOk = true → t.norKept = some s.nor) ∧
        (0 ∉ s.colophonStopped → t.cores = s.cores)))

/-- R453, R456, R472 to R476: the colophon of Q1 takes over from that of Q0; PERSIST and the timer have the lifetime records
written, once at a time; POWERDOWN stops every part and persists; the calendar is set and counts each second; an ageing monitor shows
its index, with a record as it passes 30,000 ppm. -/
def Obligations.ColophonAndLifetime : Prop :=
  ∀ (who : Accessor) (v : Word) (die : Fin 64) (g : Fin 4) (ppm : BitVec 32) (s : State),
    let c := aMgt 0x08
    let lives := (s.rd (aMgt 0x40)).toNat
    let joined := if NorWrite.lifetime ∈ s.norBusy then s.norBusy else s.norBusy ++ [.lifetime]
    let off := v.getLsbD 1 = true ∧ s.fld c 1 1 = 0
    let does := fun (i : Instr) => ∃ t, exec i s = .next t ∧ t.mem = s.mem ∧
      t.norBusy = (if v.getLsbD 0 = true then joined else s.norBusy) ++ (if off then [.powerdown] else []) ∧
      (v.getLsbD 0 = true → t.fld c 0 1 = 1) ∧ (v.getLsbD 1 = true → t.fld c 1 1 = 1) ∧
      ∀ p, p < 64 → t.ctxState p = if off ∧ s.ctxState p ∈ [2, 3, 4] then 5 else s.ctxState p
    let w := aMgt (0x1000 + 8 * (die.val * 4 + g.val))
    (s.powered = true →
      (s.primary = 0 → 0 ∉ s.colophonStopped →
        ∃ t, exec .colophonHandover s = .next t ∧ t.primary = 1 ∧ t.colophonStopped = 0 :: s.colophonStopped ∧
          t.handover = some s.tick ∧ t.mem = s.mem ∧ t.rate = s.rate ∧ (∃ r ∈ t.errPend, r.source = 0x71 ∧ r.die = 64) ∧
          (s.norOk = true → t.cores = s.cores ∧ t.parts = s.parts) ∧
          (s.norOk = false → ∀ p, p < 64 → t.ctxState p = if s.ctxState p ∈ [2, 3, 4] then 5 else s.ctxState p)) ∧
      (s.primary ≠ 0 ∨ 0 ∈ s.colophonStopped → exec .colophonHandover s = .next s) ∧
      (lives ≠ 0 → lives % 150000000000 = 0 → exec .lifetimePersistTimer s = .next { s with norBusy := joined }) ∧
      (lives = 0 ∨ lives % 150000000000 ≠ 0 → exec .lifetimePersistTimer s = .next s) ∧
      (s.fld (aMgt 0) 2 1 = 1 → s.calDue ≤ s.tick → ∃ t, exec .calendarSecond s = .next t ∧
        t = { s with ctl := t.ctl, calDue := s.calDue + 250000000 } ∧ t.rd (aMgt 0x30) = s.rd (aMgt 0x30) + 1) ∧
      (s.fld (aMgt 0) 2 1 = 0 ∨ s.tick < s.calDue → exec .calendarSecond s = .next s) ∧
      (∃ t, exec (.ageingMonitorSample die g ppm) s = .next t ∧
        t = { s with ctl := t.ctl, errPend := t.errPend, windows := t.windows, free := t.free } ∧ t.fld w 0 32 = ppm.toNat ∧
        if s.fld w 0 32 ≤ 30000 ∧ 30000 < ppm.toNat then ∃ r ∈ t.errPend, r.die = die.val else t.errPend = s.errPend)) ∧
    (s.mayManage who c = true →
      (v.getLsbD 0 = true → does (.persist who v)) ∧ (v.getLsbD 1 = true → does (.powerdown who v)) ∧
      (v.getLsbD 0 = false → exec (.persist who v) s = .next s) ∧ (v.getLsbD 1 = false → exec (.powerdown who v) s = .next s)) ∧
    (s.mayManage who c = false → exec (.persist who v) s = .next s ∧ exec (.powerdown who v) s = .next s) ∧
    (s.mayManage who (aMgt 0x30) = true →
      ∃ t, exec (.mgtCalWrite who v) s = .next t ∧ t = { s with ctl := t.ctl, calDue := s.tick + 250000000 } ∧
        t.rd (aMgt 0x30) = v ∧ t.fld (aMgt 0) 2 1 = 1) ∧
    (s.mayManage who (aMgt 0x30) = false → exec (.mgtCalWrite who v) s = .next s)

/-- R389, R436 to R438, R441, R445: the bytes of a row under restore are written unless another write stands, and with the last row the
commands squashed may be replayed; bytes that are not 128, or that the source's window refuses, ask the alternate source, once; after
4,000 ticks the squashed commands complete with PARITY_UNRECOVERED, the rows are poisoned, and the restore goes on in the background; a
line of a program store is written again from the plate, or every compositor that waits for it halts with PARITY_UNRECOVERED.
R444 to R449, R453, R455, R474: the first record that has waited 1 ms leaves into the package log, the ring of its partition where
that is enabled and not full, and NOR where it is fenced or worse; one that reached its limit retires its resource; the
counters of a kind fall by one for each leak interval that has passed since they last fell. -/
def Obligations.ErrorsAndRestores : Prop :=
  (∀ (c : CoreId) (row : Nat) (bytes : List Byte) (r : Restore) (die : Fin 64) (line p : Nat) (h : HostRead) (pl : Plate) (x : ProgSec)
    (s : State),
    let k := kOf c
    let late := r.background = true ∧ r.since + s.partLoadTimeout (s.partOfKey k) ≤ s.tick
    let left := r.rows.filter fun y => y ≠ row
    let good := bytes.length = 128 ∧ s.rowServed k row (decide (row ∈ r.alt)) = true
    let lo := max (line * 128) x.soff
    let n := min (line * 128 + 128) (x.soff + x.count) - lo
    let lost := fun (t : State) => t.mem = s.mem ∧ ∀ f, f < 72 → (s.core (die.val * 72 + f)).stall = .fetch line →
      (s.core (die.val * 72 + f)).run = true → (t.core (die.val * 72 + f)).run = false ∧
        (t.core (die.val * 72 + f)).haltCode = 0x07
    s.powered = true →
    (s.coreAbsorbed k = true ∨ s.coreAbsorbed k = false ∧ ((s.core k).restore = none ∨
        (s.core k).restore = some r ∧ (row ∉ r.rows ∨ ¬ good ∧ row ∈ r.alt)) →
      exec (.weightRowRestore c row bytes) s = .next s) ∧
    (s.coreAbsorbed k = false → (s.core k).restore = some r → row ∈ r.rows →
      (good →
        ∃ t, exec (.weightRowRestore c row bytes) s = .next t ∧
          t = { s with mem := t.mem, ctl := t.ctl, poison := t.poison, cores := t.cores } ∧ (∀ j, j ≠ k → t.core j = s.core j) ∧
          (¬ late → row ∉ r.overwritten → s.BytesBecome t (coreAddr k 0 (row * 128)) bytes ∧ t.poisoned k 0 (row * 128) = false) ∧
          (late ∨ row ∈ r.overwritten → t.mem = s.mem) ∧
          (¬ late → left ≠ [] → t.core k = { s.core k with restore := some { r with rows := left } }) ∧
          (late ∨ left = [] → t.core k = { s.core k with restore := none }.replayed r.queues)) ∧
      (¬ good → row ∉ r.alt → ∃ t, exec (.weightRowRestore c row bytes) s = .next t ∧
        t = { s with cores := t.cores, out := t.out } ∧ (∀ j, j ≠ k → t.core j = s.core j) ∧
        t.core k = { s.core k with restore := some { r with alt := row :: r.alt } } ∧
        t.out = s.out ++ match s.rowAsk k row true with
          | some y => [.fetch (s.partOfKey k) c.die.val y.1 y.2.1 y.2.2 128]
          | none => []) ∧
      (r.background = false → r.since + 4000 ≤ s.tick →
        ∃ t, exec (.restoreBudgetExpiry c row) s = .next t ∧ t.mem = s.mem ∧ (∀ j, j ≠ k → t.core j = s.core j) ∧
          t.core k = { (s.core k).unreplayed r.queues with restore := some { r with background := true, queues := [] } } ∧
          (∀ y ∈ r.rows, y ∉ r.overwritten → t.poisoned k 0 (y * 128) = true) ∧
          ∃ e ∈ t.errPend, e.source = 0x10 ∧ e.die = c.die.val ∧ e.core = c.flat.val) ∧
      (r.background = true ∨ s.tick < r.since + 4000 → exec (.restoreBudgetExpiry c row) s = .next s)) ∧
    (32768 ≤ line → exec (.programStoreRestore die line h) s = .next s) ∧
    (line < 32768 →
      (s.lineSource die.val line = some (p, pl, x) →
        (s.winCheck p pl.window (some (pl.offset + x.file + (lo - x.soff) + bytes.length - 1)) true false = 0 → bytes ≠ [] →
          bytes.length = n → ∃ t, exec (.programStoreRestore die line (.data bytes)) s = .next t ∧ t.cores = s.cores ∧
            s.BytesBecome t (storeAddr die.val lo) bytes) ∧
        (s.lineBytes line (p, pl, x) h = none → ∃ t, exec (.programStoreRestore die line h) s = .next t ∧ lost t)) ∧
      (s.lineSource die.val line = none → ∃ t, exec (.programStoreRestore die line h) s = .next t ∧ lost t))) ∧
  (∀ (r : ErrRec) (b f key n : Nat) (s : State),
    let seq := s.fld aErrSeq 0 32
    let bs := recBytes seq s.position r
    let p := if r.part < 64 then r.part else 64
    let ctl := s.rd (aErrRing p 0)
    let head := s.rd (aErrRing p 0x10)
    let used := head.toNat - (s.rd (aErrRing p 0x18)).toNat
    let size := 2 ^ getF ctl 16 5
    let off := (s.rd (aErrRing p 0x08)).toNat + 64 * (head.toNat % size)
    let on := getF ctl 0 1 = 1 ∧ 4 ≤ getF ctl 16 5 ∧ getF ctl 16 5 ≤ 16
    let cal := (s.rd (aMgt 0x30)).toNat
    let T := (s.rd (aMgt 0x40)).toNat
    let w := s.faultWin (key / 2 ^ 40)
    s.powered = true →
    ((∀ x ∈ s.errPend, s.tick < x.tick + 250000) → exec .errorRecordEmit s = .next s) ∧
    (s.errPend.find? (fun x => x.tick + 250000 ≤ s.tick) = some r →
      ∃ t, exec .errorRecordEmit s = .next t ∧ t.mem = s.mem ∧
        (r.retire = false → t.errPend = s.errPend.erase r ∧ t.cores = s.cores ∧ t.fld aErrSeq 0 32 = (seq + 1) % 2 ^ 32 ∧
          t.errLog = (s.errLog ++ [(seq, bs)]).drop (s.errLog.length + 1 - 4096) ∧
          (r.cls < 2 → t.nor = s.nor ∧ t.norBusy = s.norBusy) ∧
          (2 ≤ r.cls → t.norBusy = s.norBusy ++ [.record] ∧ t.nor = { s.nor with records := s.nor.records ++ [bs ++ leBytes 8 T] }) ∧
          (¬ on → t.pports = s.pports ∧ t.rd (aErrRing p 0x10) = head) ∧
          (on → size - 1 ≤ used → t.pports = s.pports ∧ t.rd (aErrRing p 0x20) = s.rd (aErrRing p 0x20) + 1) ∧
          (on → used < size - 1 → s.carrier p = some (b, f) →
            s.winCheck p (getF ctl 8 8) (some (off + 63)) false true = 0 → t.rd (aErrRing p 0x10) = head + 1 ∧
              ((t.pport b).buf ++ (t.pport b).queued).map (·.2) = ((s.pport b).buf ++ (s.pport b).queued).map (·.2) ++
                [⟨p, getF ctl 8 8, off, bs, false, none, some (16384 + p), false⟩])) ∧
        (r.retire = true →
          (r.rkind = 0 → s.freeSpares (arrayOf r.res) ≠ 0 → t.fenced = s.fenced ∧ t.nor.repairs = s.nor.repairs ++ [⟨0, r.res, cal⟩]) ∧
          (r.rkind = 0 → s.freeSpares (arrayOf r.res) = 0 → r.res / 2 ^ 30 ∉ s.fenced → t.fenced = s.fenced ++ [r.res / 2 ^ 30]) ∧
          (r.rkind = 1 → r.res / 2 ^ 30 ∉ s.fenced → t.fenced = s.fenced ++ [r.res / 2 ^ 30]) ∧
          (r.rkind = 2 → r.res ∉ s.fenced → t.fenced = s.fenced ++ [r.res] ∧ t.nor.repairs = s.nor.repairs ++ [⟨2, r.res, cal⟩] ∧
            (t.core r.res).run = false) ∧
          (r.rkind = 3 → r.res < 64 → s.dieFenced r.res = false → t.dieFenced r.res = true ∧ t.fenced = s.fenced) ∧
          (r.rkind = 5 → (t.rport r.res).heldDown = true) ∧
          (r.rkind = 6 → t.nor.repairs = s.nor.repairs ++ [⟨6, r.res, cal⟩] ∧
            (s.freeLanes r.res = 0 → ∀ h ∈ bridgeHops (bridgeOf r.res).1 (bridgeOf r.res).2, h ∈ t.badHops)))) ∧
    (s.windows.filter (fun e => e.1 = key) = [(key, n)] →
      ∃ t, exec .faultWindowLeak s = .next t ∧ t = { s with windows := t.windows, leaked := T } ∧
        Tbl.get 0 t.windows key = n - if w.1 = 0 then 0
          else T / (max (w.2 / w.1) 1 * 250000000) - s.leaked / (max (w.2 / w.1) 1 * 250000000)))

/-- R421, R477 to R482, R484 to R487: a legal loop-back request of a port with no active function resets the port, and that of
a bridge that no circuit crosses takes the bridge out of the routes, until EN is cleared; a proof pass starts with the galley's reset,
is refused where it would stop a running part, and ends with its galley cleared and its verdict; a trace begins at once where START is
0, or at START.
R489: each JTAG instruction is in force; `IDCODE` answers the identity code, `BYPASS` a 0, `SAMPLE/PRELOAD` samples the lands;
`EXTEST`, `CLAMP` and `HIGHZ` act on the lands before step 4 of power-on, and as `BYPASS` after it. -/
def Obligations.TestAndDebug : Prop :=
  (∀ (who : Accessor) (port : Fin 2) (die : Fin 64) (e g : Fin 4) (v : Word) (res : ProofResult)
    (s : State),
    let b := port.val
    let l := aPort b 0x18
    let a := aHub die.val (0x600 + 8 * e.val)
    let y := aGly die.val g.val 8
    let t' := aHub die.val 0x800
    let u := ResetUnit.galley die g
    let hops := bridgeHops die.val e.val
    let on := v.getLsbD 0 = true
    let depth := v.toNat / 2 % 8
    let own := match who with | .func q _ => decide (q = port) | _ => false
    let active := ∃ f, f < 64 ∧ s.fld (aFn b f 0) 8 1 = 1
    let ends := ∃ x ∈ s.resets, x.unit = u ∧ x.proof = true ∧ x.drained = true
    (s.mayWrite who l = false → exec (.hostLoopWrite who port v) s = .next s) ∧
    (s.mayWrite who l = true → on →
      (1 ≤ depth → depth ≤ 4 → ¬ active → own = false →
        ∃ t, exec (.hostLoopWrite who port v) s = .next t ∧ t.fld l 8 8 = 0x00 ∧ t.fld l 0 1 = 1 ∧ t.fld l 1 4 = getF v 1 4 ∧
          t.linkUp b = false ∧ t.mem = s.mem) ∧
      (1 ≤ depth → depth ≤ 4 → active ∨ own = true →
        ∃ t, exec (.hostLoopWrite who port v) s = .next t ∧ t = { s with ctl := t.ctl } ∧ t.fld l 8 8 = 0x05 ∧
          t.fld l 0 5 = s.fld l 0 5) ∧
      (depth = 0 ∨ 4 < depth →
        ∃ t, exec (.hostLoopWrite who port v) s = .next t ∧ t = { s with ctl := t.ctl } ∧ t.fld l 8 8 = 0x04 ∧
          t.fld l 0 5 = s.fld l 0 5)) ∧
    (s.mayWrite who l = true → ¬ on →
      (s.fld l 0 1 = 0 → ∃ t, exec (.hostLoopWrite who port v) s = .next t ∧ t = { s with ctl := t.ctl, patterns := t.patterns } ∧
        t.fld l 0 1 = 0 ∧ t.fld l 1 4 = getF v 1 4) ∧
      (s.fld l 0 1 = 1 → ∃ t, exec (.hostLoopWrite who port v) s = .next t ∧ t.fld l 0 1 = 0 ∧ t.fld l 1 4 = s.fld l 1 4 ∧
        t.linkUp b = false ∧ t.mem = s.mem)) ∧
    (s.mayWrite who a = false → exec (.fdBridgeLoopWrite who die e v) s = .next s) ∧
    (s.mayWrite who a = true →
      (on → s.bridgeUsed die.val e.val = false → depth = 1 ∨ depth = 2 →
        ∃ t, exec (.fdBridgeLoopWrite who die e v) s = .next t ∧
          t = { s with ctl := t.ctl, loopHops := t.loopHops, patterns := t.patterns } ∧
          t.fld a 8 8 = 0x00 ∧ t.fld a 0 1 = 1 ∧ t.fld a 1 4 = getF v 1 4 ∧
          t.loopHops = if s.fld a 0 1 = 0 then s.loopHops ++ hops else s.loopHops) ∧
      (on → s.bridgeUsed die.val e.val = true ∨ depth ≠ 1 ∧ depth ≠ 2 →
        ∃ t, exec (.fdBridgeLoopWrite who die e v) s = .next t ∧ t = { s with ctl := t.ctl } ∧ t.fld a 0 5 = s.fld a 0 5 ∧
          t.fld a 8 8 = if s.bridgeUsed die.val e.val then 0x05 else 0x04) ∧
      (¬ on → ∃ t, exec (.fdBridgeLoopWrite who die e v) s = .next t ∧ t.fld a 0 1 = 0 ∧
        t = { s with ctl := t.ctl, loopHops := t.loopHops, patterns := t.patterns } ∧
        t.fld a 1 4 = (if s.fld a 0 1 = 0 then getF v 1 4 else s.fld a 1 4) ∧
        t.loopHops = if s.fld a 0 1 = 0 then s.loopHops else hops.foldl List.erase s.loopHops)) ∧
    (s.mayWrite who y = false → exec (.glyProofStart who die g v) s = .next s) ∧
    (s.mayWrite who y = true →
      (on → s.proofBars die g = false →
        ∃ t, exec (.glyProofStart who die g v) s = .next t ∧ t.fld y 0 2 = 3 ∧ t.mem = s.mem ∧
          t.resets = s.resets.filter (fun r => !s.within r.unit u) ++ [⟨u, s.tick, false, true, 0⟩] ∧
          ∀ k, k < 4608 → s.covers u k = true → (t.core k).run = false) ∧
      (on → s.proofBars die g = true → ∃ t, exec (.glyProofStart who die g v) s = .next t ∧ t = { s with ctl := t.ctl } ∧
        t.fld y 8 8 = 0x05 ∧ t.fld y 0 2 = s.fld y 0 2) ∧
      (¬ on → exec (.glyProofStart who die g v) s = .next s)) ∧
    (s.powered = true →
      (ends →
        ∃ t, exec (.glyProofDone die g res) s = .next t ∧ t.resets = s.resets.filter (fun x => x.unit ≠ u) ∧ t.fld y 0 2 = 0 ∧
          (res.cores = [] → res.rows = [] → t.fld y 8 8 = 0x00 ∧ t.fenced = s.fenced ∧ t.nor = s.nor) ∧
          (∀ c ∈ res.cores, s.usable (die.val * 72 + g.val * 18 + c.val) = true →
            t.fld y 8 8 = 0x07 ∧ die.val * 72 + g.val * 18 + c.val ∈ t.fenced) ∧
          ∀ k space off, k < 4608 → space < 3 → off < 2 ^ 26 →
            t.byte (coreAddr k space off) = if s.covers u k then 0 else s.byte (coreAddr k space off)) ∧
      (¬ ends → exec (.glyProofDone die g res) s = .next s) ∧
      (s.fld t' 0 1 = 1 → s.traceDue die.val = true →
        ∃ t, exec (.traceStart die) s = .next t ∧ t = { s with dies := t.dies } ∧ (t.die die.val).traceOn = true ∧
          (t.die die.val).trace = (s.die die.val).trace) ∧
      (s.fld t' 0 1 = 0 ∨ s.traceDue die.val = false → exec (.traceStart die) s = .next s)) ∧
    (s.mayManage who t' = true →
      ∃ t, exec (.fdTraceCtlWrite who die v) s = .next t ∧ t = { s with ctl := t.ctl, dies := t.dies } ∧ t.fld t' 0 7 = getF v 0 7 ∧
        t.fld t' 32 32 = getF v 32 32 ∧ t.fld t' 8 24 = s.fld t' 8 24 ∧ (t.die die.val).trace = (s.die die.val).trace ∧
        (t.die die.val).traceOn = if on then (s.die die.val).traceOn || (s.fld t' 0 1 = 0 && getF v 32 32 = 0) else false) ∧
    (s.mayManage who t' = false → exec (.fdTraceCtlWrite who die v) s = .next s)) ∧
  (∀ (lands : List Bool) (s : State),
    let early := s.fld aBoot 0 3 < 4
    let j := fun (i : Instr) (w : Jtag) (o : List Out) => exec i s = .next { s with jtag := w, out := s.out ++ o }
    (s.powered = false → ∀ i ∈ [Instr.bypass, .idcode, .samplePreload lands, .extest, .clamp, .highz], exec i s = .next s) ∧
    (s.powered = true →
    j .bypass { s.jtag with ir := 0 } [.jtag 0] ∧
    j .idcode { s.jtag with ir := 1 }
      [.jtag (1 + 2 * Config.jedecId.toNat + 4096 * 0x4A40 + 2 ^ 28 * (if s.fuses.stepping = 0xB0 then 2 else 1))] ∧
    j (.samplePreload lands) { ir := 2, cells := lands, lands := s.jtag.lands } [] ∧
    (early → j .extest { s.jtag with ir := 3, lands := s.jtag.cells } [] ∧ j .clamp { s.jtag with ir := 4, lands := s.jtag.cells } [] ∧
      j .highz { s.jtag with ir := 5, lands := [] } []) ∧
    (¬ early → j .extest { s.jtag with ir := 0 } [] ∧ j .clamp { s.jtag with ir := 0 } [] ∧ j .highz { s.jtag with ir := 0 } [])))

/-- R465: while the Q0 colophon is primary and answers, the I3C target takes events, limits and its reset action, and one dynamic address,
given where it has none; reads of its identity and limits are answered at that address, and at no other. The MCTP endpoint takes an
endpoint ID, tells it, and lists its message types; identifiers 0 and 0xFF and other types are refused. Where the Q0 colophon does not
serve, or the endpoint cannot be reached, nothing happens. The completion codes are the model's (log 47).
R465, R466, R474: a PLDM request that is answered tells or sets what it names: the terminus, types 0, 2, 3 and 5, the sensors and
the two effecters (which act as writes of the limit and of the host ceiling), the event receiver, the calendar, the firmware versions;
a type, sensor or effecter that there is not, and a value that the write refuses, get their code and change nothing else but the status
of that register. Where the request is not answered nothing happens. Completion codes and formats are the model's (log 47, 48). -/
def Obligations.ManagementBus : Prop :=
  (∀ (events action ibi typ eid : BitVec 8) (addr old : BitVec 7) (len : BitVec 16) (via : MgmtVia) (s : State),
    let m := s.mgmt
    let sets := fun (i : Instr) (m' : Mgmt) => exec i s = .next { s with mgmt := m' }
    let answers := fun (i : Instr) (o : Out) => exec i s = .next { s with out := s.out ++ [o] }
    let opens := fun (i : Instr) (name : String) => ∃ bs t, exec i s = .next t ∧
      t = { s with free := t.free, out := s.out ++ [.mgmt 0 .i3c name 0 [] bs] }
    let i3c := [Instr.enec events, .disec events, .rstdaa, .setmwl len, .setmrl len ibi, .rstact action, .entdaa addr, .setdasa old addr,
      .setnewda old addr]
    let reads := fun (a : BitVec 7) => [Instr.getmwl a, .getmrl a, .getpid a, .getbcr a, .getdcr a, .getstatus a]
    let mctp := [Instr.setEndpointId via eid, .getEndpointId via, .getEndpointUuid via, .getMctpVersionSupport via typ,
      .getMessageTypeSupport via]
    (s.i3cUp = false → ∀ i ∈ i3c ++ reads addr, exec i s = .next s) ∧
    (s.i3cUp = true →
      sets (.enec events) { m with events := m.events ||| events } ∧ sets (.disec events) { m with events := m.events &&& ~~~events } ∧
      sets .rstdaa { m with dynAddr := none } ∧ sets (.setmwl len) { m with mwl := len } ∧
      sets (.setmrl len ibi) { m with mrl := len, ibi := ibi } ∧ sets (.rstact action) { m with rstAction := action } ∧
      (m.dynAddr = none → sets (.entdaa addr) { m with dynAddr := some addr } ∧
        sets (.setdasa m.staticAddr addr) { m with dynAddr := some addr } ∧
        (old ≠ m.staticAddr → exec (.setdasa old addr) s = .next s) ∧
        exec (.setnewda old addr) s = .next s ∧ ∀ i ∈ reads addr, exec i s = .next s) ∧
      (m.dynAddr = some old → exec (.entdaa addr) s = .next s ∧ exec (.setdasa m.staticAddr addr) s = .next s ∧ sets (.setnewda old addr) { m with dynAddr := some addr } ∧
        (addr ≠ old → exec (.setnewda addr old) s = .next s ∧ ∀ i ∈ reads addr, exec i s = .next s) ∧
        answers (.getmwl old) (.mgmt 0 .i3c "GETMWL" 0 [m.mwl.toNat] []) ∧
        answers (.getmrl old) (.mgmt 0 .i3c "GETMRL" 0 [m.mrl.toNat, m.ibi.toNat] []) ∧
        opens (.getpid old) "GETPID" ∧ opens (.getbcr old) "GETBCR" ∧ opens (.getdcr old) "GETDCR" ∧
        opens (.getstatus old) "GETSTATUS")) ∧
    (s.answers via = false → ∀ i ∈ mctp, exec i s = .next s) ∧
    (s.answers via = true →
      (eid = 0 ∨ eid = 0xFF → answers (.setEndpointId via eid) (.mgmt 1 via "Set Endpoint ID" 2 [] [])) ∧
      (typ.toNat ∉ [0xFF, 0, 1, 5, 6] →
        answers (.getMctpVersionSupport via typ) (.mgmt 1 via "Get MCTP Version Support" 0x80 [] [])) ∧
      (eid ≠ 0 → eid ≠ 0xFF → exec (.setEndpointId via eid) s =
        .next { s with mgmt := { m with eid := eid }, out := s.out ++ [.mgmt 1 via "Set Endpoint ID" 0 [eid.toNat] []] }) ∧
      answers (.getEndpointId via) (.mgmt 1 via "Get Endpoint ID" 0 [m.eid.toNat] []) ∧
      answers (.getMessageTypeSupport via) (.mgmt 1 via "Get Message Type Support" 0 [0, 1, 5, 6] []) ∧
      (∃ bs t, exec (.getEndpointUuid via) s = .next t ∧
        t = { s with free := t.free, out := s.out ++ [.mgmt 1 via "Get Endpoint UUID" 0 [] bs] }) ∧
      (typ.toNat ∈ [0xFF, 0, 1, 5, 6] → ∃ bs t, exec (.getMctpVersionSupport via typ) s = .next t ∧
        t = { s with free := t.free, out := s.out ++ [.mgmt 1 via "Get MCTP Version Support" 0 [] bs] }))) ∧
  (∀ (via : MgmtVia) (tid typ eid : BitVec 8) (sensor effecter : BitVec 16) (record value : BitVec 32) (enable : Bool) (seconds : Word) (s : State),
    let m := s.mgmt
    let says' := fun (name : String) (fields : List Nat) => s.out ++ [Out.mgmt 2 via name 0 fields []]
    let answers := fun (i : Instr) (name : String) (fields : List Nat) => exec i s = .next { s with out := says' name fields }
    let opens := fun (i : Instr) (name : String) (fields : List Nat) => ∃ bs t, exec i s = .next t ∧
      t = { s with free := t.free, out := s.out ++ [.mgmt 2 via name 0 fields bs] }
    let other := fun (name : String) (code : Nat) => s.out ++ [Out.mgmt 2 via name code [] []]
    let refuses := fun (i : Instr) (name : String) (code : Nat) => exec i s = .next { s with out := other name code }
    let all := [Instr.getTid via, .setTid via tid, .getPldmVersion via typ, .getPldmCommands via typ, .getPldmTypes via,
      .getPdrRepositoryInfo via, .getPdr via record, .getSensorReading via sensor, .getNumericEffecterValue via effecter,
      .setNumericEffecterValue via effecter value, .setEventReceiver via enable eid, .getDateTime via, .setDateTime via seconds,
      .queryDeviceIdentifiers via, .getFirmwareParameters via, .getStatus via]
    (s.answers via = false → ∀ i ∈ all, exec i s = .next s) ∧ (s.answers via = true →
    (tid = 0 ∨ tid = 0xFF → refuses (.setTid via tid) "SetTID" 2) ∧
    (typ.toNat ∉ [0, 2, 3, 5] → refuses (.getPldmVersion via typ) "GetPLDMVersion" 0x83 ∧
      refuses (.getPldmCommands via typ) "GetPLDMCommands" 0x83) ∧
    (71 ≤ sensor.toNat → refuses (.getSensorReading via sensor) "GetSensorReading" 0x80) ∧
    (2 ≤ effecter.toNat → refuses (.getNumericEffecterValue via effecter) "GetNumericEffecterValue" 0x80 ∧
      refuses (.setNumericEffecterValue via effecter value) "SetNumericEffecterValue" 0x80) ∧
    (value.toNat < 60 ∨ 120 < value.toNat → ∃ t, exec (.setNumericEffecterValue via 0 value) s = .next t ∧
      t = { s with ctl := t.ctl, out := other "SetNumericEffecterValue" 2 } ∧ (∀ a, a ≠ aMgt 0x10 → t.rd a = s.rd a) ∧
      t.fld (aMgt 0x10) 0 7 = s.fld (aMgt 0x10) 0 7) ∧
    (s.rateReqCode value.toNat 0 ≠ 0 → ∃ t, exec (.setNumericEffecterValue via 1 value) s = .next t ∧
      t = { s with ctl := t.ctl, out := other "SetNumericEffecterValue" 2 } ∧ (∀ a, a ≠ aMgt 0x20 → t.rd a = s.rd a) ∧
      t.hostCeil = s.hostCeil) ∧
    answers (.getTid via) "GetTID" [m.tid.toNat] ∧
    (tid ≠ 0 → tid ≠ 0xFF → exec (.setTid via tid) s = .next { s with mgmt := { m with tid := tid }, out := says' "SetTID" [] }) ∧
    (typ.toNat ∈ [0, 2, 3, 5] → opens (.getPldmVersion via typ) "GetPLDMVersion" [] ∧ opens (.getPldmCommands via typ) "GetPLDMCommands" []) ∧
    answers (.getPldmTypes via) "GetPLDMTypes" [0, 2, 3, 5] ∧
    opens (.getPdrRepositoryInfo via) "GetPDRRepositoryInfo" [] ∧
    (∃ code bs t, exec (.getPdr via record) s = .next t ∧
      t = { s with free := t.free, out := s.out ++ [.mgmt 2 via "GetPDR" code [record.toNat] bs] }) ∧
    (sensor.toNat < 68 → answers (.getSensorReading via sensor) "GetSensorReading" [s.fld (aMgt (0x100 + 8 * sensor.toNat)) 0 12]) ∧
    answers (.getSensorReading via 68) "GetSensorReading" [s.thermal.power] ∧
    answers (.getSensorReading via 69) "GetSensorReading" [s.thermal.vin] ∧
    answers (.getSensorReading via 70) "GetSensorReading" [(s.rd (aMgt 0x58)).toNat] ∧
    answers (.getNumericEffecterValue via 0) "GetNumericEffecterValue" [s.fld (aMgt 0x10) 0 7] ∧
    answers (.getNumericEffecterValue via 1) "GetNumericEffecterValue" [s.hostCeil] ∧
    (60 ≤ value.toNat → value.toNat ≤ 120 → ∃ t, exec (.setNumericEffecterValue via 0 value) s = .next t ∧
      t = { s with ctl := t.ctl, out := says' "SetNumericEffecterValue" [] } ∧ t.fld (aMgt 0x10) 0 7 = value.toNat) ∧
    (s.rateReqCode value.toNat 0 = 0 → ∃ t, exec (.setNumericEffecterValue via 1 value) s = .next t ∧
      t = { s with ctl := t.ctl, rateArm := t.rateArm, thermal := t.thermal, out := says' "SetNumericEffecterValue" [] } ∧
      t.hostCeil = value.toNat ∧ t.rate = s.rate) ∧
    exec (.setEventReceiver via enable eid) s =
      .next { s with mgmt := { m with receiver := if enable then some eid else none }, out := says' "SetEventReceiver" [] } ∧
    answers (.getDateTime via) "GetDateTime" [(s.rd (aMgt 0x30)).toNat] ∧
    (∃ t, exec (.setDateTime via seconds) s = .next t ∧ t = { s with ctl := t.ctl, calDue := s.tick + 250000000, out := says' "SetDateTime" [] } ∧
      t.rd (aMgt 0x30) = seconds ∧ t.fld (aMgt 0) 2 1 = 1) ∧
    opens (.queryDeviceIdentifiers via) "QueryDeviceIdentifiers" [] ∧
    opens (.getFirmwareParameters via) "GetFirmwareParameters" [s.fld (aFw 0x10) 0 32, s.fld (aFw 0x10) 32 32] ∧
    answers (.getStatus via) "GetStatus" [m.update]))

/-- R430, R466: a PLDM firmware update goes on from RequestUpdate, while no other update is under way, through the component, the bytes
of its image, and the signature check that commits it, to ApplyComplete once NOR holds it and the activation of the colophons; it may
be cancelled at any stage (what NOR is being written stays); a request outside its stage changes nothing but its answer, and one that
is not answered changes nothing. Bytes beyond the announced size are not taken. Completion codes are the model's (log 47).
R467 to R471: an SPDM connection runs through its version, capabilities and algorithms; what it agreed decides whether digests,
certificate, challenge, measurements and sessions are answered, and answers that carry a signature are read in chunks; a session that
FINISH establishes carries the requests within it; a request without its session, out of its stage, for an empty slot or a block that
there is not is an error that changes nothing else. The parts of a large request come in their order, up to 64 KiB. Error codes are the
model's (log 47). -/
def Obligations.UpdatesAndSpdm : Prop :=
  (∀ (via : MgmtVia) (component : BitVec 16) (size : BitVec 32) (bytes : List Byte) (s : State),
    let m := s.mgmt
    let a := aFw 0
    let all := m.updBytes ++ bytes
    let says' := fun (name : String) (code : Nat) (fields : List Nat) => s.out ++ [Out.mgmt 2 via name code fields []]
    let goes := fun (i : Instr) (m' : Mgmt) (o : List Out) => exec i s = .next { s with mgmt := m', out := o }
    let refuses := fun (i : Instr) (name : String) (stages : List Nat) => m.update ∉ stages →
      exec i s = .next { s with out := says' name (if m.update = 0 then 0x80 else 0x84) [] }
    let every := [Instr.requestUpdate via, .passComponentTable via component, .updateComponent via component size,
      .requestFirmwareData via bytes, .transferComplete via, .verifyComplete via, .applyComplete via, .activateFirmware via,
      .cancelUpdateComponent via, .cancelUpdate via]
    (s.answers via = false → ∀ i ∈ every, exec i s = .next s) ∧ (s.answers via = true →
    (m.update = 0 → s.fld a 32 1 = 0 → s.fld a 33 2 ≠ 1 →
      goes (.requestUpdate via) { m with update := 1, updSize := 0, updBytes := [] } (says' "RequestUpdate" 0 [])) ∧
    (m.update = 0 → s.fld a 32 1 = 1 ∨ s.fld a 33 2 = 1 →
      exec (.requestUpdate via) s = .next { s with out := says' "RequestUpdate" 4 [] }) ∧
    (m.update ≠ 0 → exec (.requestUpdate via) s = .next { s with out := says' "RequestUpdate" 0x81 [] }) ∧
    (m.update = 1 → goes (.passComponentTable via component) { m with update := 2 } (says' "PassComponentTable" 0 [component.toNat])) ∧
    (m.update = 2 → goes (.updateComponent via component size) { m with update := 3, updSize := size.toNat, updBytes := [] }
      (says' "UpdateComponent" 0 [component.toNat] ++ [.mgmt 2 via "RequestFirmwareData" 0 [0, size.toNat] []])) ∧
    (m.update = 3 →
      (all.length ≤ m.updSize → goes (.requestFirmwareData via bytes) { m with updBytes := all }
        (if all.length < m.updSize then says' "RequestFirmwareData" 0 [all.length, m.updSize - all.length] else s.out)) ∧
      (m.updSize < all.length → exec (.requestFirmwareData via bytes) s = .next s) ∧
      (m.updBytes.length = m.updSize → exec (.transferComplete via) s =
        .next { s with fwStaged := some m.updBytes, mgmt := { m with update := 4 }, out := says' "TransferComplete" 0 [] }) ∧
      (m.updBytes.length ≠ m.updSize → exec (.transferComplete via) s = .next s) ∧
      goes (.cancelUpdateComponent via) { m with update := 2, updSize := 0, updBytes := [] } (says' "CancelUpdateComponent" 0 [])) ∧
    (m.update ∈ [1, 2, 3, 5, 6] →
      goes (.cancelUpdate via) { m with update := 0, updSize := 0, updBytes := [] } (says' "CancelUpdate" 0 [])) ∧
    (m.update = 4 →
      exec (.cancelUpdate via) s = .next { s with fwStaged := none, mgmt := { m with update := 0, updSize := 0, updBytes := [] },
                                                  out := says' "CancelUpdate" 0 [] } ∧
      exec (.cancelUpdateComponent via) s =
        .next { s with fwStaged := none, mgmt := { m with update := 2, updSize := 0, updBytes := [] },
                       out := says' "CancelUpdateComponent" 0 [] }) ∧
    (m.update = 4 → ∃ t, exec (.verifyComplete via) s = .next t ∧
      if s.fwSigned m.updBytes = true then
        t = { s with ctl := t.ctl, fwTries := 1, nor := { s.nor with firmware := m.updBytes, firmwareGood := false },
                     norBusy := s.norBusy ++ [.firmware], mgmt := { m with update := 5 }, out := says' "VerifyComplete" 0 [] } ∧
          t.fld a 32 1 = 1 ∧ t.fld a 33 2 = 1 ∧ t.fld a 24 8 = 0x00
      else t = { s with ctl := t.ctl, fwStaged := none, mgmt := { m with update := 2 }, out := says' "VerifyComplete" 1 [] } ∧
        t.fld a 24 8 = 0x0B) ∧
    (m.update = 5 →
      (s.fld a 32 1 = 1 → exec (.applyComplete via) s = .next s) ∧
      (s.fld a 32 1 = 0 → s.fld a 34 1 = 1 → goes (.applyComplete via) { m with update := 6 } (says' "ApplyComplete" 0 [])) ∧
      (s.fld a 32 1 = 0 → s.fld a 34 1 = 0 → goes (.applyComplete via) { m with update := 2 } (says' "ApplyComplete" 1 []))) ∧
    (m.update = 6 → s.fld a 34 1 = 1 → ∃ t, exec (.activateFirmware via) s = .next t ∧ t.fld a 32 1 = 1 ∧
      t = { s with ctl := t.ctl, fwRestarting := some (1, s.tick), mgmt := { m with update := 0 }, out := says' "ActivateFirmware" 0 [] }) ∧
    (m.update = 6 → s.fld a 34 1 = 0 → ∃ t, exec (.activateFirmware via) s = .next t ∧ t.fld a 24 8 = 0x05 ∧
      t = { s with ctl := t.ctl, mgmt := { m with update := 0 }, out := says' "ActivateFirmware" 0 [] }) ∧
    refuses (.passComponentTable via component) "PassComponentTable" [1] ∧
    refuses (.updateComponent via component size) "UpdateComponent" [2] ∧
    refuses (.requestFirmwareData via bytes) "RequestFirmwareData" [3] ∧ refuses (.transferComplete via) "TransferComplete" [3] ∧
    refuses (.verifyComplete via) "VerifyComplete" [4] ∧ refuses (.applyComplete via) "ApplyComplete" [5] ∧
    refuses (.activateFirmware via) "ActivateFirmware" [6] ∧ refuses (.cancelUpdateComponent via) "CancelUpdateComponent" [3, 4] ∧
    refuses (.cancelUpdate via) "CancelUpdate" [1, 2, 3, 4, 5, 6])) ∧
  (∀ (via : MgmtVia) (sig kem hash aead raw sign last : Bool) (slot : BitVec 4) (offset length seq : BitVec 16) (nonce bytes : List Byte)
    (index op handle : BitVec 8) (id : BitVec 32) (s : State),
    let x := s.spdmOf via
    let chain := s.nor.chainOk = true ∧ slot = 0
    let kept := fun (t : State) => t = { s with spdm := t.spdm, free := t.free, out := t.out } ∧
      ∀ w, viaKey w ≠ viaKey via → t.spdmOf w = s.spdmOf w
    let answers := fun (i : Instr) (x' : Spdm) (name : String) (code : Nat) (fields : List Nat) => ∃ t, exec i s = .next t ∧ kept t ∧
      t.spdmOf via = x' ∧ t.out = s.out ++ [.mgmt 3 via name code fields []]
    let errs := fun (i : Instr) (code : Nat) => exec i s = .next { s with out := s.out ++ [.mgmt 3 via "ERROR" code [] []] }
    let opens := fun (i : Instr) (x' : Spdm) (name : String) (fields : List Nat) => ∃ bs t, exec i s = .next t ∧ kept t ∧
      t.spdmOf via = x' ∧ t.out = s.out ++ [.mgmt 3 via name 0 fields bs]
    let large := fun (i : Instr) (x' : Spdm) (fields : List Nat) => ∃ bs t, exec i s = .next t ∧ kept t ∧
      t.spdmOf via = { x' with chunkOut := bs, outHandle := (x.outHandle + 1) % 256, outSeq := 0 } ∧
      t.out = s.out ++ [.mgmt 3 via "ERROR" 0x0F (((x.outHandle + 1) % 256) :: fields) []]
    let within := [Instr.heartbeat via id, .keyUpdate via id op, .endSession via id, .vendorDefinedRequest via id bytes]
    let every := within ++ [Instr.getVersion via, .getCapabilities via, .negotiateAlgorithms via sig kem hash aead, .getDigests via,
      .getCertificate via slot offset length, .challenge via slot nonce, .getMeasurements via index raw sign nonce,
      .keyExchange via slot bytes, .finish via id bytes, .chunkSend via handle seq last bytes, .chunkGet via handle seq]
    (s.answers via = false → ∀ i ∈ every, exec i s = .next s) ∧ (s.answers via = true →
    answers (.getVersion via) { x with stage := 1, chunkIn := [], inSeq := 0, chunkOut := [] } "VERSION" 0 [0x12, 0x13] ∧
    (if x.stage = 1 then answers (.getCapabilities via) { x with stage := 2 } "CAPABILITIES" 0 [4096, 65536]
      else errs (.getCapabilities via) 4) ∧
    (if x.stage = 2 then answers (.negotiateAlgorithms via sig kem hash aead)
      { x with stage := if sig && hash then (if kem && aead then 3 else 5) else 4 } "ALGORITHMS" 0 [1, 2]
      else errs (.negotiateAlgorithms via sig kem hash aead) 4) ∧
    (x.stage ∉ [3, 4, 5] → errs (.getDigests via) 4 ∧ errs (.getCertificate via slot offset length) 4 ∧
      errs (.getMeasurements via index raw sign nonce) 4) ∧
    (x.stage ∈ [3, 4, 5] → opens (.getDigests via) x "DIGESTS" [1] ∧
      (chain → opens (.getCertificate via slot offset length) x "CERTIFICATE" [0, offset.toNat, length.toNat]) ∧
      (index = 0 → answers (.getMeasurements via index raw false nonce) x "MEASUREMENTS" 0 [71]) ∧
      (index = 0xFF → opens (.getMeasurements via index raw false nonce) x "MEASUREMENTS" [0xFF]) ∧
      (blockExists index.toNat = true → ∃ bs t, exec (.getMeasurements via index raw false nonce) s = .next t ∧ kept t ∧
        t.spdmOf via = x ∧ t.out = s.out ++ [.mgmt 3 via "MEASUREMENTS" 0 [index.toNat] bs] ∧
        ∀ v, s.blockBytes index.toNat = some v → bs = if raw then v else sha3_384 v) ∧
      (index ≠ 0 → index ≠ 0xFF → blockExists index.toNat = false → errs (.getMeasurements via index raw false nonce) 1) ∧
      (slot ≠ 0 → errs (.getCertificate via slot offset length) 1) ∧
      (s.nor.chainOk = false → errs (.getCertificate via 0 offset length) 5)) ∧
    (x.stage = 3 ∨ x.stage = 5 →
      (chain → large (.challenge via slot nonce) x [slot.toNat]) ∧
      (s.nor.chainOk = true → (blockExists index.toNat = true ∨ index = 0 ∨ index = 0xFF →
          large (.getMeasurements via index raw true nonce) x [index.toNat]) ∧
        (index ≠ 0 → index ≠ 0xFF → blockExists index.toNat = false → errs (.getMeasurements via index raw true nonce) 1)) ∧
      (slot ≠ 0 → errs (.challenge via slot nonce) 1) ∧
      (s.nor.chainOk = false → errs (.challenge via 0 nonce) 5 ∧ errs (.getMeasurements via index raw true nonce) 5)) ∧
    (x.stage ≠ 3 → x.stage ≠ 5 → errs (.challenge via slot nonce) 4 ∧ errs (.getMeasurements via index raw true nonce) 4) ∧
    (x.stage ≠ 3 → errs (.keyExchange via slot bytes) 4) ∧
    (x.stage = 3 →
      (slot ≠ 0 → errs (.keyExchange via slot bytes) 1) ∧ (s.nor.chainOk = false → errs (.keyExchange via 0 bytes) 5) ∧
      (chain → x.sessions.length < 4 → large (.keyExchange via slot bytes)
        { x with sessions := x.sessions ++ [⟨BitVec.ofNat 32 x.nextSession, false⟩], nextSession := x.nextSession + 1 }
        [x.nextSession]) ∧
      (chain → 4 ≤ x.sessions.length → errs (.keyExchange via slot bytes) 0x0A)) ∧
    (x.session id = some ⟨id, false⟩ → (∃ t, exec (.finish via id bytes) s = .next t ∧ kept t ∧
        ((t.spdmOf via).session id = some ⟨id, true⟩ ∧ t.out = s.out ++ [.mgmt 3 via "FINISH_RSP" 0 [] []] ∨
         (t.spdmOf via).session id = none ∧ t.out = s.out ++ [.mgmt 3 via "ERROR" 6 [] []])) ∧
      ∀ i ∈ within, errs i 0x0B) ∧
    (x.session id = some ⟨id, true⟩ → errs (.finish via id bytes) 4 ∧ answers (.heartbeat via id) x "HEARTBEAT_ACK" 0 [] ∧
      (1 ≤ op.toNat → op.toNat ≤ 3 → answers (.keyUpdate via id op) x "KEY_UPDATE_ACK" 0 [op.toNat]) ∧
      (op = 0 ∨ 3 < op.toNat → errs (.keyUpdate via id op) 1) ∧
      answers (.endSession via id) { x with sessions := x.sessions.filter fun z => z.id ≠ id } "END_SESSION_ACK" 0 [] ∧
      opens (.vendorDefinedRequest via id bytes) x "VENDOR_DEFINED_RESPONSE" []) ∧
    (x.session id = none → errs (.finish via id bytes) 0x0B ∧ ∀ i ∈ within, errs i 0x0B) ∧
    (bytes.length ≤ 65536 → answers (.chunkSend via handle 0 false bytes)
        { x with chunkIn := bytes, inHandle := handle.toNat, inSeq := 1 } "CHUNK_SEND_ACK" 0 [handle.toNat, 0] ∧
      opens (.chunkSend via handle 0 true bytes) { x with chunkIn := [], inSeq := 0 } "CHUNK_SEND_ACK" [handle.toNat, 0]) ∧
    (65536 < bytes.length → answers (.chunkSend via handle 0 last bytes) { x with chunkIn := [], inSeq := 0 } "ERROR" 0x0E []) ∧
    (seq ≠ 0 → seq.toNat = x.inSeq → handle.toNat = x.inHandle →
      if x.chunkIn.length + bytes.length ≤ 65536 then
        opens (.chunkSend via handle seq true bytes) { x with chunkIn := [], inSeq := 0 } "CHUNK_SEND_ACK" [handle.toNat, seq.toNat] ∧
        answers (.chunkSend via handle seq false bytes)
          { x with chunkIn := x.chunkIn ++ bytes, inHandle := handle.toNat, inSeq := seq.toNat + 1 } "CHUNK_SEND_ACK" 0
          [handle.toNat, seq.toNat]
      else answers (.chunkSend via handle seq last bytes) { x with chunkIn := [], inSeq := 0 } "ERROR" 0x0E []) ∧
    (seq ≠ 0 → seq.toNat ≠ x.inSeq ∨ handle.toNat ≠ x.inHandle →
      answers (.chunkSend via handle seq last bytes) { x with chunkIn := [], inSeq := 0 } "ERROR" 1 []) ∧
    (handle.toNat = x.outHandle → seq.toNat = x.outSeq → ∃ t, exec (.chunkGet via handle seq) s = .next t ∧ kept t ∧
      t.spdmOf via = { x with chunkOut := x.chunkOut.drop 4096, outSeq := x.outSeq + 1 } ∧
      t.out = s.out ++ [.mgmt 3 via "CHUNK_RESPONSE" 0 [handle.toNat, seq.toNat, if x.chunkOut.length ≤ 4096 then 1 else 0]
        (x.chunkOut.take 4096)]) ∧
    (handle.toNat ≠ x.outHandle ∨ seq.toNat ≠ x.outSeq → errs (.chunkGet via handle seq) 1)))
end

