-- ==== Sys2Proof/Laws/Tbl.lean ====
section
/-! SUPPORT. The laws of the sparse table: reading after writing, and the canonical form, which every table operation keeps. -/

namespace Sys2Proof

variable {α : Type}

@[simp] theorem Tbl.get_nil (d : α) (j : Nat) : Tbl.get d [] j = d := rfl

theorem Tbl.get_erase (d : α) (t : Tbl α) (k j : Nat) :
    Tbl.get d (Tbl.erase t k) j = if j = k then d else Tbl.get d t j := by
  induction t with
  | nil => simp [Tbl.erase]
  | cons e t ih =>
    obtain ⟨i, v⟩ := e
    simp only [Tbl.erase] at ih ⊢
    by_cases h : i = k
    · subst h
      simp only [bne_self_eq_false, Bool.false_eq_true, not_false_eq_true, List.filter_cons_of_neg, ih, Tbl.get]
      grind
    · simp [h, Tbl.get, ih]; grind

theorem Tbl.get_insert (d : α) (t : Tbl α) (k : Nat) (v : α) (j : Nat) (h : ∀ e ∈ t, e.1 ≠ k) :
    Tbl.get d (Tbl.insert t k v) j = if j = k then v else Tbl.get d t j := by
  induction t with
  | nil => simp only [Tbl.insert, Tbl.get]; grind
  | cons e t ih =>
    obtain ⟨i, w⟩ := e
    have hi := h (i, w) (by simp)
    have ih := ih fun e he => h e (by simp [he])
    simp only [Tbl.insert]
    split <;> simp only [Tbl.get, ih] <;> grind

/-- A table reads as written at the key, and as before elsewhere; no premise on its form. -/
theorem Tbl.get_set [DecidableEq α] (d : α) (t : Tbl α) (k : Nat) (v : α) (j : Nat) :
    Tbl.get d (Tbl.set d t k v) j = if j = k then v else Tbl.get d t j := by
  unfold Tbl.set
  split
  · next h => subst h; exact Tbl.get_erase ..
  · rw [Tbl.get_insert _ _ _ _ _ (by simp [Tbl.erase]), Tbl.get_erase]; split <;> simp_all

@[simp] theorem Tbl.get_set_self [DecidableEq α] (d : α) (t : Tbl α) (k : Nat) (v : α) :
    Tbl.get d (Tbl.set d t k v) k = v := by simp [Tbl.get_set]

theorem Tbl.get_set_ne [DecidableEq α] (d : α) (t : Tbl α) {k j : Nat} (v : α) (h : j ≠ k) :
    Tbl.get d (Tbl.set d t k v) j = Tbl.get d t j := by simp [Tbl.get_set, h]

/-! ## The canonical form -/

variable [DecidableEq α]

theorem Tbl.wfFrom_mono {d : α} {lo lo' : Nat} {t : Tbl α} (h : lo ≤ lo') (w : Tbl.wfFrom d lo' t) : Tbl.wfFrom d lo t := by
  cases t with
  | nil => rfl
  | cons e t => simp only [Tbl.wfFrom, Bool.and_eq_true, decide_eq_true_eq] at w ⊢; exact ⟨⟨by omega, w.1.2⟩, w.2⟩

/-- Entries that `p` drops leave a canonical table canonical. -/
theorem Tbl.wfFrom_filter {d : α} (p : Nat × α → Bool) {lo : Nat} {t : Tbl α} (w : Tbl.wfFrom d lo t) :
    Tbl.wfFrom d lo (t.filter p) := by
  induction t generalizing lo with
  | nil => rfl
  | cons e t ih =>
    simp only [Tbl.wfFrom, Bool.and_eq_true, decide_eq_true_eq] at w
    by_cases h : p e
    · simp only [h, List.filter_cons_of_pos, Tbl.wfFrom, Bool.and_eq_true, decide_eq_true_eq]; exact ⟨w.1, ih w.2⟩
    · simp only [h, List.filter_cons_of_neg, Bool.false_eq_true, not_false_eq_true]
      exact Tbl.wfFrom_mono (by omega) (ih w.2)

theorem Tbl.wfFrom_insert {d : α} {lo k : Nat} {v : α} {t : Tbl α} (w : Tbl.wfFrom d lo t) (hk : lo ≤ k) (hv : v ≠ d)
    (h : ∀ e ∈ t, e.1 ≠ k) : Tbl.wfFrom d lo (Tbl.insert t k v) := by
  induction t generalizing lo with
  | nil => simp [Tbl.insert, Tbl.wfFrom, hk, hv]
  | cons e t ih =>
    obtain ⟨i, x⟩ := e
    have hi := h (i, x) (by simp)
    simp only [Tbl.wfFrom, Bool.and_eq_true, decide_eq_true_eq] at w
    simp only [Tbl.insert]
    split
    · next hlt =>
      simp only [Tbl.wfFrom, Bool.and_eq_true, decide_eq_true_eq]
      exact ⟨⟨hk, hv⟩, ⟨by omega, w.1.2⟩, w.2⟩
    · simp only [Tbl.wfFrom, Bool.and_eq_true, decide_eq_true_eq]
      simp only at hi
      exact ⟨w.1, ih w.2 (by omega) fun e he => h e (by simp [he])⟩

/-- Setting a key keeps the canonical form. -/
theorem Tbl.wf_set {d : α} {t : Tbl α} (k : Nat) (v : α) (w : Tbl.wf d t) : Tbl.wf d (Tbl.set d t k v) := by
  unfold Tbl.set Tbl.wf at *
  split
  · exact Tbl.wfFrom_filter _ w
  · next h => exact Tbl.wfFrom_insert (Tbl.wfFrom_filter _ w) (by omega) h (by simp [Tbl.erase])

/-- Dropping entries keeps the canonical form. -/
theorem Tbl.wf_filter {d : α} {t : Tbl α} (p : Nat × α → Bool) (w : Tbl.wf d t) : Tbl.wf d (t.filter p) :=
  Tbl.wfFrom_filter p w

theorem Tbl.wf_clear {d : α} {t : Tbl α} (p : Nat → Bool) (w : Tbl.wf d t) : Tbl.wf d (Tbl.clear p t) :=
  Tbl.wfFrom_filter _ w

/-! ## Byte memories -/

namespace Machine

/-- Every memory operation is a run of table writes: `writeMem` keeps the canonical form. -/
theorem writeMem_wf {m : List Host.Cell} (a : Nat) (bs : List Byte) (w : Memory.wf m) : Memory.wf (writeMem m a bs) := by
  induction bs generalizing m a with
  | nil => exact w
  | cons b bs ih => exact ih _ (Tbl.wf_set a b w)

theorem filter_wf {m : List Host.Cell} (p : Host.Cell → Bool) (w : Memory.wf m) : Memory.wf (m.filter p) :=
  Tbl.wfFrom_filter p w

/-- A byte outside the written range reads as before. -/
theorem get_writeMem_out (m : List Host.Cell) (a x : Nat) (bs : List Byte) (h : x < a ∨ a + bs.length ≤ x) :
    Tbl.get 0 (writeMem m a bs) x = Tbl.get 0 m x := by
  induction bs generalizing m a with
  | nil => rfl
  | cons b bs ih =>
    simp only [List.length_cons] at h
    rw [writeMem, ih _ _ (by omega), Tbl.get_set_ne _ _ _ (by omega)]

/-- A byte inside the written range reads as written. -/
theorem get_writeMem_in (m : List Host.Cell) (a i : Nat) (bs : List Byte) (h : i < bs.length) :
    Tbl.get 0 (writeMem m a bs) (a + i) = bs[i] := by
  induction bs generalizing m a i with
  | nil => simp at h
  | cons b bs ih =>
    cases i with
    | zero => rw [writeMem, get_writeMem_out _ _ _ _ (by omega)]; simp
    | succ i =>
      have := ih (Tbl.set 0 m a b) (a + 1) i (by simpa using h)
      rw [writeMem, show a + (i + 1) = a + 1 + i by omega, this]; simp

end Machine

end Sys2Proof
end

