-- ==== Sys2Proof/Laws/State.lean ====
section
/-! SUPPORT. Reading a state after one of its updates: one lemma per field and update. -/

namespace Sys2Proof.Machine

@[simp] theorem State.wr_pending (s : State) (a : Nat) (v : Word) : (s.wr a v).pending = s.pending := rfl
@[simp] theorem State.wr_powered (s : State) (a : Nat) (v : Word) : (s.wr a v).powered = s.powered := rfl
@[simp] theorem State.wr_free (s : State) (a : Nat) (v : Word) : (s.wr a v).free = s.free := rfl
@[simp] theorem State.wr_tick (s : State) (a : Nat) (v : Word) : (s.wr a v).tick = s.tick := rfl
@[simp] theorem State.wr_frac (s : State) (a : Nat) (v : Word) : (s.wr a v).frac = s.frac := rfl
@[simp] theorem State.wr_mem (s : State) (a : Nat) (v : Word) : (s.wr a v).mem = s.mem := rfl
@[simp] theorem State.wr_tiles (s : State) (a : Nat) (v : Word) : (s.wr a v).tiles = s.tiles := rfl
@[simp] theorem State.wr_poison (s : State) (a : Nat) (v : Word) : (s.wr a v).poison = s.poison := rfl
@[simp] theorem State.wr_cores (s : State) (a : Nat) (v : Word) : (s.wr a v).cores = s.cores := rfl
@[simp] theorem State.wr_lineQ (s : State) (a : Nat) (v : Word) : (s.wr a v).lineQ = s.lineQ := rfl
@[simp] theorem State.wr_fuses (s : State) (a : Nat) (v : Word) : (s.wr a v).fuses = s.fuses := rfl
@[simp] theorem State.wr_position (s : State) (a : Nat) (v : Word) : (s.wr a v).position = s.position := rfl
@[simp] theorem State.wr_fenced (s : State) (a : Nat) (v : Word) : (s.wr a v).fenced = s.fenced := rfl
@[simp] theorem State.wr_net (s : State) (a : Nat) (v : Word) : (s.wr a v).net = s.net := rfl
@[simp] theorem State.wr_creditNet (s : State) (a : Nat) (v : Word) : (s.wr a v).creditNet = s.creditNet := rfl
@[simp] theorem State.wr_slots (s : State) (a : Nat) (v : Word) : (s.wr a v).slots = s.slots := rfl
@[simp] theorem State.wr_probes (s : State) (a : Nat) (v : Word) : (s.wr a v).probes = s.probes := rfl
@[simp] theorem State.wr_badHops (s : State) (a : Nat) (v : Word) : (s.wr a v).badHops = s.badHops := rfl
@[simp] theorem State.wr_loopHops (s : State) (a : Nat) (v : Word) : (s.wr a v).loopHops = s.loopHops := rfl
@[simp] theorem State.wr_flagHold (s : State) (a : Nat) (v : Word) : (s.wr a v).flagHold = s.flagHold := rfl
@[simp] theorem State.wr_rports (s : State) (a : Nat) (v : Word) : (s.wr a v).rports = s.rports := rfl
@[simp] theorem State.wr_rnnTurn (s : State) (a : Nat) (v : Word) : (s.wr a v).rnnTurn = s.rnnTurn := rfl
@[simp] theorem State.wr_syncDepth (s : State) (a : Nat) (v : Word) : (s.wr a v).syncDepth = s.syncDepth := rfl
@[simp] theorem State.wr_parentPort (s : State) (a : Nat) (v : Word) : (s.wr a v).parentPort = s.parentPort := rfl
@[simp] theorem State.wr_parentStage (s : State) (a : Nat) (v : Word) : (s.wr a v).parentStage = s.parentStage := rfl
@[simp] theorem State.wr_alignedOnce (s : State) (a : Nat) (v : Word) : (s.wr a v).alignedOnce = s.alignedOnce := rfl
@[simp] theorem State.wr_syncTick (s : State) (a : Nat) (v : Word) : (s.wr a v).syncTick = s.syncTick := rfl
@[simp] theorem State.wr_patterns (s : State) (a : Nat) (v : Word) : (s.wr a v).patterns = s.patterns := rfl
@[simp] theorem State.wr_parts (s : State) (a : Nat) (v : Word) : (s.wr a v).parts = s.parts := rfl
@[simp] theorem State.wr_pports (s : State) (a : Nat) (v : Word) : (s.wr a v).pports = s.pports := rfl
@[simp] theorem State.wr_irqs (s : State) (a : Nat) (v : Word) : (s.wr a v).irqs = s.irqs := rfl
@[simp] theorem State.wr_delivers (s : State) (a : Nat) (v : Word) : (s.wr a v).delivers = s.delivers := rfl
@[simp] theorem State.wr_aperture (s : State) (a : Nat) (v : Word) : (s.wr a v).aperture = s.aperture := rfl
@[simp] theorem State.wr_bridgeTx (s : State) (a : Nat) (v : Word) : (s.wr a v).bridgeTx = s.bridgeTx := rfl
@[simp] theorem State.wr_bridgeAwait (s : State) (a : Nat) (v : Word) : (s.wr a v).bridgeAwait = s.bridgeAwait := rfl
@[simp] theorem State.wr_rateArm (s : State) (a : Nat) (v : Word) : (s.wr a v).rateArm = s.rateArm := rfl
@[simp] theorem State.wr_calDue (s : State) (a : Nat) (v : Word) : (s.wr a v).calDue = s.calDue := rfl
@[simp] theorem State.wr_thermal (s : State) (a : Nat) (v : Word) : (s.wr a v).thermal = s.thermal := rfl
@[simp] theorem State.wr_dies (s : State) (a : Nat) (v : Word) : (s.wr a v).dies = s.dies := rfl
@[simp] theorem State.wr_efx (s : State) (a : Nat) (v : Word) : (s.wr a v).efx = s.efx := rfl
@[simp] theorem State.wr_efxStaged (s : State) (a : Nat) (v : Word) : (s.wr a v).efxStaged = s.efxStaged := rfl
@[simp] theorem State.wr_efxArmed (s : State) (a : Nat) (v : Word) : (s.wr a v).efxArmed = s.efxArmed := rfl
@[simp] theorem State.wr_efxLast (s : State) (a : Nat) (v : Word) : (s.wr a v).efxLast = s.efxLast := rfl
@[simp] theorem State.wr_censusDue (s : State) (a : Nat) (v : Word) : (s.wr a v).censusDue = s.censusDue := rfl
@[simp] theorem State.wr_censusOpen (s : State) (a : Nat) (v : Word) : (s.wr a v).censusOpen = s.censusOpen := rfl
@[simp] theorem State.wr_resets (s : State) (a : Nat) (v : Word) : (s.wr a v).resets = s.resets := rfl
@[simp] theorem State.wr_recovering (s : State) (a : Nat) (v : Word) : (s.wr a v).recovering = s.recovering := rfl
@[simp] theorem State.wr_romUp (s : State) (a : Nat) (v : Word) : (s.wr a v).romUp = s.romUp := rfl
@[simp] theorem State.wr_fwStaged (s : State) (a : Nat) (v : Word) : (s.wr a v).fwStaged = s.fwStaged := rfl
@[simp] theorem State.wr_fwRestarting (s : State) (a : Nat) (v : Word) : (s.wr a v).fwRestarting = s.fwRestarting := rfl
@[simp] theorem State.wr_fwTries (s : State) (a : Nat) (v : Word) : (s.wr a v).fwTries = s.fwTries := rfl
@[simp] theorem State.wr_nor (s : State) (a : Nat) (v : Word) : (s.wr a v).nor = s.nor := rfl
@[simp] theorem State.wr_norKept (s : State) (a : Nat) (v : Word) : (s.wr a v).norKept = s.norKept := rfl
@[simp] theorem State.wr_norBusy (s : State) (a : Nat) (v : Word) : (s.wr a v).norBusy = s.norBusy := rfl
@[simp] theorem State.wr_errPend (s : State) (a : Nat) (v : Word) : (s.wr a v).errPend = s.errPend := rfl
@[simp] theorem State.wr_errLog (s : State) (a : Nat) (v : Word) : (s.wr a v).errLog = s.errLog := rfl
@[simp] theorem State.wr_windows (s : State) (a : Nat) (v : Word) : (s.wr a v).windows = s.windows := rfl
@[simp] theorem State.wr_leaked (s : State) (a : Nat) (v : Word) : (s.wr a v).leaked = s.leaked := rfl
@[simp] theorem State.wr_colophonStopped (s : State) (a : Nat) (v : Word) : (s.wr a v).colophonStopped = s.colophonStopped := rfl
@[simp] theorem State.wr_handover (s : State) (a : Nat) (v : Word) : (s.wr a v).handover = s.handover := rfl
@[simp] theorem State.wr_erases (s : State) (a : Nat) (v : Word) : (s.wr a v).erases = s.erases := rfl
@[simp] theorem State.wr_jtag (s : State) (a : Nat) (v : Word) : (s.wr a v).jtag = s.jtag := rfl
@[simp] theorem State.wr_mgmt (s : State) (a : Nat) (v : Word) : (s.wr a v).mgmt = s.mgmt := rfl
@[simp] theorem State.wr_spdm (s : State) (a : Nat) (v : Word) : (s.wr a v).spdm = s.spdm := rfl
@[simp] theorem State.wr_out (s : State) (a : Nat) (v : Word) : (s.wr a v).out = s.out := rfl

@[simp] theorem State.setCore_pending (s : State) (k : Nat) (c : Core) : (s.setCore k c).pending = s.pending := rfl
@[simp] theorem State.setCore_powered (s : State) (k : Nat) (c : Core) : (s.setCore k c).powered = s.powered := rfl
@[simp] theorem State.setCore_free (s : State) (k : Nat) (c : Core) : (s.setCore k c).free = s.free := rfl
@[simp] theorem State.setCore_tick (s : State) (k : Nat) (c : Core) : (s.setCore k c).tick = s.tick := rfl
@[simp] theorem State.setCore_frac (s : State) (k : Nat) (c : Core) : (s.setCore k c).frac = s.frac := rfl
@[simp] theorem State.setCore_ctl (s : State) (k : Nat) (c : Core) : (s.setCore k c).ctl = s.ctl := rfl
@[simp] theorem State.setCore_mem (s : State) (k : Nat) (c : Core) : (s.setCore k c).mem = s.mem := rfl
@[simp] theorem State.setCore_tiles (s : State) (k : Nat) (c : Core) : (s.setCore k c).tiles = s.tiles := rfl
@[simp] theorem State.setCore_poison (s : State) (k : Nat) (c : Core) : (s.setCore k c).poison = s.poison := rfl
@[simp] theorem State.setCore_lineQ (s : State) (k : Nat) (c : Core) : (s.setCore k c).lineQ = s.lineQ := rfl
@[simp] theorem State.setCore_fuses (s : State) (k : Nat) (c : Core) : (s.setCore k c).fuses = s.fuses := rfl
@[simp] theorem State.setCore_position (s : State) (k : Nat) (c : Core) : (s.setCore k c).position = s.position := rfl
@[simp] theorem State.setCore_fenced (s : State) (k : Nat) (c : Core) : (s.setCore k c).fenced = s.fenced := rfl
@[simp] theorem State.setCore_net (s : State) (k : Nat) (c : Core) : (s.setCore k c).net = s.net := rfl
@[simp] theorem State.setCore_creditNet (s : State) (k : Nat) (c : Core) : (s.setCore k c).creditNet = s.creditNet := rfl
@[simp] theorem State.setCore_slots (s : State) (k : Nat) (c : Core) : (s.setCore k c).slots = s.slots := rfl
@[simp] theorem State.setCore_probes (s : State) (k : Nat) (c : Core) : (s.setCore k c).probes = s.probes := rfl
@[simp] theorem State.setCore_badHops (s : State) (k : Nat) (c : Core) : (s.setCore k c).badHops = s.badHops := rfl
@[simp] theorem State.setCore_loopHops (s : State) (k : Nat) (c : Core) : (s.setCore k c).loopHops = s.loopHops := rfl
@[simp] theorem State.setCore_flagHold (s : State) (k : Nat) (c : Core) : (s.setCore k c).flagHold = s.flagHold := rfl
@[simp] theorem State.setCore_rports (s : State) (k : Nat) (c : Core) : (s.setCore k c).rports = s.rports := rfl
@[simp] theorem State.setCore_rnnTurn (s : State) (k : Nat) (c : Core) : (s.setCore k c).rnnTurn = s.rnnTurn := rfl
@[simp] theorem State.setCore_syncDepth (s : State) (k : Nat) (c : Core) : (s.setCore k c).syncDepth = s.syncDepth := rfl
@[simp] theorem State.setCore_parentPort (s : State) (k : Nat) (c : Core) : (s.setCore k c).parentPort = s.parentPort := rfl
@[simp] theorem State.setCore_parentStage (s : State) (k : Nat) (c : Core) : (s.setCore k c).parentStage = s.parentStage := rfl
@[simp] theorem State.setCore_alignedOnce (s : State) (k : Nat) (c : Core) : (s.setCore k c).alignedOnce = s.alignedOnce := rfl
@[simp] theorem State.setCore_syncTick (s : State) (k : Nat) (c : Core) : (s.setCore k c).syncTick = s.syncTick := rfl
@[simp] theorem State.setCore_patterns (s : State) (k : Nat) (c : Core) : (s.setCore k c).patterns = s.patterns := rfl
@[simp] theorem State.setCore_parts (s : State) (k : Nat) (c : Core) : (s.setCore k c).parts = s.parts := rfl
@[simp] theorem State.setCore_pports (s : State) (k : Nat) (c : Core) : (s.setCore k c).pports = s.pports := rfl
@[simp] theorem State.setCore_irqs (s : State) (k : Nat) (c : Core) : (s.setCore k c).irqs = s.irqs := rfl
@[simp] theorem State.setCore_delivers (s : State) (k : Nat) (c : Core) : (s.setCore k c).delivers = s.delivers := rfl
@[simp] theorem State.setCore_aperture (s : State) (k : Nat) (c : Core) : (s.setCore k c).aperture = s.aperture := rfl
@[simp] theorem State.setCore_bridgeTx (s : State) (k : Nat) (c : Core) : (s.setCore k c).bridgeTx = s.bridgeTx := rfl
@[simp] theorem State.setCore_bridgeAwait (s : State) (k : Nat) (c : Core) : (s.setCore k c).bridgeAwait = s.bridgeAwait := rfl
@[simp] theorem State.setCore_rateArm (s : State) (k : Nat) (c : Core) : (s.setCore k c).rateArm = s.rateArm := rfl
@[simp] theorem State.setCore_calDue (s : State) (k : Nat) (c : Core) : (s.setCore k c).calDue = s.calDue := rfl
@[simp] theorem State.setCore_thermal (s : State) (k : Nat) (c : Core) : (s.setCore k c).thermal = s.thermal := rfl
@[simp] theorem State.setCore_dies (s : State) (k : Nat) (c : Core) : (s.setCore k c).dies = s.dies := rfl
@[simp] theorem State.setCore_efx (s : State) (k : Nat) (c : Core) : (s.setCore k c).efx = s.efx := rfl
@[simp] theorem State.setCore_efxStaged (s : State) (k : Nat) (c : Core) : (s.setCore k c).efxStaged = s.efxStaged := rfl
@[simp] theorem State.setCore_efxArmed (s : State) (k : Nat) (c : Core) : (s.setCore k c).efxArmed = s.efxArmed := rfl
@[simp] theorem State.setCore_efxLast (s : State) (k : Nat) (c : Core) : (s.setCore k c).efxLast = s.efxLast := rfl
@[simp] theorem State.setCore_censusDue (s : State) (k : Nat) (c : Core) : (s.setCore k c).censusDue = s.censusDue := rfl
@[simp] theorem State.setCore_censusOpen (s : State) (k : Nat) (c : Core) : (s.setCore k c).censusOpen = s.censusOpen := rfl
@[simp] theorem State.setCore_resets (s : State) (k : Nat) (c : Core) : (s.setCore k c).resets = s.resets := rfl
@[simp] theorem State.setCore_recovering (s : State) (k : Nat) (c : Core) : (s.setCore k c).recovering = s.recovering := rfl
@[simp] theorem State.setCore_romUp (s : State) (k : Nat) (c : Core) : (s.setCore k c).romUp = s.romUp := rfl
@[simp] theorem State.setCore_fwStaged (s : State) (k : Nat) (c : Core) : (s.setCore k c).fwStaged = s.fwStaged := rfl
@[simp] theorem State.setCore_fwRestarting (s : State) (k : Nat) (c : Core) : (s.setCore k c).fwRestarting = s.fwRestarting := rfl
@[simp] theorem State.setCore_fwTries (s : State) (k : Nat) (c : Core) : (s.setCore k c).fwTries = s.fwTries := rfl
@[simp] theorem State.setCore_nor (s : State) (k : Nat) (c : Core) : (s.setCore k c).nor = s.nor := rfl
@[simp] theorem State.setCore_norKept (s : State) (k : Nat) (c : Core) : (s.setCore k c).norKept = s.norKept := rfl
@[simp] theorem State.setCore_norBusy (s : State) (k : Nat) (c : Core) : (s.setCore k c).norBusy = s.norBusy := rfl
@[simp] theorem State.setCore_errPend (s : State) (k : Nat) (c : Core) : (s.setCore k c).errPend = s.errPend := rfl
@[simp] theorem State.setCore_errLog (s : State) (k : Nat) (c : Core) : (s.setCore k c).errLog = s.errLog := rfl
@[simp] theorem State.setCore_windows (s : State) (k : Nat) (c : Core) : (s.setCore k c).windows = s.windows := rfl
@[simp] theorem State.setCore_leaked (s : State) (k : Nat) (c : Core) : (s.setCore k c).leaked = s.leaked := rfl
@[simp] theorem State.setCore_colophonStopped (s : State) (k : Nat) (c : Core) : (s.setCore k c).colophonStopped = s.colophonStopped := rfl
@[simp] theorem State.setCore_handover (s : State) (k : Nat) (c : Core) : (s.setCore k c).handover = s.handover := rfl
@[simp] theorem State.setCore_erases (s : State) (k : Nat) (c : Core) : (s.setCore k c).erases = s.erases := rfl
@[simp] theorem State.setCore_jtag (s : State) (k : Nat) (c : Core) : (s.setCore k c).jtag = s.jtag := rfl
@[simp] theorem State.setCore_mgmt (s : State) (k : Nat) (c : Core) : (s.setCore k c).mgmt = s.mgmt := rfl
@[simp] theorem State.setCore_spdm (s : State) (k : Nat) (c : Core) : (s.setCore k c).spdm = s.spdm := rfl
@[simp] theorem State.setCore_out (s : State) (k : Nat) (c : Core) : (s.setCore k c).out = s.out := rfl

@[simp] theorem State.setPoison_pending (s : State) (k space off : Nat) (b : Bool) : (s.setPoison k space off b).pending = s.pending := rfl
@[simp] theorem State.setPoison_powered (s : State) (k space off : Nat) (b : Bool) : (s.setPoison k space off b).powered = s.powered := rfl
@[simp] theorem State.setPoison_free (s : State) (k space off : Nat) (b : Bool) : (s.setPoison k space off b).free = s.free := rfl
@[simp] theorem State.setPoison_tick (s : State) (k space off : Nat) (b : Bool) : (s.setPoison k space off b).tick = s.tick := rfl
@[simp] theorem State.setPoison_frac (s : State) (k space off : Nat) (b : Bool) : (s.setPoison k space off b).frac = s.frac := rfl
@[simp] theorem State.setPoison_ctl (s : State) (k space off : Nat) (b : Bool) : (s.setPoison k space off b).ctl = s.ctl := rfl
@[simp] theorem State.setPoison_mem (s : State) (k space off : Nat) (b : Bool) : (s.setPoison k space off b).mem = s.mem := rfl
@[simp] theorem State.setPoison_tiles (s : State) (k space off : Nat) (b : Bool) : (s.setPoison k space off b).tiles = s.tiles := rfl
@[simp] theorem State.setPoison_cores (s : State) (k space off : Nat) (b : Bool) : (s.setPoison k space off b).cores = s.cores := rfl
@[simp] theorem State.setPoison_lineQ (s : State) (k space off : Nat) (b : Bool) : (s.setPoison k space off b).lineQ = s.lineQ := rfl
@[simp] theorem State.setPoison_fuses (s : State) (k space off : Nat) (b : Bool) : (s.setPoison k space off b).fuses = s.fuses := rfl
@[simp] theorem State.setPoison_position (s : State) (k space off : Nat) (b : Bool) : (s.setPoison k space off b).position = s.position := rfl
@[simp] theorem State.setPoison_fenced (s : State) (k space off : Nat) (b : Bool) : (s.setPoison k space off b).fenced = s.fenced := rfl
@[simp] theorem State.setPoison_net (s : State) (k space off : Nat) (b : Bool) : (s.setPoison k space off b).net = s.net := rfl
@[simp] theorem State.setPoison_creditNet (s : State) (k space off : Nat) (b : Bool) : (s.setPoison k space off b).creditNet = s.creditNet := rfl
@[simp] theorem State.setPoison_slots (s : State) (k space off : Nat) (b : Bool) : (s.setPoison k space off b).slots = s.slots := rfl
@[simp] theorem State.setPoison_probes (s : State) (k space off : Nat) (b : Bool) : (s.setPoison k space off b).probes = s.probes := rfl
@[simp] theorem State.setPoison_badHops (s : State) (k space off : Nat) (b : Bool) : (s.setPoison k space off b).badHops = s.badHops := rfl
@[simp] theorem State.setPoison_loopHops (s : State) (k space off : Nat) (b : Bool) : (s.setPoison k space off b).loopHops = s.loopHops := rfl
@[simp] theorem State.setPoison_flagHold (s : State) (k space off : Nat) (b : Bool) : (s.setPoison k space off b).flagHold = s.flagHold := rfl
@[simp] theorem State.setPoison_rports (s : State) (k space off : Nat) (b : Bool) : (s.setPoison k space off b).rports = s.rports := rfl
@[simp] theorem State.setPoison_rnnTurn (s : State) (k space off : Nat) (b : Bool) : (s.setPoison k space off b).rnnTurn = s.rnnTurn := rfl
@[simp] theorem State.setPoison_syncDepth (s : State) (k space off : Nat) (b : Bool) : (s.setPoison k space off b).syncDepth = s.syncDepth := rfl
@[simp] theorem State.setPoison_parentPort (s : State) (k space off : Nat) (b : Bool) : (s.setPoison k space off b).parentPort = s.parentPort := rfl
@[simp] theorem State.setPoison_parentStage (s : State) (k space off : Nat) (b : Bool) : (s.setPoison k space off b).parentStage = s.parentStage := rfl
@[simp] theorem State.setPoison_alignedOnce (s : State) (k space off : Nat) (b : Bool) : (s.setPoison k space off b).alignedOnce = s.alignedOnce := rfl
@[simp] theorem State.setPoison_syncTick (s : State) (k space off : Nat) (b : Bool) : (s.setPoison k space off b).syncTick = s.syncTick := rfl
@[simp] theorem State.setPoison_patterns (s : State) (k space off : Nat) (b : Bool) : (s.setPoison k space off b).patterns = s.patterns := rfl
@[simp] theorem State.setPoison_parts (s : State) (k space off : Nat) (b : Bool) : (s.setPoison k space off b).parts = s.parts := rfl
@[simp] theorem State.setPoison_pports (s : State) (k space off : Nat) (b : Bool) : (s.setPoison k space off b).pports = s.pports := rfl
@[simp] theorem State.setPoison_irqs (s : State) (k space off : Nat) (b : Bool) : (s.setPoison k space off b).irqs = s.irqs := rfl
@[simp] theorem State.setPoison_delivers (s : State) (k space off : Nat) (b : Bool) : (s.setPoison k space off b).delivers = s.delivers := rfl
@[simp] theorem State.setPoison_aperture (s : State) (k space off : Nat) (b : Bool) : (s.setPoison k space off b).aperture = s.aperture := rfl
@[simp] theorem State.setPoison_bridgeTx (s : State) (k space off : Nat) (b : Bool) : (s.setPoison k space off b).bridgeTx = s.bridgeTx := rfl
@[simp] theorem State.setPoison_bridgeAwait (s : State) (k space off : Nat) (b : Bool) : (s.setPoison k space off b).bridgeAwait = s.bridgeAwait := rfl
@[simp] theorem State.setPoison_rateArm (s : State) (k space off : Nat) (b : Bool) : (s.setPoison k space off b).rateArm = s.rateArm := rfl
@[simp] theorem State.setPoison_calDue (s : State) (k space off : Nat) (b : Bool) : (s.setPoison k space off b).calDue = s.calDue := rfl
@[simp] theorem State.setPoison_thermal (s : State) (k space off : Nat) (b : Bool) : (s.setPoison k space off b).thermal = s.thermal := rfl
@[simp] theorem State.setPoison_dies (s : State) (k space off : Nat) (b : Bool) : (s.setPoison k space off b).dies = s.dies := rfl
@[simp] theorem State.setPoison_efx (s : State) (k space off : Nat) (b : Bool) : (s.setPoison k space off b).efx = s.efx := rfl
@[simp] theorem State.setPoison_efxStaged (s : State) (k space off : Nat) (b : Bool) : (s.setPoison k space off b).efxStaged = s.efxStaged := rfl
@[simp] theorem State.setPoison_efxArmed (s : State) (k space off : Nat) (b : Bool) : (s.setPoison k space off b).efxArmed = s.efxArmed := rfl
@[simp] theorem State.setPoison_efxLast (s : State) (k space off : Nat) (b : Bool) : (s.setPoison k space off b).efxLast = s.efxLast := rfl
@[simp] theorem State.setPoison_censusDue (s : State) (k space off : Nat) (b : Bool) : (s.setPoison k space off b).censusDue = s.censusDue := rfl
@[simp] theorem State.setPoison_censusOpen (s : State) (k space off : Nat) (b : Bool) : (s.setPoison k space off b).censusOpen = s.censusOpen := rfl
@[simp] theorem State.setPoison_resets (s : State) (k space off : Nat) (b : Bool) : (s.setPoison k space off b).resets = s.resets := rfl
@[simp] theorem State.setPoison_recovering (s : State) (k space off : Nat) (b : Bool) : (s.setPoison k space off b).recovering = s.recovering := rfl
@[simp] theorem State.setPoison_romUp (s : State) (k space off : Nat) (b : Bool) : (s.setPoison k space off b).romUp = s.romUp := rfl
@[simp] theorem State.setPoison_fwStaged (s : State) (k space off : Nat) (b : Bool) : (s.setPoison k space off b).fwStaged = s.fwStaged := rfl
@[simp] theorem State.setPoison_fwRestarting (s : State) (k space off : Nat) (b : Bool) : (s.setPoison k space off b).fwRestarting = s.fwRestarting := rfl
@[simp] theorem State.setPoison_fwTries (s : State) (k space off : Nat) (b : Bool) : (s.setPoison k space off b).fwTries = s.fwTries := rfl
@[simp] theorem State.setPoison_nor (s : State) (k space off : Nat) (b : Bool) : (s.setPoison k space off b).nor = s.nor := rfl
@[simp] theorem State.setPoison_norKept (s : State) (k space off : Nat) (b : Bool) : (s.setPoison k space off b).norKept = s.norKept := rfl
@[simp] theorem State.setPoison_norBusy (s : State) (k space off : Nat) (b : Bool) : (s.setPoison k space off b).norBusy = s.norBusy := rfl
@[simp] theorem State.setPoison_errPend (s : State) (k space off : Nat) (b : Bool) : (s.setPoison k space off b).errPend = s.errPend := rfl
@[simp] theorem State.setPoison_errLog (s : State) (k space off : Nat) (b : Bool) : (s.setPoison k space off b).errLog = s.errLog := rfl
@[simp] theorem State.setPoison_windows (s : State) (k space off : Nat) (b : Bool) : (s.setPoison k space off b).windows = s.windows := rfl
@[simp] theorem State.setPoison_leaked (s : State) (k space off : Nat) (b : Bool) : (s.setPoison k space off b).leaked = s.leaked := rfl
@[simp] theorem State.setPoison_colophonStopped (s : State) (k space off : Nat) (b : Bool) : (s.setPoison k space off b).colophonStopped = s.colophonStopped := rfl
@[simp] theorem State.setPoison_handover (s : State) (k space off : Nat) (b : Bool) : (s.setPoison k space off b).handover = s.handover := rfl
@[simp] theorem State.setPoison_erases (s : State) (k space off : Nat) (b : Bool) : (s.setPoison k space off b).erases = s.erases := rfl
@[simp] theorem State.setPoison_jtag (s : State) (k space off : Nat) (b : Bool) : (s.setPoison k space off b).jtag = s.jtag := rfl
@[simp] theorem State.setPoison_mgmt (s : State) (k space off : Nat) (b : Bool) : (s.setPoison k space off b).mgmt = s.mgmt := rfl
@[simp] theorem State.setPoison_spdm (s : State) (k space off : Nat) (b : Bool) : (s.setPoison k space off b).spdm = s.spdm := rfl
@[simp] theorem State.setPoison_out (s : State) (k space off : Nat) (b : Bool) : (s.setPoison k space off b).out = s.out := rfl

@[simp] theorem State.emit_pending (s : State) (o : Out) : (s.emit o).pending = s.pending := rfl
@[simp] theorem State.emit_powered (s : State) (o : Out) : (s.emit o).powered = s.powered := rfl
@[simp] theorem State.emit_free (s : State) (o : Out) : (s.emit o).free = s.free := rfl
@[simp] theorem State.emit_tick (s : State) (o : Out) : (s.emit o).tick = s.tick := rfl
@[simp] theorem State.emit_frac (s : State) (o : Out) : (s.emit o).frac = s.frac := rfl
@[simp] theorem State.emit_ctl (s : State) (o : Out) : (s.emit o).ctl = s.ctl := rfl
@[simp] theorem State.emit_mem (s : State) (o : Out) : (s.emit o).mem = s.mem := rfl
@[simp] theorem State.emit_tiles (s : State) (o : Out) : (s.emit o).tiles = s.tiles := rfl
@[simp] theorem State.emit_poison (s : State) (o : Out) : (s.emit o).poison = s.poison := rfl
@[simp] theorem State.emit_cores (s : State) (o : Out) : (s.emit o).cores = s.cores := rfl
@[simp] theorem State.emit_lineQ (s : State) (o : Out) : (s.emit o).lineQ = s.lineQ := rfl
@[simp] theorem State.emit_fuses (s : State) (o : Out) : (s.emit o).fuses = s.fuses := rfl
@[simp] theorem State.emit_position (s : State) (o : Out) : (s.emit o).position = s.position := rfl
@[simp] theorem State.emit_fenced (s : State) (o : Out) : (s.emit o).fenced = s.fenced := rfl
@[simp] theorem State.emit_net (s : State) (o : Out) : (s.emit o).net = s.net := rfl
@[simp] theorem State.emit_creditNet (s : State) (o : Out) : (s.emit o).creditNet = s.creditNet := rfl
@[simp] theorem State.emit_slots (s : State) (o : Out) : (s.emit o).slots = s.slots := rfl
@[simp] theorem State.emit_probes (s : State) (o : Out) : (s.emit o).probes = s.probes := rfl
@[simp] theorem State.emit_badHops (s : State) (o : Out) : (s.emit o).badHops = s.badHops := rfl
@[simp] theorem State.emit_loopHops (s : State) (o : Out) : (s.emit o).loopHops = s.loopHops := rfl
@[simp] theorem State.emit_flagHold (s : State) (o : Out) : (s.emit o).flagHold = s.flagHold := rfl
@[simp] theorem State.emit_rports (s : State) (o : Out) : (s.emit o).rports = s.rports := rfl
@[simp] theorem State.emit_rnnTurn (s : State) (o : Out) : (s.emit o).rnnTurn = s.rnnTurn := rfl
@[simp] theorem State.emit_syncDepth (s : State) (o : Out) : (s.emit o).syncDepth = s.syncDepth := rfl
@[simp] theorem State.emit_parentPort (s : State) (o : Out) : (s.emit o).parentPort = s.parentPort := rfl
@[simp] theorem State.emit_parentStage (s : State) (o : Out) : (s.emit o).parentStage = s.parentStage := rfl
@[simp] theorem State.emit_alignedOnce (s : State) (o : Out) : (s.emit o).alignedOnce = s.alignedOnce := rfl
@[simp] theorem State.emit_syncTick (s : State) (o : Out) : (s.emit o).syncTick = s.syncTick := rfl
@[simp] theorem State.emit_patterns (s : State) (o : Out) : (s.emit o).patterns = s.patterns := rfl
@[simp] theorem State.emit_parts (s : State) (o : Out) : (s.emit o).parts = s.parts := rfl
@[simp] theorem State.emit_pports (s : State) (o : Out) : (s.emit o).pports = s.pports := rfl
@[simp] theorem State.emit_irqs (s : State) (o : Out) : (s.emit o).irqs = s.irqs := rfl
@[simp] theorem State.emit_delivers (s : State) (o : Out) : (s.emit o).delivers = s.delivers := rfl
@[simp] theorem State.emit_aperture (s : State) (o : Out) : (s.emit o).aperture = s.aperture := rfl
@[simp] theorem State.emit_bridgeTx (s : State) (o : Out) : (s.emit o).bridgeTx = s.bridgeTx := rfl
@[simp] theorem State.emit_bridgeAwait (s : State) (o : Out) : (s.emit o).bridgeAwait = s.bridgeAwait := rfl
@[simp] theorem State.emit_rateArm (s : State) (o : Out) : (s.emit o).rateArm = s.rateArm := rfl
@[simp] theorem State.emit_calDue (s : State) (o : Out) : (s.emit o).calDue = s.calDue := rfl
@[simp] theorem State.emit_thermal (s : State) (o : Out) : (s.emit o).thermal = s.thermal := rfl
@[simp] theorem State.emit_dies (s : State) (o : Out) : (s.emit o).dies = s.dies := rfl
@[simp] theorem State.emit_efx (s : State) (o : Out) : (s.emit o).efx = s.efx := rfl
@[simp] theorem State.emit_efxStaged (s : State) (o : Out) : (s.emit o).efxStaged = s.efxStaged := rfl
@[simp] theorem State.emit_efxArmed (s : State) (o : Out) : (s.emit o).efxArmed = s.efxArmed := rfl
@[simp] theorem State.emit_efxLast (s : State) (o : Out) : (s.emit o).efxLast = s.efxLast := rfl
@[simp] theorem State.emit_censusDue (s : State) (o : Out) : (s.emit o).censusDue = s.censusDue := rfl
@[simp] theorem State.emit_censusOpen (s : State) (o : Out) : (s.emit o).censusOpen = s.censusOpen := rfl
@[simp] theorem State.emit_resets (s : State) (o : Out) : (s.emit o).resets = s.resets := rfl
@[simp] theorem State.emit_recovering (s : State) (o : Out) : (s.emit o).recovering = s.recovering := rfl
@[simp] theorem State.emit_romUp (s : State) (o : Out) : (s.emit o).romUp = s.romUp := rfl
@[simp] theorem State.emit_fwStaged (s : State) (o : Out) : (s.emit o).fwStaged = s.fwStaged := rfl
@[simp] theorem State.emit_fwRestarting (s : State) (o : Out) : (s.emit o).fwRestarting = s.fwRestarting := rfl
@[simp] theorem State.emit_fwTries (s : State) (o : Out) : (s.emit o).fwTries = s.fwTries := rfl
@[simp] theorem State.emit_nor (s : State) (o : Out) : (s.emit o).nor = s.nor := rfl
@[simp] theorem State.emit_norKept (s : State) (o : Out) : (s.emit o).norKept = s.norKept := rfl
@[simp] theorem State.emit_norBusy (s : State) (o : Out) : (s.emit o).norBusy = s.norBusy := rfl
@[simp] theorem State.emit_errPend (s : State) (o : Out) : (s.emit o).errPend = s.errPend := rfl
@[simp] theorem State.emit_errLog (s : State) (o : Out) : (s.emit o).errLog = s.errLog := rfl
@[simp] theorem State.emit_windows (s : State) (o : Out) : (s.emit o).windows = s.windows := rfl
@[simp] theorem State.emit_leaked (s : State) (o : Out) : (s.emit o).leaked = s.leaked := rfl
@[simp] theorem State.emit_colophonStopped (s : State) (o : Out) : (s.emit o).colophonStopped = s.colophonStopped := rfl
@[simp] theorem State.emit_handover (s : State) (o : Out) : (s.emit o).handover = s.handover := rfl
@[simp] theorem State.emit_erases (s : State) (o : Out) : (s.emit o).erases = s.erases := rfl
@[simp] theorem State.emit_jtag (s : State) (o : Out) : (s.emit o).jtag = s.jtag := rfl
@[simp] theorem State.emit_mgmt (s : State) (o : Out) : (s.emit o).mgmt = s.mgmt := rfl
@[simp] theorem State.emit_spdm (s : State) (o : Out) : (s.emit o).spdm = s.spdm := rfl

@[simp] theorem State.modDie_pending (s : State) (d : Nat) (f : DieBeat → DieBeat) : (s.modDie d f).pending = s.pending := rfl
@[simp] theorem State.modDie_powered (s : State) (d : Nat) (f : DieBeat → DieBeat) : (s.modDie d f).powered = s.powered := rfl
@[simp] theorem State.modDie_free (s : State) (d : Nat) (f : DieBeat → DieBeat) : (s.modDie d f).free = s.free := rfl
@[simp] theorem State.modDie_tick (s : State) (d : Nat) (f : DieBeat → DieBeat) : (s.modDie d f).tick = s.tick := rfl
@[simp] theorem State.modDie_frac (s : State) (d : Nat) (f : DieBeat → DieBeat) : (s.modDie d f).frac = s.frac := rfl
@[simp] theorem State.modDie_ctl (s : State) (d : Nat) (f : DieBeat → DieBeat) : (s.modDie d f).ctl = s.ctl := rfl
@[simp] theorem State.modDie_mem (s : State) (d : Nat) (f : DieBeat → DieBeat) : (s.modDie d f).mem = s.mem := rfl
@[simp] theorem State.modDie_tiles (s : State) (d : Nat) (f : DieBeat → DieBeat) : (s.modDie d f).tiles = s.tiles := rfl
@[simp] theorem State.modDie_poison (s : State) (d : Nat) (f : DieBeat → DieBeat) : (s.modDie d f).poison = s.poison := rfl
@[simp] theorem State.modDie_cores (s : State) (d : Nat) (f : DieBeat → DieBeat) : (s.modDie d f).cores = s.cores := rfl
@[simp] theorem State.modDie_lineQ (s : State) (d : Nat) (f : DieBeat → DieBeat) : (s.modDie d f).lineQ = s.lineQ := rfl
@[simp] theorem State.modDie_fuses (s : State) (d : Nat) (f : DieBeat → DieBeat) : (s.modDie d f).fuses = s.fuses := rfl
@[simp] theorem State.modDie_position (s : State) (d : Nat) (f : DieBeat → DieBeat) : (s.modDie d f).position = s.position := rfl
@[simp] theorem State.modDie_fenced (s : State) (d : Nat) (f : DieBeat → DieBeat) : (s.modDie d f).fenced = s.fenced := rfl
@[simp] theorem State.modDie_net (s : State) (d : Nat) (f : DieBeat → DieBeat) : (s.modDie d f).net = s.net := rfl
@[simp] theorem State.modDie_creditNet (s : State) (d : Nat) (f : DieBeat → DieBeat) : (s.modDie d f).creditNet = s.creditNet := rfl
@[simp] theorem State.modDie_slots (s : State) (d : Nat) (f : DieBeat → DieBeat) : (s.modDie d f).slots = s.slots := rfl
@[simp] theorem State.modDie_probes (s : State) (d : Nat) (f : DieBeat → DieBeat) : (s.modDie d f).probes = s.probes := rfl
@[simp] theorem State.modDie_badHops (s : State) (d : Nat) (f : DieBeat → DieBeat) : (s.modDie d f).badHops = s.badHops := rfl
@[simp] theorem State.modDie_loopHops (s : State) (d : Nat) (f : DieBeat → DieBeat) : (s.modDie d f).loopHops = s.loopHops := rfl
@[simp] theorem State.modDie_flagHold (s : State) (d : Nat) (f : DieBeat → DieBeat) : (s.modDie d f).flagHold = s.flagHold := rfl
@[simp] theorem State.modDie_rports (s : State) (d : Nat) (f : DieBeat → DieBeat) : (s.modDie d f).rports = s.rports := rfl
@[simp] theorem State.modDie_rnnTurn (s : State) (d : Nat) (f : DieBeat → DieBeat) : (s.modDie d f).rnnTurn = s.rnnTurn := rfl
@[simp] theorem State.modDie_syncDepth (s : State) (d : Nat) (f : DieBeat → DieBeat) : (s.modDie d f).syncDepth = s.syncDepth := rfl
@[simp] theorem State.modDie_parentPort (s : State) (d : Nat) (f : DieBeat → DieBeat) : (s.modDie d f).parentPort = s.parentPort := rfl
@[simp] theorem State.modDie_parentStage (s : State) (d : Nat) (f : DieBeat → DieBeat) : (s.modDie d f).parentStage = s.parentStage := rfl
@[simp] theorem State.modDie_alignedOnce (s : State) (d : Nat) (f : DieBeat → DieBeat) : (s.modDie d f).alignedOnce = s.alignedOnce := rfl
@[simp] theorem State.modDie_syncTick (s : State) (d : Nat) (f : DieBeat → DieBeat) : (s.modDie d f).syncTick = s.syncTick := rfl
@[simp] theorem State.modDie_patterns (s : State) (d : Nat) (f : DieBeat → DieBeat) : (s.modDie d f).patterns = s.patterns := rfl
@[simp] theorem State.modDie_parts (s : State) (d : Nat) (f : DieBeat → DieBeat) : (s.modDie d f).parts = s.parts := rfl
@[simp] theorem State.modDie_pports (s : State) (d : Nat) (f : DieBeat → DieBeat) : (s.modDie d f).pports = s.pports := rfl
@[simp] theorem State.modDie_irqs (s : State) (d : Nat) (f : DieBeat → DieBeat) : (s.modDie d f).irqs = s.irqs := rfl
@[simp] theorem State.modDie_delivers (s : State) (d : Nat) (f : DieBeat → DieBeat) : (s.modDie d f).delivers = s.delivers := rfl
@[simp] theorem State.modDie_aperture (s : State) (d : Nat) (f : DieBeat → DieBeat) : (s.modDie d f).aperture = s.aperture := rfl
@[simp] theorem State.modDie_bridgeTx (s : State) (d : Nat) (f : DieBeat → DieBeat) : (s.modDie d f).bridgeTx = s.bridgeTx := rfl
@[simp] theorem State.modDie_bridgeAwait (s : State) (d : Nat) (f : DieBeat → DieBeat) : (s.modDie d f).bridgeAwait = s.bridgeAwait := rfl
@[simp] theorem State.modDie_rateArm (s : State) (d : Nat) (f : DieBeat → DieBeat) : (s.modDie d f).rateArm = s.rateArm := rfl
@[simp] theorem State.modDie_calDue (s : State) (d : Nat) (f : DieBeat → DieBeat) : (s.modDie d f).calDue = s.calDue := rfl
@[simp] theorem State.modDie_thermal (s : State) (d : Nat) (f : DieBeat → DieBeat) : (s.modDie d f).thermal = s.thermal := rfl
@[simp] theorem State.modDie_efx (s : State) (d : Nat) (f : DieBeat → DieBeat) : (s.modDie d f).efx = s.efx := rfl
@[simp] theorem State.modDie_efxStaged (s : State) (d : Nat) (f : DieBeat → DieBeat) : (s.modDie d f).efxStaged = s.efxStaged := rfl
@[simp] theorem State.modDie_efxArmed (s : State) (d : Nat) (f : DieBeat → DieBeat) : (s.modDie d f).efxArmed = s.efxArmed := rfl
@[simp] theorem State.modDie_efxLast (s : State) (d : Nat) (f : DieBeat → DieBeat) : (s.modDie d f).efxLast = s.efxLast := rfl
@[simp] theorem State.modDie_censusDue (s : State) (d : Nat) (f : DieBeat → DieBeat) : (s.modDie d f).censusDue = s.censusDue := rfl
@[simp] theorem State.modDie_censusOpen (s : State) (d : Nat) (f : DieBeat → DieBeat) : (s.modDie d f).censusOpen = s.censusOpen := rfl
@[simp] theorem State.modDie_resets (s : State) (d : Nat) (f : DieBeat → DieBeat) : (s.modDie d f).resets = s.resets := rfl
@[simp] theorem State.modDie_recovering (s : State) (d : Nat) (f : DieBeat → DieBeat) : (s.modDie d f).recovering = s.recovering := rfl
@[simp] theorem State.modDie_romUp (s : State) (d : Nat) (f : DieBeat → DieBeat) : (s.modDie d f).romUp = s.romUp := rfl
@[simp] theorem State.modDie_fwStaged (s : State) (d : Nat) (f : DieBeat → DieBeat) : (s.modDie d f).fwStaged = s.fwStaged := rfl
@[simp] theorem State.modDie_fwRestarting (s : State) (d : Nat) (f : DieBeat → DieBeat) : (s.modDie d f).fwRestarting = s.fwRestarting := rfl
@[simp] theorem State.modDie_fwTries (s : State) (d : Nat) (f : DieBeat → DieBeat) : (s.modDie d f).fwTries = s.fwTries := rfl
@[simp] theorem State.modDie_nor (s : State) (d : Nat) (f : DieBeat → DieBeat) : (s.modDie d f).nor = s.nor := rfl
@[simp] theorem State.modDie_norKept (s : State) (d : Nat) (f : DieBeat → DieBeat) : (s.modDie d f).norKept = s.norKept := rfl
@[simp] theorem State.modDie_norBusy (s : State) (d : Nat) (f : DieBeat → DieBeat) : (s.modDie d f).norBusy = s.norBusy := rfl
@[simp] theorem State.modDie_errPend (s : State) (d : Nat) (f : DieBeat → DieBeat) : (s.modDie d f).errPend = s.errPend := rfl
@[simp] theorem State.modDie_errLog (s : State) (d : Nat) (f : DieBeat → DieBeat) : (s.modDie d f).errLog = s.errLog := rfl
@[simp] theorem State.modDie_windows (s : State) (d : Nat) (f : DieBeat → DieBeat) : (s.modDie d f).windows = s.windows := rfl
@[simp] theorem State.modDie_leaked (s : State) (d : Nat) (f : DieBeat → DieBeat) : (s.modDie d f).leaked = s.leaked := rfl
@[simp] theorem State.modDie_colophonStopped (s : State) (d : Nat) (f : DieBeat → DieBeat) : (s.modDie d f).colophonStopped = s.colophonStopped := rfl
@[simp] theorem State.modDie_handover (s : State) (d : Nat) (f : DieBeat → DieBeat) : (s.modDie d f).handover = s.handover := rfl
@[simp] theorem State.modDie_erases (s : State) (d : Nat) (f : DieBeat → DieBeat) : (s.modDie d f).erases = s.erases := rfl
@[simp] theorem State.modDie_jtag (s : State) (d : Nat) (f : DieBeat → DieBeat) : (s.modDie d f).jtag = s.jtag := rfl
@[simp] theorem State.modDie_mgmt (s : State) (d : Nat) (f : DieBeat → DieBeat) : (s.modDie d f).mgmt = s.mgmt := rfl
@[simp] theorem State.modDie_spdm (s : State) (d : Nat) (f : DieBeat → DieBeat) : (s.modDie d f).spdm = s.spdm := rfl
@[simp] theorem State.modDie_out (s : State) (d : Nat) (f : DieBeat → DieBeat) : (s.modDie d f).out = s.out := rfl

@[simp] theorem State.modPart_pending (s : State) (p : Nat) (f : Part → Part) : (s.modPart p f).pending = s.pending := rfl
@[simp] theorem State.modPart_powered (s : State) (p : Nat) (f : Part → Part) : (s.modPart p f).powered = s.powered := rfl
@[simp] theorem State.modPart_free (s : State) (p : Nat) (f : Part → Part) : (s.modPart p f).free = s.free := rfl
@[simp] theorem State.modPart_tick (s : State) (p : Nat) (f : Part → Part) : (s.modPart p f).tick = s.tick := rfl
@[simp] theorem State.modPart_frac (s : State) (p : Nat) (f : Part → Part) : (s.modPart p f).frac = s.frac := rfl
@[simp] theorem State.modPart_ctl (s : State) (p : Nat) (f : Part → Part) : (s.modPart p f).ctl = s.ctl := rfl
@[simp] theorem State.modPart_mem (s : State) (p : Nat) (f : Part → Part) : (s.modPart p f).mem = s.mem := rfl
@[simp] theorem State.modPart_tiles (s : State) (p : Nat) (f : Part → Part) : (s.modPart p f).tiles = s.tiles := rfl
@[simp] theorem State.modPart_poison (s : State) (p : Nat) (f : Part → Part) : (s.modPart p f).poison = s.poison := rfl
@[simp] theorem State.modPart_cores (s : State) (p : Nat) (f : Part → Part) : (s.modPart p f).cores = s.cores := rfl
@[simp] theorem State.modPart_lineQ (s : State) (p : Nat) (f : Part → Part) : (s.modPart p f).lineQ = s.lineQ := rfl
@[simp] theorem State.modPart_fuses (s : State) (p : Nat) (f : Part → Part) : (s.modPart p f).fuses = s.fuses := rfl
@[simp] theorem State.modPart_position (s : State) (p : Nat) (f : Part → Part) : (s.modPart p f).position = s.position := rfl
@[simp] theorem State.modPart_fenced (s : State) (p : Nat) (f : Part → Part) : (s.modPart p f).fenced = s.fenced := rfl
@[simp] theorem State.modPart_net (s : State) (p : Nat) (f : Part → Part) : (s.modPart p f).net = s.net := rfl
@[simp] theorem State.modPart_creditNet (s : State) (p : Nat) (f : Part → Part) : (s.modPart p f).creditNet = s.creditNet := rfl
@[simp] theorem State.modPart_slots (s : State) (p : Nat) (f : Part → Part) : (s.modPart p f).slots = s.slots := rfl
@[simp] theorem State.modPart_probes (s : State) (p : Nat) (f : Part → Part) : (s.modPart p f).probes = s.probes := rfl
@[simp] theorem State.modPart_badHops (s : State) (p : Nat) (f : Part → Part) : (s.modPart p f).badHops = s.badHops := rfl
@[simp] theorem State.modPart_loopHops (s : State) (p : Nat) (f : Part → Part) : (s.modPart p f).loopHops = s.loopHops := rfl
@[simp] theorem State.modPart_flagHold (s : State) (p : Nat) (f : Part → Part) : (s.modPart p f).flagHold = s.flagHold := rfl
@[simp] theorem State.modPart_rports (s : State) (p : Nat) (f : Part → Part) : (s.modPart p f).rports = s.rports := rfl
@[simp] theorem State.modPart_rnnTurn (s : State) (p : Nat) (f : Part → Part) : (s.modPart p f).rnnTurn = s.rnnTurn := rfl
@[simp] theorem State.modPart_syncDepth (s : State) (p : Nat) (f : Part → Part) : (s.modPart p f).syncDepth = s.syncDepth := rfl
@[simp] theorem State.modPart_parentPort (s : State) (p : Nat) (f : Part → Part) : (s.modPart p f).parentPort = s.parentPort := rfl
@[simp] theorem State.modPart_parentStage (s : State) (p : Nat) (f : Part → Part) : (s.modPart p f).parentStage = s.parentStage := rfl
@[simp] theorem State.modPart_alignedOnce (s : State) (p : Nat) (f : Part → Part) : (s.modPart p f).alignedOnce = s.alignedOnce := rfl
@[simp] theorem State.modPart_syncTick (s : State) (p : Nat) (f : Part → Part) : (s.modPart p f).syncTick = s.syncTick := rfl
@[simp] theorem State.modPart_patterns (s : State) (p : Nat) (f : Part → Part) : (s.modPart p f).patterns = s.patterns := rfl
@[simp] theorem State.modPart_pports (s : State) (p : Nat) (f : Part → Part) : (s.modPart p f).pports = s.pports := rfl
@[simp] theorem State.modPart_irqs (s : State) (p : Nat) (f : Part → Part) : (s.modPart p f).irqs = s.irqs := rfl
@[simp] theorem State.modPart_delivers (s : State) (p : Nat) (f : Part → Part) : (s.modPart p f).delivers = s.delivers := rfl
@[simp] theorem State.modPart_aperture (s : State) (p : Nat) (f : Part → Part) : (s.modPart p f).aperture = s.aperture := rfl
@[simp] theorem State.modPart_bridgeTx (s : State) (p : Nat) (f : Part → Part) : (s.modPart p f).bridgeTx = s.bridgeTx := rfl
@[simp] theorem State.modPart_bridgeAwait (s : State) (p : Nat) (f : Part → Part) : (s.modPart p f).bridgeAwait = s.bridgeAwait := rfl
@[simp] theorem State.modPart_rateArm (s : State) (p : Nat) (f : Part → Part) : (s.modPart p f).rateArm = s.rateArm := rfl
@[simp] theorem State.modPart_calDue (s : State) (p : Nat) (f : Part → Part) : (s.modPart p f).calDue = s.calDue := rfl
@[simp] theorem State.modPart_thermal (s : State) (p : Nat) (f : Part → Part) : (s.modPart p f).thermal = s.thermal := rfl
@[simp] theorem State.modPart_dies (s : State) (p : Nat) (f : Part → Part) : (s.modPart p f).dies = s.dies := rfl
@[simp] theorem State.modPart_efx (s : State) (p : Nat) (f : Part → Part) : (s.modPart p f).efx = s.efx := rfl
@[simp] theorem State.modPart_efxStaged (s : State) (p : Nat) (f : Part → Part) : (s.modPart p f).efxStaged = s.efxStaged := rfl
@[simp] theorem State.modPart_efxArmed (s : State) (p : Nat) (f : Part → Part) : (s.modPart p f).efxArmed = s.efxArmed := rfl
@[simp] theorem State.modPart_efxLast (s : State) (p : Nat) (f : Part → Part) : (s.modPart p f).efxLast = s.efxLast := rfl
@[simp] theorem State.modPart_censusDue (s : State) (p : Nat) (f : Part → Part) : (s.modPart p f).censusDue = s.censusDue := rfl
@[simp] theorem State.modPart_censusOpen (s : State) (p : Nat) (f : Part → Part) : (s.modPart p f).censusOpen = s.censusOpen := rfl
@[simp] theorem State.modPart_resets (s : State) (p : Nat) (f : Part → Part) : (s.modPart p f).resets = s.resets := rfl
@[simp] theorem State.modPart_recovering (s : State) (p : Nat) (f : Part → Part) : (s.modPart p f).recovering = s.recovering := rfl
@[simp] theorem State.modPart_romUp (s : State) (p : Nat) (f : Part → Part) : (s.modPart p f).romUp = s.romUp := rfl
@[simp] theorem State.modPart_fwStaged (s : State) (p : Nat) (f : Part → Part) : (s.modPart p f).fwStaged = s.fwStaged := rfl
@[simp] theorem State.modPart_fwRestarting (s : State) (p : Nat) (f : Part → Part) : (s.modPart p f).fwRestarting = s.fwRestarting := rfl
@[simp] theorem State.modPart_fwTries (s : State) (p : Nat) (f : Part → Part) : (s.modPart p f).fwTries = s.fwTries := rfl
@[simp] theorem State.modPart_nor (s : State) (p : Nat) (f : Part → Part) : (s.modPart p f).nor = s.nor := rfl
@[simp] theorem State.modPart_norKept (s : State) (p : Nat) (f : Part → Part) : (s.modPart p f).norKept = s.norKept := rfl
@[simp] theorem State.modPart_norBusy (s : State) (p : Nat) (f : Part → Part) : (s.modPart p f).norBusy = s.norBusy := rfl
@[simp] theorem State.modPart_errPend (s : State) (p : Nat) (f : Part → Part) : (s.modPart p f).errPend = s.errPend := rfl
@[simp] theorem State.modPart_errLog (s : State) (p : Nat) (f : Part → Part) : (s.modPart p f).errLog = s.errLog := rfl
@[simp] theorem State.modPart_windows (s : State) (p : Nat) (f : Part → Part) : (s.modPart p f).windows = s.windows := rfl
@[simp] theorem State.modPart_leaked (s : State) (p : Nat) (f : Part → Part) : (s.modPart p f).leaked = s.leaked := rfl
@[simp] theorem State.modPart_colophonStopped (s : State) (p : Nat) (f : Part → Part) : (s.modPart p f).colophonStopped = s.colophonStopped := rfl
@[simp] theorem State.modPart_handover (s : State) (p : Nat) (f : Part → Part) : (s.modPart p f).handover = s.handover := rfl
@[simp] theorem State.modPart_erases (s : State) (p : Nat) (f : Part → Part) : (s.modPart p f).erases = s.erases := rfl
@[simp] theorem State.modPart_jtag (s : State) (p : Nat) (f : Part → Part) : (s.modPart p f).jtag = s.jtag := rfl
@[simp] theorem State.modPart_mgmt (s : State) (p : Nat) (f : Part → Part) : (s.modPart p f).mgmt = s.mgmt := rfl
@[simp] theorem State.modPart_spdm (s : State) (p : Nat) (f : Part → Part) : (s.modPart p f).spdm = s.spdm := rfl
@[simp] theorem State.modPart_out (s : State) (p : Nat) (f : Part → Part) : (s.modPart p f).out = s.out := rfl

@[simp] theorem State.modCore_pending (s : State) (k : Nat) (f : Core → Core) : (s.modCore k f).pending = s.pending := rfl
@[simp] theorem State.modCore_powered (s : State) (k : Nat) (f : Core → Core) : (s.modCore k f).powered = s.powered := rfl
@[simp] theorem State.modCore_free (s : State) (k : Nat) (f : Core → Core) : (s.modCore k f).free = s.free := rfl
@[simp] theorem State.modCore_tick (s : State) (k : Nat) (f : Core → Core) : (s.modCore k f).tick = s.tick := rfl
@[simp] theorem State.modCore_frac (s : State) (k : Nat) (f : Core → Core) : (s.modCore k f).frac = s.frac := rfl
@[simp] theorem State.modCore_ctl (s : State) (k : Nat) (f : Core → Core) : (s.modCore k f).ctl = s.ctl := rfl
@[simp] theorem State.modCore_mem (s : State) (k : Nat) (f : Core → Core) : (s.modCore k f).mem = s.mem := rfl
@[simp] theorem State.modCore_tiles (s : State) (k : Nat) (f : Core → Core) : (s.modCore k f).tiles = s.tiles := rfl
@[simp] theorem State.modCore_poison (s : State) (k : Nat) (f : Core → Core) : (s.modCore k f).poison = s.poison := rfl
@[simp] theorem State.modCore_lineQ (s : State) (k : Nat) (f : Core → Core) : (s.modCore k f).lineQ = s.lineQ := rfl
@[simp] theorem State.modCore_fuses (s : State) (k : Nat) (f : Core → Core) : (s.modCore k f).fuses = s.fuses := rfl
@[simp] theorem State.modCore_position (s : State) (k : Nat) (f : Core → Core) : (s.modCore k f).position = s.position := rfl
@[simp] theorem State.modCore_fenced (s : State) (k : Nat) (f : Core → Core) : (s.modCore k f).fenced = s.fenced := rfl
@[simp] theorem State.modCore_net (s : State) (k : Nat) (f : Core → Core) : (s.modCore k f).net = s.net := rfl
@[simp] theorem State.modCore_creditNet (s : State) (k : Nat) (f : Core → Core) : (s.modCore k f).creditNet = s.creditNet := rfl
@[simp] theorem State.modCore_slots (s : State) (k : Nat) (f : Core → Core) : (s.modCore k f).slots = s.slots := rfl
@[simp] theorem State.modCore_probes (s : State) (k : Nat) (f : Core → Core) : (s.modCore k f).probes = s.probes := rfl
@[simp] theorem State.modCore_badHops (s : State) (k : Nat) (f : Core → Core) : (s.modCore k f).badHops = s.badHops := rfl
@[simp] theorem State.modCore_loopHops (s : State) (k : Nat) (f : Core → Core) : (s.modCore k f).loopHops = s.loopHops := rfl
@[simp] theorem State.modCore_flagHold (s : State) (k : Nat) (f : Core → Core) : (s.modCore k f).flagHold = s.flagHold := rfl
@[simp] theorem State.modCore_rports (s : State) (k : Nat) (f : Core → Core) : (s.modCore k f).rports = s.rports := rfl
@[simp] theorem State.modCore_rnnTurn (s : State) (k : Nat) (f : Core → Core) : (s.modCore k f).rnnTurn = s.rnnTurn := rfl
@[simp] theorem State.modCore_syncDepth (s : State) (k : Nat) (f : Core → Core) : (s.modCore k f).syncDepth = s.syncDepth := rfl
@[simp] theorem State.modCore_parentPort (s : State) (k : Nat) (f : Core → Core) : (s.modCore k f).parentPort = s.parentPort := rfl
@[simp] theorem State.modCore_parentStage (s : State) (k : Nat) (f : Core → Core) : (s.modCore k f).parentStage = s.parentStage := rfl
@[simp] theorem State.modCore_alignedOnce (s : State) (k : Nat) (f : Core → Core) : (s.modCore k f).alignedOnce = s.alignedOnce := rfl
@[simp] theorem State.modCore_syncTick (s : State) (k : Nat) (f : Core → Core) : (s.modCore k f).syncTick = s.syncTick := rfl
@[simp] theorem State.modCore_patterns (s : State) (k : Nat) (f : Core → Core) : (s.modCore k f).patterns = s.patterns := rfl
@[simp] theorem State.modCore_parts (s : State) (k : Nat) (f : Core → Core) : (s.modCore k f).parts = s.parts := rfl
@[simp] theorem State.modCore_pports (s : State) (k : Nat) (f : Core → Core) : (s.modCore k f).pports = s.pports := rfl
@[simp] theorem State.modCore_irqs (s : State) (k : Nat) (f : Core → Core) : (s.modCore k f).irqs = s.irqs := rfl
@[simp] theorem State.modCore_delivers (s : State) (k : Nat) (f : Core → Core) : (s.modCore k f).delivers = s.delivers := rfl
@[simp] theorem State.modCore_aperture (s : State) (k : Nat) (f : Core → Core) : (s.modCore k f).aperture = s.aperture := rfl
@[simp] theorem State.modCore_bridgeTx (s : State) (k : Nat) (f : Core → Core) : (s.modCore k f).bridgeTx = s.bridgeTx := rfl
@[simp] theorem State.modCore_bridgeAwait (s : State) (k : Nat) (f : Core → Core) : (s.modCore k f).bridgeAwait = s.bridgeAwait := rfl
@[simp] theorem State.modCore_rateArm (s : State) (k : Nat) (f : Core → Core) : (s.modCore k f).rateArm = s.rateArm := rfl
@[simp] theorem State.modCore_calDue (s : State) (k : Nat) (f : Core → Core) : (s.modCore k f).calDue = s.calDue := rfl
@[simp] theorem State.modCore_thermal (s : State) (k : Nat) (f : Core → Core) : (s.modCore k f).thermal = s.thermal := rfl
@[simp] theorem State.modCore_dies (s : State) (k : Nat) (f : Core → Core) : (s.modCore k f).dies = s.dies := rfl
@[simp] theorem State.modCore_efx (s : State) (k : Nat) (f : Core → Core) : (s.modCore k f).efx = s.efx := rfl
@[simp] theorem State.modCore_efxStaged (s : State) (k : Nat) (f : Core → Core) : (s.modCore k f).efxStaged = s.efxStaged := rfl
@[simp] theorem State.modCore_efxArmed (s : State) (k : Nat) (f : Core → Core) : (s.modCore k f).efxArmed = s.efxArmed := rfl
@[simp] theorem State.modCore_efxLast (s : State) (k : Nat) (f : Core → Core) : (s.modCore k f).efxLast = s.efxLast := rfl
@[simp] theorem State.modCore_censusDue (s : State) (k : Nat) (f : Core → Core) : (s.modCore k f).censusDue = s.censusDue := rfl
@[simp] theorem State.modCore_censusOpen (s : State) (k : Nat) (f : Core → Core) : (s.modCore k f).censusOpen = s.censusOpen := rfl
@[simp] theorem State.modCore_resets (s : State) (k : Nat) (f : Core → Core) : (s.modCore k f).resets = s.resets := rfl
@[simp] theorem State.modCore_recovering (s : State) (k : Nat) (f : Core → Core) : (s.modCore k f).recovering = s.recovering := rfl
@[simp] theorem State.modCore_romUp (s : State) (k : Nat) (f : Core → Core) : (s.modCore k f).romUp = s.romUp := rfl
@[simp] theorem State.modCore_fwStaged (s : State) (k : Nat) (f : Core → Core) : (s.modCore k f).fwStaged = s.fwStaged := rfl
@[simp] theorem State.modCore_fwRestarting (s : State) (k : Nat) (f : Core → Core) : (s.modCore k f).fwRestarting = s.fwRestarting := rfl
@[simp] theorem State.modCore_fwTries (s : State) (k : Nat) (f : Core → Core) : (s.modCore k f).fwTries = s.fwTries := rfl
@[simp] theorem State.modCore_nor (s : State) (k : Nat) (f : Core → Core) : (s.modCore k f).nor = s.nor := rfl
@[simp] theorem State.modCore_norKept (s : State) (k : Nat) (f : Core → Core) : (s.modCore k f).norKept = s.norKept := rfl
@[simp] theorem State.modCore_norBusy (s : State) (k : Nat) (f : Core → Core) : (s.modCore k f).norBusy = s.norBusy := rfl
@[simp] theorem State.modCore_errPend (s : State) (k : Nat) (f : Core → Core) : (s.modCore k f).errPend = s.errPend := rfl
@[simp] theorem State.modCore_errLog (s : State) (k : Nat) (f : Core → Core) : (s.modCore k f).errLog = s.errLog := rfl
@[simp] theorem State.modCore_windows (s : State) (k : Nat) (f : Core → Core) : (s.modCore k f).windows = s.windows := rfl
@[simp] theorem State.modCore_leaked (s : State) (k : Nat) (f : Core → Core) : (s.modCore k f).leaked = s.leaked := rfl
@[simp] theorem State.modCore_colophonStopped (s : State) (k : Nat) (f : Core → Core) : (s.modCore k f).colophonStopped = s.colophonStopped := rfl
@[simp] theorem State.modCore_handover (s : State) (k : Nat) (f : Core → Core) : (s.modCore k f).handover = s.handover := rfl
@[simp] theorem State.modCore_erases (s : State) (k : Nat) (f : Core → Core) : (s.modCore k f).erases = s.erases := rfl
@[simp] theorem State.modCore_jtag (s : State) (k : Nat) (f : Core → Core) : (s.modCore k f).jtag = s.jtag := rfl
@[simp] theorem State.modCore_mgmt (s : State) (k : Nat) (f : Core → Core) : (s.modCore k f).mgmt = s.mgmt := rfl
@[simp] theorem State.modCore_spdm (s : State) (k : Nat) (f : Core → Core) : (s.modCore k f).spdm = s.spdm := rfl
@[simp] theorem State.modCore_out (s : State) (k : Nat) (f : Core → Core) : (s.modCore k f).out = s.out := rfl

@[simp] theorem State.setFld_pending (s : State) (a lo w x : Nat) : (s.setFld a lo w x).pending = s.pending := rfl
@[simp] theorem State.setFld_powered (s : State) (a lo w x : Nat) : (s.setFld a lo w x).powered = s.powered := rfl
@[simp] theorem State.setFld_free (s : State) (a lo w x : Nat) : (s.setFld a lo w x).free = s.free := rfl
@[simp] theorem State.setFld_tick (s : State) (a lo w x : Nat) : (s.setFld a lo w x).tick = s.tick := rfl
@[simp] theorem State.setFld_frac (s : State) (a lo w x : Nat) : (s.setFld a lo w x).frac = s.frac := rfl
@[simp] theorem State.setFld_mem (s : State) (a lo w x : Nat) : (s.setFld a lo w x).mem = s.mem := rfl
@[simp] theorem State.setFld_tiles (s : State) (a lo w x : Nat) : (s.setFld a lo w x).tiles = s.tiles := rfl
@[simp] theorem State.setFld_poison (s : State) (a lo w x : Nat) : (s.setFld a lo w x).poison = s.poison := rfl
@[simp] theorem State.setFld_cores (s : State) (a lo w x : Nat) : (s.setFld a lo w x).cores = s.cores := rfl
@[simp] theorem State.setFld_lineQ (s : State) (a lo w x : Nat) : (s.setFld a lo w x).lineQ = s.lineQ := rfl
@[simp] theorem State.setFld_fuses (s : State) (a lo w x : Nat) : (s.setFld a lo w x).fuses = s.fuses := rfl
@[simp] theorem State.setFld_position (s : State) (a lo w x : Nat) : (s.setFld a lo w x).position = s.position := rfl
@[simp] theorem State.setFld_fenced (s : State) (a lo w x : Nat) : (s.setFld a lo w x).fenced = s.fenced := rfl
@[simp] theorem State.setFld_net (s : State) (a lo w x : Nat) : (s.setFld a lo w x).net = s.net := rfl
@[simp] theorem State.setFld_creditNet (s : State) (a lo w x : Nat) : (s.setFld a lo w x).creditNet = s.creditNet := rfl
@[simp] theorem State.setFld_slots (s : State) (a lo w x : Nat) : (s.setFld a lo w x).slots = s.slots := rfl
@[simp] theorem State.setFld_probes (s : State) (a lo w x : Nat) : (s.setFld a lo w x).probes = s.probes := rfl
@[simp] theorem State.setFld_badHops (s : State) (a lo w x : Nat) : (s.setFld a lo w x).badHops = s.badHops := rfl
@[simp] theorem State.setFld_loopHops (s : State) (a lo w x : Nat) : (s.setFld a lo w x).loopHops = s.loopHops := rfl
@[simp] theorem State.setFld_flagHold (s : State) (a lo w x : Nat) : (s.setFld a lo w x).flagHold = s.flagHold := rfl
@[simp] theorem State.setFld_rports (s : State) (a lo w x : Nat) : (s.setFld a lo w x).rports = s.rports := rfl
@[simp] theorem State.setFld_rnnTurn (s : State) (a lo w x : Nat) : (s.setFld a lo w x).rnnTurn = s.rnnTurn := rfl
@[simp] theorem State.setFld_syncDepth (s : State) (a lo w x : Nat) : (s.setFld a lo w x).syncDepth = s.syncDepth := rfl
@[simp] theorem State.setFld_parentPort (s : State) (a lo w x : Nat) : (s.setFld a lo w x).parentPort = s.parentPort := rfl
@[simp] theorem State.setFld_parentStage (s : State) (a lo w x : Nat) : (s.setFld a lo w x).parentStage = s.parentStage := rfl
@[simp] theorem State.setFld_alignedOnce (s : State) (a lo w x : Nat) : (s.setFld a lo w x).alignedOnce = s.alignedOnce := rfl
@[simp] theorem State.setFld_syncTick (s : State) (a lo w x : Nat) : (s.setFld a lo w x).syncTick = s.syncTick := rfl
@[simp] theorem State.setFld_patterns (s : State) (a lo w x : Nat) : (s.setFld a lo w x).patterns = s.patterns := rfl
@[simp] theorem State.setFld_parts (s : State) (a lo w x : Nat) : (s.setFld a lo w x).parts = s.parts := rfl
@[simp] theorem State.setFld_pports (s : State) (a lo w x : Nat) : (s.setFld a lo w x).pports = s.pports := rfl
@[simp] theorem State.setFld_irqs (s : State) (a lo w x : Nat) : (s.setFld a lo w x).irqs = s.irqs := rfl
@[simp] theorem State.setFld_delivers (s : State) (a lo w x : Nat) : (s.setFld a lo w x).delivers = s.delivers := rfl
@[simp] theorem State.setFld_aperture (s : State) (a lo w x : Nat) : (s.setFld a lo w x).aperture = s.aperture := rfl
@[simp] theorem State.setFld_bridgeTx (s : State) (a lo w x : Nat) : (s.setFld a lo w x).bridgeTx = s.bridgeTx := rfl
@[simp] theorem State.setFld_bridgeAwait (s : State) (a lo w x : Nat) : (s.setFld a lo w x).bridgeAwait = s.bridgeAwait := rfl
@[simp] theorem State.setFld_rateArm (s : State) (a lo w x : Nat) : (s.setFld a lo w x).rateArm = s.rateArm := rfl
@[simp] theorem State.setFld_calDue (s : State) (a lo w x : Nat) : (s.setFld a lo w x).calDue = s.calDue := rfl
@[simp] theorem State.setFld_thermal (s : State) (a lo w x : Nat) : (s.setFld a lo w x).thermal = s.thermal := rfl
@[simp] theorem State.setFld_dies (s : State) (a lo w x : Nat) : (s.setFld a lo w x).dies = s.dies := rfl
@[simp] theorem State.setFld_efx (s : State) (a lo w x : Nat) : (s.setFld a lo w x).efx = s.efx := rfl
@[simp] theorem State.setFld_efxStaged (s : State) (a lo w x : Nat) : (s.setFld a lo w x).efxStaged = s.efxStaged := rfl
@[simp] theorem State.setFld_efxArmed (s : State) (a lo w x : Nat) : (s.setFld a lo w x).efxArmed = s.efxArmed := rfl
@[simp] theorem State.setFld_efxLast (s : State) (a lo w x : Nat) : (s.setFld a lo w x).efxLast = s.efxLast := rfl
@[simp] theorem State.setFld_censusDue (s : State) (a lo w x : Nat) : (s.setFld a lo w x).censusDue = s.censusDue := rfl
@[simp] theorem State.setFld_censusOpen (s : State) (a lo w x : Nat) : (s.setFld a lo w x).censusOpen = s.censusOpen := rfl
@[simp] theorem State.setFld_resets (s : State) (a lo w x : Nat) : (s.setFld a lo w x).resets = s.resets := rfl
@[simp] theorem State.setFld_recovering (s : State) (a lo w x : Nat) : (s.setFld a lo w x).recovering = s.recovering := rfl
@[simp] theorem State.setFld_romUp (s : State) (a lo w x : Nat) : (s.setFld a lo w x).romUp = s.romUp := rfl
@[simp] theorem State.setFld_fwStaged (s : State) (a lo w x : Nat) : (s.setFld a lo w x).fwStaged = s.fwStaged := rfl
@[simp] theorem State.setFld_fwRestarting (s : State) (a lo w x : Nat) : (s.setFld a lo w x).fwRestarting = s.fwRestarting := rfl
@[simp] theorem State.setFld_fwTries (s : State) (a lo w x : Nat) : (s.setFld a lo w x).fwTries = s.fwTries := rfl
@[simp] theorem State.setFld_nor (s : State) (a lo w x : Nat) : (s.setFld a lo w x).nor = s.nor := rfl
@[simp] theorem State.setFld_norKept (s : State) (a lo w x : Nat) : (s.setFld a lo w x).norKept = s.norKept := rfl
@[simp] theorem State.setFld_norBusy (s : State) (a lo w x : Nat) : (s.setFld a lo w x).norBusy = s.norBusy := rfl
@[simp] theorem State.setFld_errPend (s : State) (a lo w x : Nat) : (s.setFld a lo w x).errPend = s.errPend := rfl
@[simp] theorem State.setFld_errLog (s : State) (a lo w x : Nat) : (s.setFld a lo w x).errLog = s.errLog := rfl
@[simp] theorem State.setFld_windows (s : State) (a lo w x : Nat) : (s.setFld a lo w x).windows = s.windows := rfl
@[simp] theorem State.setFld_leaked (s : State) (a lo w x : Nat) : (s.setFld a lo w x).leaked = s.leaked := rfl
@[simp] theorem State.setFld_colophonStopped (s : State) (a lo w x : Nat) : (s.setFld a lo w x).colophonStopped = s.colophonStopped := rfl
@[simp] theorem State.setFld_handover (s : State) (a lo w x : Nat) : (s.setFld a lo w x).handover = s.handover := rfl
@[simp] theorem State.setFld_erases (s : State) (a lo w x : Nat) : (s.setFld a lo w x).erases = s.erases := rfl
@[simp] theorem State.setFld_jtag (s : State) (a lo w x : Nat) : (s.setFld a lo w x).jtag = s.jtag := rfl
@[simp] theorem State.setFld_mgmt (s : State) (a lo w x : Nat) : (s.setFld a lo w x).mgmt = s.mgmt := rfl
@[simp] theorem State.setFld_spdm (s : State) (a lo w x : Nat) : (s.setFld a lo w x).spdm = s.spdm := rfl
@[simp] theorem State.setFld_out (s : State) (a lo w x : Nat) : (s.setFld a lo w x).out = s.out := rfl

@[simp] theorem State.setByte_pending (s : State) (a : Nat) (b : Byte) : (s.setByte a b).pending = s.pending := rfl
@[simp] theorem State.setByte_powered (s : State) (a : Nat) (b : Byte) : (s.setByte a b).powered = s.powered := rfl
@[simp] theorem State.setByte_free (s : State) (a : Nat) (b : Byte) : (s.setByte a b).free = s.free := rfl
@[simp] theorem State.setByte_tick (s : State) (a : Nat) (b : Byte) : (s.setByte a b).tick = s.tick := rfl
@[simp] theorem State.setByte_frac (s : State) (a : Nat) (b : Byte) : (s.setByte a b).frac = s.frac := rfl
@[simp] theorem State.setByte_ctl (s : State) (a : Nat) (b : Byte) : (s.setByte a b).ctl = s.ctl := rfl
@[simp] theorem State.setByte_tiles (s : State) (a : Nat) (b : Byte) : (s.setByte a b).tiles = s.tiles := rfl
@[simp] theorem State.setByte_poison (s : State) (a : Nat) (b : Byte) : (s.setByte a b).poison = s.poison := rfl
@[simp] theorem State.setByte_cores (s : State) (a : Nat) (b : Byte) : (s.setByte a b).cores = s.cores := rfl
@[simp] theorem State.setByte_lineQ (s : State) (a : Nat) (b : Byte) : (s.setByte a b).lineQ = s.lineQ := rfl
@[simp] theorem State.setByte_fuses (s : State) (a : Nat) (b : Byte) : (s.setByte a b).fuses = s.fuses := rfl
@[simp] theorem State.setByte_position (s : State) (a : Nat) (b : Byte) : (s.setByte a b).position = s.position := rfl
@[simp] theorem State.setByte_fenced (s : State) (a : Nat) (b : Byte) : (s.setByte a b).fenced = s.fenced := rfl
@[simp] theorem State.setByte_net (s : State) (a : Nat) (b : Byte) : (s.setByte a b).net = s.net := rfl
@[simp] theorem State.setByte_creditNet (s : State) (a : Nat) (b : Byte) : (s.setByte a b).creditNet = s.creditNet := rfl
@[simp] theorem State.setByte_slots (s : State) (a : Nat) (b : Byte) : (s.setByte a b).slots = s.slots := rfl
@[simp] theorem State.setByte_probes (s : State) (a : Nat) (b : Byte) : (s.setByte a b).probes = s.probes := rfl
@[simp] theorem State.setByte_badHops (s : State) (a : Nat) (b : Byte) : (s.setByte a b).badHops = s.badHops := rfl
@[simp] theorem State.setByte_loopHops (s : State) (a : Nat) (b : Byte) : (s.setByte a b).loopHops = s.loopHops := rfl
@[simp] theorem State.setByte_flagHold (s : State) (a : Nat) (b : Byte) : (s.setByte a b).flagHold = s.flagHold := rfl
@[simp] theorem State.setByte_rports (s : State) (a : Nat) (b : Byte) : (s.setByte a b).rports = s.rports := rfl
@[simp] theorem State.setByte_rnnTurn (s : State) (a : Nat) (b : Byte) : (s.setByte a b).rnnTurn = s.rnnTurn := rfl
@[simp] theorem State.setByte_syncDepth (s : State) (a : Nat) (b : Byte) : (s.setByte a b).syncDepth = s.syncDepth := rfl
@[simp] theorem State.setByte_parentPort (s : State) (a : Nat) (b : Byte) : (s.setByte a b).parentPort = s.parentPort := rfl
@[simp] theorem State.setByte_parentStage (s : State) (a : Nat) (b : Byte) : (s.setByte a b).parentStage = s.parentStage := rfl
@[simp] theorem State.setByte_alignedOnce (s : State) (a : Nat) (b : Byte) : (s.setByte a b).alignedOnce = s.alignedOnce := rfl
@[simp] theorem State.setByte_syncTick (s : State) (a : Nat) (b : Byte) : (s.setByte a b).syncTick = s.syncTick := rfl
@[simp] theorem State.setByte_patterns (s : State) (a : Nat) (b : Byte) : (s.setByte a b).patterns = s.patterns := rfl
@[simp] theorem State.setByte_parts (s : State) (a : Nat) (b : Byte) : (s.setByte a b).parts = s.parts := rfl
@[simp] theorem State.setByte_pports (s : State) (a : Nat) (b : Byte) : (s.setByte a b).pports = s.pports := rfl
@[simp] theorem State.setByte_irqs (s : State) (a : Nat) (b : Byte) : (s.setByte a b).irqs = s.irqs := rfl
@[simp] theorem State.setByte_delivers (s : State) (a : Nat) (b : Byte) : (s.setByte a b).delivers = s.delivers := rfl
@[simp] theorem State.setByte_aperture (s : State) (a : Nat) (b : Byte) : (s.setByte a b).aperture = s.aperture := rfl
@[simp] theorem State.setByte_bridgeTx (s : State) (a : Nat) (b : Byte) : (s.setByte a b).bridgeTx = s.bridgeTx := rfl
@[simp] theorem State.setByte_bridgeAwait (s : State) (a : Nat) (b : Byte) : (s.setByte a b).bridgeAwait = s.bridgeAwait := rfl
@[simp] theorem State.setByte_rateArm (s : State) (a : Nat) (b : Byte) : (s.setByte a b).rateArm = s.rateArm := rfl
@[simp] theorem State.setByte_calDue (s : State) (a : Nat) (b : Byte) : (s.setByte a b).calDue = s.calDue := rfl
@[simp] theorem State.setByte_thermal (s : State) (a : Nat) (b : Byte) : (s.setByte a b).thermal = s.thermal := rfl
@[simp] theorem State.setByte_dies (s : State) (a : Nat) (b : Byte) : (s.setByte a b).dies = s.dies := rfl
@[simp] theorem State.setByte_efx (s : State) (a : Nat) (b : Byte) : (s.setByte a b).efx = s.efx := rfl
@[simp] theorem State.setByte_efxStaged (s : State) (a : Nat) (b : Byte) : (s.setByte a b).efxStaged = s.efxStaged := rfl
@[simp] theorem State.setByte_efxArmed (s : State) (a : Nat) (b : Byte) : (s.setByte a b).efxArmed = s.efxArmed := rfl
@[simp] theorem State.setByte_efxLast (s : State) (a : Nat) (b : Byte) : (s.setByte a b).efxLast = s.efxLast := rfl
@[simp] theorem State.setByte_censusDue (s : State) (a : Nat) (b : Byte) : (s.setByte a b).censusDue = s.censusDue := rfl
@[simp] theorem State.setByte_censusOpen (s : State) (a : Nat) (b : Byte) : (s.setByte a b).censusOpen = s.censusOpen := rfl
@[simp] theorem State.setByte_resets (s : State) (a : Nat) (b : Byte) : (s.setByte a b).resets = s.resets := rfl
@[simp] theorem State.setByte_recovering (s : State) (a : Nat) (b : Byte) : (s.setByte a b).recovering = s.recovering := rfl
@[simp] theorem State.setByte_romUp (s : State) (a : Nat) (b : Byte) : (s.setByte a b).romUp = s.romUp := rfl
@[simp] theorem State.setByte_fwStaged (s : State) (a : Nat) (b : Byte) : (s.setByte a b).fwStaged = s.fwStaged := rfl
@[simp] theorem State.setByte_fwRestarting (s : State) (a : Nat) (b : Byte) : (s.setByte a b).fwRestarting = s.fwRestarting := rfl
@[simp] theorem State.setByte_fwTries (s : State) (a : Nat) (b : Byte) : (s.setByte a b).fwTries = s.fwTries := rfl
@[simp] theorem State.setByte_nor (s : State) (a : Nat) (b : Byte) : (s.setByte a b).nor = s.nor := rfl
@[simp] theorem State.setByte_norKept (s : State) (a : Nat) (b : Byte) : (s.setByte a b).norKept = s.norKept := rfl
@[simp] theorem State.setByte_norBusy (s : State) (a : Nat) (b : Byte) : (s.setByte a b).norBusy = s.norBusy := rfl
@[simp] theorem State.setByte_errPend (s : State) (a : Nat) (b : Byte) : (s.setByte a b).errPend = s.errPend := rfl
@[simp] theorem State.setByte_errLog (s : State) (a : Nat) (b : Byte) : (s.setByte a b).errLog = s.errLog := rfl
@[simp] theorem State.setByte_windows (s : State) (a : Nat) (b : Byte) : (s.setByte a b).windows = s.windows := rfl
@[simp] theorem State.setByte_leaked (s : State) (a : Nat) (b : Byte) : (s.setByte a b).leaked = s.leaked := rfl
@[simp] theorem State.setByte_colophonStopped (s : State) (a : Nat) (b : Byte) : (s.setByte a b).colophonStopped = s.colophonStopped := rfl
@[simp] theorem State.setByte_handover (s : State) (a : Nat) (b : Byte) : (s.setByte a b).handover = s.handover := rfl
@[simp] theorem State.setByte_erases (s : State) (a : Nat) (b : Byte) : (s.setByte a b).erases = s.erases := rfl
@[simp] theorem State.setByte_jtag (s : State) (a : Nat) (b : Byte) : (s.setByte a b).jtag = s.jtag := rfl
@[simp] theorem State.setByte_mgmt (s : State) (a : Nat) (b : Byte) : (s.setByte a b).mgmt = s.mgmt := rfl
@[simp] theorem State.setByte_spdm (s : State) (a : Nat) (b : Byte) : (s.setByte a b).spdm = s.spdm := rfl
@[simp] theorem State.setByte_out (s : State) (a : Nat) (b : Byte) : (s.setByte a b).out = s.out := rfl

/-! ## What an update writes -/

theorem State.modCore_eq (s : State) (k : Nat) (f : Core → Core) : s.modCore k f = s.setCore k (f (s.core k)) := rfl

@[simp] theorem State.core_setCore (s : State) (k : Nat) (c : Core) : (s.setCore k c).core k = c := Tbl.get_set_self ..
theorem State.core_setCore_ne (s : State) {k j : Nat} (c : Core) (h : j ≠ k) : (s.setCore k c).core j = s.core j :=
  Tbl.get_set_ne _ _ _ h
@[simp] theorem State.core_modCore (s : State) (k : Nat) (f : Core → Core) : (s.modCore k f).core k = f (s.core k) :=
  Tbl.get_set_self ..
theorem State.core_modCore_ne (s : State) {k j : Nat} (f : Core → Core) (h : j ≠ k) : (s.modCore k f).core j = s.core j :=
  Tbl.get_set_ne _ _ _ h
@[simp] theorem State.rd_wr (s : State) (a : Nat) (v : Word) : (s.wr a v).rd a = v := Tbl.get_set_self ..
theorem State.rd_wr_ne (s : State) {a b : Nat} (v : Word) (h : b ≠ a) : (s.wr a v).rd b = s.rd b := Tbl.get_set_ne _ _ _ h
@[simp] theorem State.part_modPart (s : State) (p : Nat) (f : Part → Part) : (s.modPart p f).part p = f (s.part p) :=
  Tbl.get_set_self ..
theorem State.part_modPart_ne (s : State) {p q : Nat} (f : Part → Part) (h : q ≠ p) : (s.modPart p f).part q = s.part q :=
  Tbl.get_set_ne _ _ _ h
@[simp] theorem State.die_modDie (s : State) (d : Nat) (f : DieBeat → DieBeat) : (s.modDie d f).die d = f (s.die d) :=
  Tbl.get_set_self ..
@[simp] theorem State.byte_setByte (s : State) (a : Nat) (b : Byte) : (s.setByte a b).byte a = b := Tbl.get_set_self ..
@[simp] theorem State.poisoned_setPoison (s : State) (k space off : Nat) (b : Bool) :
    (s.setPoison k space off b).poisoned k space off = b := Tbl.get_set_self ..

/-! ## A register of the core window, the pools -/

@[simp] theorem Core.pool_setPool (c : Core) (n : Nat) (p : Pool) : (c.setPool n p).pool n = p := Tbl.get_set_self ..
theorem Core.pool_setPool_ne (c : Core) {n m : Nat} (p : Pool) (h : m ≠ n) : (c.setPool n p).pool m = c.pool m :=
  Tbl.get_set_ne _ _ _ h

end Sys2Proof.Machine
end

