-- ==== Sys2Proof/Laws/Compositor.lean ====
section
/-! SUPPORT. The compositor: what a fetch leaves, what writing a register leaves, what going on leaves. -/

namespace Sys2Proof.Machine

/-! ## Registers -/

@[simp] theorem Core.rdS_zero (c : Core) : c.rdS 0 = 0 := rfl

theorem Core.rdS_wrS (c : Core) (rd r : BitVec 5) (v : Word) :
    (c.wrS rd v).rdS r = if r = rd ∧ r ≠ 0 then v else c.rdS r := by
  unfold Core.wrS Core.rdS
  by_cases h0 : r = 0
  · simp [h0]
  · by_cases hd : rd = 0
    · subst hd; simp
    · simp only [hd, if_false, h0, Tbl.get_set, BitVec.toNat_inj]
      by_cases h : r = rd <;> simp_all

@[simp] theorem Core.wrS_pred (c : Core) (rd : BitVec 5) (v : Word) : (c.wrS rd v).pred = c.pred := by
  unfold Core.wrS; split <;> rfl
@[simp] theorem Core.wrS_lc (c : Core) (rd : BitVec 5) (v : Word) : (c.wrS rd v).lc = c.lc := by
  unfold Core.wrS; split <;> rfl
@[simp] theorem Core.wrS_loops (c : Core) (rd : BitVec 5) (v : Word) : (c.wrS rd v).loops = c.loops := by
  unfold Core.wrS; split <;> rfl
@[simp] theorem Core.wrS_pc (c : Core) (rd : BitVec 5) (v : Word) : (c.wrS rd v).pc = c.pc := by
  unfold Core.wrS; split <;> rfl
@[simp] theorem Core.wrS_retired (c : Core) (rd : BitVec 5) (v : Word) : (c.wrS rd v).retired = c.retired := by
  unfold Core.wrS; split <;> rfl

/-- Bit p of a predicate word after a predicate is set. -/
theorem pred_set (x : BitVec 8) (pd p : BitVec 3) (b : Bool) :
    (if b then x ||| (1#8 <<< pd.toNat) else x &&& ~~~(1#8 <<< pd.toNat)).getLsbD p.toNat =
      if p = pd then b else x.getLsbD p.toNat := by
  have hp : p.toNat < 8 := p.isLt
  have hd : pd.toNat < 8 := pd.isLt
  have e : p = pd ↔ p.toNat = pd.toNat := BitVec.toNat_inj.symm
  by_cases h : p.toNat = pd.toNat
  · have h' := e.2 h
    cases b <;> simp [h', hd]
  · have h' : ¬ p = pd := fun x => h (e.1 x)
    cases b <;> simp [h', hp] <;> intros <;> omega

theorem Core.rdP_wrP (c : Core) (pd p : BitVec 3) (b : Bool) :
    (c.wrP pd b).rdP p = if p = pd ∧ p ≠ 0 then b else c.rdP p := by
  unfold Core.wrP Core.rdP
  by_cases h : pd = 0
  · subst h; by_cases hp : p = 0 <;> simp [hp]
  · simp only [h, if_false, pred_set]
    by_cases hp : p = 0
    · simp [hp]
    · by_cases e : p = pd <;> simp_all

@[simp] theorem Core.wrP_sreg (c : Core) (pd : BitVec 3) (b : Bool) : (c.wrP pd b).sreg = c.sreg := by
  unfold Core.wrP; split <;> rfl
@[simp] theorem Core.wrP_lc (c : Core) (pd : BitVec 3) (b : Bool) : (c.wrP pd b).lc = c.lc := by
  unfold Core.wrP; split <;> rfl
@[simp] theorem Core.wrP_loops (c : Core) (pd : BitVec 3) (b : Bool) : (c.wrP pd b).loops = c.loops := by
  unfold Core.wrP; split <;> rfl
@[simp] theorem Core.wrP_pc (c : Core) (pd : BitVec 3) (b : Bool) : (c.wrP pd b).pc = c.pc := by
  unfold Core.wrP; split <;> rfl
@[simp] theorem Core.wrP_retired (c : Core) (pd : BitVec 3) (b : Bool) : (c.wrP pd b).retired = c.retired := by
  unfold Core.wrP; split <;> rfl

/-! ## `SameBut` is closed under what instructions do -/

theorem Core.SameBut.refl (c : Core) : c.SameBut c := rfl
theorem Core.SameBut.trans {c d e : Core} (h : c.SameBut d) (h' : d.SameBut e) : c.SameBut e := by
  unfold Core.SameBut at *; rw [h'] ; rw [h]
theorem Core.sameBut_wrS (c : Core) (rd : BitVec 5) (v : Word) : c.SameBut (c.wrS rd v) := by
  unfold Core.wrS; split <;> rfl
theorem Core.sameBut_wrP (c : Core) (pd : BitVec 3) (b : Bool) : c.SameBut (c.wrP pd b) := by
  unfold Core.wrP; split <;> rfl
theorem Core.sameBut_fetched (c : Core) : c.SameBut c.fetched := by
  unfold Core.fetched Core.want; split <;> rfl
theorem Core.sameBut_goOn (c : Core) (a : Nat) : c.SameBut (c.goOn a) := rfl

@[simp] theorem Core.fetched_sreg (c : Core) : c.fetched.sreg = c.sreg := by unfold Core.fetched Core.want; split <;> rfl
@[simp] theorem Core.fetched_pred (c : Core) : c.fetched.pred = c.pred := by unfold Core.fetched Core.want; split <;> rfl
@[simp] theorem Core.fetched_lc (c : Core) : c.fetched.lc = c.lc := by unfold Core.fetched Core.want; split <;> rfl
@[simp] theorem Core.fetched_loops (c : Core) : c.fetched.loops = c.loops := by
  unfold Core.fetched Core.want; split <;> rfl
@[simp] theorem Core.fetched_pc (c : Core) : c.fetched.pc = c.pc := by unfold Core.fetched Core.want; split <;> rfl
@[simp] theorem Core.fetched_retired (c : Core) : c.fetched.retired = c.retired := by
  unfold Core.fetched Core.want; split <;> rfl
@[simp] theorem Core.fetched_snap (c : Core) : c.fetched.snap = c.snap := by unfold Core.fetched Core.want; split <;> rfl
@[simp] theorem Core.fetched_flags (c : Core) : c.fetched.flags = c.flags := by
  unfold Core.fetched Core.want; split <;> rfl
@[simp] theorem Core.fetched_rdS (c : Core) (r : BitVec 5) : c.fetched.rdS r = c.rdS r := by simp [Core.rdS]
@[simp] theorem Core.fetched_rdP (c : Core) (p : BitVec 3) : c.fetched.rdP p = c.rdP p := by simp [Core.rdP]
@[simp] theorem Core.fetched_rdLc (c : Core) (n : BitVec 2) : c.fetched.rdLc n = c.rdLc n := by simp [Core.rdLc]
@[simp] theorem Core.fetched_flag (c : Core) (f : Nat) : c.fetched.flag f = c.flag f := by simp [Core.flag]
@[simp] theorem Core.fetched_literOf (c : Core) (l : Nat) : c.fetched.literOf l = c.literOf l := by simp [Core.literOf]
@[simp] theorem Core.goOn_rdS (c : Core) (a : Nat) (r : BitVec 5) : (c.goOn a).rdS r = c.rdS r := rfl
@[simp] theorem Core.goOn_rdP (c : Core) (a : Nat) (p : BitVec 3) : (c.goOn a).rdP p = c.rdP p := rfl
@[simp] theorem Core.goOn_pred (c : Core) (a : Nat) : (c.goOn a).pred = c.pred := rfl
@[simp] theorem Core.goOn_lc (c : Core) (a : Nat) : (c.goOn a).lc = c.lc := rfl
@[simp] theorem Core.goOn_sreg (c : Core) (a : Nat) : (c.goOn a).sreg = c.sreg := rfl

/-! ## One instruction -/

/-- What a fetched instruction does: its effect on the core as the fetch left it, retired, and its core's requests for lines
queued. -/
theorem State.instr_fetches {s : State} {k : Nat} {w : BitVec 32} (h : s.Fetches k w) (again : Stall → Bool) (act : State → IRes) :
    s.instr k w true again act =
      ((s.modCore k Core.fetched).retire k (act (s.modCore k Core.fetched))).queueLines k := by
  obtain ⟨h1, h2, h3, bs, h4, h5⟩ := h
  have hm : s.fetchMatch k bs w = true := by simp [State.fetchMatch, h5]
  have hr : (s.core k).ready again = true := by
    simp only [Core.ready, noStall, Bool.or_false, Bool.and_eq_true, decide_eq_true_eq] at h2 ⊢; simp [h2]
  simp [State.instr, h1, hr, h3, h4, hm]

/-- A state with one core replaced differs in that core alone. -/
theorem State.onlyCore_setCore (s : State) (k : Nat) (c : Core) : s.OnlyCore k (s.setCore k c) :=
  ⟨rfl, fun _ h => State.core_setCore_ne s c h, [], by simp [State.setCore], by simp⟩

/-- Queueing a core's requests for lines changes no core, and adds requests of that core alone. -/
theorem State.onlyCore_queueLines (s : State) (k : Nat) : s.OnlyCore k (s.queueLines k) :=
  ⟨rfl, fun _ _ => rfl, _, rfl, fun e h => by obtain ⟨l, -, rfl⟩ := List.mem_map.1 h; rfl⟩

@[simp] theorem State.core_queueLines (s : State) (k j : Nat) : (s.queueLines k).core j = s.core j := rfl

theorem State.OnlyCore.trans {s t u : State} {k : Nat} (h : s.OnlyCore k t) (h' : t.OnlyCore k u) : s.OnlyCore k u := by
  obtain ⟨e, hj, ls, hl, hk⟩ := h
  obtain ⟨e', hj', ls', hl', hk'⟩ := h'
  refine ⟨?_, fun j h => (hj' j h).trans (hj j h), ls ++ ls', by rw [hl', hl, List.append_assoc], fun x hx => ?_⟩
  · rw [e', e]
  · rcases List.mem_append.1 hx with h | h
    exacts [hk x h, hk' x h]

/-- An instruction that changes its core by `f` and goes on. -/
theorem State.instr_onCore {s : State} {k : Nat} {w : BitVec 32} (h : s.Fetches k w) (again : Stall → Bool)
    (act : State → IRes) (f : Core → Core) (ha : act (s.modCore k Core.fetched) = (s.modCore k Core.fetched).onCore k f) :
    s.OnlyCore k (s.instr k w true again act) ∧
      (s.instr k w true again act).core k = (f (s.core k).fetched).goOn (s.core k).pc.toNat := by
  rw [State.instr_fetches h, ha]
  simp only [State.onCore, State.retire, State.core_modCore, Core.fetched_pc]
  exact ⟨(((State.onlyCore_setCore s k _).trans (State.onlyCore_setCore _ k _)).trans (State.onlyCore_setCore _ k _)).trans
    (State.onlyCore_queueLines _ k), by simp⟩

end Sys2Proof.Machine
end

