-- ==== Sys2Proof/Laws/Regs.lean ====
section
/-! SUPPORT. What a field of a word, of a header and of a register reads as after a field was replaced. -/

namespace Sys2Proof.Machine

theorem bits_eq (x lo w : Nat) : bits x lo w = x / 2 ^ lo % 2 ^ w := by rw [bits, Nat.shiftRight_eq_div_pow]

theorem testBit_bits (x lo w i : Nat) : (bits x lo w).testBit i = (decide (i < w) && x.testBit (lo + i)) := by
  rw [bits_eq, Nat.testBit_mod_two_pow, Nat.testBit_div_two_pow, Nat.add_comm]

theorem bits_lt (x lo w : Nat) : bits x lo w < 2 ^ w := by rw [bits_eq]; exact Nat.mod_lt _ (Nat.two_pow_pos w)

theorem testBit_field (lo w x i : Nat) : (x % 2 ^ w * 2 ^ lo).testBit i = (decide (lo ≤ i ∧ i < lo + w) && x.testBit (i - lo)) := by
  rw [Nat.testBit_mul_two_pow, Nat.testBit_mod_two_pow]
  by_cases h : lo ≤ i
  · have : (i - lo < w) ↔ (i < lo + w) := by omega
    simp [h, this]
  · simp [h]

theorem testBit_putF (v : Word) (lo w x i : Nat) : (putF v lo w x).toNat.testBit i =
    (decide (i < 64) && if lo ≤ i ∧ i < lo + w then x.testBit (i - lo) else v.toNat.testBit i) := by
  by_cases h64 : i < 64
  · have e1 : (2 ^ w - 1) * 2 ^ lo = (2 ^ w - 1) % 2 ^ w * 2 ^ lo := by rw [Nat.mod_eq_of_lt (by have := Nat.two_pow_pos w; omega)]
    simp only [putF, maskF, BitVec.toNat_or, BitVec.toNat_and, BitVec.toNat_not, BitVec.toNat_ofNat, Nat.testBit_or, Nat.testBit_and,
      Nat.testBit_mod_two_pow, h64, decide_true, Bool.true_and, testBit_field]
    rw [show 2 ^ 64 - 1 - (2 ^ w - 1) * 2 ^ lo % 2 ^ 64 = 2 ^ 64 - ((2 ^ w - 1) * 2 ^ lo % 2 ^ 64 + 1) by omega,
      Nat.testBit_two_pow_sub_succ (Nat.mod_lt _ (Nat.two_pow_pos 64)), Nat.testBit_mod_two_pow, e1, testBit_field,
      Nat.testBit_two_pow_sub_one]
    by_cases h : lo ≤ i ∧ i < lo + w
    · have hb : i - lo < w := by omega
      simp [h, h64, hb]
    · simp [h, h64]
  · have : (putF v lo w x).toNat < 2 ^ i := lt_of_lt_of_le (putF v lo w x).isLt (Nat.pow_le_pow_right (by omega) (by omega))
    simp [h64, Nat.testBit_lt_two_pow this]

/-- A field reads as what was put there. -/
theorem getF_putF (v : Word) (lo w x : Nat) (h : lo + w ≤ 64) : getF (putF v lo w x) lo w = x % 2 ^ w := by
  apply Nat.eq_of_testBit_eq
  intro i
  rw [getF, testBit_bits, testBit_putF, Nat.testBit_mod_two_pow]
  by_cases hi : i < w
  · have h1 : lo + i < 64 := by omega
    simp [hi, h1]
  · simp [hi]

/-- Another field is as it was. -/
theorem getF_putF_ne (v : Word) (lo w x lo' w' : Nat) (h : lo' + w' ≤ lo ∨ lo + w ≤ lo') : getF (putF v lo w x) lo' w' = getF v lo' w' := by
  apply Nat.eq_of_testBit_eq
  intro i
  rw [getF, getF, testBit_bits, testBit_bits, testBit_putF]
  by_cases hi : i < w'
  · have h1 : ¬ (lo ≤ lo' + i ∧ lo' + i < lo + w) := by omega
    by_cases h2 : lo' + i < 64
    · simp [hi, h1, h2]
    · have : v.toNat < 2 ^ (lo' + i) := lt_of_lt_of_le v.isLt (Nat.pow_le_pow_right (by omega) (by omega))
      simp [hi, h2, Nat.testBit_lt_two_pow this]
  · simp [hi]

/-- A register's field after a field of a register was replaced: the same one, another of the same register, another register. -/
theorem fld_setFld (s : State) (a lo w x : Nat) (h : lo + w ≤ 64) : (s.setFld a lo w x).fld a lo w = x % 2 ^ w := by
  simp [State.fld, State.setFld, State.rd, State.wr, getF_putF _ _ _ _ h]

theorem fld_setFld_ne (s : State) (a lo w x lo' w' : Nat) (h : lo' + w' ≤ lo ∨ lo + w ≤ lo') :
    (s.setFld a lo w x).fld a lo' w' = s.fld a lo' w' := by
  simp [State.fld, State.setFld, State.rd, State.wr, getF_putF_ne _ _ _ _ _ _ h]

theorem fld_setFld_other (s : State) (a b lo w x lo' w' : Nat) (h : b ≠ a) :
    (s.setFld a lo w x).fld b lo' w' = s.fld b lo' w' := by
  simp [State.fld, State.setFld, State.rd, State.wr, Tbl.get_set_ne _ _ _ h]

theorem rd_setFld_other (s : State) (a b lo w x : Nat) (h : b ≠ a) : (s.setFld a lo w x).rd b = s.rd b := by
  simp [State.setFld, State.rd, State.wr, Tbl.get_set_ne _ _ _ h]

end Sys2Proof.Machine
end

