-- ==== Sys2Proof/Laws/Errors.lean ====
section
/-! SUPPORT. What raising an error record can do (R442 to R447), and what stopping a part can do (R355). -/

namespace Sys2Proof.Machine

/-- What both leave: records, window counters, registers, parts and cores apart, all of the state. -/
def State.RaiseFrame (s t : State) : Prop :=
  t = { s with errPend := t.errPend, windows := t.windows, ctl := t.ctl, parts := t.parts, cores := t.cores, free := t.free }

theorem State.RaiseFrame.refl (s : State) : s.RaiseFrame s := rfl

theorem State.RaiseFrame.trans {s t u : State} (h1 : s.RaiseFrame t) (h2 : t.RaiseFrame u) : s.RaiseFrame u :=
  Eq.trans h2 (by rw [h1])

theorem State.RaiseFrame.wr {s t : State} (h : s.RaiseFrame t) (a : Nat) (v : Word) : s.RaiseFrame (t.wr a v) :=
  h.trans rfl

theorem State.RaiseFrame.setFld {s t : State} (h : s.RaiseFrame t) (a lo w x : Nat) : s.RaiseFrame (t.setFld a lo w x) :=
  h.wr a _

theorem State.RaiseFrame.foldl {α : Type} {s : State} (f : State → α → State) (hf : ∀ t x, State.RaiseFrame t (f t x)) (l : List α) :
    s.RaiseFrame (l.foldl f s) := by
  induction l generalizing s with
  | nil => exact .refl s
  | cons x l ih => exact (hf s x).trans ih

theorem stopPart_frame (s : State) (p : Nat) : s.RaiseFrame (s.stopPart p) := by
  unfold State.stopPart
  split
  · have h1 : s.RaiseFrame ((s.started p).foldl State.cmpStop s) := .foldl State.cmpStop (fun _ _ => rfl) _
    dsimp only
    split
    · refine .setFld (.setFld (h1.trans ?_) _ _ _ _) _ _ _ _; rfl
    · refine .setFld (h1.trans ?_) _ _ _ _; rfl
  · exact .refl s

theorem timingLost_frame (s : State) (p : Nat) : s.RaiseFrame (s.timingLost p) := by
  unfold State.timingLost
  split
  · exact .setFld (.refl s) _ _ _ _
  · exact .refl s

@[simp] theorem timingLost_errPend (s : State) (p : Nat) : (s.timingLost p).errPend = s.errPend := by
  unfold State.timingLost
  split <;> rfl

theorem raise_frame (s : State) (r : ErrRec) : s.RaiseFrame (s.raise r) := by
  unfold State.raise
  dsimp only
  have h1 : s.RaiseFrame (if r.rkind = 0xFF then s else { s with windows := countEvent s.windows (windowKey r.rkind r.res) }) := by
    split <;> rfl
  have h2 : ∀ (l : List ErrRec) (t : State), s.RaiseFrame t → s.RaiseFrame { t with errPend := l } := fun _ _ h => h.trans rfl
  split
  · exact .trans (.trans (h2 _ _ h1) (timingLost_frame _ _)) (stopPart_frame _ _)
  · exact .trans (h2 _ _ h1) (timingLost_frame _ _)

/-- A record below class partition-fatal touches no core and no part. -/
theorem raise_frame_lt (s : State) (r : ErrRec) (h : r.cls ≠ 3) :
    s.raise r = { s with errPend := (s.raise r).errPend, windows := (s.raise r).windows, ctl := (s.raise r).ctl } := by
  unfold State.raise
  dsimp only
  rw [if_neg (by simp [h])]
  unfold State.timingLost
  split <;> split <;> rfl

/-- It changes no register but the journal's first of its partition. -/
theorem raise_rd (s : State) (r : ErrRec) (h : r.cls ≠ 3) (a : Nat) (ha : a ≠ aJnl r.part 0) : (s.raise r).rd a = s.rd a := by
  unfold State.raise
  dsimp only
  rw [if_neg (by simp [h])]
  unfold State.timingLost
  split <;> split <;> simp [State.setFld, State.wr, State.rd, Tbl.get_set_ne _ _ _ ha]

theorem mergeRec_has (r : ErrRec) (l : List ErrRec) :
    ∃ x ∈ mergeRec r l, x.source = r.source ∧ x.die = r.die ∧ x.core = r.core ∧ x.location = r.location := by
  induction l with
  | nil => exact ⟨r, by simp [mergeRec], rfl, rfl, rfl, rfl⟩
  | cons y ys ih =>
    unfold mergeRec
    split
    · rename_i h; exact ⟨_, List.mem_cons_self, h.1, h.2.1, h.2.2.1, h.2.2.2.1⟩
    · obtain ⟨x, hx, he⟩ := ih; exact ⟨x, List.mem_cons_of_mem _ hx, he⟩

theorem foldl_cmpStop_errPend (l : List Nat) (s : State) : (l.foldl State.cmpStop s).errPend = s.errPend := by
  induction l generalizing s with
  | nil => rfl
  | cons k l ih => rw [List.foldl_cons, ih]; rfl

theorem stopPart_errPend (s : State) (p : Nat) : (s.stopPart p).errPend = s.errPend := by
  unfold State.stopPart
  split
  · dsimp only
    split <;> exact foldl_cmpStop_errPend _ s
  · rfl

/-- The record, or the pending one that it joins, is among the records to come. -/
theorem raise_has (s : State) (r : ErrRec) :
    ∃ x ∈ (s.raise r).errPend, x.source = r.source ∧ x.die = r.die ∧ x.core = r.core ∧ x.location = r.location := by
  unfold State.raise
  dsimp only
  split
  · rw [stopPart_errPend, timingLost_errPend]
    exact mergeRec_has _ _
  · rw [timingLost_errPend]
    exact mergeRec_has _ _

theorem raiseOpen_frame (s : State) (r : ErrRec) : s.RaiseFrame (s.raiseOpen r) :=
  State.RaiseFrame.trans (t := { s with free := s.free + 1 }) rfl (raise_frame _ _)

theorem raiseOpen_has (s : State) (r : ErrRec) :
    ∃ x ∈ (s.raiseOpen r).errPend, x.source = r.source ∧ x.die = r.die ∧ x.core = r.core ∧ x.location = r.location :=
  raise_has _ _

end Sys2Proof.Machine
end

