-- ==== Sys2Proof/Tests/Slice0.lean ====
section
/-! SUPPORT. Tests: ill-formed terms are refused, states that meet the hypotheses of the statements, a few results. Expected
values come from the spec's rules. -/

namespace Sys2Proof.Tests

open Sys2Proof.Machine

-- one theorem at a time: the kernel evaluates each
set_option Elab.async false

/-- Core 0 of die 0. -/
def c0 : CoreId := ⟨0, 0⟩

/-- The state that a command answers. -/
def after (i : Instr) (s : State) : State :=
  match exec i s with
  | .next t => t
  | _ => s

/-- After power-on, core 0 changed by `f`. -/
def withCore (f : Core → Core) : State := State.reset.modCore 0 f

/-- Core 0 runs with the word `w` at address 0 of its cached line; `f` changes the core further. -/
def running (w : BitVec 32) (f : Core → Core) : State :=
  withCore fun x => f { x with run := true, codeLimit := 0x400000, icache := [(0, leBytes 4 w.toNat ++ List.replicate 124 0)] }

/-- The hypothesis of the compositor's statements, as a Bool. -/
def fetchesB (s : State) (k : Nat) (w : BitVec 32) : Bool :=
  s.powered && (s.core k).ready noStall && (s.core k).inWindow (s.core k).pc.toNat &&
    match (s.core k).cached ((s.core k).pc.toNat / 128) with
    | some bs => w == lineWord bs ((s.core k).pc.toNat % 128)
    | none => false

theorem fetches_of {s : State} {k : Nat} {w : BitVec 32} (h : fetchesB s k w = true) : s.Fetches k w := by
  simp only [fetchesB, Bool.and_eq_true] at h
  obtain ⟨⟨⟨h1, h2⟩, h3⟩, h4⟩ := h
  split at h4
  · rename_i bs hb
    exact ⟨h1, h2, h3, bs, hb, by simpa using h4⟩
  · cases h4

theorem fetches_each {ws : List (BitVec 32)} {f : Core → Core}
    (h : (ws.all fun w => fetchesB (running w f) (kOf c0) w) = true) : ∀ w ∈ ws, (running w f).Fetches (kOf c0) w :=
  fun w hw => fetches_of (List.all_eq_true.mp h w hw)

/-! ## Well-formed commands -/

/-- R181: a command of each engine on the first queue past its own. -/
theorem smoke_queues : ∀ i ∈ [Instr.matvec c0 4 [], .attApply c0 15 [], .brAdd c0 8 [], .brSample c0 3 [], .brSetlen c0 8, .copy c0 14 [],
    .hostFlush c0 7, .circuitOpen c0 14, .signal c0 13, .editionFence c0 0 []], i.wf = false := by decide +kernel

/-- R27, R176, R181, R256, R262, R282, R374, R432, R437, R471: one term for each other check, just past its range. -/
theorem smoke_ranges : ∀ i ∈ [Instr.icacheLineFill c0 32768 false, .copy c0 8 [2 ^ 28], .writeSegment ⟨0, List.replicate 1025 0, false⟩,
    .rdreq ⟨0, [], false⟩ [2 ^ 28], .hopRetry ⟨68, 0, 0⟩ 0 [], .hopRetry ⟨0, 72, 0⟩ 0 [],
      .hopRetry ⟨0, 0, 0⟩ 0 [⟨0, List.replicate 1025 0, false⟩],
    .ronnenFlitRx 0 (List.replicate 271 0) false, .ronnenFlitRx 0 (List.replicate 271 0 ++ [1024]) false, .powerCapMeasure (List.replicate 67 0),
    .thermalSample (List.replicate 69 (0, 0)), .censusRoundTimeout [⟨1, 0, List.replicate 31 0⟩],
    .censusRoundTimeout [⟨1, 0, List.replicate 32 0⟩, ⟨1, 1, List.replicate 32 0⟩], .weightRowRestore c0 32768 (List.replicate 128 0),
    .weightRowRestore c0 0 (List.replicate 127 0), .restoreBudgetExpiry c0 32768, .programStoreRestore 0 32768 (.data []),
    .programStoreRestore 0 0 (.data (List.replicate 129 0)), .challenge .i3c 0 (List.replicate 31 0),
    .getMeasurements .i3c 1 false true (List.replicate 33 0), .droopBegins 0 63, .resetReturn (.core c0) ⟨[], [], [], [(3, true), (3, false)]⟩,
    .powerGood ⟨0, true, 0, ⟨[], [], [(3, ⟨[], []⟩), (3, ⟨[0], []⟩)], []⟩, true⟩], i.wf = false := by decide +kernel

/-- The same checks at the last value that each admits. -/
theorem smoke_admitted : ∀ i ∈ [Instr.matvec c0 3 [2 ^ 28 - 1], .brAdd c0 7 [], .copy c0 13 [],
    .signal c0 15, .icacheLineFill c0 32767 true,
    .writeSegment ⟨0, List.replicate 1024 0, false⟩, .hopRetry ⟨67, 71, 0⟩ 9 [], .hopRetry ⟨0, 127, 0⟩ 0 [],
    .ronnenFlitRx 11 (List.replicate 272 1023) false, .powerCapMeasure (List.replicate 68 0), .weightRowRestore c0 32767 (List.replicate 128 0),
    .programStoreRestore 0 32767 (.data (List.replicate 100 0)), .challenge .i3c 0 (List.replicate 32 0),
    .getMeasurements .i3c 1 false false [], .droopBegins 0 64, .nop c0 0, .registerWrite .fabric 3 true 0], i.wf = true := by decide +kernel

/-! ## The compositor -/

/-- R154: the words of `ScalarArithmetic`, at the edges of each shift's range. -/
theorem wit_ScalarArithmetic : ∀ w ∈ [0x02#6 ++ 31#5 ++ 0#5 ++ 0xFFFF#16, 0x03#6 ++ 0#5 ++ 31#5 ++ 0x8000#16,
    0x04#6 ++ 1#5 ++ 1#5 ++ 0#16, 0x05#6 ++ 1#5 ++ 2#5 ++ 1#16, 0x07#6 ++ 31#5 ++ 0x100000#21, 0x08#6 ++ 1#5 ++ 0#5 ++ 0xFFFF#16,
    0x06#6 ++ 1#5 ++ 2#5 ++ 0#16, 0x06#6 ++ 1#5 ++ 2#5 ++ 63#16, 0x06#6 ++ 1#5 ++ 2#5 ++ 64#16, 0x06#6 ++ 1#5 ++ 2#5 ++ 127#16,
    0x06#6 ++ 1#5 ++ 2#5 ++ 128#16, 0x06#6 ++ 1#5 ++ 2#5 ++ 191#16, 0x01#6 ++ 31#5 ++ 1#5 ++ 2#5 ++ 0#7 ++ 0#4,
    0x01#6 ++ 31#5 ++ 1#5 ++ 2#5 ++ 0#7 ++ 12#4], (running w id).Fetches (kOf c0) w :=
  fetches_each (by decide +kernel)

theorem test_addi_negative : ((after (.addi c0 1 2 0xFFFF#16) (running (0x02#6 ++ 1#5 ++ 2#5 ++ 0xFFFF#16)
    fun x => { x with sreg := [(2, 5)] })).core 0).rdS 1 = 4 := by decide +kernel

theorem test_alu_smin : ((after (.alu c0 1 2 3 0 9) (running (0x01#6 ++ 1#5 ++ 2#5 ++ 3#5 ++ 0#7 ++ 9#4)
    fun x => { x with sreg := [(2, 5), (3, -1)] })).core 0).rdS 1 = -1 := by decide +kernel

/-- R154, R161: the words of `ReadsAndPredicates`; a loop stack of one level answers level 0 and not level 1. -/
theorem wit_ReadsAndPredicates : (∀ w ∈ [0x0D#6 ++ 31#5 ++ 0#21, 0x1A#6 ++ 1#5 ++ 0#19 ++ 3#2, 0x1B#6 ++ 1#5 ++ 0#19 ++ 0#2,
    0x1B#6 ++ 1#5 ++ 0#19 ++ 1#2, 0x22#6 ++ 1#5 ++ 2#5 ++ 0#16, 0x25#6 ++ 0#5 ++ 0#21, 0x09#6 ++ 7#3 ++ 0#3 ++ 1#5 ++ 2#5 ++ 0#10,
    0x09#6 ++ 0#3 ++ 5#3 ++ 1#5 ++ 2#5 ++ 0#10, 0x0A#6 ++ 7#3 ++ 0#3 ++ 1#5 ++ 0x7FFF#15, 0x0A#6 ++ 1#3 ++ 5#3 ++ 1#5 ++ 0#15,
    0x0B#6 ++ 7#3 ++ 0#3 ++ 1#3 ++ 0#3 ++ 0#14, 0x0B#6 ++ 1#3 ++ 0#3 ++ 1#3 ++ 4#3 ++ 0#14,
    0x0C#6 ++ 1#3 ++ 31#5 ++ 0#5 ++ 0#13], (running w fun x => { x with loops := [⟨0, 8, 3, 2⟩] }).Fetches (kOf c0) w) ∧
    ∃ l, (running 0 fun x => { x with loops := [⟨0, 8, 3, 2⟩] }).core 0 |>.loops[0]? = some l ∧
      ((running 0 fun x => { x with loops := [⟨0, 8, 3, 2⟩] }).core 0).loops.length ≤ 1 :=
  ⟨fetches_each (by decide +kernel), _, rfl, by decide +kernel⟩

/-- R154, R159 to R161: the words of `ControlFlow`. -/
theorem wit_ControlFlow : ∀ w ∈ [0x10#6 ++ 0#3 ++ 0#1 ++ 0x3FFFFF#22, 0x10#6 ++ 0#3 ++ 1#1 ++ 0#22,
    0x11#6 ++ 0#3 ++ 0#1 ++ 0#1 ++ 0#5 ++ 0#16,
    0x11#6 ++ 0#3 ++ 1#1 ++ 0#1 ++ 1#5 ++ 0#16, 0x12#6 ++ 31#5 ++ 0x100000#21, 0#32, 0x19#6 ++ 3#2 ++ 0#3 ++ 1#5 ++ 0#16,
    0x3F#6 ++ 0#26, 0x18#6 ++ 0#2 ++ 0#8 ++ 1#16, 0x18#6 ++ 3#2 ++ 0#8 ++ 0x1F#16],
    (running w fun x => { x with sreg := [(1, 0xFFFFFFFF)], lc := [(3, 1)] }).Fetches (kOf c0) w :=
  fetches_each (by decide +kernel)

/-- R159: a fourth level whose body ends where the third's does; its last word is `NOP`; one count is 1, the other 0. -/
theorem wit_ControlFlow_loop : ∃ l bs, l = LoopLevel.mk 0 124 1 1 ∧
    let w := 0x18#6 ++ 3#2 ++ 0#8 ++ 0x1F#16
    let s := running w fun x => { x with lc := [(3, 1)], loops := [l, l, l] }
    let x := s.core (kOf c0)
    let last := x.pc.toNat + 4 * 0x1F
    s.Fetches (kOf c0) w ∧ x.inWindow last = true ∧ x.loops.length < 4 ∧ (∀ m ∈ x.loops.head?, last ≤ m.last) ∧
      x.fetched.cached (last / 128) = some bs ∧ (lineWord bs (last % 128)).toNat / 2 ^ 26 ∉ [0x10, 0x11, 0x12, 0x18, 0x3F] ∧
      x.rdLc 3 = 1 ∧ x.rdLc 0 = 0 :=
  ⟨_, _, rfl, fetches_of (by decide +kernel), by decide +kernel, by decide +kernel, by decide +kernel, rfl, by decide +kernel,
    by decide +kernel⟩

theorem test_jal_links : let t := after (.jal c0 1 2) (running (0x12#6 ++ 1#5 ++ 2#21) id)
    (t.core 0).pc = 8 ∧ (t.core 0).rdS 1 = 4 := by decide +kernel

theorem test_loop_skips : ((after (.loop c0 0 0 2) (running (0x18#6 ++ 0#2 ++ 0#8 ++ 2#16) id)).core 0).pc = 12 := by decide +kernel

/-- R155: words that fault, at the first value past each range. -/
theorem wit_InstructionFaults : ∀ w ∈ [0x00#6 ++ 1#26, 0x3F#6 ++ 1#26, 0x01#6 ++ 0#5 ++ 0#5 ++ 0#5 ++ 1#7 ++ 0#4,
    0x01#6 ++ 0#5 ++ 0#5 ++ 0#5 ++ 0#7 ++ 13#4, 0x06#6 ++ 0#5 ++ 0#5 ++ 192#16, 0x09#6 ++ 0#3 ++ 6#3 ++ 0#5 ++ 0#5 ++ 0#10,
    0x0B#6 ++ 0#3 ++ 0#3 ++ 0#3 ++ 5#3 ++ 0#14, 0x11#6 ++ 0#3 ++ 0#1 ++ 0#1 ++ 2#5 ++ 0#16, 0x19#6 ++ 0#2 ++ 0#3 ++ 1#5 ++ 0#16,
    0x18#6 ++ 0#2 ++ 0#8 ++ 0#16, 0x18#6 ++ 0#2 ++ 0#8 ++ 1#16],
    (running w fun x => { x with sreg := [(1, 0x100000000), (2, 1)],
                                 loops := [⟨0, 4, 1, 1⟩, ⟨0, 4, 1, 1⟩, ⟨0, 4, 1, 1⟩, ⟨0, 4, 1, 1⟩] }).Fetches (kOf c0) w :=
  fetches_each (by decide +kernel)

theorem test_setlc_faults : ((after (.setlc c0 0 0 1 0) (running (0x19#6 ++ 0#2 ++ 0#3 ++ 1#5 ++ 0#16)
    fun x => { x with sreg := [(1, 0x100000000)] })).core 0).haltCode = 0x10 := by decide +kernel

/-- A handle of activation memory: base 64, extent 16, format FP32, readable and writable. -/
def actHandle : Wide := mkW [(0, 1, 1), (1, 1, 1), (2, 1, 1), (4, 2, 1), (8, 8, fFP32), (128, 22, 64), (150, 23, 16)]

/-- R171: the last eight bytes of the handle. -/
theorem wit_ScalarMemory : let g := fun (x : Core) => { x with handles := [(255, actHandle)] }
    let h := ((running 0 g).core (kOf c0)).handle 255
    hVALID h = true ∧ hSPACE h = 1 ∧ hRD h = true ∧ hWR h = true ∧ (0 + 8 * 1) % 8 = 0 ∧ 0 + 8 * 1 + 8 ≤ hEXTENT h ∧
    (∀ w ∈ [0x20#6 ++ 1#5 ++ 0#5 ++ 255#8 ++ 1#8, 0x21#6 ++ 0#5 ++ 0#5 ++ 255#8 ++ 1#8], (running w g).Fetches (kOf c0) w ∧
      ((running w g).modCore 0 Core.fetched).heldBy 0 [⟨4, 255, 255, false⟩] = false ∧
      ((running w g).modCore 0 Core.fetched).heldBy 0 [⟨1, hBASE h + 8, hBASE h + 8 + 7, true⟩] = false ∧
      ((running w g).modCore 0 Core.fetched).heldBy 0 [⟨1, hBASE h + 8, hBASE h + 8 + 7, false⟩] = false ∧
      ∀ u ∈ unitsOf 1 (hBASE h + 8) 8, (running w g).poisoned 0 1 u = false) := by
  refine ⟨by decide +kernel, by decide +kernel, by decide +kernel, by decide +kernel, by decide, by decide +kernel, fun w hw => ?_⟩
  simp only [List.mem_cons, List.not_mem_nil, or_false] at hw
  rcases hw with rfl | rfl <;>
    exact ⟨fetches_of (by decide +kernel), by decide +kernel, by decide +kernel, by decide +kernel, by decide +kernel⟩

/-- R155: an invalid handle 0, a misaligned offset 1, an offset past the extent. -/
theorem wit_ScalarMemoryFaults : let g := fun (x : Core) => { x with handles := [(255, actHandle)], sreg := [(1, 1)] }
    let x := (running 0 g).core (kOf c0)
    hVALID (x.handle 0) = false ∧ (1 + 8 * 0) % 8 ≠ 0 ∧ hEXTENT (x.handle 255) < 8 * 2 + 8 ∧ (8 * 2) % 8 = 0 ∧
    (∀ w ∈ [0x20#6 ++ 1#5 ++ 0#5 ++ 0#8 ++ 0#8, 0x20#6 ++ 1#5 ++ 1#5 ++ 255#8 ++ 0#8, 0x20#6 ++ 1#5 ++ 0#5 ++ 255#8 ++ 2#8,
      0x21#6 ++ 1#5 ++ 0#5 ++ 0#8 ++ 0#8, 0x21#6 ++ 1#5 ++ 1#5 ++ 255#8 ++ 0#8, 0x21#6 ++ 1#5 ++ 0#5 ++ 255#8 ++ 2#8],
      (running w g).Fetches (kOf c0) w) ∧ ((running 0 g).modCore 0 Core.fetched).heldBy 0 [⟨4, 0, 0, false⟩] = false :=
  ⟨by decide +kernel, by decide, by decide +kernel, by decide, fetches_each (by decide +kernel), by decide +kernel⟩

theorem test_sst_little_endian : let t := after (.sst c0 1 0 255 1) (running (0x21#6 ++ 1#5 ++ 0#5 ++ 255#8 ++ 1#8)
      fun x => { x with handles := [(255, actHandle)], sreg := [(1, 0x0102030405060708)] })
    t.byte (coreAddr 0 1 72) = 8 ∧ t.byte (coreAddr 0 1 79) = 1 ∧ t.byte (coreAddr 0 1 80) = 0 := by decide +kernel

/-- R172: flag 0 holds 0; threshold 0x80000001 lies 2^31 − 1 below it, 0x80000000 does not. -/
theorem wit_WaitAndPass : let g := fun (x : Core) => { x with sreg := [(1, 0x80000001), (2, 0x80000000)] }
    (∀ w ∈ [0x24#6 ++ 7#3 ++ 1#5 ++ 0#5 ++ 0#8 ++ 0#5, 0x24#6 ++ 0#3 ++ 2#5 ++ 1#5 ++ 255#8 ++ 0#5, 0x23#6 ++ 0#26],
      (running w g).Fetches (kOf c0) w) ∧
    (((running 0 g).core 0).flag 0 - 0x80000001).toNat < 2 ^ 31 ∧ 2 ^ 31 ≤ (((running 0 g).core 0).flag 255 - 0x80000000).toNat ∧
    ((running 0 g).modCore 0 Core.fetched).passHeld 0 = false :=
  ⟨fetches_each (by decide +kernel), by decide +kernel⟩

/-- R172, R219, R220: a stall satisfied at its deadline tick 9, one that expires at tick 10, one without a deadline. -/
theorem wit_WaitAndPass_stalled : let s := fun (tick n : Nat) (th : BitVec 32) =>
      { running 0 (fun x => { x with stall := .cwait 7 th 0 4 n }) with tick := tick }
    (∀ e ∈ [(9, 5, 0), (10, 0, 0), (10, 5, 1)], let u := s e.1 e.2.1 e.2.2
      u.powered = true ∧ (u.core 0).run = true ∧ (u.core 0).frozen = false ∧ (u.core 0).stall = .cwait 7 e.2.2 0 4 e.2.1) ∧
    9 ≤ 4 + 5 ∧ 4 + 5 < 10 ∧ (((s 9 5 0).core 0).flag 0 - 0).toNat < 2 ^ 31 := by decide +kernel

theorem test_cwait_deadline : let s := fun tick => { running 0 (fun x => { x with stall := .cwait 7 1 0 4 5 }) with tick := tick }
    ((after (.cwaitTimeout c0) (s 9)).core 0).stall = .cwait 7 1 0 4 5 ∧ ((after (.cwaitTimeout c0) (s 10)).core 0).stall = .none ∧
      ((after (.cwaitTimeout c0) (s 10)).core 0).rdP 7 = false := by decide +kernel

/-- A running core whose template 0 is a `BR_COPY` descriptor without a signal, queue 4 holding `n` waiting commands. -/
def pushing (w : BitVec 32) (n : Nat) (f : Core → Core) : State :=
  (running w fun x => f { x with fifo := [(4, (List.range n).map fun i => ⟨i, i, 0x29, 0, false, .waiting⟩)] }).setByte
    (templateAddr 0 0 0) 0x29

/-- R164 to R170: queue 4 with one free entry, full, and with a false predicate; the stall of a full queue that has a free entry
again. -/
theorem wit_PushAndPatches :
    (∀ e ∈ [(0#1, 31), (0#1, 32), (1#1, 0)], fetchesB (pushing (0x28#6 ++ 0#3 ++ e.1 ++ 4#4 ++ 0#10 ++ 0#5 ++ 0#3) e.2 id) (kOf c0)
      (0x28#6 ++ 0#3 ++ e.1 ++ 4#4 ++ 0#10 ++ 0#5 ++ 0#3) = true) ∧
    buildDesc ((pushing 0 31 id).template 0 0) (fun _ => 0) 0 = some 0x29 ∧ engineOf (dOP 0x29) = some (queueEngine 4) ∧
    ((pushing 0 31 id).core 0).depth 4 < queueDepth 4 ∧ queueDepth 4 ≤ ((pushing 0 32 id).core 0).depth 4 ∧ dSIG 0x29 = false ∧
    ((pushing 0 31 fun x => { x with stall := .push 4 0x29 true }).core 0).stall = .push 4 0x29 true := by decide +kernel

/-- R165, R166: each patch mode over the whole width, 8 bits from bit 248, register s31. -/
theorem wit_PushAndPatches_modes : ∀ m ∈ [1, 2, 3], let slot := 248 + 7 * 2 ^ 8 + m * 2 ^ 14
    28 + 3 ≤ 31 ∧ bits slot 0 8 + (bits slot 8 6 + 1) ≤ 256 ∧ bits slot 14 2 = m ∧ bits (2 ^ 319) 320 192 = 0 := by decide +kernel

theorem test_patch_adds : patchOne (fun _ => 3) 0 (248 + 7 * 2 ^ 8 + 3 * 2 ^ 14) 0 (putW 0 248 8 254) = some (putW 0 248 8 1) := by
  decide +kernel

/-- R176, R177: a line awaited; `PRIME` of one line and of 32 with three outstanding. -/
theorem wit_InstructionLines : (∀ w ∈ [0x29#6 ++ 0#5 ++ 0#16 ++ 0#5, 0x29#6 ++ 1#5 ++ 0#16 ++ 31#5],
      (running w fun x => { x with primes := [[], [], []], fills := [32767] }).Fetches (kOf c0) w) ∧
    let x := (running 0 fun x => { x with primes := [[], [], []], fills := [32767] }).core 0
    32767 ∈ x.fills ∧ x.primes.length < 4 ∧ x.inWindow (31 * 128) = true ∧ (x.fetched.cached 31).isNone = true :=
  ⟨fetches_each (by decide +kernel), by decide +kernel⟩

/-- R174, R516: a halted core whose start tick is now, or has passed; an armed one whose start tick has passed; a running one. -/
theorem wit_CompositorControl : let at' := fun tick => { State.reset with tick := tick }
    (at' 0).powered = true ∧ ((at' 0).core 0).run = false ∧ ((at' 0).core 0).frozen = false ∧
    (at' 0).tick ≤ ((at' 0).core 0).startTick.toNat ∧ ((at' 1).core 0).startTick.toNat < (at' 1).tick ∧
    ((withCore fun x => { x with armed := true }).core 0).armed = true ∧ ((running 0 id).core 0).run = true ∧
    (1#64).getLsbD 0 = true ∧ (1#64).getLsbD 1 = false ∧ (2#64).getLsbD 1 = true ∧ (0x400000#64 <<< 32).toNat % 128 = 0 ∧
    (0x400000#64 <<< 32).toNat / 2 ^ 32 % 2 ^ 23 ≤ 0x400000 := by decide +kernel

/-! ## Engine commands -/

/-- What an executing command holds that resolved these handles. -/
def exec0 (hs : List (Nat × Wide)) : Exec := ⟨hs, [], [], 0, none, false, false, [], 0, false, none, 0⟩

/-- The first command of a queue, executing. -/
def item0 (d : Wide) (n : Nat) (x : Exec) : Item := ⟨0, 0, d, n, false, .executing x⟩

/-- After power-on, queue `q` of core 0 executes one command. -/
def working (q : Nat) (d : Wide) (n : Nat) (x : Exec) : State := withCore fun c => { c with fifo := [(q, [item0 d n x])] }

/-- The hypothesis of the engine's statements, as a Bool. -/
def worksB (s : State) (k q op : Nat) (it : Item) (x : Exec) : Bool :=
  s.live k && decide ((s.core k).workItem q op = some (it, x)) && !(s.core k).squashed q

theorem works_of {s : State} {k q op : Nat} {it : Item} {x : Exec} (h : worksB s k q op it x = true) : s.Works k q op it x := by
  simp only [worksB, Bool.and_eq_true, decide_eq_true_eq, Bool.not_eq_true'] at h
  exact ⟨h.1.1, h.1.2, h.2⟩

theorem works_each {es : List (Nat × Wide)} {n : Nat} {x : Exec}
    (h : (es.all fun e => worksB (working e.1 e.2 n x) (kOf c0) e.1 (dOP e.2) (item0 e.2 n x) x) = true) :
    ∀ e ∈ es, (working e.1 e.2 n x).Works (kOf c0) e.1 (dOP e.2) (item0 e.2 n x) x :=
  fun e he => works_of (List.all_eq_true.mp h e he)

/-- R131: a working command of each opcode of `BrayerArithmetic`, `BrayerRopeAndMoves` and `BrayerReductions` (YMODE 0 and 3)
and `MaximaAndSampling`, of two elements; a store stride of 1. -/
theorem wit_brayer : ∀ e ∈ (List.range 0x1C).map (fun i => (if i % 2 = 0 then 4 else 7, mkW [(0, 8, 0x21 + i), (18, 2, i % 2 * 3),
    (164, 14, 1)])),
    (working e.1 e.2 2 (exec0 [(0, actHandle)])).Works (kOf c0) e.1 (dOP e.2) (item0 e.2 2 (exec0 [(0, actHandle)])) (exec0 [(0, actHandle)]) :=
  works_each (by decide +kernel)

/-- R149, R439: with no unit damaged, the operands of those commands meet no damage; two elements make a pair of `BR_ROPE`. -/
theorem wit_brayer_sound : ∀ op ∈ [0x21, 0x2A, 0x33, 0x34, 0x3A], let d := mkW [(0, 8, op), (164, 14, 1)]
    let s := working 4 d 2 (exec0 [(0, actHandle)])
    s.tileDamage (kOf c0) [] d 2 = none ∧ s.memDamage (kOf c0) 1 actHandle d 4 2 [] = none ∧ bMSTRIDE d ≠ 0 ∧ 2 % 2 = 0 := by
  decide +kernel

/-- R131: 1 + 2 = 3, and 1 × 2 = 2, in FP32. -/
theorem test_brayer_sum : let d := fun op => mkW [(0, 8, op), (48, 16, 0x8002), (64, 16, 0), (80, 16, 1)]
    let s := fun op => { working 4 (d op) 1 (exec0 []) with tiles := [(tileKey 0 0 2, 0x80), (tileKey 0 0 3, 0x3F), (tileKey 0 1 3, 0x40)] }
    (after (.brAdd c0 4 []) (s 0x21)).tileNat 0 2 0 4 = 0x40400000 ∧ (after (.brMul c0 4 []) (s 0x23)).tileNat 0 2 0 4 = 0x40000000 := by
  decide +kernel

/-- R134, R135, R136: `BR_CVT` to a tile and to memory, `BR_QUANT` plain and of an MX format; no element is NaR. -/
theorem wit_BrayerConversions : let h := fun f => putW actHandle 8 8 f
    let x := fun f => exec0 [(0, h f)]
    (∀ e ∈ [(0x35, 0, 0x0E), (0x35, 1, 0x0E), (0x36, 0, 0x03), (0x36, 0, 0x05)], let d := mkW [(0, 8, e.1), (22, 1, e.2.1), (164, 14, 1)]
      worksB (working 7 d 33 (x e.2.2)) (kOf c0) 7 e.1 (item0 d 33 (x e.2.2)) (x e.2.2) = true ∧
      (working 7 d 33 (x e.2.2)).memDamage 0 2 (h e.2.2) d 8 33 [] = none ∧ (working 7 d 33 (x e.2.2)).tileDamage 0 [] d 33 = none ∧
      bCDST d = e.2.1 ∧ bMSTRIDE d = 1 ∧ ∀ i, i < 33 → BitVec.ofNat 64 ((working 7 d 33 (x e.2.2)).coreNat 0 2 (64 + i * 8) 8) ≠ psNaR) ∧
    fmtMX (hFORMAT (h 0x03)) = false ∧ fmtMX (hFORMAT (h 0x05)) = true := by decide +kernel

/-- R139: the sum of two zero elements is neither NaR nor saturated, as PS64 or as FP32; a draw over two equal weights of 1. -/
theorem wit_BrayerReductions : let v := (Acc.zero.add (some (1, 0)) (decFp32 0) 0).add (decFp32 0) (decFp32 0) 0
    v.nar = false ∧ v.sat = false ∧ v.store.2 = false ∧ (cvtPs fp32 v.store.1 0 .nearestEven).2 = false ∧
    (sample 0 0 [0x3F800000, 0x3F800000]).2.2 = false := by decide +kernel

/-- R96 to R113: a command of each platen opcode in mode ST with one active item, item 63, without damage. -/
theorem wit_platen : let d := fun op => mkW [(0, 8, op), (64, 64, 2 ^ 63), (223, 15, 1), (238, 15, 32)]
    let x := { exec0 [] with items := [⟨63, 0, 1, [0]⟩] }
    (∀ op ∈ [0x10, 0x11, 0x12, 0x13], worksB (working 3 (d op) 0 x) (kOf c0) 3 op (item0 (d op) 0 x) x = true ∧ pYMODE (d op) = 0) ∧
    activeItems (d 0x10) = [63] ∧ let s := working 3 (d 0x11) 0 x
      s.appendDamage 0 [] x (d 0x11) ⟨63, 0, 1, [0]⟩ = none ∧ (s.core 0).restore = none ∧
      s.rowsToRestore 0 [] (matvecReads (stripeOf (x.handle 0) (d 0x10)) []) = [] ∧
      s.firstDamage 0 [] (matvecReads (stripeOf (x.handle 0) (d 0x10)) [] ++ [(1, 0, vecBytes 0 32)]) = none ∧
      s.firstDamage 0 [] (kvReads (x.handle 0) (d 0x12) ⟨63, 0, 1, [0]⟩ ++ [(1, 0, vecBytes 0 (pD (d 0x12)))] ++ [(0, 0, 128)]) = none := by
  decide +kernel

/-- R199 to R205, R263: a command of each opcode that begins a transfer, `CIRCUIT` open and close, and a `COPY` that does not overlap
and one that does. -/
theorem wit_CopyAndTransfers : let x := exec0 [(0, actHandle)]
    let d := fun op => mkW [(0, 8, op % 256), (64, 32, op / 256), (96, 32, 1), (198, 22, if op = 0x440 then 8 else 0)]
    (∀ op ∈ [0x40, 0x41, 0x42,
      0x43, 0x44, 0x49, 0x149], worksB (working 13 (d op) 0 x) (kOf c0) 13 (op % 256) (item0 (d op) 0 x) x = true) ∧
    mCOP (d 0x49) = 0 ∧ mCOP (d 0x149) = 1 ∧ (∀ op ∈ [0x440, 0x441, 0x840], let s := working 13 (d op) 0 x
      s.srcRestore 0 actHandle (d op) [] = [] ∧ s.srcDamage 0 actHandle (d op) [] = none ∧ (s.core 0).circIdle 0 = true ∧
      (s.core 0).restore = none) ∧
    copyOverlaps actHandle actHandle (srcRuns actHandle (d 0x440)) [(64 + 8, 4)] = false ∧
    copyOverlaps actHandle actHandle (srcRuns actHandle (d 0x840)) [(64, 8)] = true := by decide +kernel

/-- R199: four bytes move. -/
theorem test_copy : let d := mkW [(0, 8, 0x40), (64, 32, 4), (96, 32, 1), (198, 22, 8)]
    let s := (working 8 d 0 (exec0 [(0, actHandle)])).setByte (coreAddr 0 1 66) 7
    (after (.copy c0 8 []) s).byte (coreAddr 0 1 74) = 7 := by decide +kernel

/-- R256: a transfer of 1,025 bytes in one unit, and of none. -/
theorem wit_SegmentsCarryTheBytes : (List.replicate 1025 (0 : Byte)).length = 1 * 1025 ∧ 1 ≤ 2 ^ 32 ∧
    ([] : List Byte).length = 2 ^ 32 * 0 :=
  ⟨List.length_replicate, by decide, by decide⟩

theorem test_segments : ((State.reset.segments 0 0 (mkW [(64, 32, 1025), (96, 32, 1)]) 5 0 (List.replicate 1025 0) false).map
    (·.payload.length)) = [1024, 1] := by decide +kernel

/-- R208, R217, R219, R220: a local `SIGNAL`; a `WAIT` issued at tick 4 with timeout 5 that is met in its issue tick, before, in and
not met after its deadline tick. -/
theorem wit_SignalAndWait : let d := fun op v => mkW [(0, 8, op), (24, 8, 255), (96, 32, v), (128, 32, 5)]
    let x := { exec0 [] with issued := 4 }
    (∀ e ∈ [(0x60, 1, 4), (0x61, 0, 4), (0x61, 0, 8), (0x61, 0, 9),
      (0x61, 1, 10)], let s := { working 15 (d e.1 e.2.1) 0 x with tick := e.2.2 }
      worksB s (kOf c0) 15 e.1 (item0 (d e.1 e.2.1) 0 x) x = true ∧ yRMT (d e.1 e.2.1) = false ∧ yTIMEOUT (d e.1 e.2.1) = 5) ∧
    (((working 15 (d 0x61 0) 0 x).core 0).flag 255 - yVALUE (d 0x61 0)).toNat < 2 ^ 31 := by decide +kernel

theorem test_signal_adds : ((after (.signal c0 14) (working 14 (mkW [(0, 8, 0x60), (24, 8, 3), (96, 32,
    0xFFFFFFFF)]) 0 (exec0 []))).core 0).flag 3
    = 0xFFFFFFFF := by decide +kernel

/-- R66, R208: an operand of zeros passes R67, one with a reserved bit does not; a mask that names handle 0, which has the edition named
pending, or not. -/
theorem wit_SyncHandles : let x := exec0 [(0, actHandle)]
    let d := fun op => mkW [(0, 8, op), (96, 32, 9)]
    let s := fun op (b : Byte) h => ((working 14 (d op) 0 x).modCore 0 fun c => { c with handles := h }).setByte (coreAddr 0 1 95) b
    let f := fun h => (s 0x63 0 h).setByte (coreAddr 0 1 64) 1
    let pend := mkW [(7, 1, 1), (64, 32, 9)]
    (∀ u ∈ [(0x62, s 0x62 0 []), (0x62, s 0x62 0x80 []), (0x63, f []), (0x63, f [(0, pend)])],
      worksB u.2 (kOf c0) 14 u.1 (item0 (d u.1) 0 x) x = true ∧ u.2.damage 0 1 64 32 [] = none) ∧
    State.reset.handleCheck (BitVec.ofNat 256 ((s 0x62 0 []).coreNat 0 1 64 32)) = 0 ∧
    State.reset.handleCheck (BitVec.ofNat 256 ((s 0x62 0x80 []).coreNat 0 1 64 32)) ≠ 0 ∧
    BitVec.ofNat 256 ((f []).coreNat 0 1 64 32) = 1 ∧ hPEND (((f [(0, pend)]).core 0).handle 0) = true ∧
    hEDPEND (((f [(0, pend)]).core 0).handle 0) = (yVALUE (d 0x63)).toNat ∧ hPEND (((f []).core 0).handle 0) = false := by
  decide +kernel

/-- R41 to R45, R104: 32 INT8 weights of 3 against 32 BF16 ones of 1 give 96 on the grid 1. -/
theorem test_matvec : let h := fun sp f => mkW [(0, 1, 1), (1, 1, 1), (2, 1, 1), (4, 2, sp), (8, 8, f), (150, 23, 0x1000)]
    let d := mkW [(0, 8, 0x10), (40, 8, 0), (48, 8, 1), (56, 8, 2), (64, 64, 1), (217, 6, 1), (223, 15, 1), (238, 15, 32)]
    let s := { working 0 d 0 (exec0 [(0, h 0 fINT8), (1, h 1 fBF16), (2, h 2 fPS64)]) with
      mem := (List.range 32).map (fun i => (coreAddr 0 0 i, 3)) ++ (List.range 64).map fun i => (coreAddr 0 1 i, if i % 2 = 0 then 0x80 else 0x3F) }
    (after (.matvec c0 0 []) s).coreNat 0 2 0 8 = 96 := by decide +kernel

/-! ## Issue, completion, registers of a core, credits -/

/-- A `BR_COPY` of tile 0 to tile 1, as R186 accepts it. -/
def copyTile : Wide := mkW [(0, 8, 0x29), (8, 8, 7), (16, 1, 1), (48, 16, 0x8001), (64, 16, 0x8000)]

/-- R183: the head of queue 7, which may issue, passes every check, or fails one; the sync engine's queue 15 likewise. -/
theorem wit_IssueAndFreeze : let s := fun q d => withCore fun c => { c with fifo := [(q, [⟨0, 0, d, 1, false, .waiting⟩])] }
    (∀ e ∈ [(7, copyTile, 1), (7, putW copyTile 63 1 0, 1), (15, mkW [(0, 8, 0x60)], 3), (15, mkW [(0, 8, 0x60), (255, 1, 1)], 3)],
      let s1 := (s e.1 e.2.1).markStalled 0 e.2.2
      (s e.1 e.2.1).live (kOf c0) = true ∧ ((s1.core 0).grantOrder e.2.2).find? (s1.canIssue 0) = some e.1 ∧
      (s1.core 0).head e.1 = some ⟨0, 0, e.2.1, 1, false, .waiting⟩) ∧
    (let c := fun q d e => (((s q d).markStalled 0 e).modCore 0 fun c => { c with granted := Tbl.set 0 c.granted e (q + 1) }).issueCheck 0 d 1
     c 7 copyTile 1 = 0 ∧ c 7 (putW copyTile 63 1 0) 1 ≠ 0 ∧ c 15 (mkW [(0, 8, 0x60)]) 3 = 0 ∧
       c 15 (mkW [(0, 8, 0x60), (255, 1, 1)]) 3 ≠ 0) := by decide +kernel

/-- R185, R168, R200: a worked command with another behind it, a skipped one, a `BR_SETLEN` of the greatest length and one above. -/
theorem wit_Completion : let it := fun p d => Item.mk 0 0 d 1 false p
    let s := fun q l => withCore fun c => { c with fifo := [(q, l)] }
    let x := { exec0 [] with worked := true }
    let set := fun n => mkW [(0, 8, 0x20), (232, 14, n)]
    (∀ e ∈ [(0, it (.executing x) 0x10), (15, it .skipped copyTile)], let s := s e.1 [e.2, ⟨1, 1, 0x10, 0, false, .waiting⟩]
      s.live 0 = true ∧ (s.core 0).queue e.1 = e.2 :: [⟨1, 1, 0x10, 0, false, .waiting⟩]) ∧
    (x.worked = true ∧ x.txid = none ∧ x.codes = []) ∧
    ∀ n ∈ [8192, 8193], let s := s 4 [it .waiting (set n)]
      s.live 0 = true ∧ (s.core 0).head 4 = some (it .waiting (set n)) ∧ dOP (set n) = 0x20 ∧ dSIG (set n) = false ∧
      (s.core 0).queue 4 = [it .waiting (set n)] ∧ reservedOk (set n) = true ∧ bLEN (set n) = n := by decide +kernel

/-- R185, R212: the completion of a command with SIG adds 1 to its flag and leaves the next at the front. -/
theorem test_complete_signals : let t := after (.commandComplete c0 4) (working 4 copyTile 1 { exec0 [] with worked := true })
    (t.core 0).flag 7 = 1 ∧ (t.core 0).queue 4 = [] := by decide +kernel

theorem test_issue_executes : (((after (.commandIssue c0 .brayer false) (withCore fun c => { c with
    fifo := [(7, [⟨0, 0, copyTile, 1, false, .waiting⟩])] })).core 0).executing 7).length = 1 := by decide +kernel

theorem test_setlen_too_long : (after (.brSetlen c0 4) (withCore fun c => { c with
    fifo := [(4, [⟨0, 0, mkW [(0, 8, 0x20), (232, 14, 8193)], 0, false, .waiting⟩])] })).fld (aCoreK 0 0xC00 + 32) 0 8 = 4 := by
  decide +kernel

/-- R387: every accessor reaches the registers of core 0 after power-on; no host input is journaled while no context runs. -/
theorem wit_CoreRegisters : State.reset.powered = true ∧ (State.reset.core 0).run = false ∧
    (∀ who ∈ [.func 0 0, .colophon, .fabric], ∀ o ∈ [0xA00, 0xBF8, 0x180, 0x2C0, 0x608, 0x6F8],
      State.reset.mayAccess who (aCoreK 0 o) true = true ∧ State.reset.hostInput who (aCoreK 0 o) = none) ∧
    bar2Owner (BitVec.ofNat 32 (aCoreK 0 0xA00 + 1)).toNat (.func 1 63) = none ∧ (aCoreK 0 0xA00 + 1) % 4 ≠ 0 ∧
    State.reset.mayAccess (.func 1 63) (aCoreK 0 0xA00) true = false ∧ (aCoreK 0 0xA00) % 4 = 0 := by decide +kernel

/-- R68, R88: LOAD alone, INSTALL alone, of an entry that passes and one with a reserved bit. -/
theorem wit_CoreRegisters_handles : let s := fun (v : Word) => State.reset.wr (aCoreK 0 0x220) v
    (0x1FF#64).getLsbD 8 = true ∧ (0x1FF#64).getLsbD 9 = false ∧ (0x2FF#64).getLsbD 9 = true ∧ (0x2FF#64).getLsbD 8 = false ∧
    (s 0).handleBusy 0 255 = false ∧ (s 0).handleCheck ((s 0).selEntry 0) = 0 ∧ (s (2 ^ 63)).handleCheck ((s (2 ^ 63)).selEntry 0) = 4 ∧
    (s (2 ^ 63)).handleBusy 0 255 = false ∧ ((s 0).core 0).pools = [] := by decide +kernel

theorem test_pool_write : ((after (.creditPoolWrite c0 31 1024) State.reset).core 0).pool 31 = { Pool.reset with limit := 1024, avail := 1024 } := by
  decide +kernel

/-- R223, R226: a core with a handle that charges pool 31 of LIMIT 1 with one credit, with none, of LIMIT 0, and one that charges none;
a fused core absorbs. -/
theorem wit_Credits : let h := mkW [(24, 5, 31), (29, 1, 1)]
    let s := fun p => withCore fun c => { c with handles := [(255, h)], pools := [(31, p)] }
    (∀ p ∈ [Pool.mk 1 1 false false 0 [] 0, Pool.mk 1 0 false false 0 [] 0, Pool.mk 0 0 true false 0 [] 3],
      (s p).powered = true ∧ (s p).coreAbsorbed 0 = false ∧ hPOOLEN (((s p).core 0).handle 255) = true ∧
      hPOOL (((s p).core 0).handle 255) = 31 ∧ ((s p).core 0).pool 31 = p ∧ p.waiting = []) ∧
    hPOOLEN ((State.reset.core 0).handle 0) = false ∧ ({ State.reset with fenced := [0] }).coreAbsorbed 0 = true := by decide +kernel

/-- A segment on its way from core 0 to core 1 of this package. -/
def segment : Packet := ⟨mkW [(4, 2, 1), (35, 11, 8), (64, 48, 2 ^ 28), (112, 8, 0)], List.replicate 8 0, false⟩

/-- A transfer that waits for a credit. -/
def xfer0 : Xfer where
  txid := 0xFFF
  queue := 8
  seq := 0
  opcode := 0x41
  sig := false
  dest := 1
  dh := 0
  unsent := [segment]
  needCredit := true
  requested := 1
  grants := []
  unanswered := 0
  verdict := false
  codes := []
  ended := false
  flag := .none
  flagPkt := none
  replayed := false
  landing := []
  late := false
  circ := none

/-- R204, R223, R518: a grant to a transfer that waits, to one that has ended; a refusal. -/
theorem wit_CreditGrants : let s := fun x => withCore fun c => { c with xfers := [x] }
    (∀ x ∈ [xfer0, { xfer0 with ended := true, unsent := [], unanswered := 1 }],
      (s x).powered = true ∧ (s x).bridgeAt 0 = none ∧ a20Pkg 0 = (s x).position ∧ destOk 0 = true ∧ ((s x).core 0).xfers = [x] ∧
      x.txid = 0xFFF ∧ x.requested = 1 ∧ x.flag = .none ∧ x.grants = [] ∧ x.late = false ∧ x.codes = []) ∧
    xfer0.ended = false ∧ xfer0.needCredit = true ∧ xfer0.unsent = [segment] ∧ ((s xfer0).core 0).room 1 = true ∧
    ((s xfer0).core 0).holds 1 = false ∧ kPKG segment = 0 := by decide +kernel

theorem test_grant_sends : (after (.creditGrant 0 0xFFF 0 0) (withCore fun c => { c with xfers := [xfer0] })).net.length = 1 := by decide +kernel

/-! ## Host commands, packets, hops -/

/-- R205, R235, R402: after power-on function 0 of port 0 carries partition 0, which owns core 0; a link that is up or down, one piece
of 8 bytes at the start of window 0 of 4 KiB. -/
theorem wit_hostCommands : let x := exec0 [(0, actHandle)]
    let d := fun op => mkW [(0, 8, op), (64, 32, 8), (96, 32, 1)]
    let s := fun op rate => ((((working 13 (d op) 0 x).setFld (aPort 0 0) 0 3 rate).wr (aFn 0 0 0x108) 0x1003).setFld (aRing 0 0x10) 0 6 0x24)
    State.reset.partOfKey (kOf c0) = 0 ∧ State.reset.carrier 0 = some (0, 0) ∧
    (∀ op ∈ [0x45, 0x46, 0x47, 0x48], ∀ rate ∈ [0, 5], worksB (s op rate) (kOf c0) 13 op (item0 (d op) 0 x) x = true ∧
      (s op rate).linkUp 0 = decide (rate ≠ 0) ∧ (s op rate).carrier 0 = some (0, 0) ∧ ((s op rate).pport 0).reads = [] ∧
      ((s op rate).pport 0).buf = [] ∧ (s op rate).winCheck 0 0 (some 7) true false = 0 ∧
        (s op rate).winCheck 0 0 (some 7) false true = 0) ∧
    x.progress = 0 ∧ ((s 0x47 0).pport 0).pieces 0 13 0 = [] ∧ readPieces 512 actHandle (d 0x46) = [((0, 8), [(2 ^ 26 + 64, 8)])] ∧
    mSIZE (d 0x47) = 8 := by decide +kernel

/-- R235, R398: a `HOST_WRITE` whose 8 bytes fit, and a `HOST_POST` of one entry into ring 0 of 16 entries, with CQ tail 0 and 15. -/
theorem wit_HostWritesEnter : let x := exec0 [(0, actHandle)]
    let d := fun op => mkW [(0, 8, op), (64, 32, 8), (96, 32, 1)]
    let s := fun op tail => ((working 13 (d op) 0 x).setFld (aRing 0 0x10) 0 6 0x24).wr (aRing 0 0x20) (BitVec.ofNat 64 tail * 0x1000100000000)
    (s 0x45 0).srcRestore 0 actHandle (d 0x45) [] = [] ∧ (s 0x45 0).srcDamage 0 actHandle (d 0x45) [] = none ∧
    ((s 0x45 0).pport 0).heldBytes + (((s 0x45 0).hostPieces 0 actHandle (d 0x45) []).map fun e => e.2.1.length).sum = 8 ∧
    ∀ tail ∈ [0, 15], (s 0x48 tail).ringEn 0 = true ∧ (s 0x48 tail).ringN 0 = 16 ∧ (s 0x48 tail).cqTail 0 = tail ∧
      (s 0x48 tail).postable 0 0 1 = 1 ∧ (s 0x48 tail).damage 0 1 64 62 [] = none := by decide +kernel

/-- A packet of type `ty` from core 0 to core 1, of header fields `fs` and payload `bs`. -/
def packet (ty : Nat) (fs : List (Nat × Nat × Nat)) (bs : List Byte) : Packet :=
  ⟨mkW ([(0, 4, ty), (4, 2, classOf ty), (35, 11, bs.length), (64, 48, 2 ^ 28)] ++ fs), bs, false⟩

/-- Core 1 with one remote, readable handle 0 of `space` at offset 64, of 16 bytes. -/
def receiving (space : Nat) : State :=
  State.reset.modCore 1 fun c => { c with handles := [(0, mkW [(0, 1, 1), (1, 1, 1), (3, 1, 1), (4, 2, space), (128, 22, 64), (150, 23, 16)])] }

/-- R66, R74, R87: a raw `WRITE` at the end of activation memory; a `WRITE` and an `ACC` of the last 8 bytes of a handle, of ARG 15;
with ARG 16 the handle refuses; a fenced core's packet is absorbed. -/
theorem wit_SegmentsArrive : let raw := packet 0 [(9, 1, 1), (64, 48, 2 ^ 28 + 2 ^ 26 + 0xFFFF8)] (List.replicate 8 1)
    let p := fun ty arg => packet ty [(64, 48, 2 ^ 28 + 8), (224, 32, arg)] (List.replicate 8 1)
    (receiving 1).arrives raw = true ∧ isCoreAt (kDADDR raw) = true ∧ packetOk raw = true ∧ kPOISON raw = 0 ∧ kRAW raw = true ∧
    (receiving 1).rawOk raw = true ∧ (∀ e ∈ [(0, 1), (1, 2)], ∀ arg ∈ [15, 16], let h := ((receiving e.2).core 1).handle 0
      (receiving e.2).arrives (p e.1 arg) = true ∧ keyAt (kDADDR (p e.1 arg)) = 1 ∧ isCoreAt (kDADDR (p e.1 arg)) = true ∧
      packetOk (p e.1 arg) = true ∧ kPOISON (p e.1 arg) = 0 ∧ kRAW (p e.1 arg) = false ∧ kSEGNO (p e.1 arg) = 0 ∧ kTYPE (p e.1 arg) = e.1 ∧
      rxCheck (p e.1 arg) h arg = (if arg = 15 then 0 else 3) ∧ inSide (p e.1 arg) h = true ∧ a20Pkg (kSRC (p e.1 arg)) = 0 ∧
      (p e.1 arg).replayed = false) ∧
    ({ receiving 1 with fenced := [1] }).absorbs (p 0 15) = true := by decide +kernel

theorem test_segment_written : let p := packet 0 [(64, 48, 2 ^ 28 + 8), (224, 32, 15)] [9, 0, 0, 0, 0, 0, 0, 7]
    let t := after (.writeSegment p) { receiving 1 with net := [p] }
    t.byte (coreAddr 1 1 72) = 9 ∧ t.byte (coreAddr 1 1 79) = 7 := by decide +kernel

/-- R74, R258: a read of 8 bytes through a handle and a raw one. -/
theorem wit_ReadsAndAnswers : let p := fun raw => packet 2 [(35, 11, 8), (9, 1, raw), (64, 48, 2 ^ 28 + 2 ^ 26 + 8), (224, 32, 15)] []
    ∀ raw ∈ [0, 1], let s := receiving 1
      s.arrives (p raw) = true ∧ isCoreAt (kDADDR (p raw)) = true ∧ packetOk (p raw) = true ∧ kTYPE (p raw) = 2 ∧
      a20Pkg (kSRC (p raw)) = s.position ∧ (s.core 1).restore = none ∧ s.damage 1 1 (if raw = 1 then 8 else 72) 8 [] = none ∧
      (if kRAW (p raw) then s.rawOk (p raw) = true else
        kSEGNO (p raw) = 0 ∧ rxCheck (p raw) ((s.core 1).handle 0) 15 = 0 ∧ inSide (p raw) ((s.core 1).handle 0) = true) := by
  decide +kernel

/-- R258: an ACK and a read response of 8 bytes reach the core whose transfer waits for them. -/
theorem wit_ReadsAndAnswers_back : let x := fun op => { xfer0 with txid := 5, opcode := op, unsent := [], requested := 0, needCredit := false, unanswered := 1, landing := [(0, [(2 ^ 26 + 64, 8)])] }
    ∀ e ∈ [(4, 0x41, []), (3, 0x44, List.replicate 8 (1 : Byte))], let p := packet e.1 [(148, 12, 5)] e.2.2
      let s := State.reset.modCore 1 fun c => { c with xfers := [x e.2.1] }
      s.arrives p = true ∧ isCoreAt (kDADDR p) = true ∧ packetOk p = true ∧ codeOf (BitVec.ofNat 16 (kARG p)) = 0 ∧
      (s.core 1).xfers = [x e.2.1] ∧ (x e.2.1).txid = kTXID p ∧ (x e.2.1).unsent = [] ∧ (x e.2.1).requested = 0 ∧
      (x e.2.1).needCredit = false ∧ (x e.2.1).flag = .none ∧ (x e.2.1).late = false ∧ (x e.2.1).opcode ≠ 0x49 ∧ kTYPE p = e.1 ∧
      kPOISON p = 0 ∧ (s.core 1).restore = none ∧ (e.1 = 3 → (x e.2.1).landingOf (kSEGNO p) = [(2 ^ 26 + 64, p.payload.length)]) := by
  decide +kernel

/-- R217, R268 to R270: a flag packet of the imprint in force and of another; a held one that may leave, one whose destination owes an
answer. -/
theorem wit_FlagPackets : let p := fun tag => packet 5 [(10, 12, tag), (112, 8, 255), (224, 32, 0xFFFFFFFF)] []
    let tag := State.reset.imprintTag
    let s := fun aw => withCore fun c => { c with held := [(p 0, none, 8, 0)], awaiting := aw }
    (∀ e ∈ [tag, (tag + 1) % 4096], State.reset.arrives (p e) = true ∧ isCoreAt (kDADDR (p e)) = true ∧ packetOk (p e) = true ∧
      kTYPE (p e) = 5 ∧ a20Pkg (kSRC (p e)) = 0 ∧ kITAG (p e) = e) ∧
    (∀ aw ∈ [[], [(1, 1)]], (s aw).live 0 = true ∧ ((s aw).core 0).held = [(p 0, none, 8, 0)] ∧ ((s aw).core 0).xfers = [] ∧
      kPKG (p 0) = (s aw).position ∧ (s aw).flagHold = false ∧ ((s aw).core 0).room (nameAt (kDADDR (p 0))) = true ∧
      (((s aw).core 0).awaitOf (nameAt (kDADDR (p 0))) = 0 ↔ aw = [])) := by decide +kernel

/-- R262 to R264: a probe of one slot from core 0 to core 1, with its way free and with its first hop full; a release. -/
theorem wit_ProbesAndReleases : let p := fun ty => packet ty [(224, 32, 7 + 2 ^ 12)] []
    ∃ hops, hops ≠ [] ∧ State.reset.circHops 0 (kDADDR (p 6)) = some (hops, none) ∧
      (∀ ty ∈ [6, 7], ({ State.reset with net := [p ty] }).probeOf ty 0 7 = some (p ty) ∧ State.reset.absorbs (p ty) = false ∧
        kPKG (p ty) = 0 ∧ a20Pkg 0 = State.reset.position) ∧
      State.reset.armedHop (ownerOf 0 7) (probeSlots (p 6)) hops = none ∧ State.reset.blockedHop (probeSlots (p 6)) hops = none ∧
      Tbl.wf 0 State.reset.slots = true ∧
      (hops.foldl (fun s h => s.takeSlots h 9 32 (List.range 32)) State.reset).blockedHop (probeSlots (p 6)) hops ≠ none := by
  refine ⟨((State.reset.circHops 0 (kDADDR (packet 6 [(224, 32, 7 + 2 ^ 12)] []))).getD ([], none)).1, ?_⟩
  decide +kernel

/-- R87, R248, R515: a raw write of a core's metadata and of a program store, a write and a read of a flag. -/
theorem wit_RawAccesses : let core := fun off => 2 ^ 28 + 3 * 2 ^ 26 + off
    let p := fun at' bs => packet 8 [(4, 2, classOf 8), (64, 48, at')] bs
    let rd := packet 8 [(64, 48, core 0x100000), (224, 32, 4)] []
    (∀ e ∈ [(core 0x200000, [1]), (core 0x20FFFF, [1]), (31 * 2 ^ 28, [1]), (core 0x1003FC, [1, 2, 3, 4])], let q := p e.1 e.2
      State.reset.arrives q = true ∧ packetOk q = true ∧ kTYPE q = 8 ∧ a20Pkg (kSRC q) = State.reset.position ∧ q.payload ≠ []) ∧
    rawPlace (kDADDR (p (core 0x20FFFF) [1])) 1 = .bytes (coreAddr 1 3 0x20FFFF) ∧
    rawPlace (kDADDR (p (31 * 2 ^ 28) [1])) 1 = .bytes (storeAddr 0 0) ∧
    rawPlace (kDADDR (p (core 0x1003FC) [1, 2, 3, 4])) 4 = .flags 1 0x3FC ∧ 0x3FC % 4 = 0 ∧
    State.reset.arrives rd = true ∧ packetOk rd = true ∧ kLEN rd = 0 ∧ kARG rd = 4 ∧ rawPlace (kDADDR rd) (kSPAN rd) = .flags 1 0 ∧
      0 % 4 = 0 := by
  decide +kernel

theorem test_raw_flag : let p := packet 8 [(64, 48, 2 ^ 28 + 3 * 2 ^ 26 + 0x1003FC)] [1, 2, 3, 4]
    ((after (.ctrlRawAccess p) { State.reset with net := [p] }).core 1).flag 255 = 0x04030201 := by decide +kernel

/-- R440, R239, R267: a packet in flight over a hop; a core blocked for 4,097 ticks behind a handle that a command holds; a circuit
whose far side lies in another package when its port goes down. -/
theorem wit_HopsCensusBreaks : let p := packet 0 [] []
    let waits := mkW [(0, 8, 0x61), (96, 32, 1)]
    let s := withCore fun c => { c with census := 4097, fifo := [(14, [item0 waits 0 (exec0 [])])] }
    let u := State.reset.wr (aCirc 0 0) (BitVec.ofNat 64 (7 + 2 ^ 12 + 2 ^ 38))
    p ∈ ({ State.reset with net := [p] }).net ∧ State.reset.powered = true ∧ a20Pkg (kSRC p) = State.reset.position ∧ kTYPE p = 0 ∧
    7 < 8 ∧ 8 ≤ 8 ∧ s.live 0 = true ∧ 4096 < (s.core 0).census ∧ s.censusBlocked 0 = true ∧
    u.circEntry 0 7 = some 0 ∧ u.fld (aCirc 0 0) 14 1 = 0 ∧ u.circGone 0 0 7 .portDown = true := by decide +kernel

/-! ## Ronnen ports -/

/-- A fold that holds its value as a numeral at each element. -/
def foldNow {α : Type} (f : Nat → α → Nat) : List α → Nat → Nat
  | [], a => a
  | c :: cs, a =>
    match f a c with
    | 0 => foldNow f cs 0
    | n + 1 => foldNow f cs (n + 1)

theorem foldNow_eq {α : Type} (f : Nat → α → Nat) (cs : List α) (a : Nat) : foldNow f cs a = cs.foldl f a := by
  induction cs generalizing a with
  | nil => rfl
  | cons c cs ih => rw [foldNow, List.foldl_cons]; split <;> rename_i h <;> rw [ih, h]

/-- A DATA flit of number 65,535 that carries a whole packet without payload. -/
def flit0 : WireFlit := ⟨1, 65535, ⟨0, true, true, 0, List.replicate 256 0, false⟩, 0, false, false, List.replicate 8 0, false⟩

/-- Its codeword. -/
def word0 : List Nat := [385, 960, 1023, 7] ++ List.replicate 252 0 ++ [591, 770, 717, 325, 260, 948, 567, 379, 610, 372, 994, 96, 545, 207, 664, 610]

theorem word0_syndromes : (List.range 16).all (fun i => decide (foldNow (fun a c => gfMul a (alpha i) ^^^ c) word0 0 = 0)) = true := by
  decide +kernel

theorem word0_value : foldNow (fun a (e : Nat × Nat) => a + e.1 * 2 ^ (10 * e.2)) (word0.take 256).zipIdx 0 = 8589869441 := by decide +kernel

/-- R282, R284: the codeword of that flit decodes to it with no symbol corrected. -/
theorem wit_FlitsAndReplay_codeword : receiveFlit word0 = some (flit0, []) := by
  have h : (syndromes word0).all (· = 0) = true := by
    rw [List.all_eq_true]
    rintro x hx
    obtain ⟨i, hi, rfl⟩ := List.mem_map.mp hx
    have := List.all_eq_true.mp word0_syndromes i hi
    rw [foldNow_eq] at this
    exact this
  have hn : (word0.take 256).zipIdx.foldl (fun a (e : Nat × Nat) => a + e.1 * 2 ^ (10 * e.2)) 0 = 8589869441 := by
    rw [← foldNow_eq]; exact word0_value
  have hl : ¬ (word0.length ≠ 272 ∨ word0.any (1024 ≤ ·) = true) := by decide +kernel
  have hd : rsDecode word0 = some (word0, []) := by simp only [rsDecode, h, if_true]
  have hu : (unpackWords (word0.take 256)).bind flitOf = some flit0 := by
    unfold unpackWords
    rw [hn]
    decide +kernel
  simp only [receiveFlit, if_neg hl, hd, hu]

/-- Port 11 in a state of R293, its partner in another, with its own changes. -/
def port11 (st other : Nat) (f : RPort → RPort) : State :=
  ((State.reset.modRport 11 f).setFld (aRnn 11 8) 0 4 st).setFld (aRnn 10 8) 0 4 other

/-- R285, R289 to R291: what cannot be decoded; a port that expects the flit above; two flits to replay for the first and for the eighth
time, acknowledged up to their predecessor, 250 ticks after the last acknowledgement. -/
theorem wit_FlitsAndReplay : receiveFlit [] = none ∧ flit0.ftype = 1 ∧ flit0.ackv = false ∧ flit0.nak = false ∧
    flit0.seq = ((port11 5 5 fun r => { r with rxNext := 65535 }).rport 11).rxNext ∧ flit0.body.first = true ∧ flit0.body.last = true ∧
    kPKG (packetOf [flit0.body] false) = State.reset.position ∧
    ∀ n ∈ [0, 7], let s := { port11 5 5 (fun r => { r with replay := [⟨3, flit0.body⟩, ⟨4, flit0.body⟩], sameStart := n, lastStart := 3 }) with tick := 250 }
      s.powered = true ∧ s.rnnState 11 = 5 ∧ (s.rport 11).replay = [⟨3, flit0.body⟩, ⟨4, flit0.body⟩] ∧ (s.rport 11).sameStart < 8 ∧
      seqAfter 3 (2#16).toNat = true ∧ (s.rport 11).lastAckTick + 250 ≤ s.tick := by decide +kernel

theorem test_nak_retrains : (after (.ronnenNak 11 2) (port11 5 5 fun r => { r with replay := [⟨3, flit0.body⟩], sameStart := 7, lastStart := 3 })).rnnState 11
    = 6 := by decide +kernel

/-- R293, R294: every state that a clause names; a port of a role, enabled, that may leave DOWN a second after it went. -/
theorem wit_PortTraining : (∀ st ∈ [1, 2, 3, 4, 5, 6, 7], (port11 st 0 id).powered = true ∧ (port11 st 0 id).rnnState 11 = st) ∧
    (let s := { (port11 4 0 id).setFld (aRnn 11 8) 6 1 1 with tick := 2500000 }
     s.rnnState 11 = 4 ∧ s.fld (aRnn 11 8) 6 1 = 1 ∧ (s.rport 11).identTick + 2500000 ≤ s.tick) ∧
    (let s := { (port11 7 0 id).setFld (aRnn 11 8) 22 3 5 with tick := 250000000 }
     s.rnnState 11 = 7 ∧ s.mayTrain 11 = true ∧ (s.rport 11).downTick + 250000000 ≤ s.tick) := by decide +kernel

theorem test_training : (after (.ronnenTrainingStep 11 true none none) (port11 6 0 id)).rnnState 11 = 4 ∧
    (after (.ronnenTrainingStep 11 false none none) (port11 6 0 fun r => { r with retrainFails := 1 })).rnnState 11 = 6 ∧
    (after (.ronnenTrainingStep 11 false none none) (port11 6 0 fun r => { r with retrainFails := 2 })).rnnState 11 = 7 := by decide +kernel

/-- R295, R296: a port that goes DOWN beside one in INIT, one that has been out for 10 µs with a flit to send, a swap of lane 7 about to
take effect. -/
theorem wit_PortsAndLanesDown : (∀ st ∈ [4, 5, 6], (port11 st 4 id).rnnState 11 = st ∧ (port11 st 4 id).rnnState 10 = 4) ∧
    (∀ st ∈ [6, 7], let s := { port11 st 4 (fun r => { r with txWait := [flit0.body] }) with tick := 2500 }
      s.powered = true ∧ s.rnnState 11 = st ∧ s.rnnState 10 = 4 ∧ (s.rport 11).outTick + 2500 ≤ s.tick ∧ (s.rport 11).flits ≠ []) ∧
    (let s := port11 5 4 fun r => { r with swaps := [(false, 7)] }
     (s.rport 11).swaps = [(false, 7)] ∧ s.logicalOf 11 0 7 = some 7 ∧ s.logicalOf 11 0 8 = none ∧ s.rnnState 11 = 5) := by decide +kernel

theorem test_lane_switch : (after (.laneSwitch 11) (port11 5 4 fun r => { r with swaps := [(false, 7)] })).fld (aRnn 11 0x10) 28 4 = 8 := by
  decide +kernel

/-- R298 to R300: a package at position 1 whose parent's port is 11, not yet aligned and aligned; offsets of 16 and 17 units. -/
theorem wit_AlignmentAndLoops_sync : let s := fun synced => { (((port11 5 0 id).setSynced synced) : State) with
      position := 1, parentPort := 11, alignedOnce := false, tick := 1 }
    (∀ x ∈ [0, 1], (s x).powered = true ∧ (s x).isRoot = false ∧ (s x).rnnState 11 = 5 ∧ (s x).syncPort = 11 ∧ (s x).parentPort < 12 ∧
      (s x).fld (aRnn (s x).parentPort 8) 4 1 = x ∧ (s x).alignedOnce = false ∧ (s x).anyArmed = false) ∧
    syncOffset 0 16 16 0 = 16 ∧ syncOffset 0 17 17 0 = 17 ∧ 0 ≤ ((1 * 64 + 0 : Nat) : Int) + syncOffset 64 0 0 64 := by decide +kernel

/-- R301: LOOP_EN written at depths 1 and 5, and cleared; a peer's request at depths 2 and 4, at none, and its end. -/
theorem wit_AlignmentAndLoops_loops : (∀ v ∈ [(13 : Nat), 45], let v := BitVec.ofNat 64 v
      v.getLsbD 0 = true ∧ v.getLsbD 1 = false ∧ v.getLsbD 2 = true ∧ (getF v 3 3 = 1 ∨ getF v 3 3 = 5)) ∧
    (1#64).getLsbD 0 = true ∧ (1#64).getLsbD 2 = false ∧
    (let s := port11 5 0 id
     s.mayWrite .colophon (aRnn 11 0) = true ∧ s.portFused 11 = false ∧ s.rnnState 11 = 5 ∧ s.fld (aRnn 11 0) 2 1 = 0) ∧
    (let s := (port11 8 0 fun r => { r with reflect := 2 }).setFld (aRnn 11 0) 2 1 1
     s.mayWrite .colophon (aRnn 11 0) = true ∧ s.rnnState 11 = 8 ∧ s.fld (aRnn 11 0) 2 1 = 1 ∧ (s.rport 11).reflect ≠ 0) ∧
    2 ≤ (2#3).toNat ∧ (4#3).toNat ≤ 4 ∧ (1#3).toNat < 2 ∧ 4 < (5#3).toNat := by decide +kernel

/-! ## Rate, power, temperature -/

/-- R312, R313, R464: the colophon and the host write; a change armed for now, with a code to be taken. -/
theorem wit_SetpointChanges : State.reset.mayWrite .colophon aRateNext = true ∧ State.reset.mayManage (.func 0 0) (aMgt 0x20) = true ∧
    (let s := { State.reset with rateArm := some (36, 5), tick := 5 }
     s.powered = true ∧ s.rateArm = some (36, 5) ∧ 5 ≤ s.tick ∧ 36 < 64) := by decide +kernel

/-- R312: code 20 with ARM set is taken for tick 2,500, and tick 2,495 is too early; code 9 is no code. -/
theorem test_rate_next : let w := fun (t c : Nat) => after (.pkgRateNextWrite .colophon (BitVec.ofNat 64 (t * 2 ^ 24 + c + 64))) State.reset
    (w 2500 20).rateArm = some (20, 2500) ∧ (w 2495 20).fld aRateNext 16 8 = 2 ∧ (w 2500 9).fld aRateNext 16 8 = 4 := by decide +kernel

/-- R25 to R28, R306, R463: a limit; the factors at which a measurement acts; a droop of 64 on a die without one, its passing. -/
theorem wit_PowerCap : State.reset.mayManage .colophon (aMgt 0x10) = true ∧ State.reset.powered = true ∧
    (∀ f ∈ [33, 63, 64], (State.reset.setFld (aMgt 0x10) 16 7 f).capFactor = f) ∧ (1450001 :: List.replicate 67 0).sum = 1450001 ∧
    (1450001 :: List.replicate 67 0).length ≤ 68 ∧ ((0 :: State.reset.thermal.window).take 5000).sum = 0 ∧ 64 ≤ 64 ∧
    (State.reset.die 63).demand = 0 ∧ ((State.reset.modDie 63 fun d => { d with demand := 64 }).die 63).demand ≠ 0 := by decide +kernel

/-- R26, R28: whatever the margins, 1,450,001 mW are past the fast limit and none is past either; 5 ms at the floor over the limit. -/
theorem wit_PowerCap_limits : fastLimit < 1450001 ∧ ¬ (State.reset.slowLimit * 5000 < 0 ∨ fastLimit < 0) ∧
    ∃ s : State, s.powered = true ∧ s.slowOver = true ∧ s.thermal.floorSince = some 0 ∧ 0 + 1250000 ≤ s.tick := by
  refine ⟨Nat.lt_succ_of_le (Nat.sub_le _ _), by omega, { State.reset with
    thermal := { State.reset.thermal with window := [1200000 * 5000 + 1], floorSince := some 0 }, tick := 1250000 }, rfl, ?_, rfl, by decide⟩
  have h : State.reset.fld (aMgt 0x10) 8 7 = 120 := by decide +kernel
  have h' : State.reset.slowLimit ≤ 1200000 := by unfold State.slowLimit; rw [h]; exact Nat.sub_le _ _
  exact decide_eq_true (by change State.reset.slowLimit * 5000 < 1200000 * 5000 + 1; omega)

theorem test_cap_limit : let w := fun (l : Nat) => after (.mgtCapWrite .colophon (BitVec.ofNat 64 l)) State.reset
    (w 60).fld (aMgt 0x10) 0 7 = 60 ∧ (w 59).fld (aMgt 0x10) 24 8 = 4 ∧ (w 121).fld (aMgt 0x10) 24 8 = 4 := by decide +kernel

/-- R459 to R461: samples at every threshold and one above TTRIP after another; 10 ms of THOT at ceiling 11; an input below VIN_LOW. -/
theorem wit_ThermalAndSupply : let t := fun (m : Nat) => 4 * (m : Int)
    let n := State.reset.sensors
    (State.reset.tick % 250000 = 0 ∧ State.reset.thermalCeil = 36 ∧ t n.1 ≤ t n.1 ∧ t n.1 ≤ t n.2.1 ∧ t n.1 ≤ t n.2.2.1) ∧
    (let s := { State.reset with thermal := { State.reset.thermal with tripNext := true } }
     s.thermal.tripNext = true ∧ s.thermal.trip10 = false ∧ t s.sensors.2.2.1 + 1 > 4 * (s.sensors.2.2.1 : Int)) ∧
    (let s := { (State.reset.setFld (aMgt 0x18) 0 6 11) with thermal := { State.reset.thermal with hot := true }, tick := 2500000 }
     s.powered = true ∧ s.thermal.hot = true ∧ s.thermal.hotSince + 2500000 ≤ s.tick ∧ 10 < s.ceiling) ∧ 0 < n.2.2.2.1 := by decide +kernel

theorem test_second_trip : let s := { State.reset with thermal := { State.reset.thermal with tripNext := true } }
    (after (.thermalSample [(4 * (s.sensors.2.2.1 : Int) + 1, 0)]) s).fld (aMgt 0x10) 0 7 = 60 := by decide +kernel

/-! ## Contexts, Efxis images, rings -/

/-- A plate of 64 slots that starts core 0. -/
def plate0 : Plate := ⟨64, 0, 0, 0, [0], [0], [], List.replicate 32 0, 0, 0⟩

/-- A manifest of one shard of 128 bytes for die 0, its target handle 0 of core 0. -/
def manifest0 (edition : Bool) : Manifest :=
  ⟨edition, 0, 5, 0, List.replicate 32 0,
    [⟨0, 0, 0, 0, 0, 0, 0, 128, 0, 0, List.replicate 32 0, [⟨0, 0, edition, false, if edition then 0x20000 else 0, 0, 128⟩]⟩],
    List.replicate 32 0⟩

/-- Partition 0 in a state of R334 and R348 with that plate. -/
def context (ctx ed : Nat) (f : Part → Part) : State :=
  ((State.reset.modPart 0 fun p => f { p with plate := some plate0 }).setCtxState 0 ctx).setEdload 0 ed

/-- R350, R352 to R355: every command's operands; an ARM that is accepted and two that are refused; an edition loaded and not; commits and
slot map words for a pass to come and for one that is past. -/
theorem wit_ContextCommands : (∀ a ∈ [aCtx 0 0, aCtxSlotmap 0 0, aCtxSlotmap 0 63], State.reset.mayWrite (.func 0 0) a = true) ∧
    (∀ ctx ∈ [0, 1, 2, 3, 4], ((context ctx 0 id).part 0).plate = some plate0 ∧ (context ctx 0 id).ctxState 0 = ctx ∧
      (context ctx 0 id).resets = [] ∧ (context ctx 0 id).replayHolds 0 = false ∧ ((context ctx 0 id).part 0).held = []) ∧
    ((context 2 0 id).wr (aCtx 0 0x20) 2500).armCode 0 = 0 ∧ ((context 2 0 id).wr (aCtx 0 0x20) 2499).armCode 0 = 2 ∧
      (context 1 0 id).armCode 0 = 5 ∧
    (let s := fun pass => ((context 4 2 fun p => { p with pending := some (manifest0 true) }).setFld (aCtx 0 0x30) 0 32 5).setFld (aCtx 0 0x38) 0 32 pass
     (s 1).edload 0 = 2 ∧ ((s 1).part 0).pending = some (manifest0 true) ∧ (manifest0 true).number.toNat = (s 1).fld (aCtx 0 0x30) 0 32 ∧
     passAbove ((s 1).namedPass 0 (BitVec.ofNat 32 ((s 1).fld (aCtx 0 0x38) 0 32))) ((s 1).passNow 0) = true ∧
     passAbove ((s 0x80000000).namedPass 0 (BitVec.ofNat 32 ((s 0x80000000).fld (aCtx 0 0x38) 0 32))) ((s 1).passNow 0) = false) ∧
    overSlots plate0.slots 0 (BitVec.allOnes 64) = false ∧ overSlots plate0.slots 1 1 = true ∧
      (context 4 0 id).edload 0 = 0 := by decide +kernel

/-- R355: a part that drains and is idle, one that is not 10 ms after STOP. -/
theorem wit_ContextCommands_drains : (context 5 0 id).partIdle 0 = true ∧ (context 5 0 id).powered = true ∧
    (let s := { (context 5 0 id).modCore 0 (fun c => { c with awaiting := [(1, 1)] }) with tick := 2500000 }
     s.ctxState 0 = 5 ∧ s.partIdle 0 = false ∧ (s.part 0).stopTick + 2500000 ≤ s.tick ∧ s.resets = []) := by decide +kernel

theorem test_arm : let t := after (.ctxArm .colophon 0 2) (((context 2 0 id).wr (aCtx 0 0x20) 2500).wr (aCtx 0 0x28) 7)
    t.ctxState 0 = 3 ∧ (t.core 0).armed = true ∧ (t.core 0).startTick = 2500 ∧ t.rd (aCoreK 0 0x2C0) = 7 := by decide +kernel

theorem test_stop : (after (.ctxStop .colophon 0 3) ((context 4 0 id).modCore 0 fun c => { c with run := true })).ctxState 0 = 5 := by decide +kernel

theorem any_of {α : Type} {o : Option α} {q : α → Bool} (h : o.any q = true) : ∃ x, o = some x ∧ q x = true := by
  cases o with
  | none => cases h
  | some x => exact ⟨x, rfl, h⟩

theorem read_ok {s : State} {p w off n : Nat} {bs : List Byte} (hn : bs.length = n) (h0 : 0 < n)
    (h : s.winCheck p w (some (off + n - 1)) true false = 0) : s.readHost p w off (.data bs) = .ok bs := by
  have h1 : bs ≠ [] := by rintro rfl; simp at hn; omega
  subst hn
  simp [State.readHost, h1, h, cDONE]

/-- The bytes of such a manifest, with a signature of zeros. -/
def manifestBytes (kind : Byte) : List Byte :=
  [0x46, 0x4D, 0x58, 0x4A, 1, 0, kind, 0, 5, 0, 0, 0, 1] ++ List.replicate 51 0 ++
  [0, 0, 0, 0, 0, 0, 0, 1, 128] ++ List.replicate 55 0 ++ [0, 0, kind, 0, 0, 0, 2 * kind, 0, 0, 0, 0, 0, 128, 0, 0, 0] ++ List.replicate 29792 0

/-- The bytes of a plate of one section, the state of core 0. -/
def plateBytes : List Byte :=
  [0x50, 0x50, 0x58, 0x4A, 1, 0, 0, 1, 0, 0, 64, 0, 0, 0, 0, 0, 0, 0, 0, 0, 1, 0, 0, 0, 0x58, 1] ++ List.replicate 38 0 ++
  [5, 0, 0, 0, 8, 1] ++ List.replicate 10 0 ++ List.replicate 264 0

/-- R335 to R341: the bytes of a plate and of a manifest for a partition that holds nothing, read through window 0. -/
theorem wit_ContextLoads_cold : let s := (State.reset.wr (aFn 0 0 0x108) 0x10003)
    (∃ x, manifestOf (manifestBytes 0) = some x ∧ decide (x.2.2.edition = false) = true) ∧ (∃ x, plateSections plateBytes = some x ∧
      decide (x.length = 1) = true) ∧
    s.mayWrite .colophon (aCtx 0 0) = true ∧ s.goingOff = false ∧ s.ctxState 0 = 0 ∧
    (s.ctxFields 0 1).readHost 0 0 0 (.data (manifestBytes 0)) = .ok (manifestBytes 0) ∧
    (s.ctxFields 0 1).readHost 0 0 0 (.data plateBytes) = .ok plateBytes :=
  ⟨any_of (by decide +kernel), any_of (by decide +kernel), by decide +kernel, by decide +kernel, by decide +kernel,
    read_ok (n := 29936) (by simp only [manifestBytes, List.length_append, List.length_replicate, List.length_cons, List.length_nil]) (by decide) (by decide +kernel),
    read_ok (n := 344) (by simp only [plateBytes, List.length_append, List.length_replicate, List.length_cons, List.length_nil]) (by decide) (by decide +kernel)⟩

/-- A part that is loaded or runs, whose core 0 holds a weight handle of one tile row. -/
def editionContext (ctx : Nat) : State :=
  (context ctx 0 id).modCore 0 fun c => { c with handles := [(0, mkW [(0, 1, 1), (1, 1, 1), (8, 8, 2), (150, 23, 0x1000)])] }

/-- The manifest fits it. -/
def editionFits (m : Manifest) (ctx : Nat) : Bool :=
  let s := editionContext ctx
  decide (m.edition = true ∧ s.ctxState 0 = ctx ∧ s.edload 0 = 0 ∧ (s.part 0).plate.isSome = true ∧
    ((s.part 0).plate.map (·.digest)) = some m.plateDigest ∧ s.targetsCode 0 m = 0 ∧ m.targets.all (s.pendingOk m) = true)

/-- R348: an edition for a part that is loaded or runs, whose pending side lies clear. -/
theorem wit_ContextLoads_edition : ∃ x : List Byte × List Byte × Manifest, manifestOf (manifestBytes 1) = some x ∧
    (editionFits x.2.2 2 && editionFits x.2.2 4) = true :=
  any_of (q := fun x : List Byte × List Byte × Manifest => editionFits x.2.2 2 && editionFits x.2.2 4) (by decide +kernel)

/-- R342 to R346: a shard with bytes to come, one that its last bytes complete, an attempt refused, 100 ms without a byte, the load's
time at its end; a peer's request. -/
theorem wit_ContextLoads_shards : let f : Fetch := ⟨(manifest0 false).shards.headD ⟨0, 0, 0, 0, 0, 0, 0, 0, 0, 0, [], []⟩, List.replicate 126 0, 1, false, false, 0⟩
    let s := fun tick => { ((context 1 0 fun p => { p with load := some ⟨manifest0 false, [f], 0⟩ }).wr (aFn 0 0 0x108) 0x1003) with tick := tick }
    (s 0).powered = true ∧ ((s 0).part 0).load = some ⟨manifest0 false, [f], 0⟩ ∧ f.shard.die = 0 ∧ f.verified = false ∧
    (s 0).sourceOk 0 f = true ∧ f.shard.targets.length = 1 ∧ f.shard.length ≤ 128 ∧ ((s 0).core 0).restore = none ∧
    f.got.length + ([0] : List Byte).length < f.shard.length ∧ f.got.length + ([0, 0] : List Byte).length = f.shard.length ∧
    f.lastTick + 25000000 ≤ (s 25000000).tick ∧ 0 + (s 0).partLoadTimeout 0 ≤ (s ((s 0).partLoadTimeout 0)).tick ∧
    (s 0).coreAbsorbed 0 = false := by decide +kernel

/-- R366, R368 to R374: an image newer than the one in force, one that is none; a staged image that T admits and does not; one armed whose
hold begins, which T reaches, whose hold ends after T + 2. -/
theorem wit_EfxisImages : let s := State.reset.wr (aFn 0 0 0x108) 0x1003
    let u := fun t => (({ State.reset with efxStaged := some ([], 1) }).setFld aEfxCtrl 24 2 3).wr aEfxTick t
    let a := fun t => { State.reset with efxStaged := some ([], 1), efxArmed := some ⟨25000, [], [], []⟩, tick := t }
    s.mayManage .colophon aEfxCtrl = true ∧ s.fld aEfxCtrl 24 1 = 0 ∧ ((u 0).setFld aEfxCtrl 24 1 0).fld aEfxCtrl 25 1 = 1 ∧
    ((s.setFld aEfxCtrl 8 8 0).readHost 64 0 (s.rd aEfxSrc).toNat (.data (bareImage.set 12 1))).toOption = some (bareImage.set 12 1) ∧
    ((s.setFld aEfxCtrl 8 8 0).readHost 64 0 (s.rd aEfxSrc).toNat (.data [])).toOption = some [] ∧
    (s.checkImage (bareImage.set 12 1)).toOption = some (1, []) ∧ s.fld aImpSeq 0 32 < 1 ∧
    (match s.checkImage [] with | .error e => decide (e.code < 256) | .ok _ => false) = true ∧
    ((u 25000).setFld aEfxCtrl 8 8 0).activateCode [] 25000 = 0 ∧ ((u 24999).setFld aEfxCtrl 8 8 0).activateCode [] 24999 = 2 ∧
    (∀ t ∈ [25000 - 2052, 25000], (a t).powered = true ∧ (a t).efxArmed.isSome = true ∧ 25000 ≤ (a t).tick + 2052) ∧
      25000 ≤ (a 25000).tick ∧
    (let h := { State.reset with flagHold := true, efxLast := some 25000, tick := 25003 }
     h.flagHold = true ∧ h.holdEnds = true ∧ h.delivers = []) := by decide +kernel

theorem test_stage_then_older : let s := State.reset.wr (aFn 0 0 0x108) 0x1003
    (after (.efxStage .colophon 1 (.data (bareImage.set 12 1))) s).fld aEfxCtrl 24 1 = 1 ∧
    (after (.efxStage .colophon 1 (.data bareImage)) s).fld aEfxCtrl 16 8 = 4 := by decide +kernel

/-- R375 to R377: the root when a round is due; a package that is not the root; a round that has been open for 1 ms. -/
theorem wit_ImprintCensus : let due := { State.reset with tick := State.reset.censusDue }
    let leaf := { port11 5 0 id with position := 1 }
    let s := { State.reset with censusOpen := some 0, tick := 250000 }
    due.censusReady = true ∧ leaf.powered = true ∧ leaf.isRoot = false ∧ leaf.rnnState 11 = 5 ∧
    s.censusOpen = some 0 ∧ 0 + 250000 ≤ s.tick ∧ ∀ p ∈ positions s.shape, s.verdictOf [] p = 0 := by decide +kernel

/-- Ring 0 of partition 0 over a port 0 that is up, of 16 entries in window 0, with these indices; the part is LOADED. -/
def ring0 (idx : Word) : State :=
  (((((context 2 0 id).setFld (aPort 0 0) 0 3 5).wr (aFn 0 0 0x108) 0x1003).setFld (aRing 0 0x10) 0 6 0x24).wr (aRing 0 0x20) idx).wr (aRing 0 0x18) (2 ^ 28)

/-- R381, R390 to R398: doorbells at the ring's last index and past it; an entry at the last index of the ring of each kind; a ring to
be enabled with the least and the greatest LOG2N, and disabled. -/
theorem wit_HostRings : let s := ring0 0x0000000F00000000
    let e := ring0 0x000000000000000F
    s.takes 0 0 = some 0 ∧ 15 < s.ringN 0 ∧ ¬ 16 < s.ringN 0 ∧ s.cqTail 0 = 15 ∧
    (e.sqReady 0 = true ∧ e.sqHead 0 = 15 ∧ e.sqWindow 0 = 0 ∧ e.ringN 0 ≤ 2 ^ 16 ∧ e.carrier 0 = some (0, 0) ∧ e.deliverOk 0 = true ∧
      e.delivers = [] ∧ (e.part 0).plate = some plate0 ∧ e.ctxState 0 = 2 ∧ e.replayHolds 0 = false ∧
      passAbove (e.namedPass 0 0) (e.passNow 0) = true ∧ overSlots plate0.slots 0 (2 ^ 63) = false) ∧
    (∀ n ∈ [(0 : Nat), 3], eKIND (BitVec.ofNat 512 n) = n) ∧ (eKIND 2 = 2 ∧ entryOk 2 = true ∧ eKIND 1 = 1 ∧ entryOk 1 = true) ∧
    State.reset.mayWrite (.func 0 0) (aRing 0 0x10) = true ∧ State.reset.ringEn 0 = false ∧ s.ringEn 0 = true ∧
    (∀ n ∈ [(4 : Nat), 16], (BitVec.ofNat 64 (32 + n)).getLsbD 5 = true ∧ 4 ≤ getF (BitVec.ofNat 64 (32 + n)) 0 5 ∧
      getF (BitVec.ofNat 64 (32 + n)) 0 5 ≤ 16) ∧ (0#64).getLsbD 5 = false := by decide +kernel

/-- R400: an entry that has waited MTICKS of 1 tick. -/
theorem wit_HostRings_timer : let s := { (((ring0 0).setFld (aRing 0 0x10) 6 1 1).setFld (aRing 0 0x10) 32 32 1).modIrq 0 (fun q => { q with n := 1 }) with tick := 1 }
    s.powered = true ∧ s.ringEn 0 = true ∧ s.fld (aRing 0 0x10) 6 1 = 1 ∧ s.fld (aRing 0 0x10) 32 32 ≠ 0 ∧ (s.irq 0).n ≠ 0 ∧
    (s.irq 0).oldest + s.fld (aRing 0 0x10) 32 32 ≤ s.tick ∧ s.carrier 0 = some (0, 0) ∧ s.linkUp 0 = true := by decide +kernel

theorem test_doorbell : (after (.sqTailDoorbell 0 0 0 15) (ring0 0)).sqTail 0 = 15 ∧
    (after (.sqTailDoorbell 0 0 0 16) (ring0 0)).fld (aRing 0 0x28) 8 8 = 4 := by decide +kernel

/-- A write of one byte to window 0. -/
def write0 : DlvWrite := ⟨0, 0, 0, [7], false, none, none, false⟩

/-- R235, R402: a write that may leave, one that is retained; a probe and a piece of a `HOST_READ` outstanding. -/
theorem wit_DeliveryAndAperture : let s := fun buf kept reads => (ring0 0).modPport 0 fun x => { x with buf := buf, retained := kept, reads := reads }
    let e := (0, write0)
    let probe : HRead := ⟨3, 0, 0, 0, 1, true, .probe, 1, true, none, 0⟩
    let piece : HRead := ⟨3, 0, 0, 0, 2, false, .command 0 13 0 [(2 ^ 26, 2)], 0, true, none, 0⟩
    (s [] [] []).powered = true ∧ (s [] [] []).linkUp 0 = true ∧ ((s [e] [] []).pport 0).reads = [] ∧
    ((s [e] [] []).pport 0).buf[0]? = some e ∧ (s [e] [] []).mayLeave 0 e = true ∧ write0.bytes ≠ [] ∧
    (s [e] [] []).winCheck 0 0 (some (0 + 1 - 1)) false true = 0 ∧ ((s [] [e] []).pport 0).retained = [e] ∧
    ((s [] [e] [probe]).pport 0).reads = [probe] ∧ probe.sent = true ∧ probe.got = none ∧ probe.why = .probe ∧ probe.zero = true ∧
    ((s [] [] [piece]).pport 0).reads = [piece] ∧ piece.sent = true ∧ piece.got = none ∧ piece.zero = false ∧
    piece.len = ([1, 2] : List Byte).length ∧ (s [] [] [piece]).replayHolds 0 = false := by decide +kernel

/-- R403, R404: flushes of no byte, of the last byte of a window and past it; an aperture address of this package that is admitted and one
that is not. -/
theorem wit_DeliveryAndAperture_func : (ring0 0).takes 0 0 = some 0 ∧ ((ring0 0).pport 0).flushes = [] ∧ ((ring0 0).pport 0).reads = [] ∧
    ((ring0 0).pport 0).buf = [] ∧ (ring0 0).flushCode 0 0 0 0 = 0 ∧ (ring0 0).flushCode 0 0 4095 1 = 0 ∧
      (ring0 0).flushCode 0 0 4095 2 ≠ 0 ∧
    (ring0 0).fabCheck 0 0 0 = 0 ∧ (ring0 0).fabCheck 0 0 (2 ^ 42) ≠ 0 ∧ (ring0 0).runningAt 0 = none ∧ (ring0 0).aperture = [] ∧
    (ring0 0).bridgeRoom 0 (nameAt 0) = true ∧ (ring0 0).bridgeHolds 0 (nameAt 0) = false ∧
    (ring0 0).mustWait 0 = false := by decide +kernel

theorem test_write_out : let s := (ring0 0).modPport 0 fun x => { x with buf := [(0, write0)] }
    (after (.deliveryWriteOut 0 0) s).out.head? = some (.hostWrite 0 (s.winAddr 0 0 0) [7] false) := by decide +kernel

/-! ## PCIe ports, power, resets -/

/-- R382, R406, R413: a port up and down, PERST# high and low, the boot sequence before and after its end. -/
theorem wit_PortResets : let up := ring0 0
    up.powered = true ∧ up.resets = [] ∧ up.isMirror 0 0 = false ∧ ((up.pport 0).perstLow = false) ∧ up.linkUp 0 = true ∧
    up.fld aBoot 0 3 = 7 ∧ up.fnPart 0 0 = some 0 ∧ up.fnPart 1 63 = none ∧
    (let m := (up.setFld (aFn 0 0 0) 0 1 0).setFld (aFn 0 0 0) 7 1 1
     m.isMirror 0 0 = true ∧ m.resets = []) ∧ ((up.modPport 0 fun x => { x with perstLow := true }).pport 0).perstLow = true ∧
    (up.setFld aBoot 0 3 6).fld aBoot 0 3 < 7 ∧ (up.setFld aBoot 0 3 6).recovering = none := by decide +kernel

/-- R378, R408 to R410: a link up with no read outstanding, failed with the peer empty; down for 2 ms; to come up at its extremes. -/
theorem wit_PortFailures : let up := ring0 0
    let down := { (State.reset.modPport 0 fun x => { x with downTick := some 0 }) with tick := 500000 }
    up.powered = true ∧ up.linkUp 0 = true ∧ (up.pport 0).reads = [] ∧ (up.pport 1).reads = [] ∧
    (let f := up.setFld (aPort 0 0) 9 1 1
     f.linkUp 0 = true ∧ f.fld (aPort 0 0) 9 1 = 1 ∧ (f.pport 1).buf = [] ∧ (f.pport 1).retained = []) ∧
    down.linkUp 0 = false ∧ (down.pport 0).downTick = some 0 ∧ 0 + 500000 ≤ down.tick ∧ (down.pport 0).perstLow = false ∧
    down.fld (aPort 0 0x18) 0 1 = 0 ∧ 1 ≤ (1#3).toNat ∧ (6#3).toNat ≤ 6 ∧ (16#5).toNat ∈ [1, 2, 4, 8, 16] ∧
      down.windows.length < 65536 := by
  decide +kernel

/-- R412, R429, R473: packages with power and without, with good firmware and without, with a lifetime copy. -/
theorem wit_PowerAndLoss : let c : LifeCopy := ⟨1, 0, 4, 2, [], 0, [], [], [], [], true⟩
    let off := { State.reset with powered := false, nor := { Nor.fresh with life := [c] } }
    State.reset.powered = true ∧ off.powered = false ∧ off.nor.firmwareGood = true ∧ off.nor.latest = some c ∧
    ({ off with nor := { Nor.fresh with firmwareGood := false } }).nor.firmwareGood = false := by decide +kernel

/-- R422, R423: every request's register is written by the colophon; a unit not under reset, one within a unit that is; a reset that drains
and one that has drained. -/
theorem wit_ResetRequests : let s := State.reset
    let u := { s with resets := [⟨.partition 63, 0, false, false, 0⟩] }
    s.mayWrite .colophon (aGly 63 3 0) = true ∧ s.resets = [] ∧ (0x20001#64).getLsbD 18 = false ∧
    (List.finRange 18).filter (fun c => (0x20001#64).getLsbD c.val) = [0, 17] ∧ (0x40000#64).getLsbD 18 = true ∧
    s.mayWrite .colophon (aPartReset 63) = true ∧ u.merges (.partition 63) = true ∧ s.mayWrite .colophon aPkgReset = true ∧
    (0x4A585253#64).toNat % 2 ^ 32 = 0x4A585253 ∧ (∀ r ∈ u.resets, r.unit ≠ .package) ∧ u.powered = true ∧
    u.resetOf (.partition 63) = some ⟨.partition 63, 0, false, false, 0⟩ ∧
    ∀ x ∈ [ResetUnit.core c0, .galley 0 0, .partition 0, .package], ∀ d ∈ [false, true],
      ({ s with resets := [⟨x, 0, d, false, 0⟩] }).resetOf x = some ⟨x, 0, d, false, 0⟩ ∧
        ({ s with resets := [⟨x, 0, d, false, 0⟩] }).powered = true := by
  decide +kernel

/-- R423: a core reset that has drained clears the core's flags. -/
theorem test_core_reset : let s := { (withCore fun c => { c with flags := [(3, 9)], sreg := [(1, 1)] }) with resets := [⟨.core c0, 0, true, false, 0⟩] }
    let t := after (.resetReturn (.core c0) ⟨[], [], [], []⟩) s
    t.resets = [] ∧ (t.core 0).flag 3 = 0 ∧ (t.core 0).rdS 1 = 0 := by decide +kernel

theorem test_core_request : (after (.glyResetCores .colophon 0 0 1) (withCore fun c => { c with run := true })).resets.length = 1 ∧
    ((after (.glyResetCores .colophon 0 0 1) (withCore fun c => { c with run := true })).core 0).run = false := by decide +kernel

/-! ## Firmware, records, test access, management -/

/-- R428 to R431: no command under way, one that is; an image read, staged, committed; a colophon that restarts, and one that has had
2 s. -/
theorem wit_FirmwareUpdates : let s := State.reset.wr (aFn 0 0 0x108) 0x1003
    s.mayManage .colophon (aFw 0) = true ∧ s.romServes = false ∧ s.fld (aFw 0) 32 1 = 0 ∧ s.mgmt.update = 0 ∧
    (s.setFld (aFw 0) 32 1 1).fld (aFw 0) 32 1 = 1 ∧ (s.setFld (aFw 0) 32 1 1).romServes = false ∧
    s.winCheck 64 0 (some ((s.rd (aFw 8)).toNat + 1 - 1)) true false = 0 ∧ s.winCheck 64 0 none true false = 0 ∧
    (let t := ({ s with fwStaged := some [1] }).setFld (aFw 0) 33 2 1
     t.fld (aFw 0) 33 2 = 1 ∧ t.fwStaged = some [1] ∧ t.fld (aFw 0) 34 1 = 0) ∧
    s.fld (aFw 0) 33 2 ≠ 1 ∧ (s.setFld (aFw 0) 33 2 2).fld (aFw 0) 34 1 = 1 ∧
    (∀ q ∈ [(0 : Nat), 3], let r := { s with fwRestarting := some (q, 0), tick := 500000000 }
      r.powered = true ∧ r.fwRestarting = some (q, 0) ∧ 0 + 500000000 ≤ r.tick) := by decide +kernel

/-- R430, R446, R473: each write to NOR under way; NOR written and the colophons run; parts stopped and not. -/
theorem wit_NorWrites : (∀ w ∈ [NorWrite.lifetime, .stagedImage, .firmware, .repairLog, .record, .powerdown],
      let s := { State.reset with norBusy := [w] }
      s.powered = true ∧ w ∈ s.norBusy ∧ s.recovering = none ∧ s.romUp = false ∧ s.allStopped = true) ∧
    (context 4 0 id).allStopped = false ∧ ({ State.reset with powered := false }).powered = false := by decide +kernel

theorem test_lifetime : ((after (.norWriteComplete .lifetime true) { State.reset with norBusy := [.lifetime] }).nor.life.map (·.powerOns)) = [1] := by
  decide +kernel

/-- R453, R456, R472 to R476: the Q0 colophon primary, and stopped; ten minutes of powered ticks; a calendar set and not; PERSIST,
POWERDOWN, asked for once and again. -/
theorem wit_ColophonAndLifetime : let s := State.reset
    s.powered = true ∧ s.primary = 0 ∧ 0 ∉ s.colophonStopped ∧ (s.setFld (aMgt 0) 0 2 1).primary ≠ 0 ∧
    ((s.wr (aMgt 0x40) 150000000000).rd (aMgt 0x40)).toNat ≠ 0 ∧ ((s.wr (aMgt 0x40) 150000000000).rd (aMgt 0x40)).toNat % 150000000000 = 0 ∧
    (s.setFld (aMgt 0) 2 1 1).fld (aMgt 0) 2 1 = 1 ∧ s.fld (aMgt 0) 2 1 = 0 ∧ s.mayManage .colophon (aMgt 0x08) = true ∧
    (1#64).getLsbD 0 = true ∧ (1#64).getLsbD 1 = false ∧ (2#64).getLsbD 0 = false ∧ (2#64).getLsbD 1 = true ∧
    s.fld (aMgt 0x08) 1 1 = 0 ∧ (s.setFld (aMgt 0x08) 1 1 1).fld (aMgt 0x08) 1 1 = 1 ∧ s.mayManage .colophon (aMgt 0x30) = true := by
  decide +kernel

/-- R436 to R438, R441: rows under restore, one overwritten, in time and at the budget's end; a line of a plate's section whose last
byte ends within it, and a line of none. -/
theorem wit_Restores : let r : Restore := ⟨[5, 6], [], [6], [], 0, false⟩
    let x : ProgSec := ⟨0, 0, 100, 80⟩
    let s := { (withCore fun c => { c with restore := some r, fills := [0], run := true }) with tick := 4000 }
    let l := ((context 4 0 fun p => { p with plate := some { plate0 with programs := [x] } }).wr (aFn 0 0 0x108) 0x1003)
    s.powered = true ∧ s.coreAbsorbed 0 = false ∧ (s.core 0).restore = some r ∧ 5 ∈ r.rows ∧ 6 ∈ r.rows ∧ r.background = false ∧
    r.since + 4000 ≤ s.tick ∧ (List.replicate 128 (0 : Byte)).length = 128 ∧
    l.lineSource 0 0 = some (0, { plate0 with programs := [x] }, x) ∧ l.lineSource 0 1 = none ∧
    l.winCheck 0 0 (some (0 + 80 + (0 - 0) + 100 - 1)) true false = 0 ∧ min 128 (0 + 100) - 0 = (List.replicate 100 (0 : Byte)).length ∧
    (s.core 0).run = true ∧ 0 ∈ (s.core 0).fills := by decide +kernel

/-- R444 to R449, R455: a record that has waited 1 ms, of each class; without a ring, with one that has room and with one that is full;
records that retire each kind of resource; a counter that a leak interval meets. -/
theorem wit_ErrorRecords : let r := fun cls kind ret => { ErrRec.base with cls := cls, rkind := kind, retire := ret }
    let s := fun e => { State.reset with errPend := [e], tick := 250000 }
    (∀ cls ∈ [0, 1, 2, 3],
      ((s (r cls 8 false)).errPend.find? fun x => decide (x.tick + 250000 ≤ (s (r cls 8 false)).tick)) = some (r cls 8 false)) ∧
    (∀ kind ∈ [0, 1, 2, 3, 5, 6],
      ((s (r 2 kind true)).errPend.find? fun x => decide (x.tick + 250000 ≤ (s (r 2 kind true)).tick)) = some (r 2 kind true) ∧
      (r 2 kind true).res = 0) ∧ State.reset.freeSpares (arrayOf 0) ≠ 0 ∧ 0 / 2 ^ 30 ∉ State.reset.fenced ∧
        State.reset.dieFenced 0 = false ∧
    (let e := ((State.reset.wr (aErrRing 0 0) 0x40001).wr (aFn 0 0 0x108) 0x1003).wr (aErrRing 0 0x10) 14
     let f := (State.reset.wr (aErrRing 0 0) 0x40001).wr (aErrRing 0 0x10) 15
     getF (e.rd (aErrRing 0 0)) 0 1 = 1 ∧ getF (e.rd (aErrRing 0 0)) 16 5 = 4 ∧
       (e.rd (aErrRing 0 0x10)).toNat - (e.rd (aErrRing 0 0x18)).toNat < 15 ∧
     e.carrier 0 = some (0, 0) ∧ e.winCheck 0 0 (some (64 * 14 + 63)) false true = 0 ∧ 15 ≤ (f.rd (aErrRing 0 0x10)).toNat) ∧
    ({ State.reset with windows := [(7, 3)] }).windows.filter (fun e => e.1 = 7) = [(7, 3)] := by decide +kernel

theorem test_record_logged : let t := after .errorRecordEmit { State.reset with errPend := [{ ErrRec.base with cls := 1, source := 0x24 }], tick := 250000 }
    t.errPend = [] ∧ t.errLog.length = 1 ∧ t.fld aErrSeq 0 32 = 1 := by decide +kernel

/-- R478 to R487: loop-backs of a port without an active function at depths 1 and 4, of one with one, at depths 0 and 5; a bridge that no
circuit crosses at depth 2; a galley's proof pass to begin and to end; a trace to begin at its tick. -/
theorem wit_TestAndDebug : let s := State.reset
    s.mayWrite .colophon (aPort 1 0x18) = true ∧ (∀ f, f < 64 → s.fld (aFn 1 f 0) 8 1 ≠ 1) ∧ s.fld (aFn 0 0 0) 8 1 = 1 ∧
    (∀ d ∈ [(0 : Nat), 1, 4, 5], (BitVec.ofNat 64 (2 * d + 1)).getLsbD 0 = true ∧ (BitVec.ofNat 64 (2 * d + 1)).toNat / 2 % 8 = d) ∧
    s.fld (aPort 1 0x18) 0 1 = 0 ∧ s.mayWrite .colophon (aHub 63 0x618) = true ∧ s.bridgeUsed 63 3 = false ∧ s.fld (aHub 63 0x618) 0 1 = 0 ∧
    (let b := ({ s with loopHops := bridgeHops 63 3 }).setFld (aHub 63 0x618) 0 1 1
     b.fld (aHub 63 0x618) 0 1 = 1 ∧ b.loopHops = bridgeHops 63 3) ∧
    s.mayWrite .colophon (aGly 63 3 8) = true ∧ s.proofBars 63 3 = false ∧ s.resets = [] ∧ (context 4 0 id).proofBars 0 0 = true ∧
    ({ s with resets := [⟨.galley 63 3, 0, true, true, 0⟩] }).resets = [⟨.galley 63 3, 0, true, true, 0⟩] ∧
      s.usable (63 * 72 + 3 * 18 + 17) = true ∧
    (let t := s.setFld (aHub 0 0x800) 0 1 1
     t.fld (aHub 0 0x800) 0 1 = 1 ∧ (t.tick + 2 ^ 32 - t.fld (aHub 0 0x800) 32 32) % 2 ^ 32 < 2 ^ 31) ∧ s.fld (aHub 0 0x800) 0 1 = 0 ∧
    s.mayManage .colophon (aHub 0 0x800) = true ∧ s.fld aBoot 0 3 = 7 ∧ (s.setFld aBoot 0 3 3).fld aBoot 0 3 < 4 := by decide +kernel

theorem test_idcode : (after .idcode State.reset).jtag.ir = 1 := by decide +kernel

/-- R465 to R466: the target up, with a dynamic address and without; the transports that are answered; each stage of an update over PLDM. -/
theorem wit_I3cAndPldm : State.reset.i3cUp = true ∧ State.reset.mgmt.dynAddr = none ∧
    (let s := { State.reset with mgmt := { State.reset.mgmt with dynAddr := some 9 } }
     s.i3cUp = true ∧ s.mgmt.dynAddr = some 9 ∧ s.answers .i3c = true) ∧ 1 ≠ (0 : BitVec 8) ∧ 0xFE ≠ (0xFF : BitVec 8) ∧
    State.reset.rateReqCode 10 0 = 0 ∧ State.reset.rateReqCode 36 0 = 0 ∧
    (∀ n ∈ [0, 1, 2, 3, 4, 5, 6], ∀ b ∈ [(0 : Nat), 1], ∀ x ∈ [0, 1, 2],
      let s := ((({ State.reset with mgmt := { State.reset.mgmt with dynAddr := some 9, update := n } }).setFld (aFw 0) 32 1 b).setFld (aFw 0) 33 2 x)
      s.answers .i3c = true ∧ s.mgmt.update = n ∧ s.fld (aFw 0) 32 1 = b ∧ s.fld (aFw 0) 33 2 = x) := by decide +kernel

/-- R467 to R471: each stage of a connection; a session that FINISH awaits, one established, none; chunks in order. -/
theorem wit_SpdmRequests : let s := fun x => { State.reset with mgmt := { State.reset.mgmt with dynAddr := some 9 }, spdm := [(viaKey .i3c, x)] }
    let x0 := (State.reset.spdmOf .i3c)
    (∀ n ∈ [0, 1, 2, 3, 4, 5], (s { x0 with stage := n }).answers .i3c = true ∧ ((s { x0 with stage := n }).spdmOf .i3c).stage = n) ∧
    State.reset.nor.chainOk = true ∧ ({ Nor.fresh with chainOk := false }).chainOk = false ∧ blockExists 1 = true ∧
    (∀ b ∈ [false, true], ({ x0 with sessions := [⟨7, b⟩] }).session 7 = some ⟨7, b⟩) ∧ x0.session 7 = none ∧ x0.sessions.length < 4 ∧
    4 ≤ ({ x0 with sessions := List.replicate 4 ⟨7, false⟩ }).sessions.length ∧
    (let x := { x0 with inSeq := 1, inHandle := 255, chunkIn := [0], outHandle := 255, outSeq := 65535 }
     (1#16) ≠ 0 ∧ (1#16).toNat = x.inSeq ∧ (255#8).toNat = x.inHandle ∧ x.chunkIn.length + 1 ≤ 65536 ∧
     (255#8).toNat = x.outHandle ∧ (65535#16).toNat = x.outSeq ∧ (0#16).toNat ≠ x.outSeq) := by decide +kernel

/-! ## The whole block -/

/-- Queues with a command and without, with power and without; a step of a canonical state. -/
theorem wit_whole : State.reset.pending = [] ∧ State.reset.powered = true ∧
    (let s := { State.reset with powered := false }
     s.pending = [] ∧ s.powered = false) ∧ (∀ b, Instr.bypass ≠ .powerGood b) ∧ (∀ low, Instr.bypass ≠ .powerLoss low) ∧
    State.reset.memWf = true ∧ (∃ t, step State.reset = .next t) ∧ ({ State.reset with pending := [.bypass] }).pending ≠ [] :=
  ⟨rfl, rfl, ⟨rfl, rfl⟩, fun _ => Instr.noConfusion, fun _ => Instr.noConfusion, by decide +kernel, ⟨_, rfl⟩, by decide +kernel⟩

theorem test_idle_tick : (match step State.reset with | .next t => decide (t.tick = 1 ∧ t.rd (aMgt 0x40) = 1) | _ => false) = true := by
  decide +kernel

/-- 11: 6 beats a tick at setpoint 30. A waiting compositor counts them. -/
theorem test_wait_beats : (match step (running 0 fun x => { x with stall := .cwait 7 1 0 4 0 }) with
    | .next t => decide (t.rd (aCoreK 0 0x440) = 6 ∧ t.rd (aCoreK 0 0x430) = 0 ∧ t.rd (aHub 0 0x418) = 6)
    | _ => false) = true := by decide +kernel

/-! ## Further witnesses: the clauses beside those above -/

/-! ## Further witnesses, clause by clause -/

/-- R172, R174, R180, R219: a stalled `CWAIT` that was satisfied before its deadline; a `CMP_PC` and windows that are none; a bring-up
that stands at step 6. -/
theorem wit_compositor_more : let s := { running 0 (fun x => { x with stall := .cwait 7 1 0 4 5, met := true }) with tick := 99 }
    ((s.core 0).met = true ∧ (s.core 0).run = true ∧ (s.core 0).frozen = false ∧ (s.core 0).stall = .cwait 7 1 0 4 5) ∧
    (1#64).toNat % 4 ≠ 0 ∧ (64#64).toNat % 128 ≠ 0 ∧ (2#64 <<< 54).toNat / 2 ^ 32 % 2 ^ 23 ≤ 0x400000 ∧
    0x400000 < (0x400080#64 <<< 32).toNat / 2 ^ 32 % 2 ^ 23 ∧ State.reset.fld aBoot 0 3 = 7 ∧
    (State.reset.setFld aBoot 0 3 6).fld aBoot 0 3 < 7 ∧ ((withCore fun x => { x with frozen := true }).core 0).frozen = true := by
  decide +kernel

/-- R168, R170: a false predicate, a template with a signal and a ledger of eight skipped commands. -/
theorem wit_PushAndPatches_ledger : let d : Wide := mkW [(0, 8, 0x29), (16, 1, 1)]
    let skipped := (List.range 8).map fun i => Item.mk i i d 0 false .skipped
    8 ≤ ((withCore fun x => { x with fifo := [(4, skipped)] }).core 0).ledger 4 ∧ dSIG d = true ∧ engineOf (dOP d) = some (queueEngine 4) ∧
    (State.reset.core 0).ledger 4 < 8 := by decide +kernel

/-- R176, R177: the oldest request of a die, another line of it, and four outstanding `PRIME`s. -/
theorem wit_InstructionLines_more : let s := { withCore (fun x => { x with fills := [3, 4], primes := [[1], [2], [3], [4]] }) with
      lineQ := [(0, 3), (0, 4)] }
    s.oldestLine 0 = some (0, 3) ∧ s.oldestLine 0 ≠ some (0, 4) ∧ 4 ≤ (s.core 0).primes.length ∧ s.powered = true := by decide +kernel

/-- R139, R141, R142: each mode of a reduction; an undamaged entry to add to. -/
theorem wit_BrayerReductions_modes : (∀ m ∈ [0, 1, 2, 3], let d := mkW [(0, 8, 0x37), (18, 2, m)]
      worksB (working 4 d 2 (exec0 [(0, actHandle)])) (kOf c0) 4 0x37 (item0 d 2 (exec0 [(0, actHandle)])) (exec0 [(0, actHandle)]) = true ∧
      bYMODE d = m) ∧ (working 4 (mkW [(0, 8, 0x37), (18, 2, 1)]) 2 (exec0 [(0, actHandle)])).damage 0 2 64 8 [] = none := by
  decide +kernel

/-- A part whose manifest gives the first 128 bytes of weight handle 0 of core 0, which lies at offset 0. -/
def restoring (f : Core → Core) : State :=
  ((State.reset.modPart 0 fun p => { p with current := some ⟨false, 0, 5, 0, List.replicate 32 0,
    [⟨0, 0, 0, 0, 0, 0, 0, 128, 0, 0, List.replicate 32 0, [⟨0, 0, false, false, 0, 0, 128⟩]⟩], List.replicate 32 0⟩ }).modCore 0 fun c =>
      f { c with handles := [(0, mkW [(0, 1, 1), (1, 1, 1), (8, 8, 2), (150, 23, 0x1000)])] })

/-- R436, R437: a damaged weight row that has a source is restored first, by a `COPY` and by a `MATVEC` that read it. -/
theorem wit_restore_first : let h := (restoring id).core 0 |>.handle 0
    (restoring id).toRestore 0 0 8 [locOf 0 0] ≠ [] ∧ (restoring id).rowsToRestore 0 [locOf 0 0] [(0, 0, 8)] ≠ [] ∧
    (restoring id).srcRestore 0 h (mkW [(64, 32, 8), (96, 32, 1)]) [locOf 0 0] ≠ [] ∧ (restoring id).toRestore 0 0 8 [] = [] := by
  decide +kernel

/-- R219, R220: a `WAIT` that was satisfied at its deadline tick, asked later; a remote `SIGNAL`. -/
theorem wit_SignalAndWait_more : let d := mkW [(0, 8, 0x61), (96, 32, 1), (128, 32, 5)]
    let x := { exec0 [] with issued := 4, met := some 9 }
    let r := mkW [(0, 8, 0x60), (17, 1, 1)]
    worksB { working 15 d 0 x with tick := 50 } (kOf c0) 15 0x61 (item0 d 0 x) x = true ∧ x.met = some (x.issued + yTIMEOUT d) ∧
    worksB (working 15 r 0 (exec0 [])) (kOf c0) 15 0x60 (item0 r 0 (exec0 [])) (exec0 []) = true ∧ yRMT r = true := by decide +kernel

/-- R439: an operand of `HANDLE_WRITE` in a unit whose parity fails. -/
theorem wit_SyncHandles_damaged : (working 14 (mkW [(0, 8, 0x62)]) 0 (exec0 [(0, actHandle)])).damage 0 1 64 32 [locOf 1 64] ≠ none := by
  decide +kernel

/-- R47, R185: a worked command of each outcome: none, a saturation, a saturation beside a failing code, and one recorded before. -/
theorem wit_Completion_codes : ∀ l ∈ [[], [0x06], [0x06, 0x07]], ∀ r ∈ [false, true],
    let x := { exec0 [] with worked := true, codes := l, recorded := r }
    let s := working 4 copyTile 1 x
    s.live 0 = true ∧ (((s.core 0).executing 4).find? fun a => (s.core 0).mayComplete a.1 a.2) = some (item0 copyTile 1 x, x) ∧
    s.fld (aQstat 0 4) 48 1 = 0 := by decide +kernel

/-- R68, R222, R324: LOAD and INSTALL written together; an INSTALL of a handle that a command names; a pool of which a credit is lent; a
host's write to a core of a running context, with replay mode holding inputs and not. -/
theorem wit_CoreRegisters_more : (0x3FF#64).getLsbD 8 = true ∧ (0x3FF#64).getLsbD 9 = true ∧
    (working 14 (mkW [(0, 8, 0x62), (32, 8, 255)]) 0 (exec0 [])).handleBusy 0 255 = true ∧
    (let p := (withCore fun c => { c with pools := [(31, Pool.mk 2 1 false false 0 [] 0)] }).core 0 |>.pool 31
     p.avail ≠ p.limit) ∧ 1024 < (1025#64).toNat % 2 ^ 11 ∧
    (let s := (State.reset.modPart 0 fun p => { p with plate := some ⟨64, 0, 0, 0, [0], [0], [], List.replicate 32 0, 0, 0⟩ }).setCtxState 0 4
     let h := s.modPart 0 fun p => { p with held := [.input (.slotWord 0 0) 0] }
     (s.hostInput (.func 0 0) (aCoreK 0 0xA00)) = some (0, 0) ∧ s.mustWait 0 = false ∧ h.mustWait 0 = true ∧
     (h.hostInput (.func 0 0) (aCoreK 0 0xA00)) = some (0, 0) ∧ s.hostInput (.func 0 0) (aCoreK 0 0x608) = some (0, 0) ∧
     State.reset.hostInput (.func 0 0) (aCoreK 0 0x608) = none) ∧
    ctlOff (.func 0 0) 0x10C0000 = some 0x1100000 ∧ ctlOff (.func 0 0) 0x4000000 = none := by decide +kernel

/-- R237, R378, R402, R409: nothing carries partition 1; a buffer without room; a link that is up; a ring that is disabled with entries left,
one that takes none. -/
theorem wit_hostCommands_more : let x := exec0 [(0, actHandle)]
    let d := fun op => mkW [(0, 8, op), (64, 32, 8), (96, 32, 1)]
    let s := fun op => (((working 13 (d op) 0 x).setFld (aPort 0 0) 0 3 5).wr (aFn 0 0 0x108) 0x1003).setFld (aRing 0 0x10) 0 6 0x24
    let none' := fun op => ((s op).setFld (aFn 0 0 0) 8 1 0).setFld (aFn 1 0 0) 8 1 0
    let full := (s 0x45).modPport 0 fun y => { y with buf := [(0, ⟨0, 0, 0, List.replicate 262144 0, false, none, none, false⟩)] }
    (∀ op ∈ [0x45, 0x46, 0x47, 0x48], (none' op).carrier 0 = none ∧
      worksB (none' op) (kOf c0) 13 op (item0 (d op) 0 x) x = true) ∧
    worksB full (kOf c0) 13 0x45 (item0 (d 0x45) 0 x) x = true ∧ full.carrier 0 = some (0, 0) ∧ (full.pport 0).room 8 = false ∧
    (s 0x46).linkUp 0 = true ∧ (s 0x46).beyond 0 0 7 = 0 ∧ ((s 0x46).fnCfg 0 0).maxRead = 512 ∧
    ((s 0x48).setFld (aRing 0 0x10) 5 1 0).ringEn 0 = false ∧
    (((s 0x48).setFld (aRing 0 0x28) 0 1 1).wr (aRing 0 0x20) (15 * 0x1000100000000)).ringEn 0 = true := by decide +kernel

/-- R223, R226, R267: a grant for another package and one that no transfer awaits; a return of the pool's epoch and of an earlier one. -/
theorem wit_Credits_more : a20Pkg (2 ^ 14) ≠ State.reset.position ∧ ({ State.reset with position := 0 }).bridgeAt 0 = none ∧
    (State.reset.core 0).xfer 5 = none ∧ State.reset.coreAbsorbed 0 = false ∧
    (let p := (withCore fun c => { c with pools := [(3, Pool.mk 2 1 false false 0 [(7, 9)] 4)] }).core 0 |>.pool 3
     p.epoch = 4 ∧ p.waiting = [(7, 9)] ∧ p.epoch ≠ 3) := by decide +kernel

/-- R74, R248, R257, R274, R437: a malformed packet, an address that names no core, a raw write past its space, an answer that is absorbed,
a later segment of a transfer that passed, a read of rows under restore and of rows to be restored. -/
theorem wit_packets_more : let bad := packet 0 [(36, 11, 0), (35, 11, 4)] (List.replicate 8 1)
    let no := packet 0 [(64, 48, 19 * 2 ^ 28)] (List.replicate 8 1)
    let raw := packet 0 [(9, 1, 1), (64, 48, 2 ^ 28 + 2 ^ 26 + 0xFFFFC)] (List.replicate 8 1)
    let late := packet 0 [(64, 48, 2 ^ 28 + 8), (160, 16, 1)] (List.replicate 8 1)
    let r := receiving 1
    let busy := (restoring fun c => { c with restore := some ⟨[0], [], [], [], 0, false⟩ })
    r.arrives bad = true ∧ packetOk bad = false ∧ r.arrives no = true ∧ packetOk no = true ∧ isCoreAt (kDADDR no) = false ∧
    r.arrives raw = true ∧ packetOk raw = true ∧ r.rawOk raw = false ∧ kSEGNO late ≠ 0 ∧
    ((r.modCore 1 fun c => c.setRx ⟨kSRC late, kTXID late, 0, false⟩).core 1).rxOf (kSRC late) (kTXID late) =
      some ⟨kSRC late, kTXID late, 0, false⟩ ∧
    ({ r with fenced := [1] }).absorbs (packet 4 [] []) = true ∧ (busy.core 0).underRestore 0 8 = true ∧
    (restoring id).toRestore 0 0 8 [locOf 0 0] = [0] ∧ ((restoring id).core 0).underRestore 0 8 = false := by decide +kernel

/-- R257, R268: a malformed flagged packet; of two held ones the first may not leave and the second may; none may while they are held. -/
theorem wit_FlagPackets_more : let p := fun d => packet 5 [(64, 48, d * 2 ^ 28)] []
    let s := fun hold => { withCore (fun c => { c with held := [(p 1, none, 8, 0), (p 2, some 4, 8, 0)], awaiting := [(1, 1)] }) with
      flagHold := hold }
    let m := packet 5 [(62, 1, 1)] []
    packetOk m = false ∧ kTYPE m = 5 ∧ State.reset.arrives m = true ∧ isCoreAt (kDADDR m) = true ∧ (s false).live 0 = true ∧
    ((s false).core 0).awaitOf (nameAt (kDADDR (p 1))) ≠ 0 ∧ ((s false).core 0).awaitOf (nameAt (kDADDR (p 2))) = 0 ∧
    ((s false).core 0).room (nameAt (kDADDR (p 2))) = true ∧ (s true).flagHold = true := by decide +kernel

/-- R3, R248: the program store of a die that is fused off, and an address that is no place. -/
theorem wit_RawAccesses_more : let p := fun at' => packet 8 [(64, 48, at')] [1]
    let f := { State.reset with fuses := { State.reset.fuses with fusedDies := [1] } }
    f.storeFused (kDADDR (p (2 ^ 35 + 31 * 2 ^ 28))) = true ∧ f.arrives (p (2 ^ 35 + 31 * 2 ^ 28)) = true ∧
    State.reset.storeFused (kDADDR (p (31 * 2 ^ 28))) = false ∧ rawPlace (kDADDR (p (19 * 2 ^ 28))) 1 = .nowhere ∧
    State.reset.arrives (p (19 * 2 ^ 28)) = true ∧ packetOk (p (19 * 2 ^ 28)) = true := by decide +kernel

/-- R263, R370: a probe for a destination in another package; one that an armed activation's needs shut out. -/
theorem wit_ProbesAndReleases_more : let far := packet 6 [(64, 48, 2 ^ 42 + 2 ^ 28), (224, 32, 7 + 2 ^ 12)] []
    kPKG far ≠ State.reset.position ∧ ((let s := { State.reset with net := [far] }; s.probeOf 6 0 7) = some far) ∧
    packetOk (packet 6 [(46, 1, 1), (224, 32, 7 + 2 ^ 12)] []) = false ∧
    (let h : Hop := ⟨0, 0, 0⟩
     let s := { State.reset with efxArmed := some ⟨0, [(hopKey h, 24)], [], []⟩ }
     s.armedHop (ownerOf 0 7) 1 [h] = some h) := by decide +kernel

/-- R285, R290, R291: ports out of ACTIVE and LOOPBACK; flits that carry no packet; a flit of another number, and one that is not the last; a NAK that
acknowledges the first of two. -/
theorem wit_FlitsAndReplay_more : (∀ st ∈ [0, 4, 6, 7], (port11 st 0 id).rnnState 11 ≠ 5 ∧ (port11 st 0 id).rnnState 11 ≠ 8) ∧
    (port11 5 5 id).rnnState (partner 11) ≠ 8 ∧ flit0.seq ≠ ((port11 5 5 id).rport 11).rxNext ∧
    (let l : List TxFlit := [⟨2, flit0.body⟩, ⟨3, flit0.body⟩]
     l = l.takeWhile (fun w => !seqAfter w.seq (2#16).toNat) ++ [⟨3, flit0.body⟩]) ∧ ({ flit0 with ftype := 0 }).ftype ≠ 1 ∧
    ({ flit0.body with last := false }).last = false := by decide +kernel

/-- R293, R295: a training step that names a carrying lane of each direction; a matching and another identity; a port that has been DOWN for
1 s; a spare that is in use, and one that has failed. -/
theorem wit_PortTraining_more : let s := port11 3 0 id
    (s.rport 11).spareBad true = false ∧ s.logicalOf 11 32 8 = none ∧ (s.rport 11).spareBad false = false ∧ s.logicalOf 11 0 8 = none ∧
    s.logicalOf 11 32 7 = some 7 ∧ s.identOk 11 1 2 3 = false ∧
    ((port11 6 0 fun r => { r with retrainFails := 2 }).rport 11).retrainFails = 2 ∧
    ((port11 5 0 fun r => { r with spareBadRx := true }).rport 11).spareBad true = true ∧
    ((port11 5 0 id).setFld (aRnn 11 0x10) 32 4 8).logicalOf 11 32 8 ≠ none := by decide +kernel

/-- R295, R296: a port whose partner is DOWN; a pair of swaps that wait. -/
theorem wit_PortsAndLanesDown_more : (∀ o ∈ [0, 7, 8], (port11 5 o id).rnnState 10 = o) ∧
    ((port11 5 4 fun r => { r with swaps := [(true, 3), (false, 7)] }).rport 11).swaps = (true, 3) :: [(false, 7)] ∧
    (port11 5 4 fun r => { r with swaps := [(true, 3), (false, 7)] }).logicalOf 11 32 3 = some 3 := by decide +kernel

/-- R298 to R300: the time now and another; a measurement that is due, and not; a parent that is sought, with a neighbour that may be it and
without; an answer that was asked for; an offset that is stepped, one that is not because something is armed. -/
theorem wit_AlignmentAndLoops_more : let s := { port11 5 0 (fun r => { r with syncT1 := some 64 }) with position := 1, parentPort := 11, tick := 1 }
    let sought := { s with parentStage := .sought }
    s.isRoot = false ∧ s.isNow 64 = true ∧ s.isNow 63 = false ∧ s.syncDue = true ∧ ({ s with syncTick := some 0 }).syncDue = false ∧
    s.parentStage ≠ .sought ∧ sought.parentStage = .sought ∧ sought.parentChoices = [] ∧ (s.rport 11).syncT1 = some 64 ∧
    State.reset.isRoot = true ∧ ({ s with alignedOnce := true }).alignedOnce = true ∧ 0 ≤ (s.now64 : Int) + syncOffset 64 64 64 64 ∧
    ({ s with rateArm := some (20, 5) }).rateArm ≠ none := by decide +kernel

/-- R293, R301: a fused port; a DISABLED one; RETRAIN written with LOOP_EN; depths that are none; a flit that comes back at depths 2 and 3. -/
theorem wit_AlignmentAndLoops_loops_more : (2 ^ 2 + 2 ^ 1 + 1#64).getLsbD 1 = true ∧ getF (0x34#64) 3 3 = 6 ∧ getF (4#64) 3 3 = 0 ∧
    ({ State.reset with fuses := { State.reset.fuses with part := 0x03 } }).portFused 11 = true ∧ (port11 0 0 id).rnnState 11 = 0 ∧
    (∀ d ∈ [2, 3], ((port11 8 0 fun r => { r with reflect := d }).rport 11).reflect = d ∧
      (port11 8 0 fun r => { r with reflect := d }).loopDepth 11 = 0) ∧
    (((port11 8 0 id).setFld (aRnn 11 0) 2 1 1).setFld (aRnn 11 0) 3 3 2).loopDepth 11 = 2 ∧
    ((port11 8 0 id).pattern (aRnn 11 0x30)).run = false := by decide +kernel

/-- R26 to R28, R306, R312: a change armed for later; measurements before their time; a factor at 32 above and at code 10; a floor not yet
5 ms old; a demand of less than a period. -/
theorem wit_power_more : let s := { State.reset with rateArm := some (36, 5) }
    s.tick < 5 ∧ State.reset.rateArm = none ∧ State.reset.mayWrite (.func 1 63) aRateNext = false ∧
    State.reset.mayManage (.func 1 63) (aMgt 0x20) = false ∧ State.reset.mayManage (.func 1 63) (aMgt 0x10) = false ∧
    (let t := { State.reset with thermal := { State.reset.thermal with nextCap := 250 } }
     t.tick < t.thermal.nextCap ∧ State.reset.thermal.nextCap ≤ State.reset.tick) ∧
    (let f := State.reset.setFld (aMgt 0x10) 16 7 32
     f.capFactor ≤ 32 ∧ 10 < f.rate ∧ f.rateArm = none ∧ (f.setFld aRate 0 6 10).rate ≤ 10) ∧
    State.reset.thermal.floorSince = none := by decide +kernel

/-- R459, R461, R464: a sample out of time; the first above THOT; a recovery 100 ms after the last change; 10 ms of THOT at ceiling 10; an input
at VIN_LOW. -/
theorem wit_ThermalAndSupply_more : let n := State.reset.sensors
    ({ State.reset with tick := 1 }).tick % 250000 ≠ 0 ∧ State.reset.thermal.hot = false ∧ 4 * (n.2.1 : Int) < 4 * (n.2.1 : Int) + 1 ∧
    4 * (n.2.1 : Int) + 1 ≤ 4 * (n.2.2.1 : Int) ∧
    (let s := { (State.reset.setFld (aMgt 0x28) 0 6 35) with
        thermal := { State.reset.thermal with lastThermal := some 0, hot := true }, tick := 25000000 }
     s.tick % 250000 = 0 ∧ s.thermalCeil < 36 ∧ s.thermal.lastThermal = some 0 ∧ 0 + 25000000 ≤ s.tick ∧
     s.thermal.hotSince + 2500000 ≤ s.tick ∧ (s.setFld (aMgt 0x28) 0 6 10).ceiling ≤ 10) ∧
    State.reset.thermal.underSince = none := by decide +kernel

/-- R324, R350, R352: a `COMMIT` and a `SLOTS` word that replay mode holds back; a `COMMIT` without an edition; `ABANDON` of a loading edition
and of none; an accessor that may not write; a part that has nothing loaded. -/
theorem wit_ContextCommands_more : let held := context 4 2 fun p => { p with held := [.input (.slotWord 0 0) 0] }
    held.mustWait 0 = true ∧ (context 4 2 id).mustWait 0 = false ∧ ((context 4 2 id).part 0).pending = none ∧
    (let s := context 1 1 fun p => { p with load := some ⟨manifest0 true, [], 0⟩ }
     s.edload 0 = 1 ∧ (s.part 0).load = some ⟨manifest0 true, [], 0⟩) ∧ (context 4 0 id).edload 0 = 0 ∧ (context 4 3 id).edload 0 = 3 ∧
    State.reset.mayWrite (.func 1 63) (aCtx 0 0) = false ∧ (State.reset.part 0).plate = none ∧
    (∀ n ∈ [2, 3, 4, 5, 6], (BitVec.ofNat 64 n).toNat % 8 = n) := by decide +kernel

/-- R337, R341, R342, R475: LOADs as the package goes off, of a manifest that cannot be read, of one that is none, of one that no state allows;
a shard's bytes from a source that its window refuses; an attempt that the source refuses at once. -/
theorem wit_ContextLoads_more : let s := State.reset.wr (aFn 0 0 0x108) 0x1003
    ((State.reset.setFld (aMgt 0x08) 1 1 1)).goingOff = true ∧ s.goingOff = false ∧
    (match State.reset.readHost 0 5 0 (.data [1]) with | .error e => decide (e < 256) | .ok _ => false) = true ∧
    (match s.readHost 0 0 0 (.data [1]) with | .ok bs => decide (bs = [1]) | .error _ => false) = true ∧ manifestOf [1] = none ∧
    (context 4 0 id).ctxState 0 ∉ [0, 6] ∧ (context 3 0 id).ctxState 0 ∉ [2, 4] ∧
    (let f : Fetch := ⟨(manifest0 false).shards.headD ⟨0, 0, 0, 0, 0, 0, 0, 0, 0, 0, [], []⟩, [], 1, false, false, 0⟩
     let u := context 1 0 fun p => { p with load := some ⟨manifest0 false, [f], 0⟩ }
     u.fetchOf 0 0 = some f ∧ u.sourceOk 0 f = false) := by decide +kernel

/-- R298, R369 to R371, R375, R453: an image while NOR is written, once the package is lost; ones that are refused; a hold that is not due; a round's parent
and another port. -/
theorem wit_Efxis_more : (State.reset.setFld aEfxCtrl 24 1 1).fld aEfxCtrl 24 1 = 1 ∧ State.reset.allLost = false ∧
    State.reset.efxStaged = none ∧ State.reset.fld aEfxCtrl 25 1 = 0 ∧ State.reset.mayManage (.func 1 63) aEfxCtrl = false ∧
    (let a := { State.reset with efxArmed := some ⟨25000, [], [], []⟩ }
     a.tick + 2052 < 25000 ∧ a.efxArmed = some ⟨25000, [], [], []⟩) ∧ State.reset.efxArmed = none ∧ State.reset.flagHold = false ∧
    State.reset.censusReady = false ∧ State.reset.censusOpen = none ∧ State.reset.isRoot = true ∧ 
    (State.reset.readHost 64 5 0 (.data [1])).toOption = none ∧
    (State.reset.checkImage bareImage).toOption.any (fun x => decide (x.1 ≤ State.reset.fld aImpSeq 0 32)) = true := by decide +kernel

/-- R386, R389, R393 to R395, R401: a function that takes nothing; a ring without entries, one whose window is shut; a slot word that the plate refuses;
a DELIVER with PASS set; a timer not due; vectors that are open and masked. -/
theorem wit_HostRings_more : let s := ring0 0x000000000000000F
    let open0 := ((ring0 0).modPport 0 fun x => { x with cfg := [(0, { FnCfg.reset with msixOn := true })] }).setFld (aBar2 0 0 0x4008) 32 1 1
    s.takes 1 63 = none ∧ (ring0 0).sqReady 0 = false ∧ ((s.setFld (aFn 0 0 0x108) 0 1 0).sqReady 0 = true ∧
      (s.setFld (aFn 0 0 0x108) 0 1 0).sqWindow 0 ≠ 0) ∧ eKIND 0 = 0 ∧ eKIND 3 ≠ 1 ∧ eKIND 3 ≠ 2 ∧
    ((context 0 0 id).ctxState 0 ∉ [2, 3, 4]) ∧ (State.reset.part 0).plate = none ∧
    entryOk (BitVec.ofNat 512 (1 + 2 ^ 32)) = false ∧ (s.wr (aRing 0 0x18) 0).deliverOk 0 = false ∧ (s.irq 0).n = 0 ∧
    State.reset.mayWrite (.func 1 63) (aRing 0 0x10) = false ∧ State.reset.msixOpen 0 0 0 = false ∧ open0.msixOpen 0 0 0 = true := by
  decide +kernel

/-- R389, R402 to R405: a write that waits for an earlier one, and one past its window; a retained write that its window still holds; a read
that is late, and one that is not; a part in replay. -/
theorem wit_DeliveryAndAperture_more : let s := fun buf kept reads => (ring0 0).modPport 0 fun x => { x with buf := buf, retained := kept, reads := reads }
    let e := (0, write0)
    let far := (0, { write0 with off := 4096 })
    let piece : HRead := ⟨3, 0, 0, 0, 2, false, .command 0 13 0 [(2 ^ 26, 2)], 0, true, none, 0⟩
    (s [] [] []).linkUp 0 = true ∧ ((s [e, (1, { write0 with ordered := true })] [] []).mayLeave 0 (1, { write0 with ordered := true })) = false ∧
    ((s [far] [] []).pport 0).buf[0]? = some far ∧ (s [far] [] []).mayLeave 0 far = true ∧ (s [far] [] []).writeCode far.2 ≠ 0 ∧
    (s [e] [] []).writeCode write0 = 0 ∧ ((s [] [] []).pport 0).buf[0]? = none ∧ (s [] [e] []).beyond 0 0 0 = 0 ∧
    ((s [] [e] []).pport 0).retained.find? (fun z => (s [] [e] []).beyond z.2.part z.2.win z.2.off = 0) = some e ∧
    (∀ z ∈ ((s [] [far] []).pport 0).retained, (s [] [far] []).beyond z.2.part z.2.win z.2.off ≠ 0) ∧
    (s [] [] [piece]).readLate 0 3 = false ∧ ({ s [] [] [piece] with tick := 12500000 }).readLate 0 3 = true ∧
    (s [] [] [piece]).mustWait ((s [] [] [piece]).partOfKey 0) = false ∧
    ((context 4 2 fun p => { p with held := [.input (.slotWord 0 0) 0] })).mustWait 0 = true := by decide +kernel

/-- R378, R403, R404: a seventeenth flush and a sixteenth that waits; a function that takes nothing and answers; an address of no running part. -/
theorem wit_DeliveryAndAperture_waits : let fl : Flush := ⟨0, 0, 0, 0, 1, 0, 0⟩
    let s := fun n => (ring0 0).modPport 0 fun x => { x with flushes := List.replicate n fl }
    (∀ n ∈ [1, 16], (((s n).pport 0).flushes.filter fun z => z.f = 0) ≠ [] ∧ (((s n).pport 0).flushes.filter fun z => z.f = 0).length < 17) ∧
    17 ≤ (((s 17).pport 0).flushes.filter fun z => z.f = 0).length ∧ (ring0 0).takes 0 63 = none ∧ (ring0 0).bar2Up 0 63 = true ∧
    State.reset.runningAt 0 = none := by decide +kernel

/-- R379, R382, R406, R413: the mirror of a BOUND function, and a function without one; the partition of a mirror; a link down; the boot
not yet at its end. -/
theorem wit_PortResets_more : let up := ring0 0
    (up.fld (aFn 1 0 0) 0 1 = 0 ∧ up.fld (aFn 0 0 0) 0 1 = 1 ∧ (2 ^ 7 : Word).getLsbD 7 = true) ∧ (0#64).getLsbD 7 = false ∧
    up.linkUp 1 = false ∧ up.fnPart 1 5 = none ∧ ¬ ((up.setFld aBoot 0 3 6).fld aBoot 0 3 = 7) ∧ (up.setFld aBoot 0 3 6).linkUp 0 = true ∧
    ((up.modPport 0 fun x => { x with vfs := 63 }).pport 0).vfs = 63 := by decide +kernel

/-- R408 to R410: a peer that still holds a write of this port's partition; a function that a mirror carries; a port that may not come up;
a lane whose next error reaches its limit. -/
theorem wit_PortFailures_more : let up := ring0 0
    let f := up.setFld (aPort 0 0) 9 1 1
    let m := (f.setFld (aFn 0 0 0) 8 1 0).setFld (aFn 1 0 0) 8 1 1
    up.fld (aPort 0 0) 9 1 = 0 ∧
    (let l := f.modPport 1 fun x => { x with buf := [(0, write0)] }
     ((l.pport 1).buf ++ (l.pport 1).queued ++ (l.pport 1).retained).any (fun e => decide (e.2.part ≠ 64 ∧ (l.hostFunc e.2.part).map (·.1) = some 0)) = true) ∧
    (m.fld (aFn 0 0 0) 0 1 = 1 ∧ m.fld (aFn 1 0 0) 8 1 = 1 ∧ m.fld (aFn 1 0 0) 0 1 = 0 ∧ m.fld (aFn 1 0 0) 1 6 = m.fld (aFn 0 0 0) 1 6 ∧
      m.linkUp 0 = true) ∧
    (let y := ((up.setFld (aFn 1 0 0) 7 1 1).setFld (aPort 0 8) 0 1 1).setFld (aPort 1 8) 0 1 1
     y.mirrorReady 0 0 = true) ∧ up.mirrorReady 0 0 = false ∧
    State.reset.linkUp 1 = false ∧ (State.reset.pport 1).downTick = none ∧ ¬ (7#3).toNat ≤ 6 ∧ (3#5).toNat ∉ [1, 2, 4, 8, 16] ∧
    (let k := windowKey 7 0
     let s := { up with windows := [(k, (up.faultWin 7).1 - 1)] }
     (s.faultWin 7).1 = Tbl.get 0 s.windows k + 1 ∧ (up.faultWin 7).1 ≠ Tbl.get 0 up.windows k + 1) := by decide +kernel

/-- R412, R429, R473: a package without power whose image does not verify; a lifetime copy that was not orderly; a loss after an
orderly power-down, after a trip, and of a NOR that had failed. That an image does verify is a matter of its free signature. -/
theorem wit_PowerAndLoss_more : let off := { State.reset with powered := false, nor := { Nor.fresh with firmwareGood := false } }
    let b : BootInput := ⟨100, true, 0, ⟨[], [], [], []⟩, true⟩
    off.powered = false ∧ off.romVerifies b = false ∧ (State.reset.setFld (aMgt 0) 4 1 1).fld (aMgt 0) 4 1 = 1 ∧
    ({ State.reset with thermal := { State.reset.thermal with trip10 := true } }).thermal.trip10 = true ∧
    ({ State.reset with norKept := some Nor.fresh }).norKept = some Nor.fresh ∧ State.reset.fld (aMgt 0) 4 1 = 0 := by decide +kernel

/-- R371, R422, R423: an accessor that may write no reset register; requests for nothing; a unit whose cores await answers; a galley whose
proof pass runs; a unit within one under reset. -/
theorem wit_Resets_more : let s := State.reset
    let busy := withCore fun c => { c with awaiting := [(1, 1)] }
    (∀ a ∈ [aGly 0 0 0, aPartReset 0, aPkgReset], s.mayWrite (.func 1 63) a = false) ∧ (0#64).getLsbD 18 = false ∧ (0#64).getLsbD 0 = false ∧
    ((List.finRange 18).filter fun c => (0x40000#64).getLsbD c.val) = [] ∧ (0#64).toNat % 2 ^ 32 ≠ 0x4A585253 ∧
    (busy.cores.all fun e => !busy.covers .package e.1 || e.2.awaitSum = 0) = false ∧
    (s.cores.all fun e => !s.covers .package e.1 || e.2.awaitSum = 0) = true ∧ s.resetOf .package = none ∧
    (let r : ResetRun := ⟨.galley 63 3, 0, true, true, 0⟩
     ({ s with resets := [r] }).resetOf (.galley 63 3) = some r ∧ r.drained = true ∧ r.proof = true) ∧
    ({ s with resets := [⟨.package, 0, false, false, 0⟩] }).merges (.partition 63) = true ∧ s.merges (.partition 63) = false ∧
    (s.covers (.galley 63 3) 0 = false ∧ s.covers (.galley 63 3) 4607 = true) := by decide +kernel

/-- R428 to R431, R453: an accessor that may not manage; the package lost; the boot ROM that serves; a command while PLDM updates; bytes that
cannot be read; dies with a galley of the partition; a colophon that starts in time. -/
theorem wit_FirmwareUpdates_more : let s := State.reset
    let lost := { (s.setFld (aMgt 0) 3 1 1) with colophonStopped := [0] }
    s.mayManage (.func 1 63) (aFw 0) = false ∧ s.allLost = false ∧ ({ s with romUp := true }).romServes = true ∧
    ({ s with mgmt := { s.mgmt with update := 3 } }).mgmt.update ≠ 0 ∧ (s.readHost 64 5 0 (.data [1])).toOption = none ∧
    (∀ n ∈ [1, 2, 3, 4], (BitVec.ofNat 64 n).toNat % 8 = n) ∧
    ((context 2 0 id).hasGalley 0 0 0 = true ∨ ∃ d, d < 64 ∧ s.hasGalley 0 d 0 = true) ∧ lost.colophonStopped = [0] ∧
    (let r := { s with fwRestarting := some (3, 0), tick := 499999999 }
     r.fwRestarting = some (3, 0) ∧ r.tick < 0 + 500000000) ∧ ∀ x, s.fwRestarting ≠ some (0, x) := by
  refine ⟨by decide +kernel, by decide +kernel, by decide +kernel, by decide +kernel, by decide +kernel, by decide +kernel, .inr ⟨0, by decide, by decide +kernel⟩, rfl, by decide +kernel, fun x => by simp [State.reset]⟩

/-- R413, R429, R446: a boot ROM that waits; a try of the firmware image before its last, and the last; a write that is not under way. -/
theorem wit_NorWrites_more : let b : BootInput := ⟨100, true, 0, ⟨[], [], [], []⟩, true⟩
    ({ State.reset with recovering := some b, norBusy := [.firmware] }).recovering = some b ∧
    (∀ n ∈ [1, 3], ({ State.reset with fwTries := n }).fwTries < 4) ∧ ¬ ({ State.reset with fwTries := 4 }).fwTries < 4 ∧
    NorWrite.record ∉ State.reset.norBusy ∧ State.reset.norOk = true ∧ 0 ∉ State.reset.colophonStopped := by decide +kernel

/-- R453, R456, R474: a calendar second that is due, and one that is not; an index that passes 30,000 ppm, and one that has; NOR not good. -/
theorem wit_ColophonAndLifetime_more : let s := State.reset.setFld (aMgt 0) 2 1 1
    s.fld (aMgt 0) 2 1 = 1 ∧ ({ s with calDue := 1 }).tick < 1 ∧ ({ s with calDue := 0 }).calDue ≤ s.tick ∧
    (s.fld (aMgt 0x17F8) 0 32 ≤ 30000 ∧ 30000 < (30001#32).toNat ∧ 0x1000 + 8 * (63 * 4 + 3) = 0x17F8) ∧
    ¬ (s.setFld (aMgt 0x17F8) 0 32 30001).fld (aMgt 0x17F8) 0 32 ≤ 30000 ∧ s.mayManage (.func 1 63) (aMgt 0x08) = false ∧
    s.mayManage (.func 1 63) (aMgt 0x30) = false ∧ NorWrite.lifetime ∉ s.norBusy := by decide +kernel

/-- R436 to R438, R441: rows under restore with the alternate asked and not; the last row; a restore in the background; a line past
the store, and one with bytes too few. -/
theorem wit_Restores_more : let r : Restore := ⟨[5], [5], [], [], 0, true⟩
    let s := withCore fun c => { c with restore := some r }
    let x : ProgSec := ⟨0, 0, 100, 80⟩
    let l := ((context 4 0 fun p => { p with plate := some { plate0 with programs := [x] } }).wr (aFn 0 0 0x108) 0x1003)
    (s.core 0).restore = some r ∧ r.rows.filter (fun y => y ≠ 5) = [] ∧ 5 ∈ r.alt ∧ r.background = true ∧ 6 ∉ r.rows ∧
    (([] : List Byte).length ≠ 128) ∧ s.rowServed 0 5 true = true ∧ s.rowServed 0 5 false = true ∧ s.rowAsk 0 5 true = none ∧
    (withCore id).coreAbsorbed 0 = false ∧ ((withCore id).core 0).restore = none ∧ 32768 ≤ 32768 ∧ 32767 < 32768 ∧
    l.lineBytes 0 (0, { plate0 with programs := [x] }, x) (.data [1]) = none ∧
    (withCore fun c => { c with stall := .fetch 0, run := true }).core 0 = { (State.reset.core 0) with stall := .fetch 0, run := true } ∧
    ¬ (r.since + s.partLoadTimeout (s.partOfKey 0) ≤ s.tick ∧ s.partLoadTimeout (s.partOfKey 0) ≠ 0) := by decide +kernel

/-- R444 to R449: a record that has not waited 1 ms; a bridge whose spare lanes are all taken, however many it has. -/
theorem wit_ErrorRecords_more : let e := { ErrRec.base with tick := 1 }
    ({ State.reset with errPend := [e], tick := 250000 }).tick < e.tick + 250000 ∧
    (let s := { State.reset with nor := { State.reset.nor with repairs := List.replicate (16 * (Config.bridgeLanes / 1024)) ⟨6, 0, 0⟩ } }
     s.freeLanes 0 = 0) := by
  refine ⟨by decide, ?_⟩
  simp [State.freeLanes]


/-- R478 to R487, R489: an accessor that may not write; a function of the port itself; EN cleared while it was 1 and while it was 0; a trace
that is not due, and one that START delays; JTAG before step 4 and after. -/
theorem wit_TestAndDebug_more : let s := State.reset
    (∀ a ∈ [aPort 1 0x18, aHub 63 0x618, aGly 63 3 8], s.mayWrite (.func 1 63) a = false) ∧ s.mayManage (.func 1 63) (aHub 0 0x800) = false ∧
    (match Accessor.func 1 0 with | .func q _ => decide (q = 1) | _ => false) = true ∧
    (match Accessor.colophon with | .func q _ => decide (q = (1 : Fin 2)) | _ => false) = false ∧
    (s.setFld (aPort 1 0x18) 0 1 1).fld (aPort 1 0x18) 0 1 = 1 ∧ s.fld (aPort 1 0x18) 0 1 = 0 ∧
    (s.setFld (aHub 0 0x800) 32 32 1).traceDue 0 = false ∧ s.traceDue 0 = true ∧ ¬ s.fld aBoot 0 3 < 4 ∧ (s.setFld aBoot 0 3 3).fld aBoot 0 3 < 4 ∧
    (s.slots = [] ∧ ({ s with slots := [(32 * (bridgeHops 63 3).headD 0, 0)] }).bridgeUsed 63 3 = true) ∧
    ¬ ∃ x ∈ s.resets, x.unit = .galley 63 3 ∧ x.proof = true ∧ x.drained = true := by decide +kernel

/-- R465, R467: a package that the Q0 colophon does not serve; operands that are refused; stages that answer nothing; a large request past
64 KiB, and out of order. -/
theorem wit_Protocols_more : let off := State.reset.setFld (aMgt 0) 0 2 1
    off.i3cUp = false ∧ off.answers .i3c = false ∧ State.reset.answers (.pcie 1) = false ∧ 7 ≠ State.reset.mgmt.staticAddr ∧
    (∀ e ∈ [(0 : BitVec 8), 0xFF], e = 0 ∨ e = 0xFF) ∧ (2#8).toNat ∉ [0xFF, 0, 1, 5, 6] ∧ (1#8).toNat ∉ [0, 2, 3, 5] ∧
    71 ≤ (71#16).toNat ∧ 2 ≤ (2#16).toNat ∧ (59#32).toNat < 60 ∧ 120 < (121#32).toNat ∧ blockExists 0xFE = false ∧
    (let x := { State.reset.spdmOf .i3c with inSeq := 1, inHandle := 255, chunkIn := [0] }
     (2#16) ≠ 0 ∧ (2#16).toNat ≠ x.inSeq ∧ (1#16) ≠ 0) ∧ 3 < (4#8).toNat := by decide +kernel

/-- R239, R453: a package on which the end of a hand-over falls, and one where nothing is held. -/
theorem wit_IdleTick_more : (∀ q, q < 64 → (State.reset.part q).held = []) ∧ State.reset.handover = none ∧
    (context 3 0 id).ctxState 0 = 3 ∧ ((context 3 0 id).rd (aCtx 0 0x20)).toNat ≤ (context 3 0 id).tick + 1 := by decide +kernel

end Sys2Proof.Tests
end

