-- ==== Sys2Proof/Proofs/ResetValues.lean ====
section
/-! PROOFS. What the machine holds after power-on. -/

namespace Sys2Proof

/-- An offset that a table does not list reads as the default. -/
theorem Tbl.get_of_forall_ne {α : Type} (d : α) {t : Tbl α} {k : Nat} (h : ∀ e ∈ t, e.1 ≠ k) : Tbl.get d t k = d := by
  induction t with
  | nil => rfl
  | cons e t ih =>
    rw [Tbl.get, if_neg (h e (by simp)), ih fun x hx => h x (by simp [hx])]

namespace Machine

/-- The registers that do not start at zero lie below the journals or from the quoins on. -/
theorem ctlReset_keys : ∀ e ∈ ctlReset, e.1 ≤ 0x308 ∨ 0x400000 ≤ e.1 := by decide

theorem rd_reset_between {a : Nat} (h : 0x308 < a) (h' : a < 0x400000) : State.reset.rd a = 0 :=
  Tbl.get_of_forall_ne 0 fun e he heq => by have := ctlReset_keys e he; omega

theorem fld_reset_between {a : Nat} (lo w : Nat) (h : 0x308 < a) (h' : a < 0x400000) : State.reset.fld a lo w = 0 := by
  rw [State.fld, rd_reset_between h h']; simp [getF, bits_eq]

/-- R334: after power-on no partition has loaded a context or an edition. -/
theorem ctx_reset {p : Nat} (hp : p < 64) : State.reset.ctxState p = 0 ∧ State.reset.edload p = 0 := by
  have h : 0x308 < aCtx p 8 ∧ aCtx p 8 < 0x400000 := by simp only [aCtx]; omega
  exact ⟨fld_reset_between 0 3 h.1 h.2, fld_reset_between 3 2 h.1 h.2⟩

/-- R391: after power-on no ring is enabled. -/
theorem ringEn_reset {r : Nat} (hr : r < 256) : State.reset.ringEn r = false := by
  have h : 0x308 < aRing r 0x10 ∧ aRing r 0x10 < 0x400000 := by simp only [aRing]; omega
  simp [State.ringEn, fld_reset_between 5 1 h.1 h.2]

/-- Settles O3: the registers of the partitions and rings by the offsets that `ctlReset` lists, the rest by evaluation. -/
theorem resetValues : Obligations.ResetValues := by
  have parts : ∀ p, p < 64 → State.reset.ctxState p = 0 ∧ State.reset.edload p = 0 := fun _ => ctx_reset
  have rings : ∀ r, r < 256 → State.reset.ringEn r = false := fun _ => ringEn_reset
  refine ⟨rfl, rfl, rfl, ?_, ?_, ?_, rfl, ?_, ?_, ?_, ?_, ?_, ?_, ?_, ?_, ?_, rfl, rfl, rfl, rfl, rfl, rfl, parts, rings,
    fun _ => rfl, fun _ _ => ⟨rfl, rfl, (by decide : hVALID 0 = false), rfl, rfl, rfl⟩⟩
  all_goals decide

end Machine
end Sys2Proof
end

