-- ==== Sys2Proof/Proofs/Packets.lean ====
section
/-! PROOFS. Fields of wide words, what leaves this package and what an answer carries (R247, R256 to R258). -/

namespace Sys2Proof.Machine

/-! ## Fields of a wide word -/

theorem testBit_putW (v : Wide) (lo w x i : Nat) : (putW v lo w x).toNat.testBit i =
    (decide (i < 256) && if lo ≤ i ∧ i < lo + w then x.testBit (i - lo) else v.toNat.testBit i) := by
  have hmask : ((2 ^ w - 1) * 2 ^ lo).testBit i = decide (lo ≤ i ∧ i < lo + w) := by
    rw [← Nat.mod_eq_of_lt (show 2 ^ w - 1 < 2 ^ w from Nat.sub_lt (Nat.two_pow_pos w) Nat.one_pos), testBit_field,
      Nat.testBit_two_pow_sub_one]
    grind
  change (putW v lo w x).getLsbD i = (decide (i < 256) && if _ then _ else v.getLsbD i)
  rw [putW, BitVec.getLsbD_or, BitVec.getLsbD_and, BitVec.getLsbD_not, BitVec.getLsbD_ofNat, BitVec.getLsbD_ofNat, hmask,
    testBit_field]
  by_cases hi : i < 256
  · by_cases h : lo ≤ i ∧ i < lo + w <;> simp [h, hi]
  · simp [hi]

theorem getW_lt (v : Wide) (lo w : Nat) : getW v lo w < 2 ^ w := bits_lt ..

/-- A field reads as what was put there. -/
theorem getW_putW (v : Wide) (lo w x : Nat) (h : lo + w ≤ 256) : getW (putW v lo w x) lo w = x % 2 ^ w := by
  apply Nat.eq_of_testBit_eq
  intro i
  rw [getW, testBit_bits, testBit_putW, Nat.testBit_mod_two_pow]
  by_cases hi : i < w
  · have h1 : lo + i < 256 := by omega
    simp [hi, h1]
  · simp [hi]

/-- Another field is as it was. -/
theorem getW_putW_ne (v : Wide) (lo w x lo' w' : Nat) (h : lo' + w' ≤ lo ∨ lo + w ≤ lo') :
    getW (putW v lo w x) lo' w' = getW v lo' w' := by
  apply Nat.eq_of_testBit_eq
  intro i
  rw [getW, getW, testBit_bits, testBit_bits, testBit_putW]
  by_cases hi : i < w'
  · have h1 : ¬ (lo ≤ lo' + i ∧ lo' + i < lo + w) := by omega
    by_cases h2 : lo' + i < 256
    · simp [hi, h1, h2]
    · have : v.toNat < 2 ^ (lo' + i) := lt_of_lt_of_le v.isLt (Nat.pow_le_pow_right (by omega) (by omega))
      simp [hi, h2, Nat.testBit_lt_two_pow this]
  · simp [hi]

/-! ## The name of an endpoint in its address -/

theorem a20Pkg_lt (a : BitVec 20) : a20Pkg a < 64 := bits_lt ..
theorem a20Die_lt (a : BitVec 20) : a20Die a < 128 := bits_lt ..
theorem a20Core_lt (a : BitVec 20) : a20Core a < 128 := bits_lt ..

/-- R247: PACKAGE of an endpoint's address, which has 48 bits. -/
theorem addrAt_pkg (a : BitVec 20) (space off : Nat) (h : space < 4) :
    addrAt a space off < 2 ^ 48 ∧ addrAt a space off / 2 ^ 42 = a20Pkg a := by
  have hp := a20Pkg_lt a
  have hd := a20Die_lt a
  have hc := a20Core_lt a
  have ho : off % 2 ^ 26 < 2 ^ 26 := Nat.mod_lt _ (by norm_num)
  unfold addrAt fabAddr
  split <;> omega

/-! ## What leaves (R252, R256) -/

/-- Packets in flight and the Ronnen ports apart, all of the state. -/
def State.SendFrame (s t : State) : Prop := t = { s with net := t.net, rnnTurn := t.rnnTurn, rports := t.rports }

theorem State.SendFrame.refl (s : State) : s.SendFrame s := rfl

theorem State.SendFrame.trans {s t u : State} (h1 : s.SendFrame t) (h2 : t.SendFrame u) : s.SendFrame u :=
  Eq.trans h2 (by rw [h1])

theorem State.SendFrame.mem {s t : State} (h : s.SendFrame t) : t.mem = s.mem := by rw [h]
theorem State.SendFrame.ctl {s t : State} (h : s.SendFrame t) : t.ctl = s.ctl := by rw [h]
theorem State.SendFrame.tiles {s t : State} (h : s.SendFrame t) : t.tiles = s.tiles := by rw [h]
theorem State.SendFrame.core {s t : State} (h : s.SendFrame t) (k : Nat) : t.core k = s.core k := by rw [h]; rfl

theorem State.SendFrame.modRport {s t : State} (h : s.SendFrame t) (p : Nat) (f : RPort → RPort) : s.SendFrame (t.modRport p f) :=
  h.trans rfl

theorem State.SendFrame.rnnTurn (s : State) (x : Tbl Nat) : s.SendFrame { s with rnnTurn := x } := rfl

theorem State.SendFrame.ite {c : Prop} [Decidable c] {s t u : State} (h1 : s.SendFrame t) (h2 : s.SendFrame u) :
    s.SendFrame (if c then t else u) := by split <;> assumption

theorem rnnPump_frame (s : State) (p : Nat) : s.SendFrame (s.rnnPump p) := by
  unfold State.rnnPump
  split <;> rfl

theorem portSend_frame (s : State) (k port : Nat) (p : Packet) (role : Nat) : s.SendFrame (s.portSend k port p role) := by
  unfold State.portSend
  exact .trans (.modRport (.ite (.refl s) (.rnnTurn s _)) port _) (rnnPump_frame _ port)

/-- A packet put on its way changes the packets in flight and the Ronnen ports alone. -/
theorem inject_frame (s : State) (p : Packet) : s.SendFrame (s.inject p) := by
  unfold State.inject
  split
  · rfl
  · split
    · exact portSend_frame ..
    · rfl

theorem answer_frame (s : State) (p : Packet) (ty code flags : Nat) (data : List Byte) (psn : Nat) :
    s.SendFrame (s.answer p ty code flags data psn) := inject_frame s _

/-- R258: what an answer carries. -/
structure AnswerOf (p : Packet) (ty code : Nat) (data : List Byte) (r : Packet) : Prop where
  type_eq : kTYPE r = ty
  txid_eq : kTXID r = kTXID p
  code_eq : codeOf (BitVec.ofNat 16 (kARG r)) = code
  payload_eq : r.payload = data

theorem codeOf_statusWord (code flags : Nat) : codeOf (statusWord code flags) = code % 256 := by
  simp only [codeOf, statusWord, bits_eq, BitVec.toNat_ofNat]
  omega

theorem statusWord_lt (code flags : Nat) : (statusWord code flags).toNat < 2 ^ 32 :=
  lt_of_lt_of_le (statusWord code flags).isLt (by norm_num)

/-- R258: an answer to a source of this package is in flight there, with the request's number, its own type, code and payload. -/
theorem answer_has (s : State) (p : Packet) (ty code flags : Nat) (data : List Byte) (psn : Nat)
    (hsrc : a20Pkg (kSRC p) = s.position) (hty : ty < 16) (hcode : code < 256) :
    ∃ r ∈ (s.answer p ty code flags data psn).net, AnswerOf p ty code data r := by
  obtain ⟨haddr, hpkg⟩ := addrAt_pkg (kSRC p) 3 0 (by norm_num)
  unfold State.answer State.inject
  dsimp only
  rw [if_pos]
  · refine ⟨_, List.mem_append_right _ (List.mem_singleton_self _), ?_, ?_, ?_, rfl⟩
    · simp [State.withAge, kTYPE, mkHdr, mkW, getW_putW, getW_putW_ne]; omega
    · simp [State.withAge, kTXID, mkHdr, mkW, getW_putW, getW_putW_ne]
      exact congrArg _ (Nat.mod_eq_of_lt (getW_lt p.hdr 148 12))
    · simp only [State.withAge, kARG, mkHdr, mkW, List.append_nil, List.foldl, getW_putW, getW_putW_ne, Nat.reduceAdd, Nat.reduceLeDiff,
        or_true, Nat.mod_eq_of_lt (statusWord_lt _ _), BitVec.ofNat_toNat, BitVec.setWidth_eq, codeOf_statusWord]
      omega
  · have hk : kDADDR (s.withAge ⟨putW (mkHdr ty none (addrAt (kSRC p) 3 0) 0 (nameAt (kDADDR p)) (kTXID p) (kSEGNO p) data.length
        (statusWord code (if p.replayed = true then withFlag flags fREPLAYED else flags)).toNat) 176 16 psn, data, false⟩) =
        addrAt (kSRC p) 3 0 := by
      simp [State.withAge, kDADDR, mkHdr, mkW, getW_putW, getW_putW_ne]; omega
    simp only [kPKG, hk, bits_eq, hpkg, Bool.or_eq_true, decide_eq_true_eq]
    left
    have := a20Pkg_lt (kSRC p)
    omega

end Sys2Proof.Machine
end

