-- ==== Sys2Proof/Proofs/RawAccesses.lean ====
section
/-! PROOFS. Raw accesses of the control space (R3, R87, R216, R248, R515). -/

namespace Sys2Proof.Machine

/-- Little-endian bytes read back as the number they hold. -/
theorem leNat_leBytes (k n : Nat) : leNat (leBytes k n) = n % 256 ^ k := by
  induction k generalizing n with
  | zero => simp [leBytes, leNat, Nat.mod_one]
  | succ k ih =>
    have hcons : leNat (leBytes (k + 1) n) = n % 256 + 256 * leNat (leBytes k (n / 256)) := by simp [leBytes, leNat]
    rw [hcons, ih, pow_succ', Nat.mod_mul]

/-! ## What reaches its endpoint -/

/-- R257: what an accepted `CTRL` packet carries. -/
theorem payload_of_packetOk {p : Packet} (h : packetOk p = true) (hty : kTYPE p = 8) : p.payload.length = kLEN p ∧ kLEN p ≤ 1024 := by
  simp only [packetOk, hty, tyRDREQ, Bool.and_eq_true, decide_eq_true_eq] at h
  obtain ⟨⟨⟨-, hlen⟩, hpay⟩, -⟩ := h
  exact ⟨by simpa using hpay, hlen⟩

/-- The packet has left flight, and its arrival has restarted the census count of the core that it names. -/
def State.ctrlBegin (s : State) (p : Packet) : State :=
  if isCoreAt (kDADDR p) then (s.landed p).touch (keyAt (kDADDR p)) else s.landed p

/-- What both leave: packets in flight and cores apart, all of the state. -/
theorem ctrlBegin_frame (s : State) (p : Packet) :
    s.ctrlBegin p = { s with net := (s.ctrlBegin p).net, cores := (s.ctrlBegin p).cores } := by
  unfold State.ctrlBegin
  split <;> rfl

@[simp] theorem ctrlBegin_mem (s : State) (p : Packet) : (s.ctrlBegin p).mem = s.mem := by rw [ctrlBegin_frame]
@[simp] theorem ctrlBegin_ctl (s : State) (p : Packet) : (s.ctrlBegin p).ctl = s.ctl := by rw [ctrlBegin_frame]
@[simp] theorem ctrlBegin_tiles (s : State) (p : Packet) : (s.ctrlBegin p).tiles = s.tiles := by rw [ctrlBegin_frame]
@[simp] theorem ctrlBegin_position (s : State) (p : Packet) : (s.ctrlBegin p).position = s.position := by rw [ctrlBegin_frame]

theorem touch_flag (s : State) (k j f : Nat) : ((s.touch k).core j).flag f = (s.core j).flag f := by
  by_cases h : j = k
  · subst h; simp [State.touch, Core.flag]
  · rw [State.touch, State.core_modCore_ne _ _ h]

@[simp] theorem ctrlBegin_flag (s : State) (p : Packet) (k f : Nat) : ((s.ctrlBegin p).core k).flag f = (s.core k).flag f := by
  unfold State.ctrlBegin
  split
  · exact touch_flag ..
  · rfl

/-- A `CTRL` packet at its endpoint, in terms of the state that its arrival leaves. -/
theorem exec_ctrlRawAccess {p : Packet} {s : State} (harr : s.arrives p = true) (hok : packetOk p = true) (hty : kTYPE p = 8) :
    exec (.ctrlRawAccess p) s = .next (
      let x := rawPlace (kDADDR p) (kSPAN p)
      let t := s.ctrlBegin p
      if s.storeFused (kDADDR p) then t.ackWith p cABSORBED
      else if x = .nowhere || rawSkewed x (kSPAN p) || 1024 < kSPAN p then t.refusePacket p cEXTENT
      else if isRead p then t.answer p tyRDRSP cDONE 0 (t.rawLoad x (kSPAN p)) 0
      else (t.rawStore (t.ctrlSender p) x p.payload).ackWith p cDONE) := by
  have hfused : (s.ctrlBegin p).storeFused (kDADDR p) = s.storeFused (kDADDR p) := by rw [ctrlBegin_frame]; rfl
  have h : exec (.ctrlRawAccess p) s = execCtrlRawAccess p s := rfl
  rw [h, execCtrlRawAccess, harr, hok]
  simp only [hty, tyCTRL, Bool.not_true, Bool.false_or, ne_eq, not_true_eq_false, decide_false, if_true, Bool.false_eq_true, if_false,
    ← hfused]
  rfl

/-! ## Answers -/

/-- The answer of a raw access: from `t` on, only packets in flight and ports differ, and a source of this package finds it. -/
structure State.AnswersIn (t u : State) (p : Packet) (ty code : Nat) (data : List Byte) : Prop where
  frame : t.SendFrame u
  has : a20Pkg (kSRC p) = t.position → ∃ r ∈ u.net, AnswerOf p ty code data r

theorem State.AnswersIn.answered {t u : State} {p : Packet} {ty code : Nat} {data : List Byte} (h : t.AnswersIn u p ty code data)
    (hpos : a20Pkg (kSRC p) = t.position) :
    ∃ r ∈ u.net, kTYPE r = ty ∧ kTXID r = kTXID p ∧ codeOf (BitVec.ofNat 16 (kARG r)) = code := by
  obtain ⟨r, hr, ha⟩ := h.has hpos
  exact ⟨r, hr, ha.type_eq, ha.txid_eq, ha.code_eq⟩

theorem answersIn_answer (t : State) (p : Packet) {ty code : Nat} (data : List Byte) (hty : ty < 16) (hcode : code < 256) :
    t.AnswersIn (t.answer p ty code 0 data 0) p ty code data :=
  ⟨answer_frame .., fun h => answer_has t p ty code 0 data 0 h hty hcode⟩

/-- A `CTRL` packet took no credit: it is refused by its answer alone. -/
theorem refusePacket_ctrl (t : State) {p : Packet} (code : Nat) (hty : kTYPE p = 8) :
    t.refusePacket p code = t.answer p (if isRead p then tyRDRSP else tyACK) code 0 [] 0 := by
  have h : t.creditOf p = t := by
    simp only [State.creditOf, State.tookCredit, hty, tyWRITE, tyACC]
    split <;> simp
  rw [State.refusePacket, h]

/-! ## Flags (R216) -/

/-- One aligned piece of 4 bytes. -/
theorem rawPieces_four (off : Nat) : rawPieces 4 off 4 = [(off, 4)] := by simp [rawPieces]

@[simp] theorem flagWrite_mem (s : State) (k f v : Nat) : (s.flagWrite k f v).mem = s.mem := rfl
@[simp] theorem flagWrite_ctl (s : State) (k f v : Nat) : (s.flagWrite k f v).ctl = s.ctl := rfl
@[simp] theorem flagWrite_position (s : State) (k f v : Nat) : (s.flagWrite k f v).position = s.position := rfl

theorem ofNat_mod_32 (n : Nat) : BitVec.ofNat 32 (n % 4294967296) = BitVec.ofNat 32 n := by
  apply BitVec.eq_of_toNat_eq
  simp

theorem flag_flagWrite (s : State) (k f v g : Nat) :
    ((s.flagWrite k f v).core k).flag g = if g = f then BitVec.ofNat 32 v else (s.core k).flag g := by
  simp [State.flagWrite, Core.flag, Core.latch, Tbl.get_set]

/-- A raw write of 4 aligned bytes of the flag array replaces that flag. -/
theorem rawStore_flags (s : State) (who : Accessor) (k off : Nat) {bs : List Byte} (hlen : bs.length = 4) :
    s.rawStore who (.flags k off) bs = s.flagWrite k (off / 4) (leNat bs) := by
  have hall : leAt bs 0 4 = leNat bs := by rw [leAt, List.drop_zero, List.take_of_length_le (by omega)]
  simp [State.rawStore, rawOff, hlen, rawPieces_four, State.rawWrite, hall, State.flagWrite, ofNat_mod_32]

/-- A raw read of 4 aligned bytes of the flag array gives that flag. -/
theorem leNat_rawLoad_flags (s : State) (k off : Nat) (hoff : off % 4 = 0) :
    leNat (s.rawLoad (.flags k off) 4) = ((s.core k).flag (off / 4)).toNat := by
  have hlow := ((s.core k).flag (off / 8 * 8 / 4)).isLt
  have hhigh := ((s.core k).flag (off / 8 * 8 / 4 + 1)).isLt
  simp only [State.rawLoad, rawOff, rawPieces_four, List.flatMap_cons, List.flatMap_nil, List.append_nil, leNat_leBytes,
    State.rawWord, nat64, BitVec.toNat_ofNat]
  by_cases h8 : off % 8 = 4
  · rw [if_pos h8, show off / 4 = off / 8 * 8 / 4 + 1 by omega]
    omega
  · rw [if_neg h8, show off / 4 = off / 8 * 8 / 4 by omega]
    omega

/-- A memory that `bs` was written into from `a` on. -/
theorem bytesBecome_of_mem {s t : State} {a : Nat} {bs : List Byte} (h : t.mem = writeMem s.mem a bs) : s.BytesBecome t a bs := by
  unfold State.BytesBecome State.byte
  rw [h]
  exact ⟨fun i h => get_writeMem_in s.mem a i bs h, fun x h => get_writeMem_out s.mem a x bs h⟩

/-! ## The five answers -/

section
variable {p : Packet} {s : State} (harr : s.arrives p = true) (hok : packetOk p = true) (hty : kTYPE p = 8)
include harr hok hty

/-- R3: the program store of a fused-off die absorbs the access. -/
theorem exec_ctrlRawAccess_fused (hf : s.storeFused (kDADDR p) = true) :
    ∃ t, exec (.ctrlRawAccess p) s = .next t ∧ (s.ctrlBegin p).AnswersIn t p 4 0x08 [] := by
  refine ⟨_, exec_ctrlRawAccess harr hok hty, ?_⟩
  simp only [hf, if_true]
  exact answersIn_answer _ p [] (by decide) (by decide)

/-- R515: an address that is no place of the control space is answered EXTENT_FAULT. -/
theorem exec_ctrlRawAccess_nowhere (hf : s.storeFused (kDADDR p) = false) (hx : rawPlace (kDADDR p) (kSPAN p) = .nowhere) :
    ∃ t, exec (.ctrlRawAccess p) s = .next t ∧ (s.ctrlBegin p).AnswersIn t p (if kLEN p = 0 then 3 else 4) 0x03 [] := by
  refine ⟨_, exec_ctrlRawAccess harr hok hty, ?_⟩
  have hread : (if isRead p then tyRDRSP else tyACK) = if kLEN p = 0 then 3 else 4 := by
    simp [isRead, hty, tyCTRL, tyRDREQ, tyRDRSP, tyACK]
  simp only [hf, hx, decide_true, Bool.true_or, if_true, Bool.false_eq_true, if_false, refusePacket_ctrl _ _ hty, hread]
  exact answersIn_answer _ p [] (by split <;> decide) (by decide)

/-- An access of a place, on 4-byte boundaries where it is one of registers, of at most 1,024 bytes. -/
theorem exec_ctrlRawAccess_write (hf : s.storeFused (kDADDR p) = false) {x : RawPlace} (hx : rawPlace (kDADDR p) (kSPAN p) = x)
    (hn : x ≠ .nowhere) (hpay : p.payload ≠ []) (hs : rawSkewed x p.payload.length = false) :
    exec (.ctrlRawAccess p) s = .next (((s.ctrlBegin p).rawStore ((s.ctrlBegin p).ctrlSender p) x p.payload).ackWith p cDONE) := by
  obtain ⟨hlen, hmax⟩ := payload_of_packetOk hok hty
  have hpos : kLEN p ≠ 0 := by rw [← hlen]; exact fun h => hpay (List.length_eq_zero_iff.mp h)
  have hspan : kSPAN p = p.payload.length := by simp [kSPAN, hpos, hlen]
  have hread : isRead p = false := by simp [isRead, hty, tyRDREQ, hpos]
  rw [exec_ctrlRawAccess harr hok hty]
  simp only [hx, hf, hn, hread, decide_false, Bool.false_or, Bool.false_eq_true, if_false]
  rw [hspan, hs, decide_eq_false (by omega)]
  simp only [Bool.or_self, Bool.false_eq_true, if_false]

/-- R87, R248: a raw write of metadata or of a program store changes those bytes alone. -/
theorem exec_ctrlRawAccess_bytes (hf : s.storeFused (kDADDR p) = false) {a : Nat} (hx : rawPlace (kDADDR p) (kSPAN p) = .bytes a)
    (hpay : p.payload ≠ []) :
    ∃ t, exec (.ctrlRawAccess p) s = .next t ∧
      { s.ctrlBegin p with mem := writeMem s.mem a p.payload }.AnswersIn t p 4 0x00 [] := by
  refine ⟨_, exec_ctrlRawAccess_write harr hok hty hf hx (by simp) hpay rfl, ?_⟩
  rw [← ctrlBegin_mem s p]
  exact answersIn_answer _ p [] (by decide) (by decide)

/-- R216: a raw write of 4 bytes of the flag array replaces that flag. -/
theorem exec_ctrlRawAccess_flagWrite (hf : s.storeFused (kDADDR p) = false) {k off : Nat}
    (hx : rawPlace (kDADDR p) (kSPAN p) = .flags k off) (hpay : p.payload.length = 4) (hoff : off % 4 = 0) :
    ∃ t, exec (.ctrlRawAccess p) s = .next t ∧
      ((s.ctrlBegin p).flagWrite k (off / 4) (leNat p.payload)).AnswersIn t p 4 0x00 [] := by
  have hne : p.payload ≠ [] := fun h => by simp [h] at hpay
  refine ⟨_, exec_ctrlRawAccess_write harr hok hty hf hx (by simp) hne (by simp [rawSkewed, rawOff, hpay, hoff]), ?_⟩
  rw [rawStore_flags _ _ _ _ hpay]
  exact answersIn_answer _ p [] (by decide) (by decide)

/-- R216: a raw read of the flag array answers with the flag. -/
theorem exec_ctrlRawAccess_flagRead (hf : s.storeFused (kDADDR p) = false) {k off : Nat}
    (hx : rawPlace (kDADDR p) (kSPAN p) = .flags k off) (hlen : kLEN p = 0) (harg : kARG p = 4) (hoff : off % 4 = 0) :
    ∃ t, exec (.ctrlRawAccess p) s = .next t ∧
      (s.ctrlBegin p).AnswersIn t p 3 0x00 ((s.ctrlBegin p).rawLoad (.flags k off) 4) := by
  have hspan : kSPAN p = 4 := by simp [kSPAN, hty, tyCTRL, hlen, harg]
  have hread : isRead p = true := by simp [isRead, hty, tyCTRL, hlen]
  refine ⟨_, exec_ctrlRawAccess harr hok hty, ?_⟩
  rw [hspan] at hx ⊢
  simp only [hx, hf, hread, rawSkewed, rawOff, hoff, Bool.false_eq_true, if_false, if_true, reduceCtorEq, decide_false, ne_eq,
    not_true_eq_false, Bool.or_self, Nat.reduceMod, Nat.reduceLT]
  exact answersIn_answer _ p _ (by decide) (by decide)

end

/-- Settles O37: each access ends in one answer, of the state that its place has changed. -/
theorem rawAccesses : Obligations.RawAccesses := by
  intro p s a k off
  dsimp only
  intro harr hok hty
  refine ⟨fun hf => ?_, fun hf => ⟨fun hx => ?_, fun hpay hx => ?_, fun hpay hx hoff => ?_, fun hlen harg hx hoff => ?_⟩⟩
  · obtain ⟨t, he, h⟩ := exec_ctrlRawAccess_fused harr hok hty hf
    exact ⟨t, he, by simp [h.frame.mem], by simp [h.frame.ctl], fun hpos => h.answered (by simpa using hpos)⟩
  · obtain ⟨t, he, h⟩ := exec_ctrlRawAccess_nowhere harr hok hty hf hx
    exact ⟨t, he, by simp [h.frame.mem], by simp [h.frame.ctl], fun hpos => h.answered (by simpa using hpos)⟩
  · obtain ⟨t, he, h⟩ := exec_ctrlRawAccess_bytes harr hok hty hf hx hpay
    have hmem : t.mem = writeMem s.mem a p.payload := h.frame.mem
    exact ⟨t, he, bytesBecome_of_mem hmem, by simp [h.frame.ctl], by simp [h.frame.tiles],
      fun hpos => h.answered (by simpa using hpos)⟩
  · obtain ⟨t, he, h⟩ := exec_ctrlRawAccess_flagWrite harr hok hty hf hx hpay hoff
    refine ⟨t, he, by rw [h.frame.mem]; simp, by rw [h.frame.ctl]; simp, fun hpos => h.answered (by rw [hpos]; simp), fun f => ?_⟩
    rw [h.frame.core, flag_flagWrite, ctrlBegin_flag]
  · obtain ⟨t, he, h⟩ := exec_ctrlRawAccess_flagRead harr hok hty hf hx hlen harg hoff
    refine ⟨t, he, by simp [h.frame.mem], by simp [h.frame.ctl], fun hpos => ?_⟩
    obtain ⟨r, hr, ha⟩ := h.has (by simpa using hpos)
    refine ⟨r, hr, ha.type_eq, ha.txid_eq, ?_⟩
    rw [ha.payload_eq, leNat_rawLoad_flags _ _ _ hoff, ctrlBegin_flag]

end Sys2Proof.Machine
end

