-- ==== Sys2Proof/Proofs/Keeps.lean ====
section
/-! PROOFS. What the operations that stop cores and parts, raise records and write the journal leave as it is: both memories, the
resets in progress, the tick, and the registers that a predicate names. -/

namespace Sys2Proof.Machine

/-- Both memories, the resets in progress, the tick and the registers that `P` names are as they were. -/
structure State.Keeps (P : Nat → Prop) (s t : State) : Prop where
  mem : t.mem = s.mem
  tiles : t.tiles = s.tiles
  resets : t.resets = s.resets
  tick : t.tick = s.tick
  rd : ∀ a, P a → t.rd a = s.rd a

namespace State.Keeps

variable {P : Nat → Prop} {s t u : State}

theorem refl (s : State) : s.Keeps P s := ⟨rfl, rfl, rfl, rfl, fun _ _ => rfl⟩

theorem trans (h : s.Keeps P t) (h' : t.Keeps P u) : s.Keeps P u :=
  ⟨h'.mem.trans h.mem, h'.tiles.trans h.tiles, h'.resets.trans h.resets, h'.tick.trans h.tick,
    fun a ha => (h'.rd a ha).trans (h.rd a ha)⟩

theorem ite {c : Prop} [Decidable c] (h : s.Keeps P t) (h' : s.Keeps P u) : s.Keeps P (if c then t else u) := by
  split <;> assumption

theorem foldl {α : Type} (f : State → α → State) (l : List α) (hf : ∀ t, ∀ x ∈ l, State.Keeps P t (f t x)) : s.Keeps P (l.foldl f s) := by
  induction l generalizing s with
  | nil => exact .refl s
  | cons x l ih =>
    exact (hf s x List.mem_cons_self).trans (ih fun t y hy => hf t y (List.mem_cons_of_mem _ hy))

theorem wr (h : s.Keeps P t) {a : Nat} (ha : ¬ P a) (v : Word) : s.Keeps P (t.wr a v) :=
  h.trans ⟨rfl, rfl, rfl, rfl, fun _ hb => State.rd_wr_ne t v fun he => ha (he ▸ hb)⟩

theorem setFld (h : s.Keeps P t) {a : Nat} (ha : ¬ P a) (lo w x : Nat) : s.Keeps P (t.setFld a lo w x) := h.wr ha _

theorem modCore (h : s.Keeps P t) (k : Nat) (f : Core → Core) : s.Keeps P (t.modCore k f) :=
  h.trans ⟨rfl, rfl, rfl, rfl, fun _ _ => rfl⟩

theorem modPart (h : s.Keeps P t) (p : Nat) (f : Part → Part) : s.Keeps P (t.modPart p f) :=
  h.trans ⟨rfl, rfl, rfl, rfl, fun _ _ => rfl⟩

theorem modPport (h : s.Keeps P t) (b : Nat) (f : PPort → PPort) : s.Keeps P (t.modPport b f) :=
  h.trans ⟨rfl, rfl, rfl, rfl, fun _ _ => rfl⟩

/-! ## Parts and records -/

/-- The partitions' context and journal registers lie below 0x4000. -/
theorem not_ctx (hP : ∀ a, P a → 0x4000 ≤ a) {p : Nat} (hp : p < 64) : ¬ P (aCtx p 8) := fun h => by
  have := hP _ h
  simp only [aCtx] at this
  omega

theorem not_jnl (hP : ∀ a, P a → 0x4000 ≤ a) {p : Nat} (hp : p < 64) (k : Nat) (hk : k < 0x40) : ¬ P (aJnl p k) := fun h => by
  have := hP _ h
  simp only [aJnl] at this
  omega

theorem stopPart (hP : ∀ a, P a → 0x4000 ≤ a) (h : s.Keeps P t) {p : Nat} (hp : p < 64) : s.Keeps P (t.stopPart p) := by
  refine h.trans ?_
  have hctx := not_ctx hP hp
  have hstop : t.Keeps P ((t.started p).foldl State.cmpStop t) := .foldl _ _ fun x k _ => (refl x).modCore k _
  unfold State.stopPart
  dsimp only
  exact .ite (.setFld (.ite (.setFld (hstop.modPart p _) hctx _ _ _) (hstop.modPart p _)) hctx _ _ _) (.refl t)

theorem timingLost (hP : ∀ a, P a → 0x4000 ≤ a) (h : s.Keeps P t) (p : Nat) : s.Keeps P (t.timingLost p) := by
  unfold State.timingLost
  split
  · next hp => exact h.setFld (not_jnl hP hp 0 (by norm_num)) _ _ _
  · exact h

theorem raise (hP : ∀ a, P a → 0x4000 ≤ a) (h : s.Keeps P t) (r : ErrRec) : s.Keeps P (t.raise r) := by
  refine h.trans ?_
  have hcount : t.Keeps P (if r.rkind = 0xFF then t else { t with windows := countEvent t.windows (windowKey r.rkind r.res) }) :=
    .ite (.refl t) ⟨rfl, rfl, rfl, rfl, fun _ _ => rfl⟩
  have hpend : ∀ l, t.Keeps P { (if r.rkind = 0xFF then t else { t with windows := countEvent t.windows (windowKey r.rkind r.res) }) with
      errPend := l } := fun l => hcount.trans ⟨rfl, rfl, rfl, rfl, fun _ _ => rfl⟩
  unfold State.raise
  dsimp only
  split
  · next hp => exact ((hpend _).timingLost hP _).stopPart hP hp.2
  · exact (hpend _).timingLost hP _

theorem raiseOpen (hP : ∀ a, P a → 0x4000 ≤ a) (h : s.Keeps P t) (r : ErrRec) : s.Keeps P (t.raiseOpen r) :=
  (h.trans (u := { t with free := t.free + 1 }) ⟨rfl, rfl, rfl, rfl, fun _ _ => rfl⟩).raise hP _

/-! ## The journal (R321 to R324) -/

theorem replayNote (hP : ∀ a, P a → 0x4000 ≤ a) (h : s.Keeps P t) {p : Nat} (hp : p < 64) (e : JnlEntry) :
    s.Keeps P (t.replayNote p e) := by
  unfold State.replayNote
  split
  · exact .ite (h.wr (not_jnl hP hp _ (by norm_num)) _) ((h.setFld (not_jnl hP hp _ (by norm_num)) _ _ _).raiseOpen hP _)
  · exact h

theorem deviceWrite (h : s.Keeps P t) (p win off : Nat) (bytes : List Byte) : s.Keeps P (t.deviceWrite p win off bytes) := by
  unfold State.deviceWrite
  split
  · exact h.modPport _ _
  · exact h

theorem jnlAppend (hP : ∀ a, P a → 0x4000 ≤ a) (h : s.Keeps P t) {p : Nat} (hp : p < 64) (e : JnlEntry) :
    s.Keeps P (t.jnlAppend p e) := by
  have hjnl := not_jnl hP hp
  unfold State.jnlAppend
  dsimp only
  exact .ite h (((h.trans (.ite (.setFld (.refl t) (hjnl 0 (by norm_num)) _ _ _) (.refl t))).wr (hjnl 0x10 (by norm_num)) _).deviceWrite
    _ _ _ _)

theorem journal (hP : ∀ a, P a → 0x4000 ≤ a) (h : s.Keeps P t) {p : Nat} (hp : p < 64) (kind : Nat) (dig : Bool) (source data : Nat) :
    s.Keeps P (t.journal p kind dig source data) := by
  unfold State.journal
  exact .jnlAppend hP (.ite (h.modPart p _) (h.replayNote hP hp _)) hp _

end State.Keeps

end Sys2Proof.Machine
end

