-- ==== Sys2Proof/Proofs/CoreWindow.lean ====
section
/-! PROOFS. The registers of a core's window (R11, R88, R180, R385). -/

namespace Sys2Proof.Machine

/-! ## Where they lie -/

theorem keyDie_kOf (c : CoreId) : keyDie (kOf c) = c.die.val := by simp only [keyDie, kOf]; omega
theorem keyFlat_kOf (c : CoreId) : keyFlat (kOf c) = c.flat.val := by simp only [keyFlat, kOf]; omega

theorem aCoreK_eq (k o : Nat) : aCoreK k o = 0x1020000 + keyDie k * 0x100000 + keyFlat k * 0x2000 + o := by
  simp only [aCoreK, aCoreAt, folioBase]; omega

theorem keyFlat_lt (k : Nat) : keyFlat k < 72 := Nat.mod_lt _ (by norm_num)

theorem aCoreK_inj {k o o' : Nat} : aCoreK k o = aCoreK k o' ↔ o = o' := by simp only [aCoreK_eq]; omega

theorem aCoreK_folio (c : CoreId) {o : Nat} (ho : o < 0x2000) :
    0x1000000 ≤ aCoreK (kOf c) o ∧ aCoreK (kOf c) o < 0x5000000 ∧ aCoreK (kOf c) o % 0x100000 < 0xB0000 ∧
      0x20000 ≤ aCoreK (kOf c) o % 0x100000 := by
  have hd := c.die.isLt
  have hf := c.flat.isLt
  rw [aCoreK_eq, keyDie_kOf, keyFlat_kOf]
  omega

/-- R385: an accessor's name of a folio's register leads to it, and to no BAR2. -/
theorem nameOff_folio (who : Accessor) {a : Nat} (h : 0x1000000 ≤ a) (h' : a < 0x5000000) (hw : a % 0x100000 < 0xB0000) :
    let off := (BitVec.ofNat 32 (nameOff who a)).toNat
    ctlOff who off = some a ∧ bar2Owner off who = none ∧ off % 8 = a % 8 := by
  have hid : (BitVec.ofNat 32 a).toNat = a := by simp only [BitVec.toNat_ofNat]; omega
  cases who with
  | colophon => exact ⟨congrArg some hid, rfl, congrArg (· % 8) hid⟩
  | fabric => exact ⟨congrArg some hid, rfl, congrArg (· % 8) hid⟩
  | func b f =>
    obtain ⟨x, hx⟩ : ∃ x, x = 0x1000000 + (a - 0x1000000) / 0x100000 * 0xC0000 + (a - 0x1000000) % 0x100000 := ⟨_, rfl⟩
    have hname : (BitVec.ofNat 32 (nameOff (.func b f) a)).toNat = x := by
      simp only [nameOff, BitVec.toNat_ofNat, if_neg (show ¬ a < 0x1000000 by omega), ← hx]
      omega
    have hbar : bar0 x = some a := by
      unfold bar0
      rw [if_neg (by omega), if_pos (by omega), Option.some.injEq]
      omega
    simp only [hname, ctlOff, bar2Owner, aBar2, hbar]
    rw [if_pos (by omega), if_neg (by omega)]
    exact ⟨rfl, rfl, by omega⟩

/-- R11: an aligned write that the accessor's view admits reaches the register. -/
theorem exec_registerWrite_core {who : Accessor} {c : CoreId} {o : Nat} {s : State} (ho : o < 0x2000) (h8 : o % 8 = 0)
    (hpow : s.powered = true) (hmay : s.mayAccess who (aCoreK (kOf c) o) true = true) (size8 : Bool) (v : Word) :
    exec (.registerWrite who (BitVec.ofNat 32 (nameOff who (aCoreK (kOf c) o))) size8 v) s =
      .next (s.hostRegWrite who (aCoreK (kOf c) o) size8 v) := by
  obtain ⟨hlo, hhi, hw, -⟩ := aCoreK_folio c ho
  obtain ⟨hctl, hbar, hmod⟩ := nameOff_folio who hlo hhi hw
  have hmul : aCoreK (kOf c) o % 8 = 0 := by rw [aCoreK_eq]; omega
  have halign : ∀ x : Nat, x % 8 = 0 → alignedAccess x size8 = true := fun x hx => by
    simp only [alignedAccess]; split <;> simp <;> omega
  have hexec : ∀ off, exec (.registerWrite who off size8 v) s = execRegisterWrite who off size8 v s := fun _ => rfl
  have ha : aCoreK (kOf c) o / 8 * 8 = aCoreK (kOf c) o := by omega
  rw [hexec, execRegisterWrite]
  simp only [hpow, halign _ (hmod.trans hmul), hctl, hbar, ha, hmay, Bool.not_true, Bool.or_self, Bool.false_eq_true, if_false, if_true]

/-- A write at an offset of a core's window. -/
theorem regWrite_aCoreK (s : State) (who : Accessor) (c : CoreId) {o : Nat} (ho : o < 0x2000) (v m : Word) :
    s.regWrite who (aCoreK (kOf c) o) v m = s.coreWin (kOf c) o v m := by
  obtain ⟨hlo, hhi, hw, hw'⟩ := aCoreK_folio c ho
  have hk : (aCoreK (kOf c) o - folioBase 0) / 0x100000 * 72 + (aCoreK (kOf c) o % 0x100000 - 0x20000) / 0x2000 = kOf c := by
    have hd := c.die.isLt
    have hf := c.flat.isLt
    rw [aCoreK_eq, keyDie_kOf, keyFlat_kOf, folioBase, kOf]
    omega
  have ho' : aCoreK (kOf c) o % 0x100000 % 0x2000 = o := by rw [aCoreK_eq]; omega
  unfold State.regWrite
  dsimp only
  rw [if_neg (by omega), if_neg (by omega), if_pos (show folioBase 0 ≤ _ ∧ _ < folioBase 64 from ⟨hlo, hhi⟩),
    if_neg (by omega), if_neg (by omega),
    if_pos (by omega), hk, ho']

theorem regFlds_aCoreK (c : CoreId) {o : Nat} (ho : o < 0x2000) : regFlds (aCoreK (kOf c) o) = rowFlds coreRows o := by
  obtain ⟨hlo, hhi, hw, hw'⟩ := aCoreK_folio c ho
  have ho' : aCoreK (kOf c) o % 0x100000 % 0x2000 = o := by rw [aCoreK_eq]; omega
  unfold regFlds
  dsimp only
  rw [if_neg (by omega), if_neg (by omega), if_neg (by omega), if_pos (by omega), if_neg (by omega), if_neg (by omega),
    if_neg (by omega), if_pos (by omega), ho']

/-! ## Byte lanes -/

/-- The byte lanes of an access at a multiple of 8. -/
def lanesOf (size8 : Bool) : Word := if size8 then BitVec.allOnes 64 else 0xFFFFFFFF

theorem laneMask_aligned {a : Nat} (h : a % 8 = 0) (size8 : Bool) : laneMask a size8 = lanesOf size8 := by
  cases size8
  · simp [laneMask, lanesOf, h, maskF]
  · simp only [laneMask, lanesOf, if_true]; decide

theorem laneValue_and_lanes {a : Nat} (h : a % 8 = 0) (size8 : Bool) (v : Word) :
    laneValue a size8 v &&& lanesOf size8 = v &&& lanesOf size8 := by
  cases size8
  · simp [laneValue, lanesOf, h, maskF, BitVec.and_assoc]
  · simp [laneValue]

/-- What an aligned write leaves in a register, with the value as the accessor gave it. -/
theorem writeFlds_aligned {a : Nat} (h : a % 8 = 0) (size8 : Bool) (fl : List Fld) (old v : Word) :
    writeFlds fl old (laneValue a size8 v) (laneMask a size8) = writeFlds fl old v (lanesOf size8) := by
  have hl : ∀ x : Word, laneValue a size8 v &&& (x &&& lanesOf size8) = v &&& (x &&& lanesOf size8) := fun x => by
    rw [BitVec.and_comm x, ← BitVec.and_assoc, laneValue_and_lanes h, BitVec.and_assoc]
  simp only [writeFlds, laneMask_aligned h, hl, BitVec.and_comm _ (laneValue a size8 v), BitVec.and_comm _ v]

/-- A register whose one field is RW, the field within every lane. -/
theorem writeFlds_rw {fl : List Fld} {f m : Word} (hrw : accMask .rw fl = f) (hc : accMask .w1c fl = 0) (hs : accMask .w1s fl = 0)
    (old v : Word) : writeFlds fl old v m = (old &&& ~~~(f &&& m)) ||| (v &&& (f &&& m)) := by
  simp only [writeFlds, hrw, hc, hs, BitVec.ofNat_eq_ofNat, BitVec.zero_and, BitVec.not_zero, BitVec.and_allOnes, BitVec.or_zero]

/-- A register whose one field is W1C. -/
theorem writeFlds_w1c {fl : List Fld} {f m : Word} (hrw : accMask .rw fl = 0) (hc : accMask .w1c fl = f) (hs : accMask .w1s fl = 0)
    (old v : Word) : writeFlds fl old v m = old &&& ~~~(v &&& (f &&& m)) := by
  simp only [writeFlds, hrw, hc, hs, BitVec.ofNat_eq_ofNat, BitVec.zero_and, BitVec.not_zero, BitVec.and_allOnes,
    BitVec.or_zero, BitVec.and_comm v]

theorem lanesOf_low {f : Word} (h : f &&& 0xFFFFFFFF = f) (size8 : Bool) : f &&& lanesOf size8 = f := by
  cases size8
  · exact h
  · exact BitVec.and_allOnes

end Sys2Proof.Machine
end

