-- ==== Sys2Proof/Proofs/CoreRegisters.lean ====
section
/-! PROOFS. Writes of a core's registers by an accessor (R11, R47, R142, R211, R321, R324, R385). -/

namespace Sys2Proof.Machine

/-! ## `REGISTER_WRITE` (R11, R385) -/

theorem exec_registerWrite (who : Accessor) (off : BitVec 32) (size8 : Bool) (v : Word) (s : State) :
    exec (.registerWrite who off size8 v) s = execRegisterWrite who off size8 v s := rfl

theorem exec_registerWrite_misaligned (who : Accessor) {off : BitVec 32} {size8 : Bool} (v : Word) (s : State)
    (h : off.toNat % (if size8 then 8 else 4) ≠ 0) : exec (.registerWrite who off size8 v) s = .next s := by
  have halign : alignedAccess off.toNat size8 = false := by
    cases size8 <;> simpa [alignedAccess] using h
  rw [exec_registerWrite, execRegisterWrite]
  simp only [halign, Bool.not_false, Bool.or_true, if_true]

/-- R387: the accessor's view does not admit the place, or it is a gap. -/
theorem exec_registerWrite_refused {who : Accessor} {off : BitVec 32} (size8 : Bool) (v : Word) {s : State}
    (hbar : bar2Owner off.toNat who = none) (h : ∀ a, ctlOff who off.toNat = some a → s.mayAccess who (a / 8 * 8) true = false) :
    exec (.registerWrite who off size8 v) s = .next s := by
  rw [exec_registerWrite, execRegisterWrite]
  rw [hbar]
  cases hctl : ctlOff who off.toNat with
  | none => simp
  | some a => simp [h a hctl]

/-! ## The host's side of a write, at a register's own offset -/

theorem aligned_eq {a : Nat} (h : a % 8 = 0) : a / 8 * 8 = a := by omega

theorem aCoreK_mul {k o : Nat} (h : o % 8 = 0) : aCoreK k o % 8 = 0 := by rw [aCoreK_eq]; omega

section
variable {s : State} {who : Accessor} {a : Nat} (ha : a / 8 * 8 = a) {size8 : Bool} {v : Word}
include ha

theorem hostRegDone_none (hin : s.hostInput who a = none) :
    s.hostRegDone who a size8 v = s.regWrite who a (laneValue a size8 v) (laneMask a size8) := by
  rw [State.hostRegDone, ha, hin]

theorem hostRegDone_some {p j : Nat} (hin : s.hostInput who a = some (p, j)) :
    s.hostRegDone who a size8 v = (s.journalWrite p j a (if size8 then 8 else 4) v (laneValue a size8 v) (laneMask a size8)).regWrite
      who a (laneValue a size8 v) (laneMask a size8) := by
  rw [State.hostRegDone, ha, hin]

theorem hostRegWrite_none (hin : s.hostInput who a = none) : s.hostRegWrite who a size8 v = s.hostRegDone who a size8 v := by
  rw [State.hostRegWrite, ha, hin]

theorem hostRegWrite_some {p j : Nat} (hin : s.hostInput who a = some (p, j)) :
    s.hostRegWrite who a size8 v = if s.mustWait p then s.holdBack p (.reg who a size8 v) else s.hostRegDone who a size8 v := by
  rw [State.hostRegWrite, ha, hin]

end

/-! ## Registers that only hold fields -/

/-- The registers of a core's window that only hold their fields. -/
def coreField (o : Nat) : Prop := o = 0x180 ∨ o = 0x2C0 ∨ ∃ i, i < 64 ∧ o = 0xA00 + 8 * i

theorem coreField_lt {o : Nat} (h : coreField o) : o < 0x2000 ∧ o % 8 = 0 := by
  obtain rfl | rfl | ⟨i, hi, rfl⟩ := h <;> omega

theorem coreWin_coreField (s : State) (k : Nat) {o : Nat} (h : coreField o) (v m : Word) :
    s.coreWin k o v m = s.plainWrite (aCoreK k o) v m := by
  unfold State.coreWin
  dsimp only
  obtain rfl | rfl | ⟨i, hi, rfl⟩ := h
  · rfl
  · rfl
  · rw [if_neg (by omega), if_neg (by omega), if_neg (by omega), if_neg (by omega), if_neg (by omega), if_neg (by omega),
      if_neg (by omega)]

/-- What an aligned write of `v` leaves in such a register. -/
def coreFieldValue (o : Nat) (old v : Word) (size8 : Bool) : Word := writeFlds (rowFlds coreRows o) old v (lanesOf size8)

theorem regWrite_coreField (s : State) (who : Accessor) (c : CoreId) {o : Nat} (h : coreField o) (size8 : Bool) (v : Word) :
    s.regWrite who (aCoreK (kOf c) o) (laneValue (aCoreK (kOf c) o) size8 v) (laneMask (aCoreK (kOf c) o) size8) =
      s.wr (aCoreK (kOf c) o) (coreFieldValue o (s.rd (aCoreK (kOf c) o)) v size8) := by
  obtain ⟨hlt, hmul⟩ := coreField_lt h
  rw [regWrite_aCoreK _ _ _ hlt, coreWin_coreField _ _ h, State.plainWrite, writeFlds_aligned (aCoreK_mul hmul), regFlds_aCoreK _ hlt,
    coreFieldValue]

theorem hostRegDone_coreField {s : State} {who : Accessor} {c : CoreId} {o : Nat} (h : coreField o)
    (hin : s.hostInput who (aCoreK (kOf c) o) = none) (size8 : Bool) (v : Word) :
    s.hostRegDone who (aCoreK (kOf c) o) size8 v =
      s.wr (aCoreK (kOf c) o) (coreFieldValue o (s.rd (aCoreK (kOf c) o)) v size8) := by
  rw [hostRegDone_none (aligned_eq (aCoreK_mul (coreField_lt h).2)) hin, regWrite_coreField _ _ _ h]

/-- R321: the partition of an input is one of the package's. -/
theorem hostInput_part_lt {s : State} {who : Accessor} {a p j : Nat} (h : s.hostInput who a = some (p, j)) : p < 64 := by
  unfold State.hostInput at h
  split at h
  · split at h
    · next hc => simp only [Option.some.injEq, Prod.mk.injEq] at h; omega
    · cases h
  · cases h

/-- R321: the journal's entry of a host's write leaves the memories and the folios' registers. -/
theorem journalWrite_keeps (s : State) {p : Nat} (hp : p < 64) (j a n : Nat) (v x m : Word) :
    s.Keeps (0x1000000 ≤ ·) (s.journalWrite p j a n v x m) := by
  have hfol : ∀ a : Nat, 0x1000000 ≤ a → 0x4000 ≤ a := fun a h => by omega
  unfold State.journalWrite
  exact .ite (.journal hfol (.refl s) hp _ _ _ _) (.journal hfol (.refl s) hp _ _ _ _)

/-- R321: the same effect on the register, after a journal entry, which leaves the memories as they are. -/
theorem hostRegDone_coreField_input {s : State} {who : Accessor} {c : CoreId} {o p j : Nat} (h : coreField o)
    (hin : s.hostInput who (aCoreK (kOf c) o) = some (p, j)) (size8 : Bool) (v : Word) :
    ∃ t, s.Keeps (0x1000000 ≤ ·) t ∧ s.hostRegDone who (aCoreK (kOf c) o) size8 v =
      t.wr (aCoreK (kOf c) o) (coreFieldValue o (s.rd (aCoreK (kOf c) o)) v size8) := by
  have hkeeps := journalWrite_keeps s (hostInput_part_lt hin) j (aCoreK (kOf c) o) (if size8 then 8 else 4) v
    (laneValue (aCoreK (kOf c) o) size8 v) (laneMask (aCoreK (kOf c) o) size8)
  refine ⟨_, hkeeps, ?_⟩
  rw [hostRegDone_some (aligned_eq (aCoreK_mul (coreField_lt h).2)) hin, regWrite_coreField _ _ _ h,
    hkeeps.rd _ (aCoreK_folio c (coreField_lt h).1).1]

/-- R11, R321, R324: a write of such a register by an accessor that may reach it, with what it leaves there. -/
theorem exec_registerWrite_coreField {who : Accessor} {c : CoreId} {o : Nat} {s : State} {size8 : Bool} {v w : Word}
    (hpow : s.powered = true) (h : coreField o) (hw : coreFieldValue o (s.rd (aCoreK (kOf c) o)) v size8 = w)
    (hmay : s.mayAccess who (aCoreK (kOf c) o) true = true) :
    let i := Instr.registerWrite who (BitVec.ofNat 32 (nameOff who (aCoreK (kOf c) o))) size8 v
    (s.hostInput who (aCoreK (kOf c) o) = none →
      ∃ t, exec i s = .next t ∧ t = { s with ctl := t.ctl } ∧ ∀ a, t.rd a = if a = aCoreK (kOf c) o then w else s.rd a) ∧
    (∀ p j, s.hostInput who (aCoreK (kOf c) o) = some (p, j) →
      (s.mustWait p = false → ∃ t, exec i s = .next t ∧ t.rd (aCoreK (kOf c) o) = w ∧ t.mem = s.mem ∧ t.tiles = s.tiles) ∧
      (s.mustWait p = true → ∃ t, exec i s = .next t ∧ t = { s with parts := t.parts } ∧
        (t.part p).held = (s.part p).held ++ [.reg who (aCoreK (kOf c) o) size8 v])) := by
  obtain ⟨hlt, hmul⟩ := coreField_lt h
  have ha := aligned_eq (aCoreK_mul (k := kOf c) hmul)
  have hex := exec_registerWrite_core hlt hmul hpow hmay size8 v
  refine ⟨fun hin => ?_, fun p j hin => ⟨fun hwait => ?_, fun hwait => ?_⟩⟩
  · rw [hostRegWrite_none ha hin, hostRegDone_coreField h hin, hw] at hex
    exact ⟨_, hex, rfl, fun a => by rw [State.rd, State.wr, Tbl.get_set]; rfl⟩
  · rw [hostRegWrite_some ha hin, hwait, if_neg Bool.false_ne_true] at hex
    obtain ⟨t, hkeeps, ht⟩ := hostRegDone_coreField_input h hin size8 v
    rw [ht, hw] at hex
    exact ⟨_, hex, State.rd_wr .., hkeeps.mem, hkeeps.tiles⟩
  · rw [hostRegWrite_some ha hin, hwait, if_pos rfl] at hex
    exact ⟨_, hex, rfl, by rw [State.holdBack, State.part_modPart]⟩

theorem coreRows_raccDest : ∀ i, i < 64 → rowFlds coreRows (0xA00 + 8 * i) = fs .rw .core [(0, 20)] := by decide

theorem coreFieldValue_raccDest {i : Nat} (hi : i < 64) (old v : Word) (size8 : Bool) :
    coreFieldValue (0xA00 + 8 * i) old v size8 = (old &&& ~~~0xFFFFF) ||| (v &&& 0xFFFFF) := by
  rw [coreFieldValue, coreRows_raccDest i hi, writeFlds_rw (f := 0xFFFFF) (by decide) (by decide) (by decide),
    lanesOf_low (by decide)]

theorem coreFieldValue_numeric (old v : Word) (size8 : Bool) : coreFieldValue 0x180 old v size8 = old &&& ~~~(v &&& 0x3FFFF) := by
  rw [coreFieldValue, writeFlds_w1c (f := 0x3FFFF) (by decide) (by decide) (by decide), lanesOf_low (by decide)]

theorem coreFieldValue_seed (old v : Word) (size8 : Bool) :
    coreFieldValue 0x2C0 old v size8 = (old &&& ~~~lanesOf size8) ||| (v &&& lanesOf size8) := by
  rw [coreFieldValue, writeFlds_rw (f := BitVec.allOnes 64) (by decide) (by decide) (by decide), BitVec.allOnes_and]

/-! ## Scalar registers (R180) -/

/-- R180: a scalar register of a halted compositor takes the whole word. -/
theorem exec_registerWrite_sreg {who : Accessor} {c : CoreId} {n : Nat} {s : State} (hpow : s.powered = true) (h0 : 0 < n) (hn : n < 32)
    (hrun : (s.core (kOf c)).run = false) (hmay : s.mayAccess who (aCoreK (kOf c) (0x600 + 8 * n)) true = true)
    (hin : s.hostInput who (aCoreK (kOf c) (0x600 + 8 * n)) = none) (v : Word) :
    exec (.registerWrite who (BitVec.ofNat 32 (nameOff who (aCoreK (kOf c) (0x600 + 8 * n)))) true v) s =
      .next (s.modCore (kOf c) fun x => { x with sreg := Tbl.set 0 x.sreg n v }) := by
  have hmul : aCoreK (kOf c) (0x600 + 8 * n) % 8 = 0 := aCoreK_mul (by omega)
  have hwhole : ∀ a x, s.wholeWord a x (BitVec.allOnes 64) = x := fun a x => by
    rw [State.wholeWord, BitVec.not_allOnes, BitVec.and_allOnes]; simp only [BitVec.and_zero, BitVec.zero_or]
  have hwin : s.coreWin (kOf c) (0x600 + 8 * n) v (BitVec.allOnes 64) = s.sregWrite (kOf c) n v := by
    unfold State.coreWin
    dsimp only
    rw [if_neg (by omega), if_neg (by omega), if_neg (by omega), if_neg (by omega), if_neg (by omega), if_neg (by omega),
      if_pos (by omega), hwhole, show (0x600 + 8 * n - 0x600) / 8 = n by omega]
  have hval : laneValue (aCoreK (kOf c) (0x600 + 8 * n)) true v = v := if_pos rfl
  rw [exec_registerWrite_core (by omega) (by omega) hpow hmay, hostRegWrite_none (aligned_eq hmul) hin,
    hostRegDone_none (aligned_eq hmul) hin, laneMask_aligned hmul, hval, regWrite_aCoreK _ _ _ (by omega), lanesOf, if_pos rfl,
    hwin, State.sregWrite, if_neg (by simp [hrun]; omega)]

end Sys2Proof.Machine
end

