-- ==== Sys2Proof/Proofs/HandlesAndPools.lean ====
section
/-! PROOFS. The handle window and the pools' entries (R68, R88, R222, R223), and what O30 says of a core's registers. -/

namespace Sys2Proof.Machine

/-! ## The handle window (R68, R88) -/

theorem getF_one (v : Word) (i : Nat) : getF v i 1 = if v.getLsbD i = true then 1 else 0 := by
  rw [getF, bits_eq, BitVec.getLsbD, Nat.testBit_eq_decide_div_mod_eq]
  split <;> simp_all

theorem getF_one_eq (v : Word) (i : Nat) : getF v i 1 = 1 ↔ v.getLsbD i = true := by
  rw [getF_one]
  split <;> simp_all

theorem aHandleWord_ne_sel (k n : Nat) : aHandleWord k n ≠ aHandleSel k := by
  rw [aHandleWord, aHandleSel, ne_eq, aCoreK_inj]; omega

theorem aHandleWord_inj {k n m : Nat} : aHandleWord k n = aHandleWord k m ↔ n = m := by
  rw [aHandleWord, aHandleWord, aCoreK_inj]; omega

theorem exec_handleSelLoad {c : CoreId} {v : Word} {s : State} (hpow : s.powered = true) (h8 : v.getLsbD 8 = true) :
    exec (.handleSelLoad c v) s = .next (s.handleSel (kOf c) v) := by
  have h : exec (.handleSelLoad c v) s = execHandleSelLoad c v s := rfl
  rw [h, execHandleSelLoad, hpow, getF_one, h8]
  rfl

theorem exec_handleSelInstall {c : CoreId} {v : Word} {s : State} (hpow : s.powered = true) (h9 : v.getLsbD 9 = true) :
    exec (.handleSelInstall c v) s = .next (s.handleSel (kOf c) v) := by
  have h : exec (.handleSelInstall c v) s = execHandleSelInstall c v s := rfl
  rw [h, execHandleSelInstall, hpow, getF_one, h9]
  rfl

/-- The window with INDEX taken. -/
def State.selIndex (s : State) (k : Nat) (v : Word) : State := s.setFld (aHandleSel k) 0 8 (getF v 0 8)

theorem handleSel_load {s : State} {k : Nat} {v : Word} (h8 : v.getLsbD 8 = true) (h9 : v.getLsbD 9 = false) :
    s.handleSel k v = (s.selIndex k v).selLoad k (getF v 0 8) := by
  have e8 : getF v 8 1 = 1 := by rw [getF_one, h8, if_pos rfl]
  have e9 : getF v 9 1 = 0 := by rw [getF_one, h9, if_neg Bool.false_ne_true]
  rw [State.handleSel, e8, e9]
  rfl

theorem handleSel_install {s : State} {k : Nat} {v : Word} (h8 : v.getLsbD 8 = false) (h9 : v.getLsbD 9 = true) :
    s.handleSel k v = (s.selIndex k v).selInstall k (getF v 0 8) := by
  have e8 : getF v 8 1 = 0 := by rw [getF_one, h8, if_neg Bool.false_ne_true]
  have e9 : getF v 9 1 = 1 := by rw [getF_one, h9, if_pos rfl]
  rw [State.handleSel, e8, e9]
  rfl

theorem handleSel_both {s : State} {k : Nat} {v : Word} (h8 : v.getLsbD 8 = true) (h9 : v.getLsbD 9 = true) :
    s.handleSel k v = s := by
  have e8 : getF v 8 1 = 1 := by rw [getF_one, h8, if_pos rfl]
  have e9 : getF v 9 1 = 1 := by rw [getF_one, h9, if_pos rfl]
  rw [State.handleSel, e8, e9]
  rfl

/-- LOAD writes the four words alone. -/
theorem selLoad_eq (s : State) (k h : Nat) :
    s.selLoad k h = (((s.wr (aHandleWord k 0) (BitVec.ofNat 64 (getW ((s.core k).handle h) 0 64))).wr (aHandleWord k 1)
      (BitVec.ofNat 64 (getW ((s.core k).handle h) 64 64))).wr (aHandleWord k 2)
      (BitVec.ofNat 64 (getW ((s.core k).handle h) 128 64))).wr (aHandleWord k 3)
      (BitVec.ofNat 64 (getW ((s.core k).handle h) 192 64)) := rfl

/-- LOAD of a write with INDEX leaves the cores and the memories. -/
theorem selLoad_frame (s : State) (k : Nat) (v : Word) (h : Nat) :
    ((s.selIndex k v).selLoad k h).cores = s.cores ∧ ((s.selIndex k v).selLoad k h).mem = s.mem := by
  rw [selLoad_eq]
  simp only [State.wr_cores, State.wr_mem, State.selIndex, State.setFld_cores, State.setFld_mem, and_self]

theorem ofNat_getW (h : Wide) (lo : Nat) : BitVec.ofNat 64 (getW h lo 64) = BitVec.ofNat 64 (h.toNat / 2 ^ lo) := by
  apply BitVec.eq_of_toNat_eq
  rw [getW, bits_eq, BitVec.toNat_ofNat, BitVec.toNat_ofNat, Nat.mod_mod]

/-- R88: word `n` of the window after LOAD. -/
theorem rd_selLoad (s : State) (k h : Nat) {n : Nat} (hn : n < 4) :
    (s.selLoad k h).rd (aHandleWord k n) = BitVec.ofNat 64 (((s.core k).handle h).toNat / 2 ^ (64 * n)) := by
  have hne : ∀ {i j : Nat}, i ≠ j → aHandleWord k i ≠ aHandleWord k j := fun h => aHandleWord_inj.not.mpr h
  rw [selLoad_eq]
  obtain rfl | rfl | rfl | rfl : n = 0 ∨ n = 1 ∨ n = 2 ∨ n = 3 := by omega
  · rw [State.rd_wr_ne _ _ (hne (by norm_num)), State.rd_wr_ne _ _ (hne (by norm_num)), State.rd_wr_ne _ _ (hne (by norm_num)),
      State.rd_wr, ofNat_getW]
  · rw [State.rd_wr_ne _ _ (hne (by norm_num)), State.rd_wr_ne _ _ (hne (by norm_num)), State.rd_wr, ofNat_getW]
  · rw [State.rd_wr_ne _ _ (hne (by norm_num)), State.rd_wr, ofNat_getW]
  · rw [State.rd_wr, ofNat_getW]

theorem selEntry_selIndex (s : State) (k : Nat) (v : Word) : (s.selIndex k v).selEntry k = s.selEntry k := by
  have h : ∀ n, (s.selIndex k v).rd (aHandleWord k n) = s.rd (aHandleWord k n) := fun n => rd_setFld_other _ _ _ _ _ _ (aHandleWord_ne_sel k n)
  simp only [State.selEntry, h]

/-- R68: an entry that passes the checks is installed, with STATUS DONE. -/
theorem exec_handleSelInstall_done {c : CoreId} {v : Word} {s : State} (hpow : s.powered = true) (h9 : v.getLsbD 9 = true)
    (h8 : v.getLsbD 8 = false) (hbusy : s.handleBusy (kOf c) (getF v 0 8) = false)
    (hcheck : s.handleCheck (s.selEntry (kOf c)) = 0) :
    exec (.handleSelInstall c v) s = .next (((s.selIndex (kOf c) v).setFld (aHandleSel (kOf c)) 16 8 0).modCore (kOf c) fun x =>
      x.setHandle (getF v 0 8) (s.selEntry (kOf c))) := by
  have hbusy' : (s.selIndex (kOf c) v).handleBusy (kOf c) (getF v 0 8) = false := hbusy
  have hcheck' : (s.selIndex (kOf c) v).handleCheck (s.selEntry (kOf c)) = 0 := hcheck
  rw [exec_handleSelInstall hpow h9, handleSel_install h8 h9]
  simp [State.selInstall, selEntry_selIndex, hbusy', hcheck', cDONE]

/-- R68: one that does not, or that an uncompleted command names, leaves its code alone. -/
theorem exec_handleSelInstall_refused {c : CoreId} {v : Word} {s : State} {code : Nat} (hpow : s.powered = true)
    (h9 : v.getLsbD 9 = true) (h8 : v.getLsbD 8 = false) (hcode : code ≠ 0)
    (h : (if s.handleBusy (kOf c) (getF v 0 8) then cHANDLE else s.handleCheck (s.selEntry (kOf c))) = code) :
    exec (.handleSelInstall c v) s = .next ((s.selIndex (kOf c) v).setFld (aHandleSel (kOf c)) 16 8 code) := by
  have h' : (if (s.selIndex (kOf c) v).handleBusy (kOf c) (getF v 0 8) then cHANDLE
      else (s.selIndex (kOf c) v).handleCheck ((s.selIndex (kOf c) v).selEntry (kOf c))) = code := by
    rw [selEntry_selIndex]; exact h
  rw [exec_handleSelInstall hpow h9, handleSel_install h8 h9, State.selInstall]
  simp only [h', show ¬ code = cDONE from hcode, if_false]

/-! ## The pools' entries (R222, R223) -/

/-- A pool's entry with the word `v` written whole to it (R222). -/
def Pool.taken (p : Pool) (v : Word) : Pool :=
  let free := p.avail = p.limit ∧ v.toNat % 2 ^ 11 ≤ 1024
  { p with
    ovr := p.ovr && !v.getLsbD 33
    limit := if free then v.toNat % 2 ^ 11 else p.limit
    avail := if free then v.toNat % 2 ^ 11 else p.avail
    held := if free then v.getLsbD 32 else p.held
    relflag := if free then v.toNat / 2 ^ 40 % 256 else p.relflag }

/-- R222: what a write of a whole entry leaves. -/
theorem pool_write_whole (p : Pool) (v : Word) : p.write v (maskF 0 64) = p.taken v := by
  have hmask : maskF 0 64 = BitVec.allOnes 64 := by decide
  have hw : (p.word &&& ~~~(BitVec.allOnes 64)) ||| (v &&& BitVec.allOnes 64) = v := by
    rw [BitVec.not_allOnes, BitVec.and_allOnes]; simp only [BitVec.and_zero, BitVec.zero_or]
  have hone : getF (BitVec.allOnes 64) 33 1 = 1 := by decide
  have hlimit : getF v 0 11 = v.toNat % 2 ^ 11 := by rw [getF, bits_eq]; simp
  have hrel : getF v 40 8 = v.toNat / 2 ^ 40 % 256 := by rw [getF, bits_eq]; norm_num
  unfold Pool.write Pool.taken
  rw [hmask]
  dsimp only
  rw [hw, hone, hlimit, hrel]
  simp only [getF_one_eq, Bool.decide_eq_true]
  by_cases hfree : p.avail = p.limit ∧ v.toNat % 2 ^ 11 ≤ 1024 <;> cases h33 : v.getLsbD 33 <;>
    simp only [hfree, and_self, and_true, if_true, if_false, Bool.false_eq_true, Bool.not_true, Bool.not_false,
      Bool.and_true, Bool.and_false]

/-- A core whose pool `n` has granted what it can. -/
def Core.pumped (c : Core) (n : Nat) : Core :=
  let p := c.pool n
  let now := p.waiting.take p.avail
  { c.setPool n { p with avail := p.avail - now.length, waiting := p.waiting.drop p.avail } with
    lent := c.lent ++ now.map fun w => ⟨n, w.1, w.2, p.epoch⟩ }

theorem core_poolPump (s : State) (k n : Nat) : (s.poolPump k n).core k = (s.core k).pumped n := Tbl.get_set_self ..

/-- R223: requests that wait are granted in their order, as AVAIL allows; nothing else of the state changes. -/
theorem poolPump_eq (s : State) (k n : Nat) :
    let p := (s.core k).pool n
    s.poolPump k n = { s with
      cores := (s.poolPump k n).cores
      creditNet := s.creditNet ++ (p.waiting.take p.avail).map fun w => .grant w.1 w.2 p.epoch 0 } := rfl

theorem core_poolPump_ne (s : State) {k j : Nat} (n : Nat) (h : j ≠ k) : (s.poolPump k n).core j = s.core j :=
  Tbl.get_set_ne _ _ _ h

theorem pool_pumped (c : Core) (n : Nat) :
    (c.pumped n).pool n = { c.pool n with avail := (c.pool n).avail - min (c.pool n).avail (c.pool n).waiting.length,
                                          waiting := (c.pool n).waiting.drop (c.pool n).avail } := by
  rw [← List.length_take]
  exact Core.pool_setPool ..

theorem sreg_pumped (c : Core) (n : Nat) : (c.pumped n).sreg = c.sreg := rfl

theorem handles_pumped (c : Core) (n : Nat) : (c.pumped n).handles = c.handles := rfl

theorem pool_pumped_ne (c : Core) {n m : Nat} (h : m ≠ n) : (c.pumped n).pool m = c.pool m := Core.pool_setPool_ne _ _ h

theorem exec_creditPoolWrite {c : CoreId} {pool : Fin 32} {v : Word} {s : State} (hpow : s.powered = true) :
    exec (.creditPoolWrite c pool v) s = .next (s.poolWrite (kOf c) pool.val v (maskF 0 64)) := by
  have h : exec (.creditPoolWrite c pool v) s = execCreditPoolWrite c pool v s := rfl
  rw [h, execCreditPoolWrite, if_pos hpow]

/-! ## The obligation -/

/-- R68: an entry of the handle table after one was set. -/
theorem handle_setHandle (c : Core) (h n : Nat) (v : Wide) : (c.setHandle h v).handle n = if n = h then v else c.handle n := by
  rw [Core.handle, Core.setHandle, Tbl.get_set]
  rfl

theorem getF_low8 (v : Word) : getF v 0 8 = v.toNat % 256 := by
  rw [getF, bits_eq]
  norm_num

/-- R222, R223: a write of a pool's entry, and the grants that follow it. -/
theorem poolWrite_spec (s : State) (k n : Nat) (v : Word) :
    let p := (s.core k).pool n
    let q := p.taken v
    let t := s.poolWrite k n v (maskF 0 64)
    t = { s with
      cores := t.cores
      creditNet := s.creditNet ++ (p.waiting.take q.avail).map fun w => .grant w.1 w.2 p.epoch 0 } ∧
    (∀ j, j ≠ k → t.core j = s.core j) ∧
    (t.core k).pool n = { q with avail := q.avail - min q.avail p.waiting.length, waiting := p.waiting.drop q.avail } ∧
    (∀ m, m ≠ n → (t.core k).pool m = (s.core k).pool m) ∧ (t.core k).sreg = (s.core k).sreg ∧
    (t.core k).handles = (s.core k).handles := by
  intro p q t
  obtain ⟨u, hu⟩ : ∃ u, u = s.modCore k fun c => c.setPool n ((c.pool n).write v (maskF 0 64)) := ⟨_, rfl⟩
  have ht : t = u.poolPump k n := by rw [hu]; rfl
  have hcore : u.core k = (s.core k).setPool n q := by rw [hu, State.core_modCore, pool_write_whole]
  have hpool : (u.core k).pool n = q := by rw [hcore, Core.pool_setPool]
  refine ⟨?_, fun j hj => ?_, ?_, fun m hm => ?_, ?_, ?_⟩
  · rw [ht, poolPump_eq, hpool, hu]; rfl
  · rw [ht, core_poolPump_ne _ _ hj, hu, State.core_modCore_ne _ _ hj]
  · rw [ht, core_poolPump, pool_pumped, hpool]; rfl
  · rw [ht, core_poolPump, pool_pumped_ne _ hm, hcore, Core.pool_setPool_ne _ _ hm]
  · rw [ht, core_poolPump, sreg_pumped, hcore]; rfl
  · rw [ht, core_poolPump, handles_pumped, hcore]; rfl

/-- R68: the window after a write of INDEX and a code into STATUS. -/
theorem selIndex_status (s : State) (k : Nat) (v : Word) {code : Nat} (hlt : code < 256) :
    let t := (s.selIndex k v).setFld (aHandleSel k) 16 8 code
    t.mem = s.mem ∧ t.fld (aHandleSel k) 16 8 = code ∧ t.cores = s.cores := by
  refine ⟨State.setFld_mem .., ?_, State.setFld_cores ..⟩
  rw [fld_setFld _ _ _ _ _ (by norm_num)]
  exact Nat.mod_eq_of_lt hlt

/-- Settles O30: fields, the handle window and the pools, each by the law of its write. -/
theorem coreRegisters : Obligations.CoreRegisters := by
  refine ⟨fun who c size8 v s => ?_, fun who off size8 v s => ?_, fun c v s => ?_, fun c pool v s => ?_⟩
  · intro k lanes writes hpow
    have field : ∀ {o w}, coreField o → coreFieldValue o (s.rd (aCoreK k o)) v size8 = w → writes o w :=
      fun ho hw hmay => exec_registerWrite_coreField hpow ho hw hmay
    refine ⟨fun i hi => ?_, ?_, ?_, fun n h0 hn hrun hmay hin => ?_⟩
    · exact field (.inr (.inr ⟨i, hi, rfl⟩)) (coreFieldValue_raccDest hi ..)
    · exact field (.inl rfl) (coreFieldValue_numeric ..)
    · exact field (.inr (.inl rfl)) (coreFieldValue_seed ..)
    · exact ⟨_, exec_registerWrite_sreg hpow h0 hn hrun hmay hin v, State.onlyCore_setCore .., State.core_modCore ..⟩
  · exact ⟨exec_registerWrite_misaligned who v s, exec_registerWrite_refused size8 v⟩
  · intro k h e hpow
    have hh : getF v 0 8 = h := getF_low8 v
    refine ⟨fun h8 h9 => ?_, fun h9 h8 hbusy => ⟨fun hcheck => ?_, fun hne hlt => ?_⟩, fun h9 h8 hbusy => ?_, fun h9 h8 => ⟨?_, ?_⟩⟩
    · obtain ⟨hcores, hmem⟩ := selLoad_frame s k v (getF v 0 8)
      refine ⟨_, (exec_handleSelLoad hpow h8).trans (congrArg _ (handleSel_load h8 h9)), hcores, hmem, fun n hn => ?_⟩
      rw [hh]
      exact rd_selLoad (s.selIndex k v) k h hn
    · obtain ⟨hmem, hstat, hcores⟩ := selIndex_status s k v (code := 0) (by norm_num)
      refine ⟨_, exec_handleSelInstall_done hpow h9 h8 (hh.symm ▸ hbusy) hcheck, hmem, hstat, fun n => ?_⟩
      rw [State.core_modCore, hh, State.core, hcores]
      exact handle_setHandle ..
    · have hcode : (if s.handleBusy k (getF v 0 8) then cHANDLE else s.handleCheck e) = s.handleCheck e := by
        rw [hh, hbusy, if_neg Bool.false_ne_true]
      exact ⟨_, exec_handleSelInstall_refused hpow h9 h8 hne hcode, selIndex_status s k v hlt⟩
    · have hcode : (if s.handleBusy k (getF v 0 8) then cHANDLE else s.handleCheck e) = 5 := by
        rw [hh, hbusy, if_pos rfl]; rfl
      exact ⟨_, exec_handleSelInstall_refused hpow h9 h8 (by norm_num) hcode, selIndex_status s k v (by norm_num)⟩
    · rw [exec_handleSelLoad hpow h8, handleSel_both h8 h9]
    · rw [exec_handleSelInstall hpow h9, handleSel_both h8 h9]
  · intro k p limit free a hpow
    exact ⟨_, exec_creditPoolWrite hpow, poolWrite_spec s k pool.val v⟩

end Sys2Proof.Machine
end

