-- ==== Sys2Proof/Proofs/Halting.lean ====
section
/-! PROOFS. What the start of a reset does to cores and parts before its unit is entered (R422, R423, R425). -/

namespace Sys2Proof.Machine

/-- The compositor neither runs nor is armed. -/
def Core.Idle (c : Core) : Prop := c.run = false ∧ c.armed = false

/-- Cores, parts, registers, credit messages, records and resets apart, all of the state. -/
def State.HaltFrame (s t : State) : Prop :=
  t = { s with errPend := t.errPend, windows := t.windows, ctl := t.ctl, parts := t.parts, cores := t.cores, free := t.free,
               creditNet := t.creditNet, resets := t.resets }

theorem State.HaltFrame.trans {s t u : State} (h1 : s.HaltFrame t) (h2 : t.HaltFrame u) : s.HaltFrame u :=
  Eq.trans h2 (by rw [h1])

/-- Units are being stopped: idle cores stay idle, no part gets a plate or a load, a context's state stays or becomes STOPPING,
and the registers that `P` names are as they were. -/
structure State.Stops (P : Nat → Prop) (s t : State) : Prop where
  frame : s.HaltFrame t
  idle : ∀ k, (s.core k).Idle → (t.core k).Idle
  plate : ∀ p, (t.part p).plate = (s.part p).plate
  load : ∀ p, (s.part p).load = none → (t.part p).load = none
  ctx : ∀ p, p < 64 → t.ctxState p = s.ctxState p ∨ t.ctxState p = 5
  rd : ∀ a, P a → t.rd a = s.rd a

/-- The same, no reset begun or ended. -/
structure State.Halts (P : Nat → Prop) (s t : State) : Prop extends State.Stops P s t where
  resets : t.resets = s.resets

variable {P : Nat → Prop} {s t u : State}

namespace State.Stops

theorem refl (P : Nat → Prop) (s : State) : s.Stops P s :=
  ⟨rfl, fun _ h => h, fun _ => rfl, fun _ h => h, fun _ _ => .inl rfl, fun _ _ => rfl⟩

theorem trans (h : s.Stops P t) (h' : t.Stops P u) : s.Stops P u where
  frame := h.frame.trans h'.frame
  idle k hk := h'.idle k (h.idle k hk)
  plate p := (h'.plate p).trans (h.plate p)
  load p hp := h'.load p (h.load p hp)
  ctx p hp := by
    rcases h'.ctx p hp with h2 | h2
    · rw [h2]; exact h.ctx p hp
    · exact .inr h2
  rd a ha := (h'.rd a ha).trans (h.rd a ha)

theorem mem (h : s.Stops P t) : t.mem = s.mem := by rw [h.frame]
theorem tiles (h : s.Stops P t) : t.tiles = s.tiles := by rw [h.frame]
theorem nor (h : s.Stops P t) : t.nor = s.nor := by rw [h.frame]
theorem tick (h : s.Stops P t) : t.tick = s.tick := by rw [h.frame]
theorem efx (h : s.Stops P t) : t.efx = s.efx := by rw [h.frame]
theorem fuses (h : s.Stops P t) : t.fuses = s.fuses := by rw [h.frame]
theorem position (h : s.Stops P t) : t.position = s.position := by rw [h.frame]

theorem started (h : s.Stops P t) (p : Nat) : t.started p = s.started p := by rw [State.started, h.plate]; rfl

theorem ctx_five (h : s.Stops P t) {p : Nat} (hp : p < 64) (h5 : s.ctxState p = 5) : t.ctxState p = 5 :=
  (h.ctx p hp).elim (·.trans h5) id

end State.Stops

namespace State.Halts

theorem refl (P : Nat → Prop) (s : State) : s.Halts P s := ⟨.refl P s, rfl⟩

theorem trans (h : s.Halts P t) (h' : t.Halts P u) : s.Halts P u := ⟨h.toStops.trans h'.toStops, h'.resets.trans h.resets⟩

theorem foldl {α : Type} (f : State → α → State) (l : List α) (hf : ∀ t, ∀ x ∈ l, State.Halts P t (f t x)) : s.Halts P (l.foldl f s) := by
  induction l generalizing s with
  | nil => exact .refl P s
  | cons x l ih => exact (hf s x List.mem_cons_self).trans (ih fun t y hy => hf t y (List.mem_cons_of_mem _ hy))

/-- Each step of a fold is one of a state that the steps before it reach, and the steps after it go on from there. -/
theorem foldl_mem {α : Type} (f : State → α → State) {l : List α} (hf : ∀ t, ∀ x ∈ l, State.Halts P t (f t x)) {x : α} (hx : x ∈ l) :
    ∃ m, s.Halts P m ∧ (f m x).Halts P (l.foldl f s) := by
  obtain ⟨l1, l2, rfl⟩ := List.append_of_mem hx
  refine ⟨l1.foldl f s, foldl f l1 fun t y hy => hf t y (by simp [hy]), ?_⟩
  rw [List.foldl_append, List.foldl_cons]
  exact foldl f l2 fun t y hy => hf t y (by simp [hy])

theorem ite {c : Prop} [Decidable c] (h : s.Halts P t) (h' : s.Halts P u) : s.Halts P (if c then t else u) := by
  split <;> assumption

/-- A write of a register that is no context's. -/
theorem wr {a : Nat} (ha : ¬ P a) (hctx : ∀ p, p < 64 → a ≠ aCtx p 8) (v : Word) (s : State) : s.Halts P (s.wr a v) where
  frame := rfl
  idle _ h := h
  plate _ := rfl
  load _ h := h
  ctx p hp := .inl (by rw [State.ctxState, State.fld, State.rd_wr_ne s v (hctx p hp).symm]; rfl)
  rd b hb := State.rd_wr_ne s v fun he => ha (he ▸ hb)
  resets := rfl

theorem modCore (k : Nat) {f : Core → Core} (hf : ∀ c : Core, c.Idle → (f c).Idle) (s : State) : s.Halts P (s.modCore k f) where
  frame := rfl
  idle j h := by
    by_cases hj : j = k
    · subst hj; rw [State.core_modCore]; exact hf _ h
    · rwa [State.core_modCore_ne s f hj]
  plate _ := rfl
  load _ h := h
  ctx _ _ := .inl rfl
  rd _ _ := rfl
  resets := rfl

theorem modPart (p : Nat) {f : Part → Part} (hp : ∀ x : Part, (f x).plate = x.plate) (hl : ∀ x : Part, x.load = none → (f x).load = none)
    (s : State) : s.Halts P (s.modPart p f) where
  frame := rfl
  idle _ h := h
  plate q := by
    by_cases hq : q = p
    · subst hq; rw [State.part_modPart, hp]
    · rw [State.part_modPart_ne s f hq]
  load q h := by
    by_cases hq : q = p
    · subst hq; rw [State.part_modPart]; exact hl _ h
    · rwa [State.part_modPart_ne s f hq]
  ctx _ _ := .inl rfl
  rd _ _ := rfl
  resets := rfl

end State.Halts

/-! ## One core (R423) -/

theorem idle_noneWaiting (c : Core) : c.noneWaiting.Idle ↔ c.Idle := by
  have h : ∀ (l : List Nat) (c : Core), (l.foldl (fun c n => c.setPool n { c.pool n with waiting := [] }) c).Idle ↔ c.Idle := by
    intro l
    induction l with
    | nil => exact fun _ => .rfl
    | cons n l ih => exact fun c => ih _
  exact h _ c

/-- What phase 2 leaves of a core. -/
def Core.halted (c : Core) : Core :=
  let h := (if c.run || c.armed then c.halt cDONE true else c).noneWaiting
  { h with held := [], xfers := h.xfers.map Xfer.stopped }

theorem idle_stopped {c : Core} (h : c.Idle) (l : List (Packet × Option (BitVec 12) × Nat × Nat)) (x : List Xfer) :
    Core.Idle { c with held := l, xfers := x } := h

theorem idle_halted (c : Core) : c.halted.Idle := by
  refine idle_stopped ((idle_noneWaiting _).mpr ?_) _ _
  split
  · exact ⟨rfl, rfl⟩
  · next h => simpa [Core.Idle] using h

theorem giveBack_foldl (k : Nat) (l : List Xfer) (s : State) :
    ∃ n, l.foldl (fun s x => s.giveBack x.dest x.dh (s.nameOf k) x.txid x.grants) s = { s with creditNet := n } := by
  induction l generalizing s with
  | nil => exact ⟨s.creditNet, rfl⟩
  | cons x l ih => exact ih _

/-- R423: the core halts, and credit messages leave it. -/
theorem haltCore_eq (s : State) (k : Nat) : ∃ n, s.haltCore k = ({ s with creditNet := n } : State).modCore k Core.halted := by
  obtain ⟨n, hn⟩ := giveBack_foldl k (s.core k).xfers s
  unfold State.haltCore
  dsimp only
  rw [hn]
  exact ⟨_, rfl⟩

theorem State.Halts.creditNet (P : Nat → Prop) (s : State) (n : List CreditMsg) : s.Halts P { s with creditNet := n } where
  frame := rfl
  idle _ h := h
  plate _ := rfl
  load _ h := h
  ctx _ _ := .inl rfl
  rd _ _ := rfl
  resets := rfl

theorem haltCore_halts (P : Nat → Prop) (s : State) (k : Nat) : s.Halts P (s.haltCore k) := by
  obtain ⟨n, hn⟩ := haltCore_eq s k
  rw [hn]
  exact (State.Halts.creditNet P s n).trans (.modCore k (fun c _ => idle_halted c) _)

theorem idle_haltCore (s : State) (k : Nat) : ((s.haltCore k).core k).Idle := by
  obtain ⟨n, hn⟩ := haltCore_eq s k
  rw [hn, State.core_modCore]
  exact idle_halted _

/-! ## The parts, and a proof pass that gives way (R425, R485) -/

/-- A write of a field of a context's register. -/
theorem State.Halts.setCtx {p lo w x : Nat} (hP : ¬ P (aCtx p 8)) (hlo : 3 ≤ lo ∨ lo = 0 ∧ w = 3 ∧ x = 5) (s : State) :
    s.Halts P (s.setFld (aCtx p 8) lo w x) where
  frame := rfl
  idle _ h := h
  plate _ := rfl
  load _ h := h
  ctx q _ := by
    by_cases hq : aCtx q 8 = aCtx p 8
    · rw [State.ctxState, State.ctxState, hq]
      rcases hlo with h | ⟨rfl, rfl, rfl⟩
      · exact .inl (fld_setFld_ne _ _ _ _ _ _ _ (.inl (by omega)))
      · exact .inr (fld_setFld _ _ _ _ _ (by norm_num))
    · exact .inl (fld_setFld_other _ _ _ _ _ _ _ _ hq)
  rd a ha := rd_setFld_other _ _ _ _ _ _ fun he => hP (he ▸ ha)
  resets := rfl

theorem cmpStop_halts (P : Nat → Prop) (s : State) (k : Nat) : s.Halts P (s.cmpStop k) := by
  refine .modCore k (fun c h => ?_) s
  rw [if_neg (by rw [h.1]; exact Bool.false_ne_true)]
  exact ⟨h.1, rfl⟩

/-- R355: STOP of a part that has started makes its context STOPPING. -/
theorem stopPart_halts {p : Nat} (hP : ¬ P (aCtx p 8)) (s : State) : s.Halts P (s.stopPart p) := by
  have hstop : s.Halts P ((s.started p).foldl State.cmpStop s) := .foldl _ _ fun t k _ => cmpStop_halts P t k
  have hpart := hstop.trans (.modPart p (f := fun x => { x with inputs := [], held := [], fencesLeft := [], stopTick := s.tick })
    (fun _ => rfl) (fun _ h => h) _)
  unfold State.stopPart
  have htick : ((s.started p).foldl State.cmpStop s).tick = s.tick := hstop.tick
  dsimp only
  rw [htick]
  exact .ite (.trans (.ite (hpart.trans (.setCtx hP (.inl (by norm_num)) _)) hpart) (.setCtx hP (.inr ⟨rfl, rfl, rfl⟩) _)) (.refl P s)

theorem ctxState_stopPart {s : State} {p : Nat} (h : s.ctxState p ∈ [2, 3, 4]) : (s.stopPart p).ctxState p = 5 := by
  unfold State.stopPart
  rw [if_pos h]
  exact fld_setFld _ _ _ _ _ (by norm_num)

theorem aGly_ne_aCtx {d g k p : Nat} (hp : p < 64) : aGly d g k ≠ aCtx p 8 := by simp only [aGly, folioBase, aCtx]; omega

theorem proofTaken_halts (hP : ∀ d g, ¬ P (aGly d g 8)) (s : State) (r : ResetRun) : s.Halts P (s.proofTaken r) := by
  unfold State.proofTaken
  split
  · next d g _ _ =>
    exact (State.Halts.wr (hP d g) (fun p hp => aGly_ne_aCtx hp) _ s).trans (.wr (hP d g) (fun p hp => aGly_ne_aCtx hp) _ _)
  · exact .refl P s

end Sys2Proof.Machine
end

