-- ==== Sys2Proof/Proofs/ResetStart.lean ====
section
/-! PROOFS. Reset units, and the start of their resets (R422, R423, R425, R426). -/

namespace Sys2Proof.Machine

variable {P : Nat → Prop} {s t : State} {u v : ResetUnit}

/-! ## What a unit holds (R371, R426) -/

/-- Both states hold the same partitions' records and resets, so every unit holds the same cores in both. -/
structure State.SameUnits (s t : State) : Prop where
  efx : t.efx = s.efx
  fuses : t.fuses = s.fuses
  position : t.position = s.position
  parts : ∀ p, t.resetOf (.partition p) = s.resetOf (.partition p)

theorem State.Halts.sameUnits (h : s.Halts P t) : s.SameUnits t :=
  ⟨h.efx, h.fuses, h.position, fun p => by rw [State.resetOf, State.resetOf, h.resets]⟩

theorem hasGalley_congr (he : t.efx = s.efx) (hf : t.fuses = s.fuses) (hp : t.position = s.position) (p d g : Nat) :
    t.hasGalley p d g = s.hasGalley p d g := by
  rw [State.hasGalley, State.hasGalley, State.partRec, State.partRec, State.efxBody, State.efxBody, he, hf, hp]

theorem galleyMask_congr (he : t.efx = s.efx) (hf : t.fuses = s.fuses) (hp : t.position = s.position) (p : Nat) :
    t.galleyMask p = s.galleyMask p := by
  simp only [State.galleyMask, hasGalley_congr he hf hp]

theorem covers_partition_some {p : Fin 64} {r : ResetRun} (h : s.resetOf (.partition p) = some r) (k : Nat) :
    s.covers (.partition p) k = decide (bits r.galleys (k / 18) 1 = 1) := by
  unfold State.resetOf at h
  simp only [State.covers, h]

theorem covers_partition_none {p : Fin 64} (h : s.resetOf (.partition p) = none) (k : Nat) :
    s.covers (.partition p) k = decide (s.partOfKey k = p.val) := by
  unfold State.resetOf at h
  simp only [State.covers, h]

theorem partOfKey_congr (h : s.SameUnits t) (k : Nat) : t.partOfKey k = s.partOfKey k := by
  rw [State.partOfKey, State.partOf, funext fun p => hasGalley_congr h.efx h.fuses h.position p _ _]
  rfl

theorem covers_congr (h : s.SameUnits t) (u : ResetUnit) (k : Nat) : t.covers u k = s.covers u k := by
  cases u with
  | core c => rfl
  | galley d g => rfl
  | partition p =>
    cases hr : s.resetOf (.partition p) with
    | some r => rw [covers_partition_some hr, covers_partition_some ((h.parts p).trans hr)]
    | none =>
      rw [covers_partition_none hr, covers_partition_none ((h.parts p).trans hr), partOfKey_congr h]
  | package => rfl

theorem within_congr (h : s.SameUnits t) (u v : ResetUnit) : t.within u v = s.within u v := by
  cases u <;> cases v <;> simp only [State.within, covers_congr h]

theorem unitKeys_core (s : State) (c : CoreId) : s.unitKeys (.core c) = [kOf c] := rfl

theorem unitKeys_galley (s : State) (d : Fin 64) (g : Fin 4) :
    s.unitKeys (.galley d g) = (List.range 18).map (d.val * 72 + g.val * 18 + ·) := by
  delta State.unitKeys
  rfl

theorem unitKeys_wide (s : State) (h : unitWide u = true) : s.unitKeys u = (List.range 4608).filter (s.covers u) := by
  cases u with
  | core c => exact absurd h Bool.false_ne_true
  | galley d g => exact absurd h Bool.false_ne_true
  | partition p => delta State.unitKeys; dsimp only
  | package => delta State.unitKeys; dsimp only

theorem merges_congr (h : s.SameUnits t) (hr : t.resets = s.resets) (u : ResetUnit) : t.merges u = s.merges u := by
  simp only [State.merges, hr, within_congr h]

/-- The cores of a unit. -/
theorem mem_unitKeys {k : Nat} (hk : k < 4608) : k ∈ s.unitKeys u ↔ s.covers u k = true := by
  have wide (h : unitWide u = true) : k ∈ s.unitKeys u ↔ s.covers u k = true := by
    rw [unitKeys_wide s h, List.mem_filter, List.mem_range]
    exact and_iff_right hk
  cases u with
  | core c => rw [unitKeys_core, State.covers, List.mem_singleton, decide_eq_true_iff]; exact eq_comm
  | galley d g =>
    have hd := d.isLt
    have hg := g.isLt
    rw [unitKeys_galley, State.covers, List.mem_map, Bool.and_eq_true, decide_eq_true_iff, decide_eq_true_iff, keyDie, keyFlat]
    simp only [List.mem_range]
    refine ⟨?_, fun h => ⟨k - d.val * 72 - g.val * 18, by omega, by omega⟩⟩
    rintro ⟨i, hi, rfl⟩
    omega
  | partition p => exact wide rfl
  | package => exact wide rfl

theorem within_refl (s : State) (u : ResetUnit) : s.within u u = true := by
  cases u <;> simp [State.within]

/-- Cores lie within the units of their galley. -/
theorem within_core_of_galley {d : Fin 64} {g : Fin 4} {c : CoreId} (hd : c.die = d) (hg : c.flat.val / 18 = g.val)
    (h : s.within (.galley d g) v = true) : s.within (.core c) v = true := by
  have hk : kOf c / 18 = (d.val * 72 + g.val * 18) / 18 := by rw [kOf, hd]; omega
  have hkey : keyDie (kOf c) = keyDie (d.val * 72 + g.val * 18) ∧ keyFlat (kOf c) / 18 = keyFlat (d.val * 72 + g.val * 18) / 18 := by
    have := g.isLt
    have := c.flat.isLt
    rw [keyDie_kOf, keyFlat_kOf, hd, keyDie, keyFlat]
    omega
  cases v with
  | core c' => simp [State.within] at h
  | galley d' g' =>
    simp only [State.within, Bool.and_eq_true, decide_eq_true_eq] at h ⊢
    obtain ⟨rfl, rfl⟩ := h
    exact ⟨hd, hg⟩
  | partition p =>
    simp only [State.within] at h ⊢
    cases hr : s.resetOf (.partition p) with
    | some r => rwa [covers_partition_some hr, hk, ← covers_partition_some hr]
    | none =>
      rw [covers_partition_none hr] at h ⊢
      rwa [State.partOfKey, hkey.1, hkey.2, ← State.partOfKey]
  | package => rfl

/-- Of the units, only a core's own lies within it. -/
theorem within_core {c : CoreId} (h : s.within u (.core c) = true) : u = .core c := by
  cases u <;> simp_all [State.within]

theorem within_package_iff : s.within .package v = true ↔ v = .package := by
  cases v <;> simp [State.within]

theorem within_package (s : State) (u : ResetUnit) : s.within u .package = true := by
  cases u <;> rfl

/-! ## The start (R423) -/

/-- The run of a reset of unit `u` that starts now. -/
def State.newRun (s : State) (u : ResetUnit) (proof : Bool) : ResetRun :=
  ⟨u, s.tick, false, proof, match u with | .partition p => s.galleyMask p.val | _ => 0⟩

/-- The resets in progress once a reset of unit `u` has taken those within it over. -/
def State.resetsWith (s : State) (u : ResetUnit) (proof : Bool) : List ResetRun :=
  s.resets.filter (fun r => !s.within r.unit u) ++ [s.newRun u proof]

theorem startReset_merges {proof : Bool} (h : s.merges u = true) : s.startReset u proof = s := by
  rw [State.startReset, if_pos h]

theorem resetStops_halts (hctx : ∀ p, p < 64 → ¬ P (aCtx p 8)) (s : State) (u : ResetUnit) : s.Halts P (s.resetStops u) :=
  .foldl _ _ fun t p hp => .ite (stopPart_halts (hctx p (List.mem_range.mp hp)) t) (.refl P t)

/-- R425: a part whose plate starts a core of the unit stops. -/
theorem ctxState_resetStops {p : Nat} (hp : p < 64) (hs : s.ctxState p ∈ [3, 4]) (hc : (s.started p).any (s.covers u) = true) :
    (s.resetStops u).ctxState p = 5 := by
  obtain ⟨m, hm, hm'⟩ := State.Halts.foldl_mem (P := fun _ => False) (s := s)
    (fun s p => if s.ctxState p ∈ [3, 4] ∧ (s.started p).any (s.covers u) then s.stopPart p else s)
    (fun t q _ => .ite (stopPart_halts id t) (.refl _ t)) (List.mem_range.mpr hp)
  refine hm'.ctx_five hp ?_
  have hcov : (m.started p).any (m.covers u) = true := by
    rwa [hm.started, funext (covers_congr hm.sameUnits u)]
  rcases hm.ctx p hp with h | h
  · rw [if_pos ⟨h.symm ▸ hs, hcov⟩]
    have : s.ctxState p ∈ [2, 3, 4] := by simp only [List.mem_cons, List.not_mem_nil, or_false] at hs ⊢; omega
    exact ctxState_stopPart (h.symm ▸ this)
  · rwa [if_neg]
    simp [h]

/-- Loads of the parts of a wide unit end. -/
def State.dropLoads (s : State) (u : ResetUnit) : State :=
  (unitParts u).foldl (fun s p => s.modPart p fun q => { q with load := none }) s

theorem dropLoads_halts (P : Nat → Prop) (s : State) (u : ResetUnit) : s.Halts P (s.dropLoads u) :=
  .foldl _ _ fun t p _ => .modPart p (f := fun q => { q with load := none }) (fun _ => rfl) (fun _ _ => rfl) t

theorem load_dropLoads {p : Nat} (hp : p ∈ unitParts u) : ((s.dropLoads u).part p).load = none := by
  obtain ⟨m, -, hm⟩ := State.Halts.foldl_mem (P := fun _ => False) (s := s)
    (fun s p => s.modPart p fun q => { q with load := none })
    (fun t q _ => .modPart q (f := fun q => { q with load := none }) (fun _ => rfl) (fun _ _ => rfl) t) hp
  exact hm.load p (by rw [State.part_modPart])

/-- The state in which the cores of unit `u` come to halt. -/
def State.beforeHalt (s : State) (u : ResetUnit) : State :=
  let s1 := (s.resets.filter fun r => s.within r.unit u).foldl State.proofTaken s
  if unitWide u then s1.dropLoads u else s1.resetStops u

/-- Phases 1 and 2 but for the entry of the reset itself. -/
def State.stopUnit (s : State) (u : ResetUnit) : State := ((s.beforeHalt u).unitKeys u).foldl State.haltCore (s.beforeHalt u)

theorem startReset_eq {proof : Bool} (h : s.merges u = false) :
    s.startReset u proof = { s.stopUnit u with resets := (s.stopUnit u).resetsWith u proof } := by
  rw [State.startReset, if_neg (by rw [h]; exact Bool.false_ne_true)]
  cases u <;> rfl

end Sys2Proof.Machine
end

