-- ==== Sys2Proof/Proofs/ResetRequests.lean ====
section
/-! PROOFS. What the requests for resets leave (R371, R422, R423, R425, R426). -/

namespace Sys2Proof.Machine

variable {P : Nat → Prop} {s t : State} {u v : ResetUnit} {us : List ResetUnit}

/-- The registers that the start of a reset may write are none that `P` names. -/
structure StopFree (P : Nat → Prop) : Prop where
  ctx : ∀ p, p < 64 → ¬ P (aCtx p 8)
  gly : ∀ d g, ¬ P (aGly d g 8)

theorem stopFree_none : StopFree fun _ => False := ⟨fun _ _ => id, fun _ _ => id⟩

theorem proofsTaken_halts (hP : StopFree P) (s : State) (l : List ResetRun) : s.Halts P (l.foldl State.proofTaken s) :=
  .foldl _ _ fun t r _ => proofTaken_halts hP.gly t r

theorem beforeHalt_halts (hP : StopFree P) (s : State) (u : ResetUnit) : s.Halts P (s.beforeHalt u) :=
  (proofsTaken_halts hP s _).trans (.ite (dropLoads_halts P _ u) (resetStops_halts hP.ctx _ u))

theorem haltAll_halts (P : Nat → Prop) (s : State) (l : List Nat) : s.Halts P (l.foldl State.haltCore s) :=
  .foldl _ _ fun t k _ => haltCore_halts P t k

theorem stopUnit_halts (hP : StopFree P) (s : State) (u : ResetUnit) : s.Halts P (s.stopUnit u) :=
  (beforeHalt_halts hP s u).trans (haltAll_halts P _ _)

/-- R423: every core of the unit halts. -/
theorem idle_stopUnit {k : Nat} (hk : k < 4608) (h : s.covers u k = true) : ((s.stopUnit u).core k).Idle := by
  have hmem : k ∈ (s.beforeHalt u).unitKeys u := by
    rw [mem_unitKeys hk, covers_congr (beforeHalt_halts stopFree_none s u).sameUnits]; exact h
  obtain ⟨m, -, hm⟩ := State.Halts.foldl_mem State.haltCore (s := s.beforeHalt u)
    (fun t k _ => haltCore_halts (fun _ => False) t k) hmem
  exact hm.idle k (idle_haltCore m k)

/-- R425: parts with a core of a narrow unit stop. -/
theorem ctxState_stopUnit (hu : unitWide u = false) {p : Nat} (hp : p < 64) (hs : s.ctxState p ∈ [3, 4])
    (hc : (s.started p).any (s.covers u) = true) : (s.stopUnit u).ctxState p = 5 := by
  obtain ⟨m, hm⟩ : ∃ m, m = (s.resets.filter fun r => s.within r.unit u).foldl State.proofTaken s := ⟨_, rfl⟩
  have hh : s.Halts (fun _ => False) m := hm ▸ proofsTaken_halts stopFree_none s _
  have hb : s.beforeHalt u = m.resetStops u := by
    unfold State.beforeHalt
    rw [hu, hm]
    rfl
  refine (haltAll_halts (fun _ => False) _ _).ctx_five hp ?_
  rw [hb]
  rcases hh.ctx p hp with h | h
  · refine ctxState_resetStops hp (h.symm ▸ hs) ?_
    rwa [hh.started, funext (covers_congr hh.sameUnits u)]
  · exact (resetStops_halts (P := fun _ => False) (fun _ _ => id) m u).ctx_five hp h

theorem load_stopUnit (hu : unitWide u = true) {p : Nat} (hp : p ∈ unitParts u) : ((s.stopUnit u).part p).load = none := by
  refine (haltAll_halts (fun _ => False) _ _).load p ?_
  unfold State.beforeHalt
  rw [if_pos hu]
  exact load_dropLoads hp

/-! ## Starting -/

/-- What is said of a request: resets of the units `us` start, or have started, and their cores halt. -/
structure State.Starts (s t : State) (us : List ResetUnit) : Prop where
  mem : t.mem = s.mem
  tiles : t.tiles = s.tiles
  nor : t.nor = s.nor
  fresh : s.resets = [] → t.resets = us.map (s.newRun · false)
  holds : ∀ u ∈ us, ∃ r ∈ t.resets, s.within u r.unit = true
  keeps : ∀ r ∈ s.resets, r ∈ t.resets ∨ ∃ u ∈ us, s.within r.unit u = true
  idle : ∀ u ∈ us, s.merges u = false → ∀ k, k < 4608 → s.covers u k = true → (t.core k).Idle

/-- The parts with a core of one of the units stop. -/
def State.Drains (s t : State) (us : List ResetUnit) : Prop :=
  ∀ p, p < 64 → s.ctxState p ∈ [3, 4] → (∃ u ∈ us, s.merges u = false ∧ (s.started p).any (s.covers u) = true) → t.ctxState p = 5

theorem State.merges_nil (h : s.resets = []) (u : ResetUnit) : s.merges u = false := by
  rw [State.merges, h]; rfl

theorem merges_eq_false : s.merges u = false ↔ ∀ r ∈ s.resets, s.within u r.unit = true → r.proof = true ∧ r.unit = u := by
  simp [State.merges]

theorem exists_within_of_merges (h : s.merges u = true) : ∃ r ∈ s.resets, s.within u r.unit = true := by
  rw [State.merges, List.any_eq_true] at h
  obtain ⟨r, hr, hu⟩ := h
  exact ⟨r, hr, ((Bool.and_eq_true _ _).mp hu).1⟩

theorem newRun_congr (he : t.efx = s.efx) (hf : t.fuses = s.fuses) (hp : t.position = s.position) (ht : t.tick = s.tick)
    (u : ResetUnit) (proof : Bool) : t.newRun u proof = s.newRun u proof := by
  cases u <;> simp only [State.newRun, ht, galleyMask_congr he hf hp]

theorem State.Halts.newRun (h : s.Halts P t) (u : ResetUnit) (proof : Bool) : t.newRun u proof = s.newRun u proof :=
  newRun_congr h.efx h.fuses h.position h.tick u proof

theorem State.Halts.resetsWith (h : s.Halts P t) (u : ResetUnit) (proof : Bool) : t.resetsWith u proof = s.resetsWith u proof := by
  rw [State.resetsWith, State.resetsWith, h.resets, h.newRun]
  simp only [within_congr h.sameUnits]

theorem startReset_resets {proof : Bool} (h : s.merges u = false) : (s.startReset u proof).resets = s.resetsWith u proof := by
  rw [startReset_eq h]
  exact (stopUnit_halts stopFree_none s u).resetsWith u proof

theorem State.Stops.withResets (h : s.Stops P t) (l : List ResetRun) : s.Stops P { t with resets := l } :=
  ⟨h.frame.trans rfl, h.idle, h.plate, h.load, h.ctx, h.rd⟩

theorem startReset_stops (hP : StopFree P) (s : State) (u : ResetUnit) (proof : Bool) : s.Stops P (s.startReset u proof) := by
  cases h : s.merges u with
  | true => rw [startReset_merges h]; exact .refl P s
  | false => rw [startReset_eq h]; exact (stopUnit_halts hP s u).toStops.withResets _

theorem startReset_idle {proof : Bool} (h : s.merges u = false) {k : Nat} (hk : k < 4608) (hc : s.covers u k = true) :
    ((s.startReset u proof).core k).Idle := by
  rw [startReset_eq h]
  exact idle_stopUnit hk hc

theorem startReset_ctx {proof : Bool} (h : s.merges u = false) (hu : unitWide u = false) {p : Nat} (hp : p < 64)
    (hs : s.ctxState p ∈ [3, 4]) (hc : (s.started p).any (s.covers u) = true) : (s.startReset u proof).ctxState p = 5 := by
  rw [startReset_eq h]
  exact ctxState_stopUnit hu hp hs hc

theorem startReset_load {proof : Bool} (h : s.merges u = false) (hu : unitWide u = true) {p : Nat} (hp : p ∈ unitParts u) :
    ((s.startReset u proof).part p).load = none := by
  rw [startReset_eq h]
  exact load_stopUnit hu hp

theorem startReset_starts (s : State) (u : ResetUnit) : s.Starts (s.startReset u false) [u] := by
  have hst := startReset_stops stopFree_none s u false
  have one : ∀ {p : ResetUnit → Prop}, (∀ x ∈ [u], p x) ↔ p u := by simp
  cases h : s.merges u with
  | true =>
    refine ⟨hst.mem, hst.tiles, hst.nor, fun hr => ?_, one.mpr ?_, fun r hr => ?_, one.mpr fun hm => ?_⟩
    · rw [State.merges_nil hr] at h; exact absurd h Bool.false_ne_true
    · rw [startReset_merges h]; exact exists_within_of_merges h
    · rw [startReset_merges h]; exact .inl hr
    · rw [h] at hm; exact absurd hm.symm Bool.false_ne_true
  | false =>
    refine ⟨hst.mem, hst.tiles, hst.nor, fun hr => ?_, one.mpr ?_, fun r hr => ?_, one.mpr fun hm k hk hc => startReset_idle h hk hc⟩
    · rw [startReset_resets h, State.resetsWith, hr]; rfl
    · rw [startReset_resets h]
      exact ⟨s.newRun u false, List.mem_append_right _ (List.mem_singleton_self _), within_refl s u⟩
    · rw [startReset_resets h, State.resetsWith]
      cases hw : s.within r.unit u with
      | true => exact .inr ⟨u, List.mem_singleton_self _, hw⟩
      | false => exact .inl (List.mem_append_left _ (List.mem_filter.mpr ⟨hr, by rw [hw]; rfl⟩))

theorem startReset_drains (hu : unitWide u = false) : s.Drains (s.startReset u false) [u] := fun p hp hs ⟨x, hx, hm, hc⟩ => by
  cases List.mem_singleton.mp hx
  exact startReset_ctx hm hu hp hs hc

end Sys2Proof.Machine
end

