-- ==== Sys2Proof/Proofs/CoreResets.lean ====
section
/-! PROOFS. Resets of several cores that one write of `GLY_RESET` asks for (R422, R426, R427). -/

namespace Sys2Proof.Machine

variable {P : Nat → Prop} {s t : State} {u v : ResetUnit} {us : List ResetUnit}

/-- A list of resets with those of core `c` out holds the same reset of a partition. -/
theorem resetOf_startReset_core (s : State) (c : CoreId) (p : Fin 64) :
    (s.startReset (.core c) false).resetOf (.partition p) = s.resetOf (.partition p) := by
  cases h : s.merges (.core c) with
  | true => rw [startReset_merges h]
  | false =>
    have hf : (fun r : ResetRun => decide ((!s.within r.unit (.core c)) = true ∧ decide (r.unit = .partition p) = true)) =
        fun r => decide (r.unit = .partition p) := by
      funext r
      cases hr : r.unit <;> simp [State.within]
    have hn : [s.newRun (.core c) false].find? (fun r => r.unit = ResetUnit.partition p) = none := by simp [State.newRun]
    rw [State.resetOf, State.resetOf, startReset_resets h, State.resetsWith, List.find?_append, List.find?_filter, hf, hn, Option.or_none]

theorem startReset_core_sameUnits (s : State) (c : CoreId) : s.SameUnits (s.startReset (.core c) false) :=
  have h := startReset_stops stopFree_none s (.core c) false
  ⟨h.efx, h.fuses, h.position, resetOf_startReset_core s c⟩

/-- A reset of a core leaves open whether one of another core merges. -/
theorem merges_startReset_core (s : State) {c c' : CoreId} (hc : c' ≠ c) :
    (s.startReset (.core c) false).merges (.core c') = s.merges (.core c') := by
  cases h : s.merges (.core c) with
  | true => rw [startReset_merges h]
  | false =>
    have hno : s.within (.core c') (.core c) = false := by simp [State.within, hc]
    have hf : (fun r : ResetRun =>
          (!s.within r.unit (.core c)) && (s.within (.core c') r.unit && !(r.proof && decide (r.unit = .core c')))) =
        fun r => s.within (.core c') r.unit && !(r.proof && decide (r.unit = .core c')) := by
      funext r
      cases hw : s.within r.unit (.core c) with
      | false => rfl
      | true => rw [within_core hw, hno]; rfl
    simp only [State.merges, within_congr (startReset_core_sameUnits s c)]
    rw [startReset_resets h, State.resetsWith, List.any_append, List.any_filter, hf]
    simp [State.newRun, hno]

/-- Requests for resets of cores, one after the other. -/
def State.startCores (s : State) (cs : List CoreId) : State := cs.foldl (fun s c => s.startReset (.core c) false) s

/-- The cores of the list whose reset merges with none in progress. -/
def State.newCores (s : State) (cs : List CoreId) : List CoreId := cs.filter fun c => !s.merges (.core c)

theorem startCores_stops (hP : StopFree P) (s : State) (cs : List CoreId) : s.Stops P (s.startCores cs) := by
  induction cs generalizing s with
  | nil => exact .refl P s
  | cons c cs ih => exact (startReset_stops hP s (.core c) false).trans (ih _)

theorem newCores_startReset {c : CoreId} {cs : List CoreId} (hc : c ∉ cs) :
    (s.startReset (.core c) false).newCores cs = s.newCores cs :=
  List.filter_congr fun x hx => by
    have hne : x ≠ c := fun h => hc (h ▸ hx)
    rw [merges_startReset_core s hne]

theorem newRun_startReset (s : State) (c : CoreId) (x : ResetUnit) :
    (s.startReset (.core c) false).newRun x false = s.newRun x false :=
  have h := startReset_stops stopFree_none s (.core c) false
  newRun_congr h.efx h.fuses h.position h.tick x false

/-- The resets in progress after requests for several cores. -/
theorem startCores_resets {cs : List CoreId} (hcs : cs.Nodup) : (s.startCores cs).resets =
    s.resets.filter (fun r => r.unit ∉ (s.newCores cs).map ResetUnit.core) ++ (s.newCores cs).map fun c => s.newRun (.core c) false := by
  induction cs generalizing s with
  | nil => simp [State.startCores, State.newCores]
  | cons c cs ih =>
    obtain ⟨hc, hcs⟩ := List.nodup_cons.mp hcs
    have hstep : s.startCores (c :: cs) = (s.startReset (.core c) false).startCores cs := rfl
    rw [hstep, ih hcs, newCores_startReset hc]
    cases h : s.merges (.core c) with
    | true =>
      have hnew : s.newCores (c :: cs) = s.newCores cs := by simp [State.newCores, h]
      rw [hnew, startReset_merges h]
    | false =>
      have hnew : s.newCores (c :: cs) = c :: s.newCores cs := by simp [State.newCores, h]
      have hout : ResetUnit.core c ∉ (s.newCores cs).map ResetUnit.core := by
        simp only [List.mem_map, ResetUnit.core.injEq, exists_eq_right]
        exact fun hm => hc (List.mem_of_mem_filter hm)
      have hrun : [s.newRun (.core c) false].filter (fun r => r.unit ∉ (s.newCores cs).map ResetUnit.core) = [s.newRun (.core c) false] :=
        List.filter_eq_self.mpr fun r hr => decide_eq_true ((List.mem_singleton.mp hr).symm ▸ hout)
      have hfilter : (fun r : ResetRun => decide (r.unit ∉ (s.newCores cs).map ResetUnit.core) && !s.within r.unit (.core c)) =
          fun r => decide (r.unit ∉ (c :: s.newCores cs).map ResetUnit.core) := by
        funext r
        have hw : s.within r.unit (.core c) = decide (r.unit = .core c) := by
          cases hr : r.unit <;> simp [State.within]
        rw [hw]
        simp only [List.map_cons, List.mem_cons, not_or, Bool.decide_and, Bool.and_comm, ← decide_not]
      simp only [newRun_startReset]
      rw [hnew, startReset_resets h, State.resetsWith, List.filter_append, List.filter_filter, hfilter, hrun,
        List.append_assoc]
      rfl

/-- A core whose reset the list asks for is reached in a state that holds the same units and merges it or not as the first does. -/
theorem startCores_mem (hP : StopFree P) {cs : List CoreId} (hcs : cs.Nodup) {c : CoreId} (hc : c ∈ cs) :
    ∃ m, s.Stops P m ∧ s.SameUnits m ∧ m.merges (.core c) = s.merges (.core c) ∧
      (m.startReset (.core c) false).Stops P (s.startCores cs) := by
  induction cs generalizing s with
  | nil => cases hc
  | cons x cs ih =>
    obtain ⟨hx, hcs⟩ := List.nodup_cons.mp hcs
    have hst := startReset_stops hP s (.core x) false
    rcases List.mem_cons.mp hc with rfl | hc
    · exact ⟨s, .refl P s, ⟨rfl, rfl, rfl, fun _ => rfl⟩, rfl, startCores_stops hP _ cs⟩
    · obtain ⟨m, hm, hu, hmer, hlast⟩ := ih (s := s.startReset (.core x) false) hcs hc
      have hsame := startReset_core_sameUnits s x
      exact ⟨m, hst.trans hm, ⟨hu.efx.trans hsame.efx, hu.fuses.trans hsame.fuses, hu.position.trans hsame.position,
        fun p => (hu.parts p).trans (hsame.parts p)⟩, hmer.trans (merges_startReset_core s fun h => hx (h ▸ hc)), hlast⟩

theorem startCores_idle {cs : List CoreId} (hcs : cs.Nodup) {c : CoreId} (hc : c ∈ cs) (h : s.merges (.core c) = false)
    {k : Nat} (hk : k < 4608) (hcov : s.covers (.core c) k = true) : ((s.startCores cs).core k).Idle := by
  obtain ⟨m, -, hu, hm, hlast⟩ := startCores_mem stopFree_none (s := s) hcs hc
  exact hlast.idle k (startReset_idle (hm.trans h) hk ((covers_congr hu _ k).trans hcov))

theorem startCores_starts {cs : List CoreId} (hcs : cs.Nodup) : s.Starts (s.startCores cs) (cs.map ResetUnit.core) := by
  have hst := startCores_stops stopFree_none s cs
  have hres := startCores_resets (s := s) hcs
  have all : ∀ {p : ResetUnit → Prop}, (∀ c ∈ cs, p (.core c)) → ∀ u ∈ cs.map ResetUnit.core, p u := fun h u hu => by
    obtain ⟨c, hc, rfl⟩ := List.mem_map.mp hu
    exact h c hc
  refine ⟨hst.mem, hst.tiles, hst.nor, fun hr => ?_, all fun c hc => ?_, fun r hr => ?_,
    all fun c hc hm k hk hcov => startCores_idle hcs hc hm hk hcov⟩
  · have hnew : s.newCores cs = cs := List.filter_eq_self.mpr fun c _ => by rw [State.merges_nil hr]; rfl
    rw [hres, hr, hnew, List.map_map]
    rfl
  · cases hm : s.merges (.core c) with
    | false =>
      refine ⟨s.newRun (.core c) false, hres ▸ List.mem_append_right _ (List.mem_map.mpr ⟨c, ?_, rfl⟩), within_refl s _⟩
      exact List.mem_filter.mpr ⟨hc, by rw [hm]; rfl⟩
    | true =>
      obtain ⟨r, hr, hw⟩ := exists_within_of_merges hm
      by_cases hnew : r.unit ∈ (s.newCores cs).map ResetUnit.core
      · obtain ⟨c', hc', he⟩ := List.mem_map.mp hnew
        exact ⟨s.newRun (.core c') false, hres ▸ List.mem_append_right _ (List.mem_map.mpr ⟨c', hc', rfl⟩), he ▸ hw⟩
      · exact ⟨r, hres ▸ List.mem_append_left _ (List.mem_filter.mpr ⟨hr, decide_eq_true hnew⟩), hw⟩
  · by_cases hnew : r.unit ∈ (s.newCores cs).map ResetUnit.core
    · obtain ⟨c, hc, he⟩ := List.mem_map.mp hnew
      exact .inr ⟨.core c, List.mem_map.mpr ⟨c, List.mem_of_mem_filter hc, rfl⟩, he ▸ within_refl s _⟩
    · exact .inl (hres ▸ List.mem_append_left _ (List.mem_filter.mpr ⟨hr, decide_eq_true hnew⟩))

theorem startCores_drains {cs : List CoreId} (hcs : cs.Nodup) : s.Drains (s.startCores cs) (cs.map ResetUnit.core) :=
  fun p hp hs ⟨u, hu, h, hcov⟩ => by
    obtain ⟨c, hc, rfl⟩ := List.mem_map.mp hu
    obtain ⟨m, hm, hsame, hmer, hlast⟩ := startCores_mem stopFree_none (s := s) hcs hc
    refine hlast.ctx_five hp ?_
    rcases hm.ctx p hp with h' | h'
    · refine startReset_ctx (hmer.trans h) rfl hp (h'.symm ▸ hs) ?_
      rwa [hm.started, funext (covers_congr hsame _)]
    · exact (startReset_stops stopFree_none m _ false).ctx_five hp h'

end Sys2Proof.Machine
end

