-- ==== Sys2Proof/Proofs/ResetWrites.lean ====
section
/-! PROOFS. Writes of `GLY_RESET`, `PKG_PART_RESET` and `PKG_RESET`, and the end of the drain (R422, R423, R426, R427). -/

namespace Sys2Proof.Machine

variable {P : Nat → Prop} {s s' t : State} {u v : ResetUnit} {us : List ResetUnit}

/-! ## States that a request sees alike -/

/-- Both states hold the same memories, records and resets. -/
structure State.Alike (s t : State) : Prop where
  mem : t.mem = s.mem
  tiles : t.tiles = s.tiles
  nor : t.nor = s.nor
  tick : t.tick = s.tick
  efx : t.efx = s.efx
  fuses : t.fuses = s.fuses
  position : t.position = s.position
  resets : t.resets = s.resets

theorem State.Alike.trans (h : s.Alike s') (h' : s'.Alike t) : s.Alike t :=
  ⟨h'.mem.trans h.mem, h'.tiles.trans h.tiles, h'.nor.trans h.nor, h'.tick.trans h.tick, h'.efx.trans h.efx, h'.fuses.trans h.fuses,
    h'.position.trans h.position, h'.resets.trans h.resets⟩

theorem State.Alike.refl (s : State) : s.Alike s := ⟨rfl, rfl, rfl, rfl, rfl, rfl, rfl, rfl⟩

theorem State.Alike.wr (s : State) (a : Nat) (v : Word) : s.Alike (s.wr a v) := ⟨rfl, rfl, rfl, rfl, rfl, rfl, rfl, rfl⟩

theorem State.Alike.foldl {α : Type} (f : State → α → State) (l : List α) (hf : ∀ t x, State.Alike t (f t x)) (s : State) :
    s.Alike (l.foldl f s) := by
  induction l generalizing s with
  | nil => exact .refl s
  | cons x l ih => exact (hf s x).trans (ih _)

theorem State.Alike.sameUnits (h : s.Alike t) : s.SameUnits t :=
  ⟨h.efx, h.fuses, h.position, fun p => by rw [State.resetOf, State.resetOf, h.resets]⟩

theorem State.Alike.merges (h : s.Alike t) (u : ResetUnit) : t.merges u = s.merges u := merges_congr h.sameUnits h.resets u

/-- What a request leaves in a state like this one, it leaves in this one. -/
theorem State.Starts.of_alike (h : s.Alike s') (ht : s'.Starts t us) : s.Starts t us where
  mem := ht.mem.trans h.mem
  tiles := ht.tiles.trans h.tiles
  nor := ht.nor.trans h.nor
  fresh hr := (ht.fresh (h.resets.trans hr)).trans
    (List.map_congr_left fun u _ => newRun_congr h.efx h.fuses h.position h.tick u false)
  holds u hu := by
    obtain ⟨r, hr, hw⟩ := ht.holds u hu
    exact ⟨r, hr, (within_congr h.sameUnits u _).symm.trans hw⟩
  keeps r hr := (ht.keeps r (h.resets.symm ▸ hr)).imp id fun ⟨u, hu, hw⟩ => ⟨u, hu, (within_congr h.sameUnits _ u).symm.trans hw⟩
  idle u hu hm k hk hc := ht.idle u hu ((h.merges u).trans hm) k hk ((covers_congr h.sameUnits u k).trans hc)

/-- A write of a register other than the contexts' comes before. -/
theorem State.Drains.of_wr {a : Nat} {w : Word} (ha : ∀ p, p < 64 → a ≠ aCtx p 8) (ht : (s.wr a w).Drains t us) : s.Drains t us :=
  fun p hp hs ⟨u, hu, hm, hc⟩ => by
    have hal := State.Alike.wr s a w
    refine ht p hp ?_ ⟨u, hu, (hal.merges u).trans hm, ?_⟩
    · rwa [State.ctxState, State.fld, State.rd_wr_ne s w (ha p hp).symm]
    · rwa [funext (covers_congr hal.sameUnits u)]

/-! ## `GLY_RESET` (R422, R427) -/

/-- Core `c` of galley `g` of die `d`. -/
def coreOf (d : Fin 64) (g : Fin 4) (c : Fin 18) : CoreId := ⟨d, ⟨g.val * 18 + c.val, by omega⟩⟩

/-- The cores of the galley that a word asks for. -/
def askedCores (d : Fin 64) (g : Fin 4) (v : Word) : List CoreId :=
  ((List.finRange 18).filter fun c => v.getLsbD c.val).map (coreOf d g)

theorem nodup_askedCores (d : Fin 64) (g : Fin 4) (v : Word) : (askedCores d g v).Nodup := by
  refine .map (fun c c' h => ?_) ((List.nodup_finRange 18).filter _)
  have := congrArg (fun x : CoreId => x.flat.val) h
  simp only [coreOf] at this
  omega

theorem getF_cores_eq_zero {v : Word} (h : (List.finRange 18).filter (fun c => v.getLsbD c.val) = []) : getF v 0 18 = 0 := by
  apply Nat.eq_of_testBit_eq
  intro i
  rw [getF, testBit_bits, Nat.zero_testBit]
  by_cases hi : i < 18
  · have := List.filter_eq_nil_iff.mp h ⟨i, hi⟩ (List.mem_finRange _)
    simpa [hi, BitVec.getLsbD] using this
  · simp [hi]

theorem getF_cores_ne_zero {v : Word} (h : (List.finRange 18).filter (fun c => v.getLsbD c.val) ≠ []) : getF v 0 18 ≠ 0 := by
  obtain ⟨c, hc⟩ := List.exists_mem_of_ne_nil _ h
  have hbit : (getF v 0 18).testBit c.val = true := by
    rw [getF, testBit_bits]
    simpa [BitVec.getLsbD] using (List.mem_filter.mp hc).2
  exact fun h0 => absurd (h0 ▸ hbit) (by rw [Nat.zero_testBit]; exact Bool.false_ne_true)

/-- The register with the bits of a write set. -/
def State.glyAsk (s : State) (d : Fin 64) (g : Fin 4) (v : Word) : State :=
  s.wr (aGly d.val g.val 0) (s.rd (aGly d.val g.val 0) ||| (v &&& maskF 0 19))

theorem glyReset_eq (s : State) (d : Fin 64) (g : Fin 4) (v : Word) : s.glyReset d g v =
    (if v.getLsbD 18 = true then (s.glyAsk d g v).startReset (.galley d g) false else s.glyAsk d g v).startCores (askedCores d g v) := by
  rw [State.startCores, askedCores, List.foldl_map, List.foldl_filter, State.glyReset]
  simp only [getF_one_eq]
  rfl

theorem aGly_stopFree (d g : Nat) : StopFree (· = aGly d g 0) where
  ctx p hp h := by simp only [aGly, folioBase, aCtx] at h; omega
  gly d' g' h := by simp only [aGly, folioBase] at h; omega

theorem glyAsk_alike (s : State) (d : Fin 64) (g : Fin 4) (v : Word) : s.Alike (s.glyAsk d g v) := .wr ..

theorem rd_glyAsk (s : State) (d : Fin 64) (g : Fin 4) (v : Word) :
    (s.glyAsk d g v).rd (aGly d.val g.val 0) = s.rd (aGly d.val g.val 0) ||| (v &&& 0x7FFFF) := by
  have hmask : maskF 0 19 = 0x7FFFF := by decide
  rw [State.glyAsk, State.rd_wr, hmask]

theorem State.Drains.of_glyAsk {d : Fin 64} {g : Fin 4} {w : Word} (h : (s.glyAsk d g w).Drains t us) : s.Drains t us :=
  .of_wr (fun _ hp => aGly_ne_aCtx hp) h

/-- R422: resets of the cores that the word names start. -/
theorem glyReset_cores (s : State) (d : Fin 64) (g : Fin 4) {v : Word} (h : v.getLsbD 18 = false) :
    let us := (askedCores d g v).map ResetUnit.core
    s.Starts (s.glyReset d g v) us ∧ s.Drains (s.glyReset d g v) us ∧
      (s.glyReset d g v).rd (aGly d.val g.val 0) = s.rd (aGly d.val g.val 0) ||| (v &&& 0x7FFFF) := by
  have hn := nodup_askedCores d g v
  have he : s.glyReset d g v = (s.glyAsk d g v).startCores (askedCores d g v) := by
    rw [glyReset_eq, h, if_neg Bool.false_ne_true]
  rw [he]
  exact ⟨.of_alike (glyAsk_alike s d g v) (startCores_starts hn), .of_glyAsk (startCores_drains hn),
    ((startCores_stops (aGly_stopFree _ _) _ _).rd _ rfl).trans (rd_glyAsk s d g v)⟩

theorem startCores_merged {cs : List CoreId} (h : ∀ c ∈ cs, s.merges (.core c) = true) : s.startCores cs = s := by
  induction cs with
  | nil => rfl
  | cons c cs ih =>
    have hstep : s.startCores (c :: cs) = (s.startReset (.core c) false).startCores cs := rfl
    rw [hstep, startReset_merges (h c List.mem_cons_self)]
    exact ih fun x hx => h x (List.mem_cons_of_mem _ hx)

/-- R426: once the galley is under reset, requests for its cores add nothing. -/
theorem startCores_galley (s : State) (d : Fin 64) (g : Fin 4) (v : Word) :
    (s.startReset (.galley d g) false).startCores (askedCores d g v) = s.startReset (.galley d g) false := by
  have hmer : ∀ c ∈ askedCores d g v, (s.startReset (.galley d g) false).merges (.core c) = true := fun c hc => by
    obtain ⟨i, -, rfl⟩ := List.mem_map.mp hc
    have hg : (coreOf d g i).flat.val / 18 = g.val := by simp only [coreOf]; omega
    cases h : s.merges (.galley d g) with
    | true =>
      rw [startReset_merges h]
      obtain ⟨r, hr, hw⟩ := exists_within_of_merges h
      refine List.any_eq_true.mpr ⟨r, hr, ?_⟩
      have hne : r.unit ≠ .core (coreOf d g i) := fun he => by
        rw [he] at hw
        exact ResetUnit.noConfusion (within_core hw)
      rw [within_core_of_galley rfl hg hw, decide_eq_false hne, Bool.and_false]
      rfl
    | false =>
      refine List.any_eq_true.mpr ⟨s.newRun (.galley d g) false, ?_, ?_⟩
      · rw [startReset_resets h]
        exact List.mem_append_right _ (List.mem_singleton_self _)
      · have hw := within_core_of_galley (s := s.startReset (.galley d g) false) (c := coreOf d g i) rfl hg (within_refl _ (.galley d g))
        have hu : (s.newRun (.galley d g) false).unit = .galley d g := rfl
        rw [hu, hw]
        rfl
  exact startCores_merged hmer

/-- R422: the reset of the whole galley starts. -/
theorem glyReset_galley (s : State) (d : Fin 64) (g : Fin 4) {v : Word} (h : v.getLsbD 18 = true) :
    s.Starts (s.glyReset d g v) [.galley d g] ∧ s.Drains (s.glyReset d g v) [.galley d g] ∧
      (s.glyReset d g v).rd (aGly d.val g.val 0) = s.rd (aGly d.val g.val 0) ||| (v &&& 0x7FFFF) := by
  have he : s.glyReset d g v = (s.glyAsk d g v).startReset (.galley d g) false := by
    rw [glyReset_eq, h, if_pos rfl, startCores_galley]
  rw [he]
  exact ⟨.of_alike (glyAsk_alike s d g v) (startReset_starts _ _), .of_glyAsk (startReset_drains rfl),
    ((startReset_stops (aGly_stopFree _ _) _ _ _).rd _ rfl).trans (rd_glyAsk s d g v)⟩

theorem exec_glyResetCores (who : Accessor) (d : Fin 64) (g : Fin 4) (v : Word) (s : State) : exec (.glyResetCores who d g v) s =
    .next (if s.mayWrite who (aGly d.val g.val 0) && getF v 0 18 ≠ 0 then s.glyReset d g v else s) := rfl

theorem exec_glyResetGalley (who : Accessor) (d : Fin 64) (g : Fin 4) (v : Word) (s : State) : exec (.glyResetGalley who d g v) s =
    .next (if s.mayWrite who (aGly d.val g.val 0) && getF v 18 1 = 1 then s.glyReset d g v else s) := rfl

/-! ## `PKG_PART_RESET` and `PKG_RESET` (R422) -/

theorem exec_pkgPartReset (who : Accessor) (p : Fin 64) (v : Word) (s : State) :
    exec (.pkgPartReset who p v) s = .next (if s.mayWrite who (aPartReset p.val) then s.partReset p v else s) := rfl

/-- The register with the request's bit set. -/
def State.partAsk (s : State) (p : Fin 64) : State := s.setFld (aPartReset p.val) 0 1 1

theorem partReset_eq (s : State) (p : Fin 64) (v : Word) :
    s.partReset p v = if v.getLsbD 0 = true then (s.partAsk p).startReset (.partition p) false else s := by
  rw [State.partReset]
  simp only [getF_one_eq]
  rfl

theorem aPartReset_stopFree (p : Fin 64) : StopFree (· = aPartReset p.val) where
  ctx q hq h := by simp only [aPartReset, aCtx] at h; omega
  gly d g h := by simp only [aPartReset, aGly, folioBase] at h; omega

theorem partAsk_alike (s : State) (p : Fin 64) : s.Alike (s.partAsk p) := .wr ..

/-- R422: the reset of the partition starts, and a load of its part ends. -/
theorem partReset_starts (s : State) (p : Fin 64) {v : Word} (h : v.getLsbD 0 = true) :
    s.Starts (s.partReset p v) [.partition p] ∧ (s.partReset p v).fld (aPartReset p.val) 0 1 = 1 ∧
      (s.merges (.partition p) = true → s.partReset p v = { s with ctl := (s.partReset p v).ctl }) ∧
      (s.merges (.partition p) = false → ((s.partReset p v).part p.val).load = none) := by
  have hal := partAsk_alike s p
  rw [partReset_eq, if_pos h]
  refine ⟨.of_alike hal (startReset_starts _ _), ?_, fun hm => ?_, fun hm => ?_⟩
  · rw [State.fld, (startReset_stops (aPartReset_stopFree p) _ _ _).rd _ rfl]
    exact fld_setFld _ _ _ _ _ (by norm_num)
  · rw [startReset_merges ((hal.merges _).trans hm)]
    rfl
  · exact startReset_load ((hal.merges _).trans hm) rfl (List.mem_singleton_self _)

theorem exec_pkgReset (who : Accessor) (v : Word) (s : State) :
    exec (.pkgReset who v) s = .next (if s.mayWrite who aPkgReset then s.pkgReset v else s) := rfl

theorem State.Alike.modPport (s : State) (b : Nat) (f : PPort → PPort) : s.Alike (s.modPport b f) :=
  ⟨rfl, rfl, rfl, rfl, rfl, rfl, rfl, rfl⟩

theorem State.Alike.withHost (s : State) (i : Tbl RingIrq) (d : List Deliver) (x : List FabAccess) (c : Tbl Word) :
    s.Alike { s with irqs := i, delivers := d, aperture := x, ctl := c } := ⟨rfl, rfl, rfl, rfl, rfl, rfl, rfl, rfl⟩

theorem clearFn_alike (s : State) (b f : Nat) : s.Alike (s.clearFn b f) := by
  unfold State.clearFn
  extract_lets p mine s1 s2
  have h1 : s.Alike s1 := .foldl _ _ (fun t c => .modPport t c _) s
  have h2 : s1.Alike s2 := .modPport s1 b _
  exact (h1.trans h2).trans (.withHost s2 _ _ _ _)

/-- Every function of both ports reset. -/
def State.clearFns (s : State) : State := [0, 1].foldl (fun s b => (List.range 64).foldl (fun s f => s.clearFn b f) s) s

theorem clearFns_alike (s : State) : s.Alike s.clearFns := .foldl _ _ (fun t b => .foldl _ _ (fun t f => clearFn_alike t b f) t) s

theorem getF_low32 (v : Word) : getF v 0 32 = v.toNat % 2 ^ 32 := by
  rw [getF, bits_eq, Nat.pow_zero, Nat.div_one]

theorem pkgReset_eq (s : State) (v : Word) :
    s.pkgReset v = if v.toNat % 2 ^ 32 = 0x4A585253 then s.clearFns.startReset .package false else s := by
  rw [State.pkgReset, getF_low32]
  rfl

/-- A reset of the package takes every other over (R426). -/
theorem startReset_package (h : ∀ r ∈ s.resets, r.unit ≠ .package) : (s.startReset .package false).resets = [s.newRun .package false] := by
  have hm : s.merges .package = false := merges_eq_false.mpr fun r hr hw => absurd (within_package_iff.mp hw) (h r hr)
  have hnil : s.resets.filter (fun r => !s.within r.unit .package) = [] :=
    List.filter_eq_nil_iff.mpr fun r _ => by rw [within_package]; exact Bool.false_ne_true
  rw [startReset_resets hm, State.resetsWith, hnil, List.nil_append]

theorem pkgReset_starts (s : State) {v : Word} (h : v.toNat % 2 ^ 32 = 0x4A585253) :
    s.Starts (s.pkgReset v) [.package] ∧
      ((∀ r ∈ s.resets, r.unit ≠ .package) → (s.pkgReset v).resets = [s.newRun .package false]) := by
  have hal := clearFns_alike s
  rw [pkgReset_eq, if_pos h]
  refine ⟨.of_alike hal (startReset_starts _ _), fun hr => ?_⟩
  rw [startReset_package (hal.resets.symm ▸ hr), newRun_congr hal.efx hal.fuses hal.position hal.tick]

/-! ## The drain (R423) -/

theorem exec_resetDrainComplete (u : ResetUnit) (s : State) : exec (.resetDrainComplete u) s = .next (s.drainEnds u) := rfl

/-- The resets in progress with unit `u` drained. -/
def drainedIn (l : List ResetRun) (u : ResetUnit) : List ResetRun := l.map fun x => if x.unit = u then { x with drained := true } else x

theorem find?_drainedIn {l : List ResetRun} {r : ResetRun} (h : l.find? (fun x => x.unit = u) = some r) :
    (drainedIn l u).find? (fun x => x.unit = u) = some { r with drained := true } := by
  have hf : (fun x : ResetRun => decide ((if x.unit = u then { x with drained := true } else x : ResetRun).unit = u)) =
      fun x => decide (x.unit = u) := by
    funext x
    split <;> rfl
  have hr : r.unit = u := by simpa using List.find?_some h
  rw [drainedIn, List.find?_map]
  unfold Function.comp
  rw [hf, h, Option.map_some, if_pos hr]

/-- R423: the drain ends once every packet that left the unit has been answered. -/
theorem drainEnds_spec {r : ResetRun} (hpow : s.powered = true) (h : s.resetOf u = some r) (hr : r.drained = false) :
    s.drainEnds u = { s with resets := (s.drainEnds u).resets } ∧
      (s.drainEnds u).resetOf u = some (if s.drained u = true then { r with drained := true } else r) := by
  unfold State.drainEnds
  rw [h]
  dsimp only
  cases hd : s.drained u with
  | true =>
    rw [if_pos ⟨hpow, rfl, hr⟩, if_pos rfl]
    exact ⟨rfl, find?_drainedIn h⟩
  | false =>
    rw [if_neg (fun hc => Bool.false_ne_true hc.2.1), if_neg Bool.false_ne_true]
    exact ⟨rfl, h⟩

theorem drainEnds_none (h : s.resetOf u = none) : s.drainEnds u = s := by
  unfold State.drainEnds
  rw [h]

theorem drainEnds_again {r : ResetRun} (h : s.resetOf u = some r) (hr : r.drained = true) : s.drainEnds u = s := by
  unfold State.drainEnds
  rw [h]
  dsimp only
  rw [if_neg (fun hc => by rw [hr] at hc; exact Bool.noConfusion hc.2.2)]

/-- What the two commands of `GLY_RESET` do. -/
theorem exec_glyReset_spec (who : Accessor) (die : Fin 64) (g : Fin 4) (v : Word) (s : State) :
    let a := aGly die.val g.val 0
    let asked := (List.finRange 18).filter fun c => v.getLsbD c.val
    let cores := (askedCores die g v).map ResetUnit.core
    (s.mayWrite who a = true →
      (v.getLsbD 18 = false → asked ≠ [] → ∃ t, exec (.glyResetCores who die g v) s = .next t ∧ s.Starts t cores ∧ s.Drains t cores ∧
        t.rd a = s.rd a ||| (v &&& 0x7FFFF)) ∧
      (v.getLsbD 18 = true → ∃ t, exec (.glyResetGalley who die g v) s = .next t ∧ s.Starts t [.galley die g] ∧
        s.Drains t [.galley die g] ∧ t.rd a = s.rd a ||| (v &&& 0x7FFFF)) ∧
      (asked = [] → exec (.glyResetCores who die g v) s = .next s) ∧
      (v.getLsbD 18 = false → exec (.glyResetGalley who die g v) s = .next s)) ∧
    (s.mayWrite who a = false → exec (.glyResetCores who die g v) s = .next s ∧ exec (.glyResetGalley who die g v) s = .next s) := by
  intro a asked cores
  refine ⟨fun hw => ⟨fun h18 hne => ?_, fun h18 => ?_, fun hnil => ?_, fun h18 => ?_⟩, fun hw => ⟨?_, ?_⟩⟩
  · refine ⟨s.glyReset die g v, ?_, glyReset_cores s die g h18⟩
    rw [exec_glyResetCores, hw, decide_eq_true (getF_cores_ne_zero hne)]
    rfl
  · refine ⟨s.glyReset die g v, ?_, glyReset_galley s die g h18⟩
    rw [exec_glyResetGalley, hw, decide_eq_true ((getF_one_eq v 18).mpr h18)]
    rfl
  · rw [exec_glyResetCores, getF_cores_eq_zero hnil]
    simp
  · rw [exec_glyResetGalley, getF_one, h18]
    simp
  · rw [exec_glyResetCores, hw]
    rfl
  · rw [exec_glyResetGalley, hw]
    rfl

end Sys2Proof.Machine
end

