-- ==== Sys2Proof/Proofs/ResetClearing.lean ====
section
/-! PROOFS. Phase 4 of a reset: what of a unit is cleared (R12, R422 to R424). -/

namespace Sys2Proof.Machine

variable {P : Nat → Prop} {s t : State} {u : ResetUnit}

/-! ## Tables of which entries are dropped -/

/-- An entry whose key `q` accepts reads as before. -/
theorem Tbl.get_filter_keep {α : Type} (d : α) {q : Nat × α → Bool} {k : Nat} (h : ∀ v, q (k, v) = true) (t : Tbl α) :
    Tbl.get d (t.filter q) k = Tbl.get d t k := by
  induction t with
  | nil => rfl
  | cons e t ih =>
    obtain ⟨k', v⟩ := e
    by_cases hk : k' = k
    · subst hk
      rw [List.filter_cons_of_pos (h v), Tbl.get, Tbl.get, if_pos rfl, if_pos rfl]
    · cases hq : q (k', v) with
      | true => rw [List.filter_cons_of_pos hq, Tbl.get, Tbl.get, if_neg hk, if_neg hk, ih]
      | false => rw [List.filter_cons_of_neg (by rw [hq]; exact Bool.false_ne_true), Tbl.get, if_neg hk, ih]

/-- One whose key it refuses reads as unlisted. -/
theorem Tbl.get_filter_drop {α : Type} (d : α) {q : Nat × α → Bool} {k : Nat} (h : ∀ v, q (k, v) = false) (t : Tbl α) :
    Tbl.get d (t.filter q) k = d := by
  induction t with
  | nil => rfl
  | cons e t ih =>
    obtain ⟨k', v⟩ := e
    cases hq : q (k', v) with
    | false => rw [List.filter_cons_of_neg (by rw [hq]; exact Bool.false_ne_true), ih]
    | true =>
      have hk : k' ≠ k := fun hk => by rw [hk, h] at hq; exact Bool.false_ne_true hq
      rw [List.filter_cons_of_pos hq, Tbl.get, if_neg hk, ih]

/-- A table of words reads at a key 0, or as an entry of that key. -/
theorem Tbl.get_and_eq_zero {t : Tbl Word} {a : Nat} {m : Word} (h : ∀ e ∈ t, e.1 = a → e.2 &&& m = 0) : Tbl.get 0 t a &&& m = 0 := by
  induction t with
  | nil => exact BitVec.zero_and
  | cons e t ih =>
    obtain ⟨k, v⟩ := e
    rw [Tbl.get]
    split
    · next hk => exact h (k, v) List.mem_cons_self hk
    · exact ih fun e he => h e (List.mem_cons_of_mem _ he)

/-- R12: of a register that `p` accepts, the bits that a reset of the level clears read 0. -/
theorem clearRegs_and_levelMask (l : Level) {p : Nat → Bool} {a : Nat} (h : p a = true) (t : Tbl Word) :
    Tbl.get 0 (clearRegs l p t) a &&& levelMask l (regFlds a) = 0 := by
  refine Tbl.get_and_eq_zero fun e he hk => ?_
  obtain ⟨⟨k, v⟩, -, rfl⟩ := List.mem_map.mp (List.mem_of_mem_filter he)
  by_cases hp : p k = true
  · simp only [hp, if_true] at hk ⊢
    rw [hk, BitVec.and_assoc, BitVec.and_comm (~~~_), BitVec.and_not_self]
    exact BitVec.and_zero
  · simp only [hp, Bool.false_eq_true, if_false] at hk
    exact absurd (hk ▸ h) hp

/-! ## Cores -/

theorem core_foldl_modCore (f : Core → Core) {l : List Nat} (hl : l.Nodup) (s : State) (k : Nat) :
    (l.foldl (fun s k => s.modCore k f) s).core k = if k ∈ l then f (s.core k) else s.core k := by
  induction l generalizing s with
  | nil => rfl
  | cons x l ih =>
    obtain ⟨hx, hl⟩ := List.nodup_cons.mp hl
    rw [List.foldl_cons, ih hl]
    by_cases hk : k = x
    · subst hk
      rw [if_neg hx, if_pos List.mem_cons_self, State.core_modCore]
    · simp only [List.mem_cons, hk, false_or, State.core_modCore_ne s f hk]

theorem nodup_unitKeys (s : State) (u : ResetUnit) : (s.unitKeys u).Nodup := by
  cases u with
  | core c => exact List.nodup_singleton _
  | galley d g => rw [unitKeys_galley]; exact List.nodup_range.map fun _ _ h => Nat.add_left_cancel h
  | partition p => rw [unitKeys_wide s rfl]; exact List.nodup_range.filter _
  | package => rw [unitKeys_wide s rfl]; exact List.nodup_range.filter _

theorem lt_of_mem_unitKeys {k : Nat} (h : k ∈ s.unitKeys u) : k < 4608 := by
  cases u with
  | core c =>
    have hd := c.die.isLt
    have hf := c.flat.isLt
    rw [unitKeys_core, List.mem_singleton, kOf] at h
    omega
  | galley d g =>
    have hd := d.isLt
    have hg := g.isLt
    rw [unitKeys_galley, List.mem_map] at h
    obtain ⟨i, hi, rfl⟩ := h
    rw [List.mem_range] at hi
    omega
  | partition p => rw [unitKeys_wide s rfl, List.mem_filter] at h; exact List.mem_range.mp h.1
  | package => rw [unitKeys_wide s rfl, List.mem_filter] at h; exact List.mem_range.mp h.1

theorem not_mem_unitKeys {k : Nat} (h : s.covers u k = false) : k ∉ s.unitKeys u := fun hk => by
  rw [(mem_unitKeys (lt_of_mem_unitKeys hk)).mp hk] at h
  exact Bool.noConfusion h

/-! ## What the clearing leaves -/

/-- Slots and registers apart, all of the state. -/
def State.SlotFrame (s t : State) : Prop := t = { s with slots := t.slots, ctl := t.ctl }

theorem State.SlotFrame.trans {s t u : State} (h1 : s.SlotFrame t) (h2 : t.SlotFrame u) : s.SlotFrame u := Eq.trans h2 (by rw [h1])

theorem State.SlotFrame.foldl {α : Type} (f : State → α → State) (hf : ∀ t x, State.SlotFrame t (f t x)) (l : List α) (s : State) :
    s.SlotFrame (l.foldl f s) := by
  induction l generalizing s with
  | nil => rfl
  | cons x l ih => exact (hf s x).trans (ih _)

theorem closeCircs_frame (s : State) (k : Nat) (wide : Bool) : s.SlotFrame (s.closeCircs k wide) := by
  refine .foldl _ (fun t n => ?_) _ s
  split <;> rfl

/-- The state with the circuits of unit `u` closed. -/
def State.closed (s : State) (u : ResetUnit) : State := (s.unitKeys u).foldl (fun s k => s.closeCircs k (unitWide u)) s

theorem closed_frame (s : State) (u : ResetUnit) : s.SlotFrame (s.closed u) := .foldl _ (fun t k => closeCircs_frame t k _) _ s

theorem closed_sameUnits (s : State) (u : ResetUnit) : s.SameUnits (s.closed u) := by
  have h := closed_frame s u
  exact ⟨by rw [h], by rw [h], by rw [h], fun p => by rw [State.resetOf, h]; rfl⟩

/-- Its registers, tiles, poison and memories cleared too. -/
def State.wiped (s : State) (u : ResetUnit) : State :=
  { s.closed u with
    ctl := clearRegs (unitLevel u) ((s.closed u).regIn u) (s.closed u).ctl
    tiles := s.tiles.filter fun e => !decide (e.1 / 65536 ∈ s.unitKeys u)
    poison := s.poison.filter fun e => !(decide (e.1 / 2 ^ 30 ∈ s.unitKeys u) && (unitWide u || e.1 % 4 = 3))
    mem := if unitWide u then s.mem.filter fun e => !memIn (fun k => k ∈ s.unitKeys u) (u = ResetUnit.package) e.1 else s.mem }

/-- Its cores cleared too. -/
def State.coresCleared (s : State) (u : ResetUnit) : State :=
  (s.unitKeys u).foldl (fun s k => s.modCore k Core.cleared) (s.wiped u)

/-- What the ports held for commands of the unit is nobody's. -/
def State.portsForget (s : State) (inU : Nat → Bool) : State :=
  [0, 1].foldl (fun (s : State) b => s.modPport b fun p => p.forget inU) s.pruneLines

/-- Buffers and trace memories of the package. -/
def State.clearBuffers (s : State) : State :=
  let s := [0, 1].foldl (fun (s : State) b => s.modPport b fun p => { p with buf := [], queued := [], retained := [] }) s
  (List.range 64).foldl (fun (s : State) d => s.modDie d fun b => { b with traceOn := false, trace := [], traceTaken := 0 }) s

/-- The parts of a wide unit cleared. -/
def State.partsCleared (s : State) (u : ResetUnit) : State :=
  (unitParts u).foldl State.clearPart ((s.coresCleared u).portsForget fun k => k ∈ s.unitKeys u)

theorem clearUnit_eq (s : State) (u : ResetUnit) :
    s.clearUnit u = if u = .package then (s.partsCleared u).clearBuffers else s.partsCleared u := by
  have hmem : (s.closed u).mem = s.mem := by rw [closed_frame s u]
  have htiles : (s.closed u).tiles = s.tiles := by rw [closed_frame s u]
  have hpoison : (s.closed u).poison = s.poison := by rw [closed_frame s u]
  unfold State.partsCleared State.coresCleared State.wiped
  rw [← hmem, ← htiles, ← hpoison]
  rfl

end Sys2Proof.Machine
end

