-- ==== Sys2Proof/Proofs/ResetCleared.lean ====
section
/-! PROOFS. How a unit that has been cleared reads (R12, R422 to R424). -/

namespace Sys2Proof.Machine

variable {P : Nat → Prop} {s t : State} {u : ResetUnit}

/-! ## After the registers, tiles and memories are cleared -/

theorem State.Keeps.fields {P : Nat → Prop} {s t : State} (hm : t.mem = s.mem) (ht : t.tiles = s.tiles) (hr : t.resets = s.resets)
    (hk : t.tick = s.tick) (hc : t.ctl = s.ctl) : s.Keeps P t := ⟨hm, ht, hr, hk, fun a _ => by rw [State.rd, hc]; rfl⟩

theorem portsForget_keeps (s : State) (inU : Nat → Bool) : s.Keeps P (s.portsForget inU) := .fields rfl rfl rfl rfl rfl

theorem clearBuffers_keeps (s : State) : s.Keeps P s.clearBuffers := by
  refine .trans (.foldl _ _ fun t b _ => .modPport (.refl t) b _) (.foldl _ _ fun t d _ => ?_)
  exact .fields (State.modDie_mem ..) (State.modDie_tiles ..) (State.modDie_resets ..) (State.modDie_tick ..) (State.modDie_ctl ..)

theorem clearPart_keeps (hP : ∀ a, P a → 0x4000 ≤ a) (s : State) {p : Nat} (hp : p < 64) : s.Keeps P (s.clearPart p) := by
  have hctx : ¬ P (aCtx p 0) := fun h => by
    have := hP _ h
    simp only [aCtx] at this
    omega
  unfold State.clearPart
  extract_lets late s1
  have h1 : s.Keeps P s1 := .fields rfl rfl rfl rfl rfl
  exact .ite (h1.setFld hctx _ _ _) h1

theorem lt_of_mem_unitParts {p : Nat} (h : p ∈ unitParts u) : p < 64 := by
  cases u with
  | core c => cases h
  | galley d g => cases h
  | partition q => rw [List.mem_singleton.mp h]; exact q.isLt
  | package => exact List.mem_range.mp h

theorem partsCleared_keeps (hP : ∀ a, P a → 0x4000 ≤ a) (s : State) (u : ResetUnit) : (s.wiped u).Keeps P (s.partsCleared u) :=
  .trans (.trans (.foldl _ _ fun t k _ => .modCore (.refl t) k _) (portsForget_keeps _ _))
    (.foldl _ _ fun t _ hp => clearPart_keeps hP t (lt_of_mem_unitParts hp))

theorem clearUnit_keeps (hP : ∀ a, P a → 0x4000 ≤ a) (s : State) (u : ResetUnit) : (s.wiped u).Keeps P (s.clearUnit u) := by
  rw [clearUnit_eq]
  exact .ite ((partsCleared_keeps hP s u).trans (clearBuffers_keeps _)) (partsCleared_keeps hP s u)

/-! ## Registers (R12) -/

theorem coreWinKey_aCoreK {k o : Nat} (hk : k < 4608) (ho : o < 0x2000) : coreWinKey (aCoreK k o) = some k := by
  have hd : keyDie k < 64 := by rw [keyDie]; omega
  have hf : keyFlat k < 72 := keyFlat_lt k
  have hk' : keyDie k * 72 + keyFlat k = k := by rw [keyDie, keyFlat]; omega
  obtain ⟨a, ha⟩ : ∃ a, a = aCoreK k o := ⟨_, rfl⟩
  rw [← ha]
  rw [aCoreK_eq] at ha
  have hlo : folioBase 0 = 0x1000000 := rfl
  have hhi : folioBase 64 = 0x5000000 := rfl
  unfold coreWinKey
  dsimp only
  rw [if_pos (by omega), Option.some.injEq]
  omega

theorem regIn_coreWin {a k : Nat} (h : coreWinKey a = some k) :
    s.regIn u a = (s.covers u k && !(decide (0xE00 ≤ a % 0x2000) && decide (a % 0x2000 < 0xE40))) := by
  unfold State.regIn
  rw [h]

theorem regIn_glyWin {d : Fin 64} {g : Fin 4} {a k : Nat} (h : coreWinKey a = none) (h' : glyWinKey a = some k) :
    s.regIn (.galley d g) a = s.covers (.galley d g) k := by
  unfold State.regIn
  rw [h, h']

theorem regIn_aCoreK {k o : Nat} (hk : k < 4608) (ho : o < 0xE00) (hc : s.covers u k = true) : s.regIn u (aCoreK k o) = true := by
  have hmod : aCoreK k o % 0x2000 = o := by rw [aCoreK_eq]; omega
  rw [regIn_coreWin (coreWinKey_aCoreK hk (by omega)), hc, hmod, decide_eq_false (by omega)]
  rfl

theorem levelMask_seed (u : ResetUnit) : levelMask (unitLevel u) (rowFlds coreRows 0x2C0) = BitVec.allOnes 64 := by
  cases u <;> exact (by decide : ∀ l ∈ [Level.core, .galley, .partition, .package],
    levelMask l (rowFlds coreRows 0x2C0) = BitVec.allOnes 64) _ (by simp [unitLevel])

theorem rd_wiped_seed {k : Nat} (hk : k < 4608) (hc : s.covers u k = true) : (s.wiped u).rd (aCoreK k 0x2C0) = 0 := by
  obtain ⟨c, rfl⟩ : ∃ c : CoreId, kOf c = k := ⟨⟨⟨k / 72, by omega⟩, ⟨k % 72, by omega⟩⟩, by simp only [kOf]; omega⟩
  have h := clearRegs_and_levelMask (unitLevel u)
    (regIn_aCoreK (o := 0x2C0) hk (by norm_num) ((covers_congr (closed_sameUnits s u) u _).trans hc)) (s.closed u).ctl
  rwa [regFlds_aCoreK c (by norm_num), levelMask_seed, BitVec.and_allOnes] at h

/-- Where the request register of a galley lies. -/
theorem aGly_fields (d : Fin 64) (g : Fin 4) : coreWinKey (aGly d.val g.val 0) = none ∧
    glyWinKey (aGly d.val g.val 0) = some (d.val * 72 + g.val * 18) ∧ regFlds (aGly d.val g.val 0) = rowFlds glyRows 0 := by
  have hd := d.isLt
  have hg := g.isLt
  obtain ⟨a, ha⟩ : ∃ a, a = aGly d.val g.val 0 := ⟨_, rfl⟩
  rw [← ha]
  simp only [aGly, folioBase] at ha
  have ho : a % 0x100000 % 0x1000 = 0 := by omega
  have hlo : folioBase 0 = 0x1000000 := rfl
  have hhi : folioBase 64 = 0x5000000 := rfl
  refine ⟨?_, ?_, ?_⟩
  · unfold coreWinKey
    dsimp only
    rw [if_neg (by omega)]
  · unfold glyWinKey
    dsimp only
    rw [if_pos (by omega), Option.some.injEq]
    omega
  · unfold regFlds
    dsimp only
    rw [if_neg (by omega), if_neg (by omega), if_neg (by omega), if_pos (by omega), if_neg (by omega), if_pos (by omega), ho]

theorem regIn_aGly (s : State) (d : Fin 64) (g : Fin 4) : s.regIn (.galley d g) (aGly d.val g.val 0) = true := by
  obtain ⟨hcore, hgly, -⟩ := aGly_fields d g
  have hcov : s.covers (.galley d g) (d.val * 72 + g.val * 18) = true := by
    rw [← mem_unitKeys (by omega), unitKeys_galley]
    exact List.mem_map.mpr ⟨0, List.mem_range.mpr (by norm_num), rfl⟩
  rw [regIn_glyWin hcore hgly, hcov]

theorem levelMask_request : ∀ i, i < 19 → (levelMask .galley (rowFlds glyRows 0)).getLsbD i = true := by decide

/-- R427: the request bits of a galley are cleared with it. -/
theorem fld_wiped_request (s : State) (d : Fin 64) (g : Fin 4) : (s.wiped (.galley d g)).fld (aGly d.val g.val 0) 0 19 = 0 := by
  have h := clearRegs_and_levelMask .galley (regIn_aGly (s.closed (.galley d g)) d g) (s.closed (.galley d g)).ctl
  rw [(aGly_fields d g).2.2] at h
  apply Nat.eq_of_testBit_eq
  intro i
  rw [State.fld, getF, testBit_bits, Nat.zero_testBit, Nat.zero_add]
  by_cases hi : i < 19
  · have hbit := congrArg (fun x : Word => x.getLsbD i) h
    simp only [BitVec.getLsbD_and, levelMask_request i hi, Bool.and_true] at hbit
    simp only [hi, decide_true, Bool.true_and]
    exact hbit.trans BitVec.getLsbD_zero
  · simp only [hi, decide_false, Bool.false_and]

/-! ## Tiles and memories -/

theorem tile_wiped {k i : Nat} (hk : k ∈ s.unitKeys u) (hi : i < 65536) : Tbl.get 0 (s.wiped u).tiles (k * 65536 + i) = 0 := by
  refine Tbl.get_filter_drop 0 (fun v => ?_) s.tiles
  have hkey : (k * 65536 + i) / 65536 = k := by omega
  simp [hkey, hk]

/-- The fields of the address of a core's memory. -/
theorem coreAddr_fields {k space off : Nat} (hk : k < 4608) (hspace : space < 3) (hoff : off < 2 ^ 26) :
    bits (coreAddr k space off) 28 5 ≠ 31 ∧ bits (coreAddr k space off) 26 2 ≠ 3 ∧ keyAt (coreAddr k space off) = k := by
  have hd : keyDie k < 64 := by rw [keyDie]; omega
  have hf : keyFlat k < 72 := keyFlat_lt k
  have hk' : keyDie k * 72 + keyFlat k = k := by rw [keyDie, keyFlat]; omega
  obtain ⟨g, hg⟩ : ∃ g, g = keyFlat k / 18 := ⟨_, rfl⟩
  obtain ⟨c, hcc⟩ : ∃ c, c = keyFlat k % 18 := ⟨_, rfl⟩
  have hc : c < 18 := by omega
  have hg4 : g < 4 := by omega
  obtain ⟨x, hx⟩ : ∃ x, x = coreAddr k space off := ⟨_, rfl⟩
  rw [← hx]
  rw [coreAddr, fabAddr, ← hg, ← hcc] at hx
  norm_num at hx hoff
  have h26 : x / 67108864 = keyDie k * 512 + g * 128 + c * 4 + space := by omega
  have h28 : x / 268435456 = keyDie k * 128 + g * 32 + c := by omega
  have h33 : x / 8589934592 = keyDie k * 4 + g := by rw [show 8589934592 = 268435456 * 32 from rfl, ← Nat.div_div_eq_div_mul, h28]; omega
  have h35 : x / 34359738368 = keyDie k := by rw [show 34359738368 = 8589934592 * 4 from rfl, ← Nat.div_div_eq_div_mul, h33]; omega
  simp only [keyAt, bits_eq, Nat.reducePow, h26, h28, h33, h35]
  clear hx h26 h28 h33 h35
  refine ⟨by omega, by omega, ?_⟩
  have hd' : keyDie k % 128 = keyDie k := by omega
  have hg' : (keyDie k * 4 + g) % 4 = g := by omega
  have hc' : (keyDie k * 128 + g * 32 + c) % 32 = c := by omega
  rw [hd', hg', hc']
  omega

theorem memIn_coreAddr {k space off : Nat} (hk : k < 4608) (hspace : space < 3) (hoff : off < 2 ^ 26) (inU : Nat → Bool) (stores : Bool) :
    memIn inU stores (coreAddr k space off) = inU k := by
  obtain ⟨hcore, hsp, hkey⟩ := coreAddr_fields hk hspace hoff
  rw [memIn, if_neg hcore, decide_eq_true hsp, hkey, Bool.true_and]

theorem memIn_storeAddr {d off : Nat} (hoff : off < 2 ^ 26) (inU : Nat → Bool) : memIn inU false (storeAddr d off) = false := by
  have hcore : bits (storeAddr d off) 28 5 = 31 := by simp only [bits_eq, storeAddr, fabAddr]; omega
  rw [memIn, if_pos hcore, Bool.false_and]

theorem mem_wiped_narrow (h : unitWide u = false) : (s.wiped u).mem = s.mem := by
  simp only [State.wiped, h, Bool.false_eq_true, if_false]

theorem mem_wiped_wide (h : unitWide u = true) : (s.wiped u).mem =
    s.mem.filter fun e => !memIn (fun k => k ∈ s.unitKeys u) (u = ResetUnit.package) e.1 := by
  simp only [State.wiped, h, if_true]

/-- R422: a wide reset writes the memories of its cores to zero. -/
theorem byte_wiped (h : unitWide u = true) {k space off : Nat} (hk : k ∈ s.unitKeys u) (hspace : space < 3) (hoff : off < 2 ^ 26) :
    (s.wiped u).byte (coreAddr k space off) = 0 := by
  rw [State.byte, mem_wiped_wide h]
  refine Tbl.get_filter_drop 0 (fun v => ?_) s.mem
  rw [memIn_coreAddr (lt_of_mem_unitKeys hk) hspace hoff, decide_eq_true hk]
  rfl

/-- Those of other cores keep every byte. -/
theorem byte_wiped_other (h : unitWide u = true) {k space off : Nat} (hk : k < 4608) (hc : k ∉ s.unitKeys u) (hspace : space < 3)
    (hoff : off < 2 ^ 26) : (s.wiped u).byte (coreAddr k space off) = s.byte (coreAddr k space off) := by
  rw [State.byte, mem_wiped_wide h]
  refine Tbl.get_filter_keep 0 (fun v => ?_) s.mem
  rw [memIn_coreAddr hk hspace hoff, decide_eq_false hc]
  rfl

/-- The program stores stay in a reset of a partition. -/
theorem byte_wiped_store (p : Fin 64) {d off : Nat} (hoff : off < 2 ^ 26) :
    (s.wiped (.partition p)).byte (storeAddr d off) = s.byte (storeAddr d off) := by
  rw [State.byte, mem_wiped_wide rfl]
  refine Tbl.get_filter_keep 0 (fun v => ?_) s.mem
  have hpkg : decide (ResetUnit.partition p = .package) = false := rfl
  rw [hpkg, memIn_storeAddr hoff]
  rfl

end Sys2Proof.Machine
end

