-- ==== Sys2Proof/Proofs/ResetReturn.lean ====
section
/-! PROOFS. Phase 5 of a reset: what a unit's return leaves as it is (R363 to R365, R381, R419, R421, R424). -/

namespace Sys2Proof.Machine

variable {P : Nat → Prop} {s t : State} {u : ResetUnit}

/-- The seeds of the cores' generators. -/
def SeedReg (a : Nat) : Prop := 0x1000000 ≤ a ∧ a % 0x2000 = 0x2C0

theorem seedReg_aCoreK (k : Nat) : SeedReg (aCoreK k 0x2C0) := by
  rw [SeedReg, aCoreK_eq]; omega

theorem SeedReg.ge {a : Nat} (h : SeedReg a) : 0x4000 ≤ a := by unfold SeedReg at h; omega

theorem not_seedReg_low {a : Nat} (h : a < 0x1000000) : ¬ SeedReg a := fun hs => by unfold SeedReg at hs; omega

theorem not_seedReg_aCirc {k n : Nat} (hn : n < 8) : ¬ SeedReg (aCirc k n) := fun hs => by
  rw [SeedReg, aCirc, aCoreK_eq] at hs; omega

theorem not_seedReg_aHub (d : Nat) : ¬ SeedReg (aHub d 0x508) := fun hs => by
  simp only [SeedReg, aHub, folioBase] at hs; omega

theorem not_seedReg_aFn (b : Nat) {f : Nat} (hf : f < 64) : ¬ SeedReg (aFn b f 0) := by
  refine not_seedReg_low ?_
  have hq : portQuoin b ≤ 2 := by unfold portQuoin; split <;> omega
  simp only [aFn, quoinBase]
  omega

/-! ## Records in force (R363 to R365, R381) -/

/-- Lists are installed: the parts are as they were too. -/
structure State.Installs (s t : State) : Prop extends State.Keeps SeedReg s t where
  parts : t.parts = s.parts

namespace State.Installs

theorem refl (s : State) : s.Installs s := ⟨.refl s, rfl⟩

theorem trans {u : State} (h : s.Installs t) (h' : t.Installs u) : s.Installs u := ⟨h.toKeeps.trans h'.toKeeps, h'.parts.trans h.parts⟩

theorem foldl {α : Type} (f : State → α → State) (l : List α) (hf : ∀ t, ∀ x ∈ l, State.Installs t (f t x)) (s : State) :
    s.Installs (l.foldl f s) := by
  induction l generalizing s with
  | nil => exact .refl s
  | cons x l ih => exact (hf s x List.mem_cons_self).trans (ih (fun t y hy => hf t y (List.mem_cons_of_mem _ hy)) _)

theorem wr {a : Nat} (ha : ¬ SeedReg a) (v : Word) (s : State) : s.Installs (s.wr a v) := ⟨.wr (.refl s) ha v, rfl⟩

theorem setFld {a : Nat} (ha : ¬ SeedReg a) (lo w x : Nat) (s : State) : s.Installs (s.setFld a lo w x) := .wr ha _ s

theorem modCore (k : Nat) (f : Core → Core) (s : State) : s.Installs (s.modCore k f) := ⟨.modCore (.refl s) k f, rfl⟩

theorem withSlots (s : State) (x : Tbl Nat) : s.Installs { s with slots := x } := ⟨.fields rfl rfl rfl rfl rfl, rfl⟩

end State.Installs

/-- R364: a record of an entry that is not installed stops no part. -/
theorem notInstalled_installs (s : State) (p die core : Nat) : s.Installs (s.notInstalled p die core) := by
  refine ⟨.raiseOpen (fun _ h => SeedReg.ge h) (.refl s) _, ?_⟩
  unfold State.notInstalled State.raiseOpen
  have hcls : ∀ t : State, ∀ x : ErrRec, x.cls ≠ 3 → (t.raise x).parts = t.parts := fun t x hx => by rw [raise_frame_lt t x hx]
  rw [hcls _ _ (by decide : (1 : Nat) ≠ 3)]
  rfl

theorem installAt_installs (s : State) (p : Nat) (e : List Byte) (f : Nat → Core → Core) : s.Installs (s.installAt p e f) := by
  unfold State.installAt
  dsimp only
  split
  · exact .modCore _ _ s
  · exact notInstalled_installs ..

theorem installLists_installs (s : State) (p : Nat) : s.Installs ((s.installHandles p).installPools p) :=
  .trans (.foldl _ _ (fun t _ _ => installAt_installs t p _ _) s) (.foldl _ _ (fun t _ _ => installAt_installs t p _ _) _)

theorem circFree_lt {k n : Nat} (h : s.circFree k = some n) : n < 8 := List.mem_range.mp (List.mem_of_find?_eq_some h)

theorem openPin_installs (s : State) (x : Pin) : s.Installs (s.openPin x) := by
  unfold State.openPin
  dsimp only
  split
  · exact .refl s
  · split
    · next n hn => exact .wr (not_seedReg_aCirc (circFree_lt hn)) _ s
    · exact .refl s

theorem takeSlots_installs (s : State) (h : Hop) (owner n : Nat) (order : List Nat) : s.Installs (s.takeSlots h owner n order) :=
  .foldl _ _ (fun t _ _ => .withSlots t _) s

theorem installPin_installs (s : State) (x : Pin) : s.Installs (s.installPin x) := by
  unfold State.installPin
  split
  · exact notInstalled_installs ..
  · exact .trans (.foldl _ _ (fun t h _ => takeSlots_installs t h _ _ _) s) (openPin_installs _ x)

theorem installPins_installs (s : State) (which : Nat → Bool) : s.Installs (s.installPins which) :=
  .trans (.foldl _ _ (fun t _ _ => .withSlots t _) s) (.foldl _ _ (fun t x _ => installPin_installs t x) _)

theorem installPart_installs (s : State) (p : Nat) : s.Installs (s.installPart p) :=
  (installLists_installs s p).trans (installPins_installs _ _)

theorem installAll_installs (s : State) : s.Installs s.installAll :=
  .trans (.foldl _ _ (fun t p _ => installLists_installs t p) s) (installPins_installs _ _)

theorem bindFns_installs (s : State) : s.Installs s.bindFns := by
  refine .foldl _ _ (fun t b _ => .foldl _ _ (fun t f hf => ?_) t) s
  have hfn := not_seedReg_aFn b (List.mem_range.mp hf)
  split
  · split
    · exact .refl t
    · exact ((State.Installs.setFld hfn _ _ _ _).trans (.setFld hfn _ _ _ _)).trans (.setFld hfn _ _ _ _)
  · split
    · exact .wr hfn _ t
    · exact .refl t

/-! ## What the power-on steps of a package reset find (R419, R421) -/

theorem State.Halts.keeps (h : s.Halts P t) : s.Keeps P t := ⟨h.mem, h.tiles, h.resets, h.tick, h.rd⟩

theorem logRepair_keeps (h : s.Keeps P t) (kind res : Nat) : s.Keeps P (t.logRepair kind res) :=
  h.trans (.fields rfl rfl rfl rfl rfl)

theorem countWindow_keeps (h : s.Keeps P t) (kind res : Nat) : s.Keeps P (t.countWindow kind res) :=
  h.trans (.fields rfl rfl rfl rfl rfl)

theorem haltCore_keeps (s : State) (k : Nat) : s.Keeps P (s.haltCore k) := (haltCore_halts P s k).keeps

theorem stopNamed_keeps (h : s.Keeps SeedReg t) (keys : List Nat) : s.Keeps SeedReg (t.stopNamed keys) := by
  refine h.trans (.foldl _ _ fun m p hp => ?_)
  split
  · exact .ite (.stopPart (fun _ h => SeedReg.ge h) (.refl m) (List.mem_range.mp hp)) (.refl m)
  · exact .refl m

theorem raiseOpen_keeps (h : s.Keeps SeedReg t) (r : ErrRec) : s.Keeps SeedReg (t.raiseOpen r) := h.raiseOpen (fun _ h => h.ge) r

theorem withFenced_keeps (s : State) (l : List Nat) : s.Keeps P { s with fenced := l } := .fields rfl rfl rfl rfl rfl

theorem fenceHops_keeps (s : State) (l : List Nat) : s.Keeps P (s.fenceHops l) := .fields rfl rfl rfl rfl rfl

theorem fenceCore_keeps (s : State) (k : Nat) : s.Keeps SeedReg (s.fenceCore k) := by
  unfold State.fenceCore
  split
  · exact .refl s
  · have h1 : s.Keeps SeedReg ((s.haltCore k).stopNamed [k]) := stopNamed_keeps (haltCore_keeps s k) [k]
    exact raiseOpen_keeps (logRepair_keeps (h1.trans (withFenced_keeps _ _)) 2 k) _

theorem fenceDie_keeps (s : State) (d : Nat) (hub : Bool) : s.Keeps SeedReg (s.fenceDie d hub) := by
  unfold State.fenceDie
  split
  · exact .refl s
  · have h1 : s.Keeps SeedReg ((dieKeys d).foldl State.haltCore s) := .foldl _ _ fun t k _ => haltCore_keeps t k
    have h2 := (stopNamed_keeps h1 (dieName d :: dieKeys d)).setFld (not_seedReg_aHub d) 29 1 1
    exact raiseOpen_keeps (logRepair_keeps (.ite (h2.trans (fenceHops_keeps _ _)) h2) 3 _) _

theorem spareRow_keeps (s : State) (res : Nat) : s.Keeps SeedReg (s.spareRow res).1 := by
  unfold State.spareRow
  dsimp only
  split
  · exact fenceCore_keeps ..
  · dsimp only
    exact raiseOpen_keeps (logRepair_keeps (.refl s) 0 res) _

/-- A fold that carries a state and something else. -/
theorem State.Keeps.foldl_fst {α β : Type} (f : State × β → α → State × β) (hf : ∀ a x, State.Keeps P a.1 (f a x).1) (l : List α)
    (a : State × β) : a.1.Keeps P (l.foldl f a).1 := by
  induction l generalizing a with
  | nil => exact .refl a.1
  | cons x l ih => exact (hf a x).trans (ih _)

/-- What a proof pass found in a galley: rows first, then cores. -/
theorem proofFailures_keeps (s : State) (die g : Nat) (r : ProofResult) : s.Keeps SeedReg (s.proofFailures die g r).1 := by
  unfold State.proofFailures
  extract_lets key cores
  refine (State.Keeps.foldl_fst _ (fun a x => ?_) _ (s, 0, [])).trans (.foldl _ _ fun t c _ => ?_)
  · exact (countWindow_keeps (.refl a.1) _ _).trans (spareRow_keeps _ _)
  · exact (countWindow_keeps (.refl t) _ _).trans (fenceCore_keeps _ _)

theorem not_seedReg_aFw : ¬ SeedReg (aFw 0x18) := not_seedReg_low (by decide)

theorem not_seedReg_aBoot : ¬ SeedReg aBoot := not_seedReg_low (by decide)

theorem broadcast_keeps (s : State) (x : BringUp) : s.Keeps SeedReg (s.broadcast x) := by
  unfold State.broadcast
  exact .wr (.foldl _ _ fun t d _ => fenceDie_keeps t d false) not_seedReg_aFw _

theorem proofAll_keeps (s : State) (x : BringUp) : s.Keeps SeedReg (s.proofAll x) := by
  unfold State.proofAll
  extract_lets was s1 s2
  have h1 : s.Keeps SeedReg s1 := .foldl _ _ fun t y _ => proofFailures_keeps t _ _ _
  have h2 : s1.Keeps SeedReg s2 := .foldl _ _ fun t d _ => (countWindow_keeps (.refl t) _ _).trans (fenceDie_keeps _ _ _)
  exact (h1.trans h2).setFld not_seedReg_aBoot _ _ _

end Sys2Proof.Machine
end

