-- ==== Sys2Proof/Proofs/Resets.lean ====
section
/-! PROOFS. A unit's return, and what O54 says of resets together. -/

namespace Sys2Proof.Machine

variable {s t : State} {u : ResetUnit} {r : ResetRun}

theorem exec_resetReturn (u : ResetUnit) (found : BringUp) (s : State) : exec (.resetReturn u found) s = .next (s.resetEnds u found) := rfl

/-- The unit cleared and no longer under reset. -/
def State.returned (s : State) (u : ResetUnit) : State :=
  let s := (s.clearUnit u).bitsDone u
  { s with resets := s.resets.filter fun x => x.unit ≠ u }

/-- What else its return brings. -/
def State.restored (s : State) (u : ResetUnit) (found : BringUp) : State :=
  match u with
  | .partition p => (s.installPart p.val).bindFns
  | .package => (((s.broadcast found).proofAll found).bindFns).installAll
  | _ => s

theorem resetEnds_eq {found : BringUp} (hpow : s.powered = true) (h : s.resetOf u = some r) (hd : r.drained = true) (hp : r.proof = false) :
    s.resetEnds u found = (s.returned u).restored u found := by
  unfold State.resetEnds
  rw [h]
  dsimp only
  rw [if_pos ⟨hpow, hd, hp⟩]
  cases u <;> rfl

/-- R423: a unit stays that has not drained, or whose proof pass runs. -/
theorem resetEnds_stays {found : BringUp}
    (h : s.powered = false ∨ s.resetOf u = none ∨ s.resetOf u = some r ∧ (r.drained = false ∨ r.proof = true)) :
    s.resetEnds u found = s := by
  unfold State.resetEnds
  split
  · next r' hr' =>
    refine if_neg fun ⟨hpow, hd, hp⟩ => ?_
    rcases h with h | h | ⟨h, h'⟩
    · rw [h] at hpow; exact Bool.false_ne_true hpow
    · rw [h] at hr'; cases hr'
    · rw [h, Option.some.injEq] at hr'
      subst hr'
      rcases h' with h' | h'
      · rw [h'] at hd; exact Bool.false_ne_true hd
      · rw [h'] at hp; exact Bool.false_ne_true hp.symm
  · rfl

/-! ## What every return leaves -/

/-- The unit is out of reset, and its seeds, tiles and memories are those of the cleared state. -/
structure State.Returned (s t : State) (u : ResetUnit) : Prop where
  resets : t.resets = s.resets.filter fun x => x.unit ≠ u
  tick : t.tick = s.tick
  mem : t.mem = (s.wiped u).mem
  tiles : t.tiles = (s.wiped u).tiles
  rd : ∀ a, SeedReg a → t.rd a = (s.wiped u).rd a

theorem State.Returned.keeps {t' : State} (h : s.Returned t u) (h' : t.Keeps SeedReg t') : s.Returned t' u :=
  ⟨h'.resets.trans h.resets, h'.tick.trans h.tick, h'.mem.trans h.mem, h'.tiles.trans h.tiles, fun a ha => (h'.rd a ha).trans (h.rd a ha)⟩

theorem not_seedReg_aGly (d g : Nat) : ¬ SeedReg (aGly d g 0) := fun hs => by
  simp only [SeedReg, aGly, folioBase] at hs; omega

theorem bitsDone_keeps (s : State) (u : ResetUnit) : s.Keeps SeedReg (s.bitsDone u) := by
  unfold State.bitsDone
  split
  · exact .setFld (.refl s) (not_seedReg_aGly _ _) _ _ _
  · exact .refl s

theorem wiped_resets (s : State) (u : ResetUnit) : (s.wiped u).resets = s.resets := by
  have h : (s.closed u).resets = s.resets := by rw [closed_frame s u]
  exact h

theorem wiped_tick (s : State) (u : ResetUnit) : (s.wiped u).tick = s.tick := by
  have h : (s.closed u).tick = s.tick := by rw [closed_frame s u]
  exact h

theorem cleared_keeps (s : State) (u : ResetUnit) : (s.wiped u).Keeps SeedReg ((s.clearUnit u).bitsDone u) :=
  (clearUnit_keeps (fun _ h => h.ge) s u).trans (bitsDone_keeps _ u)

theorem returned_returned (s : State) (u : ResetUnit) : s.Returned (s.returned u) u := by
  have h := cleared_keeps s u
  refine ⟨?_, h.tick.trans (wiped_tick s u), h.mem, h.tiles, h.rd⟩
  rw [← wiped_resets s u, ← h.resets]
  rfl

theorem restored_returned (s : State) (u : ResetUnit) (found : BringUp) : s.Returned ((s.returned u).restored u found) u := by
  have h := returned_returned s u
  cases u with
  | core c => exact h
  | galley d g => exact h
  | partition p => exact h.keeps ((installPart_installs _ _).trans (bindFns_installs _)).toKeeps
  | package =>
    exact h.keeps (((broadcast_keeps _ found).trans (proofAll_keeps _ found)).trans
      ((bindFns_installs _).trans (installAll_installs _)).toKeeps)

/-! ## A core or a galley (R424) -/

theorem unitParts_narrow (h : unitWide u = false) : unitParts u = [] := by
  cases u with
  | core c => rfl
  | galley d g => rfl
  | partition p => exact absurd h.symm Bool.false_ne_true
  | package => exact absurd h.symm Bool.false_ne_true

theorem clearUnit_narrow (h : unitWide u = false) :
    s.clearUnit u = (s.coresCleared u).portsForget fun k => k ∈ s.unitKeys u := by
  have hne : u ≠ .package := fun hu => by rw [hu] at h; exact Bool.false_ne_true h.symm
  rw [clearUnit_eq, if_neg hne, State.partsCleared, unitParts_narrow h, List.foldl_nil]

theorem portsForget_cores (s : State) (inU : Nat → Bool) : (s.portsForget inU).cores = s.cores := by
  have hport : ∀ (t : State) b f, (t.modPport b f).cores = t.cores := fun _ _ _ => rfl
  have hlines : s.pruneLines.cores = s.cores := rfl
  rw [State.portsForget, List.foldl_cons, List.foldl_cons, List.foldl_nil, hport, hport, hlines]

theorem core_congr (h : t.cores = s.cores) (k : Nat) : t.core k = s.core k := by rw [State.core, h, State.core]

theorem core_clearUnit (h : unitWide u = false) (k : Nat) :
    (s.clearUnit u).core k = if k ∈ s.unitKeys u then (s.core k).cleared else s.core k := by
  have hc : (s.closed u).cores = s.cores := by rw [closed_frame s u]
  have hw : (s.wiped u).cores = (s.closed u).cores := rfl
  rw [clearUnit_narrow h, core_congr (portsForget_cores ..), State.coresCleared, core_foldl_modCore _ (nodup_unitKeys s u),
    core_congr (hw.trans hc)]

theorem bitsDone_cores (s : State) (u : ResetUnit) : (s.bitsDone u).cores = s.cores := by
  unfold State.bitsDone
  split
  · exact State.setFld_cores ..
  · rfl

theorem core_returned (h : unitWide u = false) (k : Nat) :
    (s.returned u).core k = if k ∈ s.unitKeys u then (s.core k).cleared else s.core k := by
  have hr : (s.returned u).cores = ((s.clearUnit u).bitsDone u).cores := rfl
  rw [← core_clearUnit h, core_congr (hr.trans (bitsDone_cores _ u))]

theorem returned_rd (s : State) (u : ResetUnit) (a : Nat) : (s.returned u).rd a = ((s.clearUnit u).bitsDone u).rd a := rfl

theorem fld_returned_core (s : State) (c : CoreId) :
    (s.returned (.core c)).fld (aGly c.die.val (c.flat.val / 18) 0) (c.flat.val % 18) 1 = 0 := by
  have hlt : c.flat.val % 18 < 18 := Nat.mod_lt _ (by norm_num)
  rw [State.fld, returned_rd, State.bitsDone]
  exact fld_setFld _ _ _ _ _ (by omega)

theorem aGly_ge (d g : Nat) : 0x4000 ≤ aGly d g 0 := by simp only [aGly, folioBase]; omega

theorem fld_returned_galley (s : State) (d : Fin 64) (g : Fin 4) : (s.returned (.galley d g)).fld (aGly d.val g.val 0) 0 19 = 0 := by
  have h := (clearUnit_keeps (P := (0x4000 ≤ ·)) (fun _ h => h) s (.galley d g)).rd _ (aGly_ge d.val g.val)
  rw [State.fld, returned_rd, State.bitsDone, h]
  · exact fld_wiped_request s d g
  · exact fun _ => nofun

/-! ## A partition (R422) -/

theorem part_clearPart (s : State) (p : Nat) : (s.clearPart p).part p = Part.reset := by
  unfold State.clearPart
  extract_lets late s1
  have h1 : s1.part p = Part.reset := Tbl.get_set_self Part.reset s.parts p Part.reset
  split
  · exact h1
  · exact h1

theorem bitsDone_parts (s : State) (u : ResetUnit) : (s.bitsDone u).parts = s.parts := by
  unfold State.bitsDone
  split
  · exact State.setFld_parts ..
  · rfl

theorem returned_parts (s : State) (u : ResetUnit) : (s.returned u).parts = (s.clearUnit u).parts := by
  have hr : (s.returned u).parts = ((s.clearUnit u).bitsDone u).parts := rfl
  exact hr.trans (bitsDone_parts _ u)

theorem part_partsCleared (s : State) (p : Fin 64) : (s.partsCleared (.partition p)).part p.val = Part.reset := by
  have hu : unitParts (.partition p) = [p.val] := rfl
  rw [State.partsCleared, hu, List.foldl_cons, List.foldl_nil]
  exact part_clearPart _ _

theorem part_returned (s : State) (p : Fin 64) (found : BringUp) :
    ((s.returned (.partition p)).restored (.partition p) found).part p.val = Part.reset := by
  have hi : ((s.returned (.partition p)).restored (.partition p) found).parts = (s.returned (.partition p)).parts :=
    ((installPart_installs _ _).trans (bindFns_installs _)).parts
  have hne : ResetUnit.partition p ≠ .package := nofun
  have hc : (s.clearUnit (.partition p)).parts = (s.partsCleared (.partition p)).parts := by rw [clearUnit_eq, if_neg hne]
  rw [State.part, hi.trans ((returned_parts s _).trans hc), ← State.part]
  exact part_partsCleared s p

/-! ## The obligation -/

/-- R12, R422 to R424: what a return leaves, in every unit and in each kind. -/
theorem return_cleared (s : State) (u : ResetUnit) (found : BringUp) :
    let t := (s.returned u).restored u found
    t.resets = s.resets.filter (fun x => x.unit ≠ u) ∧ t.tick = s.tick ∧
      (∀ k, k < 4608 → s.covers u k = true → t.rd (aCoreK k 0x2C0) = 0 ∧ (∀ i, i < 65536 → Tbl.get 0 t.tiles (k * 65536 + i) = 0) ∧
        (unitWide u = false → t.core k = (s.core k).cleared) ∧
        (unitWide u = true → ∀ space off, space < 3 → off < 2 ^ 26 → t.byte (coreAddr k space off) = 0)) ∧
      (unitWide u = false → t.mem = s.mem ∧ ∀ k, s.covers u k = false → t.core k = s.core k) := by
  intro t
  have h : s.Returned t u := restored_returned s u found
  have hcore (hu : unitWide u = false) : ∀ k, t.core k = if k ∈ s.unitKeys u then (s.core k).cleared else s.core k := fun k => by
    have ht : t = s.returned u := by
      cases u with
      | core c => rfl
      | galley d g => rfl
      | partition p => exact absurd hu.symm Bool.false_ne_true
      | package => exact absurd hu.symm Bool.false_ne_true
    rw [ht]
    exact core_returned hu k
  refine ⟨h.resets, h.tick, fun k hk hc => ?_, fun hu => ⟨h.mem.trans (mem_wiped_narrow hu), fun k hc => ?_⟩⟩
  · have hmem : k ∈ s.unitKeys u := (mem_unitKeys hk).mpr hc
    refine ⟨(h.rd _ (seedReg_aCoreK k)).trans (rd_wiped_seed hk hc), fun i hi => ?_, fun hu => ?_, fun hu space off hs ho => ?_⟩
    · rw [h.tiles]
      exact tile_wiped hmem hi
    · rw [hcore hu, if_pos hmem]
    · rw [State.byte, h.mem]
      exact byte_wiped hu hmem hs ho
  · rw [hcore hu, if_neg (not_mem_unitKeys hc)]

/-- R422: memories outside a partition, and the program stores, stay. -/
theorem return_partition_memories (s : State) (p : Fin 64) (found : BringUp) :
    let t := (s.returned (.partition p)).restored (.partition p) found
    (∀ k space off, k < 4608 → s.covers (.partition p) k = false → space < 3 → off < 2 ^ 26 →
      t.byte (coreAddr k space off) = s.byte (coreAddr k space off)) ∧
    (∀ d off, d < 64 → off < 2 ^ 26 → t.byte (storeAddr d off) = s.byte (storeAddr d off)) := by
  intro t
  have h : t.mem = (s.wiped (.partition p)).mem := (restored_returned s (.partition p) found).mem
  refine ⟨fun k space off hk hc hs ho => ?_, fun d off _ ho => ?_⟩
  · rw [State.byte, h]
    exact byte_wiped_other rfl hk (not_mem_unitKeys hc) hs ho
  · rw [State.byte, h]
    exact byte_wiped_store p ho

theorem unitWide_narrow {c : CoreId} {d : Fin 64} {g : Fin 4} (h : u = .core c ∨ u = .galley d g) : unitWide u = false := by
  rcases h with rfl | rfl <;> rfl

theorem unitWide_wide {p : Fin 64} (h : u = .partition p ∨ u = .package) : unitWide u = true := by
  rcases h with rfl | rfl <;> rfl

/-- Settles O54: each request starts its unit's reset, which drains, and a unit that has drained is cleared and comes back. -/
theorem resets : Obligations.Resets := by
  refine ⟨fun who die g p v u r s => ?_, fun c die g p u r found s => ⟨fun h => ?_, fun hpow h hd hp => ?_⟩⟩
  · intro a core asked run starts stops
    have hrun : ∀ x, s.newRun x false = run x := fun x => by cases x <;> rfl
    have said : ∀ {t us}, s.Starts t us → starts t us := fun {t us} h =>
      ⟨h.mem, h.tiles, h.nor, fun hr => (h.fresh hr).trans (List.map_congr_left fun x _ => hrun x), h.holds, h.keeps, h.idle⟩
    have hcores : (askedCores die g v).map ResetUnit.core = asked.map core := List.map_map ..
    obtain ⟨hmay, hno⟩ := exec_glyReset_spec who die g v s
    refine ⟨fun hw => ?_, hno, fun hw => ⟨fun h0 => ?_, fun h0 => ?_⟩, fun hw => ?_, fun hw => ⟨fun hk => ?_, fun hk => ?_⟩, fun hw => ?_,
      fun hpow h hr => ?_, fun h => ?_⟩
    · obtain ⟨hc, hg, hnone, hno18⟩ := hmay hw
      refine ⟨fun h18 hne => ?_, fun h18 => ?_, hnone, hno18⟩
      · obtain ⟨t, ht, hst, hdr, hrd⟩ := hc h18 hne
        rw [hcores] at hst hdr
        exact ⟨t, ht, said hst, hdr, hrd⟩
      · obtain ⟨t, ht, hst, hdr, hrd⟩ := hg h18
        exact ⟨t, ht, said hst, hdr, hrd⟩
    · obtain ⟨hst, hfld, hmer, hnew⟩ := partReset_starts s p h0
      exact ⟨s.partReset p v, by rw [exec_pkgPartReset, hw, if_pos rfl], said hst, hfld, hmer, hnew⟩
    · rw [exec_pkgPartReset, partReset_eq, h0, if_neg Bool.false_ne_true, ite_self]
    · rw [exec_pkgPartReset, hw, if_neg Bool.false_ne_true]
    · obtain ⟨hst, honly⟩ := pkgReset_starts s hk
      exact ⟨s.pkgReset v, by rw [exec_pkgReset, hw, if_pos rfl], said hst, honly⟩
    · rw [exec_pkgReset, pkgReset_eq, if_neg hk, ite_self]
    · rw [exec_pkgReset, hw, if_neg Bool.false_ne_true]
    · exact ⟨s.drainEnds u, exec_resetDrainComplete u s, drainEnds_spec hpow h hr⟩
    · rw [exec_resetDrainComplete]
      exact congrArg _ (h.elim drainEnds_none fun h => drainEnds_again h.1 h.2)
  · rw [exec_resetReturn, resetEnds_stays h]
  · obtain ⟨hres, htick, hcov, hnarrow⟩ := return_cleared s u found
    refine ⟨_, (exec_resetReturn u found s).trans (congrArg _ (resetEnds_eq hpow h hd hp)), hres, htick, fun k hk hc => ?_,
      fun hu => hnarrow (unitWide_narrow hu), ?_, ?_, ?_⟩
    · obtain ⟨hseed, htile, hcore, hbyte⟩ := hcov k hk hc
      exact ⟨hseed, htile, fun hu => hcore (unitWide_narrow hu), fun hu => hbyte (unitWide_wide hu)⟩
    · rintro rfl
      exact fld_returned_core s c
    · rintro rfl
      exact fld_returned_galley s die g
    · rintro rfl
      exact ⟨part_returned s p found, return_partition_memories s p found⟩

end Sys2Proof.Machine
end

