-- ==== Sys2Proof/Proofs/Steering.lean ====
section
/-! PROOFS. What the colophon writes while it keeps the setpoint at its ceilings (R312, R314, R462, R464). -/

namespace Sys2Proof.Machine

variable {P : Nat → Prop} {s t u : State}

/-- Registers alone were written, none that `P` names. -/
structure State.Writes (P : Nat → Prop) (s t : State) : Prop where
  frame : t = { s with ctl := t.ctl }
  rd : ∀ a, P a → t.rd a = s.rd a

/-- The same, and the armed change of the setpoint may be another. -/
structure State.Steers (P : Nat → Prop) (s t : State) : Prop where
  frame : t = { s with ctl := t.ctl, rateArm := t.rateArm }
  rd : ∀ a, P a → t.rd a = s.rd a

namespace State.Writes

theorem refl (P : Nat → Prop) (s : State) : s.Writes P s := ⟨rfl, fun _ _ => rfl⟩

theorem trans (h : s.Writes P t) (h' : t.Writes P u) : s.Writes P u :=
  ⟨Eq.trans h'.frame (by rw [h.frame]), fun a ha => (h'.rd a ha).trans (h.rd a ha)⟩

theorem setFld (h : s.Writes P t) {a : Nat} (ha : ¬ P a) (lo w x : Nat) : s.Writes P (t.setFld a lo w x) :=
  h.trans ⟨rfl, fun _ hb => rd_setFld_other _ _ _ _ _ _ fun he => ha (he ▸ hb)⟩

theorem ite {c : Prop} [Decidable c] (h : s.Writes P t) (h' : s.Writes P u) : s.Writes P (if c then t else u) := by
  split <;> assumption

theorem foldl {α : Type} (f : State → α → State) (l : List α) (hf : ∀ t, ∀ x ∈ l, State.Writes P t (f t x)) :
    s.Writes P (l.foldl f s) := by
  induction l generalizing s with
  | nil => exact .refl P s
  | cons x l ih => exact (hf s x List.mem_cons_self).trans (ih fun t y hy => hf t y (List.mem_cons_of_mem _ hy))

theorem rateArm (h : s.Writes P t) : t.rateArm = s.rateArm := by rw [h.frame]

theorem steers (h : s.Writes P t) : s.Steers P t := ⟨Eq.trans h.frame (by rw [h.rateArm]), h.rd⟩

end State.Writes

namespace State.Steers

theorem refl (P : Nat → Prop) (s : State) : s.Steers P s := (State.Writes.refl P s).steers

theorem trans (h : s.Steers P t) (h' : t.Steers P u) : s.Steers P u :=
  ⟨Eq.trans h'.frame (by rw [h.frame]), fun a ha => (h'.rd a ha).trans (h.rd a ha)⟩

theorem ite {c : Prop} [Decidable c] (h : s.Steers P t) (h' : s.Steers P u) : s.Steers P (if c then t else u) := by
  split <;> assumption

/-- A change is armed, or none. -/
theorem arm (P : Nat → Prop) (s : State) (r : Option (Nat × Nat)) : s.Steers P { s with rateArm := r } := ⟨rfl, fun _ _ => rfl⟩

theorem mem (h : s.Steers P t) : t.mem = s.mem := by rw [h.frame]
theorem cores (h : s.Steers P t) : t.cores = s.cores := by rw [h.frame]
theorem thermal (h : s.Steers P t) : t.thermal = s.thermal := by rw [h.frame]

/-- A field of a register that `P` names. -/
theorem fld (h : s.Steers P t) {a : Nat} (ha : P a) (lo w : Nat) : t.fld a lo w = s.fld a lo w := by
  rw [State.fld, State.fld, h.rd a ha]

end State.Steers

/-- The registers that following a ceiling may write are none that `P` names: the host's ceiling with its answers, the next setpoint, and
the journals' first. -/
structure SteerFree (P : Nat → Prop) : Prop where
  host : ¬ P (aMgt 0x20)
  next : ¬ P aRateNext
  jnl : ∀ p, p < 64 → ¬ P (aJnl p 0)

/-- Registers from the quoins on, and the setpoint in force, are no journal's and not the next setpoint. -/
theorem SteerFree.of_rate_or_mgt (h : ∀ a, P a → a = aRate ∨ aMgt 0 ≤ a) (hhost : ¬ P (aMgt 0x20)) : SteerFree P where
  host := hhost
  next hp := by have := h _ hp; simp only [aRateNext, aRate, aMgt, quoinBase] at this; omega
  jnl p hp64 hp := by have := h _ hp; simp only [aJnl, aRate, aMgt, quoinBase] at this; omega

theorem timingLost_writes (hP : ∀ p, p < 64 → ¬ P (aJnl p 0)) (s : State) (p : Nat) : s.Writes P (s.timingLost p) := by
  unfold State.timingLost
  split
  · next hp => exact (State.Writes.refl P s).setFld (hP p hp) _ _ _
  · exact .refl P s

/-- R320: running parts lose their timing identity. -/
theorem runningInexact_writes (hP : ∀ p, p < 64 → ¬ P (aJnl p 0)) (s : State) : s.Writes P s.runningInexact :=
  .foldl _ _ fun t p _ => .ite (timingLost_writes hP t p) (.refl P t)

/-- R312: a write of the next setpoint. -/
theorem rateNext_steers (hP : SteerFree P) (s : State) (v : Word) : s.Steers P (s.rateNext v) := by
  have hset : ∀ {t : State} lo w x, s.Writes P t → s.Writes P (t.setFld aRateNext lo w x) := fun lo w x h => h.setFld hP.next lo w x
  have hwr : ∀ w, s.Writes P (s.wr aRateNext w) := fun _ => ⟨rfl, fun _ hb => State.rd_wr_ne _ _ fun he => hP.next (he ▸ hb)⟩
  unfold State.rateNext
  refine .ite (hset _ _ _ (.refl P s)).steers ?_
  exact .ite (((hset _ _ _ (hwr _)).steers.trans (.arm P _ _)).trans (runningInexact_writes hP.jnl _).steers)
    ((hset _ _ _ (hwr _)).steers.trans (.arm P _ _))

/-- R464: the setpoint follows the lowest ceiling. -/
theorem steer_steers (hP : SteerFree P) (s : State) (ask : Option Nat) : s.Steers P (s.steer ask) := by
  have hlim := ((State.Writes.refl P s).setFld hP.host 6 1 (if s.ceiling < s.hostCeil then 1 else 0)).steers
  unfold State.steer
  extract_lets s1 code plan
  refine .ite hlim (.ite ?_ ?_)
  · split
    · exact .ite hlim ((hlim.trans (.arm P _ none)).trans ((State.Writes.refl P _).setFld hP.next _ _ _).steers)
    · exact hlim
  · exact .ite hlim (hlim.trans (rateNext_steers hP _ _))

end Sys2Proof.Machine
end

