-- ==== Sys2Proof/Proofs/CapLoop.lean ====
section
/-! PROOFS. One measurement of the power-cap loop (R25 to R27, R463, R472). -/

namespace Sys2Proof.Machine

variable {P : Nat → Prop} {s t : State}

/-! ## The energy counted (R472) -/

/-- The energy of the input is counted. -/
def State.countInput (s : State) (m : Nat) : State :=
  { s with thermal := { s.thermal with rest := (addEnergy s.thermal.rest m).2 } }.addFld (aMgt 0x58) 0 64 (addEnergy s.thermal.rest m).1

/-- The energy of one die, power and index given, is counted. -/
def State.countDie (s : State) (x : Nat × Nat) : State :=
  let e := addEnergy (Tbl.get 0 s.thermal.dieRest x.2) x.1
  { s with thermal := { s.thermal with dieRest := Tbl.set 0 s.thermal.dieRest x.2 e.2 } }.addFld (aMgt (0x800 + 8 * x.2)) 0 64 e.1

theorem countEnergy_eq (s : State) (mw : List Nat) : s.countEnergy mw = mw.zipIdx.foldl State.countDie (s.countInput mw.sum) := rfl

/-- Registers and the remainders of the energy counters apart, all of the state. -/
def State.EnergyFrame (s t : State) : Prop :=
  t = { s with ctl := t.ctl, thermal := { s.thermal with rest := t.thermal.rest, dieRest := t.thermal.dieRest } }

theorem State.EnergyFrame.trans {u : State} (h : s.EnergyFrame t) (h' : t.EnergyFrame u) : s.EnergyFrame u :=
  Eq.trans h' (by rw [h])

theorem countDies_frame (l : List (Nat × Nat)) (s : State) : s.EnergyFrame (l.foldl State.countDie s) := by
  induction l generalizing s with
  | nil => rfl
  | cons x l ih => exact State.EnergyFrame.trans (t := s.countDie x) rfl (ih _)

theorem countEnergy_frame (s : State) (mw : List Nat) : s.EnergyFrame (s.countEnergy mw) :=
  State.EnergyFrame.trans (t := s.countInput mw.sum) rfl (countDies_frame _ _)

/-- The counters of the dies lie from offset 0x800 on. -/
theorem rd_countDies {a : Nat} (ha : a < aMgt 0x800) (l : List (Nat × Nat)) (s : State) : (l.foldl State.countDie s).rd a = s.rd a := by
  induction l generalizing s with
  | nil => rfl
  | cons x l ih => exact (ih _).trans (rd_setFld_other _ _ _ _ _ _ (by simp only [aMgt] at ha ⊢; omega))

theorem putF_word (v : Word) (x : Nat) : putF v 0 64 x = BitVec.ofNat 64 x := by
  apply BitVec.eq_of_toNat_eq
  simp [putF, maskF]

theorem getF_word (v : Word) : getF v 0 64 = v.toNat := by
  rw [getF, bits_eq, Nat.pow_zero, Nat.div_one, Nat.mod_eq_of_lt v.isLt]

/-- A counter of a whole word, raised. -/
theorem rd_addFld_word (s : State) (a n : Nat) : (s.addFld a 0 64 n).rd a = s.rd a + BitVec.ofNat 64 n := by
  rw [State.addFld, State.setFld, State.rd_wr, putF_word, State.fld, getF_word, BitVec.ofNat_add, BitVec.ofNat_toNat, BitVec.setWidth_eq]

theorem rd_countInput (s : State) (m : Nat) :
    (s.countInput m).rd (aMgt 0x58) = s.rd (aMgt 0x58) + BitVec.ofNat 64 ((s.thermal.rest + m) / 1000000) :=
  rd_addFld_word _ _ _

theorem rd_countEnergy (s : State) (mw : List Nat) :
    (s.countEnergy mw).rd (aMgt 0x58) = s.rd (aMgt 0x58) + BitVec.ofNat 64 ((s.thermal.rest + mw.sum) / 1000000) := by
  rw [countEnergy_eq, rd_countDies (by decide), rd_countInput]

theorem rd_countEnergy_other (s : State) (mw : List Nat) {a : Nat} (ha : a < aMgt 0x800) (hb : a ≠ aMgt 0x58) :
    (s.countEnergy mw).rd a = s.rd a :=
  (rd_countDies ha _ _).trans (rd_setFld_other _ _ _ _ _ _ hb)

/-! ## The factor and the ceiling (R26, R27) -/

/-- R463: a step of the factor, which may begin a capping interval. -/
theorem setFactor_writes (hcap : ¬ P (aMgt 0x10)) (hev : ¬ P (aMgt 0x18)) (hjnl : ∀ p, p < 64 → ¬ P (aJnl p 0)) (s : State) (f : Nat) :
    s.Writes P (s.setFactor f) :=
  have h := (State.Writes.refl P s).setFld hcap 16 7 f
  .ite ((h.setFld hev _ _ _).trans (runningInexact_writes hjnl _)) h

theorem aJnl_ne_aMgt {p : Nat} (hp : p < 64) (k : Nat) : aJnl p 0 ≠ aMgt k := by simp only [aJnl, aMgt, quoinBase]; omega

theorem capFactor_setFactor (s : State) {f : Nat} (hf : f < 128) : (s.setFactor f).capFactor = f := by
  have h : (s.setFld (aMgt 0x10) 16 7 f).capFactor = f := (fld_setFld _ _ _ _ _ (by norm_num)).trans (Nat.mod_eq_of_lt hf)
  unfold State.setFactor
  dsimp only
  split
  · have hw : (s.setFld (aMgt 0x10) 16 7 f).Writes (· = aMgt 0x10)
        ((s.setFld (aMgt 0x10) 16 7 f).addFld (aMgt 0x18) 0 64 1).runningInexact :=
      ((State.Writes.refl _ _).setFld (by decide) _ _ _).trans (runningInexact_writes (fun p hp => aJnl_ne_aMgt hp _) _)
    exact (hw.steers.fld rfl _ _).trans h
  · exact h

/-- The next code below the setpoint, with the change that follows. -/
theorem lowerCeil_steers (hP : SteerFree P) (hceil : ¬ P (aMgt 0x28)) (s : State) : s.Steers P s.lowerCeil := by
  unfold State.lowerCeil
  extract_lets s1 s2
  have h1 : s.Steers P s1 := ((State.Writes.refl P s).setFld hceil _ _ _).steers
  have h2 : s.Steers P s2 := .ite h1 (h1.trans (rateNext_steers hP _ _))
  exact h2.trans (steer_steers hP _ _)

theorem steerFree_ceil : SteerFree (· = aMgt 0x28) := .of_rate_or_mgt (fun _ h => .inr (h ▸ by decide)) (by decide)

theorem rate_lt (s : State) : s.rate < 64 := bits_lt _ _ _

theorem capCeil_setFld (s : State) {x : Nat} (hx : x < 64) : (s.setFld (aMgt 0x28) 8 6 x).capCeil = x :=
  (fld_setFld _ _ _ _ _ (by norm_num)).trans (Nat.mod_eq_of_lt hx)

theorem capCeil_lowerCeil (s : State) : s.lowerCeil.capCeil = s.rate - 1 := by
  have h1 := capCeil_setFld s (x := s.rate - 1) (by have := rate_lt s; omega)
  unfold State.lowerCeil
  extract_lets s1 s2
  have h2 : s1.Steers (· = aMgt 0x28) s2 := .ite (.refl _ _) (rateNext_steers steerFree_ceil _ _)
  exact ((h2.trans (steer_steers steerFree_ceil _ _)).fld rfl _ _).trans h1

theorem moveCeil_steers (hP : SteerFree P) (hceil : ¬ P (aMgt 0x28)) (s : State) (past : Bool) : s.Steers P (s.moveCeil past) := by
  have hup := ((State.Writes.refl P s).setFld hceil 8 6 (s.capCeil + 1)).steers
  unfold State.moveCeil
  exact .ite (.ite (.refl P s) (lowerCeil_steers hP hceil s))
    (.ite (.refl P s) (.ite (hup.trans (steer_steers hP _ _)) (.refl P s)))

/-- At the lowest code the ceiling stays. -/
theorem moveCeil_lowest (h : s.rate ≤ 10) : s.moveCeil true = s := by
  simp [State.moveCeil, h]

theorem moveCeil_down (h : 10 < s.rate) (harm : s.rateArm = none) : s.moveCeil true = s.lowerCeil := by
  simp [State.moveCeil, harm, Nat.not_le.mpr h]

theorem capCeil_moveCeil_up (harm : s.rateArm = none) :
    (s.moveCeil false).capCeil = if s.capCeil < 36 ∧ s.capCeil ≤ s.rate then s.capCeil + 1 else s.capCeil := by
  have he : s.moveCeil false =
      if s.capCeil < 36 ∧ s.capCeil ≤ s.rate then (s.setFld (aMgt 0x28) 8 6 (s.capCeil + 1)).steer none else s := by
    simp [State.moveCeil, harm]
  rw [he]
  split
  · next h => exact ((steer_steers steerFree_ceil _ _).fld rfl _ _).trans (capCeil_setFld s (by omega))
  · rfl

/-! ## The measurement (R26, log 104, 121) -/

/-- The measurement is counted and joins the 5 ms window. -/
def State.noteMeasure (s : State) (mw : List Nat) : State :=
  let t := s.countEnergy mw
  { t with thermal := { t.thermal with window := (mw.sum :: t.thermal.window).take 5000, power := mw.sum } }

/-- What the loop moves: the factor between 32/64 and 64/64, at either end the ceiling. -/
def State.react (s : State) (past : Bool) : State :=
  if past then (if s.capFactor ≤ 32 then s.moveCeil true else s.setFactor (s.capFactor - 1))
  else if s.capFactor < 64 then s.setFactor (s.capFactor + 1) else s.moveCeil false

/-- The times at the floor and below the limit, from which R28 follows. -/
def State.noteFloor (s : State) (slow : Bool) : State :=
  let low := since (!slow) s.thermal.belowSince s.tick
  { s with thermal := { s.thermal with
    floorSince := since (s.rate = 10 && s.capFactor = 32) s.thermal.floorSince s.tick
    belowSince := low
    armRefused := s.thermal.armRefused && !(match low with | some t => decide (t + 25000000 ≤ s.tick) | none => false) } }

/-- A measurement, its total power `m` given, lies past one of the limits. -/
def State.pastLimit (s : State) (m : Nat) : Prop := s.slowLimit * 5000 < ((m :: s.thermal.window).take 5000).sum ∨ fastLimit < m

theorem capMeasure_eq (s : State) (mw : List Nat) : s.capMeasure mw =
    ((s.noteMeasure (mw.take 68)).react
      ((s.noteMeasure (mw.take 68)).slowOver || decide (fastLimit < (mw.take 68).sum))).noteFloor (s.noteMeasure (mw.take 68)).slowOver := rfl

theorem noteMeasure_frame (s : State) (mw : List Nat) : s.noteMeasure mw = { s with
    ctl := (s.noteMeasure mw).ctl
    thermal := { s.thermal with
      rest := (s.noteMeasure mw).thermal.rest
      dieRest := (s.noteMeasure mw).thermal.dieRest
      window := (mw.sum :: s.thermal.window).take 5000
      power := mw.sum } } := by
  unfold State.noteMeasure
  rw [countEnergy_frame s mw]

theorem noteMeasure_fld (s : State) (mw : List Nat) {a : Nat} (ha : a < aMgt 0x800) (hb : a ≠ aMgt 0x58) (lo w : Nat) :
    (s.noteMeasure mw).fld a lo w = s.fld a lo w :=
  congrArg (getF · lo w) (rd_countEnergy_other s mw ha hb)

theorem noteMeasure_rate (s : State) (mw : List Nat) : (s.noteMeasure mw).rate = s.rate :=
  noteMeasure_fld s mw (by decide) (by decide) _ _

theorem noteMeasure_capFactor (s : State) (mw : List Nat) : (s.noteMeasure mw).capFactor = s.capFactor :=
  noteMeasure_fld s mw (by decide) (by decide) _ _

theorem noteMeasure_capCeil (s : State) (mw : List Nat) : (s.noteMeasure mw).capCeil = s.capCeil :=
  noteMeasure_fld s mw (by decide) (by decide) _ _

theorem noteMeasure_rateArm (s : State) (mw : List Nat) : (s.noteMeasure mw).rateArm = s.rateArm := by rw [noteMeasure_frame]

theorem noteMeasure_past (s : State) (mw : List Nat) :
    ((s.noteMeasure mw).slowOver || decide (fastLimit < mw.sum)) = true ↔ s.pastLimit mw.sum := by
  have hl : (s.noteMeasure mw).slowLimit = s.slowLimit := by
    rw [State.slowLimit, State.slowLimit, noteMeasure_fld s mw (by decide) (by decide)]
  have hw : (s.noteMeasure mw).thermal.window = (mw.sum :: s.thermal.window).take 5000 := by rw [noteMeasure_frame]
  rw [Bool.or_eq_true, decide_eq_true_iff, State.slowOver, decide_eq_true_iff, hl, hw]
  rfl

/-- Whatever the loop moves, it leaves the registers that `P` names. -/
theorem react_steers (hP : SteerFree P) (hcap : ¬ P (aMgt 0x10)) (hev : ¬ P (aMgt 0x18)) (hceil : ¬ P (aMgt 0x28)) (s : State)
    (past : Bool) : s.Steers P (s.react past) :=
  have hf : ∀ f, s.Steers P (s.setFactor f) := fun f => (setFactor_writes hcap hev hP.jnl s f).steers
  have hm : ∀ b, s.Steers P (s.moveCeil b) := moveCeil_steers hP hceil s
  .ite (.ite (hm true) (hf _)) (.ite (hf _) (hm false))

/-- What every measurement of total power `m` leaves. -/
structure State.Measured (s t : State) (m : Nat) : Prop where
  rate : t.rate = s.rate
  window : t.thermal.window = (m :: s.thermal.window).take 5000
  mem : t.mem = s.mem
  cores : t.cores = s.cores
  nextCap : t.thermal.nextCap = s.thermal.nextCap
  energy : t.rd (aMgt 0x58) = s.rd (aMgt 0x58) + BitVec.ofNat 64 ((s.thermal.rest + m) / 1000000)

/-- The setpoint in force and the energy of the input. -/
def keptInLoop (a : Nat) : Prop := a = aRate ∨ a = aMgt 0x58

theorem steerFree_keptInLoop : SteerFree keptInLoop :=
  .of_rate_or_mgt (fun a (h : a = aRate ∨ a = aMgt 0x58) => h.imp id fun he => by rw [he]; decide) (by unfold keptInLoop; decide)

theorem react_noteFloor_measured (s : State) (mw : List Nat) (past slow : Bool) :
    s.Measured (((s.noteMeasure mw).react past).noteFloor slow) mw.sum := by
  have h : (s.noteMeasure mw).Steers keptInLoop ((s.noteMeasure mw).react past) :=
    react_steers steerFree_keptInLoop (by unfold keptInLoop; decide) (by unfold keptInLoop; decide) (by unfold keptInLoop; decide) _ _
  exact {
    rate := (h.fld (.inl rfl) _ _).trans (noteMeasure_rate s mw)
    window := (congrArg Thermal.window h.thermal).trans (by rw [noteMeasure_frame])
    mem := h.mem.trans (by rw [noteMeasure_frame])
    cores := h.cores.trans (by rw [noteMeasure_frame])
    nextCap := (congrArg Thermal.nextCap h.thermal).trans (by rw [noteMeasure_frame])
    energy := (h.rd _ (.inr rfl)).trans (rd_countEnergy s mw) }

theorem react_down (h : 32 < s.capFactor) : s.react true = s.setFactor (s.capFactor - 1) := by
  rw [State.react, if_pos rfl, if_neg (by omega)]

theorem react_floor (h : s.capFactor ≤ 32) : s.react true = s.moveCeil true := by
  rw [State.react, if_pos rfl, if_pos h]

theorem react_up (h : s.capFactor < 64) : s.react false = s.setFactor (s.capFactor + 1) := by
  rw [State.react, if_neg Bool.false_ne_true, if_pos h]

theorem react_full (h : ¬ s.capFactor < 64) : s.react false = s.moveCeil false := by
  rw [State.react, if_neg Bool.false_ne_true, if_neg h]

/-- The armed change and the ceiling of the cap are as they were. -/
def State.CeilKept (s t : State) : Prop := t.rateArm = s.rateArm ∧ t.capCeil = s.capCeil

theorem State.CeilKept.trans {u : State} (h : s.CeilKept t) (h' : t.CeilKept u) : s.CeilKept u :=
  ⟨h'.1.trans h.1, h'.2.trans h.2⟩

theorem setFactor_ceilKept (s : State) (f : Nat) : s.CeilKept (s.setFactor f) :=
  have h := setFactor_writes (P := (· = aMgt 0x28)) (by decide) (by decide) (fun _ hp => aJnl_ne_aMgt hp _) s f
  ⟨h.rateArm, h.steers.fld rfl _ _⟩

theorem capFactor_moveCeil (s : State) (past : Bool) : (s.moveCeil past).capFactor = s.capFactor :=
  (moveCeil_steers (P := (· = aMgt 0x10)) (.of_rate_or_mgt (fun _ h => .inr (h ▸ by decide)) (by decide)) (by decide) s past).fld rfl _ _

/-! ## Its command -/

/-- The next measurement comes 250 ticks on. -/
def State.capTimed (s : State) : State := { s with thermal := { s.thermal with nextCap := s.tick + 250 } }

theorem exec_powerCapMeasure (mw : List Nat) (s : State) : exec (.powerCapMeasure mw) s =
    .next (if s.powered && s.thermal.nextCap ≤ s.tick then s.capTimed.capMeasure mw else s) := rfl

/-- No measurement comes within 250 ticks of the last. -/
theorem exec_measure_early (mw : List Nat) (h : s.tick < s.thermal.nextCap) : exec (.powerCapMeasure mw) s = .next s := by
  rw [exec_powerCapMeasure, decide_eq_false (Nat.not_le.mpr h), Bool.and_false, if_neg Bool.false_ne_true]

/-- A measurement leaves the factor at `x`, and what `more` says. -/
def State.MeasuresTo (s : State) (mw : List Nat) (x : Nat) (more : State → Prop) : Prop :=
  ∃ t, exec (.powerCapMeasure mw) s = .next t ∧ t.capFactor = x ∧ s.capTimed.Measured t (mw.take 68).sum ∧ more t

/-- The state in which the loop reacts to a measurement. -/
def State.noted (s : State) (mw : List Nat) : State := s.capTimed.noteMeasure (mw.take 68)

theorem noted_rate (s : State) (mw : List Nat) : (s.noted mw).rate = s.rate := noteMeasure_rate s.capTimed _
theorem noted_capFactor (s : State) (mw : List Nat) : (s.noted mw).capFactor = s.capFactor := noteMeasure_capFactor s.capTimed _
theorem noted_capCeil (s : State) (mw : List Nat) : (s.noted mw).capCeil = s.capCeil := noteMeasure_capCeil s.capTimed _
theorem noted_rateArm (s : State) (mw : List Nat) : (s.noted mw).rateArm = s.rateArm := noteMeasure_rateArm s.capTimed _

theorem noted_ceilKept (s : State) (mw : List Nat) : s.CeilKept (s.noted mw) := ⟨noted_rateArm s mw, noted_capCeil s mw⟩

section Due

variable {mw : List Nat} (hpow : s.powered = true) (hdue : s.thermal.nextCap ≤ s.tick)
include hpow hdue

/-- A measurement that is due, `past` saying whether it lies past a limit, leaves what the loop's reaction leaves. -/
theorem measuresTo {past : Bool} (hpast : past = true ↔ s.pastLimit (mw.take 68).sum) {r : State} (hr : (s.noted mw).react past = r)
    {x : Nat} (hx : r.capFactor = x) {more : State → Prop} (hmore : ∀ slow, more (r.noteFloor slow)) : s.MeasuresTo mw x more := by
  have hb : past = ((s.noted mw).slowOver || decide (fastLimit < (mw.take 68).sum)) :=
    Bool.eq_iff_iff.mpr (hpast.trans (noteMeasure_past s.capTimed _).symm)
  have he : exec (.powerCapMeasure mw) s = .next (r.noteFloor (s.noted mw).slowOver) := by
    rw [exec_powerCapMeasure, hpow, decide_eq_true hdue, Bool.and_self, if_pos rfl, capMeasure_eq, ← hr, hb]
    rfl
  exact ⟨_, he, hx, hr ▸ react_noteFloor_measured s.capTimed _ past _, hmore _⟩

/-- R26: above a limit the factor falls one step. -/
theorem measure_lowersFactor (hpast : s.pastLimit (mw.take 68).sum) (h : 32 < s.capFactor) (hf : s.capFactor ≤ 64) :
    s.MeasuresTo mw (s.capFactor - 1) s.CeilKept := by
  have hr : (s.noted mw).react true = (s.noted mw).setFactor (s.capFactor - 1) := by
    rw [react_down (noted_capFactor s mw ▸ h), noted_capFactor]
  exact measuresTo hpow hdue (iff_of_true rfl hpast) hr (capFactor_setFactor _ (by omega))
    fun _ => (noted_ceilKept s mw).trans (setFactor_ceilKept _ _)

/-- R26: below both limits the factor rises one step. -/
theorem measure_raisesFactor (hpast : ¬ s.pastLimit (mw.take 68).sum) (h : s.capFactor < 64) :
    s.MeasuresTo mw (s.capFactor + 1) s.CeilKept := by
  have hr : (s.noted mw).react false = (s.noted mw).setFactor (s.capFactor + 1) := by
    rw [react_up (noted_capFactor s mw ▸ h), noted_capFactor]
  exact measuresTo hpow hdue (iff_of_false Bool.false_ne_true hpast) hr (capFactor_setFactor _ (by omega))
    fun _ => (noted_ceilKept s mw).trans (setFactor_ceilKept _ _)

/-- R27: at 32/64 the ceiling falls to one code below the setpoint. -/
theorem measure_lowersCeil (hpast : s.pastLimit (mw.take 68).sum) (h : s.capFactor ≤ 32) (hrate : 10 < s.rate) (harm : s.rateArm = none) :
    s.MeasuresTo mw s.capFactor fun t => t.capCeil = s.rate - 1 := by
  have hr : (s.noted mw).react true = (s.noted mw).moveCeil true := react_floor (noted_capFactor s mw ▸ h)
  refine measuresTo hpow hdue (iff_of_true rfl hpast) hr ((capFactor_moveCeil _ _).trans (noted_capFactor s mw)) fun _ => ?_
  have hdown : (s.noted mw).moveCeil true = (s.noted mw).lowerCeil :=
    moveCeil_down (noted_rate s mw ▸ hrate) ((noted_rateArm s mw).trans harm)
  rw [hdown, ← noted_rate s mw]
  exact capCeil_lowerCeil _

/-- The lowest code of all has none below it. -/
theorem measure_atLowest (hpast : s.pastLimit (mw.take 68).sum) (h : s.capFactor ≤ 32) (hrate : s.rate ≤ 10) :
    s.MeasuresTo mw s.capFactor s.CeilKept :=
  have hr : (s.noted mw).react true = s.noted mw :=
    (react_floor (noted_capFactor s mw ▸ h)).trans (moveCeil_lowest (noted_rate s mw ▸ hrate))
  measuresTo hpow hdue (iff_of_true rfl hpast) hr (noted_capFactor s mw) fun _ => noted_ceilKept s mw

/-- R27: at 64/64 the ceiling rises one code, up to one above the setpoint. -/
theorem measure_raisesCeil (hpast : ¬ s.pastLimit (mw.take 68).sum) (h : s.capFactor = 64) (harm : s.rateArm = none) :
    s.MeasuresTo mw s.capFactor fun t =>
      t.capCeil = if s.capCeil < 36 ∧ s.capCeil ≤ s.rate then s.capCeil + 1 else s.capCeil := by
  have hr : (s.noted mw).react false = (s.noted mw).moveCeil false :=
    react_full (by rw [noted_capFactor, h]; exact Nat.lt_irrefl 64)
  refine measuresTo hpow hdue (iff_of_false Bool.false_ne_true hpast) hr ((capFactor_moveCeil _ _).trans (noted_capFactor s mw)) fun _ => ?_
  rw [← noted_capCeil s mw, ← noted_rate s mw]
  exact capCeil_moveCeil_up ((noted_rateArm s mw).trans harm)

end Due

end Sys2Proof.Machine
end

