-- ==== Sys2Proof/Proofs/CapNotHeld.lean ====
section
/-! PROOFS. The last resort of the power cap: every part stops, and each is recorded (R28, R355, R442). -/

namespace Sys2Proof.Machine

variable {s t u : State} {f : State → Nat → State} {l : List Nat}

/-- R355: the state of a context after a STOP. -/
def stoppedState (x : Nat) : Nat := if x ∈ [2, 3, 4] then 5 else x

theorem stoppedState_idem (x : Nat) : stoppedState (stoppedState x) = stoppedState x := by
  unfold stoppedState
  split <;> simp_all

/-- The memories and the setpoint are as they were, and of the contexts' states those of the partitions in `l` stopped. -/
structure State.StopsParts (l : List Nat) (s t : State) : Prop where
  mem : t.mem = s.mem
  rate : t.rate = s.rate
  stopped : ∀ p, p ∈ l → t.ctxState p = stoppedState (s.ctxState p)
  other : ∀ p, p ∉ l → t.ctxState p = s.ctxState p

namespace State.StopsParts

theorem append {l' : List Nat} (h : s.StopsParts l t) (h' : t.StopsParts l' u) : s.StopsParts (l ++ l') u where
  mem := h'.mem.trans h.mem
  rate := h'.rate.trans h.rate
  stopped p hp := by
    by_cases hl : p ∈ l <;> by_cases hl' : p ∈ l'
    · rw [h'.stopped p hl', h.stopped p hl, stoppedState_idem]
    · rw [h'.other p hl', h.stopped p hl]
    · rw [h'.stopped p hl', h.other p hl]
    · exact absurd (List.mem_append.mp hp) (not_or.mpr ⟨hl, hl'⟩)
  other p hp := by
    obtain ⟨hl, hl'⟩ := not_or.mp fun h => hp (List.mem_append.mpr h)
    rw [h'.other p hl', h.other p hl]

/-- Nothing stops. -/
theorem nil (hmem : t.mem = s.mem) (hrate : t.rate = s.rate) (hctx : ∀ p, t.ctxState p = s.ctxState p) : s.StopsParts [] t :=
  ⟨hmem, hrate, fun _ hp => absurd hp List.not_mem_nil, fun p _ => hctx p⟩

theorem foldl (hf : ∀ t, ∀ p ∈ l, State.StopsParts [p] t (f t p)) (s : State) : s.StopsParts l (l.foldl f s) := by
  induction l generalizing s with
  | nil => exact nil rfl rfl fun _ => rfl
  | cons p l ih => exact (hf s p List.mem_cons_self).append (ih (fun t q hq => hf t q (List.mem_cons_of_mem _ hq)) _)

end State.StopsParts

theorem aCtx_inj {p q : Nat} (h : aCtx p 8 = aCtx q 8) : p = q := by simp only [aCtx] at h; omega

theorem aRate_ne_aCtx (p : Nat) : aRate ≠ aCtx p 8 := by simp only [aRate, aCtx]; omega

theorem aRate_ne_aJnl (p : Nat) : aRate ≠ aJnl p 0 := by simp only [aRate, aJnl]; omega

theorem stopPart_stopsParts (s : State) (p : Nat) : s.StopsParts [p] (s.stopPart p) where
  mem := (stopPart_halts (P := fun _ => False) id s).mem
  rate := congrArg (getF · 0 6) ((stopPart_halts (P := (· = aRate)) (fun h => aRate_ne_aCtx p h.symm) s).rd _ rfl)
  stopped q hq := by
    obtain rfl := List.mem_singleton.mp hq
    rw [stoppedState]
    split
    · next h => exact ctxState_stopPart h
    · next h => rw [State.stopPart, if_neg h]
  other q hq :=
    have hne : ¬ aCtx p 8 = aCtx q 8 := fun h => hq (List.mem_singleton.mpr (aCtx_inj h).symm)
    congrArg (getF · 0 3) ((stopPart_halts (P := (· = aCtx q 8)) hne s).rd _ rfl)

theorem aJnl_ne_aCtx (p q : Nat) : aJnl p 0 ≠ aCtx q 8 := by simp only [aJnl, aCtx]; omega

theorem timingLost_stopsParts (s : State) (p : Nat) : s.StopsParts [] (s.timingLost p) :=
  have h : s.Steers (fun a => a = aRate ∨ ∃ q, a = aCtx q 8) (s.timingLost p) := (timingLost_writes (fun x _ h =>
    h.elim (fun h => aRate_ne_aJnl x h.symm) fun ⟨q, h⟩ => aJnl_ne_aCtx x q h) s p).steers
  .nil h.mem (h.fld (.inl rfl) _ _) fun q => h.fld (.inr ⟨q, rfl⟩) _ _

/-- R442: a partition-fatal record stops its part. -/
theorem raiseOpen_stopsParts {r : ErrRec} (hr : r.cls = 3) (hp : r.part < 64) (s : State) : s.StopsParts [r.part] (s.raiseOpen r) := by
  have hcount : ∀ e w n, s.StopsParts [] { s with errPend := e, windows := w, free := n } := fun _ _ _ =>
    .nil rfl rfl fun _ => rfl
  have hraise : ∃ e w n, s.raiseOpen r = (State.timingLost { s with errPend := e, windows := w, free := n } r.part).stopPart r.part := by
    unfold State.raiseOpen State.raise
    dsimp only
    rw [if_pos ⟨hr, hp⟩]
    split <;> exact ⟨_, _, _, rfl⟩
  obtain ⟨e, w, n, he⟩ := hraise
  rw [he]
  exact ((hcount e w n).append (timingLost_stopsParts _ _)).append (stopPart_stopsParts _ _)

theorem mem_heldParts {p : Nat} : p ∈ s.heldParts ↔ p < 64 ∧ s.ctxState p ≠ 0 := by simp [State.heldParts]

/-- The record of a partition that held a part. -/
def State.recordNotHeld (s : State) (p : Nat) : State := s.raiseOpen { ErrRec.base with cls := 3, source := 0x52, part := p }

theorem recordNotHeld_stopsParts {p : Nat} (hp : p < 64) (s : State) : s.StopsParts [p] (s.recordNotHeld p) :=
  raiseOpen_stopsParts (r := { ErrRec.base with cls := 3, source := 0x52, part := p }) rfl hp s

theorem notHeld_eq (s : State) : ∃ t, s.StopsParts (s.heldParts ++ s.heldParts) t ∧
    s.notHeld = { t with thermal := { t.thermal with armRefused := true, belowSince := none } } :=
  ⟨s.heldParts.foldl State.recordNotHeld (s.heldParts.foldl State.stopPart s),
    (State.StopsParts.foldl (fun t p _ => stopPart_stopsParts t p) s).append
      (.foldl (fun t _ hp => recordNotHeld_stopsParts (mem_heldParts.mp hp).1 t) _), rfl⟩

/-- R28: every part stops. -/
theorem notHeld_stops (s : State) : s.notHeld.mem = s.mem ∧ s.notHeld.thermal.armRefused = true ∧ s.notHeld.rate = s.rate ∧
    ∀ p, p < 64 → s.notHeld.ctxState p = if s.ctxState p ∈ [2, 3, 4] then 5 else s.ctxState p := by
  obtain ⟨t, ht, he⟩ := notHeld_eq s
  rw [he]
  refine ⟨ht.mem, rfl, ht.rate, fun p hp => ?_⟩
  by_cases h0 : s.ctxState p = 0
  · refine (ht.other p ?_).trans (by rw [h0]; rfl)
    rw [List.mem_append, or_self, mem_heldParts]
    exact fun h => h.2 h0
  · exact ht.stopped p (List.mem_append_left _ (mem_heldParts.mpr ⟨hp, h0⟩))

/-- The setpoint and the factor have stood at their floors for 5 ms (R28). -/
def State.atFloor (s : State) : Bool := match s.thermal.floorSince with | some t => decide (t + 1250000 ≤ s.tick) | none => false

theorem exec_capNotHeld (s : State) : exec .capNotHeld s = .next (if s.powered && s.slowOver && s.atFloor then s.notHeld else s) := rfl

theorem atFloor_some {f0 : Nat} (h : s.thermal.floorSince = some f0) : s.atFloor = decide (f0 + 1250000 ≤ s.tick) := by
  rw [State.atFloor, h]

theorem atFloor_none (h : s.thermal.floorSince = none) : s.atFloor = false := by
  rw [State.atFloor, h]

end Sys2Proof.Machine
end

