-- ==== Sys2Proof/Proofs/PowerCap.lean ====
section
/-! PROOFS. The power-cap limit, and droops (R25, R306, R309, R462). -/

namespace Sys2Proof.Machine

variable {s t : State}

/-! ## The limit (R461, R462) -/

theorem exec_mgtCapWrite (who : Accessor) (v : Word) (s : State) :
    exec (.mgtCapWrite who v) s = .next (if s.mayManage who (aMgt 0x10) then s.capWrite (getF v 0 7) else s) := rfl

theorem capWrite_refused {l : Nat} (h : ¬ (60 ≤ l ∧ l ≤ 120)) : s.capWrite l = s.setFld (aMgt 0x10) 24 8 cFORMAT := by
  rw [State.capWrite, if_pos (by omega)]

/-- The limit in force follows the limit, 600 W while the 12 V input is low. -/
theorem capEffect_fields (s : State) : s.capEffect = { s with ctl := s.capEffect.ctl } ∧
    (∀ lo w, lo + w ≤ 8 ∨ 15 ≤ lo → s.capEffect.fld (aMgt 0x10) lo w = s.fld (aMgt 0x10) lo w) ∧
    s.capEffect.fld (aMgt 0x10) 8 7 = if s.fld (aMgt 0) 7 1 = 1 then min (s.fld (aMgt 0x10) 0 7) 60 else s.fld (aMgt 0x10) 0 7 := by
  have hlt : s.fld (aMgt 0x10) 0 7 < 128 := bits_lt _ _ _
  refine ⟨rfl, fun lo w h => fld_setFld_ne _ _ _ _ _ _ _ h, (fld_setFld _ _ _ _ _ (by norm_num)).trans (Nat.mod_eq_of_lt ?_)⟩
  split <;> omega

/-- The limit as it was accepted, before it takes effect. -/
def State.capAccept (s : State) (l : Nat) : State := (s.setFld (aMgt 0x10) 0 7 l).setFld (aMgt 0x10) 24 8 cDONE

theorem capWrite_taken {l : Nat} (h : 60 ≤ l ∧ l ≤ 120) : s.capWrite l = (s.capAccept l).capEffect := by
  rw [State.capWrite, if_neg (by omega)]
  rfl

theorem capAccept_fields (s : State) {l : Nat} (h : l ≤ 120) : (s.capAccept l).fld (aMgt 0x10) 0 7 = l ∧
    (s.capAccept l).fld (aMgt 0x10) 24 8 = cDONE ∧ (s.capAccept l).fld (aMgt 0) 7 1 = s.fld (aMgt 0) 7 1 := by
  unfold State.capAccept
  refine ⟨?_, fld_setFld _ _ _ _ _ (by norm_num), ?_⟩
  · rw [fld_setFld_ne _ _ _ _ _ _ _ (.inl (by norm_num)), fld_setFld _ _ _ _ _ (by norm_num), Nat.mod_eq_of_lt (by omega)]
  · rw [fld_setFld_other _ _ _ _ _ _ _ _ (by decide), fld_setFld_other _ _ _ _ _ _ _ _ (by decide)]

/-- R462: a limit of 600 W to 1,200 W is taken, and another refused. -/
theorem capWrite_spec (s : State) (l : Nat) : s.capWrite l = { s with ctl := (s.capWrite l).ctl } ∧
    (s.capWrite l).fld (aMgt 0x10) 24 8 = (if 60 ≤ l ∧ l ≤ 120 then 0x00 else 0x04) ∧
    (s.capWrite l).fld (aMgt 0x10) 0 7 = (if 60 ≤ l ∧ l ≤ 120 then l else s.fld (aMgt 0x10) 0 7) ∧
    (60 ≤ l → l ≤ 120 → (s.capWrite l).fld (aMgt 0x10) 8 7 = if s.fld (aMgt 0) 7 1 = 1 then 60 else l) := by
  by_cases h : 60 ≤ l ∧ l ≤ 120
  · obtain ⟨hframe, hkeep, heff⟩ := capEffect_fields (s.capAccept l)
    obtain ⟨hlimit, hcode, hlow⟩ := capAccept_fields s h.2
    rw [capWrite_taken h, if_pos h, if_pos h]
    refine ⟨hframe, (hkeep 24 8 (.inr (by norm_num))).trans hcode, (hkeep 0 7 (.inl (by norm_num))).trans hlimit, fun _ _ => ?_⟩
    rw [heff, hlimit, hlow, Nat.min_eq_right h.1]
  · rw [capWrite_refused h, if_neg h, if_neg h]
    exact ⟨rfl, fld_setFld _ _ _ _ _ (by norm_num), fld_setFld_ne _ _ _ _ _ _ _ (.inl (by norm_num)), fun h1 h2 => absurd ⟨h1, h2⟩ h⟩

/-! ## Droops (R306, R309) -/

/-- The memory, the time, the cores and the registers are as they were. -/
structure State.DroopFrame (s t : State) : Prop where
  mem : t.mem = s.mem
  tick : t.tick = s.tick
  cores : t.cores = s.cores
  ctl : t.ctl = s.ctl

theorem exec_droopBegins (die : Fin 64) (demand : Nat) (s : State) : exec (.droopBegins die demand) s =
    .next (if s.powered && 64 ≤ demand then s.droopTo die.val demand else s) := rfl

theorem exec_droopPasses (die : Fin 64) (s : State) :
    exec (.droopPasses die) s = .next (if s.powered then s.droopEnds die.val else s) := rfl

/-- R306: the demand of the die rises to that of the droop. -/
theorem droopTo_spec (s : State) (d demand : Nat) :
    s.DroopFrame (s.droopTo d demand) ∧ ((s.droopTo d demand).die d).demand = max (s.die d).demand demand := by
  unfold State.droopTo
  split
  · next h =>
    refine ⟨⟨rfl, rfl, rfl, rfl⟩, ?_⟩
    rw [State.die_modDie, h, Nat.zero_max]
  · refine ⟨⟨rfl, rfl, rfl, rfl⟩, ?_⟩
    rw [State.die_modDie]

theorem droopEnds_spec {d : Nat} (h : (s.die d).demand ≠ 0) :
    s.DroopFrame (s.droopEnds d) ∧ ((s.droopEnds d).die d).demand = 0 := by
  rw [State.droopEnds, if_neg h]
  refine ⟨⟨rfl, rfl, rfl, rfl⟩, ?_⟩
  rw [State.die_modDie]

/-- Settles O44: the limit by its two cases, a measurement by what it moves, the last resort by the parts it stops, droops by the die. -/
theorem powerCap : Obligations.PowerCap := by
  intro who v mw die demand f0 s l f m past d measured kept same
  have said : ∀ {x : Nat} {more : State → Prop}, s.MeasuresTo mw x more → measured x more := fun ⟨t, he, hx, hm, hmore⟩ =>
    ⟨t, he, hx, hm.rate, hm.window, hm.mem, hm.cores, hm.nextCap, hmore, hm.energy⟩
  have framed : ∀ {t : State}, s.DroopFrame t → same t := fun h => ⟨h.mem, h.tick, h.cores, h.ctl⟩
  refine ⟨fun h => ?_, fun h => ?_, fun hpow => ⟨exec_measure_early mw, fun hdue hf => ?_, fun hover hfloor hlong => ?_, fun h => ?_,
    fun h => ?_, fun h => ?_, fun h => ?_, fun h => ?_⟩⟩
  · exact ⟨s.capWrite l, by rw [exec_mgtCapWrite, h, if_pos rfl], capWrite_spec s l⟩
  · rw [exec_mgtCapWrite, h, if_neg Bool.false_ne_true]
  · exact ⟨fun hp h32 => said (measure_lowersFactor hpow hdue hp h32 hf), fun hp h64 => said (measure_raisesFactor hpow hdue hp h64),
      fun hp h32 hrate harm => said (measure_lowersCeil hpow hdue hp h32 hrate harm),
      fun hp h32 hrate => said (measure_atLowest hpow hdue hp h32 hrate),
      fun hp h64 harm => said (measure_raisesCeil hpow hdue hp h64 harm)⟩
  · refine ⟨s.notHeld, ?_, notHeld_stops s⟩
    rw [exec_capNotHeld, hpow, hover, atFloor_some hfloor, decide_eq_true hlong]
    rfl
  · have hstays : (s.powered && s.slowOver && s.atFloor) = false := by
      rcases h with h | h | ⟨h, hshort⟩
      · rw [h, Bool.and_false, Bool.false_and]
      · rw [atFloor_none h, Bool.and_false]
      · rw [atFloor_some h, decide_eq_false (Nat.not_le.mpr hshort), Bool.and_false]
    rw [exec_capNotHeld, hstays, if_neg Bool.false_ne_true]
  · obtain ⟨hframe, hdemand⟩ := droopTo_spec s d demand
    refine ⟨s.droopTo d demand, ?_, framed hframe, hdemand⟩
    rw [exec_droopBegins, hpow, decide_eq_true h]
    rfl
  · rw [exec_droopBegins, decide_eq_false (Nat.not_le.mpr h), Bool.and_false, if_neg Bool.false_ne_true]
  · obtain ⟨hframe, hdemand⟩ := droopEnds_spec h
    exact ⟨s.droopEnds d, by rw [exec_droopPasses, hpow, if_pos rfl], framed hframe, hdemand⟩
  · rw [exec_droopPasses, hpow, if_pos rfl, State.droopEnds, if_pos h]

end Sys2Proof.Machine
end

