-- ==== Sys2Proof/Proofs/EngineWork.lean ====
section
/-! PROOFS. What the work of an engine command stores, and what its end leaves (R48, R122, R148, R149, R433). -/

namespace Sys2Proof.Machine

variable {s t u : State} {k q op : Nat} {it : Item} {x : Exec}

/-- The work of the command whose turn it is. -/
theorem work_of_works (h : s.Works k q op it x) (f : Item → Exec → State → State) : s.work k q op f = f it x s := by
  obtain ⟨hlive, hitem, hsquashed⟩ := h
  rw [State.work, hlive, hitem, hsquashed]
  rfl

/-! ## Bytes written -/

theorem tilesBecome_of_tiles {tile off : Nat} {bs : List Byte} (h : t.tiles = writeMem s.tiles (tileKey k tile off) bs) :
    s.TilesBecome t k tile off bs :=
  ⟨fun i hi => by rw [h]; exact get_writeMem_in _ _ _ _ hi, fun x hx => by rw [h]; exact get_writeMem_out _ _ _ _ hx⟩

/-! ## A register's bit, set -/

theorem putF_setBit (v : Word) (i : Nat) : putF v i 1 1 = v ||| BitVec.ofNat 64 (2 ^ i) := by
  have h : maskF i 1 = BitVec.ofNat 64 (2 ^ i) := by simp [maskF]
  rw [putF, h]
  ext j
  simp only [Nat.pow_one, Nat.one_mod, Nat.one_mul, BitVec.getElem_or, BitVec.getElem_and, BitVec.getElem_not]
  cases v[j] <;> simp

/-- NAR_SEEN set where `b` holds (R48). -/
def State.noteNar (s : State) (k : Nat) (b : Bool) : State := if b = true then s.setFld (aNumeric k) 17 1 1 else s

theorem rd_noteNar (s : State) (k : Nat) (b : Bool) :
    (s.noteNar k b).rd (aNumeric k) = if b = true then s.rd (aNumeric k) ||| 2 ^ 17 else s.rd (aNumeric k) := by
  unfold State.noteNar
  split
  · rw [State.setFld, State.rd_wr, putF_setBit]; rfl
  · rfl

theorem rd_noteNar_ne (s : State) {k a : Nat} (b : Bool) (h : a ≠ aNumeric k) : (s.noteNar k b).rd a = s.rd a := by
  unfold State.noteNar
  split
  · exact rd_setFld_other _ _ _ _ _ _ h
  · rfl

@[simp] theorem noteNar_mem (s : State) (k : Nat) (b : Bool) : (s.noteNar k b).mem = s.mem := by unfold State.noteNar; split <;> rfl
@[simp] theorem noteNar_tiles (s : State) (k : Nat) (b : Bool) : (s.noteNar k b).tiles = s.tiles := by
  unfold State.noteNar; split <;> rfl
@[simp] theorem noteNar_poison (s : State) (k : Nat) (b : Bool) : (s.noteNar k b).poison = s.poison := by
  unfold State.noteNar; split <;> rfl
@[simp] theorem noteNar_cores (s : State) (k : Nat) (b : Bool) : (s.noteNar k b).cores = s.cores := by
  unfold State.noteNar; split <;> rfl

/-! ## What an undamaged command stores -/

/-- Bytes of both memories were written, units lost their poison, and NAR_SEEN of core `k` was set where `nar` holds; nothing else
differs. -/
structure State.Stores (k : Nat) (nar : Bool) (s t : State) : Prop where
  frame : t = { s with mem := t.mem, tiles := t.tiles, poison := t.poison, ctl := t.ctl }
  numeric : t.rd (aNumeric k) = if nar = true then s.rd (aNumeric k) ||| 2 ^ 17 else s.rd (aNumeric k)
  rd : ∀ a, a ≠ aNumeric k → t.rd a = s.rd a
  poison : ∀ j space off, t.poisoned j space off = true → s.poisoned j space off = true

namespace State.Stores

theorem refl (k : Nat) (s : State) : State.Stores k false s s := ⟨rfl, rfl, fun _ _ => rfl, fun _ _ _ h => h⟩

theorem trans {b b' : Bool} (h : State.Stores k b s t) (h' : State.Stores k b' t u) : State.Stores k (b || b') s u where
  frame := Eq.trans h'.frame (by rw [h.frame])
  numeric := by
    rw [h'.numeric, h.numeric]
    cases b <;> cases b' <;> simp [BitVec.or_assoc]
  rd a ha := (h'.rd a ha).trans (h.rd a ha)
  poison j space off hp := h.poison j space off (h'.poison j space off hp)

theorem noteNar (s : State) (k : Nat) (b : Bool) : State.Stores k b s (s.noteNar k b) where
  frame := by unfold State.noteNar; split <;> rfl
  numeric := rd_noteNar s k b
  rd _ ha := rd_noteNar_ne s b ha
  poison j space off h := by rwa [State.poisoned, noteNar_poison] at h

theorem cores {b : Bool} (h : State.Stores k b s t) : t.cores = s.cores := by rw [h.frame]
theorem core {b : Bool} (h : State.Stores k b s t) (j : Nat) : t.core j = s.core j := by rw [State.core, h.cores]; rfl

end State.Stores

/-- A write that does not poison clears poison alone. -/
theorem clearPoison_stores (k j space off n : Nat) (l : List Nat) (s : State) :
    State.Stores k false s (l.foldl (poisonWrite j space off n false) s) ∧
      (l.foldl (poisonWrite j space off n false) s).mem = s.mem ∧ (l.foldl (poisonWrite j space off n false) s).tiles = s.tiles := by
  induction l generalizing s with
  | nil => exact ⟨.refl k s, rfl, rfl⟩
  | cons a l ih =>
    have hstep : State.Stores k false s (poisonWrite j space off n false s a) ∧
        (poisonWrite j space off n false s a).mem = s.mem ∧ (poisonWrite j space off n false s a).tiles = s.tiles := by
      unfold poisonWrite
      rw [if_neg Bool.false_ne_true]
      split
      · refine ⟨⟨rfl, rfl, fun _ _ => rfl, fun i sp o h => ?_⟩, rfl, rfl⟩
        rw [State.poisoned, State.setPoison, Tbl.get_set] at h
        split at h
        · cases h
        · exact h
      · exact ⟨.refl k s, rfl, rfl⟩
    obtain ⟨hs, hm, ht⟩ := hstep
    obtain ⟨hs', hm', ht'⟩ := ih (poisonWrite j space off n false s a)
    exact ⟨hs.trans hs', hm'.trans hm, ht'.trans ht⟩

/-- A clean write into activation or partial-sum memory. -/
theorem coreWrite_stores {space : Nat} (hspace : space ≠ 0) (s : State) (k off : Nat) (bs : List Byte) :
    State.Stores k false s (s.coreWrite k space off bs false) ∧
      (s.coreWrite k space off bs false).mem = writeMem s.mem (coreAddr k space off) bs ∧
      (s.coreWrite k space off bs false).tiles = s.tiles := by
  have heq : s.coreWrite k space off bs false = (unitsOf space off bs.length).foldl (poisonWrite k space off bs.length false)
      { s with mem := writeMem s.mem (coreAddr k space off) bs } := by
    unfold State.coreWrite
    simp only [hspace, false_and, if_false]
    split <;> rfl
  have hmem : State.Stores k false s { s with mem := writeMem s.mem (coreAddr k space off) bs } :=
    ⟨rfl, rfl, fun _ _ => rfl, fun _ _ _ h => h⟩
  rw [heq]
  obtain ⟨hs, hm, ht⟩ := clearPoison_stores k k space off bs.length (unitsOf space off bs.length)
    { s with mem := writeMem s.mem (coreAddr k space off) bs }
  exact ⟨hmem.trans hs, hm, ht⟩

/-- A clean write of a tile. -/
theorem tileWrite_stores (s : State) (k tile off : Nat) (bs : List Byte) :
    State.Stores k false s (s.tileWrite k tile off bs false) ∧ (s.tileWrite k tile off bs false).mem = s.mem ∧
      (s.tileWrite k tile off bs false).tiles = writeMem s.tiles (tileKey k tile off) bs := by
  have htiles : State.Stores k false s { s with tiles := writeMem s.tiles (tileKey k tile off) bs } :=
    ⟨rfl, rfl, fun _ _ => rfl, fun _ _ _ h => h⟩
  obtain ⟨hs, hm, ht⟩ := clearPoison_stores k k 3 (tile * 16384 + off) bs.length (unitsOf 3 (tile * 16384 + off) bs.length)
    { s with tiles := writeMem s.tiles (tileKey k tile off) bs }
  exact ⟨htiles.trans hs, hm, ht⟩

/-! ## The end of a brayer command (R148, R149) -/

/-- The codes of an undamaged command (R47). -/
def satCodes (sat : Bool) : List Nat := if sat = true then [cSATURATED] else []

/-- The counters of R148 and R149, raised. -/
def State.brCount (s : State) (k : Nat) (it : Item) : State :=
  (s.addFld (aCoreK k 0x2D8) 0 64 it.blen).addFld (aCoreK k 0x2D0) 0 64 (ceilDiv it.blen (brRate it.desc))

theorem brDone_undamaged (s : State) (k q : Nat) (it : Item) (sat : Bool) :
    s.brDone k q it none sat = (s.brCount k it).workDone k q it (satCodes sat) 0 := rfl

theorem rd_brCount_elems (s : State) (k : Nat) (it : Item) :
    (s.brCount k it).rd (aCoreK k 0x2D8) = s.rd (aCoreK k 0x2D8) + BitVec.ofNat 64 it.blen := by
  rw [State.brCount, State.addFld, rd_setFld_other _ _ _ _ _ _ (aCoreK_inj.not.mpr (by norm_num)), rd_addFld_word]

theorem rd_brCount_beats (s : State) (k : Nat) (it : Item) :
    (s.brCount k it).rd (aCoreK k 0x2D0) = s.rd (aCoreK k 0x2D0) + BitVec.ofNat 64 (ceilDiv it.blen (brRate it.desc)) := by
  rw [State.brCount, rd_addFld_word, State.addFld, rd_setFld_other _ _ _ _ _ _ (aCoreK_inj.not.mpr (by norm_num))]

theorem rd_brCount_ne (s : State) (k : Nat) (it : Item) {a : Nat} (h : a ≠ aCoreK k 0x2D8) (h' : a ≠ aCoreK k 0x2D0) :
    (s.brCount k it).rd a = s.rd a := by
  rw [State.brCount, State.addFld, rd_setFld_other _ _ _ _ _ _ h', State.addFld, rd_setFld_other _ _ _ _ _ _ h]

/-- An undamaged brayer command that has stored its results ends. -/
theorem State.Stores.brDone {nar : Bool} (h : State.Stores k nar s u) (q : Nat) (it : Item) (sat : Bool) :
    s.BrayerEndsNar (u.brDone k q it none sat) k q it (satCodes sat) nar ∧ (u.brDone k q it none sat).mem = u.mem ∧
      (u.brDone k q it none sat).tiles = u.tiles := by
  have helems : aCoreK k 0x2D8 ≠ aNumeric k := aCoreK_inj.not.mpr (by norm_num)
  have hbeats : aCoreK k 0x2D0 ≠ aNumeric k := aCoreK_inj.not.mpr (by norm_num)
  rw [brDone_undamaged]
  refine ⟨⟨⟨fun j hj => ?_, fun a ha => ?_, ?_⟩, ?_, ?_, ?_, ?_⟩, rfl, rfl⟩
  · exact (State.core_modCore_ne _ _ hj).trans (h.core j)
  · exact (rd_brCount_ne u k it (ha _ rfl) (ha _ rfl)).trans (h.rd a (ha _ rfl))
  · rw [h.frame]
    exact ⟨rfl, rfl, rfl, rfl, rfl, rfl, rfl, rfl, rfl, rfl⟩
  · rw [← h.core k]; exact State.core_modCore ..
  · exact (rd_brCount_ne u k it helems.symm hbeats.symm).trans h.numeric
  · exact (rd_brCount_elems u k it).trans (by rw [h.rd _ helems])
  · exact (rd_brCount_beats u k it).trans (by rw [h.rd _ hbeats])

end Sys2Proof.Machine
end

