-- ==== Sys2Proof/Proofs/Conversions.lean ====
section
/-! PROOFS. `BR_CVT` and `BR_QUANT` (R47, R48, R52, R54, R134 to R137). -/

namespace Sys2Proof.Machine

variable {s t u : State} {k q op : Nat} {it : Item} {x : Exec} {bad : List Nat}

/-! ## Lists of elements -/

theorem zipIdx_map_range {α β : Type} (n : Nat) (g : Nat → α) (f : α × Nat → β) :
    (((List.range n).map g).zipIdx).map f = (List.range n).map fun i => f (g i, i) :=
  List.ext_getElem (by simp) fun i _ _ => by simp

/-- Results written to operand D by an undamaged command. -/
theorem putTile_stores (s : State) (k : Nat) (d : Wide) (es nan : Nat) (xs : List Nat) :
    State.Stores k false s (s.putTile k d es nan xs false) ∧ (s.putTile k d es nan xs false).mem = s.mem ∧
      (s.putTile k d es nan xs false).tiles = writeMem s.tiles
        (tileKey k (tileOp d 48 es xs.length true).tile ((tileOp d 48 es xs.length true).off * es)) (elemBytes es xs) :=
  tileWrite_stores ..

/-- The rounding modes hang on the seed, the stream and the counter alone. -/
theorem modeOf_congr (h : t.rd (aCoreK k 0x2C0) = s.rd (aCoreK k 0x2C0)) (d : Wide) (i : Nat) : t.modeOf k d i = s.modeOf k d i := by
  rw [State.modeOf, State.modeOf, h]

theorem modeOf_noteNar (s : State) (k : Nat) (b : Bool) : (s.noteNar k b).modeOf k = s.modeOf k :=
  funext fun d => funext fun i => modeOf_congr (rd_noteNar_ne s b (aCoreK_inj.not.mpr (by norm_num))) d i

/-! ## `BR_CVT` (R134) -/

/-- Entry `i` of the source (R127). -/
def State.cvtEntry (s : State) (k : Nat) (h d : Wide) (i : Nat) : Word :=
  BitVec.ofNat 64 (s.coreNat k 2 (hBASE h + bMOFF d + i * bMSTRIDE d * 8) 8)

/-- It through the converter into format `f`, in the mode of element `i`. -/
def State.cvtElem (s : State) (k : Nat) (h d : Wide) (f : Fmt) (i : Nat) : Nat × Bool :=
  cvtPs f (s.cvtEntry k h d i) (hPSCALE h) (s.modeOf k d i)

/-- An entry of the source is NaR (R48). -/
def State.cvtNar (s : State) (k : Nat) (h d : Wide) (n : Nat) : Bool := (List.range n).any fun i => decide (s.cvtEntry k h d i = psNaR)

/-- The work of an undamaged `BR_CVT`, in terms of its elements. -/
theorem cvtWork_undamaged (hdmg : s.memDamage k 2 (x.handle (bMH it.desc)) it.desc 8 it.blen bad = none) :
    let d := it.desc
    let h := x.handle (bMH d)
    let o := x.handle (bOH d)
    let u := s.noteNar k (s.cvtNar k h d it.blen)
    let ys := fun f => (List.range it.blen).map fun i => (s.cvtElem k h d f i).1
    let sat := fun f => (List.range it.blen).any fun i => (s.cvtElem k h d f i).2
    s.cvtWork k q bad it x =
      if bCDST d = 1 then
        (u.coreWrite k 1 (hBASE o + bIMM d % 2 ^ 20) (elemBytes 1 (ys (fp8 (hFORMAT o)))) false).brDone k q it none
          (sat (fp8 (hFORMAT o)))
      else
        let f := if bET d = 0 then fp32 else bf16
        (u.putTile k d (etSize (bET d)) (etNaN (bET d)) (ys f) false).brDone k q it none (sat f) := by
  intro d h o u ys sat
  have hws : (memOffs h d 8 it.blen).map (fun o => BitVec.ofNat 64 (s.coreNat k 2 o 8)) = (List.range it.blen).map (s.cvtEntry k h d) := by
    rw [memOffs, List.map_map]; rfl
  have hnar : (if psNaR ∈ (List.range it.blen).map (s.cvtEntry k h d) then s.setFld (aNumeric k) 17 1 1 else s) = u := by
    change _ = if _ then _ else _
    refine if_congr ?_ rfl rfl
    simp [State.cvtNar]
  have hmode : u.modeOf k = s.modeOf k := modeOf_noteNar ..
  unfold State.cvtWork
  dsimp only
  rw [hws, hnar, hdmg, hmode]
  simp only [zipIdx_map_range, List.map_map, List.any_map]
  rfl

theorem exec_brCvt {c : CoreId} {q : Fin 16} (h : s.Works (kOf c) q.val 0x35 it x) (bad : List Nat) :
    exec (.brCvt c q bad) s = .next (s.cvtWork (kOf c) q.val bad it x) :=
  congrArg Host.Outcome.next (work_of_works h _)

/-! ## `BR_QUANT` (R135, R136) -/

/-- Element `i` of the source. -/
def State.quantSrc (s : State) (k : Nat) (d : Wide) (n i : Nat) : Nat :=
  s.tileNat k (tileOp d 64 4 n false).tile (((tileOp d 64 4 n false).off + i * (tileOp d 64 4 n false).stride) * 4) 4

/-- Block `b` of `n` elements `v`, zeros filling the last (R136). -/
def quantBlockAt (f n : Nat) (v : Nat → Nat) (mode : Nat → RMode) (b : Nat) : Nat × List Nat :=
  quantBlock f ((List.range 32).map fun j => if 32 * b + j < n then v (32 * b + j) else 0) fun j => mode (32 * b + j)

theorem le_ceilDiv_mul (n : Nat) : n ≤ ceilDiv n 32 * 32 := by unfold ceilDiv; omega

/-- The elements of block `b` among those of an MX vector filled up with zeros. -/
theorem block_of_filled (n : Nat) (v : Nat → Nat) {b : Nat} (hb : b < ceilDiv n 32) :
    (((List.range n).map v ++ List.replicate (ceilDiv n 32 * 32 - n) 0).drop (32 * b)).take 32 =
      (List.range 32).map fun j => if 32 * b + j < n then v (32 * b + j) else 0 := by
  have hn := le_ceilDiv_mul n
  refine List.ext_getElem (by simp; omega) fun j hj hj' => ?_
  simp only [List.getElem_take, List.getElem_drop, List.getElem_map, List.getElem_range, List.getElem_append, List.length_map,
    List.length_range, List.getElem_replicate, dite_eq_ite]

theorem mxBytes_undamaged (f n : Nat) (v : Nat → Nat) (mode : Nat → RMode) :
    mxBytes f ((List.range n).map v) mode false =
      ((List.range (ceilDiv n 32)).map (quantBlockAt f n v mode)).flatMap (fun b => pack (fmtBits f) b.2) ++
        ((List.range (ceilDiv n 32)).map (quantBlockAt f n v mode)).map fun b => BitVec.ofNat 8 b.1 := by
  have hblocks : (List.range (ceilDiv n 32)).map (fun b => quantBlock f
      ((((List.range n).map v ++ List.replicate (ceilDiv n 32 * 32 - n) 0).drop (32 * b)).take 32) fun i => mode (32 * b + i)) =
      (List.range (ceilDiv n 32)).map (quantBlockAt f n v mode) :=
    List.map_congr_left fun b hb => by rw [block_of_filled n v (List.mem_range.1 hb)]; rfl
  unfold mxBytes
  simp only [List.length_map, List.length_range, hblocks, Bool.false_eq_true, if_false]

/-- The work of an undamaged `BR_QUANT`, in terms of its elements. -/
theorem quantWork_undamaged (hdmg : s.tileDamage k bad it.desc it.blen = none) :
    let d := it.desc
    let h := x.handle (bMH d)
    let r := fun i => quantPlain (fp8 (hFORMAT h)) (s.quantSrc k d it.blen i) (s.modeOf k d i)
    s.quantWork k q bad it x =
      if fmtMX (hFORMAT h) then
        (s.coreWrite k 1 (hBASE h + bMOFF d)
          (mxBytes (hFORMAT h) ((List.range it.blen).map (s.quantSrc k d it.blen)) (s.modeOf k d) false) false).brDone k q it none false
      else
        (s.putMem k 1 h d 1 ((List.range it.blen).map fun i => (r i).1) false).brDone k q it none
          ((List.range it.blen).any fun i => (r i).2) := by
  intro d h r
  have hxs : s.tileRead k (tileOp d 64 4 it.blen false) = (List.range it.blen).map (s.quantSrc k d it.blen) := rfl
  unfold State.quantWork
  dsimp only
  rw [hxs, hdmg]
  simp only [zipIdx_map_range, List.map_map, List.any_map]
  rfl

theorem exec_brQuant {c : CoreId} {q : Fin 16} (h : s.Works (kOf c) q.val 0x36 it x) (bad : List Nat) :
    exec (.brQuant c q bad) s = .next (s.quantWork (kOf c) q.val bad it x) :=
  congrArg Host.Outcome.next (work_of_works h _)

/-! ## The obligation -/

/-- An undamaged command whose results go to memory ends there. -/
theorem brDone_coreWrite {nar : Bool} (h : State.Stores k nar s u) (htiles : u.tiles = s.tiles) (hmem : u.mem = s.mem) {space : Nat}
    (hspace : space ≠ 0) (q off : Nat) (it : Item) (bs : List Byte) (sat : Bool) :
    let t := (u.coreWrite k space off bs false).brDone k q it none sat
    t.tiles = s.tiles ∧ s.BrayerEndsNar t k q it (satCodes sat) nar ∧ s.BytesBecome t (coreAddr k space off) bs := by
  obtain ⟨hstores, hm, ht⟩ := coreWrite_stores hspace u k off bs
  obtain ⟨hend, hm', ht'⟩ := (h.trans hstores).brDone q it sat
  rw [Bool.or_false] at hend
  exact ⟨ht'.trans (ht.trans htiles), hend, bytesBecome_of_mem (hm'.trans (hm.trans (by rw [hmem])))⟩

/-- One whose results go to a tile. -/
theorem brDone_putTile {nar : Bool} (h : State.Stores k nar s u) (htiles : u.tiles = s.tiles) (hmem : u.mem = s.mem) (q : Nat) (it : Item)
    (d : Wide) (es nan : Nat) (xs : List Nat) (sat : Bool) :
    let t := (u.putTile k d es nan xs false).brDone k q it none sat
    t.mem = s.mem ∧ s.BrayerEndsNar t k q it (satCodes sat) nar ∧
      s.TilesBecome t k (tileOp d 48 es xs.length true).tile ((tileOp d 48 es xs.length true).off * es) (elemBytes es xs) := by
  obtain ⟨hstores, hm, ht⟩ := putTile_stores u k d es nan xs
  obtain ⟨hend, hm', ht'⟩ := (h.trans hstores).brDone q it sat
  rw [Bool.or_false] at hend
  exact ⟨hm'.trans (hm.trans hmem), hend, tilesBecome_of_tiles (ht'.trans (ht.trans (by rw [htiles])))⟩

/-- Settles O20: each command's work in terms of its elements, and where they are stored. -/
theorem brayerConversions : Obligations.BrayerConversions := by
  refine ⟨fun c q bad s it x => ?_, fun c q bad s it x => ?_⟩
  · intro k d h w r codes nar hworks hdmg
    have hexec := exec_brCvt hworks bad
    have hnoted : State.Stores k nar s (s.noteNar k nar) := .noteNar s k nar
    have htiles := noteNar_tiles s k nar
    have hmem := noteNar_mem s k nar
    refine ⟨fun hdst => ?_, fun hdst => ?_⟩
    · intro f
      rw [cvtWork_undamaged hdmg, if_neg (by rw [hdst]; norm_num)] at hexec
      have hput := brDone_putTile hnoted htiles hmem q.val it d (etSize (bET d)) (etNaN (bET d))
        ((List.range it.blen).map fun i => (r f i).1) ((List.range it.blen).any fun i => (r f i).2)
      rw [List.length_map, List.length_range] at hput
      exact ⟨_, hexec, hput⟩
    · intro f
      rw [cvtWork_undamaged hdmg, if_pos hdst] at hexec
      exact ⟨_, hexec, brDone_coreWrite hnoted htiles hmem (by norm_num) ..⟩
  · intro k d h A v hworks hdmg
    have hexec := exec_brQuant hworks bad
    refine ⟨fun hplain hstride => ?_, fun hmx => ?_⟩
    · intro r
      rw [quantWork_undamaged hdmg, if_neg (by rw [hplain]; exact Bool.false_ne_true), State.putMem, if_pos hstride] at hexec
      exact ⟨_, hexec, brDone_coreWrite (.refl k s) rfl rfl (by norm_num) ..⟩
    · intro blocks
      rw [quantWork_undamaged hdmg, if_pos hmx, mxBytes_undamaged] at hexec
      exact ⟨_, hexec, brDone_coreWrite (.refl k s) rfl rfl (by norm_num) ..⟩

end Sys2Proof.Machine
end

