-- ==== Sys2Proof/Proofs/Transfers.lean ====
section
/-! PROOFS. What a transfer that begins leaves: all that can moves on its way out, and no transfer is lost (R204, R206, R223, R260, R268). -/

namespace Sys2Proof.Machine

variable {s t u : State} {k : Nat}

/-- What names a transfer: its number, its command, the core and the handle that it goes to. -/
def Xfer.ident (x : Xfer) : BitVec 12 × Nat × Nat × Nat × BitVec 20 × Nat := (x.txid, x.queue, x.seq, x.opcode, x.dest, x.dh)

theorem ident_fresh (n : BitVec 12) (q : Nat) (it : Item) (dest : BitVec 20) (dh : Nat) (circ : Option (BitVec 12)) (ps : List Packet) :
    (Xfer.fresh n q it dest dh circ ps).ident = (n, q, it.seq, dOP it.desc, dest, dh) := rfl

/-- A core whose transfers have moved on: beside them, what it awaits, the flagged packets it holds and its turn, nothing differs. -/
structure Core.SendsOn (c c' : Core) : Prop where
  frame : c' = { c with xfers := c'.xfers, awaiting := c'.awaiting, held := c'.held, lastSent := c'.lastSent }
  idents : c'.xfers.map Xfer.ident = c.xfers.map Xfer.ident

/-- The same of the state: packets in flight, credit messages, Ronnen ports and core `k` apart, nothing differs. -/
structure State.SendsOn (k : Nat) (s t : State) : Prop where
  frame : t = { s with cores := t.cores, net := t.net, creditNet := t.creditNet, rnnTurn := t.rnnTurn, rports := t.rports }
  others : ∀ j, j ≠ k → t.core j = s.core j
  core : (s.core k).SendsOn (t.core k)

theorem Core.SendsOn.refl (c : Core) : c.SendsOn c := ⟨rfl, rfl⟩

theorem Core.SendsOn.trans {c d e : Core} (h : c.SendsOn d) (h' : d.SendsOn e) : c.SendsOn e :=
  ⟨Eq.trans h'.frame (by rw [h.frame]), h'.idents.trans h.idents⟩

namespace State.SendsOn

theorem refl (k : Nat) (s : State) : State.SendsOn k s s := ⟨rfl, fun _ _ => rfl, .refl _⟩

theorem trans (h : State.SendsOn k s t) (h' : State.SendsOn k t u) : State.SendsOn k s u :=
  ⟨Eq.trans h'.frame (by rw [h.frame]), fun j hj => (h'.others j hj).trans (h.others j hj), h.core.trans h'.core⟩

theorem modCore {f : Core → Core} (hf : ∀ c : Core, c.SendsOn (f c)) (s : State) : State.SendsOn k s (s.modCore k f) :=
  ⟨rfl, fun _ hj => State.core_modCore_ne s f hj, by rw [State.core_modCore]; exact hf _⟩

theorem of_sendFrame (h : s.SendFrame t) : State.SendsOn k s t :=
  ⟨Eq.trans h (by rw [h]), fun j _ => h.core j, by rw [h.core]; exact .refl _⟩

end State.SendsOn

theorem idents_map {l : List Xfer} {f : Xfer → Xfer} (hf : ∀ x : Xfer, (f x).ident = x.ident) : (l.map f).map Xfer.ident = l.map Xfer.ident := by
  rw [List.map_map]
  exact List.map_congr_left fun x _ => hf x

theorem updXfer_sendsOn (c : Core) (n : BitVec 12) {f : Xfer → Xfer} (hf : ∀ x : Xfer, (f x).ident = x.ident) :
    c.SendsOn (c.updXfer n f) := by
  refine ⟨rfl, idents_map fun x => ?_⟩
  split
  · exact hf x
  · rfl

theorem leave_sendsOn (s : State) (k : Nat) (p : Packet) : State.SendsOn k s (s.leave k p) := by
  have hawait : ∀ (c : Core) (l : Tbl Nat), c.SendsOn { c with awaiting := l } := fun _ _ => ⟨rfl, rfl⟩
  unfold State.leave
  dsimp only
  exact (State.SendsOn.modCore (fun c => hawait c _) s).trans (.of_sendFrame (inject_frame _ _))

theorem sendHead_sendsOn (s : State) (k : Nat) (x : Xfer) : State.SendsOn k s (s.sendHead k x) := by
  unfold State.sendHead
  split
  · exact .refl k s
  · refine .trans (.modCore (fun c => ?_) s) (leave_sendsOn ..)
    exact updXfer_sendsOn c _ fun _ => rfl

theorem sendAll_sendsOn (k n : Nat) (s : State) : State.SendsOn k s (sendAll k n s) := by
  have hturn : ∀ (c : Core) (x : Xfer), c.SendsOn { c with lastSent := x.txid } := fun _ _ => ⟨rfl, rfl⟩
  induction n generalizing s with
  | zero => exact .refl k s
  | succ n ih =>
    unfold sendAll
    split
    · next x _ => exact ((sendHead_sendsOn ..).trans (.modCore (fun c => hturn c x) _)).trans (ih _)
    · exact .refl k s

theorem requestAll_sendsOn (s : State) (k : Nat) : State.SendsOn k s (s.requestAll k) := by
  obtain ⟨u, hu⟩ : ∃ u, u = s.modCore k fun c => { c with
    xfers := (s.core k).xfers.map fun x => { x with requested := x.requested + x.asks } } := ⟨_, rfl⟩
  have hask : s.requestAll k = { u with creditNet := (s.requestAll k).creditNet } := by rw [hu]; rfl
  have hcore : (s.core k).SendsOn (u.core k) := by
    rw [hu, State.core_modCore]
    exact ⟨rfl, idents_map fun _ => rfl⟩
  rw [hask]
  refine ⟨by rw [hu]; rfl, fun j hj => ?_, hcore⟩
  exact (congrArg (State.core · j) hu).trans (State.core_modCore_ne s _ hj)

theorem holdFlags_sendsOn (s : State) (k : Nat) : State.SendsOn k s (s.holdFlags k) := by
  refine .modCore (fun c => ⟨rfl, idents_map fun x => ?_⟩) s
  split <;> rfl

theorem pump_sendsOn (s : State) (k : Nat) : State.SendsOn k s (s.pump k) :=
  ((requestAll_sendsOn s k).trans (sendAll_sendsOn ..)).trans (holdFlags_sendsOn ..)

/-- Transfer `x` of core `k` has begun: the memories, the other cores and the scalar registers are as they were. -/
structure State.Begins (k : Nat) (x : Xfer) (s t : State) : Prop where
  mem : t.mem = s.mem
  tiles : t.tiles = s.tiles
  others : ∀ j, j ≠ k → t.core j = s.core j
  sreg : (t.core k).sreg = (s.core k).sreg
  has : ∃ y ∈ (t.core k).xfers, y.ident = x.ident

theorem startXfer_begins (s : State) (k : Nat) (x : Xfer) : State.Begins k x s (s.startXfer k x) := by
  obtain ⟨u, hu⟩ : ∃ u, u = s.modCore k fun c => { (c.updExec x.queue x.seq fun e => { e with txid := some x.txid }) with
    xfers := c.xfers ++ [x], nextTx := x.txid + 1 } := ⟨_, rfl⟩
  have ht : s.startXfer k x = u.pump k := by rw [hu]; rfl
  have h := pump_sendsOn u k
  have hcore : (u.core k).xfers = (s.core k).xfers ++ [x] ∧ (u.core k).sreg = (s.core k).sreg := by
    rw [hu, State.core_modCore]; exact ⟨rfl, rfl⟩
  rw [ht]
  refine ⟨?_, ?_, fun j hj => ?_, ?_, ?_⟩
  · rw [h.frame, hu]; rfl
  · rw [h.frame, hu]; rfl
  · rw [h.others j hj, hu, State.core_modCore_ne _ _ hj]
  · rw [h.core.frame]; exact hcore.2
  · have hmem : x.ident ∈ ((u.pump k).core k).xfers.map Xfer.ident := by rw [h.core.idents, hcore.1]; simp
    exact List.mem_map.1 hmem

/-- What a command does to its own execution afterwards, and to registers, leaves that so. -/
theorem State.Begins.updExec {x : Xfer} (h : State.Begins k x s t) (hmem : u.mem = t.mem) (htiles : u.tiles = t.tiles)
    (hcores : u.cores = t.cores) (q n : Nat) (f : Exec → Exec) : State.Begins k x s (u.modCore k fun c => c.updExec q n f) := by
  have hcore : ∀ j, u.core j = t.core j := fun j => by rw [State.core, hcores]; rfl
  have hk : (u.modCore k fun c => c.updExec q n f).core k = (t.core k).updExec q n f := by rw [State.core_modCore, hcore]
  refine ⟨hmem.trans h.mem, htiles.trans h.tiles, fun j hj => ?_, ?_, ?_⟩
  · rw [State.core_modCore_ne _ _ hj, hcore, h.others j hj]
  · rw [hk]; exact h.sreg
  · rw [hk]; exact h.has

end Sys2Proof.Machine
end

