-- ==== Sys2Proof/Proofs/Reductions.lean ====
section
/-! PROOFS. `BR_RSUM`, `BR_RSUMSQ` and `BR_RDOT` (R45 to R48, R104, R139, R140). -/

namespace Sys2Proof.Machine

variable {s t u : State} {k q : Nat} {it : Item} {x : Exec} {bad : List Nat}

/-! ## Poison and damage (R433, R439) -/

theorem unitOf_pos (space : Nat) : 0 < unitOf space := by unfold unitOf; split_ifs <;> norm_num

/-- A byte's unit has the byte's poison bit. -/
theorem poisoned_unit (s : State) (k space o : Nat) : s.poisoned k space (o / unitOf space * unitOf space) = s.poisoned k space o := by
  simp only [State.poisoned, poisonKey, locOf, Nat.mul_div_cancel _ (unitOf_pos space)]

theorem unit_mem_unitsOf {space off n o : Nat} (hlo : off ≤ o) (hhi : o < off + n) :
    o / unitOf space * unitOf space ∈ unitsOf space off n := by
  have h1 : off / unitOf space ≤ o / unitOf space := Nat.div_le_div_right hlo
  have h2 : o / unitOf space ≤ (off + n - 1) / unitOf space := Nat.div_le_div_right (by omega)
  rw [unitsOf, if_neg (by omega), List.mem_map]
  exact ⟨o / unitOf space - off / unitOf space, List.mem_range.2 (by omega), by rw [Nat.add_sub_cancel' h1]⟩

/-- No byte of an undamaged range is poisoned. -/
theorem clean_of_damage {space off n o : Nat} (h : s.damage k space off n bad = none) (hlo : off ≤ o) (hhi : o < off + n) :
    s.poisoned k space o = false := by
  have hall := List.find?_eq_none.1 (Option.map_eq_none_iff.1 h) _ (unit_mem_unitsOf hlo hhi)
  rw [poisoned_unit] at hall
  exact Bool.eq_false_iff.2 fun hp => hall (by rw [hp, Bool.true_or])

/-! ## One result stored (R46, R48, R104) -/

/-- An entry of partial-sum memory. -/
def State.psEntry (s : State) (k off : Nat) : Word := BitVec.ofNat 64 (s.coreNat k 2 off 8)

theorem storeOne_plain (s : State) (k off : Nat) (w : Word) :
    s.storeOne k false off w false = (s.coreWrite k 2 off (leBytes 8 w.toNat) false, false) := by
  simp [State.storeOne]

/-- An addition to a clean entry, which notes a NaR there. -/
theorem storeOne_add {off : Nat} (h : s.poisoned k 2 off = false) (w : Word) :
    s.storeOne k true off w false = ((s.noteNar k (decide (s.psEntry k off = psNaR))).coreWrite k 2 off
      (leBytes 8 (psAdd (s.psEntry k off) w).1.toNat) false, (psAdd (s.psEntry k off) w).2) := by
  have hentry : s.psEntry k off = BitVec.ofNat 64 (s.coreNat k 2 off 8) := rfl
  rw [hentry]
  by_cases hnar : BitVec.ofNat 64 (s.coreNat k 2 off 8) = psNaR <;> simp [State.storeOne, h, State.noteNar, hnar]

/-! ## The sums (R139) -/

theorem asFp32_tileRead (s : State) (k : Nat) (d : Wide) {o : TOp} (hes : o.es = etSize (bET d)) :
    asFp32 (bET d) (s.tileRead k o) = (List.range o.n).map (s.tileElem k d o) := by
  have hread : s.tileRead k o = (List.range o.n).map fun i =>
      s.tileNat k o.tile ((o.off + i * o.stride) * etSize (bET d)) (etSize (bET d)) := by rw [State.tileRead, hes]
  rw [hread]
  unfold asFp32 State.tileElem
  split <;> simp_all

theorem srcA_eq (s : State) (k : Nat) (d : Wide) (n : Nat) : s.srcA k d n = (List.range n).map (s.tileElem k d (opA d n)) :=
  asFp32_tileRead s k d rfl

/-- An exact sum of the products of two lists, element by element. -/
theorem dot_map_range (n : Nat) (f g : Nat → Option (Int × Int)) (L : Int) :
    dot ((List.range n).map f) ((List.range n).map g) L = (List.range n).foldl (fun acc j => acc.add (f j) (g j) L) Acc.zero := by
  rw [dot, List.zip_map', List.foldl_map]

/-- The sums of the three commands. -/
def rsumOf (k : Nat) (s : State) (d : Wide) (n : Nat) : Acc := (s.srcA k d n).foldl (fun a x => termOf x (bASCALE d) a) Acc.zero

def rsumsqOf (k : Nat) (s : State) (d : Wide) (n : Nat) : Acc :=
  dot ((s.srcA k d n).map decFp32) ((s.srcA k d n).map decFp32) (bASCALE d)

def rdotOf (k : Nat) (s : State) (d : Wide) (n : Nat) : Acc :=
  dot ((s.srcA k d n).map decFp32) ((asFp32 (bET d) (s.tileRead k (opB d n))).map decFp32) (bASCALE d)

theorem rsumOf_eq (k : Nat) (s : State) (d : Wide) (n : Nat) : rsumOf k s d n =
    (List.range n).foldl (fun acc j => acc.add (some (1, 0)) (decFp32 (s.tileElem k d (opA d n) j)) (bASCALE d)) Acc.zero := by
  rw [rsumOf, srcA_eq, List.foldl_map]
  rfl

theorem rsumsqOf_eq (k : Nat) (s : State) (d : Wide) (n : Nat) : rsumsqOf k s d n = (List.range n).foldl (fun acc j =>
    acc.add (decFp32 (s.tileElem k d (opA d n) j)) (decFp32 (s.tileElem k d (opA d n) j)) (bASCALE d)) Acc.zero := by
  rw [rsumsqOf, srcA_eq, List.map_map]
  exact dot_map_range ..

theorem rdotOf_eq (k : Nat) (s : State) (d : Wide) (n : Nat) : rdotOf k s d n = (List.range n).foldl (fun acc j =>
    acc.add (decFp32 (s.tileElem k d (opA d n) j)) (decFp32 (s.tileElem k d (opB d n) j)) (bASCALE d)) Acc.zero := by
  rw [rdotOf, srcA_eq, asFp32_tileRead s k d rfl, List.map_map, List.map_map]
  exact dot_map_range ..

theorem exec_brRsum {c : CoreId} {q : Fin 16} (h : s.Works (kOf c) q.val 0x37 it x) (bad : List Nat) :
    exec (.brRsum c q bad) s = .next (s.reduceWork (kOf c) q.val bad it x (rsumOf (kOf c))) :=
  congrArg Host.Outcome.next (work_of_works h fun it x s => s.reduceWork (kOf c) q.val bad it x (rsumOf (kOf c)))

theorem exec_brRsumsq {c : CoreId} {q : Fin 16} (h : s.Works (kOf c) q.val 0x38 it x) (bad : List Nat) :
    exec (.brRsumsq c q bad) s = .next (s.reduceWork (kOf c) q.val bad it x (rsumsqOf (kOf c))) :=
  congrArg Host.Outcome.next (work_of_works h fun it x s => s.reduceWork (kOf c) q.val bad it x (rsumsqOf (kOf c)))

theorem exec_brRdot {c : CoreId} {q : Fin 16} (h : s.Works (kOf c) q.val 0x39 it x) (bad : List Nat) :
    exec (.brRdot c q bad) s = .next (s.reduceWork (kOf c) q.val bad it x (rdotOf (kOf c))) :=
  congrArg Host.Outcome.next (work_of_works h fun it x s => s.reduceWork (kOf c) q.val bad it x (rdotOf (kOf c)))

/-! ## One sum delivered (R104, R140) -/

section Deliver

variable {sum : State → Wide → Nat → Acc} (hdmg : s.tileDamage k bad it.desc it.blen = none)

include hdmg

theorem reduceWork_store (hmode : bYMODE it.desc = 0) :
    let a := sum s it.desc it.blen
    s.reduceWork k q bad it x sum = ((s.noteNar k a.nar).coreWrite k 2 (hBASE (x.handle (bMH it.desc)) + bMOFF it.desc)
      (leBytes 8 a.store.1.toNat) false).brDone k q it none (a.sat || a.store.2) := by
  intro a
  unfold State.reduceWork
  dsimp only
  rw [hdmg, hmode]
  simp [storeOne_plain, State.noteNar, a]

theorem reduceWork_add (hmode : bYMODE it.desc = 1)
    (hacc : s.damage k 2 (hBASE (x.handle (bMH it.desc)) + bMOFF it.desc) 8 bad = none) :
    let a := sum s it.desc it.blen
    let off := hBASE (x.handle (bMH it.desc)) + bMOFF it.desc
    let r := psAdd (s.psEntry k off) a.store.1
    s.reduceWork k q bad it x sum = (((s.noteNar k a.nar).noteNar k (decide (s.psEntry k off = psNaR))).coreWrite k 2 off
      (leBytes 8 r.1.toNat) false).brDone k q it none (a.sat || a.store.2 || r.2) := by
  intro a off r
  have hclean : (s.noteNar k a.nar).poisoned k 2 off = false := by
    rw [State.poisoned, noteNar_poison]; exact clean_of_damage hacc le_rfl (by omega)
  have hentry : (s.noteNar k a.nar).psEntry k off = s.psEntry k off := by
    simp only [State.psEntry, State.coreNat, State.coreRead, noteNar_mem]
  have hadd := storeOne_add hclean a.store.1
  rw [hentry] at hadd
  change (State.storeOne (if a.nar = true then s.setFld (aNumeric k) 17 1 1 else s) k true off a.store.1 false) = _ at hadd
  unfold State.reduceWork
  dsimp only
  rw [hdmg, hmode, hacc]
  simp only [Option.or_none, if_true, decide_true, Option.isSome_none, Bool.false_eq_true, if_false, OfNat.one_ne_ofNat]
  rw [hadd]

theorem reduceWork_tile (hmode : bYMODE it.desc = 3) :
    let a := sum s it.desc it.blen
    let r := cvtPs fp32 a.store.1 (bASCALE it.desc) .nearestEven
    s.reduceWork k q bad it x sum = ((s.noteNar k a.nar).putTile k it.desc 4 fNaN [r.1] false).brDone k q it none
      (a.sat || a.store.2 || r.2) := by
  intro a r
  unfold State.reduceWork
  dsimp only
  rw [hdmg, hmode]
  simp [State.noteNar, a, r]

theorem reduceWork_send (hmode : bYMODE it.desc = 2) :
    ∃ (y : Xfer) (sat : Bool), y.ident = ((s.core k).freshTx, q, it.seq, dOP it.desc, s.racDest k (bDIDX it.desc), bMH it.desc) ∧
      s.reduceWork k q bad it x sum = ((s.noteNar k (sum s it.desc it.blen).nar).startXfer k y).brDone k q it none sat := by
  obtain ⟨u, hu⟩ : ∃ u, u = s.noteNar k (sum s it.desc it.blen).nar := ⟨_, rfl⟩
  have hnar : (if (sum s it.desc it.blen).nar = true then s.setFld (aNumeric k) 17 1 1 else s) = u := by rw [hu]; rfl
  have htx : (u.core k).freshTx = (s.core k).freshTx := by rw [State.core, hu, noteNar_cores]; rfl
  have hdest : u.racDest k (bDIDX it.desc) = s.racDest k (bDIDX it.desc) := by
    rw [State.racDest, State.fld, hu, rd_noteNar_ne _ _ (aCoreK_inj.not.mpr (by omega))]; rfl
  rw [← hu]
  unfold State.reduceWork
  dsimp only
  rw [hdmg, hmode, hnar, htx, hdest, if_neg (by norm_num), if_pos rfl]
  exact ⟨_, _, ident_fresh .., rfl⟩

end Deliver

theorem State.Begins.brDone {y : Xfer} (h : State.Begins k y s t) (q : Nat) (it : Item) (sat : Bool) :
    State.Begins k y s (t.brDone k q it none sat) :=
  h.updExec (u := t.brCount k it) rfl rfl rfl q it.seq _

/-- NAR_SEEN set before a transfer begins is no part of it. -/
theorem State.Begins.of_noteNar {y : Xfer} {b : Bool} (h : State.Begins k y (s.noteNar k b) t) : State.Begins k y s t := by
  have hcore : ∀ j, (s.noteNar k b).core j = s.core j := (State.Stores.noteNar s k b).core
  exact ⟨h.mem.trans (noteNar_mem ..), h.tiles.trans (noteNar_tiles ..), fun j hj => (h.others j hj).trans (hcore j),
    h.sreg.trans (by rw [hcore]), h.has⟩

/-- R140: an undamaged reduction delivers its sum in its mode. -/
theorem reduce_delivers {c : CoreId} {q : Fin 16} {i : Instr} {sum : State → Wide → Nat → Acc}
    (hdmg : s.tileDamage (kOf c) bad it.desc it.blen = none)
    (hexec : exec i s = .next (s.reduceWork (kOf c) q.val bad it x sum)) :
    let k := kOf c
    let d := it.desc
    let v := sum s d it.blen
    let w := v.store.1
    let sat := v.sat || v.store.2
    let off := hBASE (x.handle (bMH d)) + bMOFF d
    let old := s.psEntry k off
    let r := cvtPs fp32 w (bASCALE d) .nearestEven
    (bYMODE d = 0 → ∃ t, exec i s = .next t ∧ t.tiles = s.tiles ∧ s.BrayerEndsNar t k q.val it (satCodes sat) v.nar ∧
      s.BytesBecome t (coreAddr k 2 off) (leBytes 8 w.toNat)) ∧
    (bYMODE d = 1 → s.damage k 2 off 8 bad = none →
      ∃ t, exec i s = .next t ∧ t.tiles = s.tiles ∧
        s.BrayerEndsNar t k q.val it (satCodes (sat || (psAdd old w).2)) (v.nar || decide (old = psNaR)) ∧
        s.BytesBecome t (coreAddr k 2 off) (leBytes 8 (psAdd old w).1.toNat)) ∧
    (bYMODE d = 2 → ∃ t, exec i s = .next t ∧ t.tiles = s.tiles ∧ t.mem = s.mem ∧ (t.core k).sreg = (s.core k).sreg ∧
      ∃ y ∈ (t.core k).xfers, y.txid = (s.core k).freshTx ∧ y.seq = it.seq ∧ y.dest = s.racDest k (bDIDX d) ∧ y.dh = bMH d) ∧
    (bYMODE d = 3 → ∃ t, exec i s = .next t ∧ t.mem = s.mem ∧ s.BrayerEndsNar t k q.val it (satCodes (sat || r.2)) v.nar ∧
      s.TilesBecome t k (tileOp d 48 4 1 true).tile ((tileOp d 48 4 1 true).off * 4) (leBytes 4 r.1)) := by
  intro k d v w sat off old r
  have hnoted : State.Stores k v.nar s (s.noteNar k v.nar) := .noteNar s k v.nar
  have htiles := noteNar_tiles s k v.nar
  have hmem := noteNar_mem s k v.nar
  refine ⟨fun hmode => ?_, fun hmode hacc => ?_, fun hmode => ?_, fun hmode => ?_⟩
  · rw [reduceWork_store hdmg hmode] at hexec
    exact ⟨_, hexec, brDone_coreWrite hnoted htiles hmem (by norm_num) ..⟩
  · rw [reduceWork_add hdmg hmode hacc] at hexec
    exact ⟨_, hexec, brDone_coreWrite (hnoted.trans (.noteNar _ k (decide (old = psNaR)))) ((noteNar_tiles ..).trans htiles)
      ((noteNar_mem ..).trans hmem) (by norm_num) ..⟩
  · obtain ⟨y, codes, hy, hwork⟩ := reduceWork_send (q := q.val) (x := x) (sum := sum) hdmg hmode
    have hbegins := ((startXfer_begins (s.noteNar k v.nar) k y).brDone q.val it codes).of_noteNar
    rw [← hwork] at hbegins
    obtain ⟨z, hz, hident⟩ := hbegins.has
    obtain ⟨htx, -, hseq, -, hdest, hdh⟩ := by simpa only [Xfer.ident, Prod.mk.injEq] using hident.trans hy
    exact ⟨_, hexec, hbegins.tiles, hbegins.mem, hbegins.sreg, z, hz, htx, hseq, hdest, hdh⟩
  · rw [reduceWork_tile hdmg hmode] at hexec
    have hput := brDone_putTile hnoted htiles hmem q.val it d 4 fNaN [r.1] (sat || r.2)
    rw [List.length_singleton, show elemBytes 4 [r.1] = leBytes 4 r.1 from List.append_nil _] at hput
    exact ⟨_, hexec, hput⟩

/-- Settles O21: each command's sum in terms of its elements, and its delivery. -/
theorem brayerReductions : Obligations.BrayerReductions := by
  intro c q bad s it x i op k d n L a b sum off old codes gives
  have delivers : ∀ {v : Acc} {f : State → Wide → Nat → Acc}, f s d n = v →
      (s.Works k q.val op it x → exec i s = .next (s.reduceWork k q.val bad it x f)) → gives v := by
    rintro _ f rfl hexec hworks hdmg
    exact reduce_delivers hdmg (hexec hworks)
  refine ⟨fun h => ?_, fun h => ?_, fun h => ?_⟩
  · obtain ⟨rfl, rfl⟩ := Prod.mk.inj h
    exact delivers (rsumOf_eq k s d n) (exec_brRsum · bad)
  · obtain ⟨rfl, rfl⟩ := Prod.mk.inj h
    exact delivers (rsumsqOf_eq k s d n) (exec_brRsumsq · bad)
  · obtain ⟨rfl, rfl⟩ := Prod.mk.inj h
    exact delivers (rdotOf_eq k s d n) (exec_brRdot · bad)

end Sys2Proof.Machine
end

