-- ==== Sys2Proof/Proofs/QueueRules.lean ====
section
/-! PROOFS. The rules of a core's queues: a queue after one was replaced, a command after it was changed (R182). -/

namespace Sys2Proof

variable {α : Type}

theorem Tbl.erase_insert (t : Tbl α) (k : Nat) (v : α) : Tbl.erase (Tbl.insert t k v) k = Tbl.erase t k := by
  induction t with
  | nil => simp [Tbl.insert, Tbl.erase]
  | cons e t ih =>
    obtain ⟨i, w⟩ := e
    unfold Tbl.insert
    split
    · simp [Tbl.erase]
    · simp only [Tbl.erase, List.filter_cons] at ih ⊢
      rw [ih]

theorem Tbl.erase_erase (t : Tbl α) (k : Nat) : Tbl.erase (Tbl.erase t k) k = Tbl.erase t k := by simp [Tbl.erase, List.filter_filter]

/-- The last of two values that a key is set to stands. -/
theorem Tbl.set_set [DecidableEq α] (d : α) (t : Tbl α) (k : Nat) (v w : α) : Tbl.set d (Tbl.set d t k v) k w = Tbl.set d t k w := by
  have herase : Tbl.erase (Tbl.set d t k v) k = Tbl.erase t k := by
    rw [Tbl.set]
    split
    · exact Tbl.erase_erase t k
    · rw [Tbl.erase_insert, Tbl.erase_erase]
  rw [Tbl.set, herase]
  rfl

namespace Machine

@[simp] theorem Core.queue_setQueue (c : Core) (q : Nat) (l : List Item) : (c.setQueue q l).queue q = l := Tbl.get_set_self ..

theorem Core.queue_setQueue_ne (c : Core) {q r : Nat} (l : List Item) (h : r ≠ q) : (c.setQueue q l).queue r = c.queue r :=
  Tbl.get_set_ne _ _ _ h

theorem Core.setQueue_setQueue (c : Core) (q : Nat) (l m : List Item) : (c.setQueue q l).setQueue q m = c.setQueue q m := by
  simp only [Core.setQueue, Tbl.set_set]

theorem Core.updItem_updItem (c : Core) (q n : Nat) {f g : Item → Item} (hf : ∀ i : Item, (f i).seq = i.seq) :
    (c.updItem q n f).updItem q n g = c.updItem q n fun i => g (f i) := by
  have hmap : ∀ i : Item, (if (if i.seq = n then f i else i).seq = n then g (if i.seq = n then f i else i)
      else if i.seq = n then f i else i) = if i.seq = n then g (f i) else i := fun i => by
    by_cases h : i.seq = n
    · rw [if_pos h, if_pos ((hf i).trans h), if_pos h]
    · rw [if_neg h, if_neg h, if_neg h]
  rw [Core.updItem, Core.updItem, Core.queue_setQueue, Core.setQueue_setQueue, List.map_map]
  exact congrArg _ (List.map_congr_left fun i _ => hmap i)

/-- Two changes of one command's execution are one. -/
theorem Core.updExec_updExec (c : Core) (q n : Nat) (f g : Exec → Exec) :
    (c.updExec q n f).updExec q n g = c.updExec q n fun x => g (f x) := by
  have hseq : ∀ i : Item, (match i.phase with | .executing x => { i with phase := .executing (f x) } | _ => i).seq = i.seq := fun i => by
    split <;> rfl
  refine (Core.updItem_updItem c q n hseq).trans (congrArg (c.updItem q n) (funext fun i => ?_))
  obtain ⟨seq, ord, desc, blen, stalled, phase⟩ := i
  cases phase <;> rfl

end Machine

end Sys2Proof
end

