-- ==== Sys2Proof/Proofs/PlatenResults.lean ====
section
/-! PROOFS. How a platen command's results are delivered (R46 to R48, R104, R108, R273, R439). -/

namespace Sys2Proof.Machine

variable {s t u : State} {k q : Nat} {it : Item} {x : Exec} {bad : List Nat}

/-! ## What any delivery leaves -/

/-- The tiles and the other cores are as they were. -/
def State.OnlyHere (k : Nat) (s t : State) : Prop := t.tiles = s.tiles ∧ ∀ j, j ≠ k → t.core j = s.core j

namespace State.OnlyHere

theorem refl (k : Nat) (s : State) : State.OnlyHere k s s := ⟨rfl, fun _ _ => rfl⟩

theorem trans (h : State.OnlyHere k s t) (h' : State.OnlyHere k t u) : State.OnlyHere k s u :=
  ⟨h'.1.trans h.1, fun j hj => (h'.2 j hj).trans (h.2 j hj)⟩

theorem foldl {α : Type} {f : State → α → State} (hf : ∀ t x, State.OnlyHere k t (f t x)) (l : List α) (s : State) :
    State.OnlyHere k s (l.foldl f s) := by
  induction l generalizing s with
  | nil => exact refl k s
  | cons x l ih => exact (hf s x).trans (ih _)

theorem of_cores (htiles : t.tiles = s.tiles) (hcores : t.cores = s.cores) : State.OnlyHere k s t :=
  ⟨htiles, fun j _ => by rw [State.core, hcores]; rfl⟩

theorem modCore (f : Core → Core) (s : State) : State.OnlyHere k s (s.modCore k f) := ⟨rfl, fun _ hj => State.core_modCore_ne s f hj⟩

theorem ite {c : Prop} [Decidable c] (h : State.OnlyHere k s t) (h' : State.OnlyHere k s u) : State.OnlyHere k s (if c then t else u) := by
  split <;> assumption

theorem of_begins {y : Xfer} (h : State.Begins k y s t) : State.OnlyHere k s t := ⟨h.tiles, h.others⟩

theorem raise {r : ErrRec} (h : r.cls ≠ 3) (s : State) : State.OnlyHere k s (s.raise r) := by
  rw [raise_frame_lt s r h]; exact of_cores rfl rfl

end State.OnlyHere

theorem poisonWrite_onlyHere (k j space off n : Nat) (psn : Bool) (s : State) (v : Nat) :
    State.OnlyHere k s (poisonWrite j space off n psn s v) := by
  unfold poisonWrite
  exact .ite (.of_cores rfl rfl) (.ite (.of_cores rfl rfl) (.refl k s))

theorem coreWrite_onlyHere {space : Nat} (hspace : space ≠ 0) (s : State) (k off : Nat) (bs : List Byte) (psn : Bool) :
    State.OnlyHere k s (s.coreWrite k space off bs psn) := by
  have heq : s.coreWrite k space off bs psn = (unitsOf space off bs.length).foldl (poisonWrite k space off bs.length psn)
      { s with mem := writeMem s.mem (coreAddr k space off) bs } := by
    unfold State.coreWrite
    simp only [hspace, false_and, if_false]
    split <;> rfl
  have hmem : State.OnlyHere k s { s with mem := writeMem s.mem (coreAddr k space off) bs } := .of_cores rfl rfl
  rw [heq]
  exact hmem.trans (.foldl (poisonWrite_onlyHere k k space off bs.length psn) _ _)

theorem storeOne_onlyHere (s : State) (k : Nat) (acc : Bool) (off : Nat) (w : Word) (psn : Bool) :
    State.OnlyHere k s (s.storeOne k acc off w psn).1 := by
  unfold State.storeOne
  refine .trans ?_ (coreWrite_onlyHere (space := 2) (by norm_num) _ k off _ _)
  exact .ite (.of_cores rfl rfl) (.refl k s)

theorem storeItem_onlyHere (s : State) (k : Nat) (h : Wide) (acc : Bool) (o : ItemOut) : State.OnlyHere k s (s.storeItem k h acc o).1 := by
  have hrun : ∀ (l : List (Word × Nat)) (a : State × Bool), State.OnlyHere k a.1 (l.foldl (fun a e =>
      ((a.1.storeOne k acc (hBASE h + o.off + 8 * e.2) e.1 o.dmg.isSome).1,
        a.2 || (a.1.storeOne k acc (hBASE h + o.off + 8 * e.2) e.1 o.dmg.isSome).2)) a).1 := by
    intro l
    induction l with
    | nil => exact fun a => .refl k a.1
    | cons e l ih => exact fun a => (storeOne_onlyHere ..).trans (ih _)
  exact hrun _ (s, false)

theorem deliverEach_onlyHere (k : Nat) (h : Wide) (acc : Bool) (bad : List Nat) (os : List ItemOut) (s : State) :
    State.OnlyHere k s (State.deliverEach k h acc bad os s).1 := by
  induction os generalizing s with
  | nil => exact .refl k s
  | cons o os ih => exact (storeItem_onlyHere ..).trans (ih _)

/-- The accumulate-writes of mode RACC begin as one transfer. -/
theorem raccXfer_begins (s : State) (k q : Nat) (it : Item) (dest : BitVec 20) (dh : Nat) (scale : Int) (stripe : Nat)
    (outs : List ItemOut) : ∃ y : Xfer, y.ident = ((s.core k).freshTx, q, it.seq, dOP it.desc, dest, dh) ∧
      State.Begins k y s (s.raccXfer k q it dest dh scale stripe outs) :=
  ⟨_, ident_fresh .., startXfer_begins ..⟩

/-- R439: the record of the first damaged item. -/
def State.recordItem (s : State) (k q : Nat) (it : Item) (first : Option ItemOut) : State :=
  match first with
  | some o => match o.dmg with
    | some g => s.raise (s.dmgRec k q it.seq (dOP it.desc) o.item o.slot g)
    | none => s
  | none => s

theorem recordItem_onlyHere (s : State) (k q : Nat) (it : Item) (first : Option ItemOut) :
    State.OnlyHere k s (s.recordItem k q it first) := by
  unfold State.recordItem
  split
  · split
    · exact .raise (by simp [State.dmgRec, State.coreRec]) s
    · exact .refl k s
  · exact .refl k s

/-- A delivery, in its parts: the local stores `r`, the record, NAR_SEEN, the transfer, the command worked. -/
theorem deliverItems_eq (s : State) (k q : Nat) (bad : List Nat) (it : Item) (x : Exec) (stripe : Nat) (outs : List ItemOut) :
    let d := it.desc
    let r := if pYMODE d = 2 then (s, false, outs) else State.deliverEach k (x.handle (pYH d)) (pYMODE d = 1) bad outs s
    let first := r.2.2.find? fun o => o.dmg.isSome
    let u := (r.1.recordItem k q it first).noteNar k (r.2.2.any ItemOut.nar)
    let v := if pYMODE d = 2 then
        u.raccXfer k q it (u.racDest k (pDIDX d)) (pYH d) (pASCALE d) stripe (r.2.2.filter fun o => o.sums ≠ [])
      else u
    s.deliverItems k q bad it x stripe outs =
      (v.modCore k fun c => c.updExec q it.seq fun e => { e with recorded := e.recorded || first.isSome }).workDone k q it
        ((if first.isSome then [cPARITY] else []) ++ satCodes (r.2.1 || r.2.2.any ItemOut.sat)) 0 := rfl

/-- Whatever its reads meet, a delivery leaves the tiles and the other cores. -/
theorem deliverItems_onlyHere (s : State) (k q : Nat) (bad : List Nat) (it : Item) (x : Exec) (stripe : Nat) (outs : List ItemOut) :
    State.OnlyHere k s (s.deliverItems k q bad it x stripe outs) := by
  have hlocal : State.OnlyHere k s (if pYMODE it.desc = 2 then (s, false, outs)
      else State.deliverEach k (x.handle (pYH it.desc)) (pYMODE it.desc = 1) bad outs s).1 := by
    split
    · exact .refl k s
    · exact deliverEach_onlyHere ..
  have hnar : ∀ (t : State) (b : Bool), State.OnlyHere k t (t.noteNar k b) := fun t b =>
    .of_cores (noteNar_tiles ..) (noteNar_cores ..)
  have hracc : ∀ (t : State) dest outs, State.OnlyHere k t
      (t.raccXfer k q it dest (pYH it.desc) (pASCALE it.desc) stripe outs) := fun t dest outs => by
    obtain ⟨y, -, hy⟩ := raccXfer_begins t k q it dest (pYH it.desc) (pASCALE it.desc) stripe outs
    exact .of_begins hy
  rw [deliverItems_eq]
  exact (((hlocal.trans (recordItem_onlyHere ..)).trans (hnar _ _)).trans (.ite (hracc _ _ _) (.refl k _))).trans
    (.trans (.modCore _ _) (.modCore _ _))

/-! ## Undamaged results stored (R46, R104) -/

/-- What mode ST and mode ACC leave of an entry `old` for a result `w`. -/
def platenStore (acc : Bool) (old w : Word) : Word := if acc = true then (psAdd old w).1 else w

/-- A memory with the entry at `a` replaced by `g` of it. -/
def putEntry (a : Nat) (g : Word → Word) (m : List Host.Cell) : List Host.Cell :=
  writeMem m a (leBytes 8 (g (BitVec.ofNat 64 (leNat (readMem m a 8)))).toNat)

/-- Clean stores have made the memory `m`. -/
def State.StoresMem (k : Nat) (s t : State) (m : List Host.Cell) : Prop :=
  (∃ b, State.Stores k b s t) ∧ t.tiles = s.tiles ∧ t.mem = m

/-- A range that is undamaged stays so. -/
theorem State.Stores.damage_none {b : Bool} (h : State.Stores k b s t) {j space off n : Nat} (hs : s.damage j space off n bad = none) :
    t.damage j space off n bad = none := by
  rw [State.damage, Option.map_eq_none_iff, List.find?_eq_none] at hs ⊢
  intro v hv
  have hclean := hs v hv
  rw [Bool.or_eq_true, not_or] at hclean ⊢
  exact ⟨fun hp => hclean.1 (h.poison j space v hp), hclean.2⟩

theorem storeOne_clean {acc : Bool} {off : Nat} (h : acc = true → s.poisoned k 2 off = false) (w : Word) :
    State.StoresMem k s (s.storeOne k acc off w false).1 (putEntry (coreAddr k 2 off) (platenStore acc · w) s.mem) := by
  cases acc with
  | false =>
    obtain ⟨hs, hm, ht⟩ := coreWrite_stores (space := 2) (by norm_num) s k off (leBytes 8 w.toNat)
    rw [storeOne_plain]
    exact ⟨⟨_, hs⟩, ht, hm⟩
  | true =>
    obtain ⟨hs, hm, ht⟩ := coreWrite_stores (space := 2) (by norm_num) (s.noteNar k (decide (s.psEntry k off = psNaR))) k off
      (leBytes 8 (psAdd (s.psEntry k off) w).1.toNat)
    rw [storeOne_add (h rfl)]
    exact ⟨⟨_, (State.Stores.noteNar s k _).trans hs⟩, ht.trans (noteNar_tiles ..), hm.trans (by rw [noteNar_mem]; rfl)⟩

/-- The results of one item, `n` from `base` on, stored in a memory. -/
def putItem (k : Nat) (acc : Bool) (base n : Nat) (v : Nat → Acc) (m : List Host.Cell) : List Host.Cell :=
  (List.range n).foldl (fun m j => putEntry (coreAddr k 2 (base + 8 * j)) (platenStore acc · (v j).store.1) m) m

/-- Result `j` of an item stored after those before it, and whether one has saturated. -/
def storeNext (k : Nat) (acc : Bool) (base : Nat) (v : Nat → Acc) (a : State × Bool) (j : Nat) : State × Bool :=
  ((a.1.storeOne k acc (base + 8 * j) (v j).store.1 false).1, a.2 || (a.1.storeOne k acc (base + 8 * j) (v j).store.1 false).2)

theorem storeItem_clean {h : Wide} {acc : Bool} {o : ItemOut} {n : Nat} {v : Nat → Acc} (hdmg : o.dmg = none)
    (hsums : o.sums = (List.range n).map v)
    (hclean : acc = true → s.damage k 2 (hBASE h + o.off) (8 * n) bad = none) :
    State.StoresMem k s (s.storeItem k h acc o).1 (putItem k acc (hBASE h + o.off) n v s.mem) := by
  have hrun : ∀ (l : List Nat) (a : State × Bool), (∀ j ∈ l, j < n) → (∃ b, State.Stores k b s a.1) →
      State.StoresMem k a.1 (l.foldl (storeNext k acc (hBASE h + o.off) v) a).1
        (l.foldl (fun m j => putEntry (coreAddr k 2 (hBASE h + o.off + 8 * j)) (platenStore acc · (v j).store.1) m) a.1.mem) := by
    intro l
    induction l with
    | nil => exact fun a _ _ => ⟨⟨_, .refl k a.1⟩, rfl, rfl⟩
    | cons j l ih =>
      intro a hl ⟨b, hb⟩
      have hj : j < n := hl j List.mem_cons_self
      obtain ⟨⟨b1, hs1⟩, ht1, hm1⟩ := storeOne_clean (s := a.1) (k := k) (acc := acc) (off := hBASE h + o.off + 8 * j)
        (fun hacc => clean_of_damage (hb.damage_none (hclean hacc)) (by omega) (by omega)) (v j).store.1
      obtain ⟨⟨b2, hs2⟩, ht2, hm2⟩ := ih (storeNext k acc (hBASE h + o.off) v a j) (fun i hi => hl i (List.mem_cons_of_mem _ hi)) ⟨_, hb.trans hs1⟩
      rw [List.foldl_cons, List.foldl_cons, ← hm1]
      exact ⟨⟨_, hs1.trans hs2⟩, ht2.trans ht1, hm2⟩
  have hwords : o.words.zipIdx = (List.range n).map fun j => ((v j).store.1, j) := by
    have hw : o.words = (List.range n).map fun j => (v j).store.1 := by
      rw [ItemOut.words, hdmg, hsums, List.map_map]; rfl
    rw [hw, ← List.map_id ((List.map _ _).zipIdx), zipIdx_map_range]
    rfl
  have hfold : s.storeItem k h acc o = (List.range n).foldl (storeNext k acc (hBASE h + o.off) v) (s, false) := by
    rw [State.storeItem, hwords, List.foldl_map, hdmg]
    rfl
  rw [hfold]
  exact hrun _ (s, false) (fun j hj => List.mem_range.1 hj) ⟨_, .refl k s⟩

/-- An item that no damage met, with the results `v`. -/
structure ItemOut.Clean (o : ItemOut) (n : Nat) (v : Nat → Acc) : Prop where
  dmg : o.dmg = none
  sums : o.sums = (List.range n).map v

theorem deliverOne_clean {h : Wide} {acc : Bool} {o : ItemOut} {n : Nat} {v : Nat → Acc} (ho : o.Clean n v)
    (hclean : acc = true → s.damage k 2 (hBASE h + o.off) (8 * n) bad = none) :
    s.deliverOne k h acc bad o = ((s.storeItem k h acc o).1, (s.storeItem k h acc o).2, o) := by
  have hsame : { o with dmg := o.dmg.or (if acc then s.accDamage k h o bad else none) } = o := by
    have hnone : (if acc then s.accDamage k h o bad else none) = none := by
      split
      · next hacc => rw [State.accDamage, ho.sums, List.length_map, List.length_range]; exact hclean hacc
      · rfl
    rw [hnone, Option.or_none]
  unfold State.deliverOne
  rw [hsame]

/-- R108: undamaged items are stored one after the other. -/
theorem deliverEach_clean {ι : Type} {h : Wide} {acc : Bool} {n : Nat} {out : ι → ItemOut} {v : ι → Nat → Acc} {is : List ι}
    (hout : ∀ i ∈ is, (out i).Clean n (v i))
    (hclean : acc = true → ∀ i ∈ is, s.damage k 2 (hBASE h + (out i).off) (8 * n) bad = none) :
    (State.deliverEach k h acc bad (is.map out) s).2.2 = is.map out ∧
      State.StoresMem k s (State.deliverEach k h acc bad (is.map out) s).1
        (is.foldl (fun m i => putItem k acc (hBASE h + (out i).off) n (v i) m) s.mem) := by
  induction is generalizing s with
  | nil => exact ⟨rfl, ⟨_, .refl k s⟩, rfl, rfl⟩
  | cons i is ih =>
    have ho := hout i List.mem_cons_self
    have hi : acc = true → s.damage k 2 (hBASE h + (out i).off) (8 * n) bad = none := fun hacc => hclean hacc i List.mem_cons_self
    obtain ⟨⟨b1, hs1⟩, ht1, hm1⟩ := storeItem_clean ho.dmg ho.sums hi
    obtain ⟨hrest, ⟨b2, hs2⟩, ht2, hm2⟩ := ih (s := (s.storeItem k h acc (out i)).1) (fun j hj => hout j (List.mem_cons_of_mem _ hj))
      fun hacc j hj => hs1.damage_none (hclean hacc j (List.mem_cons_of_mem _ hj))
    have hcons : State.deliverEach k h acc bad ((i :: is).map out) s =
        ((State.deliverEach k h acc bad (is.map out) (s.storeItem k h acc (out i)).1).1,
          (s.storeItem k h acc (out i)).2 || (State.deliverEach k h acc bad (is.map out) (s.storeItem k h acc (out i)).1).2.1,
          out i :: (State.deliverEach k h acc bad (is.map out) (s.storeItem k h acc (out i)).1).2.2) := by
      rw [List.map_cons, State.deliverEach, deliverOne_clean ho hi]
    rw [hcons, List.foldl_cons, ← hm1]
    exact ⟨by rw [hrest, List.map_cons], ⟨_, hs1.trans hs2⟩, ht2.trans ht1, hm2⟩

/-! ## An undamaged delivery in its mode -/

theorem find_damaged_none {outs : List ItemOut} (h : ∀ o ∈ outs, o.dmg = none) : (outs.find? fun o => o.dmg.isSome) = none :=
  List.find?_eq_none.2 fun o ho => by rw [h o ho]; exact Bool.false_ne_true

/-- What an undamaged delivery does to its command. -/
theorem worked_undamaged {c : Core} (q : Nat) (it : Item) (codes : List Nat) :
    c.Worked ((c.updExec q it.seq fun e => { e with recorded := e.recorded || false }).updExec q it.seq fun e =>
      { e with worked := true, codes := e.codes ++ codes, flags := e.flags ||| 0 }) q it codes 0 := by
  rw [Core.Worked, Core.updExec_updExec]
  simp only [Bool.or_false]

theorem mem_satCodes {sat : Bool} : ∀ e ∈ satCodes sat, e = 0x06 := by
  cases sat <;> simp [satCodes, cSATURATED]

/-- Modes ST and ACC of undamaged items. -/
theorem deliverItems_local {ι : Type} {stripe n : Nat} {out : ι → ItemOut} {v : ι → Nat → Acc} {is : List ι} (hmode : pYMODE it.desc ≠ 2)
    (hout : ∀ i ∈ is, (out i).Clean n (v i))
    (hclean : pYMODE it.desc = 1 → ∀ i ∈ is, s.damage k 2 (hBASE (x.handle (pYH it.desc)) + (out i).off) (8 * n) bad = none) :
    let t := s.deliverItems k q bad it x stripe (is.map out)
    (∃ codes, (s.core k).Worked (t.core k) q it codes 0 ∧ ∀ e ∈ codes, e = 0x06) ∧
      t.mem = is.foldl (fun m i => putItem k (pYMODE it.desc = 1) (hBASE (x.handle (pYH it.desc)) + (out i).off) n (v i) m) s.mem := by
  obtain ⟨hsame, ⟨b, hs⟩, -, hm⟩ := deliverEach_clean (s := s) (k := k) (bad := bad) (h := x.handle (pYH it.desc))
    (acc := decide (pYMODE it.desc = 1)) hout fun hacc => hclean (of_decide_eq_true hacc)
  have hnone := find_damaged_none (outs := is.map out) (by simpa using fun i hi => (hout i hi).dmg)
  intro t
  have ht : t = s.deliverItems k q bad it x stripe (is.map out) := rfl
  rw [deliverItems_eq] at ht
  simp only [if_neg hmode, hsame, hnone, Option.isSome_none, Bool.false_eq_true, if_false, List.nil_append] at ht
  have hcore : ∀ b, ((State.deliverEach k (x.handle (pYH it.desc)) (pYMODE it.desc = 1) bad (is.map out) s).1.noteNar k b).core k =
      s.core k := fun b => (hs.trans (.noteNar _ k b)).core k
  refine ⟨⟨?codes, ?_, ?_⟩, ?_⟩
  rotate_left
  · rw [ht, State.workDone, State.core_modCore, State.core_modCore, State.recordItem, hcore]
    exact worked_undamaged q it _
  · exact mem_satCodes
  · rw [ht, State.workDone, State.modCore_mem, State.modCore_mem, noteNar_mem]
    exact hm

/-- Mode RACC of undamaged items. -/
theorem deliverItems_racc {stripe : Nat} {outs : List ItemOut} (hmode : pYMODE it.desc = 2) (hout : ∀ o ∈ outs, o.dmg = none) :
    ∃ y : Xfer, y.ident = ((s.core k).freshTx, q, it.seq, dOP it.desc, s.racDest k (pDIDX it.desc), pYH it.desc) ∧
      State.Begins k y s (s.deliverItems k q bad it x stripe outs) := by
  obtain ⟨u, hu⟩ : ∃ u, u = s.noteNar k (outs.any ItemOut.nar) := ⟨_, rfl⟩
  have hdest : u.racDest k (pDIDX it.desc) = s.racDest k (pDIDX it.desc) := by
    rw [State.racDest, State.fld, hu, rd_noteNar_ne _ _ (aCoreK_inj.not.mpr (by omega))]; rfl
  have htx : (u.core k).freshTx = (s.core k).freshTx := by rw [hu, (State.Stores.noteNar s k _).core]
  obtain ⟨y, hy, hbegins⟩ := raccXfer_begins u k q it (u.racDest k (pDIDX it.desc)) (pYH it.desc) (pASCALE it.desc) stripe
    (outs.filter fun o => o.sums ≠ [])
  rw [hdest, htx] at hy
  rw [deliverItems_eq]
  simp only [if_pos hmode, find_damaged_none hout, State.recordItem, ← hu]
  have hdone := (hbegins.updExec (u := _) rfl rfl rfl q it.seq fun e => { e with recorded := e.recorded || (none : Option ItemOut).isSome })
  have hend := hdone.updExec (u := _) rfl rfl rfl q it.seq fun e => { e with
    worked := true, codes := e.codes ++ satCodes (false || outs.any ItemOut.sat), flags := e.flags ||| 0 }
  rw [hu] at hend
  exact ⟨y, hy, by rw [hu]; exact hend.of_noteNar⟩

end Sys2Proof.Machine
end

