-- ==== Sys2Proof/Proofs/Matvec.lean ====
section
/-! PROOFS. `MATVEC`: rows restored first, then the exact dot products delivered (R41 to R45, R96 to R108, R437). -/

namespace Sys2Proof.Machine

variable {s t u : State} {k q : Nat} {it : Item} {x : Exec} {bad : List Nat}

/-! ## Rows restored first (R437) -/

/-- The memories and the cores are as they were. -/
def State.CoresKept (s t : State) : Prop := t.mem = s.mem ∧ t.tiles = s.tiles ∧ t.cores = s.cores

namespace State.CoresKept

theorem refl (s : State) : s.CoresKept s := ⟨rfl, rfl, rfl⟩

theorem trans (h : s.CoresKept t) (h' : t.CoresKept u) : s.CoresKept u :=
  ⟨h'.1.trans h.1, h'.2.1.trans h.2.1, h'.2.2.trans h.2.2⟩

theorem foldl {α : Type} {f : State → α → State} (hf : ∀ t x, State.CoresKept t (f t x)) (l : List α) (s : State) :
    s.CoresKept (l.foldl f s) := by
  induction l generalizing s with
  | nil => exact refl s
  | cons x l ih => exact (hf s x).trans (ih _)

theorem ite {c : Prop} [Decidable c] (h : s.CoresKept t) (h' : s.CoresKept u) : s.CoresKept (if c then t else u) := by
  split <;> assumption

theorem raise {r : ErrRec} (h : r.cls ≠ 3) (s : State) : s.CoresKept (s.raise r) := by
  rw [raise_frame_lt s r h]; exact ⟨rfl, rfl, rfl⟩

end State.CoresKept

theorem askRow_coresKept (s : State) (k row : Nat) (alt : Bool) : s.CoresKept (s.askRow k row alt) := by
  unfold State.askRow
  split
  · exact ⟨rfl, rfl, rfl⟩
  · exact .refl s

/-- The core whose rows enter its restore, for the command of queue `q`. -/
def Core.restoreRows (c : Core) (q : Nat) (rows : List Nat) (tick : Nat) : Core :=
  { c with restore := match c.restore with
    | some r => some { r with
        rows := r.rows ++ rows.filter (· ∉ r.rows)
        queues := if r.background || q ∈ r.queues then r.queues else r.queues ++ [q] }
    | none => some ⟨rows, [], [], [q], tick, false⟩ }

theorem mem_restoreRows (c : Core) (q : Nat) (rows : List Nat) (tick : Nat) :
    ∃ r, (c.restoreRows q rows tick).restore = some r ∧ ∀ row ∈ rows, row ∈ r.rows := by
  unfold Core.restoreRows
  cases c.restore with
  | none => exact ⟨_, rfl, fun _ h => h⟩
  | some r =>
    refine ⟨_, rfl, fun row h => List.mem_append.2 ?_⟩
    by_cases hr : row ∈ r.rows
    · exact .inl hr
    · exact .inr (List.mem_filter.2 ⟨h, by simpa using hr⟩)

/-- The start of a restore enters its rows; beside that it poisons, asks and records. -/
theorem startRestore_eq (s : State) (k q : Nat) (rows : List Nat) :
    State.CoresKept (s.modCore k fun c => c.restoreRows q rows s.tick) (s.startRestore k q rows) := by
  have hask : ∀ (l : List Nat) (t : State), t.CoresKept (l.foldl (fun s row => s.askRow k row false) t) :=
    fun l t => .foldl (fun s row => askRow_coresKept s k row false) l t
  have hraise : ∀ (l : List Nat) (t : State), t.CoresKept (l.foldl (fun s row => s.raise
      { s.coreRec k 0 0x10 (statusWord cDONE (withFlag 0 fREPLAYED)) with
        queue := if q < 16 then q else 31, location := locOf 0 (row * 128), rkind := 0, res := poisonKey k 0 (row * 128) }) t) :=
    fun l t => .foldl (fun s row => .raise (by simp [State.coreRec]) s) l t
  have hpoison : ∀ (l : List Nat) (t : State), t.CoresKept (l.foldl (fun s row => s.setPoison k 0 (row * 128) true) t) :=
    fun l t => .foldl (fun s row => (⟨rfl, rfl, rfl⟩ : s.CoresKept (s.setPoison k 0 (row * 128) true))) l t
  have hcore : ∀ c', (s.core k).restoreRows q rows s.tick = c' →
      (s.modCore k fun c => c.restoreRows q rows s.tick) = s.setCore k c' := fun c' h => by rw [← h]; rfl
  unfold State.startRestore
  cases hr : (s.core k).restore with
  | none =>
    rw [hcore { s.core k with restore := some ⟨rows, [], [], [q], s.tick, false⟩ } (by rw [Core.restoreRows, hr])]
    exact (hask _ _).trans (hraise _ _)
  | some r =>
    rw [hcore { s.core k with restore := some { r with
      rows := r.rows ++ rows.filter (· ∉ r.rows)
      queues := if r.background || q ∈ r.queues then r.queues else r.queues ++ [q] } } (by rw [Core.restoreRows, hr])]
    dsimp only
    exact .trans (.ite (hpoison _ _) (.refl _)) ((hask _ _).trans (hraise _ _))

theorem startRestore_begins (s : State) (k q : Nat) (rows : List Nat) : s.RestoreBegins (s.startRestore k q rows) k rows := by
  obtain ⟨hmem, htiles, hcores⟩ := startRestore_eq s k q rows
  have hcore : (s.startRestore k q rows).core k = (s.core k).restoreRows q rows s.tick := by
    rw [State.core, hcores]; exact State.core_modCore ..
  rw [State.RestoreBegins, hcore]
  exact ⟨hmem, htiles, rfl, rfl, mem_restoreRows ..⟩

/-! ## The dot products (R98 to R104) -/

/-- Output `j` of item `i`. -/
def State.matvecSum (s : State) (k : Nat) (x : Exec) (d : Wide) (i j : Nat) : Acc :=
  dot (s.weights k (stripeOf (x.handle (pWH d)) d) x.outliers j)
    (decodeVec (hFORMAT (x.handle (pXH d))) (pK d)
      (s.coreRead k 1 (hBASE (x.handle (pXH d)) + itemX d i) (vecBytes (hFORMAT (x.handle (pXH d))) (pK d)))) (pASCALE d)

/-- What item `i` forms. -/
def State.matvecOut (s : State) (k : Nat) (bad : List Nat) (x : Exec) (d : Wide) (i : Nat) : ItemOut :=
  ⟨i, 0xFFFF, itemY d i, (List.range (pN d)).map (s.matvecSum k x d i), [],
    s.firstDamage k bad (matvecReads (stripeOf (x.handle (pWH d)) d) x.outliers ++
      [(1, hBASE (x.handle (pXH d)) + itemX d i, vecBytes (hFORMAT (x.handle (pXH d))) (pK d))])⟩

/-- The rows of the stripe that are to be restored first. -/
def State.matvecRows (s : State) (k : Nat) (bad : List Nat) (x : Exec) (d : Wide) : List Nat :=
  s.rowsToRestore k bad (matvecReads (stripeOf (x.handle (pWH d)) d) x.outliers)

theorem matvecWork_restore (h : s.matvecRows k bad x it.desc ≠ []) :
    s.matvecWork k q bad it x = s.startRestore k q (s.matvecRows k bad x it.desc) := if_pos h

/-- R117, R104: with no row to restore, the beats are counted and the items delivered. -/
theorem matvecWork_deliver (h : s.matvecRows k bad x it.desc = []) : ∃ halfrows a active,
    s.matvecWork k q bad it x = (s.platenCount k halfrows a active).deliverItems k q bad it x (pA it.desc)
      ((activeItems it.desc).map (s.matvecOut k bad x it.desc)) := by
  have houts : (activeItems it.desc).map (fun i =>
      (⟨i, 0xFFFF, itemY it.desc i, ((List.range (pN it.desc)).map
        (s.weights k (stripeOf (x.handle (pWH it.desc)) it.desc) x.outliers)).map fun w =>
          dot w (decodeVec (hFORMAT (x.handle (pXH it.desc))) (pK it.desc)
            (s.coreRead k 1 (hBASE (x.handle (pXH it.desc)) + itemX it.desc i)
              (vecBytes (hFORMAT (x.handle (pXH it.desc))) (pK it.desc)))) (pASCALE it.desc), [],
        s.firstDamage k bad (matvecReads (stripeOf (x.handle (pWH it.desc)) it.desc) x.outliers ++
          [(1, hBASE (x.handle (pXH it.desc)) + itemX it.desc i, vecBytes (hFORMAT (x.handle (pXH it.desc))) (pK it.desc))])⟩ :
        ItemOut)) = (activeItems it.desc).map (s.matvecOut k bad x it.desc) := by
    simp only [List.map_map]; rfl
  rw [← houts]
  exact ⟨_, _, _, if_neg (not_not.2 h)⟩

theorem exec_matvec {c : CoreId} {q : Fin 16} (h : s.Works (kOf c) q.val 0x10 it x) (bad : List Nat) :
    exec (.matvec c q bad) s = .next (s.matvecWork (kOf c) q.val bad it x) :=
  congrArg Host.Outcome.next (work_of_works h fun it x s => s.matvecWork (kOf c) q.val bad it x)

/-! ## The obligation -/

theorem platenStore_eq (p : Prop) [Decidable p] (old w : Word) :
    platenStore (decide p) old w = (if p then fun old w => (psAdd old w).1 else fun _ w => w) old w := by
  unfold platenStore
  by_cases h : p <;> simp [h]

/-- Settles O23: the items' dot products, delivered undamaged in their mode, or the restore that comes first. -/
theorem matvecStores : Obligations.MatvecStores := by
  intro c q bad s it x k d T X f reads vec out place each n hworks
  have hexec := exec_matvec hworks bad
  refine ⟨fun hrows => ?_, fun hrows hundamaged => ?_⟩
  · rw [matvecWork_restore hrows] at hexec
    exact ⟨_, hexec, startRestore_begins ..⟩
  · obtain ⟨halfrows, a, active, hwork⟩ := matvecWork_deliver (q := q.val) hrows
    obtain ⟨u, hu⟩ : ∃ u, u = s.platenCount k halfrows a active := ⟨_, rfl⟩
    have hmem : u.mem = s.mem := by rw [hu]; rfl
    have hcore : ∀ j, u.core j = s.core j := fun j => by rw [hu]; rfl
    rw [hwork, ← hu] at hexec
    have hout : ∀ i ∈ activeItems d, (s.matvecOut k bad x d i).Clean (pN d) (s.matvecSum k x d i) := fun i hi => ⟨hundamaged i hi, rfl⟩
    obtain ⟨htiles, hothers⟩ := deliverItems_onlyHere u k q.val bad it x (pA d) ((activeItems d).map (s.matvecOut k bad x d))
    refine ⟨_, hexec, htiles.trans (by rw [hu]; rfl), fun j hj => (hothers j hj).trans (hcore j), fun hmode hacc => ?_, fun hmode => ?_⟩
    · have hclean : pYMODE d = 1 → ∀ i ∈ activeItems d,
          u.damage k 2 (hBASE (x.handle (pYH d)) + (s.matvecOut k bad x d i).off) (8 * pN d) bad = none := fun h i hi => by
        rw [hu]; exact hacc h i hi
      obtain ⟨hworked, hstored⟩ := deliverItems_local (q := q.val) (stripe := pA d) hmode hout hclean
      rw [hcore] at hworked
      rw [hmem] at hstored
      refine ⟨hworked, hstored.trans ?_⟩
      simp only [putItem, putEntry, platenStore_eq]
      rfl
    · obtain ⟨y, hy, hbegins⟩ := deliverItems_racc (s := u) (k := k) (q := q.val) (bad := bad) (x := x) (stripe := pA d)
        (outs := (activeItems d).map (s.matvecOut k bad x d)) hmode (by simpa using fun i hi => (hout i hi).dmg)
      have hdest : u.racDest k (pDIDX d) = s.racDest k (pDIDX d) := by
        rw [hu, State.racDest, State.fld, State.platenCount, State.addFld, rd_setFld_other _ _ _ _ _ _ (aCoreK_inj.not.mpr (by omega)),
          State.addFld, rd_setFld_other _ _ _ _ _ _ (aCoreK_inj.not.mpr (by omega)), State.addFld,
          rd_setFld_other _ _ _ _ _ _ (aCoreK_inj.not.mpr (by omega))]
        rfl
      rw [hcore, hdest] at hy
      obtain ⟨z, hz, hident⟩ := hbegins.has
      obtain ⟨htx, hqueue, hseq, -, hto, hdh⟩ := by simpa only [Xfer.ident, Prod.mk.injEq] using hident.trans hy
      exact ⟨hbegins.mem.trans hmem, hbegins.sreg.trans (by rw [hcore]), z, hz, htx, hqueue, hseq, hto, hdh⟩

end Sys2Proof.Machine
end

