-- ==== Sys2Proof/Proofs/Signals.lean ====
section
/-! PROOFS. Completion signals: what an addition to a flag, the signals of a queue's front and their records leave
(R185, R190, R212, R217, R219, R224, R225). -/

namespace Sys2Proof.Machine

variable {P : Nat → Prop} {s t u : State} {k q : Nat}

/-! ## Registers of a core's window, records that stay -/

/-- The registers of the window of core `k`. -/
def inWindowOf (k a : Nat) : Prop := ∃ o, a = aCoreK k o

/-- They lie past the registers of partitions and, in their folio, past those of the hub. -/
theorem inWindowOf_ge {a : Nat} (h : inWindowOf k a) : 0x4000 ≤ a := by
  obtain ⟨o, rfl⟩ := h
  rw [aCoreK_eq]
  omega

theorem not_window_hub (k : Nat) {o : Nat} (ho : o < 0x20000) : ¬ inWindowOf k (aHub (keyDie k) o) := by
  rintro ⟨o', h⟩
  rw [aCoreK_eq, aHub, folioBase] at h
  omega

theorem State.Keeps.mono {Q : Nat → Prop} (h : s.Keeps P t) (hQ : ∀ a, Q a → P a) : s.Keeps Q t :=
  ⟨h.mem, h.tiles, h.resets, h.tick, fun a ha => h.rd a (hQ a ha)⟩

theorem State.Keeps.fld {a : Nat} (h : s.Keeps P t) (ha : P a) (lo w : Nat) : t.fld a lo w = s.fld a lo w := by
  rw [State.fld, h.rd a ha]
  rfl

/-- A record to come stays one, or is joined by others of its source (R446). -/
def State.RecordsStay (s t : State) : Prop :=
  ∀ r ∈ s.errPend, ∃ x ∈ t.errPend, x.source = r.source ∧ x.die = r.die ∧ x.core = r.core

theorem State.RecordsStay.of_eq (h : t.errPend = s.errPend) : s.RecordsStay t := fun r hr => ⟨r, by rwa [h], rfl, rfl, rfl⟩

theorem State.RecordsStay.trans (h : s.RecordsStay t) (h' : t.RecordsStay u) : s.RecordsStay u := fun r hr => by
  obtain ⟨x, hx, h1, h2, h3⟩ := h r hr
  obtain ⟨y, hy, h1', h2', h3'⟩ := h' x hx
  exact ⟨y, hy, h1'.trans h1, h2'.trans h2, h3'.trans h3⟩

theorem mergeRec_stays (r : ErrRec) (l : List ErrRec) :
    ∀ y ∈ l, ∃ x ∈ mergeRec r l, x.source = y.source ∧ x.die = y.die ∧ x.core = y.core := by
  induction l with
  | nil => exact fun _ h => absurd h List.not_mem_nil
  | cons z zs ih =>
    intro y hy
    unfold mergeRec
    rcases List.mem_cons.1 hy with rfl | hz
    · split
      · exact ⟨_, List.mem_cons_self, rfl, rfl, rfl⟩
      · exact ⟨y, List.mem_cons_self, rfl, rfl, rfl⟩
    · split
      · exact ⟨y, List.mem_cons_of_mem _ hz, rfl, rfl, rfl⟩
      · obtain ⟨x, hx, hsame⟩ := ih y hz
        exact ⟨x, List.mem_cons_of_mem _ hx, hsame⟩

theorem raise_recordsStay (s : State) {r : ErrRec} (h : r.cls ≠ 3) : s.RecordsStay (s.raise r) := by
  intro y hy
  unfold State.raise
  dsimp only
  rw [if_neg (by simp [h]), timingLost_errPend]
  refine mergeRec_stays _ _ y ?_
  split <;> exact hy

/-! ## Steps that touch no core -/

/-- No core differs, and the memories, the named registers and the records to come are as they were. -/
structure State.Notes (P : Nat → Prop) (s t : State) : Prop extends State.Keeps P s t where
  cores : t.cores = s.cores
  records : s.RecordsStay t

namespace State.Notes

theorem refl (P : Nat → Prop) (s : State) : s.Notes P s := ⟨.refl s, rfl, .of_eq rfl⟩

theorem trans (h : s.Notes P t) (h' : t.Notes P u) : s.Notes P u :=
  ⟨h.toKeeps.trans h'.toKeeps, h'.cores.trans h.cores, h.records.trans h'.records⟩

theorem ite {c : Prop} [Decidable c] (h : s.Notes P t) (h' : s.Notes P u) : s.Notes P (if c then t else u) := by
  split <;> assumption

theorem mono {Q : Nat → Prop} (h : s.Notes P t) (hQ : ∀ a, Q a → P a) : s.Notes Q t := ⟨h.toKeeps.mono hQ, h.cores, h.records⟩

theorem core (h : s.Notes P t) (j : Nat) : t.core j = s.core j := by rw [State.core, h.cores]; rfl

theorem setFld {a : Nat} (ha : ¬ P a) (lo w x : Nat) (s : State) : s.Notes P (s.setFld a lo w x) :=
  ⟨(Keeps.refl s).setFld ha lo w x, rfl, .of_eq rfl⟩

theorem raise {r : ErrRec} (hP : ∀ a, P a → 0x4000 ≤ a) (h : r.cls ≠ 3) (s : State) : s.Notes P (s.raise r) :=
  ⟨(Keeps.refl s).raise hP r, by rw [raise_frame_lt s r h], raise_recordsStay s h⟩

end State.Notes

/-- R486: a trace record is its die's. -/
theorem traceEv_notes (s : State) (k queue ev : Nat) (status : BitVec 16) (arg : Nat) :
    s.Notes (inWindowOf k) (s.traceEv k queue ev status arg) := by
  have hhub := not_window_hub k (o := 0x800) (by norm_num)
  have hdie : ∀ (t : State) f, t.Notes (inWindowOf k) (t.modDie (keyDie k) f) := fun t f =>
    ⟨⟨rfl, rfl, rfl, rfl, fun _ _ => rfl⟩, rfl, .of_eq rfl⟩
  unfold State.traceEv
  dsimp only
  exact .ite (.ite (.setFld hhub _ _ _ s) ((hdie s _).trans (.setFld hhub _ _ _ _))) (.refl _ s)

/-! ## Additions to flags (R217, R224) -/

/-- A core after signals: its flags have risen by `g`, waits may have been met, credits have come home. -/
structure Core.Signalled (g : Nat → BitVec 32) (c c' : Core) : Prop where
  sreg : c'.sreg = c.sreg
  pred : c'.pred = c.pred
  handles : c'.handles = c.handles
  run : c'.run = c.run
  queue : ∀ r, (c'.queue r).map Item.unmet = (c.queue r).map Item.unmet
  flag : ∀ f, c'.flag f = c.flag f + g f

/-- The same of the state: other cores, memories, named registers and records stand. -/
structure State.Signals (P : Nat → Prop) (k : Nat) (g : Nat → BitVec 32) (s t : State) : Prop extends State.Keeps P s t where
  others : ∀ j, j ≠ k → t.core j = s.core j
  core : (s.core k).Signalled g (t.core k)
  records : s.RecordsStay t

theorem Core.Signalled.refl (c : Core) : c.Signalled (fun _ => 0) c := ⟨rfl, rfl, rfl, rfl, fun _ => rfl, fun _ => by simp⟩

theorem Core.Signalled.trans {g g' : Nat → BitVec 32} {c d e : Core} (h : c.Signalled g d) (h' : d.Signalled g' e) :
    c.Signalled (fun f => g f + g' f) e :=
  ⟨h'.sreg.trans h.sreg, h'.pred.trans h.pred, h'.handles.trans h.handles, h'.run.trans h.run,
    fun r => (h'.queue r).trans (h.queue r), fun f => by rw [h'.flag, h.flag, BitVec.add_assoc]⟩

namespace State.Signals

variable {g g' : Nat → BitVec 32}

theorem refl (P : Nat → Prop) (k : Nat) (s : State) : State.Signals P k (fun _ => 0) s s :=
  ⟨.refl s, fun _ _ => rfl, .refl _, .of_eq rfl⟩

theorem trans (h : State.Signals P k g s t) (h' : State.Signals P k g' t u) : State.Signals P k (fun f => g f + g' f) s u :=
  ⟨h.toKeeps.trans h'.toKeeps, fun j hj => (h'.others j hj).trans (h.others j hj), h.core.trans h'.core, h.records.trans h'.records⟩

theorem congr (h : State.Signals P k g s t) (hg : ∀ f, g f = g' f) : State.Signals P k g' s t := funext hg ▸ h

theorem mono {Q : Nat → Prop} (h : State.Signals P k g s t) (hQ : ∀ a, Q a → P a) : State.Signals Q k g s t :=
  ⟨h.toKeeps.mono hQ, h.others, h.core, h.records⟩

theorem of_notes (h : s.Notes P t) : State.Signals P k (fun _ => 0) s t :=
  ⟨h.toKeeps, fun j _ => h.core j, by rw [h.core]; exact .refl _, h.records⟩

theorem modCore {f : Core → Core} (hf : (s.core k).Signalled g (f (s.core k))) : State.Signals P k g s (s.modCore k f) :=
  ⟨(Keeps.refl s).modCore k f, fun _ hj => State.core_modCore_ne s f hj, by rw [State.core_modCore]; exact hf, .of_eq rfl⟩

end State.Signals

theorem unmet_latch (c : Core) (now : Nat) (it : Item) : (it.latch c now).unmet = it.unmet := by
  obtain ⟨seq, ord, desc, blen, stalled, phase⟩ := it
  cases phase with
  | executing x => unfold Item.latch; dsimp only; split <;> rfl
  | _ => rfl

theorem Tbl.get_map_nil {α : Type} (f : α → α) (l : Tbl (List α)) (r : Nat) :
    Tbl.get [] (l.map fun e => (e.1, e.2.map f)) r = (Tbl.get [] l r).map f := by
  induction l with
  | nil => rfl
  | cons e l ih => rw [List.map_cons, Tbl.get, ih, Tbl.get]; split <;> rfl

/-- Testing the waits changes the ticks at which they were met alone. -/
theorem latch_signalled (c : Core) (now : Nat) : c.Signalled (fun _ => 0) (c.latch now) := by
  refine ⟨rfl, rfl, rfl, rfl, fun r => ?_, fun f => (BitVec.add_zero _).symm⟩
  have hqueue : (c.latch now).queue r = (c.queue r).map (Item.latch c now) := Tbl.get_map_nil ..
  rw [hqueue, List.map_map]
  exact List.map_congr_left fun i _ => unmet_latch c now i

/-- What an addition of `v` to flag `f` adds to each flag. -/
def addOf (f : Nat) (v : BitVec 32) (n : Nat) : BitVec 32 := if n = f then v else 0

theorem setFlag_signalled (c : Core) (f : Nat) (v : BitVec 32) (now : Nat) :
    c.Signalled (addOf f v) (({ c with flags := Tbl.set 0 c.flags f (c.flag f + v), census := 0 } : Core).latch now) := by
  have hset : c.Signalled (addOf f v) { c with flags := Tbl.set 0 c.flags f (c.flag f + v), census := 0 } :=
    ⟨rfl, rfl, rfl, rfl, fun _ => rfl, fun n => by
      rw [Core.flag, Tbl.get_set, addOf]
      split
      · next h => rw [h]
      · exact (BitVec.add_zero _).symm⟩
  exact funext (fun f' => BitVec.add_zero (addOf f v f')) ▸ hset.trans (latch_signalled _ now)

/-- R224, R225: credits that come back move a pool, messages and a record. -/
theorem release_signals (s : State) (k n v who : Nat) : State.Signals (inWindowOf k) k (fun _ => 0) s (s.release k n v who).1 := by
  have hpool : ∀ (t : State) (f : Core → Core), (∀ c : Core, c.Signalled (fun _ => 0) (f c)) →
      State.Signals (inWindowOf k) k (fun _ => 0) t (t.modCore k f) := fun t f hf => .modCore (hf _)
  have hset : ∀ (c : Core) (p : Pool), c.Signalled (fun _ => 0) (c.setPool n p) := fun c p =>
    ⟨rfl, rfl, rfl, rfl, fun _ => rfl, fun _ => (BitVec.add_zero _).symm⟩
  have hpump : ∀ t : State, State.Signals (inWindowOf k) k (fun _ => 0) t (t.poolPump k n) := fun t => by
    have hcore : (t.core k).Signalled (fun _ => 0) ((t.poolPump k n).core k) := by
      rw [core_poolPump]
      exact ⟨rfl, rfl, rfl, rfl, fun _ => rfl, fun _ => (BitVec.add_zero _).symm⟩
    exact ⟨⟨rfl, rfl, rfl, rfl, fun _ _ => rfl⟩, fun j hj => core_poolPump_ne t n hj, hcore, .of_eq rfl⟩
  unfold State.release
  dsimp only
  refine (((hpool s _ fun c => hset c _).trans (.of_notes (.ite (.raise (fun _ => inWindowOf_ge) ?_ _) (.refl _ _)))).trans (hpump _)).congr
    fun _ => by simp
  simp [State.coreRec]

/-- R217: `v` is added to flag `f` and to no other. -/
theorem flagAdd_signals (s : State) (k f : Nat) (v : BitVec 32) (who : Nat) :
    State.Signals (inWindowOf k) k (addOf f v) s (s.flagAdd k f v who).1 := by
  have hfold : ∀ (l : List Nat) (a : State × Bool), State.Signals (inWindowOf k) k (fun _ => 0) a.1 (l.foldl (fun a n =>
      ((a.1.release k n v.toNat who).1, a.2 || (a.1.release k n v.toNat who).2)) a).1 := by
    intro l
    induction l with
    | nil => exact fun a => .refl _ k a.1
    | cons n l ih =>
      intro a
      exact ((release_signals ..).trans (ih ((a.1.release k n v.toNat who).1, a.2 || (a.1.release k n v.toNat who).2))).congr
        fun _ => BitVec.add_zero 0
  obtain ⟨u, hu⟩ : ∃ u, u = (s.modCore k fun c => ({ c with
      flags := Tbl.set 0 c.flags f ((s.core k).flag f + v), census := 0 } : Core).latch s.tick).traceEv k 0 3 0
        (f + ((s.core k).flag f + v).toNat * 2 ^ 8) := ⟨_, rfl⟩
  have hset : State.Signals (inWindowOf k) k (addOf f v) s u := by
    rw [hu]
    refine .congr (.trans (.modCore (g := addOf f v) ?_) (.of_notes (traceEv_notes ..))) fun _ => BitVec.add_zero _
    exact setFlag_signalled (s.core k) f v s.tick
  have hsplit : (s.flagAdd k f v who).1 = u ∨ (s.flagAdd k f v who).1 = (((u.core k).poolsOf f).foldl (fun a n =>
      ((a.1.release k n v.toNat who).1, a.2 || (a.1.release k n v.toNat who).2)) (u, false)).1 := by
    rw [hu]
    unfold State.flagAdd
    dsimp only
    split
    · exact .inl rfl
    · exact .inr rfl
  rcases hsplit with h | h
  · rw [h]; exact hset
  · rw [h]; exact (hset.trans (hfold _ (u, false))).congr fun _ => BitVec.add_zero _

/-! ## The signals of a queue's front (R190, R212) -/

/-- The registers of the window but the queue's status. -/
def windowBut (k q a : Nat) : Prop := inWindowOf k a ∧ a ≠ aQstat k q

theorem aQstat_inWindow (k q : Nat) : inWindowOf k (aQstat k q) := ⟨_, rfl⟩

/-- What the signal of a command adds. -/
def signalsOf (it : Item) (f : Nat) : Bool := dSIG it.desc && decide (dSIGFLAG it.desc = f)

theorem codeOf_lt (st : BitVec 16) : codeOf st < 256 := bits_lt _ 0 8

/-- A part of a field reads as the low bits of what was put there. -/
theorem getF_putF_part (v : Word) (lo w x w' : Nat) (hw : w' ≤ w) (h : lo + w ≤ 64) : getF (putF v lo w x) lo w' = x % 2 ^ w' := by
  have hwhole := getF_putF v lo w x h
  have hpart : getF (putF v lo w x) lo w' = getF (putF v lo w x) lo w % 2 ^ w' := by
    rw [getF, getF, bits_eq, bits_eq, Nat.mod_mod_of_dvd _ (Nat.pow_dvd_pow 2 hw)]
  rw [hpart, hwhole, Nat.mod_mod_of_dvd _ (Nat.pow_dvd_pow 2 hw)]

theorem fld_setFld_part (s : State) (a lo w x w' : Nat) (hw : w' ≤ w) (h : lo + w ≤ 64) : (s.setFld a lo w x).fld a lo w' = x % 2 ^ w' := by
  rw [State.fld, State.setFld, State.rd_wr, getF_putF_part _ _ _ _ _ hw h]

theorem signalOf_signals (s : State) (k q : Nat) (it : Item) (st : BitVec 16) :
    State.Signals (windowBut k q) k (fun f => BitVec.ofNat 32 (if signalsOf it f then 1 else 0)) s (s.signalOf k q it st) ∧
      (s.signalOf k q it st).fld (aQstat k q) 0 8 = codeOf st ∧
      ∀ lo w, 16 ≤ lo → (s.signalOf k q it st).fld (aQstat k q) lo w = s.fld (aQstat k q) lo w := by
  obtain ⟨u, hu⟩ : ∃ u, u = s.setFld (aQstat k q) 0 16 (statusWord (codeOf st) (s.withSticky k q st.toNat)).toNat := ⟨_, rfl⟩
  have hset : s.Notes (windowBut k q) u := by rw [hu]; exact .setFld (fun h => h.2 rfl) _ _ _ s
  have hlast : u.fld (aQstat k q) 0 8 = codeOf st := by
    have hcode := codeOf_statusWord (codeOf st) (s.withSticky k q st.toNat)
    rw [codeOf, bits_eq, Nat.pow_zero, Nat.div_one, Nat.mod_eq_of_lt (codeOf_lt st)] at hcode
    rw [hu, fld_setFld_part _ _ _ _ _ _ (by norm_num) (by norm_num), hcode]
  have hhigh : ∀ lo w, 16 ≤ lo → u.fld (aQstat k q) lo w = s.fld (aQstat k q) lo w := fun lo w h => by
    rw [hu, fld_setFld_ne _ _ _ _ _ _ _ (.inr h)]
  have hcase : s.signalOf k q it st = if dSIG it.desc then (u.flagAdd k (dSIGFLAG it.desc) 1 q).1 else u := by rw [hu]; rfl
  rw [hcase]
  split
  · next hsig =>
    have hadd := flagAdd_signals u k (dSIGFLAG it.desc) 1 q
    refine ⟨((State.Signals.of_notes hset).trans (hadd.mono fun _ h => h.1)).congr fun f => ?_, ?_, fun lo w h => ?_⟩
    · refine (BitVec.zero_add _).trans ?_
      rw [addOf, signalsOf, hsig, Bool.true_and]
      by_cases hf : dSIGFLAG it.desc = f
      · rw [if_pos hf.symm, if_pos (decide_eq_true hf)]; rfl
      · rw [if_neg (Ne.symm hf), if_neg (by simpa using hf)]; rfl
    · rw [hadd.toKeeps.fld (aQstat_inWindow k q), hlast]
    · rw [hadd.toKeeps.fld (aQstat_inWindow k q), hhigh lo w h]
  · next hsig =>
    refine ⟨(State.Signals.of_notes hset).congr fun f => ?_, hlast, hhigh⟩
    rw [signalsOf, Bool.eq_false_iff.2 hsig, Bool.false_and]
    rfl

/-- The signals of completed commands in order: each adds 1 to its flag, and LAST names the last of them. -/
theorem foldl_signalOf (k q : Nat) (l : List Item) (hdone : ∀ i ∈ l, i.doneWith.isSome) (s : State) :
    let t := l.foldl (fun s it => match it.doneWith with | some st => s.signalOf k q it st | none => s) s
    State.Signals (windowBut k q) k (fun f => BitVec.ofNat 32 (l.filter fun i => signalsOf i f).length) s t ∧
      (∀ i ∈ l.getLast?, ∀ st, i.doneWith = some st → t.fld (aQstat k q) 0 8 = codeOf st) ∧
      ∀ lo w, 16 ≤ lo → t.fld (aQstat k q) lo w = s.fld (aQstat k q) lo w := by
  induction l using List.reverseRecOn with
  | nil => exact ⟨.refl _ k s, fun _ h => by simp at h, fun _ _ _ => rfl⟩
  | append_singleton l i ih =>
    obtain ⟨hl, -, hhigh⟩ := ih fun j hj => hdone j (List.mem_append_left _ hj)
    obtain ⟨st, hst⟩ := Option.isSome_iff_exists.1 (hdone i (by simp))
    obtain ⟨hi, hlast, hhigh'⟩ := signalOf_signals (l.foldl (fun s it => match it.doneWith with
      | some st => s.signalOf k q it st | none => s) s) k q i st
    simp only [List.foldl_append, List.foldl_cons, List.foldl_nil, hst]
    refine ⟨(hl.trans hi).congr fun f => ?_, fun j hj st' hst' => ?_, fun lo w h => (hhigh' lo w h).trans (hhigh lo w h)⟩
    · rw [← BitVec.ofNat_add, List.filter_append, List.length_append]
      by_cases hs : signalsOf i f = true
      · simp [hs]
      · simp [hs]
    · rw [List.getLast?_append, List.getLast?_singleton, Option.some_or, Option.mem_some] at hj
      subst hj
      rw [hst, Option.some.injEq] at hst'
      rw [hlast, hst']

end Sys2Proof.Machine
end

