-- ==== Sys2Proof/Proofs/Completion.lean ====
section
/-! PROOFS. How commands complete (R47, R122, R168, R185, R188 to R190, R212). -/

namespace Sys2Proof.Machine

variable {P : Nat → Prop} {s t u v : State} {k q seq code : Nat} {st : BitVec 16}

theorem codeOf_toNat (st : BitVec 16) : st.toNat % 2 ^ 8 = codeOf st := by rw [codeOf, bits_eq, Nat.pow_zero, Nat.div_one]

/-! ## The capture of a failing status (R190) -/

theorem capture_notes (s : State) (k q : Nat) (st : BitVec 16) (seq : Nat) (late : Bool) :
    s.Notes (windowBut k q) (s.capture k q st seq late) := by
  have hset : ∀ (t : State) lo w x, t.Notes (windowBut k q) (t.setFld (aQstat k q) lo w x) := fun t lo w x => .setFld (fun h => h.2 rfl) lo w x t
  exact .ite (.refl _ s) ((((hset s _ _ _).trans (hset _ _ _ _)).trans (hset _ _ _ _)).trans (hset _ _ _ _))

theorem capture_holds (hfree : s.fld (aQstat k q) 48 1 = 0) (late : Bool) :
    let t := s.capture k q st seq late
    t.fld (aQstat k q) 48 1 = 1 ∧ t.fld (aQstat k q) 32 16 = seq % 2 ^ 16 ∧ t.fld (aQstat k q) 16 8 = codeOf st := by
  rw [State.capture, if_neg (by rw [hfree]; norm_num)]
  refine ⟨?_, ?_, ?_⟩
  · rw [fld_setFld_ne _ _ _ _ _ _ _ (by norm_num), fld_setFld_part _ _ _ _ _ _ le_rfl (by norm_num)]; rfl
  · rw [fld_setFld_ne _ _ _ _ _ _ _ (by norm_num), fld_setFld_ne _ _ _ _ _ _ _ (by norm_num),
      fld_setFld_part _ _ _ _ _ _ le_rfl (by norm_num)]
  · rw [fld_setFld_ne _ _ _ _ _ _ _ (by norm_num), fld_setFld_ne _ _ _ _ _ _ _ (by norm_num),
      fld_setFld_ne _ _ _ _ _ _ _ (by norm_num), fld_setFld_part _ _ _ _ _ _ (by norm_num) (by norm_num), codeOf_toNat]

/-! ## What a completion notes beside the queue -/

/-- The capture and the record of a command that completed with `code` (R189, R190). -/
def State.noteFailure (s : State) (k q : Nat) (it : Item) (st : BitVec 16) (code : Nat) (recorded : Bool) : State :=
  if code = cDONE then s
  else if recorded then s.capture k q st it.seq false
  else (s.capture k q st it.seq false).raise ((s.capture k q st it.seq false).failRec k q it.seq (dOP it.desc) st)

/-- The end of a commit's fence, where the command is one that succeeded (R350). -/
def State.noteFence (s : State) (k : Nat) (it : Item) (code : Nat) : State :=
  if dOP it.desc = 0x63 ∧ code = cDONE then s.fenceDone k (yVALUE it.desc).toNat else s

/-- The command `seq` of queue `q` is done with `st`. -/
def State.markDone (s : State) (k q seq : Nat) (st : BitVec 16) : State :=
  s.modCore k fun c => c.updItem q seq fun i => { i with phase := .done st }

/-- A command completes in four parts: it is marked, traced, noted and signalled. -/
theorem finish_eq (s : State) (k q : Nat) (it : Item) (code flags : Nat) (recorded : Bool) : ∃ st arg, codeOf st = code % 256 ∧
    s.finish k q it code flags recorded =
      ((((s.markDone k q it.seq st).traceEv k q 1 st arg).noteFailure k q it st code recorded).noteFence k it code).flush k q := by
  exact ⟨_, dOP it.desc + it.seq % 2 ^ 32 * 2 ^ 8,
    codeOf_statusWord code (s.withSticky k q (if it.stalled then withFlag flags fSTALLED else flags)), rfl⟩

theorem noteFailure_notes (s : State) (k q : Nat) (it : Item) (st : BitVec 16) (code : Nat) (recorded : Bool) :
    s.Notes (windowBut k q) (s.noteFailure k q it st code recorded) :=
  have hcapture := capture_notes s k q st it.seq false
  .ite (.refl _ s) (.ite hcapture (hcapture.trans (.raise (fun _ h => inWindowOf_ge h.1) (by simp [State.failRec, State.coreRec]) _)))

theorem noteFailure_recorded (hcode : code ≠ cDONE) (s : State) (k q : Nat) (it : Item) (st : BitVec 16) :
    ∃ r ∈ (s.noteFailure k q it st code false).errPend,
      r.source = (if dOP it.desc = 0x63 then 0x61 else 0x01) ∧ r.die = keyDie k ∧ r.core = keyFlat k := by
  rw [State.noteFailure, if_neg hcode, if_neg Bool.false_ne_true]
  obtain ⟨r, hr, hsource, hdie, hcore, -⟩ :=
    raise_has (s.capture k q st it.seq false) ((s.capture k q st it.seq false).failRec k q it.seq (dOP it.desc) st)
  exact ⟨r, hr, hsource, hdie, hcore⟩

theorem noteFailure_captured (hcode : code ≠ cDONE) (hfree : s.fld (aQstat k q) 48 1 = 0) (it : Item) (st : BitVec 16) (recorded : Bool) :
    let t := s.noteFailure k q it st code recorded
    t.fld (aQstat k q) 48 1 = 1 ∧ t.fld (aQstat k q) 32 16 = it.seq % 2 ^ 16 ∧ t.fld (aQstat k q) 16 8 = codeOf st := by
  have hheld := capture_holds (st := st) (seq := it.seq) hfree false
  rw [State.noteFailure, if_neg hcode]
  split
  · exact hheld
  · have hraise : (s.capture k q st it.seq false).Keeps (inWindowOf k) ((s.capture k q st it.seq false).raise
        ((s.capture k q st it.seq false).failRec k q it.seq (dOP it.desc) st)) := .raise (fun _ => inWindowOf_ge) (.refl _) _
    simpa only [hraise.fld (aQstat_inWindow k q)] using hheld

theorem partOfKey_lt (s : State) (k : Nat) : s.partOfKey k < 256 := by
  rw [State.partOfKey, State.partOf]
  cases h : (List.range 64).find? fun p => s.hasGalley p (keyDie k) (keyFlat k / 18) with
  | none => norm_num
  | some p => exact lt_trans (List.mem_range.1 (List.mem_of_find?_eq_some h)) (by norm_num)

/-- R350: the state of a commit is its partition's. -/
theorem fenceDone_notes (s : State) (k edition : Nat) : s.Notes (inWindowOf k) (s.fenceDone k edition) := by
  have hctx : ¬ inWindowOf k (aCtx (s.partOfKey k) 0x08) := by
    rintro ⟨o, h⟩
    have := partOfKey_lt s k
    rw [aCoreK_eq, aCtx] at h
    omega
  have hpart : ∀ f, s.Notes (inWindowOf k) (s.modPart (s.partOfKey k) f) := fun f => ⟨(State.Keeps.refl s).modPart _ f, rfl, .of_eq rfl⟩
  unfold State.fenceDone
  dsimp only
  split
  · exact .refl _ s
  · exact .ite (.ite ((hpart _).trans ((State.Notes.setFld hctx _ _ _ _).trans (.setFld hctx _ _ _ _))) (hpart _)) (.refl _ s)

theorem noteFence_notes (s : State) (k : Nat) (it : Item) (code : Nat) : s.Notes (inWindowOf k) (s.noteFence k it code) :=
  .ite (fenceDone_notes ..) (.refl _ s)

/-! ## A command marked done, and its queue's front signalled (R185, R212) -/

/-- The command `seq` of queue `q` of core `k` is done with `st`; otherwise the core differs in its transfers alone. -/
structure State.Marks (k q seq : Nat) (st : BitVec 16) (s u : State) : Prop where
  mem : u.mem = s.mem
  tiles : u.tiles = s.tiles
  others : ∀ j, j ≠ k → u.core j = s.core j
  core : u.core k = ({ s.core k with xfers := (u.core k).xfers } : Core).updItem q seq fun i => { i with phase := .done st }

theorem State.Marks.notes (h : State.Marks k q seq st s u) (h' : u.Notes P v) : State.Marks k q seq st s v :=
  ⟨h'.mem.trans h.mem, h'.tiles.trans h.tiles, fun j hj => (h'.core j).trans (h.others j hj), by rw [h'.core]; exact h.core⟩

/-- Core `k` differs in its transfers alone, no other core differs, and the memories stand. -/
structure State.Frees (k : Nat) (s v : State) : Prop where
  mem : v.mem = s.mem
  tiles : v.tiles = s.tiles
  others : ∀ j, j ≠ k → v.core j = s.core j
  core : v.core k = { s.core k with xfers := (v.core k).xfers }

theorem State.Frees.of_notes (h : s.Notes P v) : State.Frees k s v := ⟨h.mem, h.tiles, fun j _ => h.core j, by rw [h.core]⟩

theorem State.Frees.trans (h : State.Frees k s u) (h' : State.Frees k u v) : State.Frees k s v :=
  ⟨h'.mem.trans h.mem, h'.tiles.trans h.tiles, fun j hj => (h'.others j hj).trans (h.others j hj), by rw [h'.core, h.core]⟩

theorem State.Frees.markDone (h : State.Frees k s v) (q seq : Nat) (st : BitVec 16) : State.Marks k q seq st s (v.markDone k q seq st) :=
  ⟨h.mem, h.tiles, fun j hj => (State.core_modCore_ne _ _ hj).trans (h.others j hj), by
    rw [State.markDone, State.core_modCore, h.core]; rfl⟩

/-- A queue's front leaves and signals. -/
theorem flush_signals (s : State) (k q : Nat) :
    let gone := ((s.core k).queue q).takeWhile fun i => i.doneWith.isSome
    State.Signals (windowBut k q) k (fun f => BitVec.ofNat 32 (gone.filter fun i => signalsOf i f).length)
        (s.modCore k fun c => c.setQueue q ((c.queue q).drop gone.length)) (s.flush k q) ∧
      (∀ i ∈ gone.getLast?, ∀ st, i.doneWith = some st → (s.flush k q).fld (aQstat k q) 0 8 = codeOf st) ∧
      ∀ lo w, 16 ≤ lo → (s.flush k q).fld (aQstat k q) lo w = s.fld (aQstat k q) lo w :=
  foldl_signalOf k q _ (fun _ h => List.mem_takeWhile_imp (p := fun i : Item => i.doneWith.isSome) h) _

/-- The rest of the state when a queue's front signals. -/
theorem flush_keeps (s : State) (k q : Nat) : s.Keeps (windowBut k q) (s.flush k q) ∧ s.RecordsStay (s.flush k q) :=
  have hsignals := (flush_signals s k q).1
  ⟨((State.Keeps.refl s).modCore k _).trans hsignals.toKeeps, hsignals.records⟩

/-- A command that was marked completes when its queue's front signals. -/
theorem flush_completes (h : State.Marks k q seq st s u) (hst : codeOf st = code % 256) : s.Completes (u.flush k q) k q seq code := by
  obtain ⟨hsignals, hlast, -⟩ := flush_signals u k q
  have hqueue : (u.core k).queue q = ((s.core k).queue q).map fun i => if i.seq = seq then { i with phase := .done st } else i := by
    rw [h.core, Core.updItem, Core.queue_setQueue]; rfl
  have hothers : ∀ r, r ≠ q → (u.core k).queue r = (s.core k).queue r := fun r hr => by
    rw [h.core, Core.updItem, Core.queue_setQueue_ne _ _ hr]; rfl
  have hrest : (u.core k).flags = (s.core k).flags ∧ (u.core k).sreg = (s.core k).sreg ∧ (u.core k).pred = (s.core k).pred ∧
      (u.core k).handles = (s.core k).handles ∧ (u.core k).run = (s.core k).run := by
    rw [h.core]; exact ⟨rfl, rfl, rfl, rfl, rfl⟩
  obtain ⟨hflags, hsreg, hpred, hhandles, hrun⟩ := hrest
  have hcore := hsignals.core
  rw [State.core_modCore] at hcore
  rw [hqueue] at hcore hlast
  refine ⟨st, hst, ⟨?_, fun f => (hcore.flag f).trans ?_, hlast⟩, fun r hr => ?_, fun j hj => ?_, hsignals.mem.trans h.mem,
    hsignals.tiles.trans h.tiles, hcore.sreg.trans hsreg, hcore.pred.trans hpred, hcore.handles.trans hhandles, hcore.run.trans hrun⟩
  · rw [hcore.queue, Core.queue_setQueue]
  · rw [Core.flag, Core.flag, ← hflags]; rfl
  · rw [hcore.queue, Core.queue_setQueue_ne _ _ hr, hothers r hr]
  · rw [hsignals.others j hj, State.core_modCore_ne _ _ hj, h.others j hj]

/-! ## A command completes (R188 to R190) -/

/-- What the completion of a command does to the status, the registers and the records. -/
structure State.Finishes (k q : Nat) (it : Item) (code : Nat) (recorded : Bool) (s t : State) : Prop where
  rd : ∀ a, windowBut k q a → t.rd a = s.rd a
  record : code ≠ cDONE → recorded = false → ∃ r ∈ t.errPend,
    r.source = (if dOP it.desc = 0x63 then 0x61 else 0x01) ∧ r.die = keyDie k ∧ r.core = keyFlat k
  captured : code ≠ cDONE → s.fld (aQstat k q) 48 1 = 0 → t.fld (aQstat k q) 48 1 = 1 ∧
    t.fld (aQstat k q) 32 16 = it.seq % 2 ^ 16 ∧ t.fld (aQstat k q) 16 8 = code % 256

theorem finish_completes (h : State.Frees k s v) (q : Nat) (it : Item) (code flags : Nat) (recorded : Bool) :
    s.Completes (v.finish k q it code flags recorded) k q it.seq code ∧
      State.Finishes k q it code recorded v (v.finish k q it code flags recorded) := by
  obtain ⟨st, arg, hst, hfinish⟩ := finish_eq v k q it code flags recorded
  obtain ⟨a, ha⟩ : ∃ a, a = (v.markDone k q it.seq st).traceEv k q 1 st arg := ⟨_, rfl⟩
  have htrace : (v.markDone k q it.seq st).Notes (inWindowOf k) a := ha ▸ traceEv_notes ..
  have hstart : v.Keeps (inWindowOf k) a := ((State.Keeps.refl v).modCore k _).trans htrace.toKeeps
  obtain ⟨b, hb⟩ : ∃ b, b = a.noteFailure k q it st code recorded := ⟨_, rfl⟩
  have hfailure : a.Notes (windowBut k q) b := hb ▸ noteFailure_notes ..
  have hfence := noteFence_notes b k it code
  rw [hfinish, ← ha, ← hb]
  obtain ⟨hkeeps, hrecords⟩ := flush_keeps (b.noteFence k it code) k q
  obtain ⟨-, -, hhigh⟩ := flush_signals (b.noteFence k it code) k q
  refine ⟨flush_completes (((h.markDone q it.seq st).notes htrace).notes (hfailure.trans (hfence.mono fun _ ha => ha.1))) hst,
    ⟨fun x hx => ?_, fun hcode hrecorded => ?_, fun hcode hfree => ?_⟩⟩
  · rw [hkeeps.rd x hx, hfence.rd x hx.1, hfailure.rd x hx, hstart.rd x hx.1]
  · obtain ⟨r, hr, hsource, hdie, hcore⟩ := noteFailure_recorded hcode a k q it st
    rw [hrecorded] at hb
    rw [← hb] at hr
    obtain ⟨r', hr', hsource', hdie', hcore'⟩ := (hfence.records.trans hrecords) r hr
    exact ⟨r', hr', hsource'.trans hsource, hdie'.trans hdie, hcore'.trans hcore⟩
  · rw [hhigh 48 1 (by norm_num), hhigh 32 16 (by norm_num), hhigh 16 8 (by norm_num), ← hst]
    simp only [hfence.fld (aQstat_inWindow k q)]
    rw [hb]
    exact noteFailure_captured hcode ((hstart.fld (aQstat_inWindow k q) 48 1).trans hfree) it st recorded

/-! ## The worked command, the skipped command and `BR_SETLEN` -/

theorem pickCode_lt (codes : List Nat) : pickCode codes < 256 := by
  rw [pickCode]
  cases h : codeOrder.find? fun c => c ∈ codes with
  | none => exact (by decide : cDONE < 256)
  | some c =>
    have hall : ∀ c ∈ codeOrder, c < 256 := by decide
    exact hall c (List.mem_of_find?_eq_some h)

/-- The transfer of a command that completes hears only late answers (R204). -/
def State.freeXfer (s : State) (k : Nat) (txid : Option (BitVec 12)) : State :=
  match txid with
  | some n => s.modCore k fun c => (c.updXfer n fun y => { y with late := true }).sweep
  | none => s

theorem freeXfer_frees (s : State) (k : Nat) (txid : Option (BitVec 12)) : State.Frees k s (s.freeXfer k txid) := by
  cases txid with
  | none => exact .of_notes (P := fun _ => False) (.refl _ s)
  | some n =>
    refine ⟨rfl, rfl, fun j hj => State.core_modCore_ne _ _ hj, ?_⟩
    rw [State.freeXfer, State.core_modCore]
    rfl

theorem freeXfer_rd (s : State) (k : Nat) (txid : Option (BitVec 12)) (a : Nat) : (s.freeXfer k txid).rd a = s.rd a := by
  cases txid <;> rfl

theorem saturated_notes (s : State) (k q : Nat) (codes : List Nat) : s.Notes (fun a => a ≠ aNumeric k) (s.saturated k q codes) :=
  .ite (.setFld (fun h => h rfl) _ _ _ s) (.refl _ s)

theorem saturated_sets {codes : List Nat} (h : cSATURATED ∈ codes) (hq : q < 16) : (s.saturated k q codes).fld (aNumeric k) q 1 = 1 := by
  rw [State.saturated, if_pos h, fld_setFld_part _ _ _ _ _ _ le_rfl (by omega)]; rfl

theorem aNumeric_windowBut (k q : Nat) : windowBut k q (aNumeric k) := ⟨⟨_, rfl⟩, aCoreK_inj.not.mpr (by omega)⟩

theorem aBrLen_windowBut (k q : Nat) : windowBut k q (aBrLen k) := ⟨⟨_, rfl⟩, aCoreK_inj.not.mpr (by omega)⟩

/-- The oldest command that may complete does, with the codes of its work and of its transfer. -/
theorem exec_commandComplete {c : CoreId} {q : Fin 16} {it : Item} {e : Exec} (hlive : s.live (kOf c) = true)
    (hfind : (((s.core (kOf c)).executing q.val).find? fun a => (s.core (kOf c)).mayComplete a.1 a.2) = some (it, e)) :
    let codes := e.codes ++ (match e.txid.bind (s.core (kOf c)).xfer with | some y => y.codes | none => [])
    ∃ flags, exec (.commandComplete c q) s =
      .next (((s.freeXfer (kOf c) e.txid).saturated (kOf c) q.val codes).finish (kOf c) q.val it (pickCode codes) flags e.recorded) := by
  intro codes
  have hcomplete : ∃ flags, s.complete (kOf c) q.val =
      ((s.freeXfer (kOf c) e.txid).saturated (kOf c) q.val codes).finish (kOf c) q.val it (pickCode codes) flags e.recorded := by
    rw [State.complete, hlive]
    simp only [Bool.not_true, Bool.false_eq_true, if_false, hfind]
    exact ⟨_, rfl⟩
  obtain ⟨flags, heq⟩ := hcomplete
  exact ⟨flags, congrArg Host.Outcome.next heq⟩

/-- The skipped command at the front is traced, marked and signalled (R168). -/
theorem exec_skipSignal {c : CoreId} {q : Fin 16} {it : Item} {rest : List Item} (hlive : s.live (kOf c) = true)
    (hqueue : (s.core (kOf c)).queue q.val = it :: rest) (hphase : it.phase = .skipped) : ∃ st arg, codeOf st = cSKIPPED % 256 ∧
    exec (.skipSignal c q) s =
      .next (((s.traceEv (kOf c) q.val 2 st arg).markDone (kOf c) q.val it.seq st).flush (kOf c) q.val) := by
  refine ⟨_, dOP it.desc + it.seq % 2 ^ 32 * 2 ^ 8, codeOf_statusWord cSKIPPED (s.withSticky (kOf c) q.val 0),
    (rfl : exec (.skipSignal c q) s = .next (s.skipNow (kOf c) q.val)).trans (congrArg Host.Outcome.next ?_)⟩
  rw [State.skipNow, hlive]
  simp only [Bool.not_true, Bool.false_eq_true, if_false, hqueue, hphase]
  rfl

/-- A `BR_SETLEN` at the head of its queue completes as its check says (R122). -/
theorem exec_brSetlen {c : CoreId} {q : Fin 16} {it : Item} (hlive : s.live (kOf c) = true)
    (hhead : (s.core (kOf c)).head q.val = some it) (hop : dOP it.desc = 0x20) :
    exec (.brSetlen c q) s = .next (s.finish (kOf c) q.val it (if setlenOk it.desc then cDONE else cFORMAT) 0 false) := by
  refine (rfl : exec (.brSetlen c q) s = .next (s.setlen (kOf c) q.val)).trans (congrArg Host.Outcome.next ?_)
  rw [State.setlen, hlive]
  simp only [Bool.not_true, Bool.false_eq_true, if_false, hhead, hop, if_true]

/-- Settles O29: a command is marked, noted and signalled by its queue's front, whether it was worked, skipped or a `BR_SETLEN`. -/
theorem completion : Obligations.Completion := by
  refine ⟨?_, ?_⟩
  · intro c q s k x hlive
    refine ⟨?_, fun it rest hqueue hphase => ?_⟩
    · intro it e hfind codes code
      obtain ⟨flags, hexec⟩ := exec_commandComplete hlive hfind
      have hsat := saturated_notes (s.freeXfer k e.txid) k q.val codes
      obtain ⟨hcompletes, hfinishes⟩ := finish_completes ((freeXfer_frees s k e.txid).trans (.of_notes hsat)) q.val it code flags e.recorded
      refine ⟨_, hexec, hcompletes, fun h => ?_, hfinishes.record, fun hcode hfree => ?_⟩
      · exact (congrArg (getF · q.val 1) (hfinishes.rd _ (aNumeric_windowBut k q.val))).trans (saturated_sets h q.isLt)
      · have hstatus : aQstat k q.val ≠ aNumeric k := (aNumeric_windowBut k q.val).2.symm
        have hcaptured := hfinishes.captured hcode ((hsat.fld hstatus 48 1).trans
          ((congrArg (getF · 48 1) (freeXfer_rd s k e.txid _)).trans hfree))
        rwa [Nat.mod_eq_of_lt (pickCode_lt codes)] at hcaptured
    · obtain ⟨st, arg, hst, hexec⟩ := exec_skipSignal hlive hqueue hphase
      exact ⟨_, hexec, flush_completes ((State.Frees.of_notes (traceEv_notes s k q.val 2 st arg)).markDone q.val it.seq st) hst⟩
  · intro c q s it k good hlive hhead hop
    have hexec := exec_brSetlen hlive hhead hop
    have hfinish := fun code => finish_completes (k := k) (.of_notes (.refl (inWindowOf k) s)) q.val it code 0 false
    have hgood : good ↔ setlenOk it.desc = true := by simp [good, setlenOk]
    refine ⟨fun h => ?_, fun h => ?_⟩
    · rw [if_pos (hgood.1 h)] at hexec
      obtain ⟨hcompletes, hfinishes⟩ := hfinish cDONE
      exact ⟨_, hexec, hcompletes, hfinishes.rd _ (aBrLen_windowBut k q.val)⟩
    · rw [if_neg (hgood.not.1 h)] at hexec
      obtain ⟨hcompletes, hfinishes⟩ := hfinish cFORMAT
      obtain ⟨r, hr, hsource, hdie, hcore⟩ := hfinishes.record (by decide) rfl
      rw [if_neg (by rw [hop]; decide)] at hsource
      exact ⟨_, hexec, hcompletes, hfinishes.rd _ (aBrLen_windowBut k q.val), r, hr, hsource, hdie, hcore⟩

end Sys2Proof.Machine
end

