-- ==== Sys2Proof/Proofs/SyncUnit.lean ====
section
/-! PROOFS. The commands of the sync unit (R66, R67, R208, R209, R217, R219, R220, R268, R439). -/

namespace Sys2Proof.Machine

variable {s t : State} {k q op n : Nat} {it : Item} {x : Exec} {bad : List Nat} {c c' : Core} {P Q : Exec → Prop}

/-! ## The command that works stands in its queue -/

/-- A command of sequence number `n` in queue `q` executes as `P` says. -/
def Core.Executes (c : Core) (q n : Nat) (P : Exec → Prop) : Prop :=
  ∃ i ∈ c.queue q, i.seq = n ∧ ∃ y, i.phase = .executing y ∧ P y

theorem executes_of_works (h : s.Works k q op it x) : (s.core k).Executes q it.seq fun _ => True := by
  have hitem := h.2.1
  unfold Core.workItem at hitem
  split at hitem
  · next e hfind =>
    obtain ⟨i, hi, hphase⟩ := List.mem_filterMap.1 (List.mem_of_find?_eq_some hfind)
    split at hitem
    · rw [Option.some.injEq] at hitem
      subst hitem
      split at hphase
      · next y hy =>
        rw [Option.some.injEq, Prod.mk.injEq] at hphase
        exact ⟨i, hi, congrArg Item.seq hphase.1, y, hy, trivial⟩
      · cases hphase
    · cases hitem
  · cases hitem

theorem Core.Executes.updExec (h : c.Executes q n P) {f : Exec → Exec} (hf : ∀ y, P y → Q (f y)) :
    (c.updExec q n f).Executes q n Q := by
  obtain ⟨i, hi, hseq, y, hy, hP⟩ := h
  refine ⟨{ i with phase := .executing (f y) }, ?_, hseq, f y, rfl, hf y hP⟩
  rw [Core.updExec, Core.updItem, Core.queue_setQueue]
  exact List.mem_map.2 ⟨i, hi, by rw [if_pos hseq, hy]⟩

theorem executes_congr (h : c'.fifo = c.fifo) : c'.Executes q n P ↔ c.Executes q n P := by
  rw [Core.Executes, Core.queue, h]; rfl

/-- A test of the waits leaves what executes. -/
theorem Core.Executes.of_unmet (h : c.Executes q n fun _ => True) (hc : (c'.queue q).map Item.unmet = (c.queue q).map Item.unmet) :
    c'.Executes q n fun _ => True := by
  obtain ⟨i, hi, hseq, y, hy, -⟩ := h
  obtain ⟨j, hj, hji⟩ := List.mem_map.1 (hc ▸ List.mem_map_of_mem (f := Item.unmet) hi)
  have hi' : i.unmet = { i with phase := .executing { y with met := none } } := by rw [Item.unmet, hy]
  rw [hi', Item.unmet] at hji
  refine ⟨j, hj, ?_⟩
  split at hji
  · next z hz => exact ⟨(congrArg Item.seq hji).trans hseq, z, hz, trivial⟩
  · next hne => exact absurd (congrArg Item.phase hji) (hne _)

@[simp] theorem flag_updExec (c : Core) (q n : Nat) (f : Exec → Exec) (g : Nat) : (c.updExec q n f).flag g = c.flag g := rfl

@[simp] theorem sreg_updExec (c : Core) (q n : Nat) (f : Exec → Exec) : (c.updExec q n f).sreg = c.sreg := rfl
@[simp] theorem xfers_updExec (c : Core) (q n : Nat) (f : Exec → Exec) : (c.updExec q n f).xfers = c.xfers := rfl

theorem core_workDone (s : State) (k q : Nat) (it : Item) (codes : List Nat) (flags : Nat) :
    (s.core k).Worked ((s.workDone k q it codes flags).core k) q it codes flags := State.core_modCore ..

/-- Work that is done is marked so, whatever the core was besides. -/
theorem Core.Executes.workDone (h : (s.core k).Executes q it.seq P) (codes : List Nat) (flags : Nat) :
    ((s.workDone k q it codes flags).core k).Executes q it.seq fun y => y.worked = true ∧ ∃ z, P z ∧ y.codes = z.codes ++ codes := by
  rw [core_workDone]
  exact h.updExec fun z hz => ⟨rfl, z, hz, rfl⟩

/-! ## `SIGNAL` (R208, R217, R268) -/

/-- What names a transfer of a flagged packet, and the packet. -/
def Xfer.flagged (x : Xfer) : BitVec 12 × BitVec 20 × Option Packet := (x.txid, x.dest, x.flagPkt)

theorem flagged_map {l : List Xfer} {f : Xfer → Xfer} (hf : ∀ x : Xfer, (f x).flagged = x.flagged) :
    (l.map f).map Xfer.flagged = l.map Xfer.flagged := by
  rw [List.map_map]
  exact List.map_congr_left fun x _ => hf x

theorem xfers_leave (s : State) (k : Nat) (p : Packet) : ((s.leave k p).core k).xfers = (s.core k).xfers := by
  unfold State.leave
  dsimp only
  rw [(inject_frame _ _).core, State.core_modCore]

theorem flagged_sendHead (s : State) (k : Nat) (x : Xfer) :
    ((s.sendHead k x).core k).xfers.map Xfer.flagged = (s.core k).xfers.map Xfer.flagged := by
  unfold State.sendHead
  split
  · rfl
  · rw [xfers_leave, State.core_modCore]
    exact flagged_map fun y => by split <;> rfl

theorem flagged_sendAll (k n : Nat) (s : State) : ((sendAll k n s).core k).xfers.map Xfer.flagged = (s.core k).xfers.map Xfer.flagged := by
  induction n generalizing s with
  | zero => rfl
  | succ n ih =>
    unfold sendAll
    split
    · rw [ih, State.core_modCore]; exact flagged_sendHead ..
    · rfl

/-- What leaves a core takes no flagged packet from its transfer. -/
theorem flagged_pump (s : State) (k : Nat) : ((s.pump k).core k).xfers.map Xfer.flagged = (s.core k).xfers.map Xfer.flagged := by
  have hask : ((s.requestAll k).core k).xfers.map Xfer.flagged = (s.core k).xfers.map Xfer.flagged := by
    change ((s.modCore k fun c => { c with
      xfers := (s.core k).xfers.map fun x => { x with requested := x.requested + x.asks } }).core k).xfers.map Xfer.flagged = _
    rw [State.core_modCore]
    exact flagged_map fun _ => rfl
  unfold State.pump State.holdFlags
  rw [State.core_modCore]
  refine (flagged_map fun x => ?_).trans ((flagged_sendAll ..).trans hask)
  split <;> rfl

/-- A transfer that begins is its core's, and beside its number in the command, the transfers and what leaves, the core is as it was. -/
theorem startXfer_core (s : State) (k : Nat) (x : Xfer) :
    let c := (s.startXfer k x).core k
    c.fifo = ((s.core k).updExec x.queue x.seq fun e => { e with txid := some x.txid }).fifo ∧ (∀ f, c.flag f = (s.core k).flag f) ∧
      ∃ y ∈ c.xfers, y.flagged = x.flagged := by
  obtain ⟨u, hu⟩ : ∃ u, u = s.modCore k fun c => { (c.updExec x.queue x.seq fun e => { e with txid := some x.txid }) with
    xfers := c.xfers ++ [x], nextTx := x.txid + 1 } := ⟨_, rfl⟩
  have ht : s.startXfer k x = u.pump k := by rw [hu]; rfl
  have hcore : u.core k = { ((s.core k).updExec x.queue x.seq fun e => { e with txid := some x.txid }) with
      xfers := (s.core k).xfers ++ [x], nextTx := x.txid + 1 } := by rw [hu, State.core_modCore]
  have hpump := (pump_sendsOn u k).core.frame
  dsimp only
  rw [ht]
  refine ⟨by rw [hpump, hcore], fun f => by rw [Core.flag, hpump, hcore]; rfl, List.mem_map.1 ?_⟩
  rw [flagged_pump, hcore]
  simp

/-- R217: a local `SIGNAL` adds to its flag alone. -/
theorem signalHere_spec (h : s.Works k q op it x) :
    let t := s.signalHere k q it
    t.mem = s.mem ∧ (t.core k).sreg = (s.core k).sreg ∧ (∀ j, j ≠ k → t.core j = s.core j) ∧
      (∀ f, (t.core k).flag f = if f = yFLAG it.desc then (s.core k).flag f + yVALUE it.desc else (s.core k).flag f) ∧
      (t.core k).Executes q it.seq fun y => y.worked = true := by
  obtain ⟨a, ha⟩ : ∃ a, a = s.flagAdd k (yFLAG it.desc) (yVALUE it.desc) q := ⟨_, rfl⟩
  have hadd : State.Signals (inWindowOf k) k (addOf (yFLAG it.desc) (yVALUE it.desc)) s a.1 := ha ▸ flagAdd_signals ..
  have hwork : s.signalHere k q it = a.1.workDone k q it (if a.2 then [cCREDIT] else []) 0 := by rw [ha]; rfl
  have hexec := ((executes_of_works h).of_unmet (hadd.core.queue q)).workDone (if a.2 then [cCREDIT] else []) 0
  dsimp only
  rw [hwork]
  refine ⟨hadd.mem, ?_, fun j hj => (State.core_modCore_ne _ _ hj).trans (hadd.others j hj), fun f => ?_, ?_⟩
  · rw [core_workDone, sreg_updExec]; exact hadd.core.sreg
  · rw [core_workDone, flag_updExec, hadd.core.flag]
    unfold addOf
    split
    · rfl
    · exact BitVec.add_zero _
  · obtain ⟨i, hi, hseq, y, hy, hdone, -⟩ := hexec
    exact ⟨i, hi, hseq, y, hy, hdone⟩

/-- R208, R268: a remote one begins a transfer of its flagged packet. -/
theorem signalOut_spec (h : s.Works k q op it x) :
    let t := s.signalOut k q it
    t.mem = s.mem ∧ (t.core k).sreg = (s.core k).sreg ∧ (∀ f, (t.core k).flag f = (s.core k).flag f) ∧
      (∃ y ∈ (t.core k).xfers, y.txid = (s.core k).freshTx ∧ y.dest = yDEST it.desc ∧ y.flagPkt.isSome = true) ∧
      (t.core k).Executes q it.seq fun y => y.worked = true := by
  obtain ⟨n, hn⟩ : ∃ n, n = (s.core k).freshTx := ⟨_, rfl⟩
  obtain ⟨p, hp⟩ : ∃ p, p = s.flagPacketOf k none (yDEST it.desc) (yFLAG it.desc) (yVALUE it.desc) n := ⟨_, rfl⟩
  obtain ⟨y, hy⟩ : ∃ y : Xfer, y = { Xfer.fresh n q it (yDEST it.desc) 0 none [] with flagPkt := some p, flag := .unsent } :=
    ⟨_, rfl⟩
  have hout : s.signalOut k q it = (s.startXfer k y).workDone k q it [] 0 := by rw [hy, hp, hn]; rfl
  have hbegins := startXfer_begins s k y
  obtain ⟨hfifo, hflags, z, hz, hflagged⟩ := startXfer_core s k y
  have hexec : ((s.startXfer k y).core k).Executes q it.seq fun _ => True := by
    rw [executes_congr hfifo, hy]
    exact (executes_of_works h).updExec fun _ _ => trivial
  obtain ⟨i, hi, hseq, e, he, hdone, -⟩ := hexec.workDone [] 0
  have hfields : z.flagged = (n, yDEST it.desc, some p) := by rw [hflagged, hy]; rfl
  obtain ⟨htx, hdest, hpkt⟩ := by simpa only [Xfer.flagged, Prod.mk.injEq] using hfields
  rw [hn] at htx
  intro t
  have ht : t = _ := hout
  rw [ht]
  refine ⟨hbegins.mem, ?_, fun f => ?_, ⟨z, ?_, htx, hdest, by rw [hpkt]; rfl⟩, i, hi, hseq, e, he, hdone⟩
  · rw [core_workDone, sreg_updExec]; exact hbegins.sreg
  · rw [core_workDone, flag_updExec]; exact hflags f
  · rw [core_workDone, xfers_updExec]; exact hz

theorem exec_signal {c : CoreId} {q : Fin 16} (h : s.Works (kOf c) q.val 0x60 it x) :
    exec (.signal c q) s = .next (if yRMT it.desc then s.signalOut (kOf c) q.val it else s.signalHere (kOf c) q.val it) :=
  congrArg Host.Outcome.next (work_of_works h _)

/-! ## `WAIT` (R219, R220) -/

/-- R219: a `WAIT` was satisfied in tick `u`, which its execution has kept or is this one. -/
theorem metTick_eq_some {u : Nat} : s.metTick k it x = some u ↔
    x.met = some u ∨ (x.met = none ∧ ((s.core k).flag (yFLAG it.desc) - yVALUE it.desc).toNat < 2 ^ 31 ∧
      (yTIMEOUT it.desc = 0 ∨ s.tick ≤ x.issued + yTIMEOUT it.desc) ∧ u = s.tick) := by
  unfold State.metTick
  cases hm : x.met with
  | some v => simp
  | none =>
    have hdue : expired s.tick x.issued (yTIMEOUT it.desc) = false ↔
        yTIMEOUT it.desc = 0 ∨ s.tick ≤ x.issued + yTIMEOUT it.desc := by
      simp [expired]; omega
    simp [satisfies, hdue, and_assoc, eq_comm (a := s.tick)]

/-- Work done by core `k` alone. -/
theorem workDone_onlyCore (s : State) (k q : Nat) (it : Item) (codes : List Nat) (flags : Nat) :
    s.OnlyCore k (s.workDone k q it codes flags) :=
  ⟨rfl, fun _ hj => State.core_modCore_ne _ _ hj, [], by simp [State.workDone, State.modCore], by simp⟩

theorem exec_wait {c : CoreId} {q : Fin 16} (h : s.Works (kOf c) q.val 0x61 it x) :
    exec (.wait c q) s = .next (if s.metTick (kOf c) it x = some x.issued then s.workDone (kOf c) q.val it [] 0 else s) :=
  congrArg Host.Outcome.next (work_of_works h _)

theorem exec_waitArrival {c : CoreId} {q : Fin 16} (h : s.Works (kOf c) q.val 0x61 it x) {u : Nat}
    (hu : s.metTick (kOf c) it x = some u) : exec (.waitArrival c q) s = .next (s.workDone (kOf c) q.val it []
      (if nearExpiry u x.issued (yTIMEOUT it.desc) then withFlag 0 fNEAREXPIRY else 0)) := by
  refine (congrArg Host.Outcome.next (work_of_works h _)).trans ?_
  rw [hu]

theorem exec_waitTimeout {c : CoreId} {q : Fin 16} (h : s.Works (kOf c) q.val 0x61 it x) :
    exec (.waitTimeout c q) s = .next (if expired s.tick x.issued (yTIMEOUT it.desc) ∧ x.met = none then
      s.workDone (kOf c) q.val it [cTIMEDOUT] 0 else s) :=
  congrArg Host.Outcome.next (work_of_works h _)

/-! ## `HANDLE_WRITE`, `EDITION_FENCE`: the operand (R208, R209, R439) -/

theorem syncWork_clean {go : Item → Wide → State → State} (h : s.Works k q op it x)
    (hdmg : s.damage k 1 (hBASE (x.handle (ySH it.desc)) + ySOFF it.desc) 32 bad = none) :
    s.syncWork k q op bad go = go it (BitVec.ofNat 256 (s.coreNat k 1 (hBASE (x.handle (ySH it.desc)) + ySOFF it.desc) 32)) s := by
  unfold State.syncWork
  rw [work_of_works h]
  simp only [State.syncOperand, hdmg]

/-- A damaged operand is noted and the command worked, with its handles as they were. -/
theorem syncWork_damaged {go : Item → Wide → State → State} (h : s.Works k q op it x)
    (hdmg : s.damage k 1 (hBASE (x.handle (ySH it.desc)) + ySOFF it.desc) 32 bad ≠ none) :
    let t := s.syncWork k q op bad go
    (t.core k).handles = (s.core k).handles ∧ t.mem = s.mem ∧
      (t.core k).Executes q it.seq fun y => y.worked = true ∧ 0x07 ∈ y.codes := by
  obtain ⟨g, hg⟩ := Option.ne_none_iff_exists'.1 hdmg
  obtain ⟨r, hr, hnote⟩ : ∃ r : ErrRec, r.cls ≠ 3 ∧ s.noteDamage k q it (some g) = (s.raise r).modCore k fun c =>
      c.updExec q it.seq fun y => { y with recorded := true, codes := y.codes ++ [cPARITY] } :=
    ⟨_, by split <;> simp [State.dmgRec, State.coreRec], rfl⟩
  have hwork : s.syncWork k q op bad go = ((s.raise r).modCore k fun c =>
      c.updExec q it.seq fun y => { y with recorded := true, codes := y.codes ++ [cPARITY] }).workDone k q it [] 0 := by
    unfold State.syncWork
    rw [work_of_works h]
    simp only [State.syncOperand, hg, hnote]
  have hraise : (s.raise r).core k = s.core k := by rw [raise_frame_lt s r hr]; rfl
  have hnoted : (((s.raise r).modCore k fun c =>
      c.updExec q it.seq fun y => { y with recorded := true, codes := y.codes ++ [cPARITY] }).core k).Executes q it.seq
      fun y => 0x07 ∈ y.codes := by
    rw [State.core_modCore, hraise]
    exact (executes_of_works h).updExec fun y _ => List.mem_append_right _ (List.mem_singleton_self _)
  obtain ⟨i, hi, hseq, y, hy, hdone, z, hz, hcodes⟩ := hnoted.workDone [] 0
  dsimp only
  rw [hwork]
  refine ⟨?_, ?_, i, hi, hseq, y, hy, hdone, by rw [hcodes, List.append_nil]; exact hz⟩
  · rw [core_workDone, State.core_modCore, hraise]; rfl
  · rw [raise_frame_lt s r hr]; rfl

theorem exec_handleWrite (c : CoreId) (q : Fin 16) (bad : List Nat) (s : State) : exec (.handleWrite c q bad) s =
    .next (s.syncWork (kOf c) q.val 0x62 bad fun it v s => s.installHandle (kOf c) q.val it v) := rfl

theorem exec_editionFence (c : CoreId) (q : Fin 16) (bad : List Nat) (s : State) : exec (.editionFence c q bad) s =
    .next (s.syncWork (kOf c) q.val 0x63 bad fun it v s => s.fence (kOf c) q.val it v) := rfl

/-! ## What they change (R66, R67) -/

/-- The queue's command is worked, and beside the handles of core `k` nothing differs. -/
def State.WorksOff (s t : State) (k q : Nat) (it : Item) (codes : List Nat) (flags : Nat) : Prop :=
  ∃ e, (s.core k).Worked e q it codes flags ∧ (t.core k).fifo = e.fifo ∧ (t.core k).sreg = (s.core k).sreg ∧
    (t.core k).flags = (s.core k).flags ∧ t.mem = s.mem ∧ t.ctl = s.ctl

/-- A command that changes its core's handles to `l` and is worked. -/
theorem workDone_handles (s : State) (k q : Nat) (it : Item) (l : Tbl Wide) (codes : List Nat) (flags : Nat) :
    let t := (s.modCore k fun c => { c with handles := l }).workDone k q it codes flags
    s.WorksOff t k q it codes flags ∧ (t.core k).handles = l := by
  have hcore := core_workDone (s.modCore k fun c => { c with handles := l }) k q it codes flags
  rw [State.core_modCore] at hcore
  dsimp only
  rw [State.WorksOff, hcore]
  exact ⟨⟨_, rfl, rfl, rfl, rfl, rfl, rfl⟩, rfl⟩

theorem workDone_worksOff (s : State) (k q : Nat) (it : Item) (codes : List Nat) (flags : Nat) :
    let t := s.workDone k q it codes flags
    s.WorksOff t k q it codes flags ∧ (t.core k).handles = (s.core k).handles := by
  dsimp only
  rw [State.WorksOff, core_workDone]
  exact ⟨⟨_, rfl, rfl, rfl, rfl, rfl, rfl⟩, rfl⟩

/-- R67: an entry that passes is installed, any other is not. -/
theorem installHandle_spec (s : State) (k q : Nat) (it : Item) (v : Wide) :
    let t := s.installHandle k q it v
    (s.handleCheck v = cDONE → s.WorksOff t k q it [] 0 ∧
      ∀ h, (t.core k).handle h = if h = yTH it.desc then v else (s.core k).handle h) ∧
    (s.handleCheck v ≠ cDONE → s.WorksOff t k q it [s.handleCheck v] 0 ∧ (t.core k).handles = (s.core k).handles) := by
  dsimp only
  rw [State.installHandle]
  refine ⟨fun hok => ?_, fun hbad => ?_⟩
  · rw [if_pos hok]
    obtain ⟨hoff, hhandles⟩ := workDone_handles s k q it (Tbl.set 0 (s.core k).handles (yTH it.desc) v) [] 0
    exact ⟨hoff, fun h => (congrArg (Tbl.get 0 · h) hhandles).trans (Tbl.get_set ..)⟩
  · rw [if_neg hbad]
    exact workDone_worksOff ..

theorem mem_maskHandles {m : Wide} {h : Nat} : h ∈ maskHandles m ↔ h < 256 ∧ m.getLsbD h = true := by
  have hbit : getW m h 1 = 1 ↔ m.getLsbD h = true := by
    rw [getW, bits_eq, BitVec.getLsbD, Nat.testBit_eq_decide_div_mod_eq]
    simp
  simp [maskHandles, hbit]

/-- A table of handles after the fence of those of a list: each makes one step. -/
def fenceAll (l : List Nat) (c : Core) : Core := l.foldl (fun c h => c.setHandle h (fenceEntry (c.handle h))) c

theorem fenceAll_eq (l : List Nat) (c : Core) : fenceAll l c = { c with handles := (fenceAll l c).handles } := by
  induction l generalizing c with
  | nil => rfl
  | cons h l ih => exact (ih (c.setHandle h (fenceEntry (c.handle h)))).trans rfl

theorem handle_fenceAll {l : List Nat} (hl : l.Nodup) (c : Core) (h : Nat) :
    (fenceAll l c).handle h = if h ∈ l then fenceEntry (c.handle h) else c.handle h := by
  induction l generalizing c with
  | nil => rfl
  | cons a l ih =>
    obtain ⟨ha, hl⟩ := List.nodup_cons.1 hl
    have hstep : (fenceAll (a :: l) c).handle h = _ := ih hl (c.setHandle a (fenceEntry (c.handle a)))
    have hset : (c.setHandle a (fenceEntry (c.handle a))).handle h = if h = a then fenceEntry (c.handle a) else c.handle h :=
      Tbl.get_set ..
    rw [hstep, hset]
    by_cases heq : h = a
    · subst heq; simp [ha]
    · simp [heq]

/-- What a fence asks of every handle that its mask names (R209). -/
def Core.fencable (c : Core) (edition h : Nat) : Bool := hPEND (c.handle h) && hEDPEND (c.handle h) = edition

/-- R209: a fence whose mask names no handle. -/
theorem fence_empty {m : Wide} (h : maskHandles m = []) : s.fence k q it m = s.workDone k q it [] (2 ^ 11) := if_pos h

/-- One that finds some named handle unfit. -/
theorem fence_conflict {m : Wide} {h : Nat} (hh : h ∈ maskHandles m) (hunfit : (s.core k).fencable (yVALUE it.desc).toNat h = false) :
    s.fence k q it m = s.workDone k q it [cEDITION] 0 := by
  have hall : (maskHandles m).all ((s.core k).fencable (yVALUE it.desc).toNat) = false := List.all_eq_false.2 ⟨h, hh, by simp [hunfit]⟩
  refine (if_neg (List.ne_nil_of_mem hh)).trans (if_pos ?_)
  rw [Bool.not_eq_true']
  exact hall

/-- One that finds all of them fit. -/
theorem fence_flips {m : Wide} (hne : maskHandles m ≠ [])
    (h : ∀ h ∈ maskHandles m, (s.core k).fencable (yVALUE it.desc).toNat h = true) :
    s.fence k q it m = (s.modCore k fun c => { c with
      handles := (fenceAll (maskHandles m) (s.core k)).handles }).workDone k q it [] 0 := by
  have hflip : s.modCore k (fenceAll (maskHandles m)) = s.modCore k fun c => { c with
      handles := (fenceAll (maskHandles m) (s.core k)).handles } := by
    rw [State.modCore_eq, fenceAll_eq]; rfl
  have hall : (maskHandles m).all ((s.core k).fencable (yVALUE it.desc).toNat) = true := List.all_eq_true.2 h
  rw [← hflip]
  refine (if_neg hne).trans (if_neg ?_)
  rw [Bool.not_eq_true']
  exact fun hf => Bool.false_ne_true (hf.symm.trans hall)

/-- R66, R209: the three ends of a fence, by what its mask names. -/
theorem fence_spec (s : State) (k q : Nat) (it : Item) (m : Wide) :
    let t := s.fence k q it m
    let named := fun h => h < 256 ∧ m.getLsbD h = true
    let fit := fun h => hPEND ((s.core k).handle h) = true ∧ hEDPEND ((s.core k).handle h) = (yVALUE it.desc).toNat
    ((∀ h, ¬ named h) → s.WorksOff t k q it [] (2 ^ 11) ∧ (t.core k).handles = (s.core k).handles) ∧
    ((∃ h, named h) → (∀ h, named h → fit h) → s.WorksOff t k q it [] 0 ∧
      ∀ h, (named h → (t.core k).handle h = fenceEntry ((s.core k).handle h)) ∧
        (¬ named h → (t.core k).handle h = (s.core k).handle h)) ∧
    ((∃ h, named h ∧ ¬ fit h) → s.WorksOff t k q it [0x0A] 0 ∧ (t.core k).handles = (s.core k).handles) := by
  intro t named fit
  have hnamed : ∀ h, h ∈ maskHandles m ↔ named h := fun _ => mem_maskHandles
  have hfit : ∀ h, (s.core k).fencable (yVALUE it.desc).toNat h = true ↔ fit h := fun h => by simp [Core.fencable, fit]
  refine ⟨fun hnone => ?_, fun ⟨a, ha⟩ hall => ?_, fun ⟨h, hh, hnot⟩ => ?_⟩
  · have ht : t = _ := fence_empty (List.eq_nil_iff_forall_not_mem.2 fun h hh => hnone h ((hnamed h).1 hh))
    rw [ht]
    exact workDone_worksOff ..
  · have ht : t = _ := fence_flips (List.ne_nil_of_mem ((hnamed a).2 ha)) fun h hh => (hfit h).2 (hall h ((hnamed h).1 hh))
    obtain ⟨hoff, hhandles⟩ := workDone_handles s k q it (fenceAll (maskHandles m) (s.core k)).handles [] 0
    rw [ht]
    refine ⟨hoff, fun h => ?_⟩
    have hentry := (congrArg (Tbl.get 0 · h) hhandles).trans (handle_fenceAll (List.nodup_range.filter _) (s.core k) h)
    exact ⟨fun hh => hentry.trans (if_pos ((hnamed h).2 hh)), fun hh => hentry.trans (if_neg fun hm => hh ((hnamed h).1 hm))⟩
  · have ht : t = _ := fence_conflict ((hnamed h).2 hh) (Bool.eq_false_iff.2 fun hf => hnot ((hfit h).1 hf))
    rw [ht]
    exact workDone_worksOff ..

/-! ## The obligation -/

/-- Settles O27: each command's work by its case, in terms of the flag, the transfer or the handles that it changes. -/
theorem syncCommands : Obligations.SyncCommands := by
  refine ⟨fun c q s it x => ?_, fun c q bad s it x => ?_⟩
  · intro k d n met metIn
    refine ⟨fun hworks => ⟨fun hlocal => ?_, fun hremote => ?_⟩,
      fun hworks => ⟨fun hmet => ?_, fun u hmet => ?_, fun hmet hn hpast => ?_⟩⟩
    · have hexec := exec_signal hworks
      rw [if_neg (by rw [hlocal]; exact Bool.false_ne_true)] at hexec
      exact ⟨_, hexec, signalHere_spec hworks⟩
    · have hexec := exec_signal hworks
      rw [if_pos hremote] at hexec
      exact ⟨_, hexec, signalOut_spec hworks⟩
    · have hexec := exec_wait hworks
      rw [if_pos (metTick_eq_some.2 hmet)] at hexec
      exact ⟨_, hexec, workDone_onlyCore .., core_workDone ..⟩
    · have hnear : (if nearExpiry u x.issued n then withFlag 0 fNEAREXPIRY else 0) =
          if n ≠ 0 ∧ u = x.issued + n then 2 ^ 8 else 0 := by
        simp [nearExpiry, withFlag, fNEAREXPIRY]
      have hexec := exec_waitArrival hworks (metTick_eq_some.2 hmet)
      rw [hnear] at hexec
      exact ⟨_, hexec, workDone_onlyCore .., core_workDone ..⟩
    · have hexec := exec_waitTimeout hworks
      rw [if_pos ⟨by simp [expired]; exact ⟨hn, hpast⟩, hmet⟩] at hexec
      exact ⟨_, hexec, workDone_onlyCore .., core_workDone ..⟩
  · intro k d at' v named fit queueWorked hurt
    refine ⟨fun hdmg => ⟨fun hworks => ?_, fun hworks => ?_⟩, fun hdmg => ⟨fun hworks => ?_, fun hworks => ?_⟩⟩
    · exact ⟨_, exec_handleWrite c q bad s, syncWork_damaged hworks hdmg⟩
    · exact ⟨_, exec_editionFence c q bad s, syncWork_damaged hworks hdmg⟩
    · have hexec := exec_handleWrite c q bad s
      rw [syncWork_clean hworks hdmg] at hexec
      obtain ⟨hok, hbad⟩ := installHandle_spec s k q.val it v
      exact ⟨fun h => ⟨_, hexec, hok h⟩, fun h => ⟨_, hexec, hbad h⟩⟩
    · have hexec := exec_editionFence c q bad s
      rw [syncWork_clean hworks hdmg] at hexec
      obtain ⟨hnone, hall, hsome⟩ := fence_spec s k q.val it v
      exact ⟨fun h => ⟨_, hexec, hnone h⟩, fun h h' => ⟨_, hexec, hall h h'⟩, fun h => ⟨_, hexec, hsome h⟩⟩

end Sys2Proof.Machine
end

