-- ==== Sys2Proof/Proofs/Issue.lean ====
section
/-! PROOFS. Issue: the heads that wait, the queue that is granted, the checks, and a core that freezes (R78, R182, R183, R187, R189,
R441, R442). -/

namespace Sys2Proof.Machine

variable {α : Type} {π : Core → α} {s t u : State} {k q : Nat}

/-! ## A part of every core that stands -/

/-- What `π` reads of a core is as it was, in every core. -/
structure State.CoresAlike (π : Core → α) (s t : State) : Prop where
  at_core : ∀ j, π (t.core j) = π (s.core j)

namespace State.CoresAlike

theorem refl (s : State) : s.CoresAlike π s := ⟨fun _ => rfl⟩

theorem trans (h : s.CoresAlike π t) (h' : t.CoresAlike π u) : s.CoresAlike π u :=
  ⟨fun j => (h'.at_core j).trans (h.at_core j)⟩

theorem of_cores (h : t.cores = s.cores) : s.CoresAlike π t := ⟨fun j => by rw [State.core, h]; rfl⟩

theorem of_core (hk : π (t.core k) = π (s.core k)) (hne : ∀ j, j ≠ k → t.core j = s.core j) : s.CoresAlike π t where
  at_core j := by
    by_cases hj : j = k
    · rw [hj, hk]
    · rw [hne j hj]

theorem modCore {f : Core → Core} (hf : ∀ c, π (f c) = π c) : s.CoresAlike π (s.modCore k f) :=
  .of_core (by rw [State.core_modCore, hf]) fun _ hj => State.core_modCore_ne s f hj

theorem ite {c : Prop} [Decidable c] (h : s.CoresAlike π t) (h' : s.CoresAlike π u) : s.CoresAlike π (if c then t else u) := by
  split <;> assumption

theorem foldl {β : Type} {f : State → β → State} (hf : ∀ t x, State.CoresAlike π t (f t x)) (l : List β) (s : State) :
    s.CoresAlike π (l.foldl f s) := by
  induction l generalizing s with
  | nil => exact refl s
  | cons x l ih => exact (hf s x).trans (ih _)

end State.CoresAlike

/-! ## A core freezes (R441, R442) -/

/-- What a stop of the core's part leaves of a core: whether it is frozen, and its queues. -/
def Core.standing (c : Core) : Bool × Tbl (List Item) := (c.frozen, c.fifo)

theorem cmpStop_standing (s : State) (k : Nat) : s.CoresAlike Core.standing (s.cmpStop k) :=
  .modCore fun c => by split <;> rfl

theorem stopPart_standing (s : State) (p : Nat) : s.CoresAlike Core.standing (s.stopPart p) := by
  have hstop := State.CoresAlike.foldl (fun t k => cmpStop_standing t k) (s.started p) s
  unfold State.stopPart
  dsimp only
  refine .ite (hstop.trans (.of_cores ?_)) (.refl s)
  split <;> rfl

theorem timingLost_cores (s : State) (p : Nat) : (s.timingLost p).cores = s.cores := by
  unfold State.timingLost
  split <;> rfl

/-- A record of any class, partition-fatal ones too. -/
theorem raise_standing (s : State) (r : ErrRec) : s.CoresAlike Core.standing (s.raise r) := by
  have hrecord : ∀ (t : State), t.cores = s.cores → s.CoresAlike Core.standing (t.timingLost r.part) := fun t h =>
    .of_cores ((timingLost_cores t r.part).trans h)
  unfold State.raise
  dsimp only
  refine .ite (.trans (hrecord _ ?_) (stopPart_standing _ _)) (hrecord _ ?_)
  all_goals split <;> rfl

/-- R441, R442: a parity error in the control state. -/
theorem controlFreeze_spec (s : State) (k : Nat) :
    let t := s.controlFreeze k
    (t.core k).frozen = true ∧ t.mem = s.mem ∧ (t.core k).fifo = (s.core k).fifo ∧
      ∃ r ∈ t.errPend, r.source = 0x13 ∧ r.core = keyFlat k := by
  obtain ⟨u, hu⟩ : ∃ u, u = s.modCore k fun c => { c with frozen := true } := ⟨_, rfl⟩
  obtain ⟨r, hr, hsource, hcore⟩ : ∃ r : ErrRec, s.controlFreeze k = u.raise r ∧ r.source = 0x13 ∧ r.core = keyFlat k := by
    rw [hu]; exact ⟨_, rfl, rfl, rfl⟩
  have hstand := (raise_standing u r).at_core k
  rw [Core.standing, Core.standing, Prod.mk.injEq, hu, State.core_modCore, ← hu] at hstand
  obtain ⟨x, hx, hxsource, -, hxcore, -⟩ := raise_has u r
  dsimp only
  rw [hr]
  refine ⟨hstand.1, ?_, hstand.2, x, hx, hxsource.trans hsource, hxcore.trans hcore⟩
  rw [raise_frame u r, hu]
  rfl

/-! ## Heads that wait (R78) -/

/-- The queues of core `k` apart, all of the state. -/
structure State.QueuesOnly (k : Nat) (s t : State) : Prop where
  frame : t = { s with cores := t.cores }
  others : ∀ j, j ≠ k → t.core j = s.core j
  core : t.core k = { s.core k with fifo := (t.core k).fifo }

theorem State.QueuesOnly.refl (k : Nat) (s : State) : State.QueuesOnly k s s := ⟨rfl, fun _ _ => rfl, rfl⟩

theorem State.QueuesOnly.trans (h : State.QueuesOnly k s t) (h' : State.QueuesOnly k t u) : State.QueuesOnly k s u :=
  ⟨Eq.trans h'.frame (by rw [h.frame]), fun j hj => (h'.others j hj).trans (h.others j hj), Eq.trans h'.core (by rw [h.core])⟩

theorem updItem_queuesOnly (s : State) (k q n : Nat) (f : Item → Item) :
    State.QueuesOnly k s (s.modCore k fun c => c.updItem q n f) :=
  ⟨rfl, fun _ hj => State.core_modCore_ne _ _ hj, by rw [State.core_modCore]; rfl⟩

/-- Marks of waiting heads are in their queues. -/
theorem markStalled_queuesOnly (s : State) (k e : Nat) : State.QueuesOnly k s (s.markStalled k e) := by
  unfold State.markStalled
  induction engineQueues e generalizing s with
  | nil => exact .refl k s
  | cons q l ih =>
    refine .trans ?_ (ih _)
    dsimp only
    split
    · split
      · exact updItem_queuesOnly ..
      · exact .refl k s
    · exact .refl k s

/-! ## Completion grants nothing (R183) -/

theorem release_granted (s : State) (k n v who : Nat) : s.CoresAlike Core.granted (s.release k n v who).1 := by
  have hpump (t : State) : t.CoresAlike Core.granted (t.poolPump k n) :=
    .of_core (by rw [core_poolPump]; rfl) fun j hj => core_poolPump_ne t n hj
  have hraise (t : State) (d : Nat) : t.CoresAlike Core.granted (t.raise { t.coreRec k 1 0x25 0x0F with detail := d }) := by
    rw [raise_frame_lt _ _ (by simp [State.coreRec])]; exact .of_cores rfl
  refine .trans (.trans ?_ (.ite (hraise _ _) (.refl _))) (hpump _)
  exact .modCore fun _ => rfl

/-- A flag's addition, before the releases it makes. -/
theorem flagSet_granted (s : State) (k f queue ev : Nat) (x : BitVec 32) (status : BitVec 16) (arg : Nat) :
    s.CoresAlike Core.granted ((s.modCore k fun c =>
      ({ c with flags := Tbl.set 0 c.flags f x, census := 0 } : Core).latch s.tick).traceEv k queue ev status arg) := by
  refine .trans ?_ (.of_cores (traceEv_notes ..).cores)
  exact .modCore fun _ => rfl

theorem flagAdd_granted (s : State) (k f : Nat) (v : BitVec 32) (who : Nat) : s.CoresAlike Core.granted (s.flagAdd k f v who).1 := by
  have hfold (l : List Nat) (a : State × Bool) : a.1.CoresAlike Core.granted (l.foldl (fun a n =>
      ((a.1.release k n v.toNat who).1, a.2 || (a.1.release k n v.toNat who).2)) a).1 := by
    induction l generalizing a with
    | nil => exact .refl a.1
    | cons n l ih =>
      exact (release_granted a.1 k n v.toNat who).trans (ih ((a.1.release k n v.toNat who).1, a.2 || (a.1.release k n v.toNat who).2))
  have hset := flagSet_granted s k f 0 3 ((s.core k).flag f + v) 0 (f + ((s.core k).flag f + v).toNat * 2 ^ 8)
  unfold State.flagAdd
  dsimp only
  split
  · exact hset
  · exact hset.trans (hfold _ (_, false))

theorem signalOf_granted (s : State) (k q : Nat) (it : Item) (st : BitVec 16) : s.CoresAlike Core.granted (s.signalOf k q it st) := by
  unfold State.signalOf
  dsimp only
  refine .ite (.trans ?_ (flagAdd_granted ..)) ?_ <;> exact .of_cores rfl

theorem flush_granted (s : State) (k q : Nat) : s.CoresAlike Core.granted (s.flush k q) := by
  refine .trans ?_ (.foldl (fun t i => ?_) _ _)
  · exact .modCore fun _ => rfl
  · cases i.doneWith with
    | none => exact .refl t
    | some st => exact signalOf_granted ..

theorem finish_granted (s : State) (k q : Nat) (it : Item) (code flags : Nat) (recorded : Bool) :
    s.CoresAlike Core.granted (s.finish k q it code flags recorded) := by
  obtain ⟨st, arg, -, hfinish⟩ := finish_eq s k q it code flags recorded
  rw [hfinish]
  refine .trans (.trans (.trans (.trans ?_ (.of_cores (traceEv_notes ..).cores)) (.of_cores (noteFailure_notes ..).cores))
    (.of_cores (noteFence_notes ..).cores)) (flush_granted ..)
  exact .modCore fun _ => rfl

/-! ## One issue (R182, R183, R187, R189) -/

theorem traceEv_errPend (s : State) (k queue ev : Nat) (st : BitVec 16) (arg : Nat) :
    (s.traceEv k queue ev st arg).errPend = s.errPend := by
  have hite {c : Prop} [Decidable c] {a b : State} (ha : a.errPend = s.errPend) (hb : b.errPend = s.errPend) :
      (if c then a else b).errPend = s.errPend := by split <;> assumption
  exact hite (hite rfl rfl) rfl

/-- A head that passes its checks is traced and begins to execute in that tick. -/
theorem issue_passes {it : Item} (h : s.issueCheck k it.desc it.blen = cDONE) : ∃ (u : State) (x : Exec),
    s.Notes (inWindowOf k) u ∧ u.errPend = s.errPend ∧ x.issued = s.tick ∧ x.codes = [] ∧
      s.issue k q it = u.modCore k fun c => c.updItem q it.seq fun i => { i with phase := .executing x } := by
  have htrace := traceEv_notes s k q 0 0 (dOP it.desc + it.seq % 2 ^ 32 * 2 ^ 8)
  refine ⟨_, State.startExec _ k it, htrace, traceEv_errPend .., htrace.tick, rfl, ?_⟩
  unfold State.issue
  dsimp only
  rw [if_neg (by rw [h]; simp)]

/-- One that fails a check is traced and completes with its code. -/
theorem issue_fails {it : Item} (h : s.issueCheck k it.desc it.blen ≠ cDONE) : ∃ u : State, s.Notes (inWindowOf k) u ∧
    s.issue k q it = u.finish k q it (s.issueCheck k it.desc it.blen) 0 false := by
  refine ⟨_, traceEv_notes s k q 0 0 (dOP it.desc + it.seq % 2 ^ 32 * 2 ^ 8), ?_⟩
  unfold State.issue
  dsimp only
  rw [if_pos h]

section
variable {c : CoreId} {e : Engine} (hlive : s.live (kOf c) = true)
include hlive

theorem exec_commandIssue_parity : exec (.commandIssue c e true) s = .next (s.controlFreeze (kOf c)) := by
  refine congrArg Host.Outcome.next ?_
  rw [State.engineIssue, hlive]
  rfl

/-- Where no head may issue, heads have been marked alone. -/
theorem exec_commandIssue_none
    (hpick : let s1 := s.markStalled (kOf c) (engineCode e)
      ((s1.core (kOf c)).grantOrder (engineCode e)).find? (s1.canIssue (kOf c)) = none) :
    exec (.commandIssue c e false) s = .next (s.markStalled (kOf c) (engineCode e)) := by
  refine congrArg Host.Outcome.next ?_
  dsimp only at hpick
  rw [State.engineIssue, hlive]
  simp only [Bool.not_true, Bool.false_eq_true, if_false, hpick]

/-- The queue that is granted issues its head. -/
theorem exec_commandIssue_some {q : Nat} {it : Item}
    (hpick : let s1 := s.markStalled (kOf c) (engineCode e)
      ((s1.core (kOf c)).grantOrder (engineCode e)).find? (s1.canIssue (kOf c)) = some q)
    (hhead : ((s.markStalled (kOf c) (engineCode e)).core (kOf c)).head q = some it) :
    exec (.commandIssue c e false) s = .next (((s.markStalled (kOf c) (engineCode e)).modCore (kOf c) fun x =>
      { x with granted := Tbl.set 0 x.granted (engineCode e) (q + 1) }).issue (kOf c) q it) := by
  refine congrArg Host.Outcome.next ?_
  dsimp only at hpick
  rw [State.engineIssue, hlive]
  simp only [Bool.not_true, Bool.false_eq_true, if_false, hpick, hhead]

end

/-- Settles O28: the head that is granted passes its checks or completes; a parity error freezes instead. -/
theorem issueAndFreeze : Obligations.IssueAndFreeze := by
  refine ⟨fun c e s => ?_, fun c e s hlive => ⟨_, exec_commandIssue_parity hlive, controlFreeze_spec s (kOf c)⟩⟩
  intro k s1 pick hlive
  have hmarks : State.QueuesOnly k s s1 := markStalled_queuesOnly ..
  refine ⟨fun hnone => exec_commandIssue_none hlive hnone, fun q it hpick hhead => ?_⟩
  intro s2 code
  have hexec : exec (.commandIssue c e false) s = .next (s2.issue k q it) := exec_commandIssue_some hlive hpick hhead
  have hgranted : s2.core k = { s1.core k with granted := Tbl.set 0 (s1.core k).granted (engineCode e) (q + 1) } :=
    State.core_modCore ..
  have hturn : Tbl.get 0 (s2.core k).granted (engineCode e) = q + 1 := by
    have hset : (s2.core k).granted = Tbl.set 0 (s1.core k).granted (engineCode e) (q + 1) := by rw [hgranted]
    rw [hset]; exact Tbl.get_set_self ..
  have hothers : ∀ j, j ≠ k → s2.core j = s.core j := fun j hj => (State.core_modCore_ne _ _ hj).trans (hmarks.others j hj)
  have hframe : s2 = { s with cores := s2.cores } := Eq.trans (b := { s1 with cores := s2.cores }) rfl (by rw [hmarks.frame])
  have hstays : (s2.core k).flags = (s.core k).flags ∧ (s2.core k).sreg = (s.core k).sreg := by
    rw [hgranted, hmarks.core]; exact ⟨rfl, rfl⟩
  refine ⟨fun hpass => ?_, fun hfail => ?_⟩
  · obtain ⟨u, x, hnotes, hrecords, hissued, hcodes, hissue⟩ := issue_passes (q := q) hpass
    rw [hissue] at hexec
    have hcore : (u.modCore k fun c => c.updItem q it.seq fun i => { i with phase := .executing x }).core k =
        (s2.core k).updItem q it.seq fun i => { i with phase := .executing x } := by rw [State.core_modCore, hnotes.core]
    refine ⟨_, hexec, hnotes.mem.trans (by rw [hframe]), hnotes.tiles.trans (by rw [hframe]), hrecords.trans (by rw [hframe]),
      fun j hj => ?_, ?_, ?_, ?_, x, hissued.trans (by rw [hframe]), hcodes, by rw [hcore]⟩
    · rw [State.core_modCore_ne _ _ hj, hnotes.core, hothers j hj]
    · rw [hcore]; exact hturn
    · rw [hcore]; exact hstays.1
    · rw [hcore]; exact hstays.2
  · obtain ⟨u, hnotes, hissue⟩ := issue_fails (q := q) hfail
    rw [hissue] at hexec
    obtain ⟨hcompletes, hfinishes⟩ := finish_completes (.of_notes hnotes) q it code 0 false
    refine ⟨_, hexec, hcompletes, ?_, hfinishes.record hfail rfl⟩
    rw [(finish_granted u k q it code 0 false).at_core k, hnotes.core, hturn]

end Sys2Proof.Machine
end

