-- ==== Sys2Proof/Proofs/Arrivals.lean ====
section
/-! PROOFS. Arrivals: what a receiver leaves unchanged, the verdict of a transfer, and the answers that go back (R66, R74, R248,
R257, R258). -/

namespace Sys2Proof.Machine

variable {s t u : State} {p : Packet} {k : Nat} {m : List Host.Cell}

/-! ## What serving a packet leaves (R74) -/

/-- What no data packet reaches of a core. -/
def Core.regs (c : Core) : Tbl Word × Tbl (BitVec 32) := (c.sreg, c.flags)

/-- The byte memories are `m`; tiles, scalar registers and flags are as they were. -/
structure State.Serves (m : List Host.Cell) (s t : State) : Prop where
  mem : t.mem = m
  tiles : t.tiles = s.tiles
  position : t.position = s.position
  regs : s.CoresAlike Core.regs t

namespace State.Serves

theorem refl (s : State) : State.Serves s.mem s s := ⟨rfl, rfl, rfl, .refl s⟩

theorem trans (h : State.Serves m s t) (h' : State.Serves t.mem t u) : State.Serves m s u :=
  ⟨h'.mem.trans h.mem, h'.tiles.trans h.tiles, h'.position.trans h.position, h.regs.trans h'.regs⟩

/-- A first part that keeps the memories. -/
theorem after (h' : State.Serves m t u) (h : State.Serves s.mem s t) : State.Serves m s u :=
  ⟨h'.mem, h'.tiles.trans h.tiles, h'.position.trans h.position, h.regs.trans h'.regs⟩

theorem ite {c : Prop} [Decidable c] (h : State.Serves m s t) (h' : State.Serves m s u) : State.Serves m s (if c then t else u) := by
  split <;> assumption

theorem modCore {f : Core → Core} (hf : ∀ c, (f c).regs = c.regs) : State.Serves s.mem s (s.modCore k f) :=
  ⟨rfl, rfl, rfl, .modCore hf⟩

theorem sent (h : s.SendFrame t) : State.Serves s.mem s t := ⟨h.mem, h.tiles, by rw [h], ⟨fun j => by rw [h.core]⟩⟩

theorem raise {r : ErrRec} (hr : r.cls ≠ 3) (s : State) : State.Serves s.mem s (s.raise r) := by
  rw [raise_frame_lt s r hr]; exact ⟨rfl, rfl, rfl, .of_cores rfl⟩

/-- A fold whose steps rewrite the memories as `g` says. -/
theorem foldl {β : Type} {f : State → β → State} {g : List Host.Cell → β → List Host.Cell}
    (hf : ∀ t x, State.Serves (g t.mem x) t (f t x)) (l : List β) (s : State) : State.Serves (l.foldl g s.mem) s (l.foldl f s) := by
  induction l generalizing s with
  | nil => exact refl s
  | cons x l ih =>
    have hrest := ih (f s x)
    rw [(hf s x).mem] at hrest
    exact ⟨hrest.mem, hrest.tiles.trans (hf s x).tiles, hrest.position.trans (hf s x).position, (hf s x).regs.trans hrest.regs⟩

end State.Serves

theorem landed_serves (s : State) (p : Packet) : State.Serves s.mem s (s.landed p) := ⟨rfl, rfl, rfl, .of_cores rfl⟩

theorem touch_serves (s : State) (k : Nat) : State.Serves s.mem s (s.touch k) := .modCore fun _ => rfl

theorem setFld_serves (s : State) (a lo w x : Nat) : State.Serves s.mem s (s.setFld a lo w x) := ⟨rfl, rfl, rfl, .of_cores rfl⟩

/-! ## Credits of a packet (R224) -/

theorem poolPump_serves (s : State) (k n : Nat) : State.Serves s.mem s (s.poolPump k n) where
  mem := rfl
  tiles := rfl
  position := rfl
  regs := .of_core (by rw [core_poolPump]; rfl) fun _ hj => core_poolPump_ne s n hj

theorem creditHome_serves (s : State) (k : Nat) (l : Lent) : State.Serves s.mem s (s.creditHome k l) := by
  have herase : State.Serves s.mem s (s.modCore k fun c => { c with lent := c.lent.erase l }) := .modCore fun _ => rfl
  refine .ite herase (herase.trans (.trans ?_ (poolPump_serves ..)))
  exact .modCore fun _ => rfl

theorem creditOf_serves (s : State) (p : Packet) : State.Serves s.mem s (s.creditOf p) := by
  unfold State.creditOf
  refine .ite (.ite ?_ (.refl s)) (.ite ⟨rfl, rfl, rfl, .of_cores rfl⟩ (.refl s))
  split
  · exact creditHome_serves ..
  · exact .refl s

theorem creditWritten_serves (s : State) (p : Packet) (k : Nat) : State.Serves s.mem s (s.creditWritten p k) := by
  unfold State.creditWritten
  split
  · refine .ite ?_ (creditHome_serves ..)
    exact .modCore fun _ => rfl
  · exact .refl s

/-! ## Bytes written (R74, R433) -/

/-- The byte memories are `m`; beside them poison, registers and what core `k` restores alone may differ. -/
structure State.Lands (k : Nat) (m : List Host.Cell) (s t : State) : Prop where
  frame : t = { s with mem := m, poison := t.poison, ctl := t.ctl, cores := t.cores }
  others : ∀ j, j ≠ k → t.core j = s.core j
  core : t.core k = { s.core k with restore := (t.core k).restore }

namespace State.Lands

theorem refl (k : Nat) (s : State) : State.Lands k s.mem s s := ⟨rfl, fun _ _ => rfl, rfl⟩

theorem mem_eq (h : State.Lands k m s t) : t.mem = m := by rw [h.frame]

theorem trans (h : State.Lands k m s t) (h' : State.Lands k t.mem t u) : State.Lands k m s u :=
  ⟨Eq.trans h'.frame (by rw [h.frame]), fun j hj => (h'.others j hj).trans (h.others j hj), Eq.trans h'.core (by rw [h.core])⟩

theorem ite {c : Prop} [Decidable c] (h : State.Lands k m s t) (h' : State.Lands k m s u) :
    State.Lands k m s (if c then t else u) := by split <;> assumption

theorem setPoison (s : State) (k j space off : Nat) (b : Bool) : State.Lands k s.mem s (s.setPoison j space off b) :=
  ⟨rfl, fun _ _ => rfl, rfl⟩

theorem setFld (k : Nat) (s : State) (a lo w x : Nat) : State.Lands k s.mem s (s.setFld a lo w x) := ⟨rfl, fun _ _ => rfl, rfl⟩

theorem restore (k : Nat) (s : State) (r : Option Restore) : State.Lands k s.mem s (s.modCore k fun c => { c with restore := r }) :=
  ⟨rfl, fun _ hj => State.core_modCore_ne s _ hj, by rw [State.core_modCore]⟩

theorem foldl {β : Type} {f : State → β → State} (hf : ∀ t x, State.Lands k t.mem t (f t x)) (l : List β) (s : State) :
    State.Lands k s.mem s (l.foldl f s) := by
  induction l generalizing s with
  | nil => exact refl k s
  | cons x l ih =>
    have hrest := ih (f s x)
    exact (hf s x).trans hrest

theorem serves (h : State.Lands k m s t) : State.Serves m s t :=
  ⟨h.mem_eq, by rw [h.frame], by rw [h.frame], .of_core (by rw [h.core]; rfl) h.others⟩

end State.Lands

theorem coreWrite_lands (s : State) (k space off : Nat) (bs : List Byte) (psn : Bool) :
    State.Lands k (writeMem s.mem (coreAddr k space off) bs) s (s.coreWrite k space off bs psn) := by
  have hbytes : State.Lands k (writeMem s.mem (coreAddr k space off) bs) s
      { s with mem := writeMem s.mem (coreAddr k space off) bs } := ⟨rfl, fun _ _ => rfl, rfl⟩
  have hpoison (t : State) (u : Nat) : State.Lands k t.mem t (poisonWrite k space off bs.length psn t u) :=
    .ite (.setPoison ..) (.ite (.setPoison ..) (.refl k t))
  have hbeats (t : State) : State.Lands k t.mem t
      (if space = 0 then t.addFld (aCoreK k 0x290) 0 64 (unitsOf 0 off bs.length).length else t) := .ite (.setFld ..) (.refl k t)
  have hcount := (hbytes.trans (.foldl hpoison (unitsOf space off bs.length) _)).trans (hbeats _)
  unfold State.coreWrite
  dsimp only
  split
  · exact .ite (hcount.trans (.restore ..)) hcount
  · exact hcount

theorem coreWrite_serves (s : State) (k space off : Nat) (bs : List Byte) (psn : Bool) :
    State.Serves (writeMem s.mem (coreAddr k space off) bs) s (s.coreWrite k space off bs psn) := (coreWrite_lands ..).serves

/-- R433: poison marks change no byte. -/
theorem writeMarked_serves (s : State) (k space off : Nat) (bs : List Byte) (marks : Nat) :
    State.Serves (writeMem s.mem (coreAddr k space off) bs) s (s.writeMarked k space off bs marks) :=
  ((coreWrite_lands s k space off bs false).trans
    (.foldl (fun t _ => .foldl (fun t v => .setPoison t k k space v true) _ t) _ _)).serves

/-! ## What is answered (R258) -/

/-- An answer joins the packets in flight where its requester is in this package. -/
theorem answer_net (s : State) (p : Packet) (ty code flags : Nat) (data : List Byte) (psn : Nat)
    (hsrc : a20Pkg (kSRC p) = s.position) (hty : ty < 16) (hcode : code < 256) :
    ∃ r, (s.answer p ty code flags data psn).net = s.net ++ [r] ∧ AnswerOf p ty code data r ∧ kSEGNO r = kSEGNO p := by
  obtain ⟨haddr, hpkg⟩ := addrAt_pkg (kSRC p) 3 0 (by norm_num)
  obtain ⟨st, hst⟩ : ∃ st, st = statusWord code (if p.replayed then withFlag flags fREPLAYED else flags) := ⟨_, rfl⟩
  obtain ⟨r, hr⟩ : ∃ r, r = s.withAge ⟨putW (mkHdr ty none (addrAt (kSRC p) 3 0) 0 (nameAt (kDADDR p)) (kTXID p) (kSEGNO p)
    data.length st.toNat) 176 16 psn, data, false⟩ := ⟨_, rfl⟩
  have hto : kDADDR r = addrAt (kSRC p) 3 0 := by
    rw [hr]
    simp only [State.withAge, kDADDR, mkHdr, mkW, List.append_nil, List.foldl, getW_putW, getW_putW_ne, Nat.reduceAdd, Nat.reduceLeDiff,
      true_or, Nat.mod_eq_of_lt haddr]
  have hhere : kPKG r = s.position := by
    have := a20Pkg_lt (kSRC p)
    rw [kPKG, hto, bits_eq, hpkg, hsrc, Nat.mod_eq_of_lt (by omega)]
  have hnet : (s.answer p ty code flags data psn).net = s.net ++ [r] := by
    have hanswer : s.answer p ty code flags data psn = s.inject r := by rw [hr, hst]; rfl
    rw [hanswer, State.inject, if_pos (by simp [hhere])]
  refine ⟨r, hnet, ⟨?_, ?_, ?_, by rw [hr]; rfl⟩, ?_⟩
  all_goals
    rw [hr]
    simp only [State.withAge, kTYPE, kTXID, kARG, kSEGNO, mkHdr, mkW, List.append_nil, List.foldl, getW_putW, getW_putW_ne, Nat.reduceAdd,
      Nat.reduceLeDiff, or_true, true_or]
  · exact Nat.mod_eq_of_lt hty
  · rw [Nat.mod_eq_of_lt (by exact BitVec.isLt _), BitVec.ofNat_toNat, BitVec.setWidth_eq]
  · rw [hst, Nat.mod_eq_of_lt (statusWord_lt ..), BitVec.ofNat_toNat, BitVec.setWidth_eq, codeOf_statusWord, Nat.mod_eq_of_lt hcode]
  · exact Nat.mod_eq_of_lt (getW_lt ..)

/-- The packet is answered, and no byte has changed. -/
structure State.Replies (s t : State) (p : Packet) (ty code : Nat) (data : List Byte) : Prop where
  serves : State.Serves s.mem s t
  has : a20Pkg (kSRC p) = s.position → ∃ r ∈ t.net, AnswerOf p ty code data r ∧ kSEGNO r = kSEGNO p

theorem answer_replies (h : State.Serves s.mem s t) (p : Packet) {ty code : Nat} (flags : Nat) (data : List Byte) (psn : Nat)
    (hty : ty < 16) (hcode : code < 256) : s.Replies (t.answer p ty code flags data psn) p ty code data where
  serves := h.trans (.sent (answer_frame ..))
  has := fun hsrc => by
    obtain ⟨r, hnet, hr, hseg⟩ := answer_net t p ty code flags data psn (hsrc.trans h.position.symm) hty hcode
    exact ⟨r, by rw [hnet]; exact List.mem_append_right _ (List.mem_singleton_self r), hr, hseg⟩

theorem State.Replies.raise {ty code : Nat} {data : List Byte} {r : ErrRec} (h : s.Replies t p ty code data) (hr : r.cls ≠ 3) :
    s.Replies (t.raise r) p ty code data where
  serves := h.serves.trans (.raise hr t)
  has := fun hsrc => by rw [raise_frame_lt t r hr]; exact h.has hsrc

theorem ackWith_replies (h : State.Serves s.mem s t) (p : Packet) {code : Nat} (hcode : code < 256) :
    s.Replies (t.ackWith p code) p 4 code [] := answer_replies h p 0 [] 0 (by decide) hcode

/-- R257: a refused packet is answered in its kind. -/
theorem refusePacket_replies (h : State.Serves s.mem s t) (p : Packet) {code : Nat} (hcode : code < 256) :
    s.Replies (t.refusePacket p code) p (if isRead p then 3 else 4) code [] :=
  answer_replies (h.trans (creditOf_serves t p)) p 0 [] 0 (by unfold tyRDRSP tyACK; split <;> norm_num) hcode

theorem discard_replies (s : State) (p : Packet) : s.Replies (s.discard p) p (if isRead p then 3 else 4) 4 [] := by
  unfold State.discard
  exact State.Replies.raise (refusePacket_replies (code := cFORMAT) (landed_serves s p) p (by decide)) (by simp)

theorem isRead_of_lt (h : kTYPE p < 2) : isRead p = false := by
  have hread : kTYPE p ≠ tyRDREQ := by unfold tyRDREQ; omega
  have hctrl : kTYPE p ≠ tyCTRL := by unfold tyCTRL; omega
  simp [isRead, hread, hctrl]

/-! ## A packet at its endpoint (R248, R257) -/

section
variable {ty : Nat} {f : Nat → State → State} (harr : s.arrives p = true) (hty : kTYPE p = ty)
include harr hty

theorem receive_at (hok : packetOk p = true) (hcore : isCoreAt (kDADDR p) = true) : s.receive p ty f = f (keyAt (kDADDR p)) s := by
  simp [State.receive, State.reaches, harr, hty, hok, hcore]

theorem receive_malformed (hok : packetOk p = false) : s.receive p ty f = s.discard p := by
  simp [State.receive, State.reaches, harr, hty, hok]

theorem receive_nowhere (hok : packetOk p = true) (hcore : isCoreAt (kDADDR p) = false) :
    s.receive p ty f = (s.landed p).refusePacket p cEXTENT := by
  simp [State.receive, State.reaches, harr, hty, hok, hcore]

end

/-! ## The verdict of a transfer (R74) -/

/-- The verdicts kept at core `k` apart, all of the state. -/
structure State.VerdictsOnly (k : Nat) (s t : State) : Prop where
  frame : t = { s with cores := t.cores }
  others : ∀ j, j ≠ k → t.core j = s.core j
  core : t.core k = { s.core k with rx := (t.core k).rx }

theorem State.VerdictsOnly.refl (k : Nat) (s : State) : State.VerdictsOnly k s s := ⟨rfl, fun _ _ => rfl, rfl⟩

theorem setRx_verdictsOnly (s : State) (k : Nat) (r : RxXfer) : State.VerdictsOnly k s (s.modCore k fun c => c.setRx r) :=
  ⟨rfl, fun _ hj => State.core_modCore_ne s _ hj, by rw [State.core_modCore]; rfl⟩

theorem State.VerdictsOnly.serves (h : State.VerdictsOnly k s t) : State.Serves s.mem s t :=
  ⟨by rw [h.frame], by rw [h.frame], by rw [h.frame], .of_core (by rw [h.core]; rfl) h.others⟩

theorem State.VerdictsOnly.handle (h : State.VerdictsOnly k s t) (n : Nat) : (t.core k).handle n = (s.core k).handle n := by
  rw [h.core]; rfl

/-- The transfer of the packet passed at its first segment. -/
def State.Passed (s : State) (k : Nat) (p : Packet) : Prop :=
  (kSEGNO p = 0 ∧ rxCheck p ((s.core k).handle (kDH p)) (kARG p) = 0) ∨
    (kSEGNO p ≠ 0 ∧ ∃ r, (s.core k).rxOf (kSRC p) (kTXID p) = some r ∧ r.stale = false ∧ r.code = 0)

theorem rxVerdict_first (h : kSEGNO p = 0) : ∃ u, State.VerdictsOnly k s u ∧
    s.rxVerdict k p = (some (rxCheck p ((s.core k).handle (kDH p)) (kARG p)), u) :=
  ⟨_, setRx_verdictsOnly s k ⟨kSRC p, kTXID p, rxCheck p ((s.core k).handle (kDH p)) (kARG p), false⟩, if_pos h⟩

theorem rxVerdict_passed (h : s.Passed k p) : ∃ u, State.VerdictsOnly k s u ∧ s.rxVerdict k p = (some 0, u) := by
  obtain ⟨hfirst, hcheck⟩ | ⟨hlater, r, hr, hstale, hcode⟩ := h
  · have := rxVerdict_first (s := s) (k := k) hfirst
    rwa [hcheck] at this
  · refine ⟨s, .refl k s, ?_⟩
    simp [State.rxVerdict, hlater, hr, hstale, hcode]

theorem firstFail_mem (l : List (Bool × Nat)) : firstFail l ∈ cDONE :: l.map Prod.snd := by
  induction l with
  | nil => exact List.mem_singleton_self _
  | cons e l ih =>
    rw [firstFail]
    split
    · simp
    · exact List.cons_subset_cons _ (List.subset_cons_self ..) ih

/-- R74: the receiver's checks fail with HANDLE_FAULT, FORMAT_FAULT or EXTENT_FAULT. -/
theorem rxCheck_mem (p : Packet) (h : Wide) (hi : Nat) : rxCheck p h hi ∈ [cDONE, cHANDLE, cFORMAT, cEXTENT] := by
  unfold rxCheck
  split
  · exact (show [cDONE, cHANDLE, cEXTENT] ⊆ _ by simp) (firstFail_mem _)
  · exact firstFail_mem _

theorem rxCheck_code (p : Packet) (h : Wide) (hi : Nat) : rxCheck p h hi < 256 ∧ rxCheck p h hi ≠ cABSORBED :=
  (show ∀ c ∈ [cDONE, cHANDLE, cFORMAT, cEXTENT], c < 256 ∧ c ≠ cABSORBED by decide) _ (rxCheck_mem p h hi)

end Sys2Proof.Machine
end

