-- ==== Sys2Proof/Proofs/Segments.lean ====
section
/-! PROOFS. Segments written, accumulated, refused or absorbed (R66, R74, R87, R248, R257, R258, R272, R274). -/

namespace Sys2Proof.Machine

variable {s t u : State} {p : Packet} {k : Nat} {m : List Host.Cell}

/-! ## A segment under its verdict (R74) -/

/-- A segment that passes is written in the handle's current side. -/
theorem segment_serves {wr : Wide → State → State} (hpass : s.Passed k p) (hin : inSide p ((s.core k).handle (kDH p)) = true)
    (hwr : ∀ u, u.mem = s.mem → State.Serves m u (wr ((s.core k).handle (kDH p)) u)) : State.Serves m s (s.segment p k wr) := by
  obtain ⟨v, hv, hverdict⟩ := rxVerdict_passed hpass
  have hbegin : State.Serves s.mem s ((v.landed p).touch k) := (hv.serves.trans (landed_serves v p)).trans (touch_serves _ k)
  have hsegment : s.segment p k wr =
      ((wr ((s.core k).handle (kDH p)) ((v.landed p).touch k)).creditWritten p k).ackWith p cDONE := by
    unfold State.segment
    rw [hverdict]
    simp [hv.handle, hin, cDONE, cABSORBED]
  rw [hsegment]
  exact (((hwr _ hbegin.mem).after hbegin).trans (creditWritten_serves ..)).trans (.sent (answer_frame ..))

/-- The first segment of a transfer that fails a check is answered with its code. -/
theorem segment_refused (wr : Wide → State → State) (hfirst : kSEGNO p = 0)
    (hcode : rxCheck p ((s.core k).handle (kDH p)) (kARG p) ≠ 0) :
    s.Replies (s.segment p k wr) p (if isRead p then 3 else 4) (rxCheck p ((s.core k).handle (kDH p)) (kARG p)) [] := by
  obtain ⟨v, hv, hverdict⟩ := rxVerdict_first (s := s) (k := k) hfirst
  obtain ⟨hlt, habsorbed⟩ := rxCheck_code p ((s.core k).handle (kDH p)) (kARG p)
  generalize rxCheck p ((s.core k).handle (kDH p)) (kARG p) = code at hcode hverdict hlt habsorbed ⊢
  have hsegment : s.segment p k wr = ((v.landed p).touch k).refusePacket p code := by
    unfold State.segment
    rw [hverdict]
    simp [hcode, cDONE, habsorbed]
  rw [hsegment]
  exact refusePacket_replies ((hv.serves.trans (landed_serves v p)).trans (touch_serves _ k)) p hlt

/-- R74, R433: a `WRITE` that passes. -/
theorem writeArrives_serves (hraw : kRAW p = false) (hpass : s.Passed k p) (hin : inSide p ((s.core k).handle (kDH p)) = true) :
    let h := (s.core k).handle (kDH p)
    State.Serves (writeMem s.mem (coreAddr k (hSPACE h) (hBASE h + kOFF p)) p.payload) s (s.writeArrives p k) := by
  intro h
  unfold State.writeArrives
  rw [if_neg (by rw [hraw]; exact Bool.false_ne_true)]
  refine segment_serves hpass hin fun u hu => ?_
  rw [← hu]
  exact writeMarked_serves ..

/-- R87: a raw `WRITE` within its space. -/
theorem rawWrite_serves (hraw : kRAW p = true) (hok : s.rawOk p = true) :
    State.Serves (writeMem s.mem (coreAddr k (kSPACE p) (kOFF p)) p.payload) s (s.writeArrives p k) := by
  have hbegin : State.Serves s.mem s ((s.landed p).touch k) := (landed_serves s p).trans (touch_serves _ k)
  have hok' : ((s.landed p).touch k).rawOk p = true := hok
  unfold State.writeArrives
  rw [if_pos hraw, if_pos hok']
  exact ((writeMarked_serves ((s.landed p).touch k) k (kSPACE p) (kOFF p) p.payload (kPOISON p)).after hbegin).trans
    (.sent (answer_frame ..))

/-- R248: one outside it. -/
theorem rawWrite_refused (hraw : kRAW p = true) (hok : s.rawOk p = false) : s.Replies (s.writeArrives p k) p 4 cEXTENT [] := by
  have hok' : ((s.landed p).touch k).rawOk p = false := hok
  unfold State.writeArrives
  rw [if_pos hraw, if_neg (by rw [hok']; exact Bool.false_ne_true)]
  exact ackWith_replies ((landed_serves s p).trans (touch_serves _ k)) p (by decide)

/-! ## Entries added to (R46, R272) -/

/-- Byte memories after entry `i` of `inc` was added, with saturation, to the one at `A + 8i`. -/
def accMem (A : Nat) (inc : Nat → Word) (m : List Host.Cell) (i : Nat) : List Host.Cell :=
  writeMem m (A + 8 * i) (leBytes 8 (psAdd (BitVec.ofNat 64 (leNat (readMem m (A + 8 * i) 8))) (inc i)).1.toNat)

theorem length_leBytes (n x : Nat) : (leBytes n x).length = n := by
  induction n generalizing x with
  | zero => rfl
  | succ n ih => simp [leBytes, ih]

theorem readMem_congr {m m' : List Host.Cell} {a n : Nat} (h : ∀ x, a ≤ x → x < a + n → Tbl.get 0 m' x = Tbl.get 0 m x) :
    readMem m' a n = readMem m a n :=
  List.map_congr_left fun i hi => h (a + i) (by omega) (by have := List.mem_range.1 hi; omega)

theorem readMem_writeMem (m : List Host.Cell) (a : Nat) (bs : List Byte) : readMem (writeMem m a bs) a bs.length = bs :=
  List.ext_getElem (by simp [readMem]) fun i _ hi => by
    simpa [readMem] using get_writeMem_in m a i bs hi

theorem get_accMem_out {A i x : Nat} (inc : Nat → Word) (m : List Host.Cell) (h : x < A + 8 * i ∨ A + 8 * (i + 1) ≤ x) :
    Tbl.get 0 (accMem A inc m i) x = Tbl.get 0 m x :=
  get_writeMem_out _ _ _ _ (by rw [length_leBytes]; omega)

theorem leNat_accMem (A i : Nat) (inc : Nat → Word) (m : List Host.Cell) : leNat (readMem (accMem A inc m i) (A + 8 * i) 8) =
    (psAdd (BitVec.ofNat 64 (leNat (readMem m (A + 8 * i) 8))) (inc i)).1.toNat := by
  generalize hw : (psAdd (BitVec.ofNat 64 (leNat (readMem m (A + 8 * i) 8))) (inc i)).1 = w
  have hread := readMem_writeMem m (A + 8 * i) (leBytes 8 w.toNat)
  rw [length_leBytes] at hread
  rw [accMem, hw, hread, leNat_leBytes, Nat.mod_eq_of_lt (by simpa using w.isLt)]

/-- The first `n` entries are added to; nothing else is touched. -/
theorem accMem_foldl (A : Nat) (inc : Nat → Word) (m : List Host.Cell) (n : Nat) :
    let m' := (List.range n).foldl (accMem A inc) m
    (∀ i, i < n → leNat (readMem m' (A + 8 * i) 8) =
      (psAdd (BitVec.ofNat 64 (leNat (readMem m (A + 8 * i) 8))) (inc i)).1.toNat) ∧
    ∀ x, (x < A ∨ A + 8 * n ≤ x) → Tbl.get 0 m' x = Tbl.get 0 m x := by
  induction n with
  | zero => exact ⟨fun i hi => absurd hi (Nat.not_lt_zero i), fun _ _ => rfl⟩
  | succ n ih =>
    obtain ⟨hentries, hrest⟩ := ih
    dsimp only
    rw [List.range_succ, List.foldl_append, List.foldl_cons, List.foldl_nil]
    refine ⟨fun i hi => ?_, fun x hx => (get_accMem_out inc _ (by omega)).trans (hrest x (by omega))⟩
    obtain hlt | rfl := Nat.lt_succ_iff_lt_or_eq.1 hi
    · rw [← hentries i hlt, readMem_congr fun x _ hx => get_accMem_out inc _ (.inl (by omega))]
    · rw [leNat_accMem, readMem_congr fun x hx _ => hrest x (.inr hx)]

theorem coreAddr_add (k space off n : Nat) : coreAddr k space (off + n) = coreAddr k space off + n := by
  unfold coreAddr fabAddr; omega

theorem coreNat_add (s : State) (k space off i n : Nat) :
    s.coreNat k space (off + i) n = leNat (readMem s.mem (coreAddr k space off + i) n) := by
  rw [State.coreNat, State.coreRead, coreAddr_add]

theorem accEntry_serves (s : State) (k base i : Nat) (inc : Nat → Word) (psn : Bool) :
    State.Serves (accMem (coreAddr k 2 base) inc s.mem i) s (s.accEntry k (base + 8 * i) (inc i) psn) := by
  have hwrite := coreWrite_serves s k 2 (base + 8 * i)
    (leBytes 8 (psAdd (BitVec.ofNat 64 (s.coreNat k 2 (base + 8 * i) 8)) (inc i)).1.toNat) psn
  rw [coreNat_add, coreAddr_add] at hwrite
  unfold State.accEntry
  rw [coreNat_add]
  exact .ite (hwrite.trans (setFld_serves ..)) hwrite

/-- R74, R272: an `ACC` that passes. -/
theorem accArrives_serves (hpass : s.Passed k p) (hin : inSide p ((s.core k).handle (kDH p)) = true) :
    State.Serves ((List.range (p.payload.length / 8)).foldl
      (accMem (coreAddr k 2 (hBASE ((s.core k).handle (kDH p)) + kOFF p)) fun i => BitVec.ofNat 64 (leAt p.payload (8 * i) 8)) s.mem)
      s (s.accArrives p k) := by
  refine segment_serves hpass hin fun u hu => ?_
  rw [← hu]
  exact .foldl (fun t i => accEntry_serves t k _ i (fun i => BitVec.ofNat 64 (leAt p.payload (8 * i) 8)) _) _ u

/-- R257: an accepted `ACC` carries whole entries. -/
theorem payload_of_acc (hok : packetOk p = true) (hty : kTYPE p = 1) : 8 * (p.payload.length / 8) = p.payload.length := by
  simp only [packetOk, hty, tyACC, tyRDREQ, Bool.and_eq_true, decide_eq_true_eq] at hok
  obtain ⟨⟨-, hpay⟩, hacc⟩ := hok
  have hlen : p.payload.length = kLEN p := by simpa using hpay
  have hwhole : kLEN p % 8 = 0 := by simp at hacc; omega
  omega

/-! ## Absorption (R274) -/

theorem absorb_replies (h : kTYPE p ≠ 3) (h' : kTYPE p ≠ 4) : s.Replies (s.absorb p) p 4 cABSORBED [] := by
  unfold State.absorb
  dsimp only
  rw [if_neg (by unfold tyRDRSP tyACK; omega)]
  refine ackWith_replies (.trans (.trans (landed_serves s p) (.ite ?_ (.refl _))) (creditOf_serves ..)) p (by decide)
  exact .modCore fun _ => rfl

/-- An answer is answered by none. -/
theorem absorb_answer (h : kTYPE p = 3 ∨ kTYPE p = 4) :
    State.Serves s.mem s (s.absorb p) ∧ (s.absorb p).net = s.net.erase p := by
  have hsettle : State.Serves s.mem s ((s.landed p).settle p) := (landed_serves s p).trans (.modCore fun _ => rfl)
  unfold State.absorb
  dsimp only
  rw [if_pos (by exact h)]
  split
  · exact ⟨hsettle, rfl⟩
  · exact ⟨landed_serves s p, rfl⟩

theorem exec_hellboxAbsorb (hpow : s.powered = true) (habs : s.absorbs p = true) : exec (.hellboxAbsorb p) s = .next (s.absorb p) :=
  congrArg Host.Outcome.next (if_pos (by rw [hpow, habs]; rfl))

/-! ## The obligation -/

theorem exec_writeSegment (p : Packet) (s : State) :
    exec (.writeSegment p) s = .next (s.receive p tyWRITE fun k s => s.writeArrives p k) := rfl

theorem exec_accPacket (p : Packet) (s : State) : exec (.accPacket p) s = .next (s.receive p tyACC fun k s => s.accArrives p k) := rfl

section
variable (harr : s.arrives p = true) (hok : packetOk p = true) (hcore : isCoreAt (kDADDR p) = true)
include harr hok hcore

theorem exec_writeSegment_at (hty : kTYPE p = 0) : exec (.writeSegment p) s = .next (s.writeArrives p (keyAt (kDADDR p))) :=
  congrArg Host.Outcome.next (receive_at harr hty hok hcore)

theorem exec_accPacket_at (hty : kTYPE p = 1) : exec (.accPacket p) s = .next (s.accArrives p (keyAt (kDADDR p))) :=
  congrArg Host.Outcome.next (receive_at harr hty hok hcore)

end

/-- What an answered command leaves, as the obligations say it. -/
theorem State.Replies.answered {i : Instr} {ty code : Nat} {data : List Byte} (h : s.Replies t p ty code data)
    (hexec : exec i s = .next t) : ∃ t, exec i s = .next t ∧ t.mem = s.mem ∧ t.tiles = s.tiles ∧ (a20Pkg (kSRC p) = s.position →
      ∃ r ∈ t.net, kTYPE r = ty ∧ kTXID r = kTXID p ∧ kSEGNO r = kSEGNO p ∧ r.payload = data ∧
        codeOf (BitVec.ofNat 16 (kARG r)) = code) := by
  refine ⟨t, hexec, h.serves.mem, h.serves.tiles, fun hsrc => ?_⟩
  obtain ⟨r, hr, hanswer, hseg⟩ := h.has hsrc
  exact ⟨r, hr, hanswer.type_eq, hanswer.txid_eq, hseg, hanswer.payload_eq, hanswer.code_eq⟩

/-- An acknowledged one, whose answer has no payload to speak of. -/
theorem State.Replies.acked {i : Instr} {code : Nat} {data : List Byte} (h : s.Replies t p 4 code data) (hexec : exec i s = .next t) :
    ∃ t, exec i s = .next t ∧ t.mem = s.mem ∧ t.tiles = s.tiles ∧ (a20Pkg (kSRC p) = s.position →
      ∃ r ∈ t.net, kTYPE r = 4 ∧ kTXID r = kTXID p ∧ kSEGNO r = kSEGNO p ∧ codeOf (BitVec.ofNat 16 (kARG r)) = code) := by
  obtain ⟨u, hu, hmem, htiles, hhas⟩ := h.answered hexec
  refine ⟨u, hu, hmem, htiles, fun hsrc => ?_⟩
  obtain ⟨r, hr, htype, htxid, hseg, -, hcode⟩ := hhas hsrc
  exact ⟨r, hr, htype, htxid, hseg, hcode⟩

theorem State.Serves.regs_at (h : State.Serves m s t) (k : Nat) :
    (t.core k).sreg = (s.core k).sreg ∧ (t.core k).flags = (s.core k).flags ∧ t.tiles = s.tiles := by
  have hregs := h.regs.at_core k
  rw [Core.regs, Core.regs, Prod.mk.injEq] at hregs
  exact ⟨hregs.1, hregs.2, h.tiles⟩

/-- Settles O34: the verdict of the transfer decides between the bytes written and the code answered. -/
theorem segmentsArrive : Obligations.SegmentsArrive := by
  refine ⟨fun p s => ?_, fun p s => ?_⟩
  · intro k h base regs passed harr hcore hok
    refine ⟨fun hty hraw hspace => ?_, fun hraw hpassed hin => ⟨fun hty => ?_, fun hty => ?_⟩⟩
    · have hserves := rawWrite_serves (k := k) hraw hspace
      exact ⟨_, exec_writeSegment_at harr hok hcore hty, hserves.regs_at k,
        bytesBecome_of_mem hserves.mem⟩
    · have hserves := writeArrives_serves hraw hpassed hin
      exact ⟨_, exec_writeSegment_at harr hok hcore hty, hserves.regs_at k,
        bytesBecome_of_mem hserves.mem⟩
    · have hserves := accArrives_serves hpassed hin
      obtain ⟨hentries, hrest⟩ := accMem_foldl (coreAddr k 2 base) (fun i => BitVec.ofNat 64 (leAt p.payload (8 * i) 8)) s.mem
        (p.payload.length / 8)
      rw [payload_of_acc hok hty] at hrest
      refine ⟨_, exec_accPacket_at harr hok hcore hty, hserves.regs_at k, fun i hi => ?_, fun a ha => ?_⟩
      · rw [coreNat_add, coreNat_add, hserves.mem]
        exact hentries i hi
      · rw [State.byte, hserves.mem]
        exact hrest a ha
  · intro k h answered both
    have hack {ty code : Nat} {i : Instr} {f : Nat → State → State} (hty : kTYPE p = ty) (hlt : ty < 2)
        (hexec : exec i s = .next (s.receive p ty f))
        (hreplies : s.Replies (s.receive p ty f) p (if isRead p then 3 else 4) code []) : answered i code := by
      rw [isRead_of_lt (by omega)] at hreplies
      exact hreplies.acked hexec
    have hboth {code : Nat} (hreplies : ∀ ty f, kTYPE p = ty →
        s.Replies (s.receive p ty f) p (if isRead p then 3 else 4) code []) : both code :=
      ⟨fun hty => hack hty (by norm_num) (exec_writeSegment p s) (hreplies _ _ hty),
        fun hty => hack hty (by norm_num) (exec_accPacket p s) (hreplies _ _ hty)⟩
    refine ⟨fun harr hok => hboth fun ty f hty => ?_, fun harr hok hcore => hboth fun ty f hty => ?_,
      fun harr hok hcore => ⟨fun hty hraw hspace => ?_, fun hraw hfirst hcode => ⟨fun hty => ?_, fun hty => ?_⟩⟩,
      fun hpow habs h3 h4 => ?_, fun hpow habs hty => ?_⟩
    · rw [receive_malformed harr hty hok]
      exact discard_replies s p
    · rw [receive_nowhere harr hty hok hcore]
      exact refusePacket_replies (landed_serves s p) p (by decide)
    · exact (rawWrite_refused hraw hspace).acked (exec_writeSegment_at harr hok hcore hty)
    · refine hack hty (by norm_num) (exec_writeSegment p s) ?_
      rw [receive_at harr hty hok hcore, State.writeArrives, if_neg (by rw [hraw]; exact Bool.false_ne_true)]
      exact segment_refused _ hfirst hcode
    · refine hack hty (by norm_num) (exec_accPacket p s) ?_
      rw [receive_at harr hty hok hcore]
      exact segment_refused _ hfirst hcode
    · exact (absorb_replies h3 h4).acked (exec_hellboxAbsorb hpow habs)
    · obtain ⟨hserves, hnet⟩ := absorb_answer (s := s) hty
      exact ⟨_, exec_hellboxAbsorb hpow habs, hserves.mem, hserves.tiles, hnet⟩

end Sys2Proof.Machine
end

