-- ==== Sys2Proof/Proofs/Reads.lean ====
section
/-! PROOFS. Read requests: refused, answered, or waiting for the rows under restore (R74, R258, R436, R437, R439). -/

namespace Sys2Proof.Machine

variable {s t u v : State} {p : Packet} {k : Nat} {bad : List Nat}

/-! ## What a kept verdict does not change -/

theorem rowHit_verdicts (hv : State.VerdictsOnly k s v) : v.rowHit k = s.rowHit k := by
  funext row pend t
  unfold State.rowHit
  rw [hv.handle]

theorem toRestore_verdicts (hv : State.VerdictsOnly k s v) (off n : Nat) (bad : List Nat) :
    v.toRestore k off n bad = s.toRestore k off n bad := by
  have hsource : v.rowSource k = s.rowSource k := by
    funext row
    unfold State.rowSource
    rw [rowHit_verdicts hv, hv.frame]
    rfl
  unfold State.toRestore State.restorable
  rw [hsource, hv.frame]
  rfl

theorem underRestore_verdicts (hv : State.VerdictsOnly k s v) (off n : Nat) :
    (v.core k).underRestore off n = (s.core k).underRestore off n := by rw [hv.core]; rfl

theorem damage_verdicts (hv : State.VerdictsOnly k s v) (space off n : Nat) (bad : List Nat) :
    v.damage k space off n bad = s.damage k space off n bad := by rw [hv.frame]; rfl

/-! ## Bytes read for a request (R436, R437, R439) -/

/-- The read touches a row under restore. -/
def State.ReadBusy (s : State) (k space off n : Nat) : Prop := space = 0 ∧ (s.core k).underRestore off n = true

/-- The weight rows of the read that are to be restored first. -/
def State.readRows (s : State) (k space off n : Nat) (bad : List Nat) : List Nat :=
  if space = 0 then s.toRestore k off n bad else []

section
variable {space off n : Nat}

theorem readOut_busy (h : s.ReadBusy k space off n) : s.readOut p k space off n bad = s := if_pos h

theorem readOut_restore (hbusy : ¬ s.ReadBusy k space off n) (hrows : s.readRows k space off n bad ≠ []) :
    s.readOut p k space off n bad = { s.startRestore k 16 (s.readRows k space off n bad) with
      net := ((s.startRestore k 16 (s.readRows k space off n bad)).net.erase p) ++ [{ p with replayed := true }] } :=
  (if_neg hbusy).trans (if_pos hrows)

/-- R439: damaged bytes are carried all the same. -/
theorem readOut_replies (hs : State.Serves s.mem s v) (hbusy : ¬ v.ReadBusy k space off n) (hrows : v.readRows k space off n bad = []) :
    s.Replies (v.readOut p k space off n bad) p 3 (if v.damage k space off n bad = none then 0 else 7) (v.coreRead k space off n) := by
  have hbegin : State.Serves s.mem s ((v.landed p).touch k) := (hs.trans (landed_serves v p)).trans (touch_serves _ k)
  have hsame : ((v.landed p).touch k).damage k space off n bad = v.damage k space off n bad := rfl
  rw [State.readOut, if_neg (by exact hbusy), if_neg (by exact not_not.2 hrows)]
  dsimp only
  rw [hsame]
  cases v.damage k space off n bad with
  | none => exact answer_replies hbegin p 0 _ _ (by decide) (by decide)
  | some d =>
    have hraised := hbegin.trans (.raise (r := v.dmgRec k 31 0 0 0xFFFF 0xFFFF d) (by simp [State.dmgRec, State.coreRec]) _)
    exact answer_replies hraised p 0 _ _ (by decide) (show cPARITY < 256 by decide)

end

/-! ## The request (R74, R248) -/

/-- R248: a raw read outside its space. -/
theorem rawRead_refused (hraw : kRAW p = true) (hspace : s.rawOk p = false) :
    s.Replies (s.rdreqArrives p bad k) p (if isRead p then 3 else 4) cEXTENT [] := by
  rw [State.rdreqArrives, if_pos hraw, if_neg (by rw [hspace]; exact Bool.false_ne_true)]
  exact refusePacket_replies (landed_serves s p) p (by decide)

/-- R74: a first read request that fails a check. -/
theorem read_refused (hraw : kRAW p = false) (hfirst : kSEGNO p = 0) (hcode : rxCheck p ((s.core k).handle (kDH p)) (kARG p) ≠ 0) :
    s.Replies (s.rdreqArrives p bad k) p (if isRead p then 3 else 4) (rxCheck p ((s.core k).handle (kDH p)) (kARG p)) [] := by
  obtain ⟨v, hv, hverdict⟩ := rxVerdict_first (s := s) (k := k) hfirst
  obtain ⟨hlt, habsorbed⟩ := rxCheck_code p ((s.core k).handle (kDH p)) (kARG p)
  generalize rxCheck p ((s.core k).handle (kDH p)) (kARG p) = code at hcode hverdict hlt habsorbed ⊢
  have harrives : s.rdreqArrives p bad k = ((v.landed p).touch k).refusePacket p code := by
    rw [State.rdreqArrives, if_neg (by rw [hraw]; exact Bool.false_ne_true), hverdict]
    simp [hcode, cDONE, habsorbed]
  rw [harrives]
  exact refusePacket_replies ((hv.serves.trans (landed_serves v p)).trans (touch_serves _ k)) p hlt

/-- Where the request reads: the space and the offset it names, or those of its handle's current side. -/
def State.readSpace (s : State) (p : Packet) (k : Nat) : Nat := if kRAW p then kSPACE p else hSPACE ((s.core k).handle (kDH p))
def State.readOff (s : State) (p : Packet) (k : Nat) : Nat :=
  if kRAW p then kOFF p else hBASE ((s.core k).handle (kDH p)) + kOFF p

/-- A request that may read. -/
theorem rdreqArrives_reads (h : if kRAW p then s.rawOk p = true else
      inSide p ((s.core k).handle (kDH p)) = true ∧ s.Passed k p) : ∃ v, State.VerdictsOnly k s v ∧
    s.rdreqArrives p bad k = v.readOut p k (s.readSpace p k) (s.readOff p k) (kLEN p) bad := by
  unfold State.rdreqArrives State.readSpace State.readOff
  by_cases hraw : kRAW p = true
  · rw [if_pos hraw] at h
    exact ⟨s, .refl k s, by simp [hraw, h]⟩
  · rw [if_neg hraw] at h
    obtain ⟨hin, hpass⟩ := h
    obtain ⟨v, hv, hverdict⟩ := rxVerdict_passed hpass
    exact ⟨v, hv, by simp [hraw, hverdict, hv.handle, hin, cDONE, cABSORBED]⟩

theorem exec_rdreq (harr : s.arrives p = true) (hok : packetOk p = true) (hcore : isCoreAt (kDADDR p) = true) (hty : kTYPE p = 2)
    (bad : List Nat) : exec (.rdreq p bad) s = .next (s.rdreqArrives p bad (keyAt (kDADDR p))) :=
  congrArg Host.Outcome.next (receive_at harr hty hok hcore)

theorem isRead_of_rdreq (hty : kTYPE p = 2) : isRead p = true := by simp [isRead, hty, tyRDREQ]

/-- A read that may waits, restores rows first, or is answered. -/
theorem rdreq_spec (h : if kRAW p then s.rawOk p = true else inSide p ((s.core k).handle (kDH p)) = true ∧ s.Passed k p) :
    let t := s.rdreqArrives p bad k
    let sp := s.readSpace p k
    let off := s.readOff p k
    let rows := s.readRows k sp off (kLEN p) bad
    (s.ReadBusy k sp off (kLEN p) → t.mem = s.mem ∧ t.net = s.net) ∧
    (¬ s.ReadBusy k sp off (kLEN p) → rows ≠ [] → s.RestoreBegins t k rows ∧
      ∃ r ∈ t.net, r.hdr = p.hdr ∧ r.payload = p.payload ∧ r.replayed = true) ∧
    (¬ s.ReadBusy k sp off (kLEN p) → rows = [] →
      s.Replies t p 3 (if s.damage k sp off (kLEN p) bad = none then 0 else 7) (s.coreRead k sp off (kLEN p))) := by
  obtain ⟨v, hv, hreads⟩ := rdreqArrives_reads (bad := bad) h
  intro t sp off rows
  have ht : t = v.readOut p k sp off (kLEN p) bad := hreads
  have hbusy : v.ReadBusy k sp off (kLEN p) ↔ s.ReadBusy k sp off (kLEN p) := by
    rw [State.ReadBusy, State.ReadBusy, underRestore_verdicts hv]
  have hrows : v.readRows k sp off (kLEN p) bad = rows := by
    change (if _ then _ else _) = if _ then _ else _
    rw [toRestore_verdicts hv]
  have hread : v.coreRead k sp off (kLEN p) = s.coreRead k sp off (kLEN p) := by rw [hv.frame]; rfl
  rw [ht]
  refine ⟨fun h => ?_, fun hnot hsome => ?_, fun hnot hnone => ?_⟩
  · rw [readOut_busy (hbusy.2 h), hv.frame]
    exact ⟨rfl, rfl⟩
  · rw [readOut_restore (hbusy.not.2 hnot) (by rw [hrows]; exact hsome), hrows]
    obtain ⟨hmem, htiles, hfifo, hxfers, hrestore⟩ := startRestore_begins v k 16 rows
    refine ⟨⟨hmem.trans hv.serves.mem, htiles.trans hv.serves.tiles, hfifo.trans (by rw [hv.core]), hxfers.trans (by rw [hv.core]),
      hrestore⟩, _, List.mem_append_right _ (List.mem_singleton_self _), rfl, rfl, rfl⟩
  · have hreplies := readOut_replies (p := p) hv.serves (hbusy.not.2 hnot) (hrows.trans hnone)
    rwa [damage_verdicts hv, hread] at hreplies

end Sys2Proof.Machine
end

