-- ==== Sys2Proof/Proofs/Answers.lean ====
section
/-! PROOFS. Answers counted: an ACK, a failing one, a read response, an answer for a circuit (R201, R258, R260, R263, R264, R439,
R518). -/

namespace Sys2Proof.Machine

variable {s t u v : State} {p : Packet} {k : Nat} {c : Core} {x : Xfer}

/-! ## Transfers that wait for answers alone -/

/-- Nothing of the transfer is left to send. -/
def Xfer.Quiet (x : Xfer) : Prop := x.unsent = [] ∧ x.needCredit = false ∧ x.flag = .none ∧ x.late = false

/-- So it is with every transfer of the core. -/
def Core.Quiet (c : Core) : Prop := ∀ x ∈ c.xfers, x.Quiet

theorem Core.Quiet.updXfer (h : c.Quiet) (n : BitVec 12) {f : Xfer → Xfer} (hf : ∀ x : Xfer, x.Quiet → (f x).Quiet) :
    (c.updXfer n f).Quiet := by
  intro y hy
  obtain ⟨x, hx, rfl⟩ := List.mem_map.1 hy
  split
  · exact hf x (h x hx)
  · exact h x hx

/-- Every core reads as it did, and the rest of the state is the same. -/
structure State.Idles (s t : State) : Prop where
  frame : t = { s with cores := t.cores }
  cores : ∀ j, t.core j = s.core j

theorem State.Idles.trans (h : s.Idles t) (h' : t.Idles u) : s.Idles u :=
  ⟨Eq.trans h'.frame (by rw [h.frame]), fun j => (h'.cores j).trans (h.cores j)⟩

theorem State.Idles.modCore {f : Core → Core} (hf : f (s.core k) = s.core k) : s.Idles (s.modCore k f) := by
  refine ⟨rfl, fun j => ?_⟩
  by_cases hj : j = k
  · rw [hj, State.core_modCore, hf]
  · rw [State.core_modCore_ne _ _ hj]

section
variable (h : (s.core k).Quiet)
include h

theorem requestAll_idles : s.Idles (s.requestAll k) := by
  have hasks : ∀ x ∈ (s.core k).xfers, x.asks = 0 := fun x hx => by
    obtain ⟨-, hcredit, -, -⟩ := h x hx
    simp [Xfer.asks, hcredit]
  have hnone : ((s.core k).xfers.flatMap fun x => List.replicate x.asks (CreditMsg.request x.dest x.dh (s.nameOf k) x.txid)) = [] :=
    List.flatMap_eq_nil_iff.2 fun x hx => by rw [hasks x hx]; rfl
  have hsame : (s.core k).xfers.map (fun x => { x with requested := x.requested + x.asks }) = (s.core k).xfers :=
    (List.map_congr_left fun x hx => by rw [hasks x hx]; rfl).trans (List.map_id _)
  have hmod : s.Idles (s.modCore k fun c => { c with
      xfers := (s.core k).xfers.map fun x => { x with requested := x.requested + x.asks } }) := .modCore (by rw [hsame])
  unfold State.requestAll
  dsimp only
  rw [hnone, List.append_nil]
  exact hmod

theorem unsent_sum : (s.core k).xfers.foldl (fun n x => n + x.unsent.length) 0 = 0 := by
  have hsum : ∀ l : List Xfer, (∀ x ∈ l, x.unsent = []) → l.foldl (fun n x => n + x.unsent.length) 0 = 0 := fun l => by
    induction l with
    | nil => exact fun _ => rfl
    | cons x l ih =>
      intro hl
      rw [List.foldl_cons, hl x List.mem_cons_self]
      exact ih fun y hy => hl y (List.mem_cons_of_mem _ hy)
  exact hsum _ fun x hx => (h x hx).1

theorem holdFlags_idles : s.Idles (s.holdFlags k) := by
  have hunflagged : ∀ x ∈ (s.core k).xfers, (x.flag = .unsent && (x.ended || x.unsent.isEmpty)) = false := fun x hx => by
    obtain ⟨-, -, hflag, -⟩ := h x hx
    simp [hflag]
  have hready : ((s.core k).xfers.filter fun x => x.flag = .unsent && (x.ended || x.unsent.isEmpty)) = [] :=
    List.filter_eq_nil_iff.2 fun x hx => by rw [hunflagged x hx]; exact Bool.false_ne_true
  have hsame : (s.core k).xfers.map (fun x => if x.flag = .unsent && (x.ended || x.unsent.isEmpty) then { x with flag := .held } else x) =
      (s.core k).xfers :=
    (List.map_congr_left fun x hx => by rw [hunflagged x hx]; rfl).trans (List.map_id _)
  refine .modCore ?_
  dsimp only
  rw [hready, hsame, List.filterMap_nil, List.append_nil]

/-- Nothing moves on its way out. -/
theorem pump_idles : s.Idles (s.pump k) := by
  have hasked := requestAll_idles h
  unfold State.pump
  dsimp only
  rw [unsent_sum h]
  exact hasked.trans (holdFlags_idles (by rw [State.Idles.cores hasked]; exact h))

theorem sweep_idles : s.Idles (s.modCore k Core.sweep) := by
  refine .modCore ?_
  have hall : (s.core k).xfers.filter (fun x => !x.over?) = (s.core k).xfers := List.filter_eq_self.2 fun x hx => by
    obtain ⟨-, -, -, hlate⟩ := h x hx
    simp [Xfer.over?, hlate]
  rw [Core.sweep, hall]

theorem pump_sweep_idles : s.Idles ((s.pump k).modCore k Core.sweep) :=
  (pump_idles h).trans (sweep_idles (by rw [(pump_idles h).cores]; exact h))

end

/-! ## An answer counted (R258, R260) -/

/-- The core with one packet fewer awaiting its answer from the endpoint that answers. -/
def Core.heard (c : Core) (p : Packet) : Core :=
  { c with census := 0, awaiting := Tbl.set 0 c.awaiting (kSRC p).toNat (Tbl.get 0 c.awaiting (kSRC p).toNat - 1) }

/-- A transfer with one packet fewer awaiting its answer. -/
def Xfer.counted (x : Xfer) (p : Packet) : Xfer :=
  { x with unanswered := x.unanswered - 1
           verdict := x.verdict || kSEGNO p = 0
           replayed := x.replayed || (BitVec.ofNat 16 (kARG p)).getLsbD 9 }

/-- The state in which an answer finds its transfer. -/
def State.heard (s : State) (p : Packet) (k : Nat) : State :=
  ((s.landed p).touch k).modCore k fun c =>
    { c with awaiting := Tbl.set 0 c.awaiting (kSRC p).toNat (Tbl.get 0 c.awaiting (kSRC p).toNat - 1) }

/-- It, once the answer is counted in that transfer. -/
def State.counted (s : State) (p : Packet) (k : Nat) : State :=
  (s.heard p k).modCore k fun c => c.updXfer (kTXID p) fun z => z.counted p

/-- A transfer whose segment `kSEGNO p` has found its place. -/
def Xfer.landed (x : Xfer) (p : Packet) : Xfer := { x with landing := x.landing.eraseP fun e => e.1 = kSEGNO p }

/-- The state in which that segment's bytes are written. -/
def State.landing (s : State) (p : Packet) (k : Nat) : State :=
  (s.counted p k).modCore k fun c => c.updXfer (kTXID p) fun z => z.landed p

theorem core_heard (s : State) (p : Packet) (k : Nat) : (s.heard p k).core k = (s.core k).heard p := by
  rw [State.heard, State.core_modCore, State.touch, State.core_modCore]; rfl

theorem core_heard_ne (s : State) (p : Packet) {j : Nat} (hj : j ≠ k) : (s.heard p k).core j = s.core j := by
  rw [State.heard, State.core_modCore_ne _ _ hj, State.touch, State.core_modCore_ne _ _ hj]; rfl

theorem core_counted (s : State) (p : Packet) (k : Nat) :
    (s.counted p k).core k = ((s.core k).heard p).updXfer (kTXID p) fun z => z.counted p := by
  rw [State.counted, State.core_modCore, core_heard]

theorem core_counted_ne (s : State) (p : Packet) {j : Nat} (hj : j ≠ k) : (s.counted p k).core j = s.core j := by
  rw [State.counted, State.core_modCore_ne _ _ hj, core_heard_ne _ _ hj]

/-- Beside the cores, the answer has left flight. -/
theorem heard_frame (s : State) (p : Packet) (k : Nat) : s.heard p k = { s with cores := (s.heard p k).cores, net := s.net.erase p } := by
  have hmod (t : State) (f : Core → Core) : t.modCore k f = { t with cores := (t.modCore k f).cores } := rfl
  have htouch : (s.landed p).touch k = { s.landed p with cores := ((s.landed p).touch k).cores } := hmod ..
  exact Eq.trans (hmod ..) (by rw [htouch]; rfl)

theorem counted_frame (s : State) (p : Packet) (k : Nat) :
    s.counted p k = { s with cores := (s.counted p k).cores, net := s.net.erase p } := by
  have hmod : s.counted p k = { s.heard p k with cores := (s.counted p k).cores } := rfl
  exact Eq.trans hmod (by rw [heard_frame])

theorem getLsbD_bits (w : BitVec 16) (i : Nat) : decide (bits w.toNat i 1 = 1) = w.getLsbD i := by
  rw [bits_eq, ← BitVec.testBit_toNat, Nat.testBit_eq_decide_div_mod_eq, pow_one]

theorem quiet_counted (h : x.Quiet) (p : Packet) : (x.counted p).Quiet := h

theorem xfer_mem {n : BitVec 12} (h : c.xfer n = some x) : x ∈ c.xfers ∧ x.txid = n :=
  ⟨List.mem_of_find?_eq_some h, by simpa using List.find?_some h⟩

/-- The effect of an answer on the core, with `f` for what it does to its transfer beside counting. -/
structure State.Counts (s t : State) (p : Packet) (k : Nat) (f : Xfer → Xfer) : Prop where
  others : ∀ j, j ≠ k → t.core j = s.core j
  core : t.core k = { ((s.core k).heard p).updXfer (kTXID p) (fun z => f (z.counted p)) with restore := (t.core k).restore }

theorem State.Counts.idles {f : Xfer → Xfer} (h : s.Counts t p k f) (h' : t.Idles u) : s.Counts u p k f :=
  ⟨fun j hj => (h'.cores j).trans (h.others j hj), by rw [h'.cores]; exact h.core⟩

theorem State.Counts.quiet {f : Xfer → Xfer} (h : s.Counts t p k f) (hs : (s.core k).Quiet) (hf : ∀ z : Xfer, z.Quiet → (f z).Quiet) :
    (t.core k).Quiet := by
  have hquiet : (((s.core k).heard p).updXfer (kTXID p) fun z => f (z.counted p)).Quiet :=
    Core.Quiet.updXfer (c := (s.core k).heard p) hs _ fun z hz => hf _ (quiet_counted hz p)
  rw [h.core]
  exact hquiet

theorem State.Counts.congr {f g : Xfer → Xfer} (h : s.Counts t p k f)
    (hfg : ∀ z ∈ (s.core k).xfers, f (z.counted p) = g (z.counted p)) : s.Counts t p k g := by
  have hupd : ((s.core k).heard p).updXfer (kTXID p) (fun z => f (z.counted p)) =
      ((s.core k).heard p).updXfer (kTXID p) fun z => g (z.counted p) :=
    congrArg (fun l => { (s.core k).heard p with xfers := l }) (List.map_congr_left fun z hz => by
      dsimp only
      rw [hfg z hz])
  exact ⟨h.others, Eq.trans h.core (by rw [hupd])⟩

/-- An answer that no transfer waits for. -/
theorem heard_counts (h : (s.core k).xfer (kTXID p) = none) : s.Counts (s.heard p k) p k id := by
  have hother : ∀ z ∈ (s.core k).xfers, ¬ z.txid = kTXID p := fun z hz => by simpa using List.find?_eq_none.1 h z hz
  have hsame : ((s.core k).heard p).updXfer (kTXID p) (fun z => id (z.counted p)) = (s.core k).heard p :=
    congrArg (fun l => { (s.core k).heard p with xfers := l })
      ((List.map_congr_left fun z hz => if_neg (hother z hz)).trans (List.map_id' _))
  exact ⟨fun _ hj => core_heard_ne s p hj, by rw [hsame, core_heard]⟩

theorem counted_counts (s : State) (p : Packet) (k : Nat) : s.Counts (s.counted p k) p k id :=
  ⟨fun _ hj => core_counted_ne s p hj, by rw [core_counted]; rfl⟩

theorem updXfer_updXfer (c : Core) (n : BitVec 12) {f g : Xfer → Xfer} (hg : ∀ z : Xfer, (g z).txid = z.txid) :
    (c.updXfer n g).updXfer n f = c.updXfer n fun z => f (g z) := by
  have hmap : (c.xfers.map fun z => if z.txid = n then g z else z).map (fun z => if z.txid = n then f z else z) =
      c.xfers.map fun z => if z.txid = n then f (g z) else z := by
    rw [List.map_map]
    refine List.map_congr_left fun z _ => ?_
    by_cases hz : z.txid = n
    · simp [hz, hg]
    · simp [hz]
  unfold Core.updXfer
  dsimp only
  rw [hmap]

/-- One more change of the transfer. -/
theorem State.Counts.updXfer {f g : Xfer → Xfer} (h : s.Counts t p k f) (hf : ∀ z : Xfer, (f z).txid = z.txid) :
    s.Counts (t.modCore k fun c => c.updXfer (kTXID p) g) p k (fun z => g (f z)) := by
  refine ⟨fun j hj => (State.core_modCore_ne _ _ hj).trans (h.others j hj), ?_⟩
  have hcore := congrArg (fun c : Core => c.updXfer (kTXID p) g) h.core
  have htwice := updXfer_updXfer ((s.core k).heard p) (kTXID p) (f := g) (g := fun z => f (z.counted p)) fun z => hf (z.counted p)
  rw [State.core_modCore]
  refine hcore.trans ?_
  rw [← htwice]
  rfl

/-- Bytes of the core may have been written meanwhile. -/
theorem State.Counts.lands {f : Xfer → Xfer} {m : List Host.Cell} (h : s.Counts t p k f) (h' : State.Lands k m t u) : s.Counts u p k f :=
  ⟨fun j hj => (h'.others j hj).trans (h.others j hj), Eq.trans h'.core (by rw [h.core])⟩

/-! ## An answer at its core -/

theorem exec_ack (harr : s.arrives p = true) (hok : packetOk p = true) (hcore : isCoreAt (kDADDR p) = true) (hty : kTYPE p = 4) :
    exec (.ack p) s = .next (s.coreAnswer p (keyAt (kDADDR p))) := by
  refine congrArg Host.Outcome.next ?_
  simp [State.answerArrives, harr, hok, hcore, hty, tyACK]

theorem exec_rdrsp (harr : s.arrives p = true) (hok : packetOk p = true) (hcore : isCoreAt (kDADDR p) = true) (hty : kTYPE p = 3) :
    exec (.rdrsp p) s = .next (s.coreAnswer p (keyAt (kDADDR p))) := by
  refine congrArg Host.Outcome.next ?_
  simp [State.answerArrives, harr, hok, hcore, hty, tyRDRSP]

theorem coreAnswer_none (h : (s.core k).xfer (kTXID p) = none) :
    s.coreAnswer p k = ((s.heard p k).pump k).modCore k Core.sweep := by
  have hxfer : ((s.heard p k).core k).xfer (kTXID p) = none := by rw [core_heard]; exact h
  unfold State.heard at hxfer ⊢
  unfold State.coreAnswer
  dsimp only
  rw [hxfer]

theorem coreAnswer_some (h : (s.core k).xfer (kTXID p) = some x) : s.coreAnswer p k =
    (((s.heard p k).xferAnswered k x p (BitVec.ofNat 16 (kARG p))).pump k).modCore k Core.sweep := by
  have hxfer : ((s.heard p k).core k).xfer (kTXID p) = some x := by rw [core_heard]; exact h
  unfold State.heard at hxfer ⊢
  unfold State.coreAnswer
  dsimp only
  rw [hxfer]

/-- The effect of an answer, when what it does to its transfer is known. -/
theorem coreAnswer_counts {f : Xfer → Xfer} (hs : (s.core k).Quiet) (hu : s.Counts u p k f)
    (hf : ∀ z : Xfer, z.Quiet → (f z).Quiet) (ht : t = (u.pump k).modCore k Core.sweep) :
    t = { u with cores := t.cores } ∧ s.Counts t p k f := by
  have hidle : u.Idles t := by rw [ht]; exact pump_sweep_idles (hu.quiet hs hf)
  exact ⟨hidle.frame, hu.idles hidle⟩

/-! ## What an answer does to its transfer (R201, R263, R264, R439, R518) -/

section
variable (hx : (s.core k).xfer (kTXID p) = some x) (hflag : x.flag = .none)
include hx hflag

omit hflag in
theorem heard_counted : (s.heard p k).modCore k (fun c => c.updXfer x.txid fun y => { y with
    unanswered := y.unanswered - 1
    verdict := y.verdict || kSEGNO p = 0
    replayed := y.replayed || bits (BitVec.ofNat 16 (kARG p)).toNat fREPLAYED 1 = 1 }) = s.counted p k := by
  obtain ⟨-, htxid⟩ := xfer_mem hx
  simp only [htxid, getLsbD_bits]
  rfl

/-- An answer for data, without bytes to land. -/
theorem xferAnswered_data (hty : kTYPE p = 4) (hop : x.opcode ≠ 0x49) :
    (s.heard p k).xferAnswered k x p (BitVec.ofNat 16 (kARG p)) =
      if codeOf (BitVec.ofNat 16 (kARG p)) = cDONE then s.counted p k
      else (s.counted p k).failXfer k x (codeOf (BitVec.ofNat 16 (kARG p))) := by
  have hcounted := heard_counted hx
  unfold State.xferAnswered
  dsimp only
  rw [if_neg (by rw [hflag]; exact FlagStage.noConfusion), hcounted, if_neg (by rw [hty]; simp [tyRDRSP]), decide_eq_false hop]

/-- One for a circuit of its executing command. -/
theorem xferAnswered_circ (hty : kTYPE p = 4) (hop : x.opcode = 0x49) {d : Wide} (hd : (s.core k).commandOf x = some d) :
    (s.heard p k).xferAnswered k x p (BitVec.ofNat 16 (kARG p)) =
      (s.counted p k).circAnswered k x d (codeOf (BitVec.ofNat 16 (kARG p))) := by
  have hcounted := heard_counted hx
  have hcommand : ((s.counted p k).core k).commandOf x = some d := by rw [core_counted]; exact hd
  unfold State.xferAnswered
  dsimp only
  rw [if_neg (by rw [hflag]; exact FlagStage.noConfusion), hcounted, if_neg (by rw [hty]; simp [tyRDRSP]), decide_eq_true hop, hcommand]

omit hx hflag in
theorem landing_counts (s : State) (p : Packet) (k : Nat) :
    s.landing p k = { s with cores := (s.landing p k).cores, net := s.net.erase p } ∧
    s.Counts (s.landing p k) p k fun z => z.landed p := by
  have hmod : s.landing p k = { s.counted p k with cores := (s.landing p k).cores } := rfl
  exact ⟨Eq.trans hmod (by rw [counted_frame]), (counted_counts s p k).updXfer fun _ => rfl⟩

/-- A read response with bytes for one place. -/
theorem xferAnswered_rdrsp (hty : kTYPE p = 3) (hpay : p.payload ≠ []) {a : Nat}
    (hland : x.landingOf (kSEGNO p) = [(a, p.payload.length)]) :
    (s.heard p k).xferAnswered k x p (BitVec.ofNat 16 (kARG p)) =
      (((s.landing p k).coreWrite k (a / 2 ^ 26) (a % 2 ^ 26) p.payload false).markPiece k 0 a p.payload.length
        (kPOISON p)).gatherCode k x (codeOf (BitVec.ofNat 16 (kARG p))) := by
  have hcounted := heard_counted hx
  unfold State.xferAnswered
  dsimp only
  obtain ⟨-, htxid⟩ := xfer_mem hx
  rw [if_neg (by rw [hflag]; exact FlagStage.noConfusion), hcounted, if_pos ⟨hty, hpay⟩, hland, htxid]
  simp only [landMarked, List.take_length]
  rfl

end

/-! ## The five answers of the obligation -/

/-- A transfer with the code of a failing answer. -/
def Xfer.failed (x : Xfer) (code : Nat) : Xfer :=
  { x with ended := true, grants := [], unsent := [], codes := if code ∈ x.codes then x.codes else x.codes ++ [code] }

theorem quiet_failed (h : x.Quiet) (code : Nat) : (x.failed code).Quiet := by
  obtain ⟨-, hcredit, hflag, hlate⟩ := h
  exact ⟨rfl, hcredit, hflag, hlate⟩

/-- R518: a failing answer ends its transfer. -/
theorem failXfer_counts (hu : s.Counts u p k id) (htxid : x.txid = kTXID p) (hlate : x.late = false) (code : Nat) :
    u.failXfer k x code = { u with cores := (u.failXfer k x code).cores, creditNet := (u.failXfer k x code).creditNet } ∧
      s.Counts (u.failXfer k x code) p k fun z => z.failed code := by
  obtain ⟨v, hv⟩ : ∃ v, v = u.giveBack x.dest x.dh (u.nameOf k) x.txid x.grants := ⟨_, rfl⟩
  have hfail : u.failXfer k x code = v.modCore k fun c => c.updXfer (kTXID p) fun y => y.failed code := by
    rw [← htxid, hv]
    exact if_neg (by rw [hlate]; exact Bool.false_ne_true)
  have hcounts : s.Counts v p k id := by rw [hv]; exact ⟨hu.others, hu.core⟩
  rw [hfail]
  exact ⟨by rw [hv]; rfl, hcounts.updXfer fun _ => rfl⟩

/-- A code gathered from a read response, whatever it is. -/
def Xfer.gathered (x : Xfer) (code : Nat) : Xfer :=
  { x with codes := if code = 0 ∨ code ∈ x.codes then x.codes else x.codes ++ [code] }

theorem gatherCode_counts {f : Xfer → Xfer} (hu : s.Counts u p k f) (hf : ∀ z : Xfer, (f z).txid = z.txid) (htxid : x.txid = kTXID p)
    (code : Nat) : u.gatherCode k x code = { u with cores := (u.gatherCode k x code).cores } ∧
      s.Counts (u.gatherCode k x code) p k fun z => (f z).gathered code := by
  unfold State.gatherCode
  rw [htxid]
  by_cases hcode : code = cDONE
  · have hsame : (fun z : Xfer => (f z).gathered code) = f := funext fun z => by rw [Xfer.gathered, if_pos (.inl hcode)]
    rw [if_pos hcode, hsame]
    exact ⟨rfl, hu⟩
  · have hmore : (fun z : Xfer => (f z).gathered code) = fun z =>
        { f z with codes := if code ∈ (f z).codes then (f z).codes else (f z).codes ++ [code] } :=
      funext fun z => by rw [Xfer.gathered]; simp only [show code ≠ 0 from hcode, false_or]
    rw [if_neg hcode, hmore]
    exact ⟨rfl, hu.updXfer hf⟩

/-- R433: the marks of a payload's units are entered, and no byte changes. -/
theorem markPiece_lands (s : State) (k o a n marks : Nat) : State.Lands k s.mem s (s.markPiece k o a n marks) :=
  .foldl (fun t _ => .foldl (fun t v => .setPoison t k k (a / 2 ^ 26) v true) _ t) _ _

theorem circFree_congr (h : t.ctl = s.ctl) (k : Nat) : t.circFree k = s.circFree k := by
  unfold State.circFree State.fld State.rd
  rw [h]

theorem circEntry_congr (h : t.ctl = s.ctl) (k circ : Nat) : t.circEntry k circ = s.circEntry k circ := by
  unfold State.circEntry State.fld State.rd
  rw [h]

/-- R263: DONE for a probe enters the circuit. -/
theorem circAnswered_open {d : Wide} {n : Nat} (hcop : mCOP d = 0) (hfree : s.circFree k = some n) :
    ∃ u : State, u.mem = s.mem ∧ s.circAnswered k x d 0 = u.wr (aCirc k n) (circWord d) := by
  obtain ⟨u, hu⟩ : ∃ u : State, u = { s with probes := s.probes.filter fun y =>
    y ∉ (s.probes.filter fun y => y.src = s.nameOf k && y.txid = x.txid) } := ⟨_, rfl⟩
  have hfree' : u.circFree k = some n := (circFree_congr (by rw [hu]) k).trans hfree
  refine ⟨u, by rw [hu], ?_⟩
  unfold State.circAnswered
  dsimp only
  rw [if_pos hcop, ← hu, hfree']
  rfl

/-- R264: DONE for a release takes it out. -/
theorem circAnswered_close {d : Wide} {n : Nat} (hcop : mCOP d = 1) (hentry : s.circEntry k (mCIRC d) = some n) :
    ∃ u : State, u.mem = s.mem ∧ s.circAnswered k x d 0 = u.wr (aCirc k n) 0 := by
  obtain ⟨u, hu⟩ : ∃ u : State, u = { s with probes := s.probes.filter fun y =>
    y ∉ (s.probes.filter fun y => y.src = s.nameOf k && y.txid = x.txid) } := ⟨_, rfl⟩
  have hentry' : u.circEntry k (mCIRC d) = some n := (circEntry_congr (by rw [hu]) k _).trans hentry
  refine ⟨u.freeCirc (u.nameOf k) (BitVec.ofNat 12 (mCIRC d)), by rw [hu]; rfl, ?_⟩
  unfold State.circAnswered
  dsimp only
  rw [if_neg (by omega), ← hu, hentry']
  exact if_pos (.inl rfl)

/-- What moves on after an answer is neither a byte nor a register. -/
theorem pump_sweep_kept (s : State) (k : Nat) (a : Nat) :
    ((s.pump k).modCore k Core.sweep).mem = s.mem ∧ ((s.pump k).modCore k Core.sweep).rd a = s.rd a := by
  have hsends := (pump_sendsOn s k).frame
  rw [State.modCore_mem, State.rd, State.modCore_ctl, hsends]
  exact ⟨rfl, rfl⟩

theorem coreAnswer_unasked (hs : (s.core k).Quiet) (hx : (s.core k).xfer (kTXID p) = none) : ∃ t, s.coreAnswer p k = t ∧
    t = { s with cores := t.cores, net := s.net.erase p } ∧ s.Counts t p k id := by
  obtain ⟨hframe, hcounts⟩ := coreAnswer_counts hs (heard_counts hx) (fun _ hz => hz) (coreAnswer_none hx)
  exact ⟨_, rfl, Eq.trans hframe (by rw [heard_frame]), hcounts⟩

section
variable (hs : (s.core k).Quiet) (hx : (s.core k).xfer (kTXID p) = some x)
include hs hx

theorem coreAnswer_done (hty : kTYPE p = 4) (hop : x.opcode ≠ 0x49) (hcode : codeOf (BitVec.ofNat 16 (kARG p)) = 0) :
    ∃ t, s.coreAnswer p k = t ∧ t = { s with cores := t.cores, net := s.net.erase p } ∧ s.Counts t p k id := by
  obtain ⟨-, -, hflag, -⟩ := hs x (xfer_mem hx).1
  have hanswer := coreAnswer_some hx
  rw [xferAnswered_data hx hflag hty hop, if_pos (by exact hcode)] at hanswer
  obtain ⟨hframe, hcounts⟩ := coreAnswer_counts hs (counted_counts s p k) (fun _ hz => hz) hanswer
  exact ⟨_, rfl, Eq.trans hframe (by rw [counted_frame]), hcounts⟩

theorem coreAnswer_failed (hty : kTYPE p = 4) (hop : x.opcode ≠ 0x49) {code : Nat} (hcode : codeOf (BitVec.ofNat 16 (kARG p)) = code)
    (hfail : code ≠ 0) : ∃ t, s.coreAnswer p k = t ∧
      t = { s with cores := t.cores, net := s.net.erase p, creditNet := t.creditNet } ∧
      s.Counts t p k fun z => { z with ended := true, grants := [], codes := if code ∈ z.codes then z.codes else z.codes ++ [code] } := by
  obtain ⟨hmem, htxid⟩ := xfer_mem hx
  obtain ⟨-, -, hflag, hlate⟩ := hs x hmem
  have hanswer := coreAnswer_some hx
  rw [xferAnswered_data hx hflag hty hop, hcode, if_neg (by exact hfail)] at hanswer
  obtain ⟨huframe, hucounts⟩ := failXfer_counts (counted_counts s p k) htxid hlate code
  generalize (s.counted p k).failXfer k x code = u at hanswer huframe hucounts
  obtain ⟨htframe, htcounts⟩ := coreAnswer_counts hs hucounts (fun _ hz => quiet_failed hz code) hanswer
  generalize s.coreAnswer p k = t at htframe htcounts
  refine ⟨t, rfl, ?_, htcounts.congr fun z hz => ?_⟩
  · have hcredit : t.creditNet = u.creditNet := by rw [htframe]
    rw [hcredit, htframe, huframe, counted_frame]
  · obtain ⟨hunsent, -, -, -⟩ := quiet_counted (hs z hz) p
    rw [Xfer.failed, ← hunsent]

theorem coreAnswer_circ (hty : kTYPE p = 4) (hop : x.opcode = 0x49) (hcode : codeOf (BitVec.ofNat 16 (kARG p)) = 0) {d : Wide}
    (hd : (s.core k).commandOf x = some d) {n : Nat} :
    (mCOP d = 0 → s.circFree k = some n → (s.coreAnswer p k).mem = s.mem ∧ (s.coreAnswer p k).rd (aCirc k n) = circWord d) ∧
    (mCOP d = 1 → s.circEntry k (mCIRC d) = some n → (s.coreAnswer p k).mem = s.mem ∧ (s.coreAnswer p k).rd (aCirc k n) = 0) := by
  obtain ⟨-, -, hflag, -⟩ := hs x (xfer_mem hx).1
  have hmem : (s.counted p k).mem = s.mem := by rw [counted_frame]
  have hctl : (s.counted p k).ctl = s.ctl := by rw [counted_frame]
  obtain ⟨hkept, hrd⟩ := pump_sweep_kept ((s.counted p k).circAnswered k x d 0) k (aCirc k n)
  rw [coreAnswer_some hx, xferAnswered_circ hx hflag hty hop hd, hcode, hkept, hrd]
  refine ⟨fun hcop hfree => ?_, fun hcop hentry => ?_⟩
  · obtain ⟨u, hu, hopen⟩ := circAnswered_open (x := x) hcop ((circFree_congr hctl k).trans hfree)
    rw [hopen, State.wr_mem, State.rd_wr]
    exact ⟨hu.trans hmem, rfl⟩
  · obtain ⟨u, hu, hclose⟩ := circAnswered_close (x := x) hcop ((circEntry_congr hctl k _).trans hentry)
    rw [hclose, State.wr_mem, State.rd_wr]
    exact ⟨hu.trans hmem, rfl⟩

end

/-- A read response at its core: counted, its bytes written where its segment's go, its code gathered. -/
theorem coreAnswer_rdrsp (hs : (s.core k).Quiet) (hx : (s.core k).xfer (kTXID p) = some x) (hty : kTYPE p = 3) (hpay : p.payload ≠ [])
    {a : Nat} (hland : x.landingOf (kSEGNO p) = [(a, p.payload.length)]) : ∃ t, s.coreAnswer p k = t ∧ t.tiles = s.tiles ∧
      t.net = s.net.erase p ∧ t.mem = writeMem s.mem (coreAddr k (a / 2 ^ 26) (a % 2 ^ 26)) p.payload ∧
      s.Counts t p k fun z => (z.landed p).gathered (codeOf (BitVec.ofNat 16 (kARG p))) := by
  obtain ⟨hmem, htxid⟩ := xfer_mem hx
  obtain ⟨-, -, hflag, -⟩ := hs x hmem
  have hanswer := coreAnswer_some hx
  rw [xferAnswered_rdrsp hx hflag hty hpay hland] at hanswer
  obtain ⟨hwframe, hwcounts⟩ := landing_counts s p k
  generalize s.landing p k = w at hanswer hwframe hwcounts
  have hlands := (coreWrite_lands w k (a / 2 ^ 26) (a % 2 ^ 26) p.payload false).trans
    (markPiece_lands _ k 0 a p.payload.length (kPOISON p))
  generalize (w.coreWrite k (a / 2 ^ 26) (a % 2 ^ 26) p.payload false).markPiece k 0 a p.payload.length (kPOISON p) = v at hanswer hlands
  obtain ⟨hgframe, hgcounts⟩ := gatherCode_counts (hwcounts.lands hlands) (fun _ => rfl) htxid (codeOf (BitVec.ofNat 16 (kARG p)))
  generalize v.gatherCode k x (codeOf (BitVec.ofNat 16 (kARG p))) = g at hanswer hgframe hgcounts
  obtain ⟨htframe, htcounts⟩ := coreAnswer_counts hs hgcounts (fun _ hz => hz) hanswer
  generalize s.coreAnswer p k = t at htframe htcounts
  have hframe : t = { s with mem := t.mem, poison := t.poison, ctl := t.ctl, cores := t.cores, net := s.net.erase p } := by
    rw [htframe, hgframe, hlands.frame, hwframe]
  refine ⟨t, rfl, by rw [hframe], by rw [hframe], ?_, htcounts⟩
  rw [htframe, hgframe]
  exact hlands.mem_eq.trans (by rw [hwframe])

/-- Settles O35: the reads of `rdreq_spec`, and each answer's effect on the transfer it is counted in. -/
theorem readsAndAnswers : Obligations.ReadsAndAnswers := by
  refine ⟨fun p bad s => ?_, fun p s x a => ?_⟩
  · intro k h sp off rows busy answered harr hcore hok hty
    have hexec := exec_rdreq harr hok hcore hty bad
    have hread := isRead_of_rdreq hty
    refine ⟨fun hraw hspace => ?_, fun hraw hfirst hcode => ?_, fun hmay => ?_⟩
    · have hreplies := rawRead_refused (k := k) (bad := bad) hraw hspace
      rw [hread] at hreplies
      exact hreplies.answered hexec
    · have hreplies := read_refused (k := k) (bad := bad) hraw hfirst hcode
      rw [hread] at hreplies
      exact hreplies.answered hexec
    · obtain ⟨hbusy, hrestore, hanswer⟩ := rdreq_spec (bad := bad) hmay
      exact ⟨fun hb => ⟨_, hexec, hbusy hb⟩, fun hb hr => ⟨_, hexec, hrestore hb hr⟩,
        fun hb hr => (hanswer hb hr).answered hexec⟩
  · intro k c src code counted harr hcore hok hquiet
    have hs : (s.core k).Quiet := hquiet
    refine ⟨fun hnone hty => ?_, fun hx hop => ⟨fun hty hcode => ?_, fun hty hcode => ?_, fun hty hpay hland => ?_⟩,
      fun hx hop hty hcode d n hd => ?_⟩
    · obtain ⟨t, ht, hframe, hcounts⟩ := coreAnswer_unasked hs hnone
      exact ⟨t, (exec_ack harr hok hcore hty).trans (by rw [ht]), hframe, hcounts.others, hcounts.core⟩
    · obtain ⟨t, ht, hframe, hcounts⟩ := coreAnswer_done hs hx hty hop hcode
      exact ⟨t, (exec_ack harr hok hcore hty).trans (by rw [ht]), hframe, hcounts.others, hcounts.core⟩
    · obtain ⟨t, ht, hframe, hcounts⟩ := coreAnswer_failed hs hx hty hop rfl hcode
      exact ⟨t, (exec_ack harr hok hcore hty).trans (by rw [ht]), hframe, hcounts.others, hcounts.core⟩
    · obtain ⟨t, ht, htiles, hnet, hmem, hcounts⟩ := coreAnswer_rdrsp hs hx hty hpay hland
      exact ⟨t, (exec_rdrsp harr hok hcore hty).trans (by rw [ht]), htiles, hnet, ⟨hcounts.others, hcounts.core⟩,
        bytesBecome_of_mem hmem⟩
    · obtain ⟨hopen, hclose⟩ := coreAnswer_circ hs hx hty hop hcode hd (n := n)
      exact ⟨fun hcop hfree => ⟨_, exec_ack harr hok hcore hty, hopen hcop hfree⟩,
        fun hcop hentry => ⟨_, exec_ack harr hok hcore hty, hclose hcop hentry⟩⟩

end Sys2Proof.Machine
end

