-- ==== Sys2Proof/Proofs/KvAppend.lean ====
section
/-! PROOFS. `KV_APPEND`: each item's bytes copied into its rows, in item order (R110). -/

namespace Sys2Proof.Machine

variable {s t u : State} {k q : Nat} {it : Item} {x : Exec} {bad : List Nat}

/-- A write after a write. -/
theorem State.Lands.followed {m m' : List Host.Cell} (h : State.Lands k m s t) (h' : State.Lands k m' t u) : State.Lands k m' s u :=
  ⟨Eq.trans h'.frame (by rw [h.frame]), fun j hj => (h'.others j hj).trans (h.others j hj), Eq.trans h'.core (by rw [h.core])⟩

/-- Steps that each write into the memories leave what their writes, one after the other, make of them. -/
theorem State.Lands.foldl_mem {β : Type} {f : State → β → State} {g : List Host.Cell → β → List Host.Cell}
    (hf : ∀ t b, State.Lands k (g t.mem b) t (f t b)) (l : List β) (s : State) :
    State.Lands k (l.foldl g s.mem) s (l.foldl f s) := by
  induction l generalizing s with
  | nil => exact .refl k s
  | cons b l ih =>
    have hrest := ih (f s b)
    rw [(hf s b).mem_eq] at hrest
    exact (hf s b).followed hrest

/-- The memory after one undamaged item of a `KV_APPEND`: its source's bytes in each of its rows. -/
def putRows (k : Nat) (x : Exec) (d : Wide) (m : List Host.Cell) (e : KvItem) : List Host.Cell :=
  e.rows.foldl (fun m' r => writeMem m' (coreAddr k 0 r)
    (readMem m (coreAddr k 1 (appendSrc x d e).1) (appendSrc x d e).2)) m

theorem appendItem_lands (s : State) (k : Nat) (x : Exec) (d : Wide) (e : KvItem) :
    State.Lands k (putRows k x d s.mem e) s (s.appendItem k x d e false) :=
  .foldl_mem (fun t r => coreWrite_lands t k 0 r _ false) e.rows s

/-- With no damage met, the items are copied and the command's work is done. -/
theorem appendWork_undamaged (h : ∀ e ∈ x.items, s.appendDamage k bad x it.desc e = none) :
    s.appendWork k q bad it x =
      (x.items.foldl (fun s e => s.appendItem k x it.desc e false) s).workDone k q it [] 0 := by
  have hall : x.items.map (fun e => (e, s.appendDamage k bad x it.desc e)) = x.items.map fun e => (e, none) :=
    List.map_congr_left fun e he => by rw [h e he]
  have hfirst : (x.items.map fun e => (e, (none : Option Dmg))).findSome? (fun e => e.2.map fun g => (e.1, g)) = none := by
    simp [List.findSome?_eq_none_iff]
  have hcodes : (x.items.map fun e => (e, (none : Option Dmg))).any (fun e => e.2.isSome) = false := by simp
  unfold State.appendWork
  simp only [hall, hfirst, hcodes, List.foldl_map, Option.isSome_none, Bool.false_eq_true, if_false]

theorem exec_kvAppend {c : CoreId} {q : Fin 16} (h : s.Works (kOf c) q.val 0x11 it x) (bad : List Nat) :
    exec (.kvAppend c q bad) s = .next (s.appendWork (kOf c) q.val bad it x) :=
  congrArg Host.Outcome.next (work_of_works h fun it x s => s.appendWork (kOf c) q.val bad it x)

/-- Writes into the memories, and the command that made them worked: its core differs by that and by its restore. -/
theorem State.Lands.workDone {m : List Host.Cell} (h : State.Lands k m s t) (q : Nat) (it : Item) (codes : List Nat) :
    (s.core k).WorkedOnRows ((t.workDone k q it codes 0).core k) q it codes := by
  have hdone : (t.workDone k q it codes 0).core k = (t.core k).updExec q it.seq fun y =>
      { y with worked := true, codes := y.codes ++ codes, flags := y.flags ||| 0 } := State.core_modCore ..
  rw [Core.WorkedOnRows, Core.Worked, hdone, h.core]
  rfl

end Sys2Proof.Machine
end

