-- ==== Sys2Proof/Proofs/Attention.lean ====
section
/-! PROOFS. `ATT_SCORE` and `ATT_APPLY`: items of any number of sums, delivered undamaged in their mode (R90, R104, R108,
R111 to R113, R273). -/

namespace Sys2Proof.Machine

variable {s : State} {k q : Nat} {it : Item} {x : Exec} {bad : List Nat}

/-! ## Items of different lengths stored (R104, R108) -/

/-- The results of a list of sums, stored from `base` on. -/
def putSums (k : Nat) (acc : Bool) (base : Nat) (sums : List Acc) (m : List Host.Cell) : List Host.Cell :=
  sums.zipIdx.foldl (fun m a => putEntry (coreAddr k 2 (base + 8 * a.2)) (platenStore acc · a.1.store.1) m) m

theorem map_getD_range_length (sums : List Acc) : (List.range sums.length).map (sums.getD · Acc.zero) = sums :=
  List.ext_getElem (by simp) fun i _ h => by simp [h]

theorem putItem_getD (k : Nat) (acc : Bool) (base : Nat) (sums : List Acc) (m : List Host.Cell) :
    putItem k acc base sums.length (sums.getD · Acc.zero) m = putSums k acc base sums m := by
  have hzip : sums.zipIdx = (List.range sums.length).map fun j => (sums.getD j Acc.zero, j) := by
    conv_lhs => rw [← map_getD_range_length sums, ← List.map_id (List.zipIdx _), zipIdx_map_range]
    rfl
  rw [putSums, hzip, List.foldl_map]
  rfl

theorem ItemOut.clean_getD {o : ItemOut} (h : o.dmg = none) : o.Clean o.sums.length (o.sums.getD · Acc.zero) :=
  ⟨h, (map_getD_range_length o.sums).symm⟩

/-- The entries that the items add to are undamaged. -/
def State.EntriesClean (s : State) (k : Nat) (h : Wide) (bad : List Nat) (os : List ItemOut) : Prop :=
  ∀ o ∈ os, s.damage k 2 (hBASE h + o.off) (8 * o.sums.length) bad = none

theorem deliverEach_undamaged {h : Wide} {acc : Bool} {os : List ItemOut} (hdmg : ∀ o ∈ os, o.dmg = none)
    (hclean : acc = true → s.EntriesClean k h bad os) :
    (State.deliverEach k h acc bad os s).2.2 = os ∧ State.StoresMem k s (State.deliverEach k h acc bad os s).1
      (os.foldl (fun m o => putSums k acc (hBASE h + o.off) o.sums m) s.mem) := by
  induction os generalizing s with
  | nil => exact ⟨rfl, ⟨_, .refl k s⟩, rfl, rfl⟩
  | cons o os ih =>
    have ho := ItemOut.clean_getD (hdmg o List.mem_cons_self)
    have hentry := fun hacc => hclean hacc o List.mem_cons_self
    obtain ⟨⟨b, hs⟩, htiles, hmem⟩ := storeItem_clean ho.dmg ho.sums hentry
    obtain ⟨hrest, ⟨b', hs'⟩, htiles', hmem'⟩ := ih (fun p hp => hdmg p (List.mem_cons_of_mem _ hp))
      fun hacc p hp => hs.damage_none (hclean hacc p (List.mem_cons_of_mem _ hp))
    rw [State.deliverEach, deliverOne_clean ho hentry, List.foldl_cons, ← putItem_getD, ← hmem]
    exact ⟨congrArg (o :: ·) hrest, ⟨_, hs.trans hs'⟩, htiles'.trans htiles, hmem'⟩

/-- Modes ST and ACC of undamaged items. -/
theorem deliverItems_undamaged {stripe : Nat} {os : List ItemOut} (hmode : pYMODE it.desc ≠ 2) (hdmg : ∀ o ∈ os, o.dmg = none)
    (hclean : pYMODE it.desc = 1 → s.EntriesClean k (x.handle (pYH it.desc)) bad os) :
    let t := s.deliverItems k q bad it x stripe os
    (∃ codes, (s.core k).Worked (t.core k) q it codes 0 ∧ ∀ e ∈ codes, e = 0x06) ∧
      t.mem = os.foldl (fun m o => putSums k (pYMODE it.desc = 1) (hBASE (x.handle (pYH it.desc)) + o.off) o.sums m) s.mem := by
  obtain ⟨hsame, ⟨b, hs⟩, -, hmem⟩ := deliverEach_undamaged (acc := decide (pYMODE it.desc = 1)) hdmg
    fun hacc => hclean (of_decide_eq_true hacc)
  intro t
  have ht : t = s.deliverItems k q bad it x stripe os := rfl
  rw [deliverItems_eq] at ht
  simp only [if_neg hmode, hsame, find_damaged_none hdmg, State.recordItem, Option.isSome_none, Bool.false_eq_true, if_false,
    List.nil_append] at ht
  refine ⟨⟨?codes, ?worked, ?sat⟩, ?mem⟩
  case worked =>
    rw [ht, State.workDone, State.core_modCore, State.core_modCore, (hs.trans (.noteNar _ k _)).core]
    exact worked_undamaged q it _
  case sat => exact mem_satCodes
  case mem =>
    rw [ht, State.workDone, State.modCore_mem, State.modCore_mem, noteNar_mem]
    exact hmem

/-! ## The two commands (R111 to R113) -/

/-- The elements of a vector as factors of exact products; none stands for a NaR. -/
abbrev Terms := List (Option (Int × Int))

/-- The elements of an attention item's rows. -/
def State.attendRows (s : State) (k : Nat) (x : Exec) (d : Wide) (e : KvItem) : List Terms :=
  e.rows.map fun r => (unpack 8 (s.coreRead k 0 r (128 * hT (x.handle (pWH d))))).map (decElem (hFORMAT (x.handle (pWH d))))

/-- The elements of an attention item's own vector. -/
def State.attendVec (s : State) (k : Nat) (x : Exec) (d : Wide) (e : KvItem) (len : Nat) : Terms :=
  decodeVec (hFORMAT (x.handle (pXH d))) len
    (s.coreRead k 1 (hBASE (x.handle (pXH d)) + itemX d e.item) (vecBytes (hFORMAT (x.handle (pXH d))) len))

/-- The damage that an attention item's reads meet. -/
def State.attendDamage (s : State) (k : Nat) (bad : List Nat) (x : Exec) (d : Wide) (e : KvItem) (len : Nat) : Option Dmg :=
  s.firstDamage k bad (kvReads (x.handle (pWH d)) d e ++
    [(1, hBASE (x.handle (pXH d)) + itemX d e.item, vecBytes (hFORMAT (x.handle (pXH d))) len)] ++
    e.rows.map fun r => (0, r, 128 * hT (x.handle (pWH d))))

/-- R117, R108: the beats are counted, and the items of some length delivered, each with the sums of its rows and vector. -/
theorem attendWork_deliver (s : State) (k q : Nat) (bad : List Nat) (it : Item) (x : Exec) (vecLen : KvItem → Nat)
    (sums : List Terms → Terms → List Acc) (lanes : Nat → List Terms → Terms → List Acc) :
    ∃ halfrows a active, ∃ out : KvItem → ItemOut,
      s.attendWork k q bad it x vecLen sums lanes = (s.platenCount k halfrows a active).deliverItems k q bad it x 8
        ((x.items.filter fun e => e.n ≠ 0).map out) ∧
      (∀ e, (out e).off = itemY it.desc e.item) ∧ (∀ e, (out e).dmg = s.attendDamage k bad x it.desc e (vecLen e)) ∧
      ∀ e, (out e).sums = sums (s.attendRows k x it.desc e) (s.attendVec k x it.desc e (vecLen e)) :=
  ⟨_, _, _, _, rfl, fun _ => rfl, fun _ => rfl, fun _ => rfl⟩

@[simp] theorem core_platenCount (s : State) (k halfrows a active j : Nat) : (s.platenCount k halfrows a active).core j = s.core j := rfl

/-- A transfer that begins after beats were counted. -/
theorem State.Begins.of_platenCount {y : Xfer} {t : State} {halfrows a active : Nat}
    (h : State.Begins k y (s.platenCount k halfrows a active) t) : State.Begins k y s t :=
  ⟨h.mem, h.tiles, h.others, h.sreg, h.has⟩

/-- Counting beats leaves where mode RACC sends. -/
theorem racDest_platenCount (s : State) (k halfrows a active i : Nat) :
    (s.platenCount k halfrows a active).racDest k i = s.racDest k i := by
  rw [State.racDest, State.fld, State.platenCount, State.addFld, rd_setFld_other _ _ _ _ _ _ (aCoreK_inj.not.mpr (by omega)),
    State.addFld, rd_setFld_other _ _ _ _ _ _ (aCoreK_inj.not.mpr (by omega)), State.addFld,
    rd_setFld_other _ _ _ _ _ _ (aCoreK_inj.not.mpr (by omega))]
  rfl

/-- What an attention command whose reads meet no damage leaves: its items' sums, stored in modes ST and ACC, sent in mode RACC. -/
theorem attendWork_spec {vecLen : KvItem → Nat} {sums : List Terms → Terms → List Acc}
    {lanes : Nat → List Terms → Terms → List Acc}
    (hsound : ∀ e ∈ x.items, e.n ≠ 0 → s.attendDamage k bad x it.desc e (vecLen e) = none) :
    let t := s.attendWork k q bad it x vecLen sums lanes
    let Y := x.handle (pYH it.desc)
    let res := fun e => sums (s.attendRows k x it.desc e) (s.attendVec k x it.desc e (vecLen e))
    State.OnlyHere k s t ∧
      (pYMODE it.desc ≠ 2 → (pYMODE it.desc = 1 → ∀ e ∈ x.items, e.n ≠ 0 →
          s.damage k 2 (hBASE Y + itemY it.desc e.item) (8 * (res e).length) bad = none) →
        (∃ codes, (s.core k).Worked (t.core k) q it codes 0 ∧ ∀ e ∈ codes, e = 0x06) ∧
        t.mem = (x.items.filter fun e => e.n ≠ 0).foldl (fun m e =>
          putSums k (pYMODE it.desc = 1) (hBASE Y + itemY it.desc e.item) (res e) m) s.mem) ∧
      (pYMODE it.desc = 2 → ∃ y : Xfer,
        y.ident = ((s.core k).freshTx, q, it.seq, dOP it.desc, s.racDest k (pDIDX it.desc), pYH it.desc) ∧ State.Begins k y s t) := by
  intro t Y res
  obtain ⟨halfrows, a, active, out, hwork, hoff, hreads, hsums⟩ := attendWork_deliver s k q bad it x vecLen sums lanes
  have ht : t = (s.platenCount k halfrows a active).deliverItems k q bad it x 8 ((x.items.filter fun e => e.n ≠ 0).map out) := hwork
  have hdmg : ∀ o ∈ (x.items.filter fun e => e.n ≠ 0).map out, o.dmg = none := by
    simp only [List.mem_map, List.mem_filter, decide_eq_true_eq]
    rintro _ ⟨e, ⟨he, hn⟩, rfl⟩
    exact (hreads e).trans (hsound e he hn)
  have hcount : State.OnlyHere k s (s.platenCount k halfrows a active) := .of_cores rfl rfl
  rw [ht]
  refine ⟨hcount.trans (deliverItems_onlyHere ..), fun hmode hacc => ?_, fun hmode => ?_⟩
  · have hentries : pYMODE it.desc = 1 →
        (s.platenCount k halfrows a active).EntriesClean k Y bad ((x.items.filter fun e => e.n ≠ 0).map out) := by
      simp only [State.EntriesClean, List.mem_map, List.mem_filter, decide_eq_true_eq]
      rintro hone _ ⟨e, ⟨he, hn⟩, rfl⟩
      rw [hoff, hsums]
      exact hacc hone e he hn
    obtain ⟨hworked, hmem⟩ := deliverItems_undamaged (q := q) (stripe := 8) hmode hdmg hentries
    refine ⟨hworked, hmem.trans ?_⟩
    simp only [List.foldl_map, hoff, hsums]
    rfl
  · obtain ⟨y, hy, hbegins⟩ := deliverItems_racc (s := s.platenCount k halfrows a active) (k := k) (q := q) (bad := bad) (x := x)
      (stripe := 8) hmode hdmg
    rw [racDest_platenCount, core_platenCount] at hy
    exact ⟨y, hy, hbegins.of_platenCount⟩

theorem exec_attScore {c : CoreId} {q : Fin 16} (h : s.Works (kOf c) q.val 0x12 it x) (bad : List Nat) :
    exec (.attScore c q bad) s = .next (s.attendWork (kOf c) q.val bad it x (fun _ => pD it.desc)
      (scoreSums (pD it.desc) (pASCALE it.desc)) fun _ _ _ => []) :=
  congrArg Host.Outcome.next (work_of_works h fun it x s => s.attendWork (kOf c) q.val bad it x (fun _ => pD it.desc)
    (scoreSums (pD it.desc) (pASCALE it.desc)) fun _ _ _ => [])

theorem exec_attApply {c : CoreId} {q : Fin 16} (h : s.Works (kOf c) q.val 0x13 it x) (bad : List Nat) :
    exec (.attApply c q bad) s = .next (s.attendWork (kOf c) q.val bad it x (fun e => e.n)
      (applySums (pD it.desc) (pASCALE it.desc)) (restSums (pD it.desc) (pASCALE it.desc))) :=
  congrArg Host.Outcome.next (work_of_works h fun it x s => s.attendWork (kOf c) q.val bad it x (fun e => e.n)
    (applySums (pD it.desc) (pASCALE it.desc)) (restSums (pD it.desc) (pASCALE it.desc)))

/-- R113: element `i` of the result is a sum over the rows' elements `i`. -/
theorem applySums_eq (D : Nat) (L : Int) (rows : List Terms) (xs : Terms) :
    applySums D L rows xs = (List.range D).map fun i => dot (rows.map fun r => r.getD i none) xs L := by
  simp only [applySums, laneSums, Nat.zero_add]

/-! ## The obligation -/

/-- Settles O24: `KV_APPEND` writes its items' bytes one after the other, and the attention commands' sums are delivered undamaged in
their mode. -/
theorem kvAndAttention : Obligations.KvAndAttention := by
  refine ⟨?_, ?_⟩
  · intro c q bad s it x k d H X hworks hundamaged
    have hexec := exec_kvAppend hworks bad
    rw [appendWork_undamaged hundamaged] at hexec
    have hlands := State.Lands.foldl_mem (appendItem_lands (k := kOf c) (x := x) (d := it.desc)) x.items s
    refine ⟨_, hexec, ?_, hlands.workDone q.val it [], fun j hj => ?_, ?_, hlands.mem_eq⟩
    · exact (State.modCore_tiles ..).trans (by rw [hlands.frame])
    · exact (State.core_modCore_ne _ _ hj).trans (hlands.others j hj)
    · exact (State.modCore_errPend ..).trans (by rw [hlands.frame])
  · intro c q bad s it x k d H X Y f L vec rows sound place stores
    have hstores : ∀ (i : Instr) (vecLen : KvItem → Nat) (sums : KvItem → List Acc)
        (form : List Terms → Terms → List Acc) (lanes : Nat → List Terms → Terms → List Acc),
        exec i s = .next (s.attendWork k q.val bad it x vecLen form lanes) → sound vecLen →
        (fun e => form (s.attendRows k x d e) (s.attendVec k x d e (vecLen e))) = sums → stores i sums := by
      rintro i vecLen _ form lanes hexec hsound rfl
      obtain ⟨⟨htiles, hothers⟩, hlocal, hracc⟩ := attendWork_spec (q := q.val) (sums := form) (lanes := lanes) hsound
      refine ⟨_, hexec, htiles, hothers, fun hmode hacc => ?_, fun hmode => ?_⟩
      · obtain ⟨hworked, hmem⟩ := hlocal hmode hacc
        refine ⟨hworked, hmem.trans ?_⟩
        simp only [putSums, putEntry, platenStore_eq]
        rfl
      · obtain ⟨y, hy, hbegins⟩ := hracc hmode
        obtain ⟨z, hz, hident⟩ := hbegins.has
        obtain ⟨htx, hqueue, hseq, -, hto, hdh⟩ := by simpa only [Xfer.ident, Prod.mk.injEq] using hident.trans hy
        exact ⟨hbegins.mem, hbegins.sreg, z, hz, htx, hqueue, hseq, hto, hdh⟩
    exact ⟨fun hworks hsound => hstores _ _ _ _ _ (exec_attScore hworks bad) hsound rfl,
      fun hworks hsound => hstores _ _ _ _ _ (exec_attApply hworks bad) hsound (funext fun _ => applySums_eq ..)⟩

end Sys2Proof.Machine
end

