-- ==== Sys2Proof/Proofs/Elements.lean ====
section
/-! PROOFS. The brayer's element-wise commands: sources, results and where they are written (R124, R125, R128, R129, R131). -/

namespace Sys2Proof.Machine

variable {s : State} {k q op : Nat} {it : Item} {x : Exec} {bad : List Nat} {i : Instr}

/-! ## Results in operand D -/

/-- The command takes `s` to a state in which operand D of `it` holds the patterns `xs` of `es` bytes and the command is worked; no byte
of memory and no other byte of a tile differs. -/
def WritesTile (i : Instr) (s : State) (k q : Nat) (it : Item) (es : Nat) (xs : List Nat) : Prop :=
  ∃ t, exec i s = .next t ∧ t.mem = s.mem ∧ s.BrayerEnds t k q it [] ∧
    s.TilesBecome t k (tileOp it.desc 48 es xs.length true).tile ((tileOp it.desc 48 es xs.length true).off * es) (elemBytes es xs)

/-- Results put undamaged into operand D are there. -/
theorem writesTile_of_putTile {es nan : Nat} {xs : List Nat}
    (hexec : exec i s = .next ((s.putTile k it.desc es nan xs false).brDone k q it none false)) : WritesTile i s k q it es xs :=
  ⟨_, hexec, brDone_putTile (.refl k s) rfl rfl q it it.desc es nan xs false⟩

/-- An undamaged element-wise command writes its results. -/
theorem writesTile_of_brTiles {es nan : Wide → Nat} {f : State → Wide → Nat → List Nat} (hworks : s.Works k q op it x)
    (hdmg : s.tileDamage k bad it.desc it.blen = none) (hexec : exec i s = .next (s.brTiles k q op bad es nan f)) :
    WritesTile i s k q it (es it.desc) (f s it.desc it.blen) := by
  rw [State.brTiles, work_of_works hworks] at hexec
  dsimp only at hexec
  rw [hdmg] at hexec
  exact writesTile_of_putTile hexec

/-- One of type ET throughout narrows its FP32 results (R129). -/
theorem writesTile_of_brEt {f : State → Wide → Nat → List Nat} {y : Nat → Nat} (hworks : s.Works k q op it x)
    (hdmg : s.tileDamage k bad it.desc it.blen = none) (hexec : exec i s = .next (s.brEt k q op bad f))
    (hf : f s it.desc it.blen = (List.range it.blen).map y) :
    WritesTile i s k q it (etSize (bET it.desc)) ((List.range it.blen).map fun j => toEt (bET it.desc) (y j)) := by
  have h := writesTile_of_brTiles hworks hdmg hexec
  rwa [hf, List.map_map] at h

/-! ## Sources (R124, R125) -/

/-- Element `j` of source B: of the tile operand, or IMM. -/
def State.elemB (s : State) (k : Nat) (d : Wide) (n j : Nat) : Nat :=
  if bBSRC d = 1 then bIMM d else s.tileElem k d (opB d n) j

theorem srcB_eq (s : State) (k : Nat) (d : Wide) (n : Nat) : s.srcB k d n = (List.range n).map (s.elemB k d n) := by
  unfold State.srcB State.elemB
  split
  · rw [List.map_const', List.length_range]
  · exact asFp32_tileRead s k d rfl

theorem srcC_eq (s : State) (k : Nat) (d : Wide) (n : Nat) : s.srcC k d n = (List.range n).map (s.tileElem k d (opC d n)) :=
  asFp32_tileRead s k d rfl

/-! ## Commands of one, two and three sources (R131) -/

theorem writesTile_of_brUnary {f : Nat → Nat} (hworks : s.Works k q op it x) (hdmg : s.tileDamage k bad it.desc it.blen = none)
    (hexec : exec i s = .next (s.brUnary k q op bad f)) : WritesTile i s k q it (etSize (bET it.desc))
      ((List.range it.blen).map fun j => toEt (bET it.desc) (f (s.tileElem k it.desc (opA it.desc it.blen) j))) :=
  writesTile_of_brEt hworks hdmg hexec (by rw [srcA_eq, List.map_map]; rfl)

theorem writesTile_of_brBinary {f : Nat → Nat → Nat} (hworks : s.Works k q op it x)
    (hdmg : s.tileDamage k bad it.desc it.blen = none) (hexec : exec i s = .next (s.brBinary k q op bad f)) :
    WritesTile i s k q it (etSize (bET it.desc)) ((List.range it.blen).map fun j => toEt (bET it.desc)
      (f (s.tileElem k it.desc (opA it.desc it.blen) j) (s.elemB k it.desc it.blen j))) :=
  writesTile_of_brEt hworks hdmg hexec (by rw [srcA_eq, srcB_eq, List.zipWith_map, List.zipWith_self])

theorem brFma_writesTile {c : CoreId} {q : Fin 16} (hworks : s.Works (kOf c) q.val 0x24 it x)
    (hdmg : s.tileDamage (kOf c) bad it.desc it.blen = none) :
    WritesTile (.brFma c q bad) s (kOf c) q.val it (etSize (bET it.desc)) ((List.range it.blen).map fun j => toEt (bET it.desc)
      (ffma (s.tileElem (kOf c) it.desc (opA it.desc it.blen) j) (s.elemB (kOf c) it.desc it.blen j)
        (s.tileElem (kOf c) it.desc (opC it.desc it.blen) j))) :=
  writesTile_of_brEt hworks hdmg rfl (by rw [srcA_eq, srcB_eq, srcC_eq, List.zip_map', List.zipWith_map, List.zipWith_self])

/-! ## Commands that move or convert patterns (R129) -/

theorem brCopy_writesTile {c : CoreId} {q : Fin 16} (hworks : s.Works (kOf c) q.val 0x29 it x)
    (hdmg : s.tileDamage (kOf c) bad it.desc it.blen = none) :
    WritesTile (.brCopy c q bad) s (kOf c) q.val it (etSize (bET it.desc)) (s.tileRead (kOf c) (opA it.desc it.blen)) :=
  writesTile_of_brTiles (es := fun d => etSize (bET d)) (nan := fun d => etNaN (bET d))
    (f := fun s d n => s.tileRead (kOf c) (opA d n)) hworks hdmg rfl

theorem brWiden_writesTile {c : CoreId} {q : Fin 16} (hworks : s.Works (kOf c) q.val 0x31 it x)
    (hdmg : s.tileDamage (kOf c) bad it.desc it.blen = none) :
    WritesTile (.brWiden c q bad) s (kOf c) q.val it 4 ((s.tileRead (kOf c) (tileOp it.desc 64 2 it.blen false)).map widen) :=
  writesTile_of_brTiles (es := fun _ => 4) (nan := fun _ => fNaN)
    (f := fun s d n => (s.tileRead (kOf c) (tileOp d 64 2 n false)).map widen) hworks hdmg rfl

theorem brNarrow_writesTile {c : CoreId} {q : Fin 16} (hworks : s.Works (kOf c) q.val 0x32 it x)
    (hdmg : s.tileDamage (kOf c) bad it.desc it.blen = none) :
    WritesTile (.brNarrow c q bad) s (kOf c) q.val it 2 ((s.tileRead (kOf c) (tileOp it.desc 64 4 it.blen false)).map narrow) :=
  writesTile_of_brTiles (es := fun _ => 2) (nan := fun _ => bf16.nan)
    (f := fun s d n => (s.tileRead (kOf c) (tileOp d 64 4 n false)).map narrow) hworks hdmg rfl

/-- Settles O18: the results of every command element by element, written to operand D. -/
theorem brayerArithmetic : Obligations.BrayerArithmetic := by
  refine ⟨fun c q bad s it x i op f hrow => ?_, fun c q bad s it x i op => ?_⟩
  · intro k d n b y D hworks hdmg
    have binary (g : Nat → Nat → Nat) (hf : f = fun a b _ => g a b) (hexec : exec i s = .next (s.brBinary k q.val op bad g)) :
        WritesTile i s k q.val it (etSize (bET d)) ((List.range n).map fun j => toEt (bET d) (y j)) := by
      subst hf
      exact writesTile_of_brBinary hworks hdmg hexec
    simp only [List.mem_cons, List.not_mem_nil, or_false, Prod.mk.injEq] at hrow
    obtain ⟨rfl, rfl, hf⟩ | ⟨rfl, rfl, hf⟩ | ⟨rfl, rfl, hf⟩ | ⟨rfl, rfl, rfl⟩ | ⟨rfl, rfl, hf⟩ | ⟨rfl, rfl, hf⟩ := hrow
    · exact binary fadd hf rfl
    · exact binary fsub hf rfl
    · exact binary fmul hf rfl
    · exact brFma_writesTile hworks hdmg
    · exact binary fmax hf rfl
    · exact binary fmin hf rfl
  · intro k d n gives raw
    refine ⟨fun f hrow hdmg hworks => ?_, fun hrow hdmg hworks => ?_, fun hrow hdmg hworks => ?_, fun hrow hdmg hworks => ?_⟩
    · have unary (hexec : exec i s = .next (s.brUnary k q.val op bad f)) := writesTile_of_brUnary hworks hdmg hexec
      simp only [List.mem_cons, List.not_mem_nil, or_false, Prod.mk.injEq] at hrow
      obtain ⟨rfl, rfl, rfl⟩ | ⟨rfl, rfl, rfl⟩ | ⟨rfl, rfl, rfl⟩ | ⟨rfl, rfl, rfl⟩ | ⟨rfl, rfl, rfl⟩ | ⟨rfl, rfl, rfl⟩ |
        ⟨rfl, rfl, rfl⟩ | ⟨rfl, rfl, rfl⟩ := hrow
      all_goals exact unary rfl
    · obtain ⟨rfl, rfl⟩ := Prod.mk.inj hrow
      exact brCopy_writesTile hworks hdmg
    · obtain ⟨rfl, rfl⟩ := Prod.mk.inj hrow
      have h := brWiden_writesTile hworks hdmg
      rwa [State.tileRead, List.map_map] at h
    · obtain ⟨rfl, rfl⟩ := Prod.mk.inj hrow
      have h := brNarrow_writesTile hworks hdmg
      rwa [State.tileRead, List.map_map] at h

end Sys2Proof.Machine
end

