-- ==== Sys2Proof/Proofs/Maxima.lean ====
section
/-! PROOFS. `BR_RMAX`, `BR_ARGMAX` and `BR_SAMPLE` (R47, R141, R142). -/

namespace Sys2Proof.Machine

variable {s : State} {k q : Nat} {it : Item} {x : Exec} {bad : List Nat} {i : Instr}

/-- A record of 8 bytes: an index, and an element, a NaN canonical (R141). -/
def recordBytes (idx val : Nat) : List Byte := leBytes 4 idx ++ leBytes 4 (if isNaN val then fNaN else val)

theorem putRecord_undamaged (s : State) (k : Nat) (h d : Wide) (idx val : Nat) :
    s.putRecord k h d idx val false = s.coreWrite k 1 (hBASE h + bMOFF d) (recordBytes idx val) false := by
  simp only [State.putRecord, recordBytes, Bool.false_eq_true, false_or]

/-- An undamaged command that puts a record is worked, and the record is in activation memory. -/
theorem brDone_putRecord (s : State) (k q : Nat) (h : Wide) (it : Item) (idx val : Nat) (sat : Bool) :
    let t := (s.putRecord k h it.desc idx val false).brDone k q it none sat
    t.tiles = s.tiles ∧ s.BrayerEnds t k q it (satCodes sat) ∧
      s.BytesBecome t (coreAddr k 1 (hBASE h + bMOFF it.desc)) (recordBytes idx val) := by
  rw [putRecord_undamaged]
  exact brDone_coreWrite (.refl k s) rfl rfl (by norm_num) ..

theorem brRmax_writesTile {c : CoreId} {q : Fin 16} (hworks : s.Works (kOf c) q.val 0x3A it x)
    (hdmg : s.tileDamage (kOf c) bad it.desc it.blen = none) :
    WritesTile (.brRmax c q bad) s (kOf c) q.val it (etSize (bET it.desc))
      [toEt (bET it.desc) (maxOf (s.srcA (kOf c) it.desc it.blen))] := by
  have hexec : exec (.brRmax c q bad) s = .next (s.rmaxWork (kOf c) q.val bad it) :=
    congrArg Host.Outcome.next (work_of_works hworks fun it _ s => s.rmaxWork (kOf c) q.val bad it)
  unfold State.rmaxWork at hexec
  dsimp only at hexec
  rw [hdmg] at hexec
  exact writesTile_of_putTile hexec

/-- The work of an undamaged `BR_ARGMAX`. -/
theorem argmaxWork_undamaged (hdmg : s.tileDamage k bad it.desc it.blen = none) :
    let r := argMax (s.srcA k it.desc it.blen)
    s.argmaxWork k q bad it x = (s.putRecord k (x.handle (bMH it.desc)) it.desc r.1 r.2 false).brDone k q it none false := by
  unfold State.argmaxWork
  dsimp only
  rw [hdmg]
  rfl

/-- The 32 random bits of a draw (R142). -/
def State.drawBits (s : State) (k : Nat) (d : Wide) : Nat :=
  (rand64 (s.rd (aCoreK k 0x2C0)) (BitVec.ofNat 64 (bRSTREAM d)) (BitVec.ofNat 64 (bRCTR d)) 0).toNat / 2 ^ 32

/-- The work of an undamaged `BR_SAMPLE`. -/
theorem sampleWork_undamaged (hdmg : s.tileDamage k bad it.desc it.blen = none) :
    let r := sample (s.drawBits k it.desc) (bASCALE it.desc) (s.tileRead k (tileOp it.desc 64 4 it.blen false))
    s.sampleWork k q bad it x =
      (s.putRecord k (x.handle (bMH it.desc)) it.desc r.1 r.2.1 false).brDone k q it none r.2.2 := by
  unfold State.sampleWork
  dsimp only
  rw [hdmg]
  rfl

/-- Settles O22: the one element of `BR_RMAX`, and the records of the other two. -/
theorem maximaAndSampling : Obligations.MaximaAndSampling := by
  intro c q bad s it x k d n a S ws u elem place hdmg
  have hsrc : s.srcA k d n = a := srcA_eq s k d n
  refine ⟨fun hworks => ?_, fun hworks => ?_, fun hworks => ?_⟩
  · have h := brRmax_writesTile hworks hdmg
    unfold WritesTile at h
    rwa [hsrc, elemBytes, List.flatMap_singleton] at h
  · have hexec : exec (.brArgmax c q bad) s = .next (s.argmaxWork k q.val bad it x) :=
      congrArg Host.Outcome.next (work_of_works hworks fun it x s => s.argmaxWork k q.val bad it x)
    rw [argmaxWork_undamaged hdmg, hsrc] at hexec
    exact ⟨_, hexec, brDone_putRecord ..⟩
  · have hexec : exec (.brSample c q bad) s = .next (s.sampleWork k q.val bad it x) :=
      congrArg Host.Outcome.next (work_of_works hworks fun it x s => s.sampleWork k q.val bad it x)
    rw [sampleWork_undamaged hdmg] at hexec
    exact ⟨_, hexec, brDone_putRecord ..⟩

end Sys2Proof.Machine
end

