-- ==== Sys2Proof/Proofs/RopeAndMoves.lean ====
section
/-! PROOFS. `BR_ROPE`, `BR_LD` and `BR_ST` (R127, R129, R132, R133). -/

namespace Sys2Proof.Machine

variable {s : State} {k q : Nat} {it : Item} {x : Exec} {bad : List Nat}

/-! ## `BR_ROPE` (R132) -/

/-- The two results of pair `j`: A's elements `2j` and `2j + 1` rotated by cosine `c j` and sine `e j`. -/
def ropePair (a c e : Nat → Nat) (j : Nat) : List Nat :=
  [ffma (fneg (a (2 * j + 1))) (e j) (fmul (a (2 * j)) (c j)), ffma (a (2 * j + 1)) (c j) (fmul (a (2 * j)) (e j))]

theorem rope_range (m : Nat) (a c e : Nat → Nat) :
    rope ((List.range (2 * m)).map a) ((List.range m).map c) ((List.range m).map e) = (List.range m).flatMap (ropePair a c e) := by
  induction m generalizing a c e with
  | zero => rfl
  | succ m ih =>
    have hrest := ih (fun j => a (j + 2)) (fun j => c (j + 1)) fun j => e (j + 1)
    rw [show 2 * (m + 1) = 2 * m + 1 + 1 by omega, List.range_succ_eq_map (n := 2 * m + 1), List.range_succ_eq_map (n := 2 * m),
      List.range_succ_eq_map (n := m)]
    simp only [List.map_cons, List.map_map, List.flatMap_cons, List.flatMap_map, rope]
    exact congrArg (ropePair a c e 0 ++ ·) hrest

theorem brRope_writesTile {c : CoreId} {q : Fin 16} (heven : it.blen % 2 = 0) (hworks : s.Works (kOf c) q.val 0x2A it x)
    (hdmg : s.tileDamage (kOf c) bad it.desc it.blen = none) :
    WritesTile (.brRope c q bad) s (kOf c) q.val it (etSize (bET it.desc))
      (((List.range (it.blen / 2)).flatMap (ropePair (s.tileElem (kOf c) it.desc (opA it.desc it.blen))
        (s.tileElem (kOf c) it.desc (opB it.desc (it.blen / 2))) (s.tileElem (kOf c) it.desc (opC it.desc (it.blen / 2))))).map
        (toEt (bET it.desc))) := by
  have h := writesTile_of_brTiles (i := .brRope c q bad) (es := fun d => etSize (bET d)) (nan := fun d => etNaN (bET d))
    (f := fun s d n => (rope (s.srcA (kOf c) d n) (asFp32 (bET d) (s.tileRead (kOf c) (opB d (n / 2))))
      (s.srcC (kOf c) d (n / 2))).map (toEt (bET d))) hworks hdmg rfl
  rw [srcA_eq, srcC_eq, asFp32_tileRead (o := opB it.desc (it.blen / 2)) s (kOf c) it.desc rfl] at h
  have hpairs : List.range it.blen = List.range (2 * (it.blen / 2)) := congrArg _ (by omega)
  have hcosines : (opB it.desc (it.blen / 2)).n = it.blen / 2 := rfl
  rwa [hpairs, hcosines, rope_range] at h

/-! ## Elements of memory (R127, R133) -/

/-- A conversion made of every element, or of none. -/
theorem ite_map_range (p : Prop) [Decidable p] (g v : Nat → Nat) (n : Nat) :
    (if p then ((List.range n).map v).map g else (List.range n).map v) = (List.range n).map fun i => if p then g (v i) else v i := by
  split <;> simp

theorem getElem_leBytes (size n j : Nat) (h : j < (leBytes size n).length) : (leBytes size n)[j] = BitVec.ofNat 8 (n / 256 ^ j) := by
  induction size generalizing n j with
  | zero => exact absurd h (Nat.not_lt_zero j)
  | succ size ih =>
    cases j with
    | zero => simp [leBytes]
    | succ j => simp [leBytes, ih, Nat.pow_succ', Nat.div_div_eq_div_mul]

theorem writeMem_append (m : List Host.Cell) (a : Nat) (bs cs : List Byte) :
    writeMem m a (bs ++ cs) = writeMem (writeMem m a bs) (a + bs.length) cs := by
  induction bs generalizing m a with
  | nil => rfl
  | cons b bs ih => rw [List.cons_append, writeMem, ih, writeMem, List.length_cons, Nat.add_right_comm, Nat.add_assoc]

/-- The memory after elements `v 0` to `v (n − 1)` of `size` bytes were written at their places, one after the other. -/
def putElems (size : Nat) (place v : Nat → Nat) (n : Nat) (m : List Host.Cell) : List Host.Cell :=
  (List.range n).foldl (fun m i => writeMem m (place i) (leBytes size (v i))) m

theorem putElems_succ (size : Nat) (place v : Nat → Nat) (n : Nat) (m : List Host.Cell) :
    putElems size place v (n + 1) m = writeMem (putElems size place v n m) (place n) (leBytes size (v n)) := by
  simp [putElems, List.range_succ]

theorem length_elemBytes (size : Nat) (xs : List Nat) : (elemBytes size xs).length = xs.length * size := by
  simp [elemBytes, List.length_flatMap, length_leBytes]

/-- A run of elements is the same as its elements side by side. -/
theorem writeMem_elemBytes (size a : Nat) (v : Nat → Nat) (n : Nat) (m : List Host.Cell) :
    writeMem m a (elemBytes size ((List.range n).map v)) = putElems size (fun i => a + i * size) v n m := by
  induction n with
  | zero => rfl
  | succ n ih =>
    have hsplit : elemBytes size ((List.range (n + 1)).map v) = elemBytes size ((List.range n).map v) ++ leBytes size (v n) := by
      simp [elemBytes, List.range_succ]
    rw [hsplit, writeMem_append, ih, length_elemBytes, List.length_map, List.length_range, putElems_succ]

/-- Elements that do not overlap read as written; every other byte is as it was. -/
theorem get_putElems {size : Nat} {place : Nat → Nat} (hsep : ∀ i j, i < j → place i + size ≤ place j) (v : Nat → Nat) (n : Nat)
    (m : List Host.Cell) :
    (∀ i j, i < n → j < size → Tbl.get 0 (putElems size place v n m) (place i + j) = BitVec.ofNat 8 (v i / 256 ^ j)) ∧
      ∀ a, (∀ i j, i < n → j < size → a ≠ place i + j) → Tbl.get 0 (putElems size place v n m) a = Tbl.get 0 m a := by
  induction n with
  | zero => exact ⟨fun i j hi => absurd hi (Nat.not_lt_zero i), fun a _ => rfl⟩
  | succ n ih =>
    obtain ⟨hin, hout⟩ := ih
    rw [putElems_succ]
    refine ⟨fun i j hi hj => ?_, fun a ha => ?_⟩
    · rcases Nat.lt_succ_iff_lt_or_eq.1 hi with hlt | rfl
      · have := hsep i n hlt
        rw [get_writeMem_out _ _ _ _ (.inl (by omega)), hin i j hlt hj]
      · have hlen : j < (leBytes size (v i)).length := by rwa [length_leBytes]
        rw [get_writeMem_in _ _ _ _ hlen, getElem_leBytes]
    · have hne : a < place n ∨ place n + (leBytes size (v n)).length ≤ a := by
        rw [length_leBytes]
        by_contra hin
        exact ha n (a - place n) (Nat.lt_succ_self n) (by omega) (by omega)
      rw [get_writeMem_out _ _ _ _ hne]
      exact hout a fun i j hi hj => ha i j (Nat.lt_succ_of_lt hi) hj

/-- Offset of element `i` of a memory operand (R127). -/
def memPlace (h d : Wide) (size i : Nat) : Nat := hBASE h + bMOFF d + i * bMSTRIDE d * size

theorem memPlace_apart {d : Wide} (hstride : bMSTRIDE d ≠ 0) (k : Nat) (h : Wide) (size : Nat) {i j : Nat} (hij : i < j) :
    coreAddr k 1 (memPlace h d size i) + size ≤ coreAddr k 1 (memPlace h d size j) := by
  have hnext : (i * bMSTRIDE d + 1) * size ≤ j * bMSTRIDE d * size := by
    have hmul : (i + 1) * bMSTRIDE d ≤ j * bMSTRIDE d := Nat.mul_le_mul_right _ hij
    rw [Nat.succ_mul] at hmul
    exact Nat.mul_le_mul_right _ (by omega)
  rw [Nat.succ_mul] at hnext
  simp only [memPlace, coreAddr_add]
  omega

/-- Clean element writes into activation memory, one by one. -/
theorem coreWrites_stores (k size : Nat) (place v : Nat → Nat) (l : List Nat) (s : State) :
    let t := l.foldl (fun s i => s.coreWrite k 1 (place i) (leBytes size (v i)) false) s
    State.Stores k false s t ∧
      t.mem = l.foldl (fun m i => writeMem m (coreAddr k 1 (place i)) (leBytes size (v i))) s.mem ∧ t.tiles = s.tiles := by
  induction l generalizing s with
  | nil => exact ⟨.refl k s, rfl, rfl⟩
  | cons i l ih =>
    obtain ⟨hs, hm, ht⟩ := coreWrite_stores (space := 1) (by norm_num) s k (place i) (leBytes size (v i))
    obtain ⟨hs', hm', ht'⟩ := ih (s.coreWrite k 1 (place i) (leBytes size (v i)) false)
    exact ⟨hs.trans hs', by rw [List.foldl_cons, hm', hm]; rfl, ht'.trans ht⟩

/-- R127: elements written through a memory operand, in one run or one by one. -/
theorem putMem_stores (s : State) (k : Nat) (h d : Wide) (size n : Nat) (v : Nat → Nat) :
    let t := s.putMem k 1 h d size ((List.range n).map v) false
    State.Stores k false s t ∧ t.mem = putElems size (fun i => coreAddr k 1 (memPlace h d size i)) v n s.mem ∧ t.tiles = s.tiles := by
  unfold State.putMem
  split
  · next hone =>
    have hplace : (fun i => coreAddr k 1 (memPlace h d size i)) = fun i => coreAddr k 1 (hBASE h + bMOFF d) + i * size := by
      funext i
      rw [memPlace, hone, Nat.mul_one, coreAddr_add _ _ _ (i * size)]
    rw [hplace, ← writeMem_elemBytes]
    exact coreWrite_stores (by norm_num) ..
  · rw [List.length_map, List.length_range, memOffs, List.zip_map', List.foldl_map]
    exact coreWrites_stores k size (memPlace h d size) v (List.range n) s

/-! ## `BR_LD` and `BR_ST` (R133) -/

/-- Element `i` of a memory source of `size` bytes each. -/
def State.memElem (s : State) (k : Nat) (h d : Wide) (size i : Nat) : Nat := s.coreNat k 1 (memPlace h d size i) size

/-- The same as `BR_LD` puts it into its tile. -/
def State.loadElem (s : State) (k : Nat) (h d : Wide) (size i : Nat) : Nat :=
  if hFORMAT h = fBF16 ∧ bET d = 0 then widen (s.memElem k h d size i) else s.memElem k h d size i

theorem brLd_writesTile {c : CoreId} {q : Fin 16} (hworks : s.Works (kOf c) q.val 0x33 it x) :
    let d := it.desc
    let h := x.handle (bMH d)
    let size := fmtBits (hFORMAT h) / 8
    s.memDamage (kOf c) 1 h d size it.blen bad = none →
      WritesTile (.brLd c q bad) s (kOf c) q.val it (etSize (bET d)) ((List.range it.blen).map (s.loadElem (kOf c) h d size)) := by
  intro d h size hdmg
  have hexec : exec (.brLd c q bad) s = .next (s.loadWork (kOf c) q.val bad it x) :=
    congrArg Host.Outcome.next (work_of_works hworks fun it x s => s.loadWork (kOf c) q.val bad it x)
  have hxs : (memOffs h d size it.blen).map (fun o => s.coreNat (kOf c) 1 o size) =
      (List.range it.blen).map (s.memElem (kOf c) h d size) := by
    rw [memOffs, List.map_map]; rfl
  unfold State.loadWork at hexec
  dsimp only at hexec
  rw [hdmg, hxs, ite_map_range] at hexec
  exact writesTile_of_putTile hexec

/-- Pattern `i` of source A as stored. -/
def State.patA (s : State) (k : Nat) (d : Wide) (n i : Nat) : Nat :=
  s.tileNat k (opA d n).tile (((opA d n).off + i * (opA d n).stride) * etSize (bET d)) (etSize (bET d))

/-- The same as `BR_ST` puts it into memory. -/
def State.storeElem (s : State) (k : Nat) (h d : Wide) (n i : Nat) : Nat :=
  if hFORMAT h = fBF16 ∧ bET d = 0 then narrow (s.patA k d n i) else s.patA k d n i

/-- The work of an undamaged `BR_ST`. -/
theorem storeWork_undamaged (hdmg : s.tileDamage k bad it.desc it.blen = none) :
    let d := it.desc
    let h := x.handle (bMH d)
    s.storeWork k q bad it x = (s.putMem k 1 h d (fmtBits (hFORMAT h) / 8)
      ((List.range it.blen).map (s.storeElem k h d it.blen)) false).brDone k q it none false := by
  intro d h
  have hxs : s.tileRead k (opA d it.blen) = (List.range it.blen).map (s.patA k d it.blen) := rfl
  unfold State.storeWork
  dsimp only
  rw [hdmg, hxs, ite_map_range]
  rfl

/-- Settles O19: the pairs of `BR_ROPE`, and the elements that `BR_LD` and `BR_ST` move. -/
theorem brayerRopeAndMoves : Obligations.BrayerRopeAndMoves := by
  refine ⟨fun c q bad s it x => ?_, fun c q bad s it x => ?_⟩
  · intro k d n a b e D heven hworks hdmg
    have h := brRope_writesTile heven hworks hdmg
    rwa [List.map_flatMap] at h
  · intro k d n h size place cross es
    refine ⟨fun hworks hdmg => brLd_writesTile hworks hdmg, fun hworks hdmg hstride => ?_⟩
    have hexec : exec (.brSt c q bad) s = .next (s.storeWork k q.val bad it x) :=
      congrArg Host.Outcome.next (work_of_works hworks fun it x s => s.storeWork k q.val bad it x)
    rw [storeWork_undamaged hdmg] at hexec
    obtain ⟨hstores, hmem, htiles⟩ := putMem_stores s k h d size n (s.storeElem k h d n)
    obtain ⟨hend, hmem', htiles'⟩ := hstores.brDone q.val it false
    obtain ⟨hin, hout⟩ := get_putElems (fun i j => memPlace_apart hstride k h size) (s.storeElem k h d n) n s.mem
    refine ⟨_, hexec, htiles'.trans htiles, hend, fun i j hi hj => ?_, fun o ho => ?_⟩
    · rw [State.byte, hmem', hmem, coreAddr_add]
      exact hin i j hi hj
    · rw [State.byte, hmem', hmem]
      exact hout o fun i j hi hj => by rw [← coreAddr_add]; exact ho i j hi hj

end Sys2Proof.Machine
end

