-- ==== Sys2Proof/Proofs/Patches.lean ====
section
/-! PROOFS. Descriptor templates and their patches (R164 to R166). -/

namespace Sys2Proof.Machine

variable {sreg : Nat → Word} {sb slot n : Nat} {d : Wide}

/-- A slot of mode 0 patches nothing. -/
theorem patchOne_none (h : bits slot 14 2 = 0) : patchOne sreg sb slot n d = some d := if_pos h

section InRange

variable (hreg : sb + n ≤ 31) (hfield : bits slot 0 8 + (bits slot 8 6 + 1) ≤ 256)

include hreg hfield

/-- A slot of another mode names a register and a field that exist. -/
theorem patchOne_inRange (hmode : bits slot 14 2 ≠ 0) :
    let off := bits slot 0 8
    let w := bits slot 8 6 + 1
    let v := sreg (sb + n)
    patchOne sreg sb slot n d =
      if bits slot 14 2 = 1 ∧ 2 ^ w ≤ v.toNat then none
      else if bits slot 14 2 = 2 ∧ (v.toInt < -(2 ^ (w - 1) : Int) ∨ (2 ^ (w - 1) : Int) - 1 < v.toInt) then none
      else some (putW d off w (if bits slot 14 2 = 3 then getW d off w + v.toNat else v.toNat)) := by
  unfold patchOne
  dsimp only
  rw [if_neg hmode, if_neg (by omega), if_neg (by omega)]

theorem patchOne_unsigned (hmode : bits slot 14 2 = 1) : patchOne sreg sb slot n d =
    if (sreg (sb + n)).toNat < 2 ^ (bits slot 8 6 + 1) then
      some (putW d (bits slot 0 8) (bits slot 8 6 + 1) (sreg (sb + n)).toNat) else none := by
  rw [patchOne_inRange hreg hfield (by omega)]
  by_cases hfits : (sreg (sb + n)).toNat < 2 ^ (bits slot 8 6 + 1)
  · rw [if_neg (by omega), if_neg (by omega), if_neg (by omega), if_pos hfits]
  · rw [if_pos ⟨hmode, by omega⟩, if_neg hfits]

theorem patchOne_signed (hmode : bits slot 14 2 = 2) : patchOne sreg sb slot n d =
    if -(2 ^ (bits slot 8 6 + 1 - 1) : Int) ≤ (sreg (sb + n)).toInt ∧ (sreg (sb + n)).toInt < 2 ^ (bits slot 8 6 + 1 - 1) then
      some (putW d (bits slot 0 8) (bits slot 8 6 + 1) (sreg (sb + n)).toNat) else none := by
  rw [patchOne_inRange hreg hfield (by omega)]
  generalize (2 ^ (bits slot 8 6 + 1 - 1) : Int) = bound
  by_cases hfits : -bound ≤ (sreg (sb + n)).toInt ∧ (sreg (sb + n)).toInt < bound
  · rw [if_neg (by omega), if_neg (by omega), if_neg (by omega), if_pos hfits]
  · rw [if_neg (by omega), if_pos ⟨hmode, by omega⟩, if_neg hfits]

theorem patchOne_adds (hmode : bits slot 14 2 = 3) : patchOne sreg sb slot n d =
    some (putW d (bits slot 0 8) (bits slot 8 6 + 1) (getW d (bits slot 0 8) (bits slot 8 6 + 1) + (sreg (sb + n)).toNat)) := by
  rw [patchOne_inRange hreg hfield (by omega), if_neg (by omega), if_neg (by omega), if_pos hmode]

end InRange

/-- R164: a template of zero reserved bytes and no patch gives its own descriptor. -/
theorem buildDesc_unpatched {tpl : Nat} (hreserved : bits tpl 320 192 = 0)
    (hslots : ∀ n, n < 4 → bits (bits tpl (256 + 16 * n) 16) 14 2 = 0) :
    buildDesc tpl sreg sb = some (BitVec.ofNat 256 (bits tpl 0 256)) := by
  have hfold (d : Wide) (l : List Nat) (hl : ∀ n ∈ l, n < 4) : l.foldl (fun (d : Option Wide) n =>
      d.bind (patchOne sreg sb (bits tpl (256 + 16 * n) 16) n)) (some d) = some d := by
    induction l with
    | nil => rfl
    | cons n l ih =>
      rw [List.foldl_cons, Option.bind_some, patchOne_none (hslots n (hl n List.mem_cons_self))]
      exact ih fun j hj => hl j (List.mem_cons_of_mem _ hj)
  unfold buildDesc
  rw [if_neg (not_not.2 hreserved)]
  exact hfold _ _ fun n hn => List.mem_range.1 hn

end Sys2Proof.Machine
end

