-- ==== Sys2Proof/Proofs/Pushes.lean ====
section
/-! PROOFS. `PUSH`: delivery, the skip ledger, its stall and its faults (R122, R155, R164 to R170). -/

namespace Sys2Proof.Machine

variable {s t u : State} {k q : Nat} {d : Wide} {del : Bool}

/-! ## A compositor's fault (R155, R443) -/

/-- Where core `k` has halted, it is as it was, but that it may have been disarmed. -/
structure State.HaltStands (k : Nat) (s t : State) : Prop where
  core : (s.core k).run = false → t.core k = { s.core k with armed := (t.core k).armed }

namespace State.HaltStands

theorem of_core (h : t.core k = s.core k) : State.HaltStands k s t := ⟨fun _ => by rw [h]⟩

theorem of_cores (h : t.cores = s.cores) : State.HaltStands k s t := of_core (by rw [State.core, h]; rfl)

theorem trans (h : State.HaltStands k s t) (h' : State.HaltStands k t u) : State.HaltStands k s u where
  core hrun := by
    have ht := h.core hrun
    have hu := h'.core (by rw [ht]; exact hrun)
    rw [hu, ht]

theorem foldl {α : Type} {f : State → α → State} (hf : ∀ t x, State.HaltStands k t (f t x)) (l : List α) (s : State) :
    State.HaltStands k s (l.foldl f s) := by
  induction l generalizing s with
  | nil => exact of_core rfl
  | cons x l ih => exact (hf s x).trans (ih _)

theorem ite {c : Prop} [Decidable c] (h : State.HaltStands k s t) (h' : State.HaltStands k s u) :
    State.HaltStands k s (if c then t else u) := by split <;> assumption

theorem cmpStop (s : State) (j : Nat) : State.HaltStands k s (s.cmpStop j) := by
  by_cases hj : k = j
  · subst hj
    refine ⟨fun hrun => ?_⟩
    rw [State.cmpStop, State.core_modCore, if_neg (by rw [hrun]; exact Bool.false_ne_true)]
  · exact of_core (State.core_modCore_ne _ _ hj)

theorem stopPart (s : State) (p : Nat) : State.HaltStands k s (s.stopPart p) := by
  have hstop : State.HaltStands k s ((s.started p).foldl State.cmpStop s) := foldl (fun t j => cmpStop t j) _ _
  unfold State.stopPart
  dsimp only
  refine ite (hstop.trans (of_cores ?_)) (of_cores rfl)
  split <;> rfl

theorem raise (s : State) (r : ErrRec) : State.HaltStands k s (s.raise r) := by
  have hrecord : ∀ (t : State), t.cores = s.cores → State.HaltStands k s (t.timingLost r.part) := fun t h =>
    of_cores ((timingLost_cores t r.part).trans h)
  unfold State.raise
  dsimp only
  refine ite ((hrecord _ ?_).trans (stopPart _ _)) (hrecord _ ?_)
  all_goals split <;> rfl

end State.HaltStands

/-- R155: the compositor halts where it stands with its code, its queues as they were. -/
theorem cmpFault_spec (s : State) (k code : Nat) :
    let x := s.core k
    let y := (s.cmpFault k code).core k
    y.run = false ∧ y.haltCode = code ∧ y.haltAddr = x.pc ∧ y.fifo = x.fifo ∧ y.seqs = x.seqs ∧ (s.cmpFault k code).mem = s.mem := by
  intro x y
  have hhalt : (s.modCore k fun c => c.halt code false).core k = x.halt code false := State.core_modCore ..
  have hy : y = { x.halt code false with armed := y.armed } := by
    rw [← hhalt]
    exact (State.HaltStands.raise _ _).core (by rw [hhalt]; rfl)
  have hmem : (s.cmpFault k code).mem = s.mem := by
    rw [State.cmpFault, raise_frame]
    rfl
  rw [hy]
  exact ⟨rfl, rfl, rfl, rfl, rfl, hmem⟩

/-! ## What a push leaves (R122, R168, R169) -/

/-- Core `c` with `d` delivered to queue `q` under brayer length `b`, or skipped. -/
def Core.pushed (c : Core) (q : Nat) (d : Wide) (b : Nat) (del : Bool) : Core :=
  let n := Tbl.get 0 c.seqs q
  let y : Core := { c with seqs := Tbl.set 0 c.seqs q (n + 1) }
  let enters := fun (b : Nat) (ph : Phase) =>
    ({ y with fifo := Tbl.set [] c.fifo q (c.queue q ++ [⟨n, c.ord, d, b, false, ph⟩]), ord := c.ord + 1 } : Core)
  if del = true then enters b .waiting else if dSIG d = true then enters 0 .skipped else y

theorem pushed_registers (c : Core) (q : Nat) (d : Wide) (b : Nat) (del : Bool) :
    (c.pushed q d b del).sreg = c.sreg ∧ (c.pushed q d b del).pred = c.pred ∧ (c.pushed q d b del).lc = c.lc := by
  unfold Core.pushed
  split_ifs <;> exact ⟨rfl, rfl, rfl⟩

/-- A core that has gone on after a push, other instruction lines and a new census count apart. -/
theorem goesOn_pushed {x y : Core} {lines : List (Nat × List Byte)} {fills : List Nat} {b : Nat}
    (h : y = { (({ x with icache := lines, fills := fills } : Core).pushed q d b del).goOn x.pc.toNat with census := y.census }) :
    (({ x with census := y.census } : Core).pushed q d b del).GoesOn y := by
  generalize y.census = n at h
  subst h
  unfold Core.pushed
  split_ifs <;> exact ⟨rfl, rfl, rfl, rfl, rfl⟩

/-- From `s`, core `k` has at most fetched and then pushed; the register of brayer lengths alone may differ beside it. -/
structure State.Pushes (k q : Nat) (d : Wide) (del : Bool) (s t : State) : Prop where
  core : ∃ lines fills, t.core k = ({ s.core k with icache := lines, fills := fills } : Core).pushed q d (t.boundLen k q) del
  others : ∀ j, j ≠ k → t.core j = s.core j
  frame : t = { s with cores := t.cores, ctl := t.ctl }
  rd : ∀ a, a ≠ aBrLen k → t.rd a = s.rd a
  len : if del = true ∧ dOP d = 0x20 ∧ setlenOk d = true then t.fld (aBrLen k) ((q - 4) * 16) 14 = bLEN d else t.ctl = s.ctl

/-- R122: a `BR_SETLEN` goes to a queue of the brayer. -/
theorem brayerQueue_of_setlen (hengine : engineOf (dOP d) = some (queueEngine q)) (hop : dOP d = 0x20) : 4 ≤ q ∧ q < 8 := by
  rw [hop] at hengine
  have hone : queueEngine q = 1 := (Option.some.inj hengine).symm
  unfold queueEngine at hone
  split_ifs at hone <;> omega

/-- A push under the brayer lengths of `w`, which differs from `s` in them alone. -/
theorem modCore_pushed_pushes {w : State} (hframe : w = { s with ctl := w.ctl }) (hrd : ∀ a, a ≠ aBrLen k → w.rd a = s.rd a)
    (hlen : if del = true ∧ dOP d = 0x20 ∧ setlenOk d = true then w.fld (aBrLen k) ((q - 4) * 16) 14 = bLEN d else w.ctl = s.ctl) :
    State.Pushes k q d del s (w.modCore k fun c => c.pushed q d (w.boundLen k q) del) := by
  have hcore : ∀ j, w.core j = s.core j := fun j => by rw [hframe]; rfl
  refine ⟨⟨(s.core k).icache, (s.core k).fills, ?_⟩, fun j hj => ?_, ?_, hrd, hlen⟩
  · rw [State.core_modCore, hcore]; rfl
  · rw [State.core_modCore_ne _ _ hj, hcore]
  · exact congrArg (fun v : State => { v with cores := (w.modCore k fun c => c.pushed q d (w.boundLen k q) del).cores }) hframe

theorem deliver_pushes (hengine : engineOf (dOP d) = some (queueEngine q)) (s : State) :
    State.Pushes k q d true s (s.deliver k q d) := by
  unfold State.deliver
  split
  · next hset =>
    obtain ⟨hop, hok⟩ := hset
    refine modCore_pushed_pushes rfl (fun a ha => rd_setFld_other _ _ _ _ _ _ ha) ?_
    have hq := brayerQueue_of_setlen hengine hop
    rw [if_pos ⟨rfl, hop, hok⟩, fld_setFld _ _ _ _ _ (by omega)]
    exact Nat.mod_eq_of_lt (bits_lt ..)
  · next hset =>
    refine modCore_pushed_pushes (w := s) rfl (fun _ _ => rfl) ?_
    rw [if_neg fun h => hset h.2]

theorem skip_pushes (k q : Nat) (d : Wide) (s : State) : State.Pushes k q d false s (s.skip k q d) :=
  modCore_pushed_pushes (w := s) rfl (fun _ _ => rfl) (by rw [if_neg fun h => Bool.false_ne_true h.1])

theorem pushNow_pushes (hengine : engineOf (dOP d) = some (queueEngine q)) (s : State) (del : Bool) :
    State.Pushes k q d del s (s.pushNow k q d del) := by
  cases del with
  | true => exact deliver_pushes hengine s
  | false => exact skip_pushes k q d s

/-- A fetch asks for lines of instructions alone. -/
theorem Core.fetched_eq (c : Core) : c.fetched = { c with icache := c.fetched.icache, fills := c.fetched.fills } := by
  unfold Core.fetched Core.want
  split <;> rfl

theorem State.Pushes.of_fetched (h : State.Pushes k q d del (s.modCore k Core.fetched) t) : State.Pushes k q d del s t where
  core := by
    obtain ⟨lines, fills, hcore⟩ := h.core
    rw [State.core_modCore, Core.fetched_eq] at hcore
    exact ⟨lines, fills, hcore⟩
  others j hj := (h.others j hj).trans (State.core_modCore_ne _ _ hj)
  frame := h.frame
  rd := h.rd
  len := h.len

/-! ## What is left once the core has gone on -/

/-- `d` stands at the end of queue `q` of core `k`, or in its skip ledger, or is counted alone; the core has gone on. -/
def State.PushLands (s t : State) (k q : Nat) (d : Wide) (del : Bool) : Prop :=
  let x := s.core k
  (({ x with census := (t.core k).census } : Core).pushed q d (t.boundLen k q) del).GoesOn (t.core k) ∧
    (t.core k).sreg = x.sreg ∧ (t.core k).pred = x.pred ∧ (t.core k).lc = x.lc ∧ (∀ j, j ≠ k → t.core j = s.core j) ∧
    t = { s with cores := t.cores, lineQ := t.lineQ, ctl := t.ctl } ∧ (∀ a, a ≠ aBrLen k → t.rd a = s.rd a) ∧
    (if del = true ∧ dOP d = 0x20 ∧ setlenOk d = true then t.fld (aBrLen k) ((q - 4) * 16) 14 = bLEN d else t.ctl = s.ctl)

theorem State.Pushes.lands (h : State.Pushes k q d del s u) (hframe : t = { u with cores := t.cores, lineQ := t.lineQ })
    (hothers : ∀ j, j ≠ k → t.core j = u.core j)
    (hcore : t.core k = { (u.core k).goOn (s.core k).pc.toNat with census := (t.core k).census }) : s.PushLands t k q d del := by
  obtain ⟨lines, fills, hpushed⟩ := h.core
  have hctl : t.ctl = u.ctl := by rw [hframe]
  have hrd : ∀ a, t.rd a = u.rd a := fun a => by rw [State.rd, hctl]; rfl
  have hfld : ∀ a lo w, t.fld a lo w = u.fld a lo w := fun a lo w => by rw [State.fld, hrd]; rfl
  have hbound : u.boundLen k q = t.boundLen k q := by rw [State.boundLen, State.boundLen, hfld]
  rw [hpushed, hbound] at hcore
  obtain ⟨hsreg, hpred, hlc⟩ := pushed_registers { s.core k with icache := lines, fills := fills } q d (t.boundLen k q) del
  refine ⟨goesOn_pushed hcore, ?_, ?_, ?_, fun j hj => (hothers j hj).trans (h.others j hj), ?_,
    fun a ha => (hrd a).trans (h.rd a ha), ?_⟩
  · rw [hcore]; exact hsreg
  · rw [hcore]; exact hpred
  · rw [hcore]; exact hlc
  · exact hframe.trans (by rw [hctl]; exact congrArg (fun v : State => { v with cores := t.cores, lineQ := t.lineQ }) h.frame)
  · rw [hfld, hctl]; exact h.len

/-! ## The instruction (R165, R169, R170) -/

/-- A queue or ledger that holds back a push, in words. -/
theorem pushBlocked_iff (c : Core) (q : Nat) (d : Wide) (del : Bool) : c.pushBlocked q d del = true ↔
    if del = true then queueDepth q ≤ c.depth q else dSIG d = true ∧ 8 ≤ c.ledger q := by
  unfold Core.pushBlocked
  cases del <;> simp

theorem pushBlocked_fetched (c : Core) (q : Nat) (d : Wide) (del : Bool) : c.fetched.pushBlocked q d del = c.pushBlocked q d del := by
  rw [Core.fetched_eq]
  rfl

section Push

variable {c : CoreId} {p : BitVec 3} {neg : Bool} {queue : BitVec 4} {tpl : BitVec 10} {sb : BitVec 5}

/-- The word of a `PUSH`. -/
def pushWord (p : BitVec 3) (neg : Bool) (queue : BitVec 4) (tpl : BitVec 10) (sb : BitVec 5) : BitVec 32 :=
  0x28#6 ++ p ++ BitVec.ofBool neg ++ queue ++ tpl ++ sb ++ 0#3

/-- The descriptor that a `PUSH` of core `k` builds (R165). -/
def State.built (s : State) (k : Nat) (tpl : BitVec 10) (sb : BitVec 5) : Option Wide :=
  buildDesc (s.template k tpl.toNat) (fun r => (s.core k).rdS (BitVec.ofNat 5 r)) sb.toNat

/-- What a `PUSH` of core `k` does once it is fetched. -/
def State.pushAct (s : State) (k : Nat) (p : BitVec 3) (neg : Bool) (queue : BitVec 4) (tpl : BitVec 10) (sb : BitVec 5) : IRes :=
  match s.built k tpl sb with
  | none => .fault cFORMAT
  | some d =>
    if engineOf (dOP d) ≠ some (queueEngine queue.toNat) then .fault cFORMAT
    else if (s.core k).pushBlocked queue.toNat d ((s.core k).rdP p ^^ neg) then
      .wait s (.push queue.toNat d ((s.core k).rdP p ^^ neg))
    else .done (s.pushNow k queue.toNat d ((s.core k).rdP p ^^ neg))

theorem exec_push (h : s.Fetches (kOf c) (pushWord p neg queue tpl sb)) :
    exec (.push c p neg queue tpl sb 0) s = .next (((s.modCore (kOf c) Core.fetched).retire (kOf c)
      ((s.modCore (kOf c) Core.fetched).pushAct (kOf c) p neg queue tpl sb)).queueLines (kOf c)) :=
  congrArg Host.Outcome.next (State.instr_fetches h noStall fun s => s.pushAct (kOf c) p neg queue tpl sb)

theorem built_fetched (s : State) (k : Nat) (tpl : BitVec 10) (sb : BitVec 5) :
    (s.modCore k Core.fetched).built k tpl sb = s.built k tpl sb := by
  unfold State.built
  rw [State.core_modCore]
  simp only [Core.fetched_rdS]
  rfl

theorem pushAct_fault (h : s.built k tpl sb = none ∨
      (s.built k tpl sb = some d ∧ engineOf (dOP d) ≠ some (queueEngine queue.toNat))) :
    s.pushAct k p neg queue tpl sb = .fault cFORMAT := by
  unfold State.pushAct
  obtain hnone | ⟨hsome, hengine⟩ := h
  · rw [hnone]
  · rw [hsome]
    exact if_pos hengine

theorem pushAct_built (hbuilt : s.built k tpl sb = some d) (hengine : engineOf (dOP d) = some (queueEngine queue.toNat)) :
    s.pushAct k p neg queue tpl sb =
      if (s.core k).pushBlocked queue.toNat d ((s.core k).rdP p ^^ neg) then
        .wait s (.push queue.toNat d ((s.core k).rdP p ^^ neg))
      else .done (s.pushNow k queue.toNat d ((s.core k).rdP p ^^ neg)) := by
  unfold State.pushAct
  rw [hbuilt]
  exact if_neg (not_not.2 hengine)

/-- R160: an instruction that is done goes on from where it was fetched. -/
theorem retire_done (s u : State) (k : Nat) :
    (s.modCore k Core.fetched).retire k (.done u) = u.modCore k fun c => c.goOn (s.core k).pc.toNat := by
  simp only [State.retire, State.core_modCore, Core.fetched_pc]

theorem push_faults (h : s.Fetches (kOf c) (pushWord p neg queue tpl sb))
    (hbad : s.built (kOf c) tpl sb = none ∨
      (s.built (kOf c) tpl sb = some d ∧ engineOf (dOP d) ≠ some (queueEngine queue.toNat))) :
    let x := s.core (kOf c)
    ∃ t, exec (.push c p neg queue tpl sb 0) s = .next t ∧ (t.core (kOf c)).run = false ∧ (t.core (kOf c)).haltCode = 0x04 ∧
      (t.core (kOf c)).haltAddr = x.pc ∧ (t.core (kOf c)).fifo = x.fifo ∧ (t.core (kOf c)).seqs = x.seqs ∧ t.mem = s.mem := by
  intro x
  have hexec := exec_push h
  rw [← built_fetched] at hbad
  rw [pushAct_fault hbad] at hexec
  obtain ⟨hrun, hcode, haddr, hfifo, hseqs, hmem⟩ := cmpFault_spec (s.modCore (kOf c) Core.fetched) (kOf c) cFORMAT
  rw [State.core_modCore, Core.fetched_eq] at haddr hfifo hseqs
  exact ⟨_, hexec, hrun, hcode, haddr, hfifo, hseqs, hmem⟩

theorem push_stalls (h : s.Fetches (kOf c) (pushWord p neg queue tpl sb)) (hbuilt : s.built (kOf c) tpl sb = some d)
    (hengine : engineOf (dOP d) = some (queueEngine queue.toNat)) :
    let x := s.core (kOf c)
    let del := x.rdP p ^^ neg
    x.pushBlocked queue.toNat d del = true →
      ∃ t, exec (.push c p neg queue tpl sb 0) s = .next t ∧ s.OnlyCore (kOf c) t ∧ x.SameBut (t.core (kOf c)) ∧
        (t.core (kOf c)).stall = .push queue.toNat d del ∧ (t.core (kOf c)).pc = x.pc ∧ (t.core (kOf c)).retired = x.retired := by
  intro x del hblocked
  have hexec := exec_push h
  rw [← built_fetched] at hbuilt
  rw [pushAct_built hbuilt hengine, State.core_modCore, pushBlocked_fetched, Core.fetched_rdP, if_pos hblocked] at hexec
  refine ⟨_, hexec, ((State.onlyCore_setCore s _ _).trans (State.onlyCore_setCore ..)).trans (State.onlyCore_queueLines ..), ?_⟩
  have hcore : (((s.modCore (kOf c) Core.fetched).retire (kOf c) (.wait (s.modCore (kOf c) Core.fetched)
      (.push queue.toNat d del))).queueLines (kOf c)).core (kOf c) = { x.fetched with stall := .push queue.toNat d del } := by
    simp only [State.core_queueLines, State.retire, State.core_modCore]
    rfl
  rw [hcore]
  exact ⟨x.sameBut_fetched.trans rfl, rfl, x.fetched_pc, x.fetched_retired⟩

theorem push_lands (h : s.Fetches (kOf c) (pushWord p neg queue tpl sb)) (hbuilt : s.built (kOf c) tpl sb = some d)
    (hengine : engineOf (dOP d) = some (queueEngine queue.toNat)) :
    let del := (s.core (kOf c)).rdP p ^^ neg
    (s.core (kOf c)).pushBlocked queue.toNat d del ≠ true →
      ∃ t, exec (.push c p neg queue tpl sb 0) s = .next t ∧ s.PushLands t (kOf c) queue.toNat d del := by
  intro del hfree
  have hexec := exec_push h
  rw [← built_fetched] at hbuilt
  rw [pushAct_built hbuilt hengine, State.core_modCore, pushBlocked_fetched, Core.fetched_rdP, if_neg hfree,
    retire_done] at hexec
  have hpushes := (pushNow_pushes (k := kOf c) hengine (s.modCore (kOf c) Core.fetched) del).of_fetched
  refine ⟨_, hexec, hpushes.lands rfl (fun j hj => (State.core_queueLines ..).trans (State.core_modCore_ne _ _ hj)) ?_⟩
  rw [State.core_queueLines, State.core_modCore]

/-- R169, R170: a stalled push whose queue or ledger has room. -/
theorem pushStallEnd_lands (hpow : s.powered = true) (hrun : (s.core (kOf c)).run = true) (hfrozen : (s.core (kOf c)).frozen = false)
    (hstall : (s.core (kOf c)).stall = .push q d del) (hengine : engineOf (dOP d) = some (queueEngine q))
    (hfree : (s.core (kOf c)).pushBlocked q d del ≠ true) :
    ∃ t, exec (.pushStallEnd c) s = .next t ∧ s.PushLands t (kOf c) q d del := by
  have hpushes := pushNow_pushes (k := kOf c) hengine s del
  have hpc : ((s.pushNow (kOf c) q d del).core (kOf c)).pc = (s.core (kOf c)).pc := by
    obtain ⟨lines, fills, hcore⟩ := hpushes.core
    rw [hcore]
    unfold Core.pushed
    split_ifs <;> rfl
  have hend : s.endPush (kOf c) = ((s.pushNow (kOf c) q d del).modCore (kOf c) fun c => c.goOn c.pc.toNat).touch (kOf c) := by
    unfold State.endPush
    dsimp only
    rw [hstall]
    exact if_pos (by simp [hpow, hrun, hfrozen, hfree])
  refine ⟨_, congrArg Host.Outcome.next hend, hpushes.lands rfl (fun j hj => ?_) ?_⟩
  · rw [State.touch, State.core_modCore_ne _ _ hj, State.core_modCore_ne _ _ hj]
  · rw [State.touch, State.core_modCore, State.core_modCore, hpc]

end Push

/-- Settles O15: the push that lands, stalls or faults, its stall's end, and the patches of its descriptor. -/
theorem pushAndPatches : Obligations.PushAndPatches := by
  refine ⟨fun c p neg queue tpl sb d s => ?_, fun tpl sreg sb hreserved hslots => buildDesc_unpatched hreserved hslots,
    fun sreg sb slot n d => ?_⟩
  · intro k q x i built full lands
    have hfull : ∀ del, x.pushBlocked q d del = true ↔ full del := fun del => pushBlocked_iff x q d del
    refine ⟨fun hfetch => ⟨fun hbad => push_faults hfetch hbad, fun hbuilt hengine => ?_⟩,
      fun hpow hrun hfrozen hengine del hstall hfree => ?_⟩
    · intro del
      exact ⟨fun hfree => push_lands hfetch hbuilt hengine (mt (hfull del).1 hfree),
        fun hblocked => push_stalls hfetch hbuilt hengine ((hfull del).2 hblocked)⟩
    · exact pushStallEnd_lands hpow hrun hfrozen hstall hengine (mt (hfull del).1 hfree)
  · intro off w v hreg hfield
    exact ⟨patchOne_unsigned hreg hfield, patchOne_signed hreg hfield, patchOne_adds hreg hfield⟩

end Sys2Proof.Machine
end

