-- ==== Sys2Proof/Proofs/InstructionRules.lean ====
section
/-! PROOFS. One instruction of a compositor: what it leaves where it is done, branches, stalls or faults (R151, R154, R155, R160,
R163). -/

namespace Sys2Proof.Machine

variable {s u : State} {k : Nat} {w : BitVec 32} {i : Instr} {again : Stall → Bool} {act : State → IRes}

/-! ## What a fetch leaves -/

@[simp] theorem Core.fetched_inWindow (c : Core) (a : Nat) : c.fetched.inWindow a = c.inWindow a := by rw [Core.fetched_eq]; rfl
@[simp] theorem Core.fetched_handle (c : Core) (h : Nat) : c.fetched.handle h = c.handle h := by rw [Core.fetched_eq]; rfl
@[simp] theorem Core.fetched_primes (c : Core) : c.fetched.primes = c.primes := by rw [Core.fetched_eq]
@[simp] theorem Core.fetched_passCount (c : Core) : c.fetched.passCount = c.passCount := by rw [Core.fetched_eq]
@[simp] theorem Core.fetched_fifo (c : Core) : c.fetched.fifo = c.fifo := by rw [Core.fetched_eq]

/-! ## The five ends of an instruction -/

/-- Core `k` alone differs after an instruction whose effect is confined to it. -/
theorem State.onlyCore_instruction (hu : (s.modCore k Core.fetched).OnlyCore k u) (f : Core → Core) :
    s.OnlyCore k ((u.modCore k f).queueLines k) :=
  (((s.onlyCore_setCore k _).trans hu).trans (u.onlyCore_setCore k _)).trans (State.onlyCore_queueLines _ k)

theorem State.OnlyCore.refl (s : State) (k : Nat) : s.OnlyCore k s := ⟨rfl, fun _ _ => rfl, [], by simp, by simp⟩

/-- R155: an instruction with reserved bits set faults, whatever it would do. -/
theorem State.instr_reserved (s : State) (k : Nat) (w : BitVec 32) (again : Stall → Bool) (act : State → IRes) :
    s.instr k w false again act = s.instr k w true again fun _ => .fault cFORMAT := rfl

theorem State.instr_done (h : s.Fetches k w) (hact : act (s.modCore k Core.fetched) = .done u) :
    s.instr k w true again act = (u.modCore k fun c => c.goOn (s.core k).pc.toNat).queueLines k := by
  rw [State.instr_fetches h, hact, retire_done]

theorem State.instr_jump {t : BitVec 22} (h : s.Fetches k w) (hact : act (s.modCore k Core.fetched) = .jump u t) :
    s.instr k w true again act = (u.modCore k fun c => c.jump t).queueLines k := by
  rw [State.instr_fetches h, hact]; rfl

theorem State.instr_skip {last : Nat} (h : s.Fetches k w) (hact : act (s.modCore k Core.fetched) = .skip u last) :
    s.instr k w true again act = (u.modCore k fun c => c.goOn last).queueLines k := by
  rw [State.instr_fetches h, hact]; rfl

theorem State.instr_wait {x : Stall} (h : s.Fetches k w) (hact : act (s.modCore k Core.fetched) = .wait u x) :
    s.instr k w true again act = (u.modCore k fun c => { c with stall := x }).queueLines k := by
  rw [State.instr_fetches h, hact]; rfl

theorem State.instr_fault {code : Nat} (h : s.Fetches k w) (hact : act (s.modCore k Core.fetched) = .fault code) :
    s.instr k w true again act = ((s.modCore k Core.fetched).cmpFault k code).queueLines k := by
  rw [State.instr_fetches h, hact]; rfl

@[simp] theorem Core.goOn_retired (c : Core) (a : Nat) : (c.goOn a).retired = c.retired + 1 := rfl
@[simp] theorem Core.goOn_stall (c : Core) (a : Nat) : (c.goOn a).stall = .none := rfl
@[simp] theorem Core.goOn_loops (c : Core) (a : Nat) : (c.goOn a).loops = (stepLoops a c.loops).1 := rfl
@[simp] theorem Core.goOn_pc (c : Core) (a : Nat) : (c.goOn a).pc = BitVec.ofNat 22 ((stepLoops a c.loops).2.getD (a + 4)) := rfl

/-- R160: a core whose loops are as they were goes on from where it was. -/
theorem Core.advances_goOn {c y : Core} (hloops : y.loops = c.loops) (hretired : y.retired = c.retired) :
    c.Advances (y.goOn c.pc.toNat) := by
  refine ⟨?_, Core.goOn_stall .., ?_, ?_⟩
  · rw [Core.goOn_retired, hretired]
  · rw [Core.goOn_loops, hloops]
  · rw [Core.goOn_pc, hloops]

theorem Core.goesOn_of_fetched {c y : Core} (hsame : c.fetched.SameBut y) (hloops : y.loops = c.loops)
    (hretired : y.retired = c.retired) : c.GoesOn (y.goOn c.pc.toNat) :=
  ⟨(c.sameBut_fetched.trans hsame).trans (y.sameBut_goOn _), Core.advances_goOn hloops hretired⟩

/-! ## Results in a register or a predicate (R151, R154) -/

theorem Core.writes_of_wrS {c y : Core} {rd : BitVec 5} {v : Word} (hsreg : y.sreg = (c.wrS rd v).sreg) (hpred : y.pred = c.pred)
    (hlc : y.lc = c.lc) : c.Writes y rd v := by
  refine ⟨fun r => ?_, hpred, hlc⟩
  rw [← Core.rdS_wrS, Core.rdS, hsreg]
  rfl

theorem Core.fetched_wrS_sreg (c : Core) (rd : BitVec 5) (v : Word) : (c.fetched.wrS rd v).sreg = (c.wrS rd v).sreg := by
  unfold Core.wrS
  split <;> simp

/-- An instruction that is done, having written register `rd` of its core alone. -/
theorem scalarResult_of_done {rd : BitVec 5} {v : Word} (h : s.Fetches k w)
    (hexec : exec i s = .next (s.instr k w true again act)) (hact : act (s.modCore k Core.fetched) = .done u)
    (honly : (s.modCore k Core.fetched).OnlyCore k u) (hcore : u.core k = (s.core k).fetched.wrS rd v) :
    ScalarResult i s k rd v := by
  refine ⟨_, hexec.trans (congrArg _ (State.instr_done h hact)), State.onlyCore_instruction honly _, ?_, ?_⟩
  · rw [State.core_queueLines, State.core_modCore, hcore]
    exact Core.goesOn_of_fetched (Core.sameBut_wrS ..) (by simp) (by simp)
  · rw [State.core_queueLines, State.core_modCore, hcore]
    exact Core.writes_of_wrS (Core.fetched_wrS_sreg ..) (by simp) (by simp)

/-- One that writes a register with what it reads of its core. -/
theorem scalarResult_onCore {rd : BitVec 5} {v : Word} (h : s.Fetches k w) (g : Core → Word)
    (hexec : exec i s = .next (s.instr k w true again fun s => s.onCore k fun c => c.wrS rd (g c)))
    (hv : g (s.core k).fetched = v) : ScalarResult i s k rd v :=
  scalarResult_of_done h hexec rfl (State.onlyCore_setCore ..) (by rw [State.core_modCore, State.core_modCore, hv])

/-- One that may fault, where it does not. -/
theorem scalarResult_setS {rd : BitVec 5} {v : Word} (h : s.Fetches k w) (g : Core → Option Word)
    (hexec : exec i s = .next (s.instr k w true again fun s => setS s k rd (g (s.core k))))
    (hv : g (s.core k).fetched = some v) : ScalarResult i s k rd v :=
  scalarResult_of_done (u := (s.modCore k Core.fetched).modCore k fun c => c.wrS rd v) h hexec
    (by rw [State.core_modCore, hv]; rfl) (State.onlyCore_setCore ..) (by rw [State.core_modCore, State.core_modCore])

/-- An instruction that is done, and has written nothing. -/
theorem scalarResult_unwritten (h : s.Fetches k w) (hexec : exec i s = .next (s.instr k w true again act))
    (hact : act (s.modCore k Core.fetched) = .done (s.modCore k Core.fetched)) : ScalarResult i s k 0 0 :=
  scalarResult_of_done h hexec hact (.refl ..) (by rw [State.core_modCore]; rfl)

theorem Core.writesP_of_wrP {c y : Core} {pd : BitVec 3} {b : Bool} (hpred : y.pred = (c.wrP pd b).pred) (hsreg : y.sreg = c.sreg)
    (hlc : y.lc = c.lc) : c.WritesP y pd b := by
  refine ⟨fun p => ?_, hsreg, hlc⟩
  rw [← Core.rdP_wrP, Core.rdP, hpred]
  rfl

theorem Core.fetched_wrP_pred (c : Core) (pd : BitVec 3) (b : Bool) : (c.fetched.wrP pd b).pred = (c.wrP pd b).pred := by
  unfold Core.wrP
  split <;> simp

/-- An instruction that writes predicate `pd` with what it reads of its core. -/
theorem predicateResult_onCore {pd : BitVec 3} {b : Bool} (h : s.Fetches k w) {f : Core → Core}
    (hexec : exec i s = .next (s.instr k w true again act))
    (hact : act (s.modCore k Core.fetched) = (s.modCore k Core.fetched).onCore k f)
    (hf : f (s.core k).fetched = (s.core k).fetched.wrP pd b) : PredicateResult i s k pd b := by
  obtain ⟨honly, hcore⟩ := State.instr_onCore h again act f hact
  refine ⟨_, hexec, honly, ?_, ?_⟩
  · rw [hcore, hf]
    exact Core.goesOn_of_fetched (Core.sameBut_wrP ..) (by simp) (by simp)
  · rw [hcore, hf]
    exact Core.writesP_of_wrP (Core.fetched_wrP_pred ..) (by simp) (by simp)

/-- One that may fault, where it does not. -/
theorem predicateResult_setP {pd : BitVec 3} {b : Bool} (h : s.Fetches k w) (g : Core → Option Bool)
    (hexec : exec i s = .next (s.instr k w true again fun s => setP s k pd (g (s.core k))))
    (hb : g (s.core k).fetched = some b) : PredicateResult i s k pd b :=
  predicateResult_onCore (f := fun c => c.wrP pd b) h hexec (by rw [State.core_modCore, hb]; rfl) rfl

/-! ## Faults (R155, R443) -/

/-- The core is as it halted; where its part has stopped too it is not armed either. -/
theorem core_cmpFault (s : State) (k code : Nat) :
    (s.cmpFault k code).core k = { (s.core k).halt code false with armed := ((s.cmpFault k code).core k).armed } := by
  have hhalt : (s.modCore k fun c => c.halt code false).core k = (s.core k).halt code false := State.core_modCore ..
  rw [← hhalt]
  exact (State.HaltStands.raise _ _).core (by rw [hhalt]; rfl)

/-- The command halts its compositor with `code`: what R155 leaves of core and memory. -/
def FaultResult (i : Instr) (s : State) (k code : Nat) : Prop :=
  ∃ t, exec i s = .next t ∧ (t.core k).run = false ∧ (t.core k).haltCode = code ∧ (t.core k).haltAddr = (s.core k).pc ∧
    (t.core k).loops = [] ∧ (t.core k).sreg = (s.core k).sreg ∧ (t.core k).pred = (s.core k).pred ∧ t.mem = s.mem

theorem faultResult_of_fault {code : Nat} (h : s.Fetches k w) (hexec : exec i s = .next (s.instr k w true again act))
    (hact : act (s.modCore k Core.fetched) = .fault code) : FaultResult i s k code := by
  obtain ⟨hrun, hcode, haddr, -, -, hmem⟩ := cmpFault_spec (s.modCore k Core.fetched) k code
  have hcore := core_cmpFault (s.modCore k Core.fetched) k code
  rw [State.core_modCore] at hcore haddr
  refine ⟨_, hexec.trans (congrArg _ (State.instr_fault h hact)), hrun, hcode, haddr.trans (Core.fetched_pc _), ?_, ?_, ?_, hmem⟩
  all_goals rw [State.core_queueLines, hcore]
  · rfl
  · exact Core.fetched_sreg _
  · exact Core.fetched_pred _

/-- R155: reserved bits that are not zero. -/
theorem faultResult_of_reserved (h : s.Fetches k w) (hexec : exec i s = .next (s.instr k w false again act)) :
    FaultResult i s k cFORMAT :=
  faultResult_of_fault (again := again) (act := fun _ => .fault cFORMAT) h hexec rfl

end Sys2Proof.Machine
end

