-- ==== Sys2Proof/Proofs/Scalars.lean ====
section
/-! PROOFS. Scalar and predicate instructions: arithmetic, reads and comparisons (R152, R154, R157, R161, R173). -/

namespace Sys2Proof.Machine

variable {s : State}

/-! ## Immediates and the ALU (R152, R154) -/

/-- R152: the kind of an immediate shift and its amount. -/
theorem shiFn_cases (imm : BitVec 16) (a : Word) :
    (imm.toNat < 64 → shiFn imm a = some (a <<< imm.toNat)) ∧
    (64 ≤ imm.toNat → imm.toNat < 128 → shiFn imm a = some (a >>> (imm.toNat - 64))) ∧
    (128 ≤ imm.toNat → imm.toNat < 192 → shiFn imm a = some (a.sshiftRight (imm.toNat - 128))) ∧
    (192 ≤ imm.toNat → shiFn imm a = none) := by
  have hkind : ∀ n, imm.toNat / 64 = n → imm.toNat % 64 = imm.toNat - 64 * n := fun n hn => by omega
  unfold shiFn
  refine ⟨fun h => ?_, fun h h' => ?_, fun h h' => ?_, fun h => ?_⟩
  · have h0 : imm.toNat / 64 = 0 := by omega
    simp only [h0, hkind 0 h0, Nat.mul_zero, Nat.sub_zero]
  · have h1 : imm.toNat / 64 = 1 := by omega
    simp only [h1, hkind 1 h1, Nat.mul_one]
  · have h2 : imm.toNat / 64 = 2 := by omega
    simp only [h2, hkind 2 h2, Nat.reduceMul]
  · obtain ⟨n, hn⟩ : ∃ n, imm.toNat / 64 = n + 3 := ⟨imm.toNat / 64 - 3, by omega⟩
    simp only [hn]

/-- Settles O9: each instruction writes what it reads of its core, the shifts by their kind, the ALU by its function. -/
theorem scalarArithmetic : Obligations.ScalarArithmetic := by
  refine ⟨fun c rd ra imm wide s => ?_, fun c rd ra rb fn s h => ?_⟩
  · intro a d
    obtain ⟨hleft, hright, harith, -⟩ := shiFn_cases imm a
    have hshift (v : Word) (h : s.Fetches (kOf c) (0x06#6 ++ rd ++ ra ++ imm)) (hv : shiFn imm a = some v) :
        ScalarResult (.shi c rd ra imm) s (kOf c) rd v :=
      scalarResult_setS h (fun x => shiFn imm (x.rdS ra)) rfl (by rw [Core.fetched_rdS]; exact hv)
    refine ⟨fun h => ?_, fun h => ?_, fun h => ?_, fun h => ?_, fun h => ?_, fun h => ?_, fun h hi => hshift _ h (hleft hi),
      fun h hlo hhi => hshift _ h (hright hlo hhi), fun h hlo hhi => hshift _ h (harith hlo hhi)⟩
    · exact scalarResult_onCore h (fun x => x.rdS ra + imm.signExtend 64) rfl (by rw [Core.fetched_rdS])
    · exact scalarResult_onCore h (fun x => x.rdS ra &&& imm.setWidth 64) rfl (by rw [Core.fetched_rdS])
    · exact scalarResult_onCore h (fun x => x.rdS ra ||| imm.setWidth 64) rfl (by rw [Core.fetched_rdS])
    · exact scalarResult_onCore h (fun x => x.rdS ra ^^^ imm.setWidth 64) rfl (by rw [Core.fetched_rdS])
    · exact scalarResult_onCore h (fun _ => wide.signExtend 64) rfl rfl
    · exact scalarResult_onCore h (fun x => x.rdS rd <<< 16 ||| imm.setWidth 64) rfl (by rw [Core.fetched_rdS])
  · intro a b n gives
    have halu (v : Word) (hv : aluFn fn a b = some v) : gives v :=
      scalarResult_setS h (fun x => aluFn fn (x.rdS ra) (x.rdS rb)) rfl (by rw [Core.fetched_rdS, Core.fetched_rdS]; exact hv)
    refine ⟨?_, ?_, ?_, ?_, ?_, ?_, ?_, ?_, ?_, ?_, ?_, ?_, ?_⟩ <;> rintro rfl <;> refine halu _ ?_
    all_goals simp [aluFn, BitVec.slt, BitVec.ult, n]

/-! ## Reads (R154, R157, R161, R173) -/

theorem literOf_active {x : Core} {level : Nat} {l : LoopLevel} (h : x.loops[level]? = some l) : x.literOf level = l.C - l.Q := by
  rw [Core.literOf, h]

theorem literOf_inactive {x : Core} {level : Nat} (h : x.loops.length ≤ level) : x.literOf level = 0 := by
  rw [Core.literOf, List.getElem?_eq_none h]

/-! ## Comparisons (R154) -/

/-- The conditions of R154, as signed and unsigned comparisons. -/
theorem condFn_cases (cond : BitVec 3) (a b : Word) :
    (cond = 0 → condFn cond a b = some (decide (a = b))) ∧ (cond = 1 → condFn cond a b = some (decide (a ≠ b))) ∧
    (cond = 2 → condFn cond a b = some (decide (a.toInt < b.toInt))) ∧
    (cond = 3 → condFn cond a b = some (decide (b.toInt ≤ a.toInt))) ∧
    (cond = 4 → condFn cond a b = some (decide (a.toNat < b.toNat))) ∧
    (cond = 5 → condFn cond a b = some (decide (b.toNat ≤ a.toNat))) := by
  refine ⟨?_, ?_, ?_, ?_, ?_, ?_⟩ <;> rintro rfl
  · rfl
  · rfl
  · rfl
  · simp [condFn, BitVec.slt, ← decide_not]
  · rfl
  · simp [condFn, BitVec.ult, ← decide_not]

/-- Settles O10: each instruction writes what it reads of its core, the comparisons and combinations by their function. -/
theorem readsAndPredicates : Obligations.ReadsAndPredicates := by
  refine ⟨fun c rd ra n s => ?_, fun c pd k pa pb ra rb imm s => ?_⟩
  · intro x
    have hliter (v : Nat) (h : s.Fetches (kOf c) (0x1B#6 ++ rd ++ 0#19 ++ n)) (hv : x.literOf n.toNat = v) :
        ScalarResult (.liter c rd 0 n) s (kOf c) rd (BitVec.ofNat 64 v) :=
      scalarResult_onCore h (fun x => BitVec.ofNat 64 (x.literOf n.toNat)) rfl (by rw [Core.fetched_literOf, hv])
    refine ⟨fun h => ?_, fun h => ?_, fun h l hl => hliter _ h (literOf_active hl), fun h hn => hliter _ h (literOf_inactive hn),
      fun h => ?_, fun h => ?_⟩
    · exact scalarResult_onCore h (fun x => (x.pred ||| 1#8).setWidth 64) rfl (by rw [Core.fetched_pred])
    · exact scalarResult_onCore h (fun x => (x.rdLc n).setWidth 64) rfl (by rw [Core.fetched_rdLc])
    · exact scalarResult_onCore h (fun x => Tbl.get 0 x.snap ((x.rdS ra).toNat % 64)) rfl
        (by rw [Core.fetched_snap, Core.fetched_rdS])
    · exact scalarResult_of_done (u := (s.modCore (kOf c) Core.fetched).modCore (kOf c) fun x => x.wrS rd (BitVec.ofNat 64 s.tick))
        h rfl rfl (State.onlyCore_setCore ..) (by rw [State.core_modCore, State.core_modCore])
  · intro x a b i
    refine ⟨fun h => ?_, fun h => ?_, fun h => ?_, fun h => ?_⟩
    · intro gives
      have hcmp (v : Bool) (hv : condFn k a b = some v) : gives v :=
        predicateResult_setP h (fun x => condFn k (x.rdS ra) (x.rdS rb)) rfl (by rw [Core.fetched_rdS, Core.fetched_rdS]; exact hv)
      obtain ⟨heq, hne, hlt, hge, hltu, hgeu⟩ := condFn_cases k a b
      exact ⟨fun hk => hcmp _ (heq hk), fun hk => hcmp _ (hne hk), fun hk => hcmp _ (hlt hk), fun hk => hcmp _ (hge hk),
        fun hk => hcmp _ (hltu hk), fun hk => hcmp _ (hgeu hk)⟩
    · intro gives
      have hcmpi (v : Bool) (hv : condFn k a i = some v) : gives v :=
        predicateResult_setP h (fun x => condFn k (x.rdS ra) (imm.signExtend 64)) rfl (by rw [Core.fetched_rdS]; exact hv)
      obtain ⟨heq, hne, hlt, hge, hltu, hgeu⟩ := condFn_cases k a i
      exact ⟨fun hk => hcmpi _ (heq hk), fun hk => hcmpi _ (hne hk), fun hk => hcmpi _ (hlt hk), fun hk => hcmpi _ (hge hk),
        fun hk => hcmpi _ (hltu hk), fun hk => hcmpi _ (hgeu hk)⟩
    · intro gives
      have hplog (v : Bool) (hv : plogFn k (x.rdP pa) (x.rdP pb) = some v) : gives v :=
        predicateResult_setP h (fun x => plogFn k (x.rdP pa) (x.rdP pb)) rfl (by rw [Core.fetched_rdP, Core.fetched_rdP]; exact hv)
      refine ⟨?_, ?_, ?_, ?_, ?_⟩ <;> rintro rfl <;> exact hplog _ rfl
    · exact predicateResult_onCore (f := fun x => x.wrP pd ((x.rdS ra).getLsbD ((x.rdS rb).toNat % 64))) h rfl rfl
        (by rw [Core.fetched_rdS, Core.fetched_rdS])

end Sys2Proof.Machine
end

