-- ==== Sys2Proof/Proofs/Branches.lean ====
section
/-! PROOFS. Branches, loops, `HALT`, and the instructions that fault (R152, R154, R155, R159 to R163). -/

namespace Sys2Proof.Machine

variable {s u : State} {k : Nat} {w : BitVec 32} {i : Instr} {again : Stall → Bool} {act : State → IRes} {n : BitVec 2} {body : Nat}

/-! ## Taken branches (R163) -/

theorem keepLoops_eq (a : Nat) (ls : List LoopLevel) :
    keepLoops a ls = (ls.reverse.takeWhile fun l => decide (l.first ≤ a ∧ a ≤ l.last)).reverse := by
  simp only [keepLoops, LoopLevel.holds, Bool.decide_and]

/-- The command takes core `k` to `t`, out of the levels that do not hold it, with register `rd` at `v`. -/
def JumpResult (i : Instr) (s : State) (k : Nat) (t : BitVec 22) (rd : BitVec 5) (v : Word) : Prop :=
  ∃ t', exec i s = .next t' ∧ s.OnlyCore k t' ∧ (s.core k).SameBut (t'.core k) ∧ (t'.core k).pc = t ∧
    (t'.core k).retired = (s.core k).retired + 1 ∧ (t'.core k).stall = .none ∧
    (t'.core k).loops = ((s.core k).loops.reverse.takeWhile fun l => decide (l.first ≤ t.toNat ∧ t.toNat ≤ l.last)).reverse ∧
    (s.core k).Writes (t'.core k) rd v

theorem jumpResult_of_jump {t : BitVec 22} {rd : BitVec 5} {v : Word} (h : s.Fetches k w)
    (hexec : exec i s = .next (s.instr k w true again act)) (hact : act (s.modCore k Core.fetched) = .jump u t)
    (honly : (s.modCore k Core.fetched).OnlyCore k u) (hcore : u.core k = (s.core k).fetched.wrS rd v) :
    JumpResult i s k t rd v := by
  refine ⟨_, hexec.trans (congrArg _ (State.instr_jump h hact)), State.onlyCore_instruction honly _, ?_⟩
  rw [State.core_queueLines, State.core_modCore, hcore]
  refine ⟨((s.core k).sameBut_fetched.trans (Core.sameBut_wrS ..)).trans rfl, rfl, ?_, rfl, ?_, ?_⟩
  · simp [Core.jump]
  · simp [Core.jump, keepLoops_eq]
  · exact Core.writes_of_wrS (Core.fetched_wrS_sreg ..) (by simp [Core.jump]) (by simp [Core.jump])

/-- A branch that writes nothing. -/
theorem jumpResult_unwritten {t : BitVec 22} (h : s.Fetches k w) (hexec : exec i s = .next (s.instr k w true again act))
    (hact : act (s.modCore k Core.fetched) = .jump (s.modCore k Core.fetched) t) : JumpResult i s k t 0 0 :=
  jumpResult_of_jump h hexec hact (.refl ..) (by rw [State.core_modCore]; rfl)

/-- What `BR` does once it is fetched. -/
def State.brAct (s : State) (k : Nat) (p : BitVec 3) (neg : Bool) (off : BitVec 22) : IRes :=
  if (s.core k).rdP p ^^ neg then .jump s ((s.core k).pc + 4 * off) else .done s

/-- What `JR` does once it is fetched. -/
def State.jrAct (s : State) (k : Nat) (p : BitVec 3) (neg : Bool) (ra : BitVec 5) : IRes :=
  if (s.core k).rdP p ^^ neg then
    (if ((s.core k).rdS ra).toNat % 4 = 0 then .jump s (((s.core k).rdS ra).setWidth 22) else .fault cFORMAT)
  else .done s

section Branch

variable {c : CoreId} {p : BitVec 3} {neg : Bool}

theorem br_taken {off : BitVec 22} (h : s.Fetches (kOf c) (0x10#6 ++ p ++ BitVec.ofBool neg ++ off))
    (hp : (s.core (kOf c)).rdP p ≠ neg) : JumpResult (.br c p neg off) s (kOf c) ((s.core (kOf c)).pc + 4 * off) 0 0 := by
  refine jumpResult_unwritten (act := fun s => s.brAct (kOf c) p neg off) h rfl ?_
  simp only [State.brAct, State.core_modCore, Core.fetched_rdP, Core.fetched_pc]
  exact if_pos (Bool.xor_iff_ne.2 hp)

theorem br_untaken {off : BitVec 22} (h : s.Fetches (kOf c) (0x10#6 ++ p ++ BitVec.ofBool neg ++ off))
    (hp : (s.core (kOf c)).rdP p = neg) : ScalarResult (.br c p neg off) s (kOf c) 0 0 := by
  refine scalarResult_unwritten (act := fun s => s.brAct (kOf c) p neg off) h rfl ?_
  simp only [State.brAct, State.core_modCore, Core.fetched_rdP]
  exact if_neg fun hx => Bool.xor_iff_ne.1 hx hp

variable {ra : BitVec 5}

theorem jr_taken (h : s.Fetches (kOf c) (0x11#6 ++ p ++ BitVec.ofBool neg ++ 0#1 ++ ra ++ 0#16))
    (hp : (s.core (kOf c)).rdP p ≠ neg) (h4 : ((s.core (kOf c)).rdS ra).toNat % 4 = 0) :
    JumpResult (.jr c p neg 0 ra 0) s (kOf c) (((s.core (kOf c)).rdS ra).setWidth 22) 0 0 := by
  refine jumpResult_unwritten (act := fun s => s.jrAct (kOf c) p neg ra) h rfl ?_
  simp only [State.jrAct, State.core_modCore, Core.fetched_rdP, Core.fetched_rdS]
  rw [if_pos (Bool.xor_iff_ne.2 hp), if_pos h4]

theorem jr_untaken (h : s.Fetches (kOf c) (0x11#6 ++ p ++ BitVec.ofBool neg ++ 0#1 ++ ra ++ 0#16))
    (hp : (s.core (kOf c)).rdP p = neg) : ScalarResult (.jr c p neg 0 ra 0) s (kOf c) 0 0 := by
  refine scalarResult_unwritten (act := fun s => s.jrAct (kOf c) p neg ra) h rfl ?_
  simp only [State.jrAct, State.core_modCore, Core.fetched_rdP]
  exact if_neg fun hx => Bool.xor_iff_ne.1 hx hp

/-- R155: a misaligned target. -/
theorem jr_faults (h : s.Fetches (kOf c) (0x11#6 ++ p ++ BitVec.ofBool neg ++ 0#1 ++ ra ++ 0#16))
    (hp : (s.core (kOf c)).rdP p ≠ neg) (h4 : ((s.core (kOf c)).rdS ra).toNat % 4 ≠ 0) :
    FaultResult (.jr c p neg 0 ra 0) s (kOf c) cFORMAT := by
  refine faultResult_of_fault (act := fun s => s.jrAct (kOf c) p neg ra) h rfl ?_
  simp only [State.jrAct, State.core_modCore, Core.fetched_rdP, Core.fetched_rdS]
  rw [if_pos (Bool.xor_iff_ne.2 hp), if_neg h4]

theorem jal_jumps {rd : BitVec 5} {imm : BitVec 21} (h : s.Fetches (kOf c) (0x12#6 ++ rd ++ imm)) :
    JumpResult (.jal c rd imm) s (kOf c) ((s.core (kOf c)).pc + 4 * imm.signExtend 22) rd
      (BitVec.ofNat 64 ((s.core (kOf c)).pc.toNat + 4)) := by
  have hpc : ((s.modCore (kOf c) Core.fetched).core (kOf c)).pc = (s.core (kOf c)).pc := by
    rw [State.core_modCore, Core.fetched_pc]
  rw [← hpc]
  exact jumpResult_of_jump h rfl rfl (State.onlyCore_setCore ..) (by rw [State.core_modCore, State.core_modCore])

end Branch

/-! ## Loops (R159 to R162) -/

/-- R159: no room for another level, or no body. -/
theorem loopAct_fault (hwin : (s.core k).inWindow ((s.core k).pc.toNat + 4 * body) = true)
    (hbad : body = 0 ∨ 4 ≤ (s.core k).loops.length) : s.loopAct k n body = .fault cLOOP := by
  unfold State.loopAct
  dsimp only
  rw [hwin, if_neg (by decide)]
  exact if_pos (by tauto)

/-- A level pushed on the loop stack. -/
def Core.pushLoop (c : Core) (l : LoopLevel) : Core := { c with loops := l :: c.loops }

/-- The checks of R159 and R162 on a body of `body` instructions that ends at `last`. -/
structure Core.LoopChecks (c : Core) (body last : Nat) : Prop where
  ends : last = c.pc.toNat + 4 * body
  window : c.inWindow last = true
  room : c.loops.length < 4
  nonempty : body ≠ 0
  within : ∀ l ∈ c.loops.head?, last ≤ l.last
  word : ∃ bs, c.cached (last / 128) = some bs ∧ (lineWord bs (last % 128)).toNat / 2 ^ 26 ∉ [0x10, 0x11, 0x12, 0x18, 0x3F]

section Fields

variable (c : Core) (l : LoopLevel) (line : Nat)

@[simp] theorem Core.useLine_sreg : (c.useLine line).sreg = c.sreg := rfl
@[simp] theorem Core.useLine_pred : (c.useLine line).pred = c.pred := rfl
@[simp] theorem Core.useLine_lc : (c.useLine line).lc = c.lc := rfl
@[simp] theorem Core.useLine_loops : (c.useLine line).loops = c.loops := rfl
@[simp] theorem Core.useLine_retired : (c.useLine line).retired = c.retired := rfl
@[simp] theorem Core.pushLoop_sreg : (c.pushLoop l).sreg = c.sreg := rfl
@[simp] theorem Core.pushLoop_pred : (c.pushLoop l).pred = c.pred := rfl
@[simp] theorem Core.pushLoop_lc : (c.pushLoop l).lc = c.lc := rfl
@[simp] theorem Core.pushLoop_loops : (c.pushLoop l).loops = l :: c.loops := rfl
@[simp] theorem Core.pushLoop_retired : (c.pushLoop l).retired = c.retired := rfl

end Fields

/-- R159: a loop whose body passes its checks is entered, or passed over where its count is 0. -/
theorem loopAct_passes {last : Nat} (h : (s.core k).LoopChecks body last) : s.loopAct k n body =
    if ((s.core k).rdLc n).toNat = 0 then .skip (s.modCore k fun c => c.useLine (last / 128)) last
    else .done ((s.modCore k fun c => c.useLine (last / 128)).modCore k fun c =>
      c.pushLoop ⟨(s.core k).pc.toNat + 4, last, ((s.core k).rdLc n).toNat, ((s.core k).rdLc n).toNat⟩) := by
  obtain ⟨rfl, hwin, hroom, hbody, hwithin, bs, hcached, hword⟩ := h
  unfold State.loopAct
  dsimp only
  rw [hwin, if_neg (by decide), if_neg, hcached]
  · exact if_neg hword
  · rintro (hfull | hempty | hbeyond)
    · omega
    · exact hbody hempty
    · split at hbeyond
      · cases hbeyond
      · next l ls hl => exact absurd (of_decide_eq_true hbeyond) (Nat.not_lt.2 (hwithin l (by rw [hl]; rfl)))

/-- A level that begins at the next instruction does not end at this one. -/
theorem stepLoops_pushed {a body : Nat} (hbody : body ≠ 0) (cnt : Nat) (ls : List LoopLevel) :
    stepLoops a (⟨a + 4, a + 4 * body, cnt, cnt⟩ :: ls) = (⟨a + 4, a + 4 * body, cnt, cnt⟩ :: ls, none) :=
  if_neg (by dsimp only; omega)

section Loop

variable {c : CoreId} {m : BitVec 16} {last : Nat}

theorem loop_passesOver (h : s.Fetches (kOf c) (0x18#6 ++ n ++ 0#8 ++ m))
    (hchecks : (s.core (kOf c)).fetched.LoopChecks m.toNat last) (hcnt : (s.core (kOf c)).rdLc n = 0) :
    ∃ t, exec (.loop c n 0 m) s = .next t ∧ s.OnlyCore (kOf c) t ∧
      t.core (kOf c) = ((s.core (kOf c)).fetched.useLine (last / 128)).goOn last := by
  have hzero : ((s.core (kOf c)).rdLc n).toNat = 0 := congrArg BitVec.toNat hcnt
  have hact := loopAct_passes (s := s.modCore (kOf c) Core.fetched) (n := n) (by rw [State.core_modCore]; exact hchecks)
  rw [State.core_modCore, Core.fetched_rdLc, if_pos hzero] at hact
  have hexec : exec (.loop c n 0 m) s =
      .next (s.instr (kOf c) (0x18#6 ++ n ++ 0#8 ++ m) true noStall fun s => s.loopAct (kOf c) n m.toNat) := rfl
  refine ⟨_, hexec.trans (congrArg _ (State.instr_skip h hact)), State.onlyCore_instruction (State.onlyCore_setCore ..) _, ?_⟩
  rw [State.core_queueLines, State.core_modCore, State.core_modCore, State.core_modCore]

theorem loop_enters (h : s.Fetches (kOf c) (0x18#6 ++ n ++ 0#8 ++ m))
    (hchecks : (s.core (kOf c)).fetched.LoopChecks m.toNat last) (hcnt : (s.core (kOf c)).rdLc n ≠ 0) :
    let x := s.core (kOf c)
    ∃ t, exec (.loop c n 0 m) s = .next t ∧ s.OnlyCore (kOf c) t ∧ t.core (kOf c) =
      ((x.fetched.useLine (last / 128)).pushLoop
        ⟨x.pc.toNat + 4, last, (x.rdLc n).toNat, (x.rdLc n).toNat⟩).goOn x.pc.toNat := by
  intro x
  have hne : ((s.core (kOf c)).rdLc n).toNat ≠ 0 := fun h0 => hcnt (BitVec.eq_of_toNat_eq h0)
  have hact := loopAct_passes (s := s.modCore (kOf c) Core.fetched) (n := n) (by rw [State.core_modCore]; exact hchecks)
  rw [State.core_modCore, Core.fetched_rdLc, Core.fetched_pc, if_neg hne] at hact
  have hexec : exec (.loop c n 0 m) s =
      .next (s.instr (kOf c) (0x18#6 ++ n ++ 0#8 ++ m) true noStall fun s => s.loopAct (kOf c) n m.toNat) := rfl
  refine ⟨_, hexec.trans (congrArg _ (State.instr_done h hact)),
    State.onlyCore_instruction ((State.onlyCore_setCore ..).trans (State.onlyCore_setCore ..)) _, ?_⟩
  rw [State.core_queueLines, State.core_modCore, State.core_modCore, State.core_modCore, State.core_modCore]

/-- R159, R160: the level pushed and the body begun, or the body passed over. -/
theorem loop_spec {bs : List Byte} (h : s.Fetches (kOf c) (0x18#6 ++ n ++ 0#8 ++ m)) :
    let x := s.core (kOf c)
    let last := x.pc.toNat + 4 * m.toNat
    x.inWindow last = true → x.loops.length < 4 → m ≠ 0 → (∀ l ∈ x.loops.head?, last ≤ l.last) →
    x.fetched.cached (last / 128) = some bs → (lineWord bs (last % 128)).toNat / 2 ^ 26 ∉ [0x10, 0x11, 0x12, 0x18, 0x3F] →
    ∃ t, exec (.loop c n 0 m) s = .next t ∧ s.OnlyCore (kOf c) t ∧ (t.core (kOf c)).sreg = x.sreg ∧
      (t.core (kOf c)).pred = x.pred ∧ (t.core (kOf c)).lc = x.lc ∧ (t.core (kOf c)).retired = x.retired + 1 ∧
      (x.rdLc n ≠ 0 → (t.core (kOf c)).loops = ⟨x.pc.toNat + 4, last, (x.rdLc n).toNat, (x.rdLc n).toNat⟩ :: x.loops ∧
        (t.core (kOf c)).pc = BitVec.ofNat 22 (x.pc.toNat + 4)) ∧
      (x.rdLc n = 0 → (t.core (kOf c)).loops = (stepLoops last x.loops).1 ∧
        (t.core (kOf c)).pc = BitVec.ofNat 22 ((stepLoops last x.loops).2.getD (last + 4))) := by
  intro x last hwin hroom hm hwithin hcached hword
  have hbody : m.toNat ≠ 0 := fun h0 => hm (BitVec.eq_of_toNat_eq h0)
  have hchecks : x.fetched.LoopChecks m.toNat last :=
    ⟨by rw [Core.fetched_pc], by rwa [Core.fetched_inWindow], by rwa [Core.fetched_loops], hbody, by rwa [Core.fetched_loops],
      bs, hcached, hword⟩
  by_cases hcnt : x.rdLc n = 0
  · obtain ⟨t, hexec, honly, hcore⟩ := loop_passesOver h hchecks hcnt
    exact ⟨t, hexec, honly, by simp [hcore, x], by simp [hcore, x], by simp [hcore, x], by simp [hcore, x],
      fun hne => absurd hcnt hne, fun _ => by simp [hcore, x]⟩
  · obtain ⟨t, hexec, honly, hcore⟩ := loop_enters h hchecks hcnt
    have hstep := stepLoops_pushed (a := x.pc.toNat) hbody (x.rdLc n).toNat x.loops
    exact ⟨t, hexec, honly, by simp [hcore, x], by simp [hcore, x], by simp [hcore, x], by simp [hcore, x],
      fun _ => by simp [hcore, hstep, x, last], fun h0 => absurd h0 hcnt⟩

end Loop

/-- Loop count `n` written. -/
def Core.wrLc (c : Core) (n : BitVec 2) (v : BitVec 32) : Core := { c with lc := Tbl.set 0 c.lc n.toNat v }

theorem Core.rdLc_wrLc (c : Core) (n m : BitVec 2) (v : BitVec 32) : (c.wrLc n v).rdLc m = if m = n then v else c.rdLc m := by
  refine (Tbl.get_set ..).trans ?_
  simp only [BitVec.toNat_inj]
  rfl

/-- What `SETLC` does once it is fetched. -/
def State.setlcAct (s : State) (k : Nat) (n : BitVec 2) (ra : BitVec 5) : IRes :=
  if 2 ^ 32 ≤ ((s.core k).rdS ra).toNat then .fault cLOOP
  else s.onCore k fun c => c.wrLc n (((s.core k).rdS ra).setWidth 32)

section Setlc

variable {c : CoreId} {ra : BitVec 5} (h : s.Fetches (kOf c) (0x19#6 ++ n ++ 0#3 ++ ra ++ 0#16))

include h

/-- R159: an instruction that writes loop count `n`. -/
theorem setlc_writes (hlt : ((s.core (kOf c)).rdS ra).toNat < 2 ^ 32) :
    let x := s.core (kOf c)
    ∃ t, exec (.setlc c n 0 ra 0) s = .next t ∧ s.OnlyCore (kOf c) t ∧ x.GoesOn (t.core (kOf c)) ∧
      (∀ m, (t.core (kOf c)).rdLc m = if m = n then (x.rdS ra).setWidth 32 else x.rdLc m) ∧
      (t.core (kOf c)).sreg = x.sreg ∧ (t.core (kOf c)).pred = x.pred := by
  intro x
  have hact : (s.modCore (kOf c) Core.fetched).setlcAct (kOf c) n ra =
      (s.modCore (kOf c) Core.fetched).onCore (kOf c) fun y => y.wrLc n ((x.rdS ra).setWidth 32) := by
    rw [State.setlcAct, State.core_modCore, Core.fetched_rdS]
    exact if_neg (Nat.not_le.2 hlt)
  obtain ⟨honly, hcore⟩ := State.instr_onCore h noStall (fun s => s.setlcAct (kOf c) n ra) _ hact
  have hexec : exec (.setlc c n 0 ra 0) s = .next (s.instr (kOf c) (0x19#6 ++ n ++ 0#3 ++ ra ++ 0#16) true noStall fun s =>
      s.setlcAct (kOf c) n ra) := rfl
  refine ⟨_, hexec, honly, ?_, fun m => ?_, ?_, ?_⟩
  all_goals rw [hcore]
  · exact Core.goesOn_of_fetched rfl (Core.fetched_loops _) (Core.fetched_retired _)
  · exact (Core.rdLc_wrLc ..).trans (by rw [Core.fetched_rdLc])
  · exact Core.fetched_sreg _
  · exact Core.fetched_pred _

/-- R155: a loop count that does not fit. -/
theorem setlc_faults (hle : 2 ^ 32 ≤ ((s.core (kOf c)).rdS ra).toNat) : FaultResult (.setlc c n 0 ra 0) s (kOf c) cLOOP :=
  faultResult_of_fault (act := fun s => s.setlcAct (kOf c) n ra) h rfl
    (by rw [State.setlcAct, State.core_modCore, Core.fetched_rdS]; exact if_pos hle)

end Setlc

/-! ## `HALT` (R155) -/

theorem halt_halts {c : CoreId} (h : s.Fetches (kOf c) (0x3F#6 ++ 0#26)) :
    let x := s.core (kOf c)
    ∃ t, exec (.halt c 0) s = .next t ∧ s.OnlyCore (kOf c) t ∧ (t.core (kOf c)).run = false ∧ (t.core (kOf c)).haltCode = 0 ∧
      (t.core (kOf c)).haltAddr = x.pc ∧ (t.core (kOf c)).haltDepth = x.loops.length ∧ (t.core (kOf c)).loops = [] ∧
      (t.core (kOf c)).sreg = x.sreg ∧ (t.core (kOf c)).pred = x.pred ∧ (t.core (kOf c)).fifo = x.fifo := by
  intro x
  refine ⟨_, congrArg Host.Outcome.next (State.instr_fetches h noStall fun _ => .halt), State.onlyCore_instruction (.refl ..) _, ?_⟩
  simp only [State.core_queueLines, State.retire, State.core_modCore]
  exact ⟨rfl, rfl, x.fetched_pc, congrArg List.length x.fetched_loops, rfl, x.fetched_sreg, x.fetched_pred, x.fetched_fifo⟩

/-- Settles O11: branches by their predicate, `LOOP` by its count. -/
theorem controlFlow : Obligations.ControlFlow := by
  refine ⟨fun c p neg off rd ra imm s => ?_, fun c n ra body s => ?_⟩
  · intro x goes stays
    exact ⟨fun h => ⟨br_taken h, br_untaken h⟩, fun h => ⟨jr_taken h, jr_untaken h⟩, jal_jumps⟩
  · intro x
    exact ⟨fun h => scalarResult_unwritten (act := fun s => .done s) h rfl rfl, setlc_writes, halt_halts,
      fun h hwin hroom hbody hwithin bs hcached hword => loop_spec h hwin hroom hbody hwithin hcached hword⟩

/-! ## Faults (R155) -/

section Fault

variable {c : CoreId}

/-- R155: an instruction that may fault for what it reads of its core, where it does. -/
theorem faultResult_setS {rd : BitVec 5} (h : s.Fetches k w) (g : Core → Option Word)
    (hexec : exec i s = .next (s.instr k w true again fun s => setS s k rd (g (s.core k)))) (hv : g (s.core k).fetched = none) :
    FaultResult i s k cFORMAT :=
  faultResult_of_fault h hexec (by rw [State.core_modCore, hv]; rfl)

theorem faultResult_setP {pd : BitVec 3} (h : s.Fetches k w) (g : Core → Option Bool)
    (hexec : exec i s = .next (s.instr k w true again fun s => setP s k pd (g (s.core k)))) (hv : g (s.core k).fetched = none) :
    FaultResult i s k cFORMAT :=
  faultResult_of_fault h hexec (by rw [State.core_modCore, hv]; rfl)

/-- R155: reserved bits that a command names. -/
theorem faultResult_of_nonzero {n : Nat} {rz : BitVec n} (h : s.Fetches k w) (hrz : rz ≠ 0)
    (hexec : exec i s = .next (s.instr k w (rz = 0) again act)) : FaultResult i s k cFORMAT :=
  faultResult_of_reserved h (by rw [hexec, decide_eq_false hrz])

theorem aluFn_unlisted {fn : BitVec 4} (h : 12 < fn.toNat) (a b : Word) : aluFn fn a b = none := by
  obtain ⟨n, hn⟩ : ∃ n, fn.toNat = n + 13 := ⟨fn.toNat - 13, by omega⟩
  simp only [aluFn, hn]

theorem condFn_unlisted {cond : BitVec 3} (h : 5 < cond.toNat) (a b : Word) : condFn cond a b = none := by
  obtain ⟨n, hn⟩ : ∃ n, cond.toNat = n + 6 := ⟨cond.toNat - 6, by omega⟩
  simp only [condFn, hn]

theorem plogFn_unlisted {fn : BitVec 3} (h : 4 < fn.toNat) (a b : Bool) : plogFn fn a b = none := by
  obtain ⟨n, hn⟩ : ∃ n, fn.toNat = n + 5 := ⟨fn.toNat - 5, by omega⟩
  simp only [plogFn, hn]

theorem alu_faults {rd ra rb : BitVec 5} {rz : BitVec 7} {fn : BitVec 4}
    (h : s.Fetches (kOf c) (0x01#6 ++ rd ++ ra ++ rb ++ rz ++ fn)) (hbad : rz ≠ 0 ∨ 12 < fn.toNat) :
    FaultResult (.alu c rd ra rb rz fn) s (kOf c) cFORMAT := by
  by_cases hrz : rz = 0
  · subst hrz
    exact faultResult_setS h (fun x => aluFn fn (x.rdS ra) (x.rdS rb)) rfl (aluFn_unlisted (hbad.resolve_left (not_not.2 rfl)) _ _)
  · exact faultResult_of_nonzero h hrz rfl

theorem loop_faults {n : BitVec 2} {m : BitVec 16} (h : s.Fetches (kOf c) (0x18#6 ++ n ++ 0#8 ++ m))
    (hwin : (s.core (kOf c)).inWindow ((s.core (kOf c)).pc.toNat + 4 * m.toNat) = true)
    (hbad : m = 0 ∨ 4 ≤ (s.core (kOf c)).loops.length) : FaultResult (.loop c n 0 m) s (kOf c) cLOOP := by
  refine faultResult_of_fault (act := fun s => s.loopAct (kOf c) n m.toNat) h rfl (loopAct_fault ?_ ?_)
  · rwa [State.core_modCore, Core.fetched_inWindow, Core.fetched_pc]
  · rw [State.core_modCore, Core.fetched_loops]
    exact hbad.imp (fun h0 => by rw [h0]; rfl) id

end Fault

/-- Settles O12: the fault of each instruction by its cause. -/
theorem instructionFaults : Obligations.InstructionFaults := by
  intro c rd ra rb pd k pa pb fn n neg imm rz26 rz7 s x faults
  refine ⟨fun h hrz => faultResult_of_nonzero h hrz rfl, fun h hrz => faultResult_of_nonzero h hrz rfl, alu_faults,
    fun h hkind => ?_, fun h hk => ?_, fun h hk => ?_, jr_faults, setlc_faults, loop_faults⟩
  · obtain ⟨-, -, -, hnone⟩ := shiFn_cases imm (x.fetched.rdS ra)
    exact faultResult_setS h (fun x => shiFn imm (x.rdS ra)) rfl (hnone hkind)
  · exact faultResult_setP h (fun x => condFn k (x.rdS ra) (x.rdS rb)) rfl (condFn_unlisted hk _ _)
  · exact faultResult_setP h (fun x => plogFn k (x.rdP pa) (x.rdP pb)) rfl (plogFn_unlisted hk _ _)

end Sys2Proof.Machine
end

