-- ==== Sys2Proof/Proofs/ScalarAccesses.lean ====
section
/-! PROOFS. `SLD` and `SST`: the access, its order and its faults (R155, R171). -/

namespace Sys2Proof.Machine

variable {s : State} {k : Nat} {ra : BitVec 5} {hd imm : BitVec 8} {store : Bool} {go : Nat → Nat → IRes}

/-- The offset of a scalar access, from ra and 8 × IMM (R171). -/
def Core.scalarOff (c : Core) (ra : BitVec 5) (imm : BitVec 8) : Nat := (c.rdS ra).toNat + 8 * imm.toNat

/-- The handle is valid, lies in activation or partial-sum memory and permits the access (R171). -/
def scalarFit (h : Wide) (store : Bool) : Prop :=
  (hVALID h = true ∧ (hSPACE h = 1 ∨ hSPACE h = 2)) ∧ (if store = true then hWR h else hRD h) = true

/-! ## The checks, in R155's order -/

theorem unfit_iff (h : Wide) (store : Bool) :
    (!hVALID h || !(hSPACE h = 1 || hSPACE h = 2) || !(if store then hWR h else hRD h)) = true ↔ ¬ scalarFit h store := by
  simp only [scalarFit, Bool.or_eq_true, Bool.not_eq_true', decide_eq_true_eq, ← Bool.not_eq_true]
  tauto

section Checks

variable (hfree : s.heldBy k [⟨4, hd.toNat, hd.toNat, false⟩] = false)

include hfree

theorem scalarAct_unfit (hfit : ¬ scalarFit ((s.core k).handle hd.toNat) store) :
    s.scalarAct k ra hd imm store go = .fault cHANDLE := by
  unfold State.scalarAct
  dsimp only
  rw [hfree, if_neg (by decide)]
  exact if_pos ((unfit_iff ..).2 hfit)

/-- What a fit handle leaves to be checked. -/
theorem scalarAct_fit (hfit : scalarFit ((s.core k).handle hd.toNat) store) :
    let h := (s.core k).handle hd.toNat
    let off := (s.core k).scalarOff ra imm
    s.scalarAct k ra hd imm store go =
      if off % 8 ≠ 0 then .fault cFORMAT
      else if hEXTENT h < off + 8 then .fault cEXTENT
      else if s.heldBy k [⟨hSPACE h, hBASE h + off, hBASE h + off + 7, store⟩] then .wait s .scoreboard
      else go (hSPACE h) (hBASE h + off) := by
  intro h off
  unfold State.scalarAct
  dsimp only
  rw [hfree, if_neg (by decide)]
  exact if_neg fun hunfit => (unfit_iff ..).1 hunfit hfit

theorem scalarAct_misaligned (hfit : scalarFit ((s.core k).handle hd.toNat) store) (h8 : (s.core k).scalarOff ra imm % 8 ≠ 0) :
    s.scalarAct k ra hd imm store go = .fault cFORMAT := (scalarAct_fit hfree hfit).trans (if_pos h8)

theorem scalarAct_beyond (hfit : scalarFit ((s.core k).handle hd.toNat) store) (h8 : (s.core k).scalarOff ra imm % 8 = 0)
    (hext : hEXTENT ((s.core k).handle hd.toNat) < (s.core k).scalarOff ra imm + 8) :
    s.scalarAct k ra hd imm store go = .fault cEXTENT :=
  (scalarAct_fit hfree hfit).trans ((if_neg (not_not.2 h8)).trans (if_pos hext))

theorem scalarAct_goes (hfit : scalarFit ((s.core k).handle hd.toNat) store) (h8 : (s.core k).scalarOff ra imm % 8 = 0)
    (hext : (s.core k).scalarOff ra imm + 8 ≤ hEXTENT ((s.core k).handle hd.toNat))
    (hbytes : let h := (s.core k).handle hd.toNat
      let at' := hBASE h + (s.core k).scalarOff ra imm
      s.heldBy k [⟨hSPACE h, at', at' + 7, store⟩] = false) :
    s.scalarAct k ra hd imm store go =
      go (hSPACE ((s.core k).handle hd.toNat)) (hBASE ((s.core k).handle hd.toNat) + (s.core k).scalarOff ra imm) := by
  rw [scalarAct_fit hfree hfit, if_neg (not_not.2 h8), if_neg (Nat.not_lt.2 hext)]
  exact if_neg (by rw [hbytes]; exact Bool.false_ne_true)

end Checks

theorem Core.fetched_scalarOff (c : Core) (ra : BitVec 5) (imm : BitVec 8) : c.fetched.scalarOff ra imm = c.scalarOff ra imm := by
  rw [Core.scalarOff, Core.fetched_rdS]; rfl

/-! ## The access (R171) -/

/-- What `SLD` does once its checks are passed. -/
def State.sldGo (s : State) (k : Nat) (rd : BitVec 5) (sp off : Nat) : IRes :=
  .done ((s.poisonNote k sp off 8).modCore k fun x => x.wrS rd (BitVec.ofNat 64 (s.coreNat k sp off 8)))

/-- What `SST` does. -/
def State.sstGo (s : State) (k : Nat) (rs : BitVec 5) (sp off : Nat) : IRes :=
  .done (s.coreWrite k sp off (leBytes 8 ((s.core k).rdS rs).toNat) false)

/-- R434: units that are not poisoned raise no record. -/
theorem poisonNote_clean {space off n : Nat} (h : ∀ u ∈ unitsOf space off n, s.poisoned k space u = false) :
    s.poisonNote k space off n = s := by
  have hnone : (unitsOf space off n).find? (fun u => s.poisoned k space u) = none :=
    List.find?_eq_none.2 fun u hu => by rw [h u hu]; exact Bool.false_ne_true
  rw [State.poisonNote, hnone]

theorem poisonWrites_frame (k space off n : Nat) (psn : Bool) (l : List Nat) (s : State) :
    l.foldl (poisonWrite k space off n psn) s = { s with poison := (l.foldl (poisonWrite k space off n psn) s).poison } := by
  induction l generalizing s with
  | nil => rfl
  | cons u l ih =>
    have hstep : poisonWrite k space off n psn s u = { s with poison := (poisonWrite k space off n psn s u).poison } := by
      unfold poisonWrite
      split_ifs <;> rfl
    exact (ih _).trans (congrArg (fun v : State =>
      { v with poison := (l.foldl (poisonWrite k space off n psn) (poisonWrite k space off n psn s u)).poison }) hstep)

/-- A write into activation or partial-sum memory changes bytes and poison alone. -/
theorem coreWrite_frame {space : Nat} (hspace : space ≠ 0) (s : State) (k off : Nat) (bs : List Byte) (psn : Bool) :
    s.coreWrite k space off bs psn =
      { s with mem := writeMem s.mem (coreAddr k space off) bs, poison := (s.coreWrite k space off bs psn).poison } := by
  have heq : s.coreWrite k space off bs psn = (unitsOf space off bs.length).foldl (poisonWrite k space off bs.length psn)
      { s with mem := writeMem s.mem (coreAddr k space off) bs } := by
    unfold State.coreWrite
    simp only [hspace, false_and, if_false]
    split <;> rfl
  rw [heq]
  exact poisonWrites_frame ..

section Access

variable {c : CoreId} {r : BitVec 5}

/-- Every check of the access passes, and no uncompleted command is in its way. -/
structure State.ScalarFree (s : State) (k : Nat) (ra : BitVec 5) (hd imm : BitVec 8) (store : Bool) : Prop where
  handle : (s.modCore k Core.fetched).heldBy k [⟨4, hd.toNat, hd.toNat, false⟩] = false
  fit : scalarFit ((s.core k).handle hd.toNat) store
  aligned : (s.core k).scalarOff ra imm % 8 = 0
  within : (s.core k).scalarOff ra imm + 8 ≤ hEXTENT ((s.core k).handle hd.toNat)
  bytes : let h := (s.core k).handle hd.toNat
    let at' := hBASE h + (s.core k).scalarOff ra imm
    (s.modCore k Core.fetched).heldBy k [⟨hSPACE h, at', at' + 7, store⟩] = false

theorem scalarAct_fetched (h : s.ScalarFree k ra hd imm store) : (s.modCore k Core.fetched).scalarAct k ra hd imm store go =
    go (hSPACE ((s.core k).handle hd.toNat)) (hBASE ((s.core k).handle hd.toNat) + (s.core k).scalarOff ra imm) := by
  have hcore : (s.modCore k Core.fetched).core k = (s.core k).fetched := State.core_modCore ..
  have hhandle := (s.core k).fetched_handle hd.toNat
  have hoff := (s.core k).fetched_scalarOff ra imm
  have hgoes := scalarAct_goes (ra := ra) (imm := imm) (go := go) h.handle (store := store)
  rw [hcore, hhandle, hoff] at hgoes
  exact hgoes h.fit h.aligned h.within h.bytes

theorem sld_loads (h : s.Fetches (kOf c) (0x20#6 ++ r ++ ra ++ hd ++ imm)) (hfree : s.ScalarFree (kOf c) ra hd imm false) :
    let k := kOf c
    let w := (s.core k).handle hd.toNat
    let off := hBASE w + (s.core k).scalarOff ra imm
    (∀ u ∈ unitsOf (hSPACE w) off 8, s.poisoned k (hSPACE w) u = false) →
    ScalarResult (.sld c r ra hd imm) s k r (BitVec.ofNat 64 (s.coreNat k (hSPACE w) off 8)) := by
  intro k w off hclean
  have hnote : (s.modCore k Core.fetched).poisonNote k (hSPACE w) off 8 = s.modCore k Core.fetched := poisonNote_clean hclean
  have hact : (s.modCore k Core.fetched).scalarAct k ra hd imm false ((s.modCore k Core.fetched).sldGo k r) =
      .done ((s.modCore k Core.fetched).modCore k fun x => x.wrS r (BitVec.ofNat 64 (s.coreNat k (hSPACE w) off 8))) :=
    (scalarAct_fetched hfree).trans
      (congrArg (fun u : State => IRes.done (u.modCore k fun x => x.wrS r (BitVec.ofNat 64 (s.coreNat k (hSPACE w) off 8)))) hnote)
  exact scalarResult_of_done (act := fun s => s.scalarAct k ra hd imm false (s.sldGo k r)) h rfl hact (State.onlyCore_setCore ..)
    (by rw [State.core_modCore, State.core_modCore])

theorem sst_stores (h : s.Fetches (kOf c) (0x21#6 ++ r ++ ra ++ hd ++ imm)) (hfree : s.ScalarFree (kOf c) ra hd imm true) :
    let k := kOf c
    let x := s.core k
    let w := x.handle hd.toNat
    let at' := coreAddr k (hSPACE w) (hBASE w + x.scalarOff ra imm)
    ∃ t, exec (.sst c r ra hd imm) s = .next t ∧ x.GoesOn (t.core k) ∧ (t.core k).sreg = x.sreg ∧
      (t.core k).pred = x.pred ∧ (t.core k).lc = x.lc ∧ (∀ j, j ≠ k → t.core j = s.core j) ∧ t.ctl = s.ctl ∧
      (∀ i, i < 8 → t.byte (at' + i) = BitVec.ofNat 8 ((x.rdS r).toNat / 256 ^ i)) ∧
      (∀ a, (a < at' ∨ at' + 8 ≤ a) → t.byte a = s.byte a) := by
  intro k x w at'
  obtain ⟨u, hu⟩ : ∃ u, u = (s.modCore k Core.fetched).coreWrite k (hSPACE w) (hBASE w + x.scalarOff ra imm)
    (leBytes 8 (x.rdS r).toNat) false := ⟨_, rfl⟩
  have hspace : hSPACE w ≠ 0 := by
    obtain ⟨⟨-, h1 | h2⟩, -⟩ := hfree.fit
    · rw [h1]; decide
    · rw [h2]; decide
  have hframe := coreWrite_frame hspace (s.modCore k Core.fetched) k (hBASE w + x.scalarOff ra imm) (leBytes 8 (x.rdS r).toNat) false
  rw [← hu] at hframe
  have hact : (s.modCore k Core.fetched).scalarAct k ra hd imm true ((s.modCore k Core.fetched).sstGo k r) = .done u := by
    rw [scalarAct_fetched hfree, State.sstGo, State.core_modCore, Core.fetched_rdS, hu]
  have hcore (j : Nat) : u.core j = (s.modCore k Core.fetched).core j := by rw [hframe]; rfl
  have hmem : u.mem = writeMem s.mem at' (leBytes 8 (x.rdS r).toNat) := by rw [hframe]; rfl
  have hexec : exec (.sst c r ra hd imm) s = .next (s.instr k (0x21#6 ++ r ++ ra ++ hd ++ imm) true isScoreboard fun s =>
      s.scalarAct k ra hd imm true (s.sstGo k r)) := rfl
  refine ⟨_, hexec.trans (congrArg _ (State.instr_done h hact)), ?_, ?_, ?_, ?_, fun j hj => ?_, ?_, fun i hi => ?_, fun a ha => ?_⟩
  · rw [State.core_queueLines, State.core_modCore, hcore, State.core_modCore]
    exact Core.goesOn_of_fetched (.refl _) (Core.fetched_loops _) (Core.fetched_retired _)
  · simp [hcore, x, k]
  · simp [hcore, x, k]
  · simp [hcore, x, k]
  · rw [State.core_queueLines, State.core_modCore_ne _ _ hj, hcore, State.core_modCore_ne _ _ hj]
  · change u.ctl = s.ctl
    rw [hframe]
    rfl
  · have hlt : i < (leBytes 8 (x.rdS r).toNat).length := by rw [length_leBytes]; exact hi
    change Tbl.get 0 u.mem (at' + i) = _
    rw [hmem, get_writeMem_in _ _ _ _ hlt, getElem_leBytes]
  · change Tbl.get 0 u.mem a = _
    rw [hmem]
    exact get_writeMem_out _ _ _ _ (by rwa [length_leBytes])

end Access

/-! ## Faults (R155) -/

/-- The three faults of an access, in their order. -/
theorem scalar_faults {i : Instr} {w : BitVec 32} (h : s.Fetches k w) (act : State → Nat → Nat → IRes)
    (hexec : exec i s = .next (s.instr k w true isScoreboard fun s => s.scalarAct k ra hd imm store (act s)))
    (hfree : (s.modCore k Core.fetched).heldBy k [⟨4, hd.toNat, hd.toNat, false⟩] = false) :
    let x := s.core k
    let v := x.handle hd.toNat
    let off := x.scalarOff ra imm
    (¬ scalarFit v store → FaultResult i s k cHANDLE) ∧ (scalarFit v store → off % 8 ≠ 0 → FaultResult i s k cFORMAT) ∧
      (scalarFit v store → off % 8 = 0 → hEXTENT v < off + 8 → FaultResult i s k cEXTENT) := by
  intro x v off
  have hcore : (s.modCore k Core.fetched).core k = x.fetched := State.core_modCore ..
  have hunfit := scalarAct_unfit (ra := ra) (imm := imm) (store := store) (go := act (s.modCore k Core.fetched)) hfree
  have hmis := scalarAct_misaligned (ra := ra) (imm := imm) (store := store) (go := act (s.modCore k Core.fetched)) hfree
  have hbeyond := scalarAct_beyond (ra := ra) (imm := imm) (store := store) (go := act (s.modCore k Core.fetched)) hfree
  rw [hcore, x.fetched_handle] at hunfit hmis hbeyond
  rw [x.fetched_scalarOff] at hmis hbeyond
  exact ⟨fun hfit => faultResult_of_fault h hexec (hunfit hfit), fun hfit h8 => faultResult_of_fault h hexec (hmis hfit h8),
    fun hfit h8 hext => faultResult_of_fault h hexec (hbeyond hfit h8 hext)⟩

/-- What R171 needs of a faulting access. -/
theorem FaultResult.access {i : Instr} {code : Nat} (h : FaultResult i s k code) :
    ∃ t, exec i s = .next t ∧ (t.core k).run = false ∧ (t.core k).haltCode = code ∧ (t.core k).haltAddr = (s.core k).pc ∧
      (t.core k).sreg = (s.core k).sreg ∧ t.mem = s.mem := by
  obtain ⟨t, hexec, hrun, hcode, haddr, -, hsreg, -, hmem⟩ := h
  exact ⟨t, hexec, hrun, hcode, haddr, hsreg, hmem⟩

/-- Settles O13: the access where every check passes, and the first check that fails. -/
theorem scalarMemory : Obligations.ScalarMemory := by
  refine ⟨fun c r ra hd imm s => ?_, fun c r ra hd imm s => ?_⟩
  · intro k x f h off hvalid hspace h8 hext hhandle at'
    exact ⟨fun hfetch hrd hbytes hclean => sld_loads hfetch ⟨hhandle, ⟨⟨hvalid, hspace⟩, hrd⟩, h8, hext, hbytes⟩ hclean,
      fun hfetch hwr hbytes => sst_stores hfetch ⟨hhandle, ⟨⟨hvalid, hspace⟩, hwr⟩, h8, hext, hbytes⟩⟩
  · intro k x h off faults fit hhandle
    refine ⟨fun hfetch => ?_, fun hfetch => ?_⟩
    · obtain ⟨hunfit, hmis, hbeyond⟩ := scalar_faults (i := .sld c r ra hd imm) (store := false) hfetch
        (fun s => s.sldGo k r) rfl hhandle
      exact ⟨fun hbad => (hunfit hbad).access, fun hfit hrd hoff => (hmis ⟨hfit, hrd⟩ hoff).access,
        fun hfit hrd hoff hext => (hbeyond ⟨hfit, hrd⟩ hoff hext).access⟩
    · obtain ⟨hunfit, hmis, hbeyond⟩ := scalar_faults (i := .sst c r ra hd imm) (store := true) hfetch
        (fun s => s.sstGo k r) rfl hhandle
      exact ⟨fun hbad => (hunfit hbad).access, fun hfit hwr hoff => (hmis ⟨hfit, hwr⟩ hoff).access,
        fun hfit hwr hoff hext => (hbeyond ⟨hfit, hwr⟩ hoff hext).access⟩

end Sys2Proof.Machine
end

