-- ==== Sys2Proof/Proofs/WaitsAndPasses.lean ====
section
/-! PROOFS. `CWAIT` and its ends, `PASS` and the inputs that it takes (R157, R158, R172, R219, R220, R324, R331). -/

namespace Sys2Proof.Machine

variable {s t u : State} {k : Nat}

/-! ## What the inputs of a pass leave of a core (R331) -/

/-- A core but for its restore, in which a commit word's write may be noted (R437). -/
def Core.sansRestore (c : Core) : Core := { c with restore := none }

theorem Core.eq_of_sansRestore {c c' : Core} (h : c'.sansRestore = c.sansRestore) : c' = { c with restore := c'.restore } :=
  congrArg (fun x : Core => { x with restore := c'.restore }) h

theorem inputWord_alike (s : State) (k : Nat) (pl : Plate) (x : PendingInput) :
    s.CoresAlike Core.sansRestore (s.inputWord k pl x) := by
  unfold State.inputWord
  split
  · exact .of_cores rfl
  · have hlands := coreWrite_lands s k (hSPACE ((s.core k).handle pl.commitH)) (hBASE ((s.core k).handle pl.commitH) + pl.commitOff)
    exact .of_core (by rw [(hlands _ _).core]; rfl) (hlands _ _).others

theorem takeInputs_alike (s : State) (k : Nat) : s.CoresAlike Core.sansRestore (s.takeInputs k) := by
  unfold State.takeInputs
  dsimp only
  split
  · exact .refl s
  · exact .trans (.foldl (fun t x => inputWord_alike t k _ x) _ s) (.of_cores rfl)

/-! ## The journal and its replay (R321 to R324) -/

theorem raise_cores {r : ErrRec} (h : r.cls ≠ 3) (s : State) : (s.raise r).cores = s.cores := by rw [raise_frame_lt s r h]

theorem raiseOpen_cores {r : ErrRec} (h : r.cls ≠ 3) (s : State) : (s.raiseOpen r).cores = s.cores := by
  unfold State.raiseOpen
  rw [raise_cores (by exact h)]
  rfl

theorem replayNote_cores (s : State) (p : Nat) (e : JnlEntry) : (s.replayNote p e).cores = s.cores := by
  unfold State.replayNote
  split
  · split
    · rfl
    · exact raiseOpen_cores (by simp) _
  · rfl

theorem deviceWrite_cores (s : State) (p win off : Nat) (bytes : List Byte) : (s.deviceWrite p win off bytes).cores = s.cores := by
  unfold State.deviceWrite
  split <;> rfl

theorem jnlAppend_cores (s : State) (p : Nat) (e : JnlEntry) : (s.jnlAppend p e).cores = s.cores := by
  unfold State.jnlAppend
  dsimp only
  split
  · rfl
  · rw [deviceWrite_cores]
    split <;> rfl

theorem journal_cores (s : State) (p kind : Nat) (dig : Bool) (source data : Nat) :
    (s.journal p kind dig source data).cores = s.cores := by
  unfold State.journal
  dsimp only
  rw [jnlAppend_cores]
  split
  · rfl
  · exact replayNote_cores ..

/-! ## Inputs of registers (R330 to R333, R350) -/

theorem spread_alike (s : State) (p : Nat) (pl : Plate) (x : PassInput) (P : BitVec 32) :
    s.CoresAlike Core.sansRestore (s.spread p pl x P) := by
  have hwords (l : List Nat) (t : State) : t.CoresAlike Core.sansRestore (l.foldl (fun s k => s.inputWord k pl ⟨P, x, pl.started⟩) t) :=
    .foldl (fun t k => inputWord_alike t k pl _) l t
  have hlate (l : List Nat) (t : State) :
      t.CoresAlike Core.sansRestore (l.foldl (fun s k => s.raise (s.coreRec k 1 0x62 (BitVec.ofNat 16 cFORMAT))) t) :=
    .foldl (fun t k => .of_cores (raise_cores (by simp [State.coreRec]) t)) l t
  unfold State.spread
  dsimp only
  exact .ite (.trans (hwords _ _) (hlate _ _)) (.trans (.trans (hwords _ _) (hlate _ _)) (.of_cores rfl))

theorem accept_alike (s : State) (p : Nat) (x : PassInput) (named : BitVec 32) :
    s.CoresAlike Core.sansRestore (s.accept p x named).2 := by
  unfold State.accept
  dsimp only
  split
  · refine .trans (.of_cores ?_) (spread_alike ..)
    cases x <;> exact journal_cores ..
  · exact .refl s

theorem slotInput_alike (s : State) (p w : Nat) (v : Word) (named : BitVec 32) :
    s.CoresAlike Core.sansRestore (s.slotInput p w v named).2 := by
  unfold State.slotInput
  split
  · exact .refl s
  · split
    · exact .refl s
    · split
      · exact .refl s
      · exact accept_alike ..

theorem commitInput_alike (s : State) (p : Nat) (e named : BitVec 32) :
    s.CoresAlike Core.sansRestore (s.commitInput p e named) := by
  unfold State.commitInput
  split
  · exact .of_cores rfl
  · exact .ite (.of_cores rfl) (.ite ((accept_alike ..).trans (.of_cores rfl)) (.of_cores rfl))

theorem input_alike (s : State) (p : Nat) (x : PassInput) (named : BitVec 32) :
    s.CoresAlike Core.sansRestore (s.input p x named) := by
  cases x
  · exact slotInput_alike ..
  · exact commitInput_alike ..

/-- What replay mode holds back is taken one after the other. -/
theorem takeHeld_alike (p : Nat) (l : List HeldInput) (s : State) :
    s.CoresAlike Core.sansRestore (takeHeld p (fun _ _ => none) l s) := by
  induction l generalizing s with
  | nil => exact .of_cores rfl
  | cons x l ih =>
    unfold takeHeld
    dsimp only
    refine .ite (.of_cores rfl) ?_
    split
    · exact (input_alike ..).trans (ih _)
    · exact (State.CoresAlike.of_cores (replayNote_cores ..)).trans (ih _)
    · exact .of_cores rfl

theorem passBegun_alike (s : State) (k : Nat) : s.CoresAlike Core.sansRestore (s.passBegun k) :=
  .ite (takeHeld_alike ..) (.refl s)

/-! ## `PASS` (R157, R158) -/

/-- The core with the slot map taken and its pass counted. -/
def Core.passed (c : Core) (snap : Tbl Word) : Core := { c with snap := snap, passCount := (c.passCount + 1) % 2 ^ 64 }

theorem passAct_core (s : State) (k : Nat) :
    ∃ r, (s.passAct k).core k = { (s.core k).passed (s.slotmapOf k) with restore := r } := by
  have halike : State.CoresAlike Core.sansRestore (s.modCore k fun c => c.passed (s.slotmapOf k)) (s.passAct k) :=
    .trans (.trans (.of_cores (traceEv_notes ..).cores) (takeInputs_alike ..)) (passBegun_alike ..)
  have hcore := Core.eq_of_sansRestore (halike.at_core k)
  rw [State.core_modCore] at hcore
  exact ⟨_, hcore⟩

/-- A table filled from a function, entry by entry. -/
theorem get_foldl_set (f : Nat → Word) (n w : Nat) :
    Tbl.get 0 ((List.range n).foldl (fun t w => Tbl.set 0 t w (f w)) []) w = if w < n then f w else 0 := by
  induction n with
  | zero => rfl
  | succ n ih =>
    rw [List.range_succ, List.foldl_append, List.foldl_cons, List.foldl_nil, Tbl.get_set, ih]
    by_cases hw : w = n
    · rw [if_pos hw, if_pos (by omega), hw]
    · have hlt : w < n + 1 ↔ w < n := by omega
      simp only [hw, hlt, if_false]

theorem get_slotmapOf (s : State) (k : Nat) {w : Nat} (hw : w < 64) :
    Tbl.get 0 (s.slotmapOf k) w = s.rd (aCoreK k (0x800 + 8 * w)) :=
  (get_foldl_set (fun w => s.rd (aCoreK k (0x800 + 8 * w))) 64 w).trans (if_pos hw)

theorem pass_spec {c : CoreId} (h : s.Fetches (kOf c) (0x23#6 ++ 0#26))
    (hfree : (s.modCore (kOf c) Core.fetched).passHeld (kOf c) = false) :
    let k := kOf c
    let x := s.core k
    ∃ t, exec (.pass c 0) s = .next t ∧ x.Advances (t.core k) ∧ (t.core k).passCount = (x.passCount + 1) % 2 ^ 64 ∧
      (∀ w, w < 64 → Tbl.get 0 (t.core k).snap w = s.rd (aCoreK k (0x800 + 8 * w))) ∧ (t.core k).sreg = x.sreg ∧
      (t.core k).pred = x.pred ∧ (t.core k).fifo = x.fifo := by
  intro k x
  obtain ⟨r, hcore⟩ := passAct_core (s.modCore k Core.fetched) k
  rw [State.core_modCore] at hcore
  have hact : (if (s.modCore k Core.fetched).passHeld k then .wait (s.modCore k Core.fetched) .none
      else IRes.done ((s.modCore k Core.fetched).passAct k)) = .done ((s.modCore k Core.fetched).passAct k) :=
    if_neg (by rw [hfree]; exact Bool.false_ne_true)
  have hexec : exec (.pass c 0) s = .next (s.instr k (0x23#6 ++ 0#26) true noStall fun s =>
      if s.passHeld k then .wait s .none else .done (s.passAct k)) := rfl
  refine ⟨_, hexec.trans (congrArg _ (State.instr_done h hact)), ?_⟩
  rw [State.core_queueLines, State.core_modCore, hcore]
  refine ⟨Core.advances_goOn x.fetched_loops x.fetched_retired, ?_, fun w hw => ?_, x.fetched_sreg, x.fetched_pred, x.fetched_fifo⟩
  · exact congrArg (fun n => (n + 1) % 2 ^ 64) x.fetched_passCount
  · exact get_slotmapOf (s.modCore k Core.fetched) k hw

/-! ## `CWAIT` (R172, R219, R220) -/

/-- What `CWAIT` does once it is fetched. -/
def State.cwaitAct (s : State) (k : Nat) (pd : BitVec 3) (ra rb : BitVec 5) (flag : BitVec 8) : IRes :=
  if satisfies ((s.core k).flag flag.toNat) (((s.core k).rdS ra).setWidth 32) then s.onCore k fun y => y.wrP pd true
  else .wait (s.modCore k fun y => { y with met := false })
    (.cwait pd.toNat (((s.core k).rdS ra).setWidth 32) flag.toNat s.tick ((s.core k).rdS rb).toNat)

theorem satisfies_iff (f v : BitVec 32) : satisfies f v = true ↔ (f - v).toNat < 2 ^ 31 := decide_eq_true_iff

/-- R220: the deadline of a wait has not passed. -/
theorem not_expired_iff (now t0 n : Nat) : expired now t0 n = false ↔ n = 0 ∨ now ≤ t0 + n := by
  unfold expired
  by_cases hn : n = 0 <;> simp [hn]

section Cwait

variable {c : CoreId} {pd : BitVec 3} {ra rb : BitVec 5} {flag : BitVec 8}

section Fetched

variable (h : s.Fetches (kOf c) (0x24#6 ++ pd ++ ra ++ rb ++ flag ++ 0#5))

include h

theorem cwait_satisfied
    (hsat : ((s.core (kOf c)).flag flag.toNat - ((s.core (kOf c)).rdS ra).setWidth 32).toNat < 2 ^ 31) :
    PredicateResult (.cwait c pd ra rb flag 0) s (kOf c) pd true := by
  refine predicateResult_onCore (act := fun s => s.cwaitAct (kOf c) pd ra rb flag) (f := fun y => y.wrP pd true) h rfl ?_ rfl
  unfold State.cwaitAct
  rw [State.core_modCore, Core.fetched_flag, Core.fetched_rdS]
  exact if_pos ((satisfies_iff ..).2 hsat)

theorem cwait_stalls :
    let k := kOf c
    let x := s.core k
    let v : BitVec 32 := (x.rdS ra).setWidth 32
    2 ^ 31 ≤ (x.flag flag.toNat - v).toNat →
      ∃ t, exec (.cwait c pd ra rb flag 0) s = .next t ∧ s.OnlyCore k t ∧ x.SameBut (t.core k) ∧
        (t.core k).stall = .cwait pd.toNat v flag.toNat s.tick (x.rdS rb).toNat ∧ (t.core k).met = false ∧
        (t.core k).pc = x.pc ∧ (t.core k).retired = x.retired := by
  intro k x v hunsat
  have hact : (s.modCore k Core.fetched).cwaitAct k pd ra rb flag =
      .wait ((s.modCore k Core.fetched).modCore k fun y => { y with met := false })
        (.cwait pd.toNat v flag.toNat s.tick (x.rdS rb).toNat) := by
    unfold State.cwaitAct
    rw [State.core_modCore, Core.fetched_flag, Core.fetched_rdS, Core.fetched_rdS]
    exact if_neg fun hsat => Nat.not_lt.2 hunsat ((satisfies_iff ..).1 hsat)
  have hexec : exec (.cwait c pd ra rb flag 0) s = .next (s.instr k (0x24#6 ++ pd ++ ra ++ rb ++ flag ++ 0#5) true noStall
      fun s => s.cwaitAct k pd ra rb flag) := rfl
  refine ⟨_, hexec.trans (congrArg _ (State.instr_wait h hact)), State.onlyCore_instruction (State.onlyCore_setCore ..) _, ?_⟩
  rw [State.core_queueLines, State.core_modCore, State.core_modCore, State.core_modCore]
  exact ⟨x.sameBut_fetched.trans rfl, rfl, rfl, x.fetched_pc, x.fetched_retired⟩

end Fetched

/-- The end of a stall: the predicate is written, and the core goes on. -/
theorem endCwait_result {i : Instr} {b : Bool} (hexec : exec i s = .next (s.endCwait k pd.toNat b)) : PredicateResult i s k pd b := by
  have hpd : BitVec.ofNat 3 pd.toNat = pd := BitVec.eq_of_toNat_eq (by simp)
  refine ⟨_, hexec, State.onlyCore_setCore .., ?_, ?_⟩
  · rw [State.endCwait, State.core_modCore, hpd]
    exact ⟨(Core.sameBut_wrP ..).trans (Core.sameBut_goOn ..), Core.advances_goOn (Core.wrP_loops ..) (Core.wrP_retired ..)⟩
  · rw [State.endCwait, State.core_modCore, hpd]
    exact Core.writesP_of_wrP rfl (by simp) (by simp)

section Stalled

variable {th : BitVec 32} {f t0 n : Nat} (hpow : s.powered = true) (hrun : (s.core (kOf c)).run = true)
  (hfrozen : (s.core (kOf c)).frozen = false) (hstall : (s.core (kOf c)).stall = .cwait pd.toNat th f t0 n)

include hpow hrun hfrozen hstall

theorem cwaitArrival_ends (harrived : (s.core (kOf c)).met = true ∨
      (((s.core (kOf c)).flag f - th).toNat < 2 ^ 31 ∧ (n = 0 ∨ s.tick ≤ t0 + n))) :
    PredicateResult (.cwaitArrival c) s (kOf c) pd true := by
  have hmet : ((s.core (kOf c)).met || (satisfies ((s.core (kOf c)).flag f) th && !expired s.tick t0 n)) = true := by
    rw [← satisfies_iff, ← not_expired_iff] at harrived
    simpa using harrived
  have hends : s.cwaitArrives (kOf c) = s.endCwait (kOf c) pd.toNat true := by
    unfold State.cwaitArrives
    dsimp only
    rw [hstall]
    exact if_pos (by rw [hpow, hrun, hfrozen, hmet]; rfl)
  exact endCwait_result (congrArg Host.Outcome.next hends)

theorem cwaitTimeout_ends (hmet : (s.core (kOf c)).met = false) (hn : n ≠ 0) (hlate : t0 + n < s.tick) :
    PredicateResult (.cwaitTimeout c) s (kOf c) pd false := by
  have hexpired : expired s.tick t0 n = true := by simp [expired, hn, hlate]
  have hends : s.cwaitExpires (kOf c) = s.endCwait (kOf c) pd.toNat false := by
    unfold State.cwaitExpires
    dsimp only
    rw [hstall]
    exact if_pos (by rw [hpow, hrun, hfrozen, hmet, hexpired]; rfl)
  exact endCwait_result (congrArg Host.Outcome.next hends)

end Stalled

end Cwait

/-- Settles O14: a `CWAIT` that is satisfied or stalls, the two ends of its stall, and `PASS`. -/
theorem waitAndPass : Obligations.WaitAndPass := by
  refine ⟨fun c pd ra rb flag s => ?_, fun c s => pass_spec⟩
  intro k x v
  exact ⟨fun h => ⟨cwait_satisfied h, cwait_stalls h⟩, fun hpow hrun hfrozen th f t0 n hstall =>
    ⟨cwaitArrival_ends hpow hrun hfrozen hstall, cwaitTimeout_ends hpow hrun hfrozen hstall⟩⟩

end Sys2Proof.Machine
end

