-- ==== Sys2Proof/Proofs/InstructionLines.lean ====
section
/-! PROOFS. Instruction lines: what the program store serves, and `PRIME` (R175 to R178, R435). -/

namespace Sys2Proof.Machine

variable {s : State} {k line : Nat} {c : CoreId}

/-! ## The cache (R175) -/

theorem mem_evict {line : Nat} {l : List (Nat × List Byte)} {e : Nat × List Byte} (h : e ∈ evict line l) : e ∈ l := by
  unfold evict at h
  split at h
  · exact h
  · exact List.mem_of_mem_eraseP h

/-- R175: the line that arrives is found in the cache. -/
theorem cached_install (c : Core) (line : Nat) (bs : List Byte) : (c.install line bs).cached line = some bs := by
  have hnone : (evict line (c.icache.filter (·.1 ≠ line))).find? (fun e => e.1 = line) = none :=
    List.find?_eq_none.2 fun e he => by simpa using (List.mem_filter.1 (mem_evict he)).2
  rw [Core.cached, Core.install, List.find?_append, hnone]
  simp

/-! ## The program store's queue (R176, R435) -/

theorem lineArrives_unserved {bad : Bool} (h : s.oldestLine (keyDie k) ≠ some (k, line)) : s.lineArrives k line bad = s :=
  if_pos (by simp [h])

/-- The oldest request is one that its core still awaits. -/
theorem oldestLine_awaited (h : s.oldestLine (keyDie k) = some (k, line)) : line ∈ (s.core k).fills := by
  have hfound := List.find?_some h
  simp only [Bool.and_eq_true, decide_eq_true_eq] at hfound
  exact hfound.2

section Served

variable (hpow : s.powered = true) (hold : s.oldestLine (keyDie k) = some (k, line))

include hpow hold

theorem lineArrives_delivers : s.lineArrives k line false =
    ({ s with lineQ := s.lineQ.erase (k, line) } : State).modCore k fun c =>
      c.install line (readMem s.mem (storeAddr (keyDie k) (line * 128)) 128) :=
  if_neg (by simp [hpow, hold])

/-- R435: a line that fails parity counts one event. -/
def State.lineRec (s : State) (k line : Nat) : ErrRec :=
  { s.coreRec k 0 0x14 (BitVec.ofNat 16 cPARITY) with rkind := 2, res := k, detail := line * 128 }

theorem lineArrives_refuses : s.lineArrives k line true =
    (({ s with lineQ := s.lineQ.erase (k, line) } : State).raise
      (({ s with lineQ := s.lineQ.erase (k, line) } : State).lineRec k line)).queueLines k :=
  if_neg (by simp [hpow, hold])

end Served

/-- Every line that a core awaits is asked for. -/
theorem mem_lineQ_queueLines (h : line ∈ (s.core k).fills) : (k, line) ∈ (s.queueLines k).lineQ := by
  by_cases hq : (k, line) ∈ s.lineQ
  · exact List.mem_append_left _ hq
  · exact List.mem_append_right _ (List.mem_map.2 ⟨line, List.mem_filter.2 ⟨h, by simpa using hq⟩, rfl⟩)

theorem lineFill_delivers (hpow : s.powered = true) (hold : s.oldestLine (keyDie (kOf c)) = some (kOf c, line)) :
    let k := kOf c
    let x := s.core k
    ∃ t, exec (.icacheLineFill c line false) s = .next t ∧ t = { s with cores := t.cores, lineQ := s.lineQ.erase (k, line) } ∧
      (∀ j, j ≠ k → t.core j = s.core j) ∧ (t.core k).fills = x.fills.filter (· ≠ line) ∧
      (t.core k).cached line = some ((List.range 128).map fun i => s.byte (storeAddr (keyDie k) (line * 128) + i)) ∧
      (t.core k).sreg = x.sreg ∧ (t.core k).pc = x.pc ∧ (t.core k).run = x.run := by
  intro k x
  have hexec : exec (.icacheLineFill c line false) s = .next (s.lineArrives k line false) := rfl
  have hcore := State.core_modCore ({ s with lineQ := s.lineQ.erase (k, line) } : State) k fun c =>
    c.install line (readMem s.mem (storeAddr (keyDie k) (line * 128)) 128)
  refine ⟨_, hexec.trans (congrArg _ (lineArrives_delivers hpow hold)), rfl, fun j hj => State.core_modCore_ne _ _ hj, ?_⟩
  rw [hcore]
  exact ⟨rfl, cached_install .., rfl, rfl, rfl⟩

theorem lineFill_refuses (hpow : s.powered = true) (hold : s.oldestLine (keyDie (kOf c)) = some (kOf c, line)) :
    let k := kOf c
    ∃ t, exec (.icacheLineFill c line true) s = .next t ∧ (k, line) ∈ t.lineQ ∧ (t.core k).fills = (s.core k).fills ∧
      (t.core k).icache = (s.core k).icache ∧ t.mem = s.mem := by
  intro k
  obtain ⟨u, hu⟩ : ∃ u, u = ({ s with lineQ := s.lineQ.erase (k, line) } : State) := ⟨_, rfl⟩
  have hexec : exec (.icacheLineFill c line true) s = .next (s.lineArrives k line true) := rfl
  have hserved := lineArrives_refuses hpow hold
  have hframe := raise_frame_lt u (u.lineRec k line) (by simp [State.lineRec, State.coreRec])
  have hcore : (u.raise (u.lineRec k line)).core k = s.core k := by rw [hframe, hu]; rfl
  rw [← hu] at hserved
  refine ⟨_, hexec.trans (congrArg _ hserved), mem_lineQ_queueLines ?_, ?_, ?_, ?_⟩
  · rw [hcore]
    exact oldestLine_awaited hold
  · rw [State.core_queueLines, hcore]
  · rw [State.core_queueLines, hcore]
  · change (u.raise (u.lineRec k line)).mem = s.mem
    rw [hframe, hu]

/-! ## `PRIME` (R177) -/

/-- The core having asked for `n` lines from `first` on. -/
def Core.wants (c : Core) (first n : Nat) : Core := (List.range n).foldl (fun y i => y.want (first + i)) c

theorem Core.wants_succ (c : Core) (first n : Nat) : c.wants first (n + 1) = (c.wants first n).want (first + n) := by
  simp [Core.wants, List.range_succ]

theorem Core.want_eq (c : Core) (line : Nat) : c.want line = { c with fills := (c.want line).fills } := by
  unfold Core.want
  split <;> rfl

theorem Core.wants_eq (c : Core) (first n : Nat) : c.wants first n = { c with fills := (c.wants first n).fills } := by
  induction n with
  | zero => rfl
  | succ n ih =>
    rw [Core.wants_succ]
    exact (Core.want_eq ..).trans (congrArg (fun y : Core => { y with fills := ((c.wants first n).want (first + n)).fills }) ih)

theorem Core.fills_sub_want (c : Core) (line : Nat) : c.fills ⊆ (c.want line).fills := by
  unfold Core.want
  split
  · exact List.subset_append_left ..
  · exact List.Subset.refl _

theorem Core.mem_fills_want {c : Core} {line : Nat} (hwin : c.inWindow (line * 128) = true) (hnone : (c.cached line).isNone = true) :
    line ∈ (c.want line).fills := by
  unfold Core.want
  split
  · exact List.mem_append_right _ List.mem_cons_self
  · next hno => exact not_not.1 fun hmem => hno ⟨hwin, hnone, hmem⟩

/-- R177: every line of the range that lies in the window and is not present is awaited. -/
theorem Core.mem_fills_wants {c : Core} {first n i : Nat} (hi : i < n) (hwin : c.inWindow ((first + i) * 128) = true)
    (hnone : (c.cached (first + i)).isNone = true) : first + i ∈ (c.wants first n).fills := by
  induction n with
  | zero => exact absurd hi (Nat.not_lt_zero i)
  | succ n ih =>
    rw [Core.wants_succ]
    by_cases hin : i = n
    · rw [hin] at hwin hnone ⊢
      refine Core.mem_fills_want ?_ ?_
      · rw [Core.wants_eq]; exact hwin
      · rw [Core.wants_eq]; exact hnone
    · exact Core.fills_sub_want _ _ (ih (by omega))

/-- The core of a `PRIME` that is taken: its lines asked for, itself outstanding while one of them is awaited. -/
def Core.primed (c : Core) (first n : Nat) : Core :=
  let y := c.wants first n
  let mine := y.fills.filter fun l => first ≤ l ∧ l ≤ first + (n - 1)
  { y with primes := if mine = [] then y.primes else y.primes ++ [mine] }

theorem Core.primed_eq (c : Core) (first n : Nat) :
    c.primed first n = { c with fills := (c.wants first n).fills, primes := (c.primed first n).primes } :=
  congrArg (fun y : Core => { y with primes := (c.primed first n).primes }) (c.wants_eq first n)

/-- What `PRIME` does once it is fetched. -/
def State.primeAct (s : State) (k : Nat) (ra count : BitVec 5) : IRes :=
  if 4 ≤ (s.core k).primes.length then .wait s .prime
  else .done (s.setCore k ((s.core k).primed (((((s.core k).rdS ra).setWidth 22 : BitVec 22)).toNat / 128) (count.toNat + 1)))

theorem exec_prime (c : CoreId) (ra count : BitVec 5) (s : State) : exec (.prime c ra 0 count) s =
    .next (s.instr (kOf c) (0x29#6 ++ ra ++ 0#16 ++ count) true isPrime fun s => s.primeAct (kOf c) ra count) := rfl

section Prime

variable {ra count : BitVec 5} (h : s.Fetches (kOf c) (0x29#6 ++ ra ++ 0#16 ++ count))

include h

theorem prime_asks (hroom : (s.core (kOf c)).primes.length < 4) :
    let k := kOf c
    let x := s.core k
    ∃ t, exec (.prime c ra 0 count) s = .next t ∧ s.OnlyCore k t ∧ x.Advances (t.core k) ∧
      (∀ i, i ≤ count.toNat →
        let line := ((x.rdS ra).setWidth 22 : BitVec 22).toNat / 128 + i
        x.inWindow (line * 128) = true → (x.fetched.cached line).isNone = true →
          line ∈ (t.core k).fills ∧ (k, line) ∈ t.lineQ) ∧
      (t.core k).sreg = x.sreg ∧ (t.core k).pred = x.pred ∧ (t.core k).lc = x.lc ∧ (t.core k).fifo = x.fifo := by
  intro k x
  obtain ⟨first, hfirst⟩ : ∃ first, first = ((x.rdS ra).setWidth 22 : BitVec 22).toNat / 128 := ⟨_, rfl⟩
  have hact : (s.modCore k Core.fetched).primeAct k ra count =
      .done ((s.modCore k Core.fetched).setCore k (x.fetched.primed first (count.toNat + 1))) := by
    rw [State.primeAct, State.core_modCore, Core.fetched_primes, Core.fetched_rdS, hfirst]
    exact if_neg (Nat.not_le.2 hroom)
  have hprimed := x.fetched.primed_eq first (count.toNat + 1)
  have hcore : (((s.modCore k Core.fetched).setCore k (x.fetched.primed first (count.toNat + 1))).modCore k fun c =>
      c.goOn x.pc.toNat).core k = (x.fetched.primed first (count.toNat + 1)).goOn x.pc.toNat := by
    rw [State.core_modCore, State.core_setCore]
  have hlines : ∀ i, i ≤ count.toNat → x.inWindow ((first + i) * 128) = true → (x.fetched.cached (first + i)).isNone = true →
      first + i ∈ (x.fetched.primed first (count.toNat + 1)).fills := fun i hi hwin hnone => by
    rw [hprimed]
    exact Core.mem_fills_wants (Nat.lt_succ_of_le hi) (by rwa [Core.fetched_inWindow]) hnone
  refine ⟨_, (exec_prime ..).trans (congrArg _ (State.instr_done h hact)), State.onlyCore_instruction (State.onlyCore_setCore ..) _,
    ?_, fun i hi hwin hnone => ?_, ?_⟩
  · rw [State.core_queueLines, hcore, hprimed]
    exact Core.advances_goOn x.fetched_loops x.fetched_retired
  · rw [← hfirst] at hwin hnone ⊢
    rw [State.core_queueLines]
    exact ⟨by rw [hcore]; exact hlines i hi hwin hnone, mem_lineQ_queueLines (by rw [hcore]; exact hlines i hi hwin hnone)⟩
  · rw [State.core_queueLines, hcore, hprimed]
    exact ⟨x.fetched_sreg, x.fetched_pred, x.fetched_lc, x.fetched_fifo⟩

theorem prime_stalls (hfull : 4 ≤ (s.core (kOf c)).primes.length) :
    let k := kOf c
    let x := s.core k
    ∃ t, exec (.prime c ra 0 count) s = .next t ∧ s.OnlyCore k t ∧ x.SameBut (t.core k) ∧ (t.core k).stall = .prime ∧
      (t.core k).pc = x.pc ∧ (t.core k).retired = x.retired := by
  intro k x
  have hact : (s.modCore k Core.fetched).primeAct k ra count = .wait (s.modCore k Core.fetched) .prime :=
    if_pos (by rw [State.core_modCore, Core.fetched_primes]; exact hfull)
  refine ⟨_, (exec_prime ..).trans (congrArg _ (State.instr_wait h hact)), State.onlyCore_instruction (.refl ..) _, ?_⟩
  rw [State.core_queueLines, State.core_modCore, State.core_modCore]
  exact ⟨x.sameBut_fetched.trans rfl, rfl, x.fetched_pc, x.fetched_retired⟩

end Prime

/-- Settles O16: the line that the store serves, sound or not, and `PRIME` with room or without. -/
theorem instructionLines : Obligations.InstructionLines := by
  intro c s k x
  exact ⟨fun line hpow hold => ⟨lineFill_delivers hpow hold, lineFill_refuses hpow hold⟩,
    fun line bad _ hnot => congrArg Host.Outcome.next (lineArrives_unserved hnot), fun ra count h => ⟨prime_asks h, prime_stalls h⟩⟩

end Sys2Proof.Machine
end

