-- ==== Sys2Proof/Proofs/CompositorControl.lean ====
section
/-! PROOFS. Starting and stopping a compositor, `CMP_PC` and `CMP_CODE` (R163, R174, R180, R317, R414, R516). -/

namespace Sys2Proof.Machine

variable {s : State} {k : Nat} {c : CoreId} {v : Word}

/-! ## The bits of `CMP_CTRL` (R180) -/

theorem getF_bit (v : Word) (i : Nat) : getF v i 1 = if v.getLsbD i = true then 1 else 0 := by
  rw [getF, bits, Nat.pow_one, BitVec.getLsbD, Nat.testBit_eq_decide_div_mod_eq, Nat.shiftRight_eq_div_pow]
  by_cases h : v.toNat / 2 ^ i % 2 = 1
  · simp [h]
  · simp [h]; omega

/-- R180: START, STOP, or both written. -/
theorem cmpCtrl_start (h0 : v.getLsbD 0 = true) (h1 : v.getLsbD 1 = false) : s.cmpCtrl k v = s.cmpStart k := by
  rw [State.cmpCtrl, getF_bit, getF_bit, h0, h1]
  rfl

theorem cmpCtrl_stop (h0 : v.getLsbD 0 = false) (h1 : v.getLsbD 1 = true) : s.cmpCtrl k v = s.cmpStop k := by
  rw [State.cmpCtrl, getF_bit, getF_bit, h0, h1]
  rfl

theorem cmpCtrl_both (h0 : v.getLsbD 0 = true) (h1 : v.getLsbD 1 = true) : s.cmpCtrl k v = s := by
  rw [State.cmpCtrl, getF_bit, getF_bit, h0, h1]
  rfl

theorem exec_cmpCtrlStart (hpow : s.powered = true) (h0 : v.getLsbD 0 = true) :
    exec (.cmpCtrlStart c v) s = .next (s.cmpCtrl (kOf c) v) :=
  congrArg Host.Outcome.next (if_pos (by simp [hpow, getF_bit, h0]))

theorem exec_cmpCtrlStop (hpow : s.powered = true) (h1 : v.getLsbD 1 = true) :
    exec (.cmpCtrlStop c v) s = .next (s.cmpCtrl (kOf c) v) :=
  congrArg Host.Outcome.next (if_pos (by simp [hpow, getF_bit, h1]))

/-! ## START (R174, R414) -/

theorem cmpStart_ignored (h : (s.core k).run = true ∨ (s.core k).frozen = true ∨ s.fld aBoot 0 3 < 7) : s.cmpStart k = s :=
  if_pos (by simpa [or_assoc] using h)

/-- A core that may be started, once the bring-up stands at step 7. -/
theorem cmpStart_taken (hrun : (s.core k).run = false) (hfrozen : (s.core k).frozen = false) (hboot : s.fld aBoot 0 3 = 7) :
    s.cmpStart k =
      if (s.core k).startTick.toNat < s.tick then
        (s.modCore k fun c => { c with armed := false, run := true, stall := .none, late := true, census := 0 }).timingLost (s.partOfKey k)
      else s.modCore k fun c => { c with armed := true } :=
  if_neg (by simp [hrun, hfrozen, hboot])

theorem start_arms (hpow : s.powered = true) (h0 : v.getLsbD 0 = true) (h1 : v.getLsbD 1 = false)
    (hrun : (s.core (kOf c)).run = false) (hfrozen : (s.core (kOf c)).frozen = false) (hboot : s.fld aBoot 0 3 = 7)
    (hsoon : s.tick ≤ (s.core (kOf c)).startTick.toNat) :
    ∃ t, exec (.cmpCtrlStart c v) s = .next t ∧ s.OnlyCore (kOf c) t ∧ t.core (kOf c) = { s.core (kOf c) with armed := true } := by
  have hstart := cmpStart_taken hrun hfrozen hboot
  rw [if_neg (Nat.not_lt.2 hsoon)] at hstart
  exact ⟨_, (exec_cmpCtrlStart hpow h0).trans (congrArg _ ((cmpCtrl_start h0 h1).trans hstart)), State.onlyCore_setCore ..,
    State.core_modCore ..⟩

/-- R174, R317: a start tick that has passed. -/
theorem start_late (hpow : s.powered = true) (h0 : v.getLsbD 0 = true) (h1 : v.getLsbD 1 = false)
    (hrun : (s.core (kOf c)).run = false) (hfrozen : (s.core (kOf c)).frozen = false) (hboot : s.fld aBoot 0 3 = 7)
    (hpast : (s.core (kOf c)).startTick.toNat < s.tick) :
    ∃ t, exec (.cmpCtrlStart c v) s = .next t ∧ (∀ j, j ≠ kOf c → t.core j = s.core j) ∧ t.mem = s.mem ∧ t.core (kOf c) =
      { s.core (kOf c) with armed := false, run := true, stall := .none, late := true, census := 0 } := by
  have hstart := cmpStart_taken hrun hfrozen hboot
  rw [if_pos hpast] at hstart
  have hcore (u : State) (p j : Nat) : (u.timingLost p).core j = u.core j := by rw [State.core, timingLost_cores]; rfl
  refine ⟨_, (exec_cmpCtrlStart hpow h0).trans (congrArg _ ((cmpCtrl_start h0 h1).trans hstart)), fun j hj => ?_, ?_, ?_⟩
  · rw [hcore, State.core_modCore_ne _ _ hj]
  · rw [timingLost_frame]
    rfl
  · rw [hcore, State.core_modCore]

/-- R174: an armed compositor whose start tick has passed. -/
theorem begin_starts (hpow : s.powered = true) (harmed : (s.core (kOf c)).armed = true) (hfrozen : (s.core (kOf c)).frozen = false)
    (hpast : (s.core (kOf c)).startTick.toNat < s.tick) :
    ∃ t, exec (.compositorBegin c) s = .next t ∧ s.OnlyCore (kOf c) t ∧
      t.core (kOf c) = { s.core (kOf c) with armed := false, run := true, stall := .none, census := 0 } := by
  have hbegin : s.cmpBegin (kOf c) =
      s.modCore (kOf c) fun c => { c with armed := false, run := true, stall := .none, census := 0 } :=
    if_pos (by simp [hpow, harmed, hfrozen, hpast])
  exact ⟨_, congrArg Host.Outcome.next hbegin, State.onlyCore_setCore .., State.core_modCore ..⟩

/-! ## STOP (R516) -/

/-- The core of a `STOP`: halted with its loops, or disarmed. -/
theorem stop_spec (hpow : s.powered = true) (h0 : v.getLsbD 0 = false) (h1 : v.getLsbD 1 = true) :
    ∃ t, exec (.cmpCtrlStop c v) s = .next t ∧ s.OnlyCore (kOf c) t ∧ t.core (kOf c) =
      if (s.core (kOf c)).run then (s.core (kOf c)).halt 0 true else { s.core (kOf c) with armed := false } :=
  ⟨_, (exec_cmpCtrlStop hpow h1).trans (congrArg _ (cmpCtrl_stop h0 h1)), State.onlyCore_setCore .., State.core_modCore ..⟩

/-! ## `CMP_PC` and `CMP_CODE` (R163, R180) -/

theorem getF_low (v : Word) (w : Nat) : getF v 0 w = v.toNat % 2 ^ w := by rw [getF, bits_eq, Nat.pow_zero, Nat.div_one]

theorem exec_cmpPcWrite (hpow : s.powered = true) : exec (.cmpPcWrite c v) s = .next (s.cmpPc (kOf c) v) :=
  congrArg Host.Outcome.next (if_pos hpow)

theorem exec_cmpCodeWrite (hpow : s.powered = true) : exec (.cmpCodeWrite c v) s = .next (s.cmpCode (kOf c) v) :=
  congrArg Host.Outcome.next (if_pos hpow)

theorem cmpPc_ignored (h : (s.core k).run = true ∨ v.toNat % 4 ≠ 0) : s.cmpPc k v = s :=
  if_pos (by simpa [getF_low] using h)

theorem cmpPc_taken (hrun : (s.core k).run = false) (h4 : v.toNat % 4 = 0) :
    s.cmpPc k v = s.modCore k fun c => { c with pc := v.setWidth 22, loops := [] } :=
  if_neg (by simp [getF_low, hrun, h4])

/-- The base and the limit of a code window that `CMP_CODE` takes. -/
def codeWindow (v : Word) : Prop := v.toNat % 128 = 0 ∧ v.toNat / 2 ^ 32 % 128 = 0 ∧ v.toNat / 2 ^ 32 % 2 ^ 23 ≤ 0x400000

theorem codeWindow_iff (v : Word) :
    codeWindow v ↔ getF v 0 23 % 128 = 0 ∧ getF v 32 23 % 128 = 0 ∧ getF v 32 23 ≤ 0x400000 := by
  rw [getF_low, getF, bits_eq, codeWindow]
  omega

/-- R180: when a write of `CMP_CODE` is refused. -/
theorem codeRefused_iff (run : Bool) (v : Word) :
    (run || getF v 0 23 % 128 ≠ 0 || getF v 32 23 % 128 ≠ 0 || 0x400000 < getF v 32 23) = true ↔ run = true ∨ ¬ codeWindow v := by
  rw [codeWindow_iff]
  simp only [Bool.or_eq_true, decide_eq_true_eq, not_and_or, Nat.not_le, or_assoc]

theorem cmpCode_ignored (h : (s.core k).run = true ∨ ¬ codeWindow v) : s.cmpCode k v = s := if_pos ((codeRefused_iff ..).2 h)

theorem cmpCode_taken (hrun : (s.core k).run = false) (h : codeWindow v) : s.cmpCode k v =
    s.modCore k fun c => { c with codeBase := v.setWidth 23, codeLimit := (v >>> 32).setWidth 23 } := by
  have hbase : BitVec.ofNat 23 (getF v 0 23) = v.setWidth 23 := BitVec.eq_of_toNat_eq (by simp [getF_low])
  have hlimit : BitVec.ofNat 23 (getF v 32 23) = (v >>> 32).setWidth 23 := BitVec.eq_of_toNat_eq (by simp [getF, bits])
  rw [← hbase, ← hlimit]
  exact if_neg fun hno => ((codeRefused_iff ..).1 hno).elim (by rw [hrun]; exact Bool.false_ne_true) (· h)

/-- Settles O17: `CMP_CTRL` by its two bits, and each register's write by whether it is taken. -/
theorem compositorControl : Obligations.CompositorControl := by
  refine ⟨fun c v s => ?_, fun c v s => ?_⟩
  · intro k x hpow
    refine ⟨fun h0 h1 hrun hfrozen hboot => ⟨start_arms hpow h0 h1 hrun hfrozen hboot, start_late hpow h0 h1 hrun hfrozen hboot⟩,
      fun h0 h1 hno => ?_, fun h0 h1 => ⟨?_, ?_⟩, begin_starts hpow, fun h1 h0 => ?_⟩
    · rw [exec_cmpCtrlStart hpow h0, cmpCtrl_start h0 h1, cmpStart_ignored hno]
    · rw [exec_cmpCtrlStart hpow h0, cmpCtrl_both h0 h1]
    · rw [exec_cmpCtrlStop hpow h1, cmpCtrl_both h0 h1]
    · obtain ⟨t, hexec, honly, hcore⟩ := stop_spec (c := c) hpow h0 h1
      refine ⟨fun hrun => ⟨t, hexec, honly, ?_⟩, fun hrun => ⟨t, hexec, honly, hcore.trans (if_neg ?_)⟩⟩
      · rw [hcore, if_pos hrun]
        exact ⟨rfl, rfl, rfl, rfl, rfl, rfl⟩
      · rw [hrun]
        exact Bool.false_ne_true
  · intro k x hpow
    have hpc (hno : x.run = true ∨ v.toNat % 4 ≠ 0) : exec (.cmpPcWrite c v) s = .next s := by
      rw [exec_cmpPcWrite hpow, cmpPc_ignored hno]
    have hcode (hno : x.run = true ∨ ¬ codeWindow v) : exec (.cmpCodeWrite c v) s = .next s := by
      rw [exec_cmpCodeWrite hpow, cmpCode_ignored hno]
    refine ⟨fun hrun h4 => ?_, fun hrun => ⟨hpc (.inl hrun), hcode (.inl hrun)⟩, fun hrun hb hl hle => ?_, fun h4 => hpc (.inr h4),
      fun hbad => hcode (.inr ?_)⟩
    · exact ⟨_, (exec_cmpPcWrite hpow).trans (congrArg _ (cmpPc_taken hrun h4)), State.onlyCore_setCore .., State.core_modCore ..⟩
    · exact ⟨_, (exec_cmpCodeWrite hpow).trans (congrArg _ (cmpCode_taken hrun ⟨hb, hl, hle⟩)), State.onlyCore_setCore ..,
        State.core_modCore ..⟩
    · unfold codeWindow
      omega

end Sys2Proof.Machine
end

