-- ==== Sys2Proof/Proofs/MoveCommands.lean ====
section
/-! PROOFS. The move engine's commands within the fabric: `COPY`, and the commands that begin a transfer (R199, R201, R204, R229,
R263, R264, R268, R437, R439). -/

namespace Sys2Proof.Machine

variable {s t u : State} {k q op : Nat} {it : Item} {x : Exec} {bad : List Nat} {go : Item → Exec → Bool → State → State}

theorem opcode_of_works (h : s.Works k q op it x) : dOP it.desc = op := by
  obtain ⟨-, hitem, -⟩ := h
  unfold Core.workItem at hitem
  split at hitem
  · split at hitem
    · next hop =>
      rw [Option.some.injEq] at hitem
      rwa [hitem] at hop
    · cases hitem
  · cases hitem

/-! ## A local source (R437, R439) -/

/-- The weight rows of the command's source that are to be restored first (R437). -/
def State.sourceRows (s : State) (k : Nat) (bad : List Nat) (it : Item) (x : Exec) : List Nat :=
  s.srcRestore k (x.handle (mSH it.desc)) it.desc bad

theorem srcWork_restore (h : s.Works k q op it x) (hrows : s.sourceRows k bad it x ≠ []) :
    s.srcWork k q op bad go = s.startRestore k q (s.sourceRows k bad it x) :=
  (work_of_works h _).trans (if_pos hrows)

theorem srcWork_whole (h : s.Works k q op it x) (hrows : s.sourceRows k bad it x = []) : s.srcWork k q op bad go =
    go it x (s.srcDamage k (x.handle (mSH it.desc)) it.desc bad).isSome
      (s.noteDamage k q it (s.srcDamage k (x.handle (mSH it.desc)) it.desc bad)) :=
  (work_of_works h _).trans (if_neg (not_not.2 hrows))

/-! ## `COPY` (R199) -/

/-- A memory with the bytes `bs` dealt to the runs `rs` of a space. -/
def putDealt (k space : Nat) (rs : List (Nat × Nat)) (bs : List Byte) (m : List Host.Cell) : List Host.Cell :=
  (deal rs bs).foldl (fun m e => writeMem m (coreAddr k space e.1) e.2) m

theorem putRuns_lands (s : State) (k : Nat) (h : Wide) (rs : List (Nat × Nat)) (bs : List Byte) :
    State.Lands k (putDealt k (hSPACE h) rs bs s.mem) s (s.putRuns k h rs bs false) :=
  .foldl_mem (fun t e => coreWrite_lands t k (hSPACE h) e.1 e.2 false) (deal rs bs) s

/-- Outside its runs, dealing bytes changes none. -/
theorem get_putDealt_out (k space : Nat) {rs : List (Nat × Nat)} (bs : List Byte) (m : List Host.Cell) {a : Nat}
    (h : ∀ r ∈ rs, a < coreAddr k space r.1 ∨ coreAddr k space r.1 + r.2 ≤ a) :
    Tbl.get 0 (putDealt k space rs bs m) a = Tbl.get 0 m a := by
  induction rs generalizing bs m with
  | nil => rfl
  | cons r rs ih =>
    have hr := h r List.mem_cons_self
    have hlen : (bs.take r.2).length ≤ r.2 := List.length_take_le ..
    refine (ih (bs.drop r.2) _ fun r' hr' => h r' (List.mem_cons_of_mem _ hr')).trans (get_writeMem_out _ _ _ _ ?_)
    dsimp only
    omega

/-- The bytes that a `COPY` writes (log 27). -/
def State.movedBytes (s : State) (k : Nat) (sh dh d : Wide) : List Byte :=
  let dst := runsOf (hBASE dh + mDOFF d) (mCOUNT d) (mSIZE d) (mDSTRIDE d)
  if copyOverlaps sh dh (srcRuns sh d) dst then copyBytes (placesOf (srcRuns sh d)) (placesOf dst) (s.srcBytes k sh d)
  else s.srcBytes k sh d

/-- A `COPY` whose rows are whole and whose source is undamaged. -/
theorem exec_copy_undamaged {c : CoreId} {q : Fin 16} (h : s.Works (kOf c) q.val 0x40 it x)
    (hrows : s.sourceRows (kOf c) bad it x = []) (hdmg : s.srcDamage (kOf c) (x.handle (mSH it.desc)) it.desc bad = none) :
    exec (.copy c q bad) s = .next ((s.putRuns (kOf c) (x.handle (mDH it.desc))
      (runsOf (hBASE (x.handle (mDH it.desc)) + mDOFF it.desc) (mCOUNT it.desc) (mSIZE it.desc) (mDSTRIDE it.desc))
      (s.movedBytes (kOf c) (x.handle (mSH it.desc)) (x.handle (mDH it.desc)) it.desc) false).workDone (kOf c) q.val it [] 0) := by
  refine congrArg Host.Outcome.next ((srcWork_whole h hrows).trans ?_)
  rw [hdmg]
  rfl

/-! ## A transfer begins (R201, R204, R268) -/

/-- The registers, flags and handles of a core. -/
def Core.registers (c : Core) : Tbl Word × Tbl (BitVec 32) × Tbl Wide := (c.sreg, c.flags, c.handles)

@[simp] theorem registers_updExec (c : Core) (q n : Nat) (f : Exec → Exec) : (c.updExec q n f).registers = c.registers := rfl

theorem freshTx_updExec (c : Core) (q n : Nat) (f : Exec → Exec) : (c.updExec q n f).freshTx = c.freshTx := rfl

/-- Core `k` may have noted damage in its command's execution, or NAR_SEEN; the memories, and what a transfer begins from, are as
they were. -/
structure State.Notices (k q : Nat) (it : Item) (s t : State) : Prop where
  mem : t.mem = s.mem
  tiles : t.tiles = s.tiles
  registers : (t.core k).registers = (s.core k).registers
  freshTx : (t.core k).freshTx = (s.core k).freshTx
  executes : ((s.core k).Executes q it.seq fun _ => True) → (t.core k).Executes q it.seq fun _ => True

theorem State.Notices.refl (k q : Nat) (it : Item) (s : State) : State.Notices k q it s s := ⟨rfl, rfl, rfl, rfl, id⟩

theorem State.Notices.trans (h : State.Notices k q it s t) (h' : State.Notices k q it t u) : State.Notices k q it s u :=
  ⟨h'.mem.trans h.mem, h'.tiles.trans h.tiles, h'.registers.trans h.registers, h'.freshTx.trans h.freshTx,
    h'.executes ∘ h.executes⟩

theorem noteNar_notices (k q : Nat) (it : Item) (s : State) (b : Bool) : State.Notices k q it s (s.noteNar k b) := by
  have hcore : (s.noteNar k b).core k = s.core k := (State.Stores.noteNar s k b).core k
  exact ⟨noteNar_mem .., noteNar_tiles .., by rw [hcore], by rw [hcore], fun h => by rwa [hcore]⟩

/-- R439: damage is a record and a code of the command. -/
theorem noteDamage_notices (k q : Nat) (it : Item) (s : State) (g : Option Dmg) : State.Notices k q it s (s.noteDamage k q it g) := by
  cases g with
  | none => exact .refl k q it s
  | some g =>
    obtain ⟨r, hr, hnote⟩ : ∃ r : ErrRec, r.cls ≠ 3 ∧ s.noteDamage k q it (some g) = (s.raise r).modCore k fun c =>
        c.updExec q it.seq fun y => { y with recorded := true, codes := y.codes ++ [cPARITY] } :=
      ⟨_, by split <;> simp [State.dmgRec, State.coreRec], rfl⟩
    have hcore : (s.noteDamage k q it (some g)).core k =
        (s.core k).updExec q it.seq fun y => { y with recorded := true, codes := y.codes ++ [cPARITY] } := by
      rw [hnote, State.core_modCore, raise_frame_lt s r hr]; rfl
    refine ⟨?_, ?_, by rw [hcore, registers_updExec], by rw [hcore, freshTx_updExec], fun h => ?_⟩
    · rw [hnote, raise_frame_lt s r hr]; rfl
    · rw [hnote, raise_frame_lt s r hr]; rfl
    · rw [hcore]
      exact h.updExec fun _ _ => trivial

/-- A transfer of number `n` and opcode `op` to DEST has begun for the command, whose work is done; no byte and no register of
the core has changed. -/
def State.TransferBegins (s t : State) (k q : Nat) (it : Item) (op : Nat) (n : BitVec 12) : Prop :=
  t.mem = s.mem ∧ t.tiles = s.tiles ∧ (t.core k).sreg = (s.core k).sreg ∧ (t.core k).flags = (s.core k).flags ∧
    (t.core k).handles = (s.core k).handles ∧
    (∃ y ∈ (t.core k).xfers, y.txid = n ∧ y.queue = q ∧ y.seq = it.seq ∧ y.opcode = op ∧ y.dest = mDEST it.desc) ∧
    (t.core k).Executes q it.seq fun e => e.worked = true ∧ e.txid = some n

theorem startXfer_registers (s : State) (k : Nat) (y : Xfer) : ((s.startXfer k y).core k).registers = (s.core k).registers := by
  obtain ⟨v, hv⟩ : ∃ v, v = s.modCore k fun c => { (c.updExec y.queue y.seq fun e => { e with txid := some y.txid }) with
    xfers := c.xfers ++ [y], nextTx := y.txid + 1 } := ⟨_, rfl⟩
  have ht : s.startXfer k y = v.pump k := by rw [hv]; rfl
  have hcore : (v.core k).registers = (s.core k).registers := by rw [hv, State.core_modCore]; rfl
  rw [ht, (pump_sendsOn v k).core.frame, ← hcore]
  rfl

/-- R201, R204: what a command leaves that begins its transfer and has done its work. -/
theorem startXfer_transferBegins (h : s.Works k q op it x) (hu : State.Notices k q it s u) {y : Xfer} {dh : Nat} {n : BitVec 12}
    (hy : y.ident = (n, q, it.seq, dOP it.desc, mDEST it.desc, dh)) :
    s.TransferBegins ((u.startXfer k y).workDone k q it [] 0) k q it op n := by
  have hbegins := startXfer_begins u k y
  have hregisters := (startXfer_registers u k y).trans hu.registers
  obtain ⟨hfifo, -, -⟩ := startXfer_core u k y
  have hfields (w : Xfer) (hw : w.ident = y.ident) :
      w.txid = n ∧ w.queue = q ∧ w.seq = it.seq ∧ w.opcode = op ∧ w.dest = mDEST it.desc := by
    rw [hy, opcode_of_works h] at hw
    simp only [Xfer.ident, Prod.mk.injEq] at hw
    obtain ⟨htx, hqueue, hseq, hop, hdest, -⟩ := hw
    exact ⟨htx, hqueue, hseq, hop, hdest⟩
  have hexec : ((u.startXfer k y).core k).Executes q it.seq fun e => e.txid = some n := by
    obtain ⟨htx, hqueue, hseq, -, -⟩ := hfields y rfl
    rw [executes_congr hfifo, hqueue, hseq, htx]
    exact (hu.executes (executes_of_works h)).updExec fun _ _ => rfl
  obtain ⟨z, hz, hident⟩ := hbegins.has
  generalize u.startXfer k y = v at hbegins hregisters hexec hz
  have hdone := core_workDone v k q it [] 0
  rw [Core.Worked] at hdone
  have hkept : ((v.workDone k q it [] 0).core k).registers = (s.core k).registers := by rw [hdone, registers_updExec, hregisters]
  obtain ⟨hsreg, hflags, hhandles⟩ := by simpa only [Core.registers, Prod.mk.injEq] using hkept
  refine ⟨hbegins.mem.trans hu.mem, hbegins.tiles.trans hu.tiles, hsreg, hflags, hhandles, ⟨z, ?_, hfields z hident⟩, ?_⟩
  · rw [hdone, xfers_updExec]; exact hz
  · rw [hdone]; exact hexec.updExec fun _ he => ⟨rfl, he⟩

/-! ## The commands that begin one -/

theorem writeOut_transferBegins (h : s.Works k q op it x) (hu : State.Notices k q it s u) (ty : Nat) (peer psn : Bool) :
    s.TransferBegins (u.writeOut k q ty peer it x psn) k q it op (s.core k).freshTx := by
  obtain ⟨b, hb⟩ : ∃ b, b = decide (ty = tyACC ∧ narEntry (u.srcBytes k (x.handle (mSH it.desc)) it.desc)) := ⟨_, rfl⟩
  have hnar : (if ty = tyACC ∧ narEntry (u.srcBytes k (x.handle (mSH it.desc)) it.desc) then u.setFld (aNumeric k) 17 1 1 else u) =
      u.noteNar k b := by
    rw [State.noteNar, hb]; simp only [decide_eq_true_eq]
  rw [← hu.freshTx]
  unfold State.writeOut
  dsimp only
  rw [hnar]
  generalize (u.core k).freshTx = n
  exact startXfer_transferBegins h (hu.trans (noteNar_notices k q it u b)) rfl

/-- R201, R439: a command that writes to another core, its source whole: damage is noted and the transfer begins all the same. -/
theorem srcWork_transferBegins (h : s.Works k q op it x) (hrows : s.sourceRows k bad it x = []) (ty : Nat) (peer : Bool) :
    s.TransferBegins (s.srcWork k q op bad fun it x psn s => s.writeOut k q ty peer it x psn) k q it op (s.core k).freshTx := by
  rw [srcWork_whole h hrows]
  exact writeOut_transferBegins h (noteDamage_notices ..) ..

/-- R201: a `READ` begins its transfer of requests. -/
theorem exec_read {c : CoreId} {q : Fin 16} (h : s.Works (kOf c) q.val 0x44 it x) : ∃ y : Xfer,
    y.ident = ((s.core (kOf c)).freshTx, q.val, it.seq, dOP it.desc, mDEST it.desc, mDH it.desc) ∧
    exec (.read c q) s = .next ((s.startXfer (kOf c) y).workDone (kOf c) q.val it [] 0) := by
  have hexec : exec (.read c q) s = _ := congrArg Host.Outcome.next (work_of_works h _)
  rw [hexec]
  generalize (s.core (kOf c)).freshTx = n
  refine ⟨_, ?ident, rfl⟩
  case ident => rfl

theorem circuitOut_transferBegins (h : s.Works k q op it x) (ty : Nat) :
    s.TransferBegins (s.circuitOut k q ty it) k q it op (s.core k).freshTx := by
  unfold State.circuitOut
  dsimp only
  generalize (s.core k).freshTx = n
  exact startXfer_transferBegins h (.refl k q it s) (ident_fresh ..)

theorem exec_circuitOpen {c : CoreId} {q : Fin 16} (h : s.Works (kOf c) q.val 0x49 it x) (hcop : mCOP it.desc = 0) :
    exec (.circuitOpen c q) s = .next (s.circuitOut (kOf c) q.val tyCOPEN it) :=
  congrArg Host.Outcome.next ((work_of_works h _).trans (if_pos hcop))

theorem exec_circuitClose {c : CoreId} {q : Fin 16} (h : s.Works (kOf c) q.val 0x49 it x) (hcop : mCOP it.desc = 1) :
    exec (.circuitClose c q) s = .next (
      if (s.core (kOf c)).circIdle (mCIRC it.desc) then s.circuitOut (kOf c) q.val tyCCLOSE it else s) := by
  refine congrArg Host.Outcome.next ((work_of_works h _).trans ?_)
  simp only [hcop, decide_true, Bool.true_and]

/-- Settles O25: `COPY` by its source, and each command that begins a transfer. -/
theorem copyAndTransfers : Obligations.CopyAndTransfers := by
  refine ⟨fun c q bad s it x => ?_, fun c q bad peer s it x => ?_⟩
  · intro k d sh dh dst hworks
    refine ⟨fun hrows => ?_, fun hrows hdmg => ?_⟩
    · exact ⟨_, congrArg Host.Outcome.next (srcWork_restore hworks hrows), startRestore_begins ..⟩
    · have hlands := putRuns_lands s k dh dst (s.movedBytes k sh dh d)
      refine ⟨_, exec_copy_undamaged hworks hrows hdmg, ?_, hlands.workDone q.val it [], fun j hj => ?_, ?_, hlands.mem_eq,
        fun a ha => ?_⟩
      · exact hlands.serves.tiles
      · exact (State.core_modCore_ne _ _ hj).trans (hlands.others j hj)
      · rw [State.workDone, State.modCore_errPend, hlands.frame]
      · exact (congrArg (Tbl.get 0 · a) hlands.mem_eq).trans (get_putDealt_out k (hSPACE dh) _ s.mem ha)
  · intro k d n begins whole
    refine ⟨fun hworks hwhole => ?_, fun hworks hwhole => ?_, fun hworks hwhole => ?_, fun hworks => ?_, fun hworks hcop => ?_,
      fun hworks hcop => ⟨fun hidle => ?_, fun hbusy => ?_⟩⟩
    · exact ⟨_, rfl, srcWork_transferBegins hworks hwhole tyWRITE peer⟩
    · exact ⟨_, rfl, srcWork_transferBegins hworks hwhole tyWRITE peer⟩
    · exact ⟨_, rfl, srcWork_transferBegins hworks hwhole tyACC peer⟩
    · obtain ⟨y, hy, hexec⟩ := exec_read hworks
      exact ⟨_, hexec, startXfer_transferBegins hworks (.refl k q.val it s) hy⟩
    · exact ⟨_, exec_circuitOpen hworks hcop, circuitOut_transferBegins hworks tyCOPEN⟩
    · have hexec := exec_circuitClose hworks hcop
      rw [if_pos hidle] at hexec
      exact ⟨_, hexec, circuitOut_transferBegins hworks tyCCLOSE⟩
    · have hexec := exec_circuitClose hworks hcop
      rwa [if_neg (by rw [hbusy]; exact Bool.false_ne_true)] at hexec

end Sys2Proof.Machine
end

