-- ==== Sys2Proof/Proofs/Credits.lean ====
section
/-! PROOFS. Credits asked for, granted and returned (R204, R223, R224, R226, R267, R424, R518). -/

namespace Sys2Proof.Machine

variable {s t u : State} {k n : Nat} {p p' : Pool} {src : BitVec 20} {txid : BitVec 12} {x y : Xfer} {cr : List CreditMsg}

/-! ## A pool of a core -/

/-- Credit messages apart, pool `n` of core `k` is `p` now, and no other pool, register or flag differs. -/
structure State.PoolBecomes (k n : Nat) (p : Pool) (s t : State) : Prop where
  frame : t = { s with cores := t.cores, creditNet := t.creditNet }
  others : ∀ j, j ≠ k → t.core j = s.core j
  pool : (t.core k).pool n = p
  pools : ∀ m, m ≠ n → (t.core k).pool m = (s.core k).pool m
  regs : (t.core k).regs = (s.core k).regs

/-- A pool that has granted what it can (R223). -/
def Pool.granted (p : Pool) : Pool :=
  { p with avail := p.avail - min p.avail p.waiting.length, waiting := p.waiting.drop p.avail }

namespace State.PoolBecomes

theorem trans (h : State.PoolBecomes k n p s t) (h' : State.PoolBecomes k n p' t u) : State.PoolBecomes k n p' s u where
  frame := Eq.trans h'.frame (by rw [h.frame])
  others j hj := (h'.others j hj).trans (h.others j hj)
  pool := h'.pool
  pools m hm := (h'.pools m hm).trans (h.pools m hm)
  regs := h'.regs.trans h.regs

theorem of_creditNet (k n : Nat) (s : State) (l : List CreditMsg) :
    State.PoolBecomes k n ((s.core k).pool n) s { s with creditNet := l } := ⟨rfl, fun _ _ => rfl, rfl, fun _ _ => rfl, rfl⟩

/-- A change of the core that leaves its pools alone. -/
theorem modCore {f : Core → Core} (hpools : ∀ c, (f c).pools = c.pools) (hregs : ∀ c, (f c).regs = c.regs) (k n : Nat)
    (s : State) :
    State.PoolBecomes k n ((s.core k).pool n) s (s.modCore k f) where
  frame := rfl
  others _ hj := State.core_modCore_ne s f hj
  pool := by rw [State.core_modCore, Core.pool, hpools]; rfl
  pools m _ := by rw [State.core_modCore, Core.pool, hpools]; rfl
  regs := by rw [State.core_modCore, hregs]

theorem touch (h : State.PoolBecomes k n p s t) : State.PoolBecomes k n p s (t.touch k) := by
  have htouch : State.PoolBecomes k n ((t.core k).pool n) t (t.touch k) :=
    modCore (f := fun c => { c with census := 0 }) (fun _ => rfl) (fun _ => rfl) k n t
  rw [h.pool] at htouch
  exact h.trans htouch

theorem setPool (k n : Nat) (p : Pool) (s : State) : State.PoolBecomes k n p s (s.modCore k fun c => c.setPool n p) where
  frame := rfl
  others _ hj := State.core_modCore_ne s _ hj
  pool := by rw [State.core_modCore, Core.pool_setPool]
  pools m hm := by rw [State.core_modCore, Core.pool_setPool_ne _ _ hm]
  regs := by rw [State.core_modCore]; rfl

/-- R223: the requests that wait are granted while credits last. -/
theorem pump (h : State.PoolBecomes k n p s t) : State.PoolBecomes k n p.granted s (t.poolPump k n) := by
  refine h.trans ⟨poolPump_eq t k n, fun j hj => core_poolPump_ne t n hj, ?_, fun m hm => ?_, ?_⟩
  · rw [core_poolPump, pool_pumped, h.pool]; rfl
  · rw [core_poolPump, pool_pumped_ne _ hm]
  · rw [core_poolPump]; rfl

end State.PoolBecomes

/-! ## Requests (R223, R226) -/

/-- The state that a request for a credit of core `k` finds. -/
def State.requestLanded (s : State) (k : Nat) (dh : BitVec 8) (src : BitVec 20) (txid : BitVec 12) : State :=
  s.creditLanded (.request (s.nameOf k) dh.toNat src txid)

/-- An answer to a request leaves for its sender. -/
def State.grantSent (s : State) (src : BitVec 20) (txid : BitVec 12) (epoch code : Nat) : State :=
  { s with creditNet := s.creditNet ++ [.grant src txid epoch code] }

/-- R223: a request joins those that wait at pool `n`, and the pool grants what it can. -/
def State.requestQueued (s : State) (k n : Nat) (src : BitVec 20) (txid : BitVec 12) : State :=
  (s.modCore k fun c => c.setPool n { c.pool n with waiting := (c.pool n).waiting ++ [(src, txid)] }).poolPump k n

/-- R223, R226: what becomes of a request, by the core and the pool that it asks. -/
theorem exec_creditRequest {c : CoreId} (dh : BitVec 8) (src : BitVec 20) (txid : BitVec 12) (hpow : s.powered = true) :
    let k := kOf c
    let h := (s.core k).handle dh.toNat
    let p := (s.core k).pool (hPOOL h)
    let u := s.requestLanded k dh src txid
    exec (.creditRequest c dh src txid) s = .next (
      if s.coreAbsorbed k = true then u.grantSent src txid p.epoch 0x08
      else if hPOOLEN h = false then (u.touch k).grantSent src txid p.epoch 0x00
      else if p.limit = 0 then (u.touch k).grantSent src txid p.epoch 0x0F
      else (u.touch k).requestQueued k (hPOOL h) src txid) := by
  intro k h p u
  have hpool : ((u.touch k).core k).pool (hPOOL h) = p := (State.PoolBecomes.of_creditNet k (hPOOL h) s _).touch.pool
  have hqueued : (u.touch k).requestQueued k (hPOOL h) src txid =
      ((u.touch k).modCore k fun c => c.setPool (hPOOL h) { p with waiting := p.waiting ++ [(src, txid)] }).poolPump k (hPOOL h) := by
    rw [State.requestQueued, State.modCore_eq, hpool]; rfl
  have hexec : exec (.creditRequest c dh src txid) s = .next (s.creditAsked k dh.toNat (s.nameOf k) src txid) := rfl
  have hname : BitVec.ofNat 8 dh.toNat = dh := BitVec.eq_of_toNat_eq (by simp)
  rw [hexec, hqueued, State.creditAsked, hname]
  simp only [hpow, Bool.not_true, Bool.false_eq_true, if_false, Bool.not_eq_true']
  rfl

/-- An answer takes no credit. -/
theorem grantSent_poolBecomes (h : State.PoolBecomes k n p s t) (src : BitVec 20) (txid : BitVec 12) (epoch code : Nat) :
    State.PoolBecomes k n p s (t.grantSent src txid epoch code) := by
  have hsent := State.PoolBecomes.of_creditNet k n t (t.creditNet ++ [.grant src txid epoch code])
  rw [h.pool] at hsent
  exact h.trans hsent

theorem requestQueued_poolBecomes (s : State) (k n : Nat) (src : BitVec 20) (txid : BitVec 12) :
    let p := (s.core k).pool n
    let ws := p.waiting ++ [(src, txid)]
    State.PoolBecomes k n (Pool.granted { p with waiting := ws }) s (s.requestQueued k n src txid) ∧
      (s.requestQueued k n src txid).creditNet = s.creditNet ++ (ws.take p.avail).map fun w => .grant w.1 w.2 p.epoch 0 := by
  intro p ws
  have hjoined := State.PoolBecomes.setPool k n { p with waiting := ws } s
  refine ⟨hjoined.pump, ?_⟩
  have hnet := congrArg State.creditNet (poolPump_eq (s.modCore k fun c => c.setPool n { p with waiting := ws }) k n)
  rw [hjoined.pool] at hnet
  exact hnet

/-! ## Returns (R223, R224, R424) -/

/-- R224: a credit that comes home is its pool's again where it carries the pool's epoch. -/
theorem creditHome_poolBecomes (s : State) (k : Nat) (l : Lent) :
    let p := (s.core k).pool l.pool
    State.PoolBecomes k l.pool (if l.epoch = p.epoch then Pool.granted { p with avail := min p.limit (p.avail + 1) } else p) s
      (s.creditHome k l) := by
  intro p
  have herased : State.PoolBecomes k l.pool p s (s.modCore k fun c => { c with lent := c.lent.erase l }) :=
    .modCore (f := fun c => { c with lent := c.lent.erase l }) (fun _ => rfl) (fun _ => rfl) k l.pool s
  have hhome : s.creditHome k l =
      if l.epoch ≠ p.epoch then s.modCore k fun c => { c with lent := c.lent.erase l }
      else ((s.modCore k fun c => { c with lent := c.lent.erase l }).modCore k fun c =>
        c.setPool l.pool { p with avail := min p.limit (p.avail + 1) }).poolPump k l.pool := rfl
  rw [hhome]
  by_cases hepoch : l.epoch = p.epoch
  · rw [if_pos hepoch, if_neg (not_not.2 hepoch)]
    exact (herased.trans (.setPool ..)).pump
  · rw [if_neg hepoch, if_pos hepoch]
    exact herased

/-- A return is of a credit of the pool and the epoch that it names. -/
theorem lentBack_lent (s : State) (k n epoch : Nat) :
    (s.lentBack k n epoch).2.pool = n ∧ (s.lentBack k n epoch).2.epoch = epoch := by
  unfold State.lentBack
  dsimp only
  cases hnamed : s.creditNet.findSome? _ with
  | some r =>
    obtain ⟨m, -, hm⟩ := List.exists_of_findSome?_eq_some hnamed
    rw [Option.getD_some]
    split at hm
    · split at hm
      · cases hm; exact ⟨rfl, by simp_all⟩
      · cases hm
    · split at hm
      · split at hm
        · cases hm; simp_all
        · cases hm
      · cases hm
    · cases hm
  | none =>
    rw [Option.getD_none]
    cases hfind : (s.core k).lent.find? fun l => l.pool = n && l.epoch = epoch && a20Pkg l.src ≠ s.position with
    | some l =>
      have hl := List.find?_some hfind
      simp only [Bool.and_eq_true, decide_eq_true_eq] at hl
      exact hl.1
    | none => exact ⟨rfl, rfl⟩

/-- The state that a return finds at its core: its message, where it was in flight here, has left it. -/
def State.returnLanded (s : State) (k n epoch : Nat) : State :=
  match (s.lentBack k n epoch).1 with
  | some m => s.creditLanded m
  | none => s

theorem returnLanded_eq (s : State) (k n epoch : Nat) :
    s.returnLanded k n epoch = { s with creditNet := (s.returnLanded k n epoch).creditNet } := by
  unfold State.returnLanded
  split <;> rfl

theorem coreAbsorbed_returnLanded (s : State) (k n epoch : Nat) : (s.returnLanded k n epoch).coreAbsorbed k = s.coreAbsorbed k := by
  rw [returnLanded_eq]; rfl

theorem exec_creditReturn {c : CoreId} (n : Fin 32) (epoch : Nat) (hpow : s.powered = true) :
    let u := s.returnLanded (kOf c) n.val epoch
    exec (.creditReturn c n epoch) s = .next (
      if s.coreAbsorbed (kOf c) = true then u else (u.touch (kOf c)).creditHome (kOf c) (s.lentBack (kOf c) n.val epoch).2) := by
  intro u
  have hexec : exec (.creditReturn c n epoch) s = .next (s.creditReturned (kOf c) n.val epoch) := rfl
  have habs := coreAbsorbed_returnLanded s (kOf c) n.val epoch
  rw [hexec, ← habs, State.creditReturned, if_neg (by simp [hpow])]
  rfl

/-! ## Grants (R204, R223, R226, R518) -/

/-- Core `k` has heard an answer, and of its one transfer `y` is left; credit messages apart, nothing else differs. -/
structure State.Hears (k : Nat) (cr : List CreditMsg) (y : Xfer) (s t : State) : Prop where
  frame : t = { s with cores := t.cores, creditNet := cr }
  others : ∀ j, j ≠ k → t.core j = s.core j
  core : t.core k = { s.core k with census := 0, xfers := [y] }

/-- The same once what can leave has left: `net` is in flight, and the core's registers and queues stand. -/
structure State.Settles (k : Nat) (net : List Packet) (cr : List CreditMsg) (xs : List Xfer) (s t : State) : Prop where
  frame : t = { s with cores := t.cores, net := net, creditNet := cr }
  others : ∀ j, j ≠ k → t.core j = s.core j
  xfers : (t.core k).xfers = xs
  sreg : (t.core k).sreg = (s.core k).sreg
  fifo : (t.core k).fifo = (s.core k).fifo

theorem State.Settles.idles {net : List Packet} {xs : List Xfer} (h : State.Settles k net cr xs s t) (h' : t.Idles u) :
    State.Settles k net cr xs s u where
  frame := Eq.trans h'.frame (by rw [h.frame])
  others j hj := (h'.cores j).trans (h.others j hj)
  xfers := by rw [h'.cores, h.xfers]
  sreg := by rw [h'.cores, h.sreg]
  fifo := by rw [h'.cores, h.fifo]

theorem State.Hears.idles (h : State.Hears k cr y s t) (h' : t.Idles u) : State.Hears k cr y s u where
  frame := Eq.trans h'.frame (by rw [h.frame])
  others j hj := (h'.cores j).trans (h.others j hj)
  core := by rw [h'.cores, h.core]

theorem State.Hears.settles (h : State.Hears k cr y s t) : State.Settles k s.net cr [y] s t where
  frame := Eq.trans h.frame (by rw [h.frame])
  others := h.others
  xfers := by rw [h.core]
  sreg := by rw [h.core]
  fifo := by rw [h.core]

theorem State.Hears.xfers (h : State.Hears k cr y s t) : (t.core k).xfers = [y] := by rw [h.core]

/-- One more change of the transfer. -/
theorem State.Hears.updXfer (h : State.Hears k cr y s t) (hy : y.txid = txid) (f : Xfer → Xfer) :
    State.Hears k cr (f y) s (t.modCore k fun c => c.updXfer txid f) where
  frame := by
    have hmod : t.modCore k (fun c => c.updXfer txid f) = { t with cores := (t.modCore k fun c => c.updXfer txid f).cores } := rfl
    exact Eq.trans hmod (by rw [h.frame])
  others j hj := (State.core_modCore_ne _ _ hj).trans (h.others j hj)
  core := by
    rw [State.core_modCore, h.core, Core.updXfer]
    simp [hy]

/-- Credits that the transfer gives back are in flight. -/
theorem State.Hears.giveBack (h : State.Hears k cr y s t) (dest : BitVec 20) (dh : Nat) (src : BitVec 20) (txid : BitVec 12)
    (epochs : List Nat) :
    State.Hears k (cr ++ epochs.map fun e => .giveBack dest dh src txid e) y s (t.giveBack dest dh src txid epochs) where
  frame := by
    have hcr : t.creditNet = cr := by rw [h.frame]
    rw [State.giveBack, hcr, h.frame]
  others := h.others
  core := h.core

theorem State.Hears.nameOf (h : State.Hears k cr y s t) : t.nameOf k = s.nameOf k := by rw [h.frame]; rfl

/-! ## One transfer on its way out -/

section
variable (hx : (s.core k).xfers = [x])
include hx

theorem requestAll_one (hasks : x.asks = 0) : s.Idles (s.requestAll k) := by
  have hmod : s.Idles (s.modCore k fun c => { c with xfers := [x] }) := .modCore (by rw [← hx])
  have hrequest : s.requestAll k = s.modCore k fun c => { c with xfers := [x] } := by
    simp only [State.requestAll, hx, List.flatMap_cons, List.flatMap_nil, List.map_cons, List.map_nil, hasks, List.replicate_zero,
      List.append_nil, Nat.add_zero]
  rwa [hrequest]

theorem holdFlags_one (hflag : x.flag = .none) : s.Idles (s.holdFlags k) := by
  have hready : ([x].filter fun x => x.flag = .unsent && (x.ended || x.unsent.isEmpty)) = [] := by simp [hflag]
  have hsame : ([x].map fun x => if x.flag = .unsent && (x.ended || x.unsent.isEmpty) then { x with flag := .held } else x) = [x] := by
    simp [hflag]
  refine .modCore ?_
  dsimp only
  rw [hx, hready, hsame, List.filterMap_nil, List.append_nil, ← hx]

theorem sweep_one (hover : x.over? = false) : s.Idles (s.modCore k Core.sweep) := by
  have hsame : ([x].filter fun x => !x.over?) = [x] := by simp [hover]
  refine .modCore ?_
  rw [Core.sweep, hx, hsame, ← hx]

theorem nextXfer_one (hcan : (s.core k).canSend x = true) : (s.core k).nextXfer = some x := by
  rw [Core.nextXfer, hx]
  simp [hcan]

end

/-- A transfer with nothing left to send, or with a grant for the one segment left, asks for none. -/
theorem asks_granted (h : x.unsent.length ≤ x.grants.length) : x.asks = 0 := by
  unfold Xfer.asks
  split <;> omega

/-- With nothing left to send, nothing moves. -/
theorem pump_one_idles (hx : (s.core k).xfers = [x]) (hunsent : x.unsent = []) (hflag : x.flag = .none) : s.Idles (s.pump k) := by
  have hasks := requestAll_one hx (asks_granted (by rw [hunsent]; exact Nat.zero_le _))
  have hpump : s.pump k = (s.requestAll k).holdFlags k := by simp [State.pump, hx, hunsent, sendAll]
  rw [hpump]
  exact hasks.trans (holdFlags_one (by rw [hasks.cores, hx]) hflag)

/-- A packet of another header's fields goes where it went. -/
theorem kPKG_onPath (s : State) (k : Nat) (p : Packet) : kPKG (s.withAge (s.onPath k p)) = kPKG p := by
  unfold State.onPath
  split <;> simp [State.withAge, kPKG, kDADDR, getW_putW_ne]

/-- R204, R260: a segment for this package leaves. -/
theorem leave_here {q : Packet} (h : kPKG q = s.position) : s.leave k q =
    { s.modCore k (fun c => { c with
        awaiting := Tbl.set 0 c.awaiting (nameAt (kDADDR q)).toNat (c.awaitOf (nameAt (kDADDR q)) + 1) }) with
      net := s.net ++ [s.withAge (s.onPath k q)] } := by
  unfold State.leave State.inject
  dsimp only
  rw [if_pos]
  · rfl
  · rw [kPKG_onPath, h]; simp

theorem State.Hears.leave (h : State.Hears k cr y s t) {q : Packet} (hq : kPKG q = s.position) :
    State.Settles k (s.net ++ [s.withAge (s.onPath k q)]) cr [y] s (t.leave k q) := by
  have hnet : t.net ++ [t.withAge (t.onPath k q)] = s.net ++ [s.withAge (s.onPath k q)] := by rw [h.frame]; rfl
  rw [leave_here (by rw [h.frame]; exact hq), hnet]
  obtain ⟨v, hv⟩ : ∃ v, v = t.modCore k fun c => { c with
    awaiting := Tbl.set 0 c.awaiting (nameAt (kDADDR q)).toNat (c.awaitOf (nameAt (kDADDR q)) + 1) } := ⟨_, rfl⟩
  have hframe : v = { s with cores := v.cores, creditNet := cr } := by
    have hmod : v = { t with cores := v.cores } := by rw [hv]; rfl
    rw [hmod, h.frame]
  have hcore : v.core k = { t.core k with awaiting := (v.core k).awaiting } := by rw [hv, State.core_modCore]
  rw [← hv]
  refine ⟨by rw [hframe], fun j hj => ?_, ?_, ?_, ?_⟩
  · exact (show v.core j = t.core j by rw [hv, State.core_modCore_ne _ _ hj]).trans (h.others j hj)
  · exact (congrArg Core.xfers hcore).trans h.xfers
  · exact (congrArg Core.sreg hcore).trans h.settles.sreg
  · exact (congrArg Core.fifo hcore).trans h.settles.fifo

/-- A change of the core's turn. -/
theorem State.Settles.turn {net : List Packet} {xs : List Xfer} (h : State.Settles k net cr xs s t) (n : BitVec 12) :
    State.Settles k net cr xs s (t.modCore k fun c => { c with lastSent := n }) where
  frame := by
    have hmod : t.modCore k (fun c => { c with lastSent := n }) =
        { t with cores := (t.modCore k fun c => { c with lastSent := n }).cores } := rfl
    exact Eq.trans hmod (by rw [h.frame])
  others j hj := (State.core_modCore_ne _ _ hj).trans (h.others j hj)
  xfers := by rw [State.core_modCore]; exact h.xfers
  sreg := by rw [State.core_modCore]; exact h.sreg
  fifo := by rw [State.core_modCore]; exact h.fifo

/-- A transfer whose last segment has left on its first grant. -/
def Xfer.sentLast (x : Xfer) : Xfer := { x with unsent := [], grants := x.grants.drop 1, unanswered := x.unanswered + 1 }

theorem sendHead_last (s : State) (k : Nat) {q : Packet} (h : x.unsent = [q]) :
    s.sendHead k x = (s.modCore k fun c => c.updXfer x.txid Xfer.sentLast).leave k q := by
  rw [State.sendHead, h]; rfl

/-- The one segment of a transfer leaves on its grant. -/
theorem pump_one_sends {q : Packet} (h : State.Hears k cr y s t) (hcan : (t.core k).canSend y = true) (hunsent : y.unsent = [q])
    (hgrant : 1 ≤ y.grants.length) (hflag : y.flag = .none) (hq : kPKG q = s.position) :
    State.Settles k (s.net ++ [s.withAge (s.onPath k q)]) cr [y.sentLast] s (t.pump k) := by
  have hasks := requestAll_one h.xfers (asks_granted (by rw [hunsent]; exact hgrant))
  have hv := h.idles hasks
  have hnext : ((t.requestAll k).core k).nextXfer = some y := nextXfer_one hv.xfers (by rw [hasks.cores]; exact hcan)
  have hpump : t.pump k = (((t.requestAll k).sendHead k y).modCore k fun c => { c with lastSent := y.txid }).holdFlags k := by
    simp only [State.pump, h.xfers, List.foldl_cons, List.foldl_nil, hunsent, List.length_cons, List.length_nil, Nat.zero_add, sendAll,
      hnext]
  have hleft := ((hv.updXfer rfl Xfer.sentLast).leave hq).turn y.txid
  rw [hpump, sendHead_last _ _ hunsent]
  exact hleft.idles (holdFlags_one hleft.xfers hflag)

/-! ## A grant at its core -/

/-- A transfer with one request fewer to be answered. -/
def Xfer.answered (x : Xfer) : Xfer := { x with requested := x.requested - 1 }

/-- A transfer with one more grant in hand. -/
def Xfer.given (x : Xfer) (epoch : Nat) : Xfer := { x with grants := x.grants ++ [epoch] }

/-- The state in which an answer finds its transfer, and is counted in it. -/
def State.grantHeard (s : State) (k : Nat) (txid : BitVec 12) (epoch code : Nat) : State :=
  ((s.creditLanded (.grant (s.nameOf k) txid epoch code)).touch k).modCore k fun c => c.updXfer txid Xfer.answered

/-- R223, R518: what an answer does to the transfer that waits for it. -/
def State.grantTaken (s : State) (k : Nat) (txid : BitVec 12) (epoch code : Nat) (x : Xfer) : State :=
  if code ≠ cDONE then s.failXfer k x code
  else if x.ended then s.giveBack x.dest x.dh (s.nameOf k) txid [epoch]
  else s.modCore k fun c => c.updXfer txid (·.given epoch)

theorem creditAnswered_waited (hpow : s.powered = true) (hx : (s.core k).xfer txid = some x) (hreq : x.requested ≠ 0)
    (epoch code : Nat) :
    s.creditAnswered k txid epoch code =
      (((s.grantHeard k txid epoch code).grantTaken k txid epoch code x).pump k).modCore k Core.sweep := by
  have hfound : (((s.creditLanded (.grant (s.nameOf k) txid epoch code)).touch k).core k).xfer txid = some x := by
    rw [State.touch, State.core_modCore]; exact hx
  unfold State.creditAnswered
  dsimp only
  rw [if_neg (by simp [hpow]), hfound]
  exact if_neg hreq

theorem creditAnswered_unwaited (hpow : s.powered = true) (hx : (s.core k).xfer txid = none) (epoch code : Nat) :
    s.creditAnswered k txid epoch code = (s.creditLanded (.grant (s.nameOf k) txid epoch code)).touch k := by
  have hfound : (((s.creditLanded (.grant (s.nameOf k) txid epoch code)).touch k).core k).xfer txid = none := by
    rw [State.touch, State.core_modCore]; exact hx
  unfold State.creditAnswered
  dsimp only
  rw [if_neg (by simp [hpow]), hfound]

/-- R226: where an answer goes. -/
theorem exec_creditGrant (hpow : s.powered = true) (hb : s.bridgeAt src = none) (txid : BitVec 12) (epoch : Nat) (code : BitVec 8) :
    exec (.creditGrant src txid epoch code) s = .next (if a20Pkg src = s.position ∧ destOk src = true then
      s.creditAnswered (a20Die src * 72 + a20Core src) txid epoch code.toNat
      else s.creditLanded (.grant src txid epoch code.toNat)) := by
  have hexec : exec (.creditGrant src txid epoch code) s = .next (s.grantArrives src txid epoch code.toNat) := rfl
  rw [hexec, State.grantArrives, if_neg (by simp [hpow]), hb]

section
variable (hpow : s.powered = true) (hx : (s.core k).xfers = [x]) (htx : x.txid = txid) (hreq : x.requested = 1)
  (hflag : x.flag = .none)
include hx htx hreq

theorem grantHeard_one (epoch code : Nat) : State.Hears k (s.creditNet.erase (.grant (s.nameOf k) txid epoch code))
    { x with requested := 0 } s (s.grantHeard k txid epoch code) := by
  have hlanded : State.Hears k (s.creditNet.erase (.grant (s.nameOf k) txid epoch code)) x s
      ((s.creditLanded (.grant (s.nameOf k) txid epoch code)).touch k) := by
    refine ⟨rfl, fun j hj => State.core_modCore_ne _ _ hj, ?_⟩
    rw [State.touch, State.core_modCore, ← hx]; rfl
  have hheard := hlanded.updXfer htx Xfer.answered
  rwa [Xfer.answered, hreq] at hheard

include hpow

theorem creditAnswered_one (epoch code : Nat) : s.creditAnswered k txid epoch code =
    (((s.grantHeard k txid epoch code).grantTaken k txid epoch code x).pump k).modCore k Core.sweep :=
  creditAnswered_waited hpow (by simp [Core.xfer, hx, htx]) (by omega) epoch code

include hflag

/-- R204: a grant lets the segment that waits for it leave. -/
theorem creditAnswered_sends {q : Packet} {epoch : Nat} (hended : x.ended = false) (hgrants : x.grants = []) (hunsent : x.unsent = [q])
    (hroom : (s.core k).room x.dest = true) (hholds : (s.core k).holds x.dest = false) (hq : kPKG q = s.position) :
    State.Settles k (s.net ++ [s.withAge (s.onPath k q)]) (s.creditNet.erase (.grant (s.nameOf k) txid epoch 0))
      [{ x with requested := 0, unsent := [], unanswered := x.unanswered + 1 }] s (s.creditAnswered k txid epoch 0) := by
  have htaken : (s.grantHeard k txid epoch 0).grantTaken k txid epoch 0 x =
      (s.grantHeard k txid epoch 0).modCore k fun c => c.updXfer txid (·.given epoch) := by
    simp [State.grantTaken, cDONE, hended]
  have hgiven := (grantHeard_one hx htx hreq epoch 0).updXfer htx (·.given epoch)
  rw [creditAnswered_one hpow hx htx hreq, htaken]
  generalize (s.grantHeard k txid epoch 0).modCore k (fun c => c.updXfer txid (·.given epoch)) = v at hgiven
  have hcan : (v.core k).canSend (Xfer.given { x with requested := 0 } epoch) = true := by
    rw [hgiven.core]
    simp only [Core.canSend, Xfer.given, hended, hunsent, hgrants, List.nil_append, List.isEmpty_cons, Bool.not_false, Bool.or_true,
      Bool.true_and, Bool.and_eq_true, Bool.not_eq_true']
    exact ⟨hroom, hholds⟩
  have hlast : Xfer.sentLast (Xfer.given { x with requested := 0 } epoch) =
      { x with requested := 0, unsent := [], unanswered := x.unanswered + 1 } := by
    simp only [Xfer.sentLast, Xfer.given, hgrants, List.nil_append, List.drop_succ_cons, List.drop_zero]
  have hsends := pump_one_sends hgiven hcan hunsent (by simp [Xfer.given]) hflag hq
  rw [hlast] at hsends
  exact hsends.idles (sweep_one hsends.xfers (by simp [Xfer.over?]))

/-- R224, R518: a grant of a transfer that has ended goes back under its epoch. -/
theorem creditAnswered_returns {epoch : Nat} (hended : x.ended = true) (hunsent : x.unsent = []) (hwaits : x.unanswered ≠ 0) :
    State.Settles k s.net (s.creditNet.erase (.grant (s.nameOf k) txid epoch 0) ++ [.giveBack x.dest x.dh (s.nameOf k) txid epoch])
      [{ x with requested := 0 }] s (s.creditAnswered k txid epoch 0) := by
  have hheard := grantHeard_one hx htx hreq epoch 0
  have hback := hheard.giveBack x.dest x.dh (s.nameOf k) txid [epoch]
  have htaken : (s.grantHeard k txid epoch 0).grantTaken k txid epoch 0 x =
      (s.grantHeard k txid epoch 0).giveBack x.dest x.dh (s.nameOf k) txid [epoch] := by
    simp [State.grantTaken, cDONE, hended, hheard.nameOf]
  rw [creditAnswered_one hpow hx htx hreq, htaken]
  have hpumped := hback.idles (pump_one_idles hback.xfers hunsent hflag)
  exact (hpumped.idles (sweep_one hpumped.xfers (by simp [Xfer.over?, hwaits]))).settles

/-- R226, R518: a refusal ends the transfer with its code. -/
theorem creditAnswered_refused {epoch code : Nat} (hcode : code ≠ 0) (hcodes : x.codes = []) (hlate : x.late = false)
    (hgrants : x.grants = []) :
    State.Settles k s.net (s.creditNet.erase (.grant (s.nameOf k) txid epoch code))
      [{ x with requested := 0, unsent := [], ended := true, codes := [code] }] s (s.creditAnswered k txid epoch code) := by
  have hheard := grantHeard_one hx htx hreq epoch code
  have hback := hheard.giveBack x.dest x.dh (s.nameOf k) x.txid []
  have hfailed := hback.updXfer htx fun y => y.failed code
  have hlast : Xfer.failed { x with requested := 0 } code =
      { x with requested := 0, unsent := [], ended := true, codes := [code] } := by
    simp [Xfer.failed, hcodes, hgrants]
  have htaken : (s.grantHeard k txid epoch code).grantTaken k txid epoch code x =
      ((s.grantHeard k txid epoch code).giveBack x.dest x.dh (s.nameOf k) x.txid []).modCore k fun c =>
        c.updXfer txid fun y => y.failed code := by
    rw [State.grantTaken, if_pos (by exact hcode), State.failXfer, hgrants, hheard.nameOf, htx]
    exact if_neg (by rw [hlate]; exact Bool.false_ne_true)
  rw [creditAnswered_one hpow hx htx hreq, htaken]
  rw [hlast, List.map_nil, List.append_nil] at hfailed
  have hpumped := hfailed.idles (pump_one_idles hfailed.xfers rfl hflag)
  exact (hpumped.idles (sweep_one hpumped.xfers (by simp [Xfer.over?, hlate]))).settles

end

/-- Settles O33: a request by its core and pool, an answer by the transfer that waits for it, a return by its epoch. -/
theorem credits : Obligations.Credits := by
  refine ⟨fun c dh src txid s => ?_, fun src txid epoch code s x => ?_, fun c pool epoch s => ?_⟩
  · intro k h n p answers hpow
    have hexec := exec_creditRequest (c := c) dh src txid hpow
    dsimp only at hexec
    have hlanded : State.PoolBecomes k n p s (s.requestLanded k dh src txid) := .of_creditNet k n s _
    have htouched : State.PoolBecomes k n p s ((s.requestLanded k dh src txid).touch k) := hlanded.touch
    have hanswers {u : State} {code : Nat} (hu : State.PoolBecomes k n p s u)
        (hnet : u.creditNet = s.creditNet.erase (.request (s.nameOf k) dh.toNat src txid))
        (hdone : exec (.creditRequest c dh src txid) s = .next (u.grantSent src txid p.epoch code)) : answers code p := by
      have hsent := grantSent_poolBecomes hu src txid p.epoch code
      exact ⟨_, hdone, hsent.frame, hsent.others, hsent.pool, hsent.pools, by rw [← hnet]; rfl⟩
    refine ⟨fun habs => ?_, fun habs => ⟨fun hfree => ?_, fun hcharged hlimit => ?_, fun hcharged hlimit => ?_⟩⟩
    · rw [if_pos habs] at hexec
      exact hanswers hlanded rfl hexec
    · rw [if_neg (by rw [habs]; exact Bool.false_ne_true), if_pos hfree] at hexec
      exact hanswers htouched rfl hexec
    · rw [if_neg (by rw [habs]; exact Bool.false_ne_true), if_neg (by rw [hcharged]; exact Bool.noConfusion), if_pos hlimit] at hexec
      exact hanswers htouched rfl hexec
    · rw [if_neg (by rw [habs]; exact Bool.false_ne_true), if_neg (by rw [hcharged]; exact Bool.noConfusion), if_neg hlimit] at hexec
      obtain ⟨hqueued, hnet⟩ := requestQueued_poolBecomes ((s.requestLanded k dh src txid).touch k) k n src txid
      rw [htouched.pool] at hqueued hnet
      have hall := htouched.trans hqueued
      exact ⟨_, hexec, hall.frame, hall.others, hall.pool, hall.pools, hnet⟩
  · intro k c left ends me hpow hb
    have hexec := exec_creditGrant hpow hb txid epoch code
    have hends {net : List Packet} {cr : List CreditMsg} {xs : List Xfer} (hme : me)
        (h : State.Settles k net cr xs s (s.creditAnswered k txid epoch code.toNat)) : ends net cr xs := by
      rw [if_pos hme] at hexec
      exact ⟨_, hexec, h.frame, h.others, h.xfers, h.sreg, h.fifo⟩
    refine ⟨fun hme => ?_, fun hme hnone => ?_, fun hme hx htx hreq hflag => ⟨?_, ?_, ?_⟩⟩
    · rw [if_neg hme] at hexec
      exact hexec
    · rw [if_pos hme, creditAnswered_unwaited hpow hnone] at hexec
      exact ⟨_, hexec, rfl, fun j hj => State.core_modCore_ne _ _ hj, State.core_modCore ..⟩
    · rintro q rfl hended - hgrants hunsent hroom hholds hq
      exact hends hme (creditAnswered_sends hpow hx htx hreq hflag hended hgrants hunsent hroom hholds hq)
    · rintro rfl hended hunsent hwaits
      exact hends hme (creditAnswered_returns hpow hx htx hreq hflag hended hunsent hwaits)
    · intro q hcode hended hcodes hlate hgrants hunsent
      have hfails : code.toNat ≠ 0 := fun h => hcode (BitVec.eq_of_toNat_eq h)
      exact hends hme (creditAnswered_refused hpow hx htx hreq hflag hfails hcodes hlate hgrants)
  · intro k p a hpow
    have hexec := exec_creditReturn (c := c) pool epoch hpow
    dsimp only at hexec
    have hlanded : State.PoolBecomes k pool.val p s (s.returnLanded k pool.val epoch) := by
      rw [returnLanded_eq]; exact .of_creditNet k pool.val s _
    have htouched := hlanded.touch
    obtain ⟨hpool, hepoch⟩ := lentBack_lent s k pool.val epoch
    have hhome := creditHome_poolBecomes ((s.returnLanded k pool.val epoch).touch k) k (s.lentBack k pool.val epoch).2
    rw [hpool, hepoch, htouched.pool] at hhome
    have hall := htouched.trans hhome
    by_cases habs : s.coreAbsorbed k = true
    · rw [if_pos habs] at hexec
      obtain ⟨hsreg, hflags⟩ := Prod.mk.inj hlanded.regs
      refine ⟨_, hexec, hlanded.frame, hlanded.others, hlanded.pools, hlanded.pool.trans ?_, hsreg, hflags⟩
      exact (if_neg (by simp [habs])).symm
    · rw [if_neg habs] at hexec
      obtain ⟨hsreg, hflags⟩ := Prod.mk.inj hall.regs
      refine ⟨_, hexec, hall.frame, hall.others, hall.pools, hall.pool.trans ?_, hsreg, hflags⟩
      rw [Bool.not_eq_true] at habs
      simp only [habs, true_and, eq_comm (a := epoch)]
      rfl

end Sys2Proof.Machine
end

