-- ==== Sys2Proof/Proofs/HostWrites.lean ====
section
/-! PROOFS. `HOST_WRITE` and `HOST_POST` at the delivery buffer (R205, R235, R390, R391, R398, R399, R402, R409, R437). -/

namespace Sys2Proof.Machine

variable {s t u : State} {k q b f r : Nat} {it : Item} {x : Exec} {bad : List Nat} {p : PPort} {w : DlvWrite}

/-! ## The delivery buffer (R402) -/

theorem pport_modPport (s : State) (b : Nat) (f : PPort → PPort) : (s.modPport b f).pport b = f (s.pport b) := Tbl.get_set_self ..

/-- A port with a write more in its buffer. -/
def PPort.enter (p : PPort) (w : DlvWrite) : PPort := { p with buf := p.buf ++ [(p.entered, w)], entered := p.entered + 1 }

theorem room_iff {n : Nat} : p.room n = true ↔ p.queued = [] ∧ p.heldBytes + n ≤ 262144 := by simp [PPort.room]

theorem heldBytes_enter (p : PPort) (w : DlvWrite) : (p.enter w).heldBytes = p.heldBytes + w.bytes.length := by
  simp only [PPort.heldBytes, PPort.enter, List.map_append, List.map_cons, List.map_nil, List.sum_append, List.sum_cons, List.sum_nil]
  omega

/-- Where there is room, a write enters. -/
theorem enterWrite_room (h : (s.pport b).room w.bytes.length = true) : s.enterWrite b w = s.modPport b (·.enter w) := by
  unfold State.enterWrite State.modPport
  dsimp only
  rw [if_pos h]
  rfl

/-- The writes `ws` have entered port `b`, behind those before; no other part of the state differs. -/
structure State.Enters (b : Nat) (ws : List DlvWrite) (s t : State) : Prop where
  frame : t = { s with pports := t.pports }
  buf : (t.pport b).buf.map (·.2) = (s.pport b).buf.map (·.2) ++ ws
  retained : (t.pport b).retained = (s.pport b).retained
  reads : (t.pport b).reads = (s.pport b).reads

theorem State.Enters.refl (b : Nat) (s : State) : State.Enters b [] s s := ⟨rfl, (List.append_nil _).symm, rfl, rfl⟩

theorem State.Enters.trans {ws ws' : List DlvWrite} (h : State.Enters b ws s t) (h' : State.Enters b ws' t u) :
    State.Enters b (ws ++ ws') s u where
  frame := Eq.trans h'.frame (by rw [h.frame])
  buf := by rw [h'.buf, h.buf, List.append_assoc]
  retained := h'.retained.trans h.retained
  reads := h'.reads.trans h.reads

theorem State.Enters.core {ws : List DlvWrite} (h : State.Enters b ws s t) (j : Nat) : t.core j = s.core j := by rw [h.frame]; rfl

theorem enter_enters (s : State) (b : Nat) (w : DlvWrite) : State.Enters b [w] s (s.modPport b (·.enter w)) := by
  refine ⟨rfl, ?_, ?_, ?_⟩ <;> rw [pport_modPport]
  · exact List.map_append
  all_goals rfl

/-! ## `HOST_WRITE` (R235, R402, R409, R437) -/

/-- Pieces for which there is room enter all, in their order. -/
theorem placePieces_room {part win : Nat} {cmd : Nat × Nat × Nat × Nat} {ps : List (Nat × List Byte × Bool)}
    (hqueued : (s.pport b).queued = []) (hroom : (s.pport b).heldBytes + (ps.map fun e => e.2.1.length).sum ≤ 262144) :
    (placePieces b part win cmd ps s).2 = ps.length ∧
      State.Enters b (ps.map fun e => cmdWrite part win cmd e.1 e.2.1 e.2.2 none false) s (placePieces b part win cmd ps s).1 := by
  induction ps generalizing s with
  | nil => exact ⟨rfl, .refl b s⟩
  | cons e ps ih =>
    rw [List.map_cons, List.sum_cons] at hroom
    have hfits : (s.pport b).room e.2.1.length = true := room_iff.2 ⟨hqueued, by omega⟩
    have hport := pport_modPport s b (·.enter (cmdWrite part win cmd e.1 e.2.1 e.2.2 none false))
    have hheld := heldBytes_enter (s.pport b) (cmdWrite part win cmd e.1 e.2.1 e.2.2 none false)
    have hlen : (cmdWrite part win cmd e.1 e.2.1 e.2.2 none false).bytes.length = e.2.1.length := rfl
    obtain ⟨hcount, henters⟩ := ih (s := s.modPport b (·.enter (cmdWrite part win cmd e.1 e.2.1 e.2.2 none false)))
      (by rw [hport]; exact hqueued) (by rw [hport, hheld, hlen]; omega)
    rw [placePieces, if_pos hfits, enterWrite_room (by exact hfits)]
    exact ⟨congrArg (· + 1) hcount, (enter_enters s b _).trans henters⟩

theorem placePieces_full {part win : Nat} {cmd : Nat × Nat × Nat × Nat} {e : Nat × List Byte × Bool}
    {es : List (Nat × List Byte × Bool)} (h : (s.pport b).room e.2.1.length = false) :
    placePieces b part win cmd (e :: es) s = (s, 0) :=
  if_neg (by rw [h]; exact Bool.false_ne_true)

theorem exec_hostWrite {c : CoreId} {q : Fin 16} (h : s.Works (kOf c) q.val 0x45 it x) (bad : List Nat) :
    exec (.hostWrite c q bad) s = .next (s.hostWriteWork (kOf c) q.val bad it x) :=
  congrArg Host.Outcome.next (work_of_works h fun it x s => s.hostWriteWork (kOf c) q.val bad it x)

theorem hostWriteWork_restore (hrows : s.sourceRows k bad it x ≠ []) :
    s.hostWriteWork k q bad it x = s.startRestore k q (s.sourceRows k bad it x) := if_pos hrows

/-- The pieces of a `HOST_WRITE` that are left to place. -/
def State.piecesLeft (s : State) (k : Nat) (bad : List Nat) (it : Item) (x : Exec) : List (Nat × List Byte × Bool) :=
  (s.hostPieces k (x.handle (mSH it.desc)) it.desc bad).drop x.progress

/-- They enter port `b` while it has room; with the last, the command has done its work. -/
def State.placesPieces (s : State) (k q b : Nat) (it : Item) (ps : List (Nat × List Byte × Bool)) : State :=
  let r := placePieces b (s.partOfKey k) (mDH it.desc) (k, q, it.seq, 0x45) ps s
  if r.2 = ps.length then r.1.workDone k q it [] 0 else r.1.progressed k q it.seq r.2

section
variable (hrows : s.sourceRows k bad it x = []) (hdmg : s.srcDamage k (x.handle (mSH it.desc)) it.desc bad = none)
include hrows hdmg

/-- An undamaged `HOST_WRITE`, by the port that carries its partition. -/
theorem hostWriteWork_undamaged : s.hostWriteWork k q bad it x =
    (s.carrier (s.partOfKey k)).elim (s.workDone k q it [0x08] 0) fun e => s.placesPieces k q e.1 it (s.piecesLeft k bad it x) := by
  have hsame : (if x.recorded then s else s.noteDamage k q it none) = s := ite_self s
  unfold State.hostWriteWork
  unfold State.sourceRows at hrows
  dsimp only
  rw [if_neg (not_not.2 hrows), hdmg, hsame]
  cases s.carrier (s.partOfKey k) <;> rfl

theorem hostWriteWork_full (hcar : s.carrier (s.partOfKey k) = some (b, f)) {e : Nat × List Byte × Bool}
    {es : List (Nat × List Byte × Bool)} (hps : s.piecesLeft k bad it x = e :: es) (hfull : (s.pport b).room e.2.1.length = false) :
    s.hostWriteWork k q bad it x = s.progressed k q it.seq 0 := by
  rw [hostWriteWork_undamaged hrows hdmg, hcar, Option.elim_some, hps, State.placesPieces, placePieces_full hfull]
  exact if_neg (by simp)

/-- R235: every piece left is in the buffer, and the command has done its work. -/
theorem hostWriteWork_placed (hcar : s.carrier (s.partOfKey k) = some (b, f)) (hqueued : (s.pport b).queued = [])
    (hroom : (s.pport b).heldBytes + ((s.piecesLeft k bad it x).map fun e => e.2.1.length).sum ≤ 262144) :
    ∃ t, s.hostWriteWork k q bad it x = t.workDone k q it [] 0 ∧
      State.Enters b ((s.piecesLeft k bad it x).map fun e =>
        cmdWrite (s.partOfKey k) (mDH it.desc) (k, q, it.seq, 0x45) e.1 e.2.1 e.2.2 none false) s t := by
  obtain ⟨hcount, henters⟩ :=
    placePieces_room (part := s.partOfKey k) (win := mDH it.desc) (cmd := (k, q, it.seq, 0x45)) hqueued hroom
  refine ⟨_, ?_, henters⟩
  rw [hostWriteWork_undamaged hrows hdmg, hcar, Option.elim_some]
  exact if_pos hcount

end

/-- A command that moves on by no piece stands as it was. -/
theorem queue_progressed_zero (s : State) (k q n : Nat) : ((s.progressed k q n 0).core k).queue q = (s.core k).queue q := by
  rw [State.progressed, State.core_modCore, Core.updExec, Core.updItem, Core.queue_setQueue]
  refine (List.map_congr_left fun i _ => ?_).trans (List.map_id _)
  obtain ⟨seq, ord, desc, blen, stalled, phase⟩ := i
  cases phase <;> simp

/-! ## `HOST_POST` (R205, R390, R391, R398, R399) -/

theorem exec_hostPost {c : CoreId} {q : Fin 16} (h : s.Works (kOf c) q.val 0x48 it x) (bad : List Nat) :
    exec (.hostPost c q bad) s = .next (s.hostPostWork (kOf c) q.val bad it x) :=
  congrArg Host.Outcome.next (work_of_works h fun it x s => s.hostPostWork (kOf c) q.val bad it x)

/-- R391, R409: without a port, or with entries left for a disabled ring, it ends. -/
theorem hostPostWork_absorbed
    (h : s.carrier (s.partOfKey k) = none ∨ (mCOUNT it.desc - x.progress ≠ 0 ∧ s.ringEn (mRING it.desc) = false)) :
    s.hostPostWork k q bad it x = s.workDone k q it [0x08] 0 := by
  unfold State.hostPostWork
  dsimp only
  split
  · rfl
  · next hcar =>
    obtain hnone | ⟨hleft, hen⟩ := h
    · rw [hnone] at hcar; cases hcar
    · exact if_pos (by simp [hleft, hen])

/-- While its ring is enabled, it puts what can be put. -/
theorem hostPostWork_puts (hcar : s.carrier (s.partOfKey k) = some (b, f)) (hen : s.ringEn (mRING it.desc) = true) {n : Nat}
    (hn : s.postable b (mRING it.desc) (mCOUNT it.desc - x.progress) = n) : s.hostPostWork k q bad it x =
      ((List.range n).foldl (fun s i => s.postEntry b k q (x.handle (mSH it.desc)) bad it (x.progress + i)) s).progressed
        k q it.seq n := by
  unfold State.hostPostWork
  dsimp only
  rw [hcar]
  dsimp only
  rw [if_neg (by simp [hen]), hn]

theorem postable_room {left : Nat} (h : s.postable b r left = 1) :
    (s.pport b).queued = [] ∧ (s.pport b).heldBytes + 64 ≤ 262144 := by
  unfold State.postable at h
  split at h
  · cases h
  · next hqueued => exact ⟨not_not.1 hqueued, by omega⟩

/-- The CQ tail of ring `r` moves on one entry, and the phase turns where it returns to 0 (R399). -/
def State.tailMoves (s : State) (r : Nat) : State :=
  let t := s.setFld (aRing r 0x20) 32 16 ((s.cqTail r + 1) % s.ringN r)
  if s.cqTail r + 1 = s.ringN r then t.setFld (aRing r 0x28) 0 1 (1 - s.fld (aRing r 0x28) 0 1) else t

theorem tailMoves_frame (s : State) (r : Nat) : s.tailMoves r = { s with ctl := (s.tailMoves r).ctl } := by
  unfold State.tailMoves
  dsimp only
  split <;> rfl

theorem aRing_ne (r : Nat) : aRing r 0x20 ≠ aRing r 0x28 := by unfold aRing; omega

theorem cqTail_tailMoves (hn : s.ringN r ≤ 2 ^ 16) : (s.tailMoves r).cqTail r = (s.cqTail r + 1) % s.ringN r := by
  have hpos : 0 < s.ringN r := Nat.two_pow_pos _
  have hlt : (s.cqTail r + 1) % s.ringN r < 2 ^ 16 := lt_of_lt_of_le (Nat.mod_lt _ hpos) hn
  have hset := fld_setFld s (aRing r 0x20) 32 16 ((s.cqTail r + 1) % s.ringN r) (by norm_num)
  rw [Nat.mod_eq_of_lt hlt] at hset
  unfold State.tailMoves
  dsimp only
  split
  · exact (fld_setFld_other _ _ _ _ _ _ _ _ (aRing_ne r)).trans hset
  · exact hset

theorem phase_tailMoves (s : State) (r : Nat) : (s.tailMoves r).fld (aRing r 0x28) 0 1 =
    if s.cqTail r + 1 = s.ringN r then 1 - s.fld (aRing r 0x28) 0 1 else s.fld (aRing r 0x28) 0 1 := by
  unfold State.tailMoves
  dsimp only
  split
  · exact (fld_setFld _ _ _ _ _ (by norm_num)).trans (Nat.mod_eq_of_lt (by omega))
  · exact fld_setFld_other _ _ _ _ _ _ _ _ (aRing_ne r).symm

/-- The two writes of an entry at the CQ tail. -/
def State.entryWrites (s : State) (r src : Nat) (body : List Byte) (ep : Bool) (cmd : Option (Nat × Nat × Nat × Nat)) :
    DlvWrite × DlvWrite :=
  let pl := s.ringPlace r 8
  (⟨r / 256, pl.1, pl.2 + 64 * s.cqTail r, body, ep, cmd, none, cmd.isSome⟩,
   ⟨r / 256, pl.1, pl.2 + 64 * s.cqTail r + 62, [BitVec.ofNat 8 src, BitVec.ofNat 8 (128 * s.fld (aRing r 0x28) 0 1)], ep, cmd,
    some r, cmd.isSome⟩)

/-- R399: an entry of 62 bytes for which there is room enters as its two writes, and the tail moves on. -/
theorem putEntry_room (hqueued : (s.pport b).queued = []) (hroom : (s.pport b).heldBytes + 64 ≤ 262144) (r src : Nat)
    {body : List Byte} (hbody : body.length = 62) (ep : Bool) (cmd : Option (Nat × Nat × Nat × Nat)) :
    let e := s.entryWrites r src body ep cmd
    ∃ u : State, s.putEntry b r src body ep cmd = u.tailMoves r ∧ u = { s with pports := u.pports } ∧
      u.pport b = ((s.pport b).enter e.1).enter e.2 := by
  intro e
  have hbytes : e.1.bytes.length = 62 ∧ e.2.bytes.length = 2 := ⟨hbody, rfl⟩
  obtain ⟨hbytes1, hbytes2⟩ := hbytes
  have hfirst : s.enterWrite b e.1 = s.modPport b (·.enter e.1) := enterWrite_room (room_iff.2 ⟨hqueued, by omega⟩)
  have hport := pport_modPport s b (·.enter e.1)
  have hheld := heldBytes_enter (s.pport b) e.1
  have hsecond : (s.modPport b (·.enter e.1)).enterWrite b e.2 = (s.modPport b (·.enter e.1)).modPport b (·.enter e.2) :=
    enterWrite_room (room_iff.2 ⟨by rw [hport]; exact hqueued, by rw [hport, hheld]; omega⟩)
  have hput : s.putEntry b r src body ep cmd = ((s.enterWrite b e.1).enterWrite b e.2).tailMoves r := rfl
  rw [hput, hfirst, hsecond]
  exact ⟨_, rfl, rfl, by rw [pport_modPport, hport]⟩

theorem postEntry_undamaged {h : Wide} {i : Nat} (hdmg : s.damage k 1 (postSrc h it.desc i) 62 bad = none) :
    s.postEntry b k q h bad it i =
      s.putEntry b (mRING it.desc) 1 (s.coreRead k 1 (postSrc h it.desc i) 62) false (some (k, q, it.seq, 0x48)) := by
  unfold State.postEntry
  dsimp only
  rw [hdmg]
  simp only [State.noteDamage, ite_self, Option.isSome_none]

/-- Settles O31: `HOST_WRITE` by its rows, its port and its room, `HOST_POST` by its port, its ring and the entries it can put. -/
theorem hostWritesEnter : Obligations.HostWritesEnter := by
  refine ⟨fun c q bad s it x b f => ?_, fun c q bad s it x b f => ?_⟩
  · intro k d h ps p hworks
    have hexec := exec_hostWrite hworks bad
    refine ⟨fun hrows => ?_, fun hrows hdmg => ⟨fun hcar => ?_, fun e es hcar hps hfull => ?_, fun hcar hqueued hroom => ?_⟩⟩
    · rw [hostWriteWork_restore hrows] at hexec
      exact ⟨_, hexec, startRestore_begins ..⟩
    · rw [hostWriteWork_undamaged hrows hdmg, hcar, Option.elim_none] at hexec
      exact ⟨_, hexec, rfl, core_workDone ..⟩
    · rw [hostWriteWork_full hrows hdmg hcar hps hfull] at hexec
      exact ⟨_, hexec, rfl, queue_progressed_zero ..⟩
    · obtain ⟨u, hwork, henters⟩ := hostWriteWork_placed (q := q.val) hrows hdmg hcar hqueued hroom
      rw [hwork] at hexec
      have hcore := core_workDone u k q.val it [] 0
      rw [henters.core] at hcore
      have hframe : u.workDone k q.val it [] 0 = { u with cores := (u.workDone k q.val it [] 0).cores } := rfl
      refine ⟨_, hexec, Eq.trans hframe ?_, fun j hj => ?_, hcore, henters.buf, henters.retained, henters.reads⟩
      · rw [henters.frame]; rfl
      · exact (State.core_modCore_ne _ _ hj).trans (henters.core j)
  · intro k d r o at' phase mine n left hworks
    have hexec := exec_hostPost hworks bad
    refine ⟨fun hends => ?_, fun hcar hen hnone => ?_, fun _ hcar hen hn hone hdmg => ?_⟩
    · rw [hostPostWork_absorbed hends] at hexec
      exact ⟨_, hexec, rfl, core_workDone ..⟩
    · rw [hostPostWork_puts hcar hen hnone] at hexec
      exact ⟨_, hexec, rfl, queue_progressed_zero ..⟩
    · obtain ⟨hqueued, hroom⟩ := postable_room hone
      have hlen : (s.coreRead k 1 o 62).length = 62 := by simp [State.coreRead, readMem]
      obtain ⟨u, hput, hu, hport⟩ := putEntry_room hqueued hroom r 1 hlen false mine
      have hpost : s.postEntry b k q.val (x.handle (mSH d)) bad it (x.progress + 0) = u.tailMoves r :=
        (postEntry_undamaged hdmg).trans hput
      rw [hostPostWork_puts hcar hen hone, List.range_one, List.foldl_cons, List.foldl_nil, hpost] at hexec
      have hframe := tailMoves_frame u r
      have hcore (j : Nat) : (u.tailMoves r).core j = s.core j := by rw [hframe, hu]; rfl
      have hentries : ((u.tailMoves r).pport b).buf = (u.pport b).buf := by rw [hframe]; rfl
      have hring : u.ringN r = s.ringN r ∧ u.cqTail r = s.cqTail r ∧ u.fld (aRing r 0x28) 0 1 = phase := by
        rw [hu]; exact ⟨rfl, rfl, rfl⟩
      obtain ⟨hringN, htail, hphase⟩ := hring
      have hmoved := cqTail_tailMoves (s := u) (r := r) (by rw [hringN]; exact hn)
      have hturned := phase_tailMoves u r
      rw [hringN, htail] at hmoved
      rw [hringN, htail, hphase] at hturned
      have hdone : (u.tailMoves r).progressed k q.val it.seq 1 =
          { u.tailMoves r with cores := ((u.tailMoves r).progressed k q.val it.seq 1).cores } := rfl
      refine ⟨_, hexec, ?_, fun j hj => ?_, ?_, hentries.trans ?_, hmoved, hturned⟩
      · refine Eq.trans hdone ?_
        rw [hframe, hu]; rfl
      · exact (State.core_modCore_ne _ _ hj).trans (hcore j)
      · rw [State.progressed, State.core_modCore, hcore]
      · rw [hport]; exact List.append_assoc ..

end Sys2Proof.Machine
end

