-- ==== Sys2Proof/Proofs/HostReads.lean ====
section
/-! PROOFS. Reads of host memory: how they begin, when they leave, and what `HOST_READ` and `HOST_FLUSH` ask for (R237, R238, R378,
R389, R403, R409). -/

namespace Sys2Proof.Machine

variable {s t u : State} {k q b f n : Nat} {it : Item} {x : Exec} {r : HRead}

/-! ## Reads that begin -/

/-- A port with a read more, which has the port's next tag. -/
def PPort.read (p : PPort) (r : Nat → HRead) : PPort := { p with reads := p.reads ++ [r p.nextTag], nextTag := p.nextTag + 1 }

theorem pport_addRead (s : State) (b : Nat) (r : Nat → HRead) : (s.addRead b r).pport b = (s.pport b).read r := pport_modPport ..

/-- What a read asks for: window, offset and length. -/
def HRead.asked (r : HRead) : Nat × Nat × Nat := (r.win, r.off, r.len)

/-- Reads of the ranges `l` have begun at port `b`, behind those before; no other part of the state differs. -/
structure State.ReadsBegin (b : Nat) (l : List (Nat × Nat × Nat)) (s t : State) : Prop where
  frame : t = { s with pports := t.pports }
  buf : (t.pport b).buf = (s.pport b).buf
  reads : (t.pport b).reads.map HRead.asked = (s.pport b).reads.map HRead.asked ++ l

theorem State.ReadsBegin.trans {l l' : List (Nat × Nat × Nat)} (h : State.ReadsBegin b l s t) (h' : State.ReadsBegin b l' t u) :
    State.ReadsBegin b (l ++ l') s u where
  frame := Eq.trans h'.frame (by rw [h.frame])
  buf := h'.buf.trans h.buf
  reads := by rw [h'.reads, h.reads, List.append_assoc]

theorem addRead_readsBegin (s : State) (b : Nat) {r : Nat → HRead} {e : Nat × Nat × Nat} (hr : ∀ tag, (r tag).asked = e) :
    State.ReadsBegin b [e] s (s.addRead b r) where
  frame := rfl
  buf := by rw [pport_addRead]; rfl
  reads := by rw [pport_addRead, PPort.read, List.map_append, List.map_cons, hr, List.map_nil]

theorem foldl_addRead_readsBegin {α : Type} (b : Nat) {r : α → Nat → HRead} {g : α → Nat × Nat × Nat}
    (hr : ∀ e tag, (r e tag).asked = g e) (l : List α) (s : State) :
    State.ReadsBegin b (l.map g) s (l.foldl (fun s e => s.addRead b (r e)) s) := by
  induction l generalizing s with
  | nil => exact ⟨rfl, rfl, (List.append_nil _).symm⟩
  | cons e l ih => exact (addRead_readsBegin s b (hr e)).trans (ih _)

/-! ## Reads that leave (R237, R238, R378, R389) -/

theorem readPump_down (h : s.linkUp b = false) : readPump b n s = s := by
  cases n with
  | zero => rfl
  | succ n => rw [readPump]; exact if_pos (by rw [h]; rfl)

/-- Nothing leaves where every read has left. -/
theorem readPump_sent (h : ∀ r ∈ (s.pport b).reads, r.sent = true) : readPump b n s = s := by
  cases n with
  | zero => rfl
  | succ n =>
    have hnone : ((s.pport b).reads.find? fun r => !r.sent && !s.readWaits (s.pport b) r) = none :=
      List.find?_eq_none.2 fun r hr => by simp [h r hr]
    rw [readPump]
    dsimp only
    rw [hnone]
    exact ite_self s

theorem pumpReads_sent (h : ∀ r ∈ (s.pport b).reads, r.sent = true) : s.pumpReads b = s := readPump_sent h

theorem pumpReads_empty (h : (s.pport b).reads = []) : s.pumpReads b = s := pumpReads_sent (by simp [h])

theorem readWaits_probe (p : PPort) (h : r.why = .probe) : s.readWaits p r = false := by simp [State.readWaits, h]

theorem readWaits_nothing {p : PPort} (hbuf : p.buf = []) (hqueued : p.queued = []) (r : HRead) : s.readWaits p r = false := by
  simp [State.readWaits, hbuf, hqueued]

theorem pport_sendRead (s : State) (b : Nat) (r : HRead) : (s.sendRead b r).pport b = { s.pport b with
    reads := (s.pport b).reads.map fun x =>
      if x.tag = r.tag then { x with sent := true, after := (s.pport b).left, sentAt := s.tick } else x } :=
  pport_modPport s b fun p => { p with
    reads := p.reads.map fun x => if x.tag = r.tag then { x with sent := true, after := p.left, sentAt := s.tick } else x }

/-- A lone read that waits for nothing leaves at once. -/
theorem pumpReads_lone (hup : s.linkUp b = true) (hreads : (s.pport b).reads = [r]) (hsent : r.sent = false)
    (hwaits : s.readWaits (s.pport b) r = false) (hcode : s.readCode r = 0) : s.pumpReads b = s.sendRead b r := by
  have hfind : ((s.pport b).reads.find? fun r => !r.sent && !s.readWaits (s.pport b) r) = some r := by
    rw [hreads]; exact List.find?_cons_of_pos (by simp [hsent, hwaits])
  have hout : (s.pport b).outstanding = 0 := by simp [PPort.outstanding, hreads, hsent]
  have hleft : ∀ x ∈ ((s.sendRead b r).pport b).reads, x.sent = true := by rw [pport_sendRead, hreads]; simp
  have hlen : (s.pport b).reads.length + 32 = 32 + 1 := by rw [hreads]; rfl
  rw [State.pumpReads, hlen, readPump]
  dsimp only
  rw [if_neg (by simp [hup, hout]), hfind]
  dsimp only
  rw [hcode]
  exact readPump_sent hleft

/-- The check of a read of a command: the window as it stands now. -/
theorem readCode_of_pos (hwhy : ∀ p first, r.why ≠ .journal p first) (hlen : 0 < r.len) :
    s.readCode r = s.beyond r.part r.win (r.off + r.len - 1) := by
  have hne : r.len ≠ 0 := by omega
  unfold State.readCode
  split
  · next hw => exact absurd hw (hwhy _ _)
  · exact if_neg hne

/-- The request of a read, as it goes to the host (R403). -/
def State.request (s : State) (b : Nat) (r : HRead) : Out :=
  .hostRead b r.tag (s.winAddr r.part r.win (if r.zero then r.off + r.len - 1 else r.off)) (if r.zero then 0 else r.len)

/-- The request `o` has gone to the host from port `b`; what the ports hold apart, nothing else differs. -/
structure State.Asks (b : Nat) (o : Out) (s t : State) : Prop where
  frame : t = { s with pports := t.pports, out := s.out ++ [o] }
  retained : (t.pport b).retained = (s.pport b).retained

theorem State.Asks.mem {o : Out} (h : State.Asks b o s t) : t.mem = s.mem := by rw [h.frame]
theorem State.Asks.ctl {o : Out} (h : State.Asks b o s t) : t.ctl = s.ctl := by rw [h.frame]
theorem State.Asks.out {o : Out} (h : State.Asks b o s t) : t.out = s.out ++ [o] := by rw [h.frame]

/-- A read that begins alone at its port, and waits for no write, leaves at once on a link that is up. -/
theorem addRead_pumped (hup : s.linkUp b = true) (hreads : (s.pport b).reads = []) {r : Nat → HRead}
    (hsent : ∀ tag, (r tag).sent = false)
    (hwaits : s.readWaits ((s.pport b).read r) (r (s.pport b).nextTag) = false) (hcode : s.readCode (r (s.pport b).nextTag) = 0) :
    State.Asks b (s.request b (r (s.pport b).nextTag)) s ((s.addRead b r).pumpReads b) := by
  have hport := pport_addRead s b r
  have hsend : (s.addRead b r).pumpReads b = (s.addRead b r).sendRead b (r (s.pport b).nextTag) :=
    pumpReads_lone (by exact hup) (by rw [hport, PPort.read, hreads]; rfl) (hsent _)
      (by rw [hport]; exact hwaits) (by exact hcode)
  rw [hsend]
  exact ⟨rfl, by rw [pport_sendRead, hport]; rfl⟩

/-! ## `HOST_READ`, `HOST_FLUSH` (R237, R238, R409) -/

theorem exec_hostRead {c : CoreId} {q : Fin 16} (h : s.Works (kOf c) q.val 0x46 it x) :
    exec (.hostRead c q) s = .next (s.hostReadWork (kOf c) q.val it x) :=
  congrArg Host.Outcome.next (work_of_works h fun it x s => s.hostReadWork (kOf c) q.val it x)

theorem exec_hostFlush {c : CoreId} {q : Fin 16} (h : s.Works (kOf c) q.val 0x47 it x) :
    exec (.hostFlush c q) s = .next (s.hostFlushWork (kOf c) q.val it x) :=
  congrArg Host.Outcome.next (work_of_works h fun it x s => s.hostFlushWork (kOf c) q.val it x)

/-- A piece of a `HOST_READ` as it begins. -/
def State.pieceRead (s : State) (k q b : Nat) (it : Item) (e : (Nat × Nat) × List (Nat × Nat)) (tag : Nat) : HRead :=
  ⟨tag, s.partOfKey k, mDH it.desc, e.1.1, e.1.2, false, .command k q it.seq e.2, (s.pport b).entered, false, none, 0⟩

/-- The read of a `HOST_FLUSH` as it begins: of no byte, behind the writes of its range. -/
def State.flushRead (s : State) (k q : Nat) (it : Item) (x : Exec) (tag : Nat) : HRead :=
  ⟨tag, s.partOfKey k, mDH it.desc, mHOFF it.desc, mSIZE it.desc, true, .flush k q it.seq, x.progress, false, none, 0⟩

theorem hostReadWork_absorbed (hprog : x.progress = 0) (hcar : s.carrier (s.partOfKey k) = none) :
    s.hostReadWork k q it x = s.workDone k q it [0x08] 0 := by
  unfold State.hostReadWork
  dsimp only
  rw [if_neg (not_not.2 hprog), hcar]
  rfl

theorem hostReadWork_carried (hprog : x.progress = 0) (hcar : s.carrier (s.partOfKey k) = some (b, f)) :
    s.hostReadWork k q it x = (((readPieces (s.fnCfg b f).maxRead (x.handle (mSH it.desc)) it.desc).foldl
      (fun t e => t.addRead b (s.pieceRead k q b it e)) s).progressed k q it.seq 1).pumpReads b := by
  unfold State.hostReadWork
  dsimp only
  rw [if_neg (not_not.2 hprog), hcar]
  rfl

theorem hostFlushWork_absorbed (hcar : s.carrier (s.partOfKey k) = none) :
    s.hostFlushWork k q it x = s.workDone k q it [0x08] 0 := by
  unfold State.hostFlushWork
  dsimp only
  rw [hcar]
  rfl

theorem hostFlushWork_carried (hcar : s.carrier (s.partOfKey k) = some (b, f)) (hpieces : (s.pport b).pieces k q it.seq = []) :
    s.hostFlushWork k q it x = (s.addRead b (s.flushRead k q it x)).pumpReads b := by
  unfold State.hostFlushWork
  dsimp only
  rw [hcar]
  exact if_neg (not_not.2 hpieces)

/-- Settles O32: both commands by their port, its link, and what of the port is under way. -/
theorem hostReadsLeave : Obligations.HostReadsLeave := by
  intro c q s it x b f e k d p tag rs
  refine ⟨fun hcar => ⟨fun hworks hprog => ?_, fun hworks => ?_⟩, fun hcar _ => ⟨fun hdown => ⟨fun hworks hprog => ?_,
    fun hworks hpieces => ?_⟩, fun hup hreads hbuf hqueued => ⟨fun hworks hprog hrs hpos hin => ?_, fun hworks hpos hin => ?_⟩⟩⟩
  · exact ⟨_, (exec_hostRead hworks).trans (congrArg _ (hostReadWork_absorbed hprog hcar)), rfl, core_workDone ..⟩
  · exact ⟨_, (exec_hostFlush hworks).trans (congrArg _ (hostFlushWork_absorbed hcar)), rfl, core_workDone ..⟩
  · obtain ⟨hframe, hbuf, hreads⟩ := foldl_addRead_readsBegin b (r := s.pieceRead k q.val b it) (g := fun e => (mDH d, e.1.1, e.1.2))
      (fun _ _ => rfl) rs s
    obtain ⟨u, hu⟩ : ∃ u, u = rs.foldl (fun t e => t.addRead b (s.pieceRead k q.val b it e)) s := ⟨_, rfl⟩
    rw [← hu] at hframe hbuf hreads
    have hwork : s.hostReadWork k q.val it x = u.progressed k q.val it.seq 1 := by
      rw [hostReadWork_carried hprog hcar, hu]
      exact readPump_down (by rw [← hu, hframe]; exact hdown)
    refine ⟨_, (exec_hostRead hworks).trans (congrArg _ hwork), ?_, fun j hj => ?_, hbuf, hreads⟩
    · rw [hframe]; rfl
    · exact (State.core_modCore_ne u _ hj).trans (by rw [hframe]; rfl)
  · obtain ⟨hframe, hbuf, hreads⟩ := addRead_readsBegin s b (r := s.flushRead k q.val it x) (e := (mDH d, mHOFF d, mSIZE d))
      fun _ => rfl
    have hwork := hostFlushWork_carried (x := x) hcar hpieces
    rw [State.pumpReads, readPump_down (by exact hdown)] at hwork
    exact ⟨_, (exec_hostFlush hworks).trans (congrArg _ hwork), hframe, hbuf, hreads⟩
  · have hcode : s.readCode (s.pieceRead k q.val b it e tag) = 0 := (readCode_of_pos (by simp [State.pieceRead]) hpos).trans hin
    have hone : rs.foldl (fun t e => t.addRead b (s.pieceRead k q.val b it e)) s = s.addRead b (s.pieceRead k q.val b it e) := by
      rw [hrs]; rfl
    have hwork : s.hostReadWork k q.val it x =
        ((s.progressed k q.val it.seq 1).addRead b (s.pieceRead k q.val b it e)).pumpReads b := by
      rw [hostReadWork_carried hprog hcar, hone]; rfl
    have hleaves := addRead_pumped (s := s.progressed k q.val it.seq 1) (r := s.pieceRead k q.val b it e) (by exact hup)
      (by exact hreads) (fun _ => rfl) (readWaits_nothing (by exact hbuf) (by exact hqueued) _) (by exact hcode)
    exact ⟨_, (exec_hostRead hworks).trans (congrArg _ hwork), hleaves.mem, hleaves.out⟩
  · have hcode : s.readCode (s.flushRead k q.val it x tag) = 0 := (readCode_of_pos (by simp [State.flushRead]) hpos).trans hin
    have hpieces : (s.pport b).pieces k q.val it.seq = [] := by simp [PPort.pieces, hreads]
    have hwork := hostFlushWork_carried (x := x) hcar hpieces
    have hleaves := addRead_pumped hup hreads (r := s.flushRead k q.val it x) (fun _ => rfl)
      (readWaits_nothing (by exact hbuf) (by exact hqueued) _) hcode
    exact ⟨_, (exec_hostFlush hworks).trans (congrArg _ hwork), hleaves.mem, hleaves.out⟩

end Sys2Proof.Machine
end

