-- ==== Sys2Proof/Proofs/HopsAndCensus.lean ====
section
/-! PROOFS. Hop failures, the census freeze, and circuits that break (R239, R240, R267, R440, R442, R446). -/

namespace Sys2Proof.Machine

variable {s t : State} {k n : Nat} {p : Packet} {r : ErrRec}

/-! ## A record among those to come (R446) -/

/-- It is merged with those to come, its class as it was given. -/
theorem raise_merges (s : State) (r : ErrRec) : ∃ r' : ErrRec, r'.cls = r.cls ∧ (s.raise r).errPend = mergeRec r' s.errPend := by
  have hcounted : (if r.rkind = 0xFF then s else { s with windows := countEvent s.windows (windowKey r.rkind r.res) }).errPend =
      s.errPend := by split <;> rfl
  unfold State.raise
  dsimp only
  split
  · rw [stopPart_errPend, timingLost_errPend]
    refine ⟨_, ?_, congrArg (mergeRec _) hcounted⟩
    rfl
  · rw [timingLost_errPend]
    refine ⟨_, ?_, congrArg (mergeRec _) hcounted⟩
    rfl

/-- With none to join, it keeps its class. -/
theorem raise_cls_alone (h : s.errPend = []) : ∀ x ∈ (s.raise r).errPend, x.cls = r.cls := by
  obtain ⟨r', hcls, hmerge⟩ := raise_merges s r
  rw [hmerge, h]
  exact fun x hx => List.mem_singleton.1 hx ▸ hcls

/-- A record of `r`'s source, core and location is to come, of its class where it joined none. -/
def State.Records (r : ErrRec) (s t : State) : Prop :=
  ∃ x ∈ t.errPend, x.source = r.source ∧ x.core = r.core ∧ x.location = r.location ∧ (s.errPend = [] → x.cls = r.cls)

theorem raise_records (s : State) (r : ErrRec) : State.Records r s (s.raise r) := by
  obtain ⟨x, hx, hsource, -, hcore, hloc⟩ := raise_has s r
  exact ⟨x, hx, hsource, hcore, hloc, fun h => raise_cls_alone h x hx⟩

theorem raiseOpen_records (s : State) (r : ErrRec) : State.Records r s (s.raiseOpen r) := raise_records { s with free := s.free + 1 } _

theorem raiseOpen_notes {P : Nat → Prop} (hP : ∀ a, P a → 0x4000 ≤ a) (h : r.cls ≠ 3) (s : State) : s.Notes P (s.raiseOpen r) :=
  .trans (t := { s with free := s.free + 1 }) ⟨⟨rfl, rfl, rfl, rfl, fun _ _ => rfl⟩, rfl, .of_eq rfl⟩
    (.raise (r := { r with status := openStatus s.draw.1 }) hP h _)

/-! ## Hops (R440) -/

/-- The traffic of `held` has met an error (R320). -/
def State.pathsInexact (s : State) (held : List Packet) : State :=
  held.foldl (fun s p => s.pathInexact (kSRC p) (nameAt (kDADDR p))) s

theorem pathsInexact_writes (s : State) (held : List Packet) : s.Writes (fun _ => False) (s.pathsInexact held) :=
  .foldl _ held fun _ _ _ => .foldl _ _ fun u _ _ => .ite (timingLost_writes (fun _ _ => not_false) u _) (.refl _ u)

theorem hopFails_resent (s : State) (h : Hop) (hn : n < 8) (held : List Packet) :
    let t := s.hopFails h n held
    t.mem = s.mem ∧ t.cores = s.cores ∧ t.net = s.net.map (fun q => if q ∈ held then { q with replayed := true } else q) ∧
      ∃ r ∈ t.errPend, r.source = 0x20 ∧ r.location = h.out % 256 ∧ (s.errPend = [] → r.cls = 0) := by
  obtain ⟨u, hu⟩ : ∃ u, u = s.pathsInexact held := ⟨_, rfl⟩
  have hpaths : u = { s with ctl := u.ctl } := hu ▸ (pathsInexact_writes s held).frame
  obtain ⟨v, hv⟩ : ∃ v : State, v = { u with net := u.net.map fun q => if q ∈ held then { q with replayed := true } else q } :=
    ⟨_, rfl⟩
  have hfails : s.hopFails h n held = v.raiseOpen (u.hopRec h 0 0x20 false) := by rw [hv, hu]; exact if_pos hn
  have hnotes : v.Notes (fun _ => False) (v.raiseOpen (u.hopRec h 0 0x20 false)) :=
    raiseOpen_notes (fun _ => False.elim) (by simp [State.hopRec]) v
  obtain ⟨x, hx, hsource, -, hloc, hcls⟩ := raiseOpen_records v (u.hopRec h 0 0x20 false)
  dsimp only
  rw [hfails]
  refine ⟨hnotes.mem.trans ?_, hnotes.cores.trans ?_, ?_, x, hx, hsource, hloc, fun he => hcls ?_⟩
  · rw [hv, hpaths]
  · rw [hv, hpaths]
  · rw [raiseOpen_frame v, hv, hpaths]
  · rw [hv, hpaths]; exact he

theorem creditOf_errPend (s : State) (p : Packet) : (s.creditOf p).errPend = s.errPend := by
  unfold State.creditOf
  split
  · split
    · split
      · next l _ => rw [(creditHome_poolBecomes s _ l).frame]
      · rfl
    · rfl
  · split <;> rfl

/-- A lost packet's end writes no byte and raises no record of its own. -/
theorem hopLost_keeps (s : State) (p : Packet) :
    (s.hopLost p).mem = s.mem ∧ (s.hopLost p).tiles = s.tiles ∧ (s.hopLost p).errPend = s.errPend := by
  unfold State.hopLost
  split
  · exact ⟨rfl, rfl, rfl⟩
  · dsimp only
    split
    · exact ⟨rfl, rfl, rfl⟩
    · have hack : ((s.landed p).creditOf p).SendFrame (((s.landed p).creditOf p).ackWith p cPARITY) := answer_frame ..
      have hserves := creditOf_serves (s.landed p) p
      exact ⟨hack.mem.trans hserves.mem, hack.tiles.trans hserves.tiles, by rw [hack]; exact creditOf_errPend ..⟩

/-- An ACK of PARITY_UNRECOVERED for the transfer of `p`. -/
def LostAnswer (p r : Packet) : Prop := kTYPE r = 4 ∧ kTXID r = kTXID p ∧ codeOf (BitVec.ofNat 16 (kARG r)) = 0x07

/-- A lost answer reaches its requester as such an ACK (log 26). -/
theorem lostAnswer_turned (p : Packet) (b : Bool) :
    LostAnswer p ⟨putW (putW (putW (putW p.hdr 0 4 tyACK) 35 11 0) 176 16 0) 224 32 cPARITY, [], b⟩ := by
  refine ⟨?_, ?_, ?_⟩
  · simp only [kTYPE, getW_putW, getW_putW_ne, Nat.reduceAdd, Nat.reduceLeDiff, true_or]
    rfl
  · simp only [kTXID, getW_putW_ne, Nat.reduceAdd, Nat.reduceLeDiff, or_true, true_or]
  · simp only [kARG, getW_putW, Nat.reduceAdd, Nat.reduceLeDiff]
    rfl

theorem hopLost_answered (hp : p ∈ s.net) (h : (kTYPE p = 3 ∨ kTYPE p = 4) ∨ a20Pkg (kSRC p) = s.position) :
    ∃ r ∈ (s.hopLost p).net, LostAnswer p r := by
  unfold State.hopLost
  rw [if_neg (not_not.2 hp)]
  dsimp only
  split
  · exact ⟨_, List.mem_append_right _ (List.mem_singleton_self _), lostAnswer_turned p _⟩
  · next hty =>
    have hsrc : a20Pkg (kSRC p) = ((s.landed p).creditOf p).position := by
      rw [(creditOf_serves (s.landed p) p).position]; exact h.resolve_left hty
    obtain ⟨r, hr, htype, htxid, hcode, -⟩ := answer_has _ p 4 0x07 0 [] 0 hsrc (by norm_num) (by norm_num)
    exact ⟨r, hr, htype, htxid, hcode⟩

theorem hopFails_ended (s : State) (h : Hop) (hn : 8 ≤ n) (hp : p ∈ s.net) :
    let t := s.hopFails h n [p]
    t.mem = s.mem ∧ t.tiles = s.tiles ∧
      (((kTYPE p = 3 ∨ kTYPE p = 4) ∨ a20Pkg (kSRC p) = s.position) → ∃ r ∈ t.net, LostAnswer p r) ∧
      ∃ r ∈ t.errPend, r.source = 0x21 ∧ r.location = h.out % 256 ∧ (s.errPend = [] → r.cls = 1) := by
  obtain ⟨u, hu⟩ : ∃ u, u = s.pathsInexact [p] := ⟨_, rfl⟩
  have hpaths : u = { s with ctl := u.ctl } := hu ▸ (pathsInexact_writes s [p]).frame
  have hsame : u.mem = s.mem ∧ u.tiles = s.tiles ∧ u.errPend = s.errPend ∧ u.net = s.net ∧ u.position = s.position := by
    rw [hpaths]; exact ⟨rfl, rfl, rfl, rfl, rfl⟩
  obtain ⟨hmem, htiles, hpend, hnet, hpos⟩ := hsame
  obtain ⟨hlmem, hltiles, hlpend⟩ := hopLost_keeps u p
  have hfails : s.hopFails h n [p] = (u.hopLost p).raise (u.hopRec h 1 0x21 true) := by rw [hu]; exact if_neg (not_lt.2 hn)
  have hframe := raise_frame_lt (u.hopLost p) (u.hopRec h 1 0x21 true) (by simp [State.hopRec])
  obtain ⟨x, hx, hsource, -, hloc, hcls⟩ := raise_records (u.hopLost p) (u.hopRec h 1 0x21 true)
  dsimp only
  rw [hfails]
  refine ⟨?_, ?_, fun hans => ?_, x, hx, hsource, hloc, fun he => hcls (hlpend.trans (hpend.trans he))⟩
  · rw [hframe]; exact hlmem.trans hmem
  · rw [hframe]; exact hltiles.trans htiles
  · rw [hframe]; exact hopLost_answered (hnet ▸ hp) (hpos ▸ hans)

/-! ## The census freeze (R240) -/

theorem State.Writes.mem {P : Nat → Prop} (h : s.Writes P t) : t.mem = s.mem := by rw [h.frame]
theorem State.Writes.cores {P : Nat → Prop} (h : s.Writes P t) : t.cores = s.cores := by rw [h.frame]

/-- What the census registers of core `k` report: the compositor, the queues and their causes `l`, the flag, the tick. -/
def State.censusReport (s : State) (k cmp qmask flag : Nat) (l : List (Nat × Block)) (cause : Nat × Block → Word) : State :=
  let t := l.foldl (fun s e => s.wr (aCoreK k (0xD40 + 8 * e.1)) (cause e))
    ((s.wr (aCoreK k 0xD00) (BitVec.ofNat 64 (1 + 2 * cmp + 4 * qmask + flag * 2 ^ 18))).wr (aCoreK k 0xD08) (BitVec.ofNat 64 s.tick))
  { t with free := t.free + 16 }

theorem censusReport_reads (s : State) (k cmp qmask flag : Nat) (l : List (Nat × Block)) (cause : Nat × Block → Word) :
    let u := s.censusReport k cmp qmask flag l cause
    u.mem = s.mem ∧ u.core k = s.core k ∧ u.fld (aCoreK k 0xD00) 0 1 = 1 ∧ u.rd (aCoreK k 0xD08) = BitVec.ofNat 64 s.tick := by
  obtain ⟨v, hv⟩ : ∃ v, v = BitVec.ofNat 64 (1 + 2 * cmp + 4 * qmask + flag * 2 ^ 18) := ⟨_, rfl⟩
  have hbit : getF v 0 1 = 1 := by rw [hv, getF, bits_eq, BitVec.toNat_ofNat]; omega
  have hcauses : State.Writes (fun a => a = aCoreK k 0xD00 ∨ a = aCoreK k 0xD08)
      ((s.wr (aCoreK k 0xD00) v).wr (aCoreK k 0xD08) (BitVec.ofNat 64 s.tick))
      (l.foldl (fun s e => s.wr (aCoreK k (0xD40 + 8 * e.1)) (cause e))
        ((s.wr (aCoreK k 0xD00) v).wr (aCoreK k 0xD08) (BitVec.ofNat 64 s.tick))) :=
    .foldl _ l fun t e _ => ⟨rfl, fun a ha => State.rd_wr_ne t _ (by rcases ha with rfl | rfl <;> rw [ne_eq, aCoreK_inj] <;> omega)⟩
  have hstatus := (hcauses.rd _ (.inl rfl)).trans
    ((State.rd_wr_ne (s.wr (aCoreK k 0xD00) v) (BitVec.ofNat 64 s.tick) (by rw [ne_eq, aCoreK_inj]; omega)).trans (State.rd_wr s _ v))
  have htick := (hcauses.rd _ (.inr rfl)).trans (State.rd_wr _ _ _)
  dsimp only
  rw [State.censusReport, ← hv]
  exact ⟨hcauses.mem, congrArg (Tbl.get Core.reset · k) hcauses.cores, (congrArg (getF · 0 1) hstatus).trans hbit, htick⟩

/-- The freeze in two steps: the report, then the frozen core and its partition-fatal record. -/
theorem censusFreeze_reports (hlive : s.live k = true) (hlong : 4096 < (s.core k).census) (hblocked : s.censusBlocked k = true) :
    ∃ (u : State) (r : ErrRec), s.censusFreeze k = (u.modCore k fun c => { c with frozen := true }).raise r ∧
      r.source = 0x03 ∧ r.core = keyFlat k ∧ u.mem = s.mem ∧ u.core k = s.core k ∧
      u.fld (aCoreK k 0xD00) 0 1 = 1 ∧ u.rd (aCoreK k 0xD08) = BitVec.ofNat 64 s.tick := by
  unfold State.censusFreeze
  dsimp only
  rw [if_neg (by simp [hlive, hblocked, hlong])]
  exact ⟨_, _, rfl, rfl, rfl, censusReport_reads ..⟩

/-! ## Circuits (R267) -/

theorem circBreak_marks (hpow : s.powered = true) {circ : BitVec 12} (hentry : s.circEntry k circ.toNat = some n)
    (hsound : s.fld (aCirc k n) 14 1 = 0) {why : BreakCause} (hgone : s.circGone k n circ why = true) :
    s.circBreak k circ why = (s.setFld (aCirc k n) 14 1 1).raiseOpen { s.coreRec k 1 0x23 0 with detail := circ.toNat } := by
  unfold State.circBreak
  rw [hentry]
  exact if_neg (by simp [hpow, hsound, hgone])

/-- Settles O38: a hop's failure by its count, a blocked core by its census, a circuit by its hops. -/
theorem hopsCensusBreaks : Obligations.HopsCensusBreaks := by
  refine ⟨fun h n p held s hpow => ?_, fun c circ why s n => ?_⟩
  · have hexec (l : List Packet) : exec (.hopRetry h n l) s = .next (s.hopFails h n l) := congrArg Host.Outcome.next (if_pos hpow)
    exact ⟨fun hn => ⟨_, hexec held, hopFails_resent s h hn held⟩, fun hn hp => ⟨_, hexec [p], hopFails_ended s h hn hp⟩⟩
  intro k
  refine ⟨fun hlive hlong hblocked => ?_, fun hpow hentry hsound hgone => ?_⟩
  · obtain ⟨u, r, hfreeze, hsource, hcore, hmem, hk, hbit, htick⟩ := censusFreeze_reports hlive hlong hblocked
    obtain ⟨v, hv⟩ : ∃ v, v = u.modCore k fun c => { c with frozen := true } := ⟨_, rfl⟩
    rw [← hv] at hfreeze
    have hkeeps : v.Keeps (inWindowOf k) (v.raise r) := .raise (fun _ => inWindowOf_ge) (.refl v) r
    have hstand := (raise_standing v r).at_core k
    rw [Core.standing, Core.standing, Prod.mk.injEq, hv, State.core_modCore, ← hv] at hstand
    obtain ⟨x, hx, hxsource, hxcore, -⟩ := raise_records v r
    refine ⟨_, congrArg Host.Outcome.next hfreeze, hkeeps.mem.trans ?_, hstand.1, hstand.2.trans ?_, (hkeeps.fld ⟨_, rfl⟩ 0 1).trans ?_,
      (hkeeps.rd _ ⟨_, rfl⟩).trans ?_, x, hx, hxsource.trans hsource, hxcore.trans hcore⟩
    · rw [hv]; exact hmem
    · rw [hk]
    · rw [hv]; exact hbit
    · rw [hv]; exact htick
  · have hbreak := circBreak_marks hpow hentry hsound hgone
    obtain ⟨u, hu⟩ : ∃ u, u = s.setFld (aCirc k n) 14 1 1 := ⟨_, rfl⟩
    obtain ⟨r, hr⟩ : ∃ r : ErrRec, r = { s.coreRec k 1 0x23 0 with detail := circ.toNat } := ⟨_, rfl⟩
    rw [← hu, ← hr] at hbreak
    have hnotes : u.Notes (inWindowOf k) (u.raiseOpen r) := raiseOpen_notes (fun _ => inWindowOf_ge) (by rw [hr]; simp [State.coreRec]) u
    obtain ⟨x, hx, hsource, hcore, -⟩ := raiseOpen_records u r
    refine ⟨_, congrArg Host.Outcome.next hbreak, hnotes.mem.trans ?_, hnotes.cores.trans ?_, (hnotes.toKeeps.fld ⟨_, rfl⟩ 14 1).trans ?_, ?_,
      x, hx, ?_, ?_⟩
    · rw [hu]; rfl
    · rw [hu]; rfl
    · rw [hu]; exact fld_setFld _ _ _ _ _ (by norm_num)
    · rw [raiseOpen_frame u r, hu]; rfl
    · rw [hsource, hr]; rfl
    · rw [hcore, hr]; rfl

end Sys2Proof.Machine
end

