-- ==== Sys2Proof/Proofs/HostSide.lean ====
section
/-! PROOFS. The host's side of a port: what its steps leave, the input journal's writes, writes that leave and are proved delivered
(R235, R236, R321, R389, R402). -/

namespace Sys2Proof.Machine

variable {s t u : State}

/-! ## What the steps of the host's side leave -/

/-- What has been driven to the world stays so: more may follow. -/
def State.Grows (s t : State) : Prop := s.out <+: t.out

theorem State.Grows.of_eq (h : t.out = s.out) : s.Grows t := by rw [State.Grows, h]

theorem State.Grows.trans (h : s.Grows t) (h' : t.Grows u) : s.Grows u := List.IsPrefix.trans h h'

/-- Registers, cores, parts, records and interrupts apart nothing differs but what is driven to the world, which has grown; records to
come stay. -/
structure State.HostSide (s t : State) : Prop where
  frame : t = { s with ctl := t.ctl, cores := t.cores, parts := t.parts, irqs := t.irqs, errPend := t.errPend,
                       windows := t.windows, free := t.free, out := t.out }
  grows : s.Grows t
  records : s.RecordsStay t

namespace State.HostSide

theorem refl (s : State) : s.HostSide s := ⟨rfl, .of_eq rfl, .of_eq rfl⟩

theorem trans (h : s.HostSide t) (h' : t.HostSide u) : s.HostSide u :=
  ⟨Eq.trans h'.frame (by rw [h.frame]), h.grows.trans h'.grows, h.records.trans h'.records⟩

theorem ite {c : Prop} [Decidable c] (h : s.HostSide t) (h' : s.HostSide u) : s.HostSide (if c then t else u) := by
  split <;> assumption

theorem setFld (s : State) (a lo w x : Nat) : s.HostSide (s.setFld a lo w x) := ⟨rfl, .of_eq rfl, .of_eq rfl⟩

theorem modCore (s : State) (k : Nat) (g : Core → Core) : s.HostSide (s.modCore k g) := ⟨rfl, .of_eq rfl, .of_eq rfl⟩

theorem modIrq (s : State) (r : Nat) (g : RingIrq → RingIrq) : s.HostSide (s.modIrq r g) := ⟨rfl, .of_eq rfl, .of_eq rfl⟩

theorem emit (s : State) (o : Out) : s.HostSide (s.emit o) := ⟨rfl, List.prefix_append _ _, .of_eq rfl⟩

theorem raise {r : ErrRec} (hr : r.cls ≠ 3) (s : State) : s.HostSide (s.raise r) := by
  have hframe := raise_frame s r
  exact ⟨Eq.trans hframe (by rw [hframe]), .of_eq (by rw [hframe]), raise_recordsStay s hr⟩

theorem mem (h : s.HostSide t) : t.mem = s.mem := by rw [h.frame]
theorem tiles (h : s.HostSide t) : t.tiles = s.tiles := by rw [h.frame]
theorem pport (h : s.HostSide t) (c : Nat) : t.pport c = s.pport c := by rw [h.frame]; rfl

end State.HostSide

theorem capture_hostSide (s : State) (k q : Nat) (st : BitVec 16) (seq : Nat) (late : Bool) : s.HostSide (s.capture k q st seq late) :=
  .ite (.refl s) ((((State.HostSide.setFld s _ _ _ _).trans (.setFld _ _ _ _ _)).trans (.setFld _ _ _ _ _)).trans (.setFld _ _ _ _ _))

theorem lateVerdict_hostSide (s : State) (k q seq op code : Nat) : s.HostSide (s.lateVerdict k q seq op code) := by
  unfold State.lateVerdict
  exact (capture_hostSide ..).trans (.raise (by simp [State.coreRec]) _)

theorem cmdCode_hostSide (s : State) (k q seq op code : Nat) : s.HostSide (s.cmdCode k q seq op code) :=
  .ite (.modCore s k _) (lateVerdict_hostSide ..)

/-- A message of a vector, or its pending bit (R401). -/
theorem msix_hostSide (s : State) (p v : Nat) : s.HostSide (s.msix p v) := by
  unfold State.msix
  split
  · exact .ite (.emit s _) (.setFld s _ _ _ _)
  · exact .refl s

theorem ringTest_hostSide (s : State) (r : Nat) : s.HostSide (s.ringTest r) :=
  .ite ((State.HostSide.modIrq s r _).trans (msix_hostSide _ _ _)) (.refl s)

theorem entryIn_hostSide (s : State) (r : Nat) : s.HostSide (s.entryIn r) :=
  .ite ((State.HostSide.modIrq s r _).trans (ringTest_hostSide _ r)) (.refl s)

theorem postLeft_hostSide (s : State) (b k q seq : Nat) : s.HostSide (s.postLeft b k q seq) := by
  unfold State.postLeft
  split
  · exact .ite (.modCore s k _) (.refl s)
  · exact .refl s

/-- R400, R455: what a write that has left brings with it. -/
theorem leftNow_hostSide (s : State) (b : Nat) (w : DlvWrite) (sent : Bool) : s.HostSide (s.leftNow b w sent) := by
  have hentry : s.HostSide (match w.ring, sent with
      | none, _ => s
      | _, false => s
      | some r, true =>
        if r < 16384 then s.entryIn r
        else
          let c := s.rd (aErrRing (r - 16384) 0)
          if getF c 1 1 = 1 then s.msix (r - 16384) (getF c 2 5) else s) := by
    split
    · exact .refl s
    · exact .refl s
    · exact .ite (entryIn_hostSide s _) (.ite (msix_hostSide s _ _) (.refl s))
  unfold State.leftNow
  dsimp only
  split
  · exact hentry.trans (postLeft_hostSide _ _ _ _ _)
  · exact hentry

theorem State.Writes.part {P : Nat → Prop} (h : s.Writes P t) (p : Nat) : t.part p = s.part p := by rw [h.frame]; rfl

theorem held_holdBack (s : State) (p : Nat) (x : HeldInput) : ((s.holdBack p x).part p).held = (s.part p).held ++ [x] := by
  rw [State.holdBack, State.part_modPart]

/-- R410: failback is a matter of registers alone. -/
theorem tryFailback_writes (s : State) (b : Nat) : s.Writes (fun _ => False) (s.tryFailback b) := by
  have hfns := State.Writes.foldl (P := fun _ => False) (fun s f =>
    let o := aFn (1 - b) f 0
    if s.fld (aFn b f 0) 0 1 = 1 ∧ s.fld o 8 1 = 1 ∧ s.fld o 0 1 = 0 ∧ s.fld o 1 6 = s.fld (aFn b f 0) 1 6 then
      (s.setFld (aFn b f 0) 8 1 1).setFld o 8 1 0
    else s) (List.range 64) (s := s)
    fun t _ _ => .ite (((State.Writes.refl _ t).setFld not_false _ _ _).setFld not_false _ _ _) (.refl _ t)
  exact .ite (((hfns.setFld not_false _ _ _).setFld not_false _ _ _).setFld not_false _ _ _) (.refl _ s)

theorem tryFailback_hostSide (s : State) (b : Nat) : s.HostSide (s.tryFailback b) := by
  have hframe := (tryFailback_writes s b).frame
  exact ⟨Eq.trans hframe (by rw [hframe]), .of_eq (by rw [hframe]), .of_eq (by rw [hframe])⟩

theorem flushCounted_hostSide (s : State) (b f code : Nat) : s.HostSide (s.flushCounted b f code) :=
  (State.HostSide.setFld s _ _ _ _).trans (.setFld _ _ _ _ _)

/-! ## Journal entries (R321 to R324) -/

/-- Registers, parts, records and what the ports' buffers hold apart, nothing differs, and no port's reads do. -/
structure State.Journals (s t : State) : Prop where
  frame : t = { s with ctl := t.ctl, parts := t.parts, errPend := t.errPend, windows := t.windows, free := t.free, pports := t.pports }
  reads : ∀ c, (t.pport c).reads = (s.pport c).reads

namespace State.Journals

theorem refl (s : State) : s.Journals s := ⟨rfl, fun _ => rfl⟩

theorem trans (h : s.Journals t) (h' : t.Journals u) : s.Journals u :=
  ⟨Eq.trans h'.frame (by rw [h.frame]), fun c => (h'.reads c).trans (h.reads c)⟩

theorem ite {c : Prop} [Decidable c] (h : s.Journals t) (h' : s.Journals u) : s.Journals (if c then t else u) := by
  split <;> assumption

theorem wr (s : State) (a : Nat) (v : Word) : s.Journals (s.wr a v) := ⟨rfl, fun _ => rfl⟩

theorem modPart (s : State) (p : Nat) (g : Part → Part) : s.Journals (s.modPart p g) := ⟨rfl, fun _ => rfl⟩

theorem raiseOpen {r : ErrRec} (hr : r.cls ≠ 3) (s : State) : s.Journals (s.raiseOpen r) := by
  have hraise := raise_frame_lt { s with free := s.free + 1 } { r with status := openStatus s.draw.1 } hr
  have hopen : s.raiseOpen r = State.raise { s with free := s.free + 1 } { r with status := openStatus s.draw.1 } := rfl
  rw [hopen, hraise]
  exact ⟨rfl, fun _ => rfl⟩

theorem mem (h : s.Journals t) : t.mem = s.mem := by rw [h.frame]
theorem tiles (h : s.Journals t) : t.tiles = s.tiles := by rw [h.frame]
theorem cores (h : s.Journals t) : t.cores = s.cores := by rw [h.frame]
theorem out (h : s.Journals t) : t.out = s.out := by rw [h.frame]

end State.Journals

/-- A port's data after those of another were replaced. -/
theorem pport_modPport_ne (s : State) {b c : Nat} (g : PPort → PPort) (h : c ≠ b) : (s.modPport b g).pport c = s.pport c :=
  Tbl.get_set_ne _ _ _ h

/-- A part of a port that a change of a port leaves. -/
theorem pport_modPport_part {α : Type} (π : PPort → α) {g : PPort → PPort} (hg : ∀ p, π (g p) = π p) (s : State) (b c : Nat) :
    π ((s.modPport b g).pport c) = π (s.pport c) := by
  by_cases h : c = b
  · rw [h, pport_modPport, hg]
  · rw [pport_modPport_ne s g h]

theorem deviceWrite_journals (s : State) (p win off : Nat) (bytes : List Byte) : s.Journals (s.deviceWrite p win off bytes) := by
  unfold State.deviceWrite
  split
  · exact ⟨rfl, pport_modPport_part PPort.reads (fun _ => by split <;> rfl) s _⟩
  · exact .refl s

theorem replayNote_journals (s : State) (p : Nat) (e : JnlEntry) : s.Journals (s.replayNote p e) := by
  unfold State.replayNote
  split
  · exact .ite (.wr s _ _) ((State.Journals.wr s _ _).trans (.raiseOpen (by simp) _))
  · exact .refl s

theorem jnlAppend_journals (s : State) (p : Nat) (e : JnlEntry) : s.Journals (s.jnlAppend p e) :=
  .ite (.refl s) (((State.Journals.ite (.wr s _ _) (.refl s)).trans (.wr _ _ _)).trans (deviceWrite_journals _ _ _ _ _))

theorem journal_journals (s : State) (p kind : Nat) (dig : Bool) (source data : Nat) : s.Journals (s.journal p kind dig source data) :=
  (State.Journals.ite (.modPart s p _) (replayNote_journals s p _)).trans (jnlAppend_journals _ _ _)

end Sys2Proof.Machine
end

