-- ==== Sys2Proof/Proofs/WritesOut.lean ====
section
/-! PROOFS. Writes that leave a port's buffer, and the read that proves them delivered (R235, R236, R389, R402). -/

namespace Sys2Proof.Machine

variable {s t u : State} {b n : Nat} {e : Nat × DlvWrite}

/-! ## What is driven to the world stays driven -/

theorem foldl_out {α : Type} {g : State → α → State} (hg : ∀ t x, (g t x).out = t.out) (l : List α) (s : State) :
    (l.foldl g s).out = s.out := by
  induction l generalizing s with
  | nil => rfl
  | cons x l ih => exact (ih _).trans (hg s x)

theorem landBytes_out (s : State) (k : Nat) (landing : List (Nat × Nat)) (bs : List Byte) : (s.landBytes k landing bs).out = s.out :=
  foldl_out (fun t e => by rw [(coreWrite_lands t k (e.1 / 2 ^ 26) (e.1 % 2 ^ 26) e.2 false).frame]) _ s

theorem readGathered_out (s : State) (b k q seq : Nat) : (s.readGathered b k q seq).out = s.out := by
  have hland (t : State) (r : HRead) :
      (match r.why with | .command _ _ _ landing => t.landBytes k landing (r.got.getD []) | _ => t).out = t.out := by
    split
    · exact landBytes_out ..
    · rfl
  unfold State.readGathered
  dsimp only
  split
  · rfl
  · have hdrop := foldl_out hland ((s.pport b).pieces k q seq) s
    split
    · exact hdrop
    · exact (journal_journals ..).out.trans hdrop

theorem readOrHold_out (s : State) (b k q seq : Nat) : (s.readOrHold b k q seq).out = s.out := by
  unfold State.readOrHold
  split
  · split
    · rfl
    · exact readGathered_out ..
  · exact readGathered_out ..

theorem modPport_grows (s : State) (b : Nat) (g : PPort → PPort) : s.Grows (s.modPport b g) := .of_eq rfl

theorem flushNext_grows (b f : Nat) (l : List Flush) (s : State) : s.Grows (flushNext b f l s) := by
  induction l generalizing s with
  | nil => exact .of_eq rfl
  | cons x l ih =>
    unfold flushNext
    split
    · exact ih s
    · split
      · exact (modPport_grows s b _).trans ((flushCounted_hostSide _ b f x.code).grows.trans (ih _))
      · exact .of_eq rfl

theorem flushEnds_grows (s : State) (b f code : Nat) : s.Grows (s.flushEnds b f code) := by
  unfold State.flushEnds
  split
  · exact .of_eq rfl
  · exact (modPport_grows s b _).trans ((flushCounted_hostSide _ b f code).grows.trans (flushNext_grows ..))

/-- A read that is not sent, as its window no longer holds it (R389). -/
theorem readEnds_grows {code : Nat} (hcode : code ≠ cDONE) (s : State) (b : Nat) (r : HRead) (bs : List Byte) :
    s.Grows (s.readEnds b r bs code false) := by
  unfold State.readEnds
  simp only [Bool.and_false, Bool.false_eq_true, if_false, if_pos hcode]
  split
  · exact (cmdCode_hostSide ..).grows.trans (.of_eq (readOrHold_out ..))
  · exact (cmdCode_hostSide ..).grows.trans (.of_eq rfl)
  · exact (modPport_grows s b _).trans (flushEnds_grows ..)
  · unfold State.journalCame
    rw [if_pos hcode]
    exact .of_eq rfl
  · exact .of_eq rfl

theorem readPump_grows (b n : Nat) (s : State) : s.Grows (readPump b n s) := by
  induction n generalizing s with
  | zero => exact .of_eq rfl
  | succ n ih =>
    unfold readPump
    dsimp only
    split
    · exact .of_eq rfl
    · split
      · exact .of_eq rfl
      · refine .trans ?_ (ih _)
        split
        · exact List.prefix_append ..
        · next hcode => exact readEnds_grows hcode ..

/-! ## Writes (R235, R389, R402) -/

/-- Port `b` without the write `e` in its buffer, which its window refused. -/
def State.writeDropped (s : State) (b : Nat) (e : Nat × DlvWrite) : State := s.modPport b fun p => { p with buf := p.buf.erase e }

/-- Port `b` once its write `e` has left for its host address: retained, and driven to the host. -/
def State.writeSent (s : State) (b : Nat) (e : Nat × DlvWrite) : State :=
  ((s.writeDropped b e).modPport b fun p => { p with left := p.left + 1, retained := p.retained ++ [(p.left, e.2)] }).emit
    (.hostWrite b (s.winAddr e.2.part e.2.win e.2.off) e.2.bytes e.2.ep)

theorem writeLeaves_sent (h : s.writeCode e.2 = cDONE) (b : Nat) : (s.writeSent b e).HostSide (s.writeLeaves b e) := by
  unfold State.writeLeaves
  dsimp only
  rw [if_pos h]
  exact leftNow_hostSide ..

theorem writeLeaves_dropped (h : s.writeCode e.2 ≠ cDONE) (b : Nat) : (s.writeDropped b e).HostSide (s.writeLeaves b e) := by
  unfold State.writeLeaves
  dsimp only
  rw [if_neg h]
  refine State.HostSide.trans ?_ (leftNow_hostSide ..)
  split
  · exact cmdCode_hostSide ..
  · exact .refl _

theorem exec_deliveryWriteOut {port : Fin 2} (hpow : s.powered = true) (hn : (s.pport port.val).buf[n]? = some e)
    (hmay : s.mayLeave port.val e = true) :
    exec (.deliveryWriteOut port n) s =
      .next (((s.writeLeaves port.val e).pumpReads port.val).tryFailback (1 - port.val)) := by
  have hexec : exec (.deliveryWriteOut port n) s = .next (s.writeOutAt port.val n) := rfl
  rw [hexec, State.writeOutAt, hn]
  exact congrArg _ (if_pos (by simp [hpow, hmay]))

/-- Nothing leaves that is not there, or may not. -/
theorem exec_deliveryWriteOut_stays {port : Fin 2}
    (h : (s.pport port.val).buf[n]? = none ∨ (s.pport port.val).buf[n]? = some e ∧ s.mayLeave port.val e = false) :
    exec (.deliveryWriteOut port n) s = .next s := by
  have hexec : exec (.deliveryWriteOut port n) s = .next (s.writeOutAt port.val n) := rfl
  rw [hexec, State.writeOutAt]
  rcases h with hn | ⟨hn, hmay⟩ <;> rw [hn]
  exact congrArg _ (if_neg (by simp [hmay]))

/-- Where no read waits for it, what follows a write's leaving touches neither the port nor memory. -/
theorem leaves_quiet (h : u.HostSide t) (hreads : (u.pport b).reads = []) (c : Nat) :
    u.HostSide ((t.pumpReads b).tryFailback c) := by
  rw [pumpReads_empty (by rw [h.pport]; exact hreads)]
  exact h.trans (tryFailback_hostSide t c)

/-- A write that leaves is driven to its host address, and retained where no read's start moves the buffer. -/
theorem writeLeaves_delivers (h : s.writeCode e.2 = cDONE) (b c : Nat) :
    let t := ((s.writeLeaves b e).pumpReads b).tryFailback c
    (∃ more, t.out = s.out ++ .hostWrite b (s.winAddr e.2.part e.2.win e.2.off) e.2.bytes e.2.ep :: more) ∧
      ((s.pport b).reads = [] → t.mem = s.mem ∧ (t.pport b).buf = (s.pport b).buf.erase e ∧
        (t.pport b).retained = (s.pport b).retained ++ [((s.pport b).left, e.2)]) := by
  have hsent := writeLeaves_sent h b
  have hport : (s.writeSent b e).pport b = { s.pport b with
      buf := (s.pport b).buf.erase e, left := (s.pport b).left + 1,
      retained := (s.pport b).retained ++ [((s.pport b).left, e.2)] } := by
    have hemit (t : State) (o : Out) : (t.emit o).pport b = t.pport b := rfl
    rw [State.writeSent, hemit, pport_modPport, State.writeDropped, pport_modPport]
  refine ⟨?_, fun hreads => ?_⟩
  · obtain ⟨more, hmore⟩ := (hsent.grows.trans (readPump_grows b _ _)).trans (tryFailback_hostSide _ c).grows
    exact ⟨more, by rw [State.pumpReads, ← hmore]; simp [State.writeSent, State.writeDropped, State.emit, State.modPport]⟩
  · have hquiet := leaves_quiet hsent (by rw [hport]; exact hreads) c
    rw [hquiet.pport, hport]
    exact ⟨hquiet.mem, rfl, rfl⟩

/-- A write that its window no longer holds is taken from the buffer, and is not retained. -/
theorem writeLeaves_drops (h : s.writeCode e.2 ≠ cDONE) (hreads : (s.pport b).reads = []) (c : Nat) :
    let t := ((s.writeLeaves b e).pumpReads b).tryFailback c
    t.mem = s.mem ∧ (t.pport b).buf = (s.pport b).buf.erase e ∧ (t.pport b).retained = (s.pport b).retained := by
  have hport : (s.writeDropped b e).pport b = { s.pport b with buf := (s.pport b).buf.erase e } := by
    rw [State.writeDropped, pport_modPport]
  have hquiet := leaves_quiet (writeLeaves_dropped h b) (by rw [hport]; exact hreads) c
  dsimp only
  rw [hquiet.pport, hport]
  exact ⟨hquiet.mem, rfl, rfl⟩

/-! ## The proof of delivery (R402) -/

/-- The zero-length read that proves delivery up to the write `e`. -/
def probeOf (e : Nat × DlvWrite) (tag : Nat) : HRead := ⟨tag, e.2.part, e.2.win, e.2.off, 1, true, .probe, 0, false, none, 0⟩

theorem exec_deliveryProbeRead {port : Fin 2} (hpow : s.powered = true) (hup : s.linkUp port.val = true)
    (hreads : (s.pport port.val).reads = [])
    (hfirst : (s.pport port.val).retained.find? (fun z => s.beyond z.2.part z.2.win z.2.off = 0) = some e) :
    ∃ t, exec (.deliveryProbeRead port) s = .next t ∧ t.mem = s.mem ∧
      (t.pport port.val).retained = (s.pport port.val).retained ∧
      t.out = s.out ++ [.hostRead port.val (s.pport port.val).nextTag (s.winAddr e.2.part e.2.win e.2.off) 0] := by
  obtain ⟨b, hb⟩ : ∃ b, b = port.val := ⟨_, rfl⟩
  rw [← hb] at hup hreads hfirst ⊢
  obtain ⟨u, hu⟩ : ∃ u, u = s.modPport b fun p => { p with probeTick := s.tick } := ⟨_, rfl⟩
  have hport : u.pport b = { s.pport b with probeTick := s.tick } := by rw [hu, pport_modPport]
  have hin : s.beyond e.2.part e.2.win e.2.off = 0 := by simpa using List.find?_some hfirst
  have hexec : exec (.deliveryProbeRead port) s = .next ((u.addRead b (probeOf e)).pumpReads b) := by
    have hprobe : exec (.deliveryProbeRead port) s = .next (s.probeRead b) := by rw [hb]; rfl
    rw [hprobe, State.probeRead, show cDONE = 0 from rfl, hfirst, hu]
    exact congrArg _ (if_pos (by simp [hpow, hup]))
  have hasks := addRead_pumped (s := u) (b := b) (r := probeOf e) (by rw [hu]; exact hup) (by rw [hport]; exact hreads)
    (fun _ => rfl) (readWaits_probe _ rfl) ((readCode_of_pos (by simp [probeOf]) (by simp [probeOf])).trans (by rw [hu]; exact hin))
  exact ⟨_, hexec, hasks.mem.trans (by rw [hu]; rfl), hasks.retained.trans (by rw [hport]), hasks.out.trans (by rw [hport, hu]; rfl)⟩

theorem exec_deliveryProbeRead_none {port : Fin 2}
    (h : ∀ z ∈ (s.pport port.val).retained, s.beyond z.2.part z.2.win z.2.off ≠ 0) :
    exec (.deliveryProbeRead port) s = .next s := by
  have hexec : exec (.deliveryProbeRead port) s = .next (s.probeRead port.val) := rfl
  have hnone : (s.pport port.val).retained.find? (fun z => s.beyond z.2.part z.2.win z.2.off = 0) = none :=
    List.find?_eq_none.2 fun z hz => by simpa using h z hz
  rw [hexec, State.probeRead]
  rw [show cDONE = 0 from rfl, hnone]

end Sys2Proof.Machine
end

