-- ==== Sys2Proof/Proofs/Completions.lean ====
section
/-! PROOFS. Completions: what a lone outstanding read brings, fails with, or proves (R237, R321, R324, R402, R405). -/

namespace Sys2Proof.Machine

variable {s : State} {b k q seq a n : Nat} {r : HRead} {bs : List Byte}

/-! ## What every completion does (R402, R405) -/

theorem fillFrom_eq (l : List (Nat × DlvWrite)) (p : PPort) :
    fillFrom l p = { p with buf := (fillFrom l p).buf, queued := (fillFrom l p).queued } := by
  induction l generalizing p with
  | nil => rfl
  | cons e l ih =>
    unfold fillFrom
    split
    · rw [ih]
    · rfl

/-- R402: the writes that left before the read `r` are delivered, and waiting ones take their room. -/
def State.delivered (s : State) (b : Nat) (r : HRead) : State :=
  s.modPport b fun p => ({ p with retained := p.retained.filter fun e => r.after ≤ e.1 } : PPort).fill

theorem delivered_pport (s : State) (b : Nat) (r : HRead) : ((s.delivered b r).pport b).reads = (s.pport b).reads ∧
    ((s.delivered b r).pport b).retained = (s.pport b).retained.filter fun e => r.after ≤ e.1 := by
  rw [State.delivered, pport_modPport, PPort.fill, fillFrom_eq]
  exact ⟨rfl, rfl⟩

theorem raiseAer_frame (s : State) (p code : Nat) : s.raiseAer p code = { s with pports := (s.raiseAer p code).pports } := by
  unfold State.raiseAer
  split
  · split <;> rfl
  · rfl

/-- AER is part of a function's configuration: no other part of a port differs. -/
theorem raiseAer_part {α : Type} (π : PPort → α) (hπ : ∀ p c, π { p with cfg := c } = π p) (s : State) (p code c : Nat) :
    π ((s.raiseAer p code).pport c) = π (s.pport c) := by
  unfold State.raiseAer
  split
  · split
    · rfl
    · unfold State.modFnCfg
      exact pport_modPport_part π (fun p => hπ p _) s _ c
  · rfl

/-- A read alone at its port, sent and not answered. -/
structure State.Lone (s : State) (b : Nat) (r : HRead) : Prop where
  reads : (s.pport b).reads = [r]
  sent : r.sent = true
  got : r.got = none

theorem State.Lone.awaited (h : s.Lone b r) : s.awaited b r.tag = some r := by
  rw [State.awaited, h.reads]
  exact List.find?_cons_of_pos (by simp [h.sent, h.got])

/-- The state that the end of the lone read finds: where the completion proves delivery, with the earlier writes delivered. -/
def State.answering (s : State) (b : Nat) (r : HRead) (code : Nat) (proves : Bool) : State :=
  (if proves then s.delivered b r else s).raiseAer r.part code

theorem State.Lone.completionAt (h : s.Lone b r) (bs : List Byte) (code : Nat) (proves : Bool) :
    s.completionAt b r.tag bs code proves =
      (((s.answering b r code proves).readEnds b r bs code true).pumpReads b).tryFailback (1 - b) := by
  rw [State.completionAt, h.awaited]
  rfl

theorem answering_frame (s : State) (b : Nat) (r : HRead) (code : Nat) (proves : Bool) :
    s.answering b r code proves = { s with pports := (s.answering b r code proves).pports } := by
  unfold State.answering
  rw [raiseAer_frame]
  split <;> rfl

theorem answering_pport (s : State) (b : Nat) (r : HRead) (code : Nat) (proves : Bool) :
    ((s.answering b r code proves).pport b).reads = (s.pport b).reads ∧
    ((s.answering b r code proves).pport b).retained =
      if proves then (s.pport b).retained.filter fun e => r.after ≤ e.1 else (s.pport b).retained := by
  have hreads := raiseAer_part PPort.reads (fun _ _ => rfl) (if proves then s.delivered b r else s) r.part code b
  have hretained := raiseAer_part PPort.retained (fun _ _ => rfl) (if proves then s.delivered b r else s) r.part code b
  obtain ⟨hdreads, hdretained⟩ := delivered_pport s b r
  rw [State.answering, hreads, hretained]
  cases proves
  · exact ⟨rfl, rfl⟩
  · exact ⟨hdreads, hdretained⟩

theorem exec_pcieCompletion_data {port : Fin 2} (hpow : s.powered = true) (hup : s.linkUp port.val = true)
    (hlone : s.Lone port.val r) (hfits : r.fits bs = true) :
    exec (.pcieCompletion port r.tag (.data bs)) s = .next (s.completionAt port.val r.tag bs cDONE true) := by
  have hexec : exec (.pcieCompletion port r.tag (.data bs)) s = .next (s.completion port.val r.tag (.data bs)) := rfl
  rw [hexec, State.completion, if_neg (by simp [hpow, hup])]
  exact congrArg _ (if_pos (by rw [hlone.reads]; simp [hfits]))

theorem exec_pcieCompletion_unsupported {port : Fin 2} (hpow : s.powered = true) (hup : s.linkUp port.val = true) (tag : Nat) :
    exec (.pcieCompletion port tag (.failed .unsupported)) s = .next (s.completionAt port.val tag [] cHANDLE true) := by
  have hexec : exec (.pcieCompletion port tag (.failed .unsupported)) s =
      .next (s.completion port.val tag (.failed .unsupported)) := rfl
  rw [hexec]
  unfold State.completion
  exact congrArg _ (if_neg (by simp [hpow, hup]))

/-- R405: a timeout comes no sooner than Device Control 2 says. -/
theorem exec_pcieCompletionTimeout {port : Fin 2} (hpow : s.powered = true) (hup : s.linkUp port.val = true) (tag : Nat) :
    exec (.pcieCompletionTimeout port tag) s =
      .next (if s.readLate port.val tag = true then s.completionAt port.val tag [] cTIMEDOUT false else s) := by
  have hexec : exec (.pcieCompletionTimeout port tag) s = .next (s.timeOut port.val tag) := rfl
  rw [hexec, State.timeOut, hpow, hup]
  rfl

/-! ## A read that proves delivery (R402) -/

theorem readEnds_probe (hwhy : r.why = .probe) (s : State) (b : Nat) (bs : List Byte) (code : Nat) : ∃ u, s.HostSide u ∧
    s.readEnds b r bs code true = u.modPport b fun p => { p with reads := p.reads.filter fun x => x.tag ≠ r.tag } := by
  refine ⟨if (decide (code ≠ cDONE) && true) = true then s.hostError r.part code else s, .ite (.raise (by simp) s) (.refl s), ?_⟩
  unfold State.readEnds
  rw [hwhy]

/-- The lone read that proves delivery ends: what left before it is delivered where the completion proves so. -/
theorem State.Lone.probe_ends (h : s.Lone b r) (hwhy : r.why = .probe) (bs : List Byte) (code : Nat) (proves : Bool) :
    let t := s.completionAt b r.tag bs code proves
    t.mem = s.mem ∧ (t.pport b).reads = [] ∧ (t.pport b).retained =
      if proves then (s.pport b).retained.filter fun e => r.after ≤ e.1 else (s.pport b).retained := by
  have hframe := answering_frame s b r code proves
  obtain ⟨hreads, hretained⟩ := answering_pport s b r code proves
  obtain ⟨v, hv⟩ : ∃ v, v = s.answering b r code proves := ⟨_, rfl⟩
  rw [← hv] at hframe hreads hretained
  obtain ⟨u, hside, hends⟩ := readEnds_probe hwhy v b bs code
  obtain ⟨w, hw⟩ : ∃ w, w = u.modPport b fun p => { p with reads := p.reads.filter fun x => x.tag ≠ r.tag } := ⟨_, rfl⟩
  have hwreads : (w.pport b).reads = [] := by rw [hw, pport_modPport, hside.pport, hreads, h.reads]; simp
  have hwretained : (w.pport b).retained = (v.pport b).retained := by rw [hw, pport_modPport, hside.pport]
  have hquiet := leaves_quiet (State.HostSide.refl w) hwreads (1 - b)
  have hmem : w.mem = s.mem := by rw [hw]; exact hside.mem.trans (by rw [hframe])
  dsimp only
  rw [h.completionAt, ← hv, hends, ← hw]
  exact ⟨hquiet.mem.trans hmem, by rw [hquiet.pport]; exact hwreads, by rw [hquiet.pport, hwretained, hretained]⟩

/-! ## The pieces of a `HOST_READ` (R237, R324, R405) -/

/-- The lone read `r` has brought `bs`. -/
def State.brought (s : State) (b : Nat) (r : HRead) (bs : List Byte) : State :=
  s.modPport b fun p => { p with
    reads := p.reads.map fun x => if x.tag = r.tag then { x with sent := true, got := some bs } else x }

theorem brought_reads (h : (s.pport b).reads = [r]) (hsent : r.sent = true) (bs : List Byte) :
    ((s.brought b r bs).pport b).reads = [{ r with got := some bs }] := by
  rw [State.brought, pport_modPport, h, ← hsent]
  simp

/-- A failure from the host is recorded for its command, which gathers its code; the piece has ended either way. -/
theorem readEnds_command {l : List (Nat × Nat)} (hwhy : r.why = .command k q seq l) (s : State) (b : Nat) (bs : List Byte) (code : Nat) :
    ∃ u, s.HostSide u ∧ (code = cDONE → u = s) ∧ (code ≠ cDONE → ∃ z ∈ u.errPend, z.source = 0x40) ∧
      s.readEnds b r bs code true = (u.brought b r bs).readOrHold b k q seq := by
  have hrecord : s.HostSide (s.cmdHostError k q seq 0x46 code) := .raise (by simp [State.coreRec]) s
  have hcode := cmdCode_hostSide (s.cmdHostError k q seq 0x46 code) k q seq 0x46 code
  have hends : s.readEnds b r bs code true = State.readOrHold (State.brought
      (if code = cDONE then s else (s.cmdHostError k q seq 0x46 code).cmdCode k q seq 0x46 code) b r bs) b k q seq := by
    unfold State.readEnds
    rw [hwhy]
    by_cases h : code = cDONE <;> simp only [h, ne_eq, not_true, not_false_eq_true, decide_true, decide_false, Bool.and_true,
      Bool.false_eq_true, if_true, if_false] <;> rfl
  refine ⟨_, .ite (.refl s) (hrecord.trans hcode), fun h => if_pos h, fun h => ?_, hends⟩
  obtain ⟨x, hx, hsource, -⟩ := raise_has s { s.coreRec k 1 0x40 (BitVec.ofNat 16 code) with queue := q, cmdseq := seq, detail := 0x46 }
  obtain ⟨y, hy, hysource, -⟩ := hcode.records x hx
  rw [if_neg h]
  exact ⟨y, hy, hysource.trans hsource⟩

theorem pieces_lone (h : (s.pport b).reads = [r]) (hown : r.owner = some (k, q, seq)) : (s.pport b).pieces k q seq = [r] := by
  rw [PPort.pieces, h]
  exact List.filter_cons_of_pos (by simp [hown])

/-- Replay mode may hold back what the only piece has brought (R324). -/
theorem readOrHold_lone (h : (s.pport b).reads = [r]) (hown : r.owner = some (k, q, seq)) (hgot : r.got = some bs) :
    s.readOrHold b k q seq =
      if bs ≠ [] ∧ s.mustWait (s.partOfKey k) = true then s.holdBack (s.partOfKey k) (.read b k q seq) else s.readGathered b k q seq := by
  have hgathered : (s.pport b).gathered k q seq = some bs := by
    rw [PPort.gathered, pieces_lone h hown]
    simp [hgot]
  rw [State.readOrHold, hgathered]
  cases bs with
  | nil => exact (if_neg (by simp)).symm
  | cons x xs => simp only [ne_eq, reduceCtorEq, not_false_eq_true, true_and]

/-- Its only piece has come: the bytes are written, journalled where there are any, and the command has worked. -/
theorem readGathered_lone (h : (s.pport b).reads = [r]) (hwhy : r.why = .command k q seq [(a, n)]) (hgot : r.got = some bs) :
    let t := s.readGathered b k q seq
    t.mem = writeMem s.mem (coreAddr k (a / 2 ^ 26) (a % 2 ^ 26)) (bs.take n) ∧ t.tiles = s.tiles ∧ (t.pport b).reads = [] ∧
      (bs = [] → t.errPend = s.errPend) := by
  have hown : r.owner = some (k, q, seq) := by rw [HRead.owner, hwhy]
  have hpieces := pieces_lone h hown
  obtain ⟨u, hu⟩ : ∃ u, u = (s.coreWrite k (a / 2 ^ 26) (a % 2 ^ 26) (bs.take n) false).modPport b fun p =>
    { p with reads := p.reads.filter fun r => r.owner ≠ some (k, q, seq) } := ⟨_, rfl⟩
  have hends : s.readGathered b k q seq =
      (if bs = [] then u else u.journal (u.partOfKey k) 3 true (keyDie k * 128 + keyFlat k) (digest128 bs)).cmdWorked k q seq := by
    unfold State.readGathered
    dsimp only
    rw [hpieces, if_neg (by simp [hgot])]
    simp only [List.foldl_cons, List.foldl_nil, hwhy, hgot, Option.getD_some, List.flatMap_cons, List.flatMap_nil, List.append_nil, hu]
    rfl
  have hlands := (coreWrite_lands s k (a / 2 ^ 26) (a % 2 ^ 26) (bs.take n) false).frame
  obtain ⟨v, hv⟩ : ∃ v, v = s.coreWrite k (a / 2 ^ 26) (a % 2 ^ 26) (bs.take n) false := ⟨_, rfl⟩
  rw [← hv] at hlands hu
  have hport : v.pport b = s.pport b := by rw [hlands]; rfl
  have hreads : (u.pport b).reads = [] := by rw [hu, pport_modPport, hport, h]; simp [hown]
  have hmem : u.mem = writeMem s.mem (coreAddr k (a / 2 ^ 26) (a % 2 ^ 26)) (bs.take n) := by rw [hu, hlands]; rfl
  have htiles : u.tiles = s.tiles := by rw [hu, hlands]; rfl
  have hpend : u.errPend = s.errPend := by rw [hu, hlands]; rfl
  have hjournal := journal_journals u (u.partOfKey k) 3 true (keyDie k * 128 + keyFlat k) (digest128 bs)
  dsimp only
  rw [hends]
  split
  · exact ⟨hmem, htiles, hreads, fun _ => hpend⟩
  · next hbs => exact ⟨hjournal.mem.trans hmem, hjournal.tiles.trans htiles, (hjournal.reads b).trans hreads, fun h => absurd h hbs⟩

/-- The lone read of a `HOST_READ` of one piece ends: what is left to do once its bytes or its failure have come. -/
theorem State.Lone.command_ends (h : s.Lone b r) (hwhy : r.why = .command k q seq [(a, n)]) (bs : List Byte) (code : Nat) :
    ∃ u w : State, s.completionAt b r.tag bs code true = ((w.readOrHold b k q seq).pumpReads b).tryFailback (1 - b) ∧
      (s.answering b r code true).HostSide u ∧ (code = cDONE → u = s.answering b r code true) ∧
      (code ≠ cDONE → ∃ z ∈ u.errPend, z.source = 0x40) ∧ w = { u with pports := w.pports } ∧
      (w.pport b).reads = [{ r with got := some bs }] := by
  obtain ⟨u, hside, hdone, hfailed, hends⟩ := readEnds_command hwhy (s.answering b r code true) b bs code
  refine ⟨u, u.brought b r bs, ?_, hside, hdone, hfailed, rfl, brought_reads ?_ h.sent bs⟩
  · rw [h.completionAt, hends]
  · rw [hside.pport, (answering_pport s b r code true).1, h.reads]

/-- R237: undamaged data that need not wait land. -/
theorem State.Lone.piece_lands (h : s.Lone b r) (hwhy : r.why = .command k q seq [(a, bs.length)])
    (hwait : s.mustWait (s.partOfKey k) = false) :
    let t := s.completionAt b r.tag bs cDONE true
    t.tiles = s.tiles ∧ (t.pport b).reads = [] ∧ s.BytesBecome t (coreAddr k (a / 2 ^ 26) (a % 2 ^ 26)) bs := by
  obtain ⟨u, w, hends, -, hdone, -, hw, hreads⟩ := h.command_ends hwhy bs cDONE
  rw [hdone rfl, answering_frame] at hw
  have hown : ({ r with got := some bs } : HRead).owner = some (k, q, seq) := by rw [HRead.owner]; dsimp only; rw [hwhy]
  have hgoes : w.readOrHold b k q seq = w.readGathered b k q seq := by
    rw [readOrHold_lone hreads hown rfl]
    refine if_neg fun hh => ?_
    have hheld := hh.2
    rw [hw] at hheld
    exact absurd (hwait.symm.trans hheld) Bool.false_ne_true
  obtain ⟨hmem, htiles, hempty, -⟩ := readGathered_lone hreads hwhy rfl
  have hquiet := leaves_quiet (State.HostSide.refl (w.readGathered b k q seq)) hempty (1 - b)
  dsimp only
  rw [hends, hgoes]
  refine ⟨hquiet.tiles.trans (htiles.trans (by rw [hw])), by rw [hquiet.pport]; exact hempty, bytesBecome_of_mem ?_⟩
  rw [hquiet.mem, hmem, List.take_length, hw]

/-- R324: data that must wait are held back, behind what is held already. -/
theorem State.Lone.piece_held (h : s.Lone b r) (hwhy : r.why = .command k q seq [(a, bs.length)]) (hbs : bs ≠ [])
    (hwait : s.mustWait (s.partOfKey k) = true) :
    let t := s.completionAt b r.tag bs cDONE true
    t.mem = s.mem ∧ (t.part (s.partOfKey k)).held = (s.part (s.partOfKey k)).held ++ [.read b k q seq] := by
  obtain ⟨u, w, hends, -, hdone, -, hw, hreads⟩ := h.command_ends hwhy bs cDONE
  rw [hdone rfl, answering_frame] at hw
  have hown : ({ r with got := some bs } : HRead).owner = some (k, q, seq) := by rw [HRead.owner]; dsimp only; rw [hwhy]
  have hpart : w.partOfKey k = s.partOfKey k := by rw [hw]; rfl
  have hgoes : w.readOrHold b k q seq = w.holdBack (s.partOfKey k) (.read b k q seq) := by
    rw [readOrHold_lone hreads hown rfl, hpart]
    exact if_pos ⟨hbs, by rw [hw]; exact hwait⟩
  have hsent : (w.holdBack (s.partOfKey k) (.read b k q seq)).pumpReads b = w.holdBack (s.partOfKey k) (.read b k q seq) :=
    pumpReads_sent (s := w.holdBack _ _) fun x hx => by
      have hx' : x ∈ (w.pport b).reads := hx
      rw [hreads, List.mem_singleton] at hx'
      rw [hx']; exact h.sent
  rw [hgoes, hsent] at hends
  have hback := tryFailback_writes (w.holdBack (s.partOfKey k) (.read b k q seq)) (1 - b)
  dsimp only
  rw [hends, hback.mem, hback.part, held_holdBack]
  exact ⟨by rw [hw]; rfl, by rw [hw]; rfl⟩

/-- R405: a failure from the host leaves a record. -/
theorem State.Lone.piece_fails (h : s.Lone b r) (hwhy : r.why = .command k q seq [(a, n)]) {code : Nat} (hcode : code ≠ cDONE) :
    ∃ z ∈ (s.completionAt b r.tag [] code true).errPend, z.source = 0x40 := by
  obtain ⟨u, w, hends, -, -, hfailed, hw, hreads⟩ := h.command_ends hwhy [] code
  obtain ⟨z, hz, hsource⟩ := hfailed hcode
  have hown : ({ r with got := some [] } : HRead).owner = some (k, q, seq) := by rw [HRead.owner]; dsimp only; rw [hwhy]
  have hgoes : w.readOrHold b k q seq = w.readGathered b k q seq := by
    rw [readOrHold_lone hreads hown rfl]
    exact if_neg (by simp)
  obtain ⟨-, -, hempty, hpend⟩ := readGathered_lone hreads hwhy rfl
  have hquiet := leaves_quiet (State.HostSide.refl (w.readGathered b k q seq)) hempty (1 - b)
  obtain ⟨y, hy, hysource, -⟩ := hquiet.records z (by rw [hpend rfl, hw]; exact hz)
  rw [hends, hgoes]
  exact ⟨y, hy, hysource.trans hsource⟩

end Sys2Proof.Machine
end

