-- ==== Sys2Proof/Proofs/Flushes.lean ====
section
/-! PROOFS. The flush doorbell (R382, R389, R403). -/

namespace Sys2Proof.Machine

variable {s : State} {b f c g p win off size code : Nat} {v : Word}

/-! ## `HOST_FLUSH_STAT` -/

/-- A flush has completed with `code`: the status says so, and counts it. -/
theorem flushCounted_stat (hcode : code < 256) :
    let stat := s.bar2 b f 0x1010
    let t := s.flushCounted b f code
    t.fld stat 8 8 = code ∧ t.fld stat 32 32 = (s.fld stat 32 32 + 1) % 2 ^ 32 := by
  intro stat t
  have hset := fld_setFld s stat 8 8 code (by norm_num)
  have hcount := fld_setFld_ne s stat 8 8 code 32 32 (by norm_num)
  refine ⟨(fld_setFld_ne _ _ _ _ _ _ _ (by norm_num)).trans (hset.trans (Nat.mod_eq_of_lt hcode)), ?_⟩
  exact (fld_setFld _ _ _ _ _ (by norm_num)).trans (by rw [hcount])

theorem winCheck_lt (s : State) (p w : Nat) (hi : Option Nat) (rd wr : Bool) : s.winCheck p w hi rd wr < 256 := by
  unfold State.winCheck
  split
  · decide
  · split
    · decide
    · split
      · split <;> decide
      · decide

theorem beyond_of_flushCode (hsize : size ≠ 0) (h : s.flushCode p win off size = 0) : s.beyond p win (off + size - 1) = 0 := by
  unfold State.flushCode State.winCheck at h
  rw [if_neg hsize] at h
  unfold State.beyond
  split at h
  · cases h
  · next hwin =>
    rw [hwin]
    split at h
    · cases h
    · exact h

/-! ## The doorbell (R403) -/

/-- A flush as function `g` of port `c` asks for it. -/
def State.flushAsked (s : State) (c g p : Nat) (v : Word) : Flush :=
  let off := (s.rd (s.bar2 c g 0x1000)).toNat
  ⟨g, p, getF v 32 4, off, getF v 0 32, s.flushCode p (getF v 32 4) off (getF v 0 32), (s.pport c).entered⟩

/-- The flushes of function `g` that run or wait. -/
def State.flushesOf (s : State) (c g : Nat) : List Flush := (s.pport c).flushes.filter fun x => x.f = g

/-- A flush more waits at port `c`. -/
def State.flushQueued (s : State) (c : Nat) (x : Flush) : State := s.modPport c fun y => { y with flushes := y.flushes ++ [x] }

/-- What becomes of a flush, by its size, its check and those before it. -/
theorem flushOn_eq (s : State) (c g p : Nat) (v : Word) :
    let x := s.flushAsked c g p v
    s.flushOn c g p v =
      if x.size = 0 ∧ x.code = 0 then s.flushCounted c g 0
      else if 17 ≤ (s.flushesOf c g).length then s.setFld (s.bar2 c g 0x1010) 0 1 1
      else (if s.flushesOf c g = [] then flushNext c g [x] (s.flushQueued c x) else s.flushQueued c x).pumpReads c := rfl

theorem exec_hostFlushCtl {port : Fin 2} {f : Fin 64} (htakes : s.takes port.val f.val = some p) (hcar : s.carrier p = some (c, g)) :
    exec (.hostFlushCtl port f v) s = .next (s.flushOn c g p v) := by
  change execHostFlushCtl port f v s = _
  rw [execHostFlushCtl, htakes]
  dsimp only
  rw [State.flushWrite, hcar]

theorem exec_hostFlushCtl_none {port : Fin 2} {f : Fin 64} (h : s.takes port.val f.val = none) :
    exec (.hostFlushCtl port f v) s = .next s := by
  change execHostFlushCtl port f v s = _
  rw [execHostFlushCtl, h]

/-- A flush completes: memory stays and nothing is driven. -/
theorem flushCounted_completes (hcode : code < 256) {u : State} (hu : u = { s with pports := u.pports }) :
    let stat := s.bar2 c g 0x1010
    let t := u.flushCounted c g code
    t.fld stat 8 8 = code ∧ t.fld stat 32 32 = (s.fld stat 32 32 + 1) % 2 ^ 32 ∧ t.mem = s.mem ∧ t.out = s.out := by
  obtain ⟨hcoded, hcounted⟩ := flushCounted_stat (s := u) (b := c) (f := g) hcode
  rw [hu] at hcoded hcounted ⊢
  exact ⟨hcoded, hcounted, rfl, rfl⟩

/-- A flush behind another of its function waits. -/
theorem flushOn_waits (hsize : (s.flushAsked c g p v).size ≠ 0) (hmine : s.flushesOf c g ≠ []) (hfew : (s.flushesOf c g).length < 17) :
    s.flushOn c g p v = (s.flushQueued c (s.flushAsked c g p v)).pumpReads c := by
  rw [flushOn_eq, if_neg fun h => hsize h.1, if_neg (by omega), if_neg hmine]

/-- A seventeenth is lost, which the status says. -/
theorem flushOn_lost (hsize : (s.flushAsked c g p v).size ≠ 0) (hmany : 17 ≤ (s.flushesOf c g).length) :
    s.flushOn c g p v = s.setFld (s.bar2 c g 0x1010) 0 1 1 := by
  rw [flushOn_eq, if_neg fun h => hsize h.1, if_pos hmany]

/-- The first flush of its function that its window refuses completes in its place. -/
theorem flushOn_refused (hflushes : (s.pport c).flushes = []) (hreads : (s.pport c).reads = [])
    (hcode : (s.flushAsked c g p v).code ≠ 0) :
    ∃ u, s.flushOn c g p v = State.flushCounted u c g (s.flushAsked c g p v).code ∧ u = { s with pports := u.pports } := by
  obtain ⟨x, hx⟩ : ∃ x, x = s.flushAsked c g p v := ⟨_, rfl⟩
  have hxf : x.f = g := by rw [hx]; rfl
  have hnone : s.flushesOf c g = [] := by rw [State.flushesOf, hflushes]; rfl
  obtain ⟨u, hu⟩ : ∃ u, u = (s.flushQueued c x).modPport c fun p => { p with flushes := p.flushes.erase x } := ⟨_, rfl⟩
  have hnext : flushNext c g [x] (s.flushQueued c x) = u.flushCounted c g x.code := by
    rw [flushNext, if_neg (not_not.2 hxf), if_pos (by rw [hx]; exact hcode), hu]; rfl
  have hside := flushCounted_hostSide u c g x.code
  have hureads : (u.pport c).reads = [] := by rw [hu, pport_modPport, State.flushQueued, pport_modPport]; exact hreads
  refine ⟨u, ?_, by rw [hu]; rfl⟩
  rw [flushOn_eq, ← hx, if_neg (by rw [hx]; exact fun h => hcode h.2), if_neg (by rw [hnone]; decide), if_pos hnone, hnext]
  exact pumpReads_empty (by rw [hside.pport]; exact hureads)

/-- The first flush of its function that its window holds asks for the writes before it by a read of no byte, behind no write. -/
theorem flushOn_asks (hup : s.linkUp c = true) (hflushes : (s.pport c).flushes = []) (hreads : (s.pport c).reads = [])
    (hbuf : (s.pport c).buf = []) (hqueued : (s.pport c).queued = []) (hsize : (s.flushAsked c g p v).size ≠ 0)
    (hcode : (s.flushAsked c g p v).code = 0) :
    let x := s.flushAsked c g p v
    ∃ u, u = { s with pports := u.pports } ∧
      State.Asks c (.hostRead c (s.pport c).nextTag (s.winAddr p x.win (x.lo + x.size - 1)) 0) u (s.flushOn c g p v) := by
  obtain ⟨x, hx⟩ : ∃ x, x = s.flushAsked c g p v := ⟨_, rfl⟩
  have hxf : x.f = g := by rw [hx]; rfl
  have hxp : x.part = p := by rw [hx]; rfl
  have hxcode : x.code = s.flushCode p x.win x.lo x.size := by rw [hx]; rfl
  have hnone : s.flushesOf c g = [] := by rw [State.flushesOf, hflushes]; rfl
  obtain ⟨u, hu⟩ : ∃ u, u = s.flushQueued c x := ⟨_, rfl⟩
  have hport : u.pport c = { s.pport c with flushes := (s.pport c).flushes ++ [x] } := by rw [hu, State.flushQueued, pport_modPport]
  have hnext : flushNext c g [x] u = u.addRead c (Machine.flushRead x) := by
    rw [flushNext, if_neg (not_not.2 hxf), if_neg (by rw [hx]; exact not_not.2 hcode)]
  rw [← hx] at hsize hcode
  have hin : u.readCode (Machine.flushRead x (u.pport c).nextTag) = 0 := by
    have hpos : 0 < (Machine.flushRead x (u.pport c).nextTag).len := by simp only [Machine.flushRead]; omega
    rw [readCode_of_pos (by simp [Machine.flushRead]) hpos]
    simp only [Machine.flushRead, hxp, hu]
    exact beyond_of_flushCode hsize (hxcode.symm.trans hcode)
  have hasks := addRead_pumped (s := u) (b := c) (r := Machine.flushRead x) (by rw [hu]; exact hup) (by rw [hport]; exact hreads)
    (fun _ => rfl) (readWaits_nothing (by rw [hport]; exact hbuf) (by rw [hport]; exact hqueued) _) hin
  have hrequest : u.request c (Machine.flushRead x (u.pport c).nextTag) =
      .hostRead c (s.pport c).nextTag (s.winAddr p x.win (x.lo + x.size - 1)) 0 := by
    rw [State.request, hport, ← hxp, hu]; rfl
  rw [hrequest, ← hnext] at hasks
  dsimp only
  rw [flushOn_eq, ← hx, if_neg (fun h => hsize h.1), if_neg (by rw [hnone]; decide), if_pos hnone, ← hu]
  exact ⟨u, by rw [hu]; rfl, hasks⟩

end Sys2Proof.Machine
end

