-- ==== Sys2Proof/Proofs/Aperture.lean ====
section
/-! PROOFS. The fabric aperture of a function: accesses that wait, that are refused, and that leave as a packet (R324, R404). -/

namespace Sys2Proof.Machine

variable {s t : State} {b f p n addr : Nat} {v : Word} {data : List Byte} {rd : Bool}

/-! ## What an access reads, and what the advance of its address leaves -/

/-- Below the functions' own registers. -/
def BelowBars (a : Nat) : Prop := a < 0x80000000

theorem aBar2_not_below (b f k : Nat) : ¬ BelowBars (aBar2 b f k) := by
  simp only [BelowBars, aBar2]; omega

theorem aFn_below (hf : f < 64) (b : Nat) : BelowBars (aFn b f 0) := by
  have hport : portQuoin b ≤ 2 := by unfold portQuoin; split <;> decide
  simp only [BelowBars, aFn, quoinBase]; omega

theorem fabAdvance_writes (s : State) (b f n : Nat) : s.Writes BelowBars (s.fabAdvance b f n) :=
  .ite ((State.Writes.refl _ s).setFld (aBar2_not_below _ _ _) _ _ _) (.refl _ s)

theorem fabError_writes (s : State) (b f code : Nat) : s.Writes BelowBars (s.fabError b f code) :=
  ((State.Writes.refl _ s).setFld (aBar2_not_below _ _ _) _ _ _).setFld (aBar2_not_below _ _ _) _ _ _

section
variable (h : s.Writes BelowBars t)
include h

theorem State.Writes.bar2 (hf : f < 64) (b k : Nat) : t.bar2 b f k = s.bar2 b f k := by
  have hmirror : t.isMirror b f = s.isMirror b f := by
    unfold State.isMirror State.fld
    rw [h.rd _ (aFn_below hf b)]
  rw [State.bar2, State.bar2, hmirror]

theorem State.Writes.partOfKey (k : Nat) : t.partOfKey k = s.partOfKey k := by rw [h.frame]; rfl

theorem State.Writes.runningAt (addr : Nat) : t.runningAt addr = s.runningAt addr := by
  have hctx (p : Nat) (hp : p < 64) : t.ctxState p = s.ctxState p := by
    rw [State.ctxState, State.fld, h.rd _ (by simp only [BelowBars, aCtx]; omega)]; rfl
  unfold State.runningAt
  dsimp only
  rw [h.partOfKey]
  by_cases hp : s.partOfKey (keyAt addr) < 64
  · rw [hctx _ hp]
  · simp [hp]

theorem State.Writes.mustWait (hp : p < 64) : t.mustWait p = s.mustWait p := by
  have hjnl (k : Nat) (hk : k < 0x40) : t.rd (aJnl p k) = s.rd (aJnl p k) := h.rd _ (by simp only [BelowBars, aJnl]; omega)
  have hpass : t.passNow p = s.passNow p := by rw [h.frame]; rfl
  have hreplaying : t.replaying p = s.replaying p := by
    unfold State.replaying State.fld
    rw [hjnl 0 (by decide), hjnl 0x30 (by decide), hjnl 0x28 (by decide)]
  have hnext : t.nextRecorded p = s.nextRecorded p := by
    rw [State.nextRecorded, hjnl 0x30 (by decide), h.part]; rfl
  rw [State.mustWait, State.replayHolds, hreplaying, hnext, hpass, h.part]
  rfl

theorem State.Writes.fabCheck (f p addr : Nat) : t.fabCheck f p addr = s.fabCheck f p addr := by rw [h.frame]; rfl

end

theorem runningAt_lt {z : Nat} (h : s.runningAt addr = some z) : z < 64 := by
  unfold State.runningAt at h
  dsimp only at h
  split at h
  · split at h
    · next hp => exact Option.some.inj h ▸ hp.1
    · cases h
  · cases h

theorem fabCheck_lt (s : State) (f p addr : Nat) : s.fabCheck f p addr < 256 := by
  unfold State.fabCheck
  simp only [firstFail]
  repeat' split
  all_goals decide

/-- R404: an access that its bridge takes is for this package. -/
theorem pkg_of_fabCheck (h : s.fabCheck f p addr = 0) : bits addr 42 6 = s.position := by
  by_contra hne
  simp [State.fabCheck, firstFail, hne] at h
  exact absurd h (by decide)

/-! ## An access and where it goes -/

section
variable {port : Fin 2} {f : Fin 64}

theorem exec_hostFabDataWrite (h : s.takes port.val f.val = some p) (size8 : Bool) : exec (.hostFabDataWrite port f size8 v) s =
    .next (s.fabAccess port.val f.val p (if size8 then 8 else 4) (leBytes (if size8 then 8 else 4) v.toNat) false) := by
  change execHostFabDataWrite port f size8 v s = _
  rw [execHostFabDataWrite, h]

theorem exec_hostFabDataRead (h : s.takes port.val f.val = some p) (size8 : Bool) : exec (.hostFabDataRead port f size8) s =
    .next (s.fabAccess port.val f.val p (if size8 then 8 else 4) [] true) := by
  change execHostFabDataRead port f size8 s = _
  rw [execHostFabDataRead, h]

theorem exec_hostFabDataWrite_none (h : s.takes port.val f.val = none) (size8 : Bool) :
    exec (.hostFabDataWrite port f size8 v) s = .next s := by
  change execHostFabDataWrite port f size8 v s = _
  rw [execHostFabDataWrite, h]

theorem exec_hostFabDataRead_none (h : s.takes port.val f.val = none) (size8 : Bool) (hup : s.bar2Up port.val f.val = true) :
    exec (.hostFabDataRead port f size8) s = .next (s.emit (.completion port.val f.val 0)) := by
  change execHostFabDataRead port f size8 s = _
  rw [execHostFabDataRead, h]
  exact congrArg _ (if_pos hup)

end

/-- The address at which function `f` of port `b` accesses the fabric. -/
def State.fabAddress (s : State) (b f : Nat) : Nat := s.fld (s.bar2 b f 0x2000) 0 48

/-- A write into a running context waits while replay mode holds its inputs back. -/
def State.FabWaits (s : State) (addr : Nat) : Prop := ∃ z, s.runningAt addr = some z ∧ s.mustWait z = true

theorem fabAccess_read (s : State) (b f p n : Nat) (data : List Byte) :
    s.fabAccess b f p n data true = (s.fabAdvance b f n).fabAt b f p (s.fabAddress b f) n data true := by
  unfold State.fabAccess
  dsimp only
  split
  · next h => cases h
  · rfl

theorem fabAccess_write (h : ¬ s.FabWaits (s.fabAddress b f)) :
    s.fabAccess b f p n data false = (s.fabAdvance b f n).fabAt b f p (s.fabAddress b f) n data false := by
  have hadvance := fabAdvance_writes s b f n
  unfold State.fabAccess
  dsimp only
  split
  · next hz _ =>
    rw [hadvance.runningAt] at hz
    rw [hadvance.mustWait (runningAt_lt hz)]
    exact if_neg fun hwait => h ⟨_, hz, hwait⟩
  · rfl

theorem fabAccess_waits (h : s.FabWaits (s.fabAddress b f)) :
    let t := s.fabAccess b f p n data false
    t.mem = s.mem ∧ t.net = s.net ∧
      ∀ z, s.runningAt (s.fabAddress b f) = some z → (t.part z).held = (s.part z).held ++ [.fab b f p (s.fabAddress b f) data] := by
  have hadvance := fabAdvance_writes s b f n
  obtain ⟨z, hz, hwait⟩ := h
  have hheld : s.fabAccess b f p n data false = (s.fabAdvance b f n).holdBack z (.fab b f p (s.fabAddress b f) data) := by
    unfold State.fabAccess
    dsimp only
    rw [hadvance.runningAt, show s.fld (s.bar2 b f 0x2000) 0 48 = s.fabAddress b f from rfl, hz]
    dsimp only
    rw [hadvance.mustWait (runningAt_lt hz)]
    exact if_pos hwait
  dsimp only
  rw [hheld]
  refine ⟨hadvance.mem, by rw [hadvance.frame]; rfl, fun y hy => ?_⟩
  rw [← Option.some.inj (hz.symm.trans hy), held_holdBack, hadvance.part]

/-! ## A refused access -/

/-- R404: ERR, and the code. -/
theorem fabError_stat {code : Nat} (hcode : code < 256) :
    (s.fabError b f code).fld (s.bar2 b f 0x2010) 0 1 = 1 ∧ (s.fabError b f code).fld (s.bar2 b f 0x2010) 8 8 = code :=
  ⟨(fld_setFld_ne _ _ _ _ _ _ _ (by norm_num)).trans (fld_setFld s _ 0 1 1 (by norm_num)),
    (fld_setFld _ _ _ _ _ (by norm_num)).trans (Nat.mod_eq_of_lt hcode)⟩

/-- What a refused access leaves, the completion of a read apart. -/
theorem fabAt_refused (hf : f < 64) (hcode : s.fabCheck f p addr ≠ 0) :
    ∃ t, t = { s with ctl := t.ctl } ∧ t.fld (s.bar2 b f 0x2010) 0 1 = 1 ∧
      t.fld (s.bar2 b f 0x2010) 8 8 = s.fabCheck f p addr ∧
      ∀ data rd, (s.fabAdvance b f n).fabAt b f p addr n data rd = if rd then t.emit (.completion b f 0) else t := by
  have hadvance := fabAdvance_writes s b f n
  obtain ⟨herr, hstat⟩ := fabError_stat (s := s.fabAdvance b f n) (b := b) (f := f) (fabCheck_lt s f p addr)
  have hframe := (hadvance.trans (fabError_writes _ b f (s.fabCheck f p addr))).frame
  rw [hadvance.bar2 hf] at herr hstat
  refine ⟨_, hframe, herr, hstat, fun data rd => ?_⟩
  have hrefused := hadvance.fabCheck f p addr
  unfold State.fabAt
  dsimp only
  rw [hrefused]
  exact if_pos hcode

/-! ## An access that leaves -/

theorem kDADDR_fabPacket (haddr : addr < 2 ^ 48) (s : State) (b n : Nat) (data : List Byte) (rd : Bool) :
    kDADDR (s.fabPacket b addr n data rd) = addr := by
  simp only [State.fabPacket, kDADDR, mkHdr, mkW, List.append_nil, List.foldl, getW_putW, getW_putW_ne, Nat.reduceAdd, Nat.reduceLeDiff,
    true_or, or_true, Nat.mod_eq_of_lt haddr]

/-- The only access there is, sent at once where its bridge has room and nothing to its destination holds it back. -/
theorem pumpFab_lone {x : FabAccess} (hap : s.aperture = [x]) (hsent : x.sent = false)
    (hroom : s.bridgeRoom (x.fn / 64) (nameAt (kDADDR x.pkt)) = true)
    (hholds : s.bridgeHolds (x.fn / 64) (nameAt (kDADDR x.pkt)) = false) :
    s.pumpFab = ({ s with aperture := [{ x with sent := true }] } : State).bridgeSend (x.fn / 64) x.pkt := by
  unfold State.pumpFab
  rw [hap]
  simp only [List.length_singleton, sendFab, hap]
  rw [List.find?_cons_of_pos (by simp [fabReady, hsent, hroom, hholds])]
  simp

theorem bridgeSend_here (s : State) (b : Nat) (x : Packet) (hpkg : bits (kDADDR x) 42 6 = s.position) :
    ∃ await, s.bridgeSend b x = { s with bridgeAwait := await, net := s.net ++ [s.withAge x] } := by
  have hto : kPKG (s.withAge x) = s.position := by
    rw [← hpkg]
    simp [State.withAge, kPKG, kDADDR, getW_putW_ne]
  obtain ⟨u, hu, hsend⟩ : ∃ u, (∃ await, u = { s with bridgeAwait := await }) ∧ s.bridgeSend b x = u.inject (s.withAge x) :=
    ⟨_, ⟨_, rfl⟩, rfl⟩
  obtain ⟨await, hu⟩ := hu
  refine ⟨await, ?_⟩
  rw [hsend, State.inject, if_pos (by simp [hto, hu]), hu]

/-- R321: a write into a running context is journalled. -/
def State.fabNoted (s : State) (addr : Nat) (data : List Byte) (rd : Bool) : State :=
  match s.runningAt addr, rd with
  | some q, false => s.journal q 4 true (bits addr 35 7 * 128 + keyFlat (keyAt addr)) (digest128 data)
  | _, _ => s

theorem fabNoted_journals (s : State) (addr : Nat) (data : List Byte) (rd : Bool) : s.Journals (s.fabNoted addr data rd) := by
  unfold State.fabNoted
  split
  · exact journal_journals ..
  · exact .refl s

/-- An access that its bridge has taken joins its port's. -/
def State.fabTaken (s : State) (x : FabAccess) : State := { s with aperture := s.aperture ++ [x], bridgeTx := s.bridgeTx + 1 }

theorem fabAt_taken (h : s.fabCheck f p addr = 0) :
    let u := s.fabNoted addr data rd
    s.fabAt b f p addr n data rd = (u.fabTaken ⟨b * 64 + f, rd, n, u.fabPacket b addr n data rd, false⟩).pumpFab :=
  if_neg (not_not.2 h)

/-- R404: an access that passes its check leaves as a packet, where none is under way and its bridge has room. -/
theorem fabAt_leaves (hf : f < 64) (haddr : addr < 2 ^ 48) (hcode : s.fabCheck f p addr = 0) (hap : s.aperture = [])
    (hroom : s.bridgeRoom b (nameAt addr) = true) (hholds : s.bridgeHolds b (nameAt addr) = false) :
    let t := s.fabAt b f p addr n data rd
    t.mem = s.mem ∧ t.cores = s.cores ∧ t.net = s.net ++ [s.withAge (s.fabPacket b addr n data rd)] := by
  obtain ⟨u, hu⟩ : ∃ u, u = s.fabNoted addr data rd := ⟨_, rfl⟩
  have hjournals : s.Journals u := hu ▸ fabNoted_journals ..
  have hpacket : u.fabPacket b addr n data rd = s.fabPacket b addr n data rd := by rw [hjournals.frame]; rfl
  obtain ⟨x, hx⟩ : ∃ x : FabAccess, x = ⟨b * 64 + f, rd, n, s.fabPacket b addr n data rd, false⟩ := ⟨_, rfl⟩
  have hfn : x.fn / 64 = b := by rw [hx]; dsimp only; omega
  have hto : kDADDR x.pkt = addr := by rw [hx]; exact kDADDR_fabPacket haddr ..
  have hpkg : bits (kDADDR x.pkt) 42 6 = u.position := by rw [hto, pkg_of_fabCheck hcode, hjournals.frame]
  have hlone := pumpFab_lone (s := u.fabTaken x) (x := x) (by rw [State.fabTaken, hjournals.frame, hap]; rfl) (by rw [hx])
    (by rw [hfn, hto, State.fabTaken, hjournals.frame]; exact hroom) (by rw [hfn, hto, State.fabTaken, hjournals.frame]; exact hholds)
  have hleaves : s.fabAt b f p addr n data rd = (u.fabTaken x).pumpFab := by rw [fabAt_taken hcode, ← hu, hpacket, hx]
  dsimp only
  obtain ⟨await, hsend⟩ := bridgeSend_here ({ u.fabTaken x with aperture := [{ x with sent := true }] }) (x.fn / 64) x.pkt hpkg
  rw [hleaves, hlone, hsend]
  refine ⟨hjournals.mem, hjournals.cores, ?_⟩
  rw [hx, State.fabTaken, hjournals.frame]
  rfl

/-- An access that passes its check leaves once the address has advanced. -/
theorem fabAdvance_leaves (hf : f < 64) (haddr : addr < 2 ^ 48) (hcode : s.fabCheck f p addr = 0) (hap : s.aperture = [])
    (hroom : s.bridgeRoom b (nameAt addr) = true) (hholds : s.bridgeHolds b (nameAt addr) = false) :
    let t := (s.fabAdvance b f n).fabAt b f p addr n data rd
    t.mem = s.mem ∧ t.cores = s.cores ∧ t.net = s.net ++ [s.withAge (s.fabPacket b addr n data rd)] := by
  have hadvance := fabAdvance_writes s b f n
  have hframe := hadvance.frame
  have hleaves := fabAt_leaves (s := s.fabAdvance b f n) (n := n) (data := data) (rd := rd) hf haddr
    ((hadvance.fabCheck f p addr).trans hcode) (by rw [hframe]; exact hap) (by rw [hframe]; exact hroom) (by rw [hframe]; exact hholds)
  obtain ⟨u, hu⟩ : ∃ u, u = s.fabAdvance b f n := ⟨_, rfl⟩
  rw [← hu] at hleaves hframe ⊢
  obtain ⟨hmem, hcores, hnet⟩ := hleaves
  refine ⟨hmem.trans (by rw [hframe]), hcores.trans (by rw [hframe]), hnet.trans (by rw [hframe]; rfl)⟩

end Sys2Proof.Machine
end

