-- ==== Sys2Proof/Proofs/DeliveryAndAperture.lean ====
section
/-! PROOFS. Delivery, completions, flushes and the aperture: the obligation O51 from the parts above. -/

namespace Sys2Proof.Machine

/-! ## The obligation -/

/-- Settles O51: a write's leaving, the completion of a lone read, a flush by its size, check and place, an aperture access by its
check. -/
theorem deliveryAndAperture : Obligations.DeliveryAndAperture := by
  intro port f n p k q seq a c g e r bs size8 v s b x w y stat off size win fc mine addr fstat len data flush flushed waits leaves hpow hup
  refine ⟨fun hn hmay hcode => ?_, fun hn hmay hcode hreads => ?_, exec_deliveryWriteOut_stays, exec_deliveryProbeRead hpow hup,
    exec_deliveryProbeRead_none, fun hreads hsent hgot => ?_, fun htakes => ?_, fun htakes => ⟨fun hcar => ?_, fun hwaits => ?_,
    fun hcode => ?_, fun hcode hap hroom hholds => ?_⟩⟩
  · have hexec := exec_deliveryWriteOut hpow hn hmay
    obtain ⟨⟨more, hout⟩, hkept⟩ := writeLeaves_delivers hcode b (1 - b)
    exact ⟨⟨_, more, hexec, hout⟩, fun hreads => ⟨_, hexec, hkept hreads⟩⟩
  · exact ⟨_, exec_deliveryWriteOut hpow hn hmay, writeLeaves_drops hcode hreads (1 - b)⟩
  · have hlone : s.Lone b r := ⟨hreads, hsent, hgot⟩
    have htimeout := exec_pcieCompletionTimeout (port := port) hpow hup r.tag
    have hfailed := exec_pcieCompletion_unsupported (port := port) hpow hup r.tag
    refine ⟨fun hearly => ?_, fun hwhy hzero => ⟨?_, fun hlate => ?_⟩, fun hwhy hzero hlen hbs => ⟨fun hwait => ?_, fun hwait => ?_, ?_⟩⟩
    · rw [htimeout, if_neg (by rw [hearly]; decide)]
    · obtain ⟨hmem, hempty, hkept⟩ := hlone.probe_ends hwhy [] cDONE true
      exact ⟨_, exec_pcieCompletion_data hpow hup hlone (by simp [HRead.fits, hzero]), hempty, hmem, hkept⟩
    · obtain ⟨hmem, hempty, hkept⟩ := hlone.probe_ends hwhy [] cTIMEDOUT false
      exact ⟨_, htimeout.trans (congrArg _ (if_pos hlate)), hempty, hmem, hkept⟩
    · exact ⟨_, exec_pcieCompletion_data hpow hup hlone (by simp [HRead.fits, hzero, hlen]), hlone.piece_lands hwhy hwait⟩
    · exact ⟨_, exec_pcieCompletion_data hpow hup hlone (by simp [HRead.fits, hzero, hlen]), hlone.piece_held hwhy hbs hwait⟩
    · exact ⟨_, hfailed, hlone.piece_fails hwhy (by decide)⟩
  · exact ⟨exec_hostFlushCtl_none htakes, exec_hostFabDataWrite_none htakes size8, exec_hostFabDataRead_none htakes size8⟩
  · have hexec : exec flush s = .next (s.flushOn c g p v) := exec_hostFlushCtl htakes hcar
    have hcount (code : Nat) (hlt : code < 256) (u : State) (hu : u = { s with pports := u.pports })
        (hends : s.flushOn c g p v = u.flushCounted c g code) : flushed code :=
      ⟨_, hexec.trans (congrArg _ hends), flushCounted_completes hlt hu⟩
    refine ⟨fun hsize hcode => hcount 0 (by decide) s rfl ?_, fun hflushes hreads hcode => ?_,
      fun hflushes hreads hsize hcode hbuf hqueued hlink => ?_, fun hsize hmine hfew => ?_, fun hsize hmany => ?_⟩
    · rw [flushOn_eq]
      exact if_pos ⟨hsize, hcode⟩
    · obtain ⟨u, hends, hu⟩ := flushOn_refused hflushes hreads hcode
      exact hcount _ (winCheck_lt ..) u hu hends
    · obtain ⟨u, hu, hasks⟩ := flushOn_asks hlink hflushes hreads hbuf hqueued hsize hcode
      exact ⟨_, hexec, hasks.mem.trans (by rw [hu]), hasks.ctl.trans (by rw [hu]), hasks.out.trans (by rw [hu]; rfl)⟩
    · exact ⟨_, hexec.trans (congrArg _ (flushOn_waits hsize hmine hfew)), rfl, by rw [State.flushQueued, pport_modPport]; rfl⟩
    · exact ⟨_, hexec.trans (congrArg _ (flushOn_lost hsize hmany)), rfl, fld_setFld _ _ _ _ _ (by norm_num)⟩
  · exact ⟨_, exec_hostFabDataWrite htakes size8, fabAccess_waits hwaits⟩
  · obtain ⟨t, hframe, herr, hstat, hrefused⟩ := fabAt_refused (n := len) f.isLt hcode
    refine ⟨fun hfree => ⟨t, ?_, hframe, herr, hstat⟩, t.emit (.completion b f.val 0), ?_, ?_, herr, ?_⟩
    · rw [exec_hostFabDataWrite htakes, fabAccess_write hfree]
      exact congrArg _ (hrefused ..)
    · rw [exec_hostFabDataRead htakes, fabAccess_read]
      exact congrArg _ (hrefused ..)
    · rw [hframe]; rfl
    · rw [hframe]; rfl
  · have haddr : addr < 2 ^ 48 := bits_lt ..
    refine ⟨fun hfree => ⟨_, exec_hostFabDataWrite htakes size8, ?_⟩, _, exec_hostFabDataRead htakes size8, ?_⟩
    · rw [fabAccess_write hfree]
      exact fabAdvance_leaves f.isLt haddr hcode hap hroom hholds
    · rw [fabAccess_read]
      exact fabAdvance_leaves f.isLt haddr hcode hap hroom hholds

end Sys2Proof.Machine
end

