-- ==== Sys2Proof/Proofs/RonnenPorts.lean ====
section
/-! PROOFS. Ronnen ports: their state after one of its updates, their registers, what a fall to DOWN leaves of the links
(R293, R300, R302). -/

namespace Sys2Proof.Machine

variable {s t u : State} {p q : Nat}

/-! ## A port after an update -/

@[simp] theorem State.rport_modRport (s : State) (p : Nat) (f : RPort → RPort) : (s.modRport p f).rport p = f (s.rport p) :=
  Tbl.get_set_self ..

theorem State.rport_modRport_ne (s : State) (f : RPort → RPort) (h : q ≠ p) : (s.modRport p f).rport q = s.rport q :=
  Tbl.get_set_ne _ _ _ h

@[simp] theorem State.rport_setFld (s : State) (a lo w x q : Nat) : (s.setFld a lo w x).rport q = s.rport q := rfl
@[simp] theorem State.rnnState_modRport (s : State) (p : Nat) (f : RPort → RPort) (q : Nat) :
    (s.modRport p f).rnnState q = s.rnnState q := rfl

theorem State.rport_raiseOpen (s : State) (r : ErrRec) (q : Nat) : (s.raiseOpen r).rport q = s.rport q := by
  rw [raiseOpen_frame s r]; rfl
theorem State.net_raiseOpen (s : State) (r : ErrRec) : (s.raiseOpen r).net = s.net := by rw [raiseOpen_frame s r]
theorem State.mem_raiseOpen (s : State) (r : ErrRec) : (s.raiseOpen r).mem = s.mem := by rw [raiseOpen_frame s r]

/-! ## Registers of a port (R276, R302) -/

/-- Registers at other offsets are others, whatever the ports. -/
theorem aRnn_ne_offset {j k : Nat} (hj : j < 0x1000) (hk : k < 0x1000) (h : j ≠ k) : aRnn p j ≠ aRnn q k := by
  simp only [aRnn, quoinBase]
  omega

/-- Registers of other ports are others. -/
theorem aRnn_ne_port {j k : Nat} (hj : j < 0x1000) (hk : k < 0x1000) (hp : p < 12) (hq : q < 12) (h : p ≠ q) : aRnn p j ≠ aRnn q k := by
  simp only [aRnn, quoinBase, rnnQuoin]
  split_ifs <;> omega

/-- A field written in one leaves those of another offset. -/
theorem fld_setFld_rnn (s : State) (p lo w x q lo' w' : Nat) {j k : Nat} (h : j < 0x1000 ∧ k < 0x1000 ∧ k ≠ j := by decide) :
    (s.setFld (aRnn p j) lo w x).fld (aRnn q k) lo' w' = s.fld (aRnn q k) lo' w' :=
  fld_setFld_other _ _ _ _ _ _ _ _ (aRnn_ne_offset h.2.1 h.1 h.2.2)

/-- They are no register of a partition. -/
theorem aRnn_ge (p k : Nat) : 0x4000 ≤ aRnn p k := by
  simp only [aRnn, quoinBase]
  omega

/-- A record leaves every register of a port. -/
theorem State.fld_raiseOpen (s : State) (r : ErrRec) (p k lo w : Nat) : (s.raiseOpen r).fld (aRnn p k) lo w = s.fld (aRnn p k) lo w :=
  State.Keeps.fld (P := (0x4000 ≤ ·)) ((State.Keeps.refl s).raiseOpen (fun _ h => h) r) (aRnn_ge p k) lo w

theorem State.rnnState_raiseOpen (s : State) (r : ErrRec) (p : Nat) : (s.raiseOpen r).rnnState p = s.rnnState p :=
  s.fld_raiseOpen r p 8 0 4

/-- The lane maps say which lane carries what. -/
theorem logicalOf_congr (h : ∀ lo, t.fld (aRnn p 0x10) lo 4 = s.fld (aRnn p 0x10) lo 4) (lo lane : Nat) :
    t.logicalOf p lo lane = s.logicalOf p lo lane := by
  simp only [State.logicalOf, h]

theorem logicalOf_lt {lo lane n : Nat} (h : s.logicalOf p lo lane = some n) : n < 8 :=
  List.mem_range.1 (List.mem_of_find?_eq_some h)

/-! ## The other port of a pair -/

theorem partner_ne (p : Nat) : partner p ≠ p := by
  unfold partner
  split <;> omega

theorem partner_lt (h : p < 12) : partner p < 12 := by
  unfold partner
  split <;> omega

/-! ## Links that are left alone -/

/-- A port has the same to send, to say and to expect. -/
structure RPort.SameTraffic (r r' : RPort) : Prop where
  replay : r'.replay = r.replay
  ackedPart : r'.ackedPart = r.ackedPart
  txWait : r'.txWait = r.txWait
  rxNext : r'.rxNext = r.rxNext
  msgs : r'.msgs = r.msgs

theorem RPort.SameTraffic.refl (r : RPort) : r.SameTraffic r := ⟨rfl, rfl, rfl, rfl, rfl⟩

theorem RPort.SameTraffic.trans {r r' r'' : RPort} (h : r.SameTraffic r') (h' : r'.SameTraffic r'') : r.SameTraffic r'' :=
  ⟨h'.replay.trans h.replay, h'.ackedPart.trans h.ackedPart, h'.txWait.trans h.txWait, h'.rxNext.trans h.rxNext, h'.msgs.trans h.msgs⟩

theorem RPort.SameTraffic.unsentPackets {r r' : RPort} (h : r.SameTraffic r') (n : Nat) : r'.unsentPackets n = r.unsentPackets n := by
  simp only [RPort.unsentPackets, RPort.flits, h.replay, h.ackedPart, h.txWait]

/-- Packets in flight, memory and the ports' traffic are as they were, and so is every port's status but SYNCED, its bit 4 (R302). -/
structure State.LinksStay (s t : State) : Prop where
  net : t.net = s.net
  mem : t.mem = s.mem
  traffic : ∀ q, (s.rport q).SameTraffic (t.rport q)
  status : ∀ q lo w, lo + w ≤ 4 ∨ 5 ≤ lo → t.fld (aRnn q 8) lo w = s.fld (aRnn q 8) lo w

namespace State.LinksStay

theorem refl (s : State) : s.LinksStay s := ⟨rfl, rfl, fun _ => .refl _, fun _ _ _ _ => rfl⟩

theorem trans (h : s.LinksStay t) (h' : t.LinksStay u) : s.LinksStay u :=
  ⟨h'.net.trans h.net, h'.mem.trans h.mem, fun q => (h.traffic q).trans (h'.traffic q),
    fun q lo w hlo => (h'.status q lo w hlo).trans (h.status q lo w hlo)⟩

theorem ite {c : Prop} [Decidable c] (h : s.LinksStay t) (h' : s.LinksStay u) : s.LinksStay (if c then t else u) := by
  split <;> assumption

theorem foldl {α : Type} (f : State → α → State) (l : List α) (hf : ∀ t x, State.LinksStay t (f t x)) (s : State) :
    s.LinksStay (l.foldl f s) := by
  induction l generalizing s with
  | nil => exact .refl s
  | cons x l ih => exact (hf s x).trans (ih _)

/-- A register that is no port's status. -/
theorem setFld {a : Nat} (ha : ∀ q, aRnn q 8 ≠ a) (lo w x : Nat) (s : State) : s.LinksStay (s.setFld a lo w x) :=
  ⟨rfl, rfl, fun _ => .refl _, fun q _ _ _ => fld_setFld_other _ _ _ _ _ _ _ _ (ha q)⟩

theorem setSyncedBit (p x : Nat) (s : State) : s.LinksStay (s.setFld (aRnn p 8) 4 1 x) :=
  ⟨rfl, rfl, fun _ => .refl _, fun q lo w hlo => by
    by_cases hq : aRnn q 8 = aRnn p 8
    · rw [hq]; exact fld_setFld_ne _ _ _ _ _ _ _ hlo
    · exact fld_setFld_other _ _ _ _ _ _ _ _ hq⟩

theorem modRport {f : RPort → RPort} (p : Nat) (s : State) (hf : (s.rport p).SameTraffic (f (s.rport p))) :
    s.LinksStay (s.modRport p f) :=
  ⟨rfl, rfl, fun q => by
    by_cases hq : q = p
    · rw [hq, State.rport_modRport]; exact hf
    · rw [State.rport_modRport_ne s f hq]; exact .refl _, fun _ _ _ _ => rfl⟩

theorem raiseOpen (r : ErrRec) (s : State) : s.LinksStay (s.raiseOpen r) :=
  ⟨s.net_raiseOpen r, s.mem_raiseOpen r, fun q => by rw [s.rport_raiseOpen r q]; exact .refl _,
    fun q lo w _ => s.fld_raiseOpen r q 8 lo w⟩

theorem timingLost (p : Nat) (s : State) : s.LinksStay (s.timingLost p) := by
  unfold State.timingLost
  split
  · exact setFld (fun q h => by have := aRnn_ge q 8; rw [h, aJnl] at this; omega) _ _ _ s
  · exact .refl s

theorem rnnState (h : s.LinksStay t) (q : Nat) : t.rnnState q = s.rnnState q := h.status q 0 4 (.inl (by norm_num))

end State.LinksStay

/-! ## The fall of a port (R293, R300) -/

theorem alignLost_linksStay (s : State) : s.LinksStay s.alignLost := by
  have hsynced : s.LinksStay (s.setSynced 0) := .foldl _ _ (fun t q => .setSyncedBit q 0 t) s
  unfold State.alignLost
  exact .ite (.refl s) ((hsynced.trans (.foldl _ _ (fun t q => .ite (.timingLost q t) (.refl t)) _)).trans (.raiseOpen _ _))

/-- What the neighbours have reported is forgotten, and a new parent is sought. -/
def State.seeksParent (s : State) : State :=
  (List.range 12).foldl (fun s p => s.modRport p fun r => { r with peerDepth := none, syncT1 := none })
    { s with parentStage := .sought, syncTick := none }

theorem seeksParent_linksStay (s : State) : s.LinksStay s.seeksParent := by
  have hsought : s.LinksStay { s with parentStage := .sought, syncTick := none } := ⟨rfl, rfl, fun _ => .refl _, fun _ _ _ _ => rfl⟩
  refine hsought.trans (.foldl _ _ (fun t q => .modRport q t ?_) _)
  exact ⟨rfl, rfl, rfl, rfl, rfl⟩

theorem parentLeft_linksStay (s : State) : s.LinksStay s.parentLeft := by
  unfold State.parentLeft
  split
  · exact .refl s
  · exact (alignLost_linksStay s).trans (seeksParent_linksStay s.alignLost)

theorem leaveActive_linksStay (s : State) (p x : Nat) : (s.setRnnState p x).LinksStay (s.leaveActive p x) := by
  refine State.LinksStay.trans (.modRport p _ ?_) (parentLeft_linksStay _)
  exact ⟨rfl, rfl, rfl, rfl, rfl⟩

/-- A port that has gone DOWN begins anew; RETRAIN is clear. -/
def State.restarted (s : State) (p : Nat) : State :=
  (s.modRport p fun r => { r with downTick := s.tick, retrainFails := 0, fromRetrain := false, swaps := [] }).setFld (aRnn p 0) 1 1 0

theorem restarted_linksStay (s : State) (p : Nat) : s.LinksStay (s.restarted p) := by
  have hctrl : ∀ q, aRnn q 8 ≠ aRnn p 0 := fun _ => aRnn_ne_offset (by norm_num) (by norm_num) (by norm_num)
  refine State.LinksStay.trans (.modRport p s ?_) (.setFld hctrl 1 1 0 _)
  exact ⟨rfl, rfl, rfl, rfl, rfl⟩

theorem enterDown_eq (s : State) (p : Nat) : s.enterDown p =
    ((if s.rnnState p = 5 then s.leaveActive p 7 else s.setRnnState p 7).restarted p).raiseOpen
      (rnnRec 0 0x33 p 0 (if s.rnnState p = 5 then 5 else 0xFF) p) := rfl

/-- A port that goes DOWN changes its state; beside that the links stay. -/
theorem enterDown_linksStay (s : State) (p : Nat) : (s.setRnnState p 7).LinksStay (s.enterDown p) := by
  rw [enterDown_eq]
  refine State.LinksStay.trans ?_ ((restarted_linksStay _ p).trans (.raiseOpen _ _))
  split
  · exact leaveActive_linksStay s p 7
  · exact .refl _

theorem enterDown_record (s : State) (p : Nat) : ∃ e ∈ (s.enterDown p).errPend, e.source = 0x33 := by
  rw [enterDown_eq]
  obtain ⟨e, he, hsource, -⟩ := raiseOpen_has
    ((if s.rnnState p = 5 then s.leaveActive p 7 else s.setRnnState p 7).restarted p)
    (rnnRec 0 0x33 p 0 (if s.rnnState p = 5 then 5 else 0xFF) p)
  exact ⟨e, he, hsource⟩

theorem rnnState_setRnnState (s : State) (p x : Nat) : (s.setRnnState p x).rnnState p = x % 16 := fld_setFld _ _ _ _ _ (by norm_num)

theorem rnnState_setRnnState_ne (s : State) (x : Nat) (hp : p < 12) (hq : q < 12) (h : q ≠ p) :
    (s.setRnnState p x).rnnState q = s.rnnState q :=
  fld_setFld_other _ _ _ _ _ _ _ _ (aRnn_ne_port (by norm_num) (by norm_num) hq hp h)

theorem rnnState_enterDown (s : State) (p : Nat) : (s.enterDown p).rnnState p = 7 :=
  ((enterDown_linksStay s p).rnnState p).trans (rnnState_setRnnState s p 7)

theorem rnnState_enterDown_ne (s : State) (hp : p < 12) (hq : q < 12) (h : q ≠ p) : (s.enterDown p).rnnState q = s.rnnState q :=
  ((enterDown_linksStay s p).rnnState q).trans (rnnState_setRnnState_ne s 7 hp hq h)

end Sys2Proof.Machine
end

