-- ==== Sys2Proof/Proofs/PortTraffic.lean ====
section
/-! PROOFS. What a Ronnen port sends stays in its hands: a flit that leaves the waiting ones stands in the replay buffer
(R285, R289, R290). -/

namespace Sys2Proof.Machine

variable {s : State} {p q : Nat}

/-! ## A flit taken from those that wait -/

theorem mem_pullRest {b : FlitBody} (v : Nat) {l : List FlitBody} (h : b ∈ l) : b ∈ (pullRest v l).1 ∨ b ∈ (pullRest v l).2 := by
  induction l with
  | nil => exact absurd h List.not_mem_nil
  | cons x xs ih =>
    rw [List.mem_cons] at h
    unfold pullRest
    split
    · simp only [List.mem_cons]
      tauto
    · split
      · simpa using h
      · simp only [List.mem_cons]
        tauto

/-- Every other flit still waits. -/
theorem mem_takeFlit {a b : FlitBody} {l : List FlitBody} (h : b ∈ l) : b = a ∨ b ∈ takeFlit a l := by
  have hcut : b ∈ l.take (l.idxOf a) ∨ b = a ∨ b ∈ l.drop (l.idxOf a + 1) := by
    by_cases hlt : l.idxOf a < l.length
    · rw [← List.take_append_drop (l.idxOf a) l, List.mem_append, List.drop_eq_getElem_cons hlt, List.getElem_idxOf hlt,
        List.mem_cons] at h
      exact h
    · rw [List.take_of_length_le (by omega)]
      exact .inl h
  have hrest := mem_pullRest (b := b) (a.cls / 2) (l := l.drop (l.idxOf a + 1))
  unfold takeFlit
  dsimp only
  split <;> simp only [List.mem_append, List.not_mem_nil, false_or] <;> tauto

/-! ## A port in ACTIVE sends -/

/-- The flit waits, or stands in the replay buffer. -/
def RPort.Holds (r : RPort) (b : FlitBody) : Prop := b ∈ r.txWait ∨ ∃ w ∈ r.replay, w.body = b

theorem sendFlit_holds {r : RPort} {b : FlitBody} (a : FlitBody) (turn : Nat) (h : r.Holds b) : (r.sendFlit a turn).Holds b := by
  rcases h with hwait | ⟨w, hw, hbody⟩
  · rcases mem_takeFlit (a := a) hwait with rfl | htake
    · exact .inr ⟨_, List.mem_append_right _ (List.mem_singleton_self _), rfl⟩
    · exact .inl htake
  · exact .inr ⟨w, List.mem_append_left _ hw, hbody⟩

/-- Sending loses no flit and says nothing of the port's own. -/
theorem drain_holds (owner : Nat → Nat) (n : Nat) (r : RPort) :
    (∀ b, r.Holds b → (r.drain owner n).Holds b) ∧ (r.drain owner n).msgs = r.msgs := by
  induction n generalizing r with
  | zero => exact ⟨fun _ h => h, rfl⟩
  | succ n ih =>
    unfold RPort.drain
    split
    · exact ⟨fun _ h => h, rfl⟩
    · split
      · exact ⟨fun _ h => h, rfl⟩
      · next a turn _ =>
        obtain ⟨hholds, hmsgs⟩ := ih (r.sendFlit a turn)
        exact ⟨fun b hb => hholds b (sendFlit_holds a turn hb), hmsgs⟩

theorem rnnPump_eq (s : State) (p : Nat) : s.rnnPump p = { s with rports := (s.rnnPump p).rports } := by
  unfold State.rnnPump
  split <;> rfl

theorem rnnPump_idle (h : s.rnnState p ≠ 5) : s.rnnPump p = s := if_neg (by simp [h])

theorem rport_rnnPump_ne (s : State) (h : q ≠ p) : (s.rnnPump p).rport q = s.rport q := by
  unfold State.rnnPump
  split
  · exact State.rport_modRport_ne s _ h
  · rfl

theorem rnnPump_holds (s : State) (p : Nat) :
    (∀ b, (s.rport p).Holds b → ((s.rnnPump p).rport p).Holds b) ∧ ((s.rnnPump p).rport p).msgs = (s.rport p).msgs := by
  unfold State.rnnPump
  split
  · rw [State.rport_modRport]
    exact drain_holds ..
  · exact ⟨fun _ h => h, rfl⟩

end Sys2Proof.Machine
end

