-- ==== Sys2Proof/Proofs/PortHandOver.lean ====
section
/-! PROOFS. A Ronnen port that goes DOWN, or stays out of ACTIVE, hands its traffic over to the partner (R267, R274, R296, R451). -/

namespace Sys2Proof.Machine

variable {s t u : State} {p : Nat} {gone : List FlitBody}

/-! ## Circuits that move, and what the port lets go (R267, R296) -/

theorem takeSlots_slots (s : State) (h : Hop) (owner n : Nat) (order : List Nat) :
    s.takeSlots h owner n order = { s with slots := (s.takeSlots h owner n order).slots } := by
  unfold State.takeSlots
  induction ((order.filter fun i => s.slotOwner h i = 0).take n) generalizing s with
  | nil => rfl
  | cons i l ih => rw [List.foldl_cons, ih]

/-- Slots of hops apart, all of the state stays. -/
theorem moveCircuits_slots (s : State) (p : Nat) : s.moveCircuits p = { s with slots := (s.moveCircuits p).slots } := by
  unfold State.moveCircuits
  dsimp only
  induction ((List.range 32).map (s.slotOwner (portHop (p / 2) (p % 2)))).dedup.filter (· ≠ 0) generalizing s with
  | nil => rfl
  | cons w l ih =>
    rw [List.foldl_cons, ih]
    split
    · rw [takeSlots_slots]; rfl
    · rfl

/-- R296, R451: nothing is left to send, nor to send again, nor of what was being received. -/
def RPort.emptied (r : RPort) : RPort :=
  { r with replay := [], ackedPart := [], txWait := [], sending := [], asm := [], fromRetrain := false }

/-- The port keeps nothing; its circuits move where they can. -/
def State.letGo (s : State) (p : Nat) : State := (s.modRport p RPort.emptied).moveCircuits p

/-- Nothing but the ports and the slots changes, and no other port. -/
theorem State.letGo_eq (s : State) (p : Nat) : ∃ m, s.letGo p = { s.modRport p RPort.emptied with slots := m } :=
  ⟨_, moveCircuits_slots (s.modRport p RPort.emptied) p⟩

theorem rport_letGo (s : State) (p : Nat) : (s.letGo p).rport p = (s.rport p).emptied := by
  obtain ⟨m, hm⟩ := s.letGo_eq p
  rw [hm]
  exact s.rport_modRport p _

theorem rport_letGo_ne (s : State) {q : Nat} (h : q ≠ p) : (s.letGo p).rport q = s.rport q := by
  obtain ⟨m, hm⟩ := s.letGo_eq p
  rw [hm]
  exact s.rport_modRport_ne _ h

/-! ## The hand-over (R296) -/

/-- Flits come to wait at a port, which sends what it can. -/
def State.takeOn (s : State) (q : Nat) (l : List FlitBody) : State :=
  (s.modRport q fun r => { r with txWait := r.txWait ++ l }).rnnPump q

theorem State.takeOn_eq (s : State) (q : Nat) (l : List FlitBody) : ∃ r, s.takeOn q l = { s with rports := r } :=
  ⟨_, rnnPump_eq (s.modRport q fun r => { r with txWait := r.txWait ++ l }) q⟩

theorem rport_takeOn_ne (s : State) (l : List FlitBody) {q j : Nat} (h : j ≠ q) : (s.takeOn q l).rport j = s.rport j :=
  (rport_rnnPump_ne _ h).trans (s.rport_modRport_ne _ h)

theorem takeOn_idle {q : Nat} (h : s.rnnState q ≠ 5) (l : List FlitBody) :
    ((s.takeOn q l).rport q).txWait = (s.rport q).txWait ++ l := by
  rw [State.takeOn, rnnPump_idle (by rwa [State.rnnState_modRport]), State.rport_modRport]

theorem takeOn_holds (s : State) (q : Nat) (l : List FlitBody) :
    (∀ b ∈ l, ((s.takeOn q l).rport q).Holds b) ∧ ((s.takeOn q l).rport q).msgs = (s.rport q).msgs := by
  obtain ⟨hholds, hmsgs⟩ := rnnPump_holds (s.modRport q fun r => { r with txWait := r.txWait ++ l }) q
  rw [State.rport_modRport] at hholds hmsgs
  exact ⟨fun b hb => hholds b (.inl (List.mem_append_right _ hb)), hmsgs⟩

/-- The partner port carries traffic, or will. -/
def State.partnerUp (s : State) (p : Nat) : Prop :=
  s.rnnState (partner p) ≠ 0 ∧ s.rnnState (partner p) ≠ 7 ∧ s.rnnState (partner p) ≠ 8

/-- The number that the port accepted last. -/
def RPort.lastAccepted (r : RPort) : Nat := (r.rxNext + 65535) % 65536

theorem handOver_up (hup : s.partnerUp p) (n : Nat) : s.handOver p n =
    ((s.rnnSay (partner p) (.handover (s.rport p).lastAccepted)).letGo p).takeOn (partner p) ((s.rport p).unsentPackets n).flatten := by
  obtain ⟨h0, h7, h8⟩ := hup
  have hin : decide (s.rnnState (partner p) ∉ [0, 7, 8]) = true := by simp [h0, h7, h8]
  unfold State.handOver
  simp only [hin, if_true]
  rfl

theorem handOver_down (hdown : ¬ s.partnerUp p) (n : Nat) : s.handOver p n =
    ((s.rport p).unsentPackets n).foldl (fun v bs => v.absorbAway (packetOf bs (bs.any (·.marked)))) (s.letGo p) := by
  have hin : decide (s.rnnState (partner p) ∉ [0, 7, 8]) = false := by
    simp only [State.partnerUp] at hdown
    simp only [List.mem_cons, List.not_mem_nil, decide_eq_false_iff_not]
    tauto
  unfold State.handOver
  simp only [hin]
  rfl

/-- R296, R451: the port has told its peer over the partner port what it accepted, keeps nothing, and the partner has what was `gone`. -/
structure State.HandsOver (p : Nat) (gone : List FlitBody) (s t : State) : Prop where
  net : t.net = s.net
  mem : t.mem = s.mem
  replay : (t.rport p).replay = []
  txWait : (t.rport p).txWait = []
  told : (t.rport (partner p)).msgs = (s.rport (partner p)).msgs ++ [.handover (s.rport p).lastAccepted]
  waits : s.rnnState (partner p) ≠ 5 → (t.rport (partner p)).txWait = (s.rport (partner p)).txWait ++ gone
  holds : ∀ b ∈ gone, (t.rport (partner p)).Holds b

/-- Ports and slots apart, all of the state stays. -/
theorem handOver_eq (hup : s.partnerUp p) (n : Nat) : ∃ m r, s.handOver p n = { s with slots := m, rports := r } := by
  obtain ⟨m, hm⟩ := (s.rnnSay (partner p) (.handover (s.rport p).lastAccepted)).letGo_eq p
  obtain ⟨r, hr⟩ := State.takeOn_eq ((s.rnnSay (partner p) (.handover (s.rport p).lastAccepted)).letGo p) (partner p)
    ((s.rport p).unsentPackets n).flatten
  refine ⟨m, r, ?_⟩
  rw [handOver_up hup, hr, hm]
  rfl

theorem handOver_handsOver (hup : s.partnerUp p) (n : Nat) : s.HandsOver p ((s.rport p).unsentPackets n).flatten (s.handOver p n) := by
  obtain ⟨m, r, heq⟩ := handOver_eq hup n
  have hself := (partner_ne p).symm
  obtain ⟨v, hv⟩ : ∃ v, v = (s.rnnSay (partner p) (.handover (s.rport p).lastAccepted)).letGo p := ⟨_, rfl⟩
  have hown : (v.rport p) = (s.rport p).emptied := by
    rw [hv, rport_letGo, State.rnnSay, State.rport_modRport_ne _ _ hself]
  have hother : v.rport (partner p) =
      { s.rport (partner p) with msgs := (s.rport (partner p)).msgs ++ [.handover (s.rport p).lastAccepted] } := by
    rw [hv, rport_letGo_ne _ (partner_ne p), State.rnnSay, State.rport_modRport]
  have hstate : v.rnnState (partner p) = s.rnnState (partner p) := by
    obtain ⟨m', hm'⟩ := (s.rnnSay (partner p) (.handover (s.rport p).lastAccepted)).letGo_eq p
    rw [hv, hm']
    rfl
  obtain ⟨hholds, hmsgs⟩ := takeOn_holds v (partner p) ((s.rport p).unsentPackets n).flatten
  have hnet : (s.handOver p n).net = s.net := by rw [heq]
  have hmem : (s.handOver p n).mem = s.mem := by rw [heq]
  rw [handOver_up hup, ← hv] at *
  have hport := rport_takeOn_ne v ((s.rport p).unsentPackets n).flatten hself
  exact {
    net := hnet
    mem := hmem
    replay := by rw [hport, hown]; rfl
    txWait := by rw [hport, hown]; rfl
    told := by rw [hmsgs, hother]
    waits := fun hne => by rw [takeOn_idle (by rwa [hstate]), hother]
    holds := hholds }

/-- What comes before the hand-over, and leaves the links, may be counted in. -/
theorem State.HandsOver.of_fall (h : u.HandsOver p gone t) (hnet : u.net = s.net) (hmem : u.mem = s.mem)
    (htraffic : ∀ q, (s.rport q).SameTraffic (u.rport q)) (hstate : u.rnnState (partner p) = s.rnnState (partner p)) :
    s.HandsOver p gone t where
  net := h.net.trans hnet
  mem := h.mem.trans hmem
  replay := h.replay
  txWait := h.txWait
  told := by rw [h.told, RPort.lastAccepted, (htraffic _).rxNext, (htraffic _).msgs]; rfl
  waits := fun hne => by rw [h.waits (by rwa [hstate]), (htraffic _).txWait]
  holds := h.holds

/-- So may a record that is raised after it. -/
theorem State.HandsOver.raiseOpen (h : s.HandsOver p gone t) (r : ErrRec) : s.HandsOver p gone (t.raiseOpen r) := by
  have hport := t.rport_raiseOpen r
  exact ⟨(t.net_raiseOpen r).trans h.net, (t.mem_raiseOpen r).trans h.mem, hport p ▸ h.replay, hport p ▸ h.txWait,
    hport (partner p) ▸ h.told, hport (partner p) ▸ h.waits, hport (partner p) ▸ h.holds⟩

/-! ## A port that goes DOWN (R293, R296) -/

/-- The port has gone DOWN: beside the states of the ports the links stay, and of those, the other ports'. -/
structure State.Falls (p : Nat) (s t : State) : Prop where
  net : t.net = s.net
  mem : t.mem = s.mem
  traffic : ∀ q, (s.rport q).SameTraffic (t.rport q)
  down : t.rnnState p = 7
  others : ∀ q, q < 12 → q ≠ p → t.rnnState q = s.rnnState q

/-- The port is DOWN, or goes so now. -/
def State.fallen (s : State) (p : Nat) : State := if s.rnnState p = 7 then s else s.enterDown p

theorem fallen_falls (hp : p < 12) (s : State) : s.Falls p (s.fallen p) := by
  unfold State.fallen
  split
  · next hdown => exact ⟨rfl, rfl, fun _ => .refl _, hdown, fun _ _ _ => rfl⟩
  · have hstay := enterDown_linksStay s p
    exact ⟨hstay.net, hstay.mem, hstay.traffic, rnnState_enterDown s p, fun q hq hne => rnnState_enterDown_ne s hp hq hne⟩

theorem State.Falls.partnerUp_iff (h : s.Falls p t) (hp : p < 12) : t.partnerUp p ↔ s.partnerUp p := by
  rw [State.partnerUp, State.partnerUp, h.others _ (partner_lt hp) (partner_ne p)]

theorem exec_portDown {port : Fin 12} (hpow : s.powered = true)
    (hst : s.rnnState port.val = 4 ∨ s.rnnState port.val = 5 ∨ s.rnnState port.val = 6 ∨ s.rnnState port.val = 7) (n : BitVec 16) :
    exec (.portDown port n) s = .next ((s.fallen port.val).handOver port.val n.toNat) :=
  congrArg Host.Outcome.next (if_pos (by simpa [hpow] using hst))

theorem exec_portHandoverTimeout {port : Fin 12} (hpow : s.powered = true) (h5 : s.rnnState port.val ≠ 5) (h8 : s.rnnState port.val ≠ 8)
    (hlong : (s.rport port.val).outTick + 2500 ≤ s.tick) (hflits : (s.rport port.val).flits ≠ []) (n : BitVec 16) :
    exec (.portHandoverTimeout port n) s =
      .next ((s.handOver port.val n.toNat).raiseOpen (rnnRec 0 0x33 port.val 0 0xFF 0)) :=
  congrArg Host.Outcome.next (if_pos (by simp [hpow, h5, h8, hlong, hflits]))

theorem portDown_handsOver (hp : p < 12) (hup : s.partnerUp p) (n : Nat) :
    ((s.fallen p).handOver p n).rnnState p = 7 ∧ s.HandsOver p ((s.rport p).unsentPackets n).flatten ((s.fallen p).handOver p n) := by
  have hfalls := fallen_falls hp s
  have hup' := (hfalls.partnerUp_iff hp).2 hup
  obtain ⟨m, r, heq⟩ := handOver_eq hup' n
  refine ⟨?_, ?_⟩
  · rw [heq]; exact hfalls.down
  · rw [← (hfalls.traffic p).unsentPackets n]
    exact (handOver_handsOver hup' n).of_fall hfalls.net hfalls.mem hfalls.traffic (hfalls.others _ (partner_lt hp) (partner_ne p))

theorem portDown_records (hp : p < 12) (hup : s.partnerUp p) (hne : s.rnnState p ≠ 7) (n : Nat) :
    ∃ e ∈ ((s.fallen p).handOver p n).errPend, e.source = 0x33 := by
  obtain ⟨m, r, heq⟩ := handOver_eq (((fallen_falls hp s).partnerUp_iff hp).2 hup) n
  rw [heq, State.fallen, if_neg hne]
  exact enterDown_record s p

theorem portDown_absorbs (hp : p < 12) (hdown : ¬ s.partnerUp p) (n : Nat) :
    ∃ u, (s.fallen p).handOver p n =
        ((s.rport p).unsentPackets n).foldl (fun v bs => v.absorbAway (packetOf bs (bs.any (·.marked)))) u ∧
      u.rnnState p = 7 ∧ ((u.rport p).replay = [] ∧ (u.rport p).txWait = []) ∧ u.net = s.net ∧ u.mem = s.mem := by
  have hfalls := fallen_falls hp s
  have hport := rport_letGo (s.fallen p) p
  obtain ⟨m, hm⟩ := (s.fallen p).letGo_eq p
  refine ⟨(s.fallen p).letGo p, ?_, ?_, ⟨?_, ?_⟩, ?_, ?_⟩
  · rw [handOver_down (mt (hfalls.partnerUp_iff hp).1 hdown), (hfalls.traffic p).unsentPackets]
  · rw [hm]; exact hfalls.down
  · rw [hport]; rfl
  · rw [hport]; rfl
  · rw [hm]; exact hfalls.net
  · rw [hm]; exact hfalls.mem

theorem timeout_handsOver (hup : s.partnerUp p) (n : Nat) (r : ErrRec) :
    ((s.handOver p n).raiseOpen r).rnnState p = s.rnnState p ∧
      s.HandsOver p ((s.rport p).unsentPackets n).flatten ((s.handOver p n).raiseOpen r) := by
  refine ⟨?_, (handOver_handsOver hup n).raiseOpen r⟩
  obtain ⟨m, l, heq⟩ := handOver_eq hup n
  rw [State.rnnState_raiseOpen, heq]
  rfl

end Sys2Proof.Machine
end

