-- ==== Sys2Proof/Proofs/PortsAndLanes.lean ====
section
/-! PROOFS. Lanes of a Ronnen port that fail move to the spare (R295); ports and lanes that go down. -/

namespace Sys2Proof.Machine

variable {s : State} {p : Nat}

/-! ## Lanes (R295) -/

/-- The first lane of a direction's map in `RNN_LANEMAP`. -/
def laneLo (rx : Bool) : Nat := if rx then 32 else 0

theorem addSwap_swaps (r : RPort) (rx : Bool) (lane : Nat) :
    (r.addSwap rx lane).swaps = if (rx, lane) ∈ r.swaps then r.swaps else r.swaps ++ [(rx, lane)] := by
  unfold RPort.addSwap
  split <;> rfl

theorem addSwap_msgs (r : RPort) (rx : Bool) (lane : Nat) : (r.addSwap rx lane).msgs = r.msgs := by
  unfold RPort.addSwap
  split <;> rfl

theorem rport_callSwap (s : State) (p lane : Nat) :
    (s.callSwap p lane).rport p = ({ s.rport p with msgs := (s.rport p).msgs ++ [.laneSwap lane] } : RPort).addSwap true lane := by
  rw [State.callSwap, State.rport_modRport, State.rnnSay, State.rport_modRport]

/-- The status names the lane that failed. -/
def State.laneNamed (s : State) (p lane : Nat) : State := s.setFld (aRnn p 8) 8 4 lane

theorem logicalOf_laneNamed (s : State) (p lane lo l : Nat) : (s.laneNamed p lane).logicalOf p lo l = s.logicalOf p lo l :=
  logicalOf_congr (fun _ => fld_setFld_rnn ..) lo l

theorem fld_laneNamed (s : State) (p : Nat) {lane : Nat} (h : lane < 16) : (s.laneNamed p lane).fld (aRnn p 8) 8 4 = lane :=
  (fld_setFld _ _ _ _ _ (by norm_num)).trans (Nat.mod_eq_of_lt h)

/-- Logical lane `n` of a direction is carried by the spare; the port is DEGRADED, and the swap counted. -/
def State.spareTaken (s : State) (p : Nat) (rx : Bool) (n : Nat) : State :=
  ((s.setFld (aRnn p 0x10) (laneLo rx + 4 * n) 4 8).setFld (aRnn p 8) 5 1 1).satFld (aRnn p 0x20) 48 16 1

theorem moveLane_spare {rx : Bool} {lane n : Nat} (hcarries : s.logicalOf p (laneLo rx) lane = some n)
    (hfree : s.logicalOf p (laneLo rx) 8 = none) (hgood : (s.rport p).spareBad rx = false) :
    s.moveLane p rx lane = (s.laneNamed p lane).spareTaken p rx n := by
  have hnone := (logicalOf_laneNamed s p lane (laneLo rx) 8).trans hfree
  unfold State.moveLane
  rw [laneLo] at hcarries
  simp only [hcarries]
  refine if_neg ?_
  rw [← laneLo, ← State.laneNamed, hnone]
  simp [State.laneNamed, hgood]

theorem moveLane_down {rx : Bool} {lane n : Nat} (hcarries : s.logicalOf p (laneLo rx) lane = some n)
    (hused : s.logicalOf p (laneLo rx) 8 ≠ none ∨ (s.rport p).spareBad rx = true) :
    s.moveLane p rx lane = (s.laneNamed p lane).enterDown p := by
  have hsame := logicalOf_laneNamed s p lane (laneLo rx) 8
  unfold State.moveLane
  rw [laneLo] at hcarries
  simp only [hcarries]
  refine if_pos ?_
  rw [← laneLo, ← State.laneNamed, hsame]
  simpa [State.laneNamed, Option.isSome_iff_ne_none] using hused

/-- The map of the direction is another at lane `n` alone, that of the other direction the same; the status says DEGRADED. -/
theorem spareTaken_fields (s : State) (p : Nat) (rx : Bool) {n : Nat} (hn : n < 8) :
    let t := s.spareTaken p rx n
    (∀ m, m < 8 → t.fld (aRnn p 0x10) (laneLo rx + 4 * m) 4 = if m = n then 8 else s.fld (aRnn p 0x10) (laneLo rx + 4 * m) 4) ∧
    (∀ m, m < 8 → t.fld (aRnn p 0x10) (32 - laneLo rx + 4 * m) 4 = s.fld (aRnn p 0x10) (32 - laneLo rx + 4 * m) 4) ∧
    t.fld (aRnn p 8) 5 1 = 1 ∧ ∀ lo w, lo + w ≤ 5 ∨ 6 ≤ lo → t.fld (aRnn p 8) lo w = s.fld (aRnn p 8) lo w := by
  have hlo : laneLo rx = 0 ∨ laneLo rx = 32 := by cases rx <;> simp [laneLo]
  have hmap : ∀ lo, (s.spareTaken p rx n).fld (aRnn p 0x10) lo 4 =
      (s.setFld (aRnn p 0x10) (laneLo rx + 4 * n) 4 8).fld (aRnn p 0x10) lo 4 := fun lo =>
    (fld_setFld_rnn ..).trans
      (fld_setFld_rnn ..)
  have hstatus : ∀ lo w, (s.spareTaken p rx n).fld (aRnn p 8) lo w =
      ((s.setFld (aRnn p 0x10) (laneLo rx + 4 * n) 4 8).setFld (aRnn p 8) 5 1 1).fld (aRnn p 8) lo w := fun lo w =>
    fld_setFld_rnn ..
  refine ⟨fun m hm => ?_, fun m hm => ?_, ?_, fun lo w hout => ?_⟩
  · rw [hmap]
    split
    · next heq => rw [heq]; exact fld_setFld _ _ _ _ _ (by omega)
    · exact fld_setFld_ne _ _ _ _ _ _ _ (by omega)
  · rw [hmap]
    exact fld_setFld_ne _ _ _ _ _ _ _ (by omega)
  · rw [hstatus]
    exact fld_setFld _ _ _ _ _ (by norm_num)
  · rw [hstatus, fld_setFld_ne _ _ _ _ _ _ _ (by omega)]
    exact fld_setFld_rnn ..

/-! ## The 64th boundary (R295) -/

/-- The oldest swap is taken up, and recorded. -/
def State.swapDue (s : State) (p lane : Nat) (rest : List (Bool × Nat)) : State :=
  (s.modRport p fun r => { r with swaps := rest }).raiseOpen (rnnRec 0 0x32 p lane 0xFF 0)

variable {rx : Bool} {lane : Nat} {rest : List (Bool × Nat)}

theorem laneSwitch_due (hpow : s.powered = true) (hst : s.rnnState p = 5) (hswaps : (s.rport p).swaps = (rx, lane) :: rest) :
    s.laneSwitch p = (s.swapDue p lane rest).moveLane p rx lane := by
  unfold State.laneSwitch
  rw [hswaps]
  exact if_neg (by simp [hpow, hst])

theorem laneSwitch_inactive (hst : s.rnnState p ≠ 5) : s.laneSwitch p = s := by
  unfold State.laneSwitch
  split
  · rfl
  · exact if_pos (by simp [hst])

theorem rport_swapDue (s : State) (p lane : Nat) (rest : List (Bool × Nat)) :
    (s.swapDue p lane rest).rport p = { s.rport p with swaps := rest } :=
  (State.rport_raiseOpen _ _ p).trans (State.rport_modRport ..)

theorem fld_swapDue (s : State) (p lane : Nat) (rest : List (Bool × Nat)) (k lo w : Nat) :
    (s.swapDue p lane rest).fld (aRnn p k) lo w = s.fld (aRnn p k) lo w :=
  State.fld_raiseOpen (s.modRport p _) _ p k lo w

theorem swapDue_records (s : State) (p lane : Nat) (rest : List (Bool × Nat)) :
    ∃ e ∈ (s.swapDue p lane rest).errPend, e.source = 0x32 := by
  obtain ⟨e, he, hsource, -⟩ := raiseOpen_has (s.modRport p fun r => { r with swaps := rest }) (rnnRec 0 0x32 p lane 0xFF 0)
  exact ⟨e, he, hsource⟩

theorem logicalOf_swapDue (s : State) (p lane : Nat) (rest : List (Bool × Nat)) (lo l : Nat) :
    (s.swapDue p lane rest).logicalOf p lo l = s.logicalOf p lo l := logicalOf_congr (fun lo => fld_swapDue s p lane rest 0x10 lo 4) lo l

theorem spareBad_swapDue (s : State) (p lane : Nat) (rest : List (Bool × Nat)) (rx : Bool) :
    ((s.swapDue p lane rest).rport p).spareBad rx = (s.rport p).spareBad rx := by
  rw [rport_swapDue]
  rfl

section
variable (hpow : s.powered = true) (hst : s.rnnState p = 5) (hswaps : (s.rport p).swaps = (rx, lane) :: rest) {n : Nat}
  (hcarries : s.logicalOf p (laneLo rx) lane = some n) (hlane : lane < 16)
include hpow hst hswaps hcarries hlane

/-- The spare takes the logical lane over, which is recorded; the port stays in ACTIVE. -/
theorem laneSwitch_spare (hfree : s.logicalOf p (laneLo rx) 8 = none) (hgood : (s.rport p).spareBad rx = false) :
    let t := s.laneSwitch p
    t.rnnState p = 5 ∧ (t.rport p).swaps = rest ∧
    (∀ m, m < 8 → t.fld (aRnn p 0x10) (laneLo rx + 4 * m) 4 = if m = n then 8 else s.fld (aRnn p 0x10) (laneLo rx + 4 * m) 4) ∧
    (∀ m, m < 8 → t.fld (aRnn p 0x10) (32 - laneLo rx + 4 * m) 4 = s.fld (aRnn p 0x10) (32 - laneLo rx + 4 * m) 4) ∧
    t.fld (aRnn p 8) 8 4 = lane ∧ t.fld (aRnn p 8) 5 1 = 1 ∧ ∃ e ∈ t.errPend, e.source = 0x32 := by
  obtain ⟨u, hu⟩ : ∃ u, u = s.swapDue p lane rest := ⟨_, rfl⟩
  have hmoves : s.laneSwitch p = (u.laneNamed p lane).spareTaken p rx n := by
    rw [laneSwitch_due hpow hst hswaps, ← hu]
    refine moveLane_spare ?_ ?_ ?_ <;> rw [hu]
    · rwa [logicalOf_swapDue]
    · rwa [logicalOf_swapDue]
    · rwa [spareBad_swapDue]
  have hnamed : ∀ lo, (u.laneNamed p lane).fld (aRnn p 0x10) lo 4 = s.fld (aRnn p 0x10) lo 4 := fun lo =>
    (fld_setFld_rnn ..).trans (hu ▸ fld_swapDue ..)
  have hstate : (u.laneNamed p lane).fld (aRnn p 8) 0 4 = 5 :=
    (fld_setFld_ne _ _ _ _ _ _ _ (by norm_num)).trans ((hu ▸ fld_swapDue ..).trans hst)
  obtain ⟨hmap, hother, hdegraded, hstatus⟩ := spareTaken_fields (u.laneNamed p lane) p rx (logicalOf_lt hcarries)
  intro t
  have ht : t = _ := hmoves
  rw [ht]
  refine ⟨(hstatus 0 4 (by norm_num)).trans hstate, ?_, fun m hm => ?_, fun m hm => ?_, ?_, hdegraded, ?_⟩
  · show (u.rport p).swaps = rest
    rw [hu, rport_swapDue]
  · rw [hmap m hm, hnamed]
  · rw [hother m hm, hnamed]
  · rw [hstatus 8 4 (by norm_num), fld_laneNamed u p hlane]
  · exact hu ▸ swapDue_records s p lane rest

/-- A second failure of the direction takes the port down. -/
theorem laneSwitch_down (hused : s.logicalOf p (laneLo rx) 8 ≠ none ∨ (s.rport p).spareBad rx = true) :
    (s.laneSwitch p).rnnState p = 7 ∧ (s.laneSwitch p).fld (aRnn p 8) 8 4 = lane := by
  obtain ⟨u, hu⟩ : ∃ u, u = s.swapDue p lane rest := ⟨_, rfl⟩
  have hmoves : s.laneSwitch p = (u.laneNamed p lane).enterDown p := by
    rw [laneSwitch_due hpow hst hswaps, ← hu]
    refine moveLane_down (n := n) ?_ ?_ <;> rw [hu, logicalOf_swapDue]
    · exact hcarries
    · rwa [spareBad_swapDue]
  rw [hmoves]
  refine ⟨rnnState_enterDown _ p, ((enterDown_linksStay _ p).status p 8 4 (by norm_num)).trans ?_⟩
  exact (fld_setFld_ne _ _ _ _ _ _ _ (by norm_num)).trans (fld_laneNamed u p hlane)

end

/-! ## The commands of lanes -/

variable {port : Fin 12} {l : Fin 9}

theorem exec_laneSwap (hpow : s.powered = true) (hst : s.rnnState port.val = 5) :
    exec (.laneSwap port l) s = .next (s.modRport port.val fun r => r.addSwap false l.val) :=
  congrArg Host.Outcome.next (if_pos (by simp [hpow, hst]))

theorem exec_symbolLockLoss (hpow : s.powered = true) (hst : s.rnnState port.val = 5) : exec (.symbolLockLoss port l) s =
    .next ((s.callSwap port.val l.val).raiseOpen (rnnRec 0 0x32 port.val l.val 4 (laneRes port.val l.val))) :=
  congrArg Host.Outcome.next (if_pos (by simp [hpow, hst]))

/-- Out of ACTIVE no lane is swapped (log 5). -/
theorem exec_lanes_inactive (hst : s.rnnState port.val ≠ 5) :
    exec (.laneSwap port l) s = .next s ∧ exec (.symbolLockLoss port l) s = .next s ∧ exec (.laneSwitch port) s = .next s :=
  ⟨congrArg Host.Outcome.next (if_neg (by simp [hst])), congrArg Host.Outcome.next (if_neg (by simp [hst])),
    congrArg Host.Outcome.next (laneSwitch_inactive hst)⟩

/-- The lane is named to the peer, its swap waits, and the loss is recorded. -/
theorem lockLoss_names (s : State) (p lane : Nat) (r : ErrRec) :
    let t := (s.callSwap p lane).raiseOpen r
    (t.rport p).swaps = (if (true, lane) ∈ (s.rport p).swaps then (s.rport p).swaps else (s.rport p).swaps ++ [(true, lane)]) ∧
    (t.rport p).msgs = (s.rport p).msgs ++ [.laneSwap lane] ∧ t.rnnState p = s.rnnState p ∧ ∃ e ∈ t.errPend, e.source = r.source := by
  obtain ⟨e, he, hsource, -⟩ := raiseOpen_has (s.callSwap p lane) r
  have hport := (State.rport_raiseOpen (s.callSwap p lane) r p).trans (rport_callSwap s p lane)
  refine ⟨?_, ?_, State.rnnState_raiseOpen _ r p, e, he, hsource⟩
  · rw [hport, addSwap_swaps]
  · rw [hport, addSwap_msgs]

/-- Settles O41: by what a fall to DOWN leaves of the links, what the hand-over gives the partner, and what the oldest swap does. -/
theorem portsAndLanesDown : Obligations.PortsAndLanesDown := by
  intro port lane rx rest peerSeq n s p o r gone empty partnerUp moves lo hpow
  have hp : p < 12 := port.isLt
  have hmoves {i : Instr} {x : Nat} {t : State} (hexec : exec i s = .next t)
      (h : t.rnnState p = x ∧ s.HandsOver p gone.flatten t) : moves i x :=
    ⟨t, hexec, h.1, h.2.net, h.2.mem, ⟨h.2.replay, h.2.txWait⟩, h.2.told, h.2.waits, h.2.holds⟩
  refine ⟨fun hup => ⟨fun hst => ?_, fun h5 h8 hlong hflits => ?_⟩, fun hdown hst => ?_, fun hst hup => ?_,
    exec_lanes_inactive, fun hst => ⟨?_, ?_, fun hswaps hcarries => ⟨fun hfree hgood => ?_, fun hused => ?_⟩⟩⟩
  · exact hmoves (exec_portDown hpow hst peerSeq) (portDown_handsOver hp hup _)
  · exact hmoves (exec_portHandoverTimeout hpow h5 h8 hlong hflits peerSeq) (timeout_handsOver hup _ _)
  · obtain ⟨u, hu, hleft⟩ := portDown_absorbs hp hdown peerSeq.toNat
    exact ⟨u, (exec_portDown hpow hst peerSeq).trans (congrArg _ hu), hleft⟩
  · have hne : s.rnnState p ≠ 7 := by omega
    exact ⟨_, exec_portDown hpow (hst.imp_right (.imp_right .inl)) peerSeq, portDown_records hp hup hne _⟩
  · exact ⟨_, exec_laneSwap hpow hst, rfl, by rw [State.rport_modRport]; exact addSwap_swaps ..⟩
  · obtain ⟨hwaits, hnamed, hstate, hrecord⟩ := lockLoss_names s p lane.val (rnnRec 0 0x32 p lane.val 4 (laneRes p lane.val))
    exact ⟨_, exec_symbolLockLoss hpow hst, hwaits, hnamed, hstate.trans hst, hrecord⟩
  · exact ⟨_, rfl, laneSwitch_spare hpow hst hswaps hcarries (by omega) hfree hgood⟩
  · exact ⟨_, rfl, laneSwitch_down hpow hst hswaps hcarries (by omega) hused⟩

end Sys2Proof.Machine
end
